-- ==== Sys2Proof/Word.lean ====
section
/-! DEFINITION. The word types of the Nuzarun NZ-940 and the plain data of a sparse map.
Bit 0 is the least significant bit (R5); bytes in memory are little-endian (R5). -/

namespace Sys2Proof

abbrev Byte := BitVec 8
abbrev Half := BitVec 16
/-- The instruction word and the vector register lane (R5, R28). -/
abbrev Word := BitVec 32
/-- The scalar register (R28). -/
abbrev Dword := BitVec 64
/-- A 56-bit global virtual or physical address (R180, R358). -/
abbrev Addr := BitVec 56
/-- A mask of the 32 lanes of a string (R10). -/
abbrev Mask := BitVec 32
/-- A buffer record register (R28, R182). -/
abbrev Record := BitVec 256

/-- A sparse map from keys to values: strictly rising keys, no entry that equals the default value. -/
abbrev Cells (β : Type) := List (Nat × β)

end Sys2Proof
end

