-- ==== Sys2Proof/Syntax.lean ====
section
/-! DEFINITION. The instructions of the NZ-940 and the events of its machine, one constructor of `Instr` for each row of
the opcode table. An instruction of form BA carries the one operand structure `Operands` (R44, R48, R50); the other forms
carry their own (R45 to R47). A row of the table that is an event of the machine carries the record it acts on. -/

namespace Sys2Proof

/-- The type codes of R53, in code order. -/
inductive Ty where
  | b32 | b64 | i8 | i16 | i32 | i64 | n8 | n16 | n32 | n64 | f16 | bf16 | f32 | f64 | f16x2 | bf16x2 | tap8 | tap6 | cf32
  | b8 | b16
  deriving DecidableEq, Repr

/-- The levels of R4, in code order. -/
inductive Level where
  | str | trp | clu | die | dev | sys
  deriving DecidableEq, Repr

/-- The rounding modes of R54, in code order. -/
inductive Rm where
  | rne | rtz | rup | rdn
  deriving DecidableEq, Repr

/-- The length codes of R42: 00, 01, 10, 11. -/
inductive Len where
  | one | ext | lit | extLit
  deriving DecidableEq, Repr

/-- The branch hints of R46: 00, 01, 10, 11. -/
inductive Hint where
  | none | lk | unl | unf
  deriving DecidableEq, Repr

/-- The fields of a BA instruction (R44), of its extended words (R48) and of its literal (R50). In a length without the
extended words the fields hold the implied words of R49; without a literal `lit` is 0. -/
structure Operands where
  len : Len
  settle : Bool
  fn : BitVec 6
  d : Byte
  a : Byte
  b : Byte
  c : Byte
  ty : Ty
  rm : Rm
  sat : Bool
  nega : Bool
  negb : Bool
  negc : Bool
  absa : Bool
  spec : Bool
  level : Level
  imm : Word
  lit : Dword
  deriving DecidableEq, Repr

/-- A BRA with LEN 00: its offset is OFF15 (R46). -/
structure BranchOps where
  settle : Bool
  cond : Bool
  pinv : Bool
  psel : BitVec 3
  hint : Hint
  off : BitVec 15
  deriving DecidableEq, Repr

/-- A BRA with LEN 10: its offset is the literal (R46). -/
structure BranchLongOps where
  settle : Bool
  cond : Bool
  pinv : Bool
  psel : BitVec 3
  hint : Hint
  off : Dword
  deriving DecidableEq, Repr

/-- The fields of PBLK (R47); `cnt` is COUNT − 1. -/
structure BlockOps where
  settle : Bool
  pattern : Byte
  psel : BitVec 3
  cnt : BitVec 3
  deriving DecidableEq, Repr

/-- The fields of form BI (R45). -/
structure ImmOps where
  settle : Bool
  d : Byte
  imm : BitVec 14
  deriving DecidableEq, Repr

/-- Who makes an inbound write (R376, R380): the requester ID, and the relaxed-ordering attribute. ID-based ordering frees writes of
different requesters alone, which R380 never orders. -/
structure Requester where
  id : Half
  relaxed : Bool := false
  deriving DecidableEq, Repr

/-- What a Dwezer peer asks of some bytes (R381): to read or write them, or an atomic at system scope: the function of an ATOM, or of
one element of an ACOLL, on a type; a compare and swap of two values; or the packed addition. -/
inductive PeerOp where
  | read
  | write
  | atom (fn : Nat) (ty : Ty)
  | acas (ty : Ty)
  | afadd (ty : Ty)
  deriving DecidableEq, Repr

/-- Every row of spec/opcode_table.json. -/
inductive Instr where
  | bra (o : BranchOps)
  | braLong (o : BranchLongOps)
  | pblk (o : BlockOps)
  | movi (o : ImmOps)
  | trap (o : ImmOps)
  | bkpt (o : ImmOps)
  | scall (o : ImmOps)
  | nop (o : Operands)
  | jmpi (o : Operands)
  | call (o : Operands)
  | ret (o : Operands)
  | yld (o : Operands)
  | exit (o : Operands)
  | tret (o : Operands)
  | sread (o : Operands)
  | sreadExt (o : Operands)
  | swrite (o : Operands)
  | swriteExt (o : Operands)
  | waitv (o : Operands)
  | tlbi (o : Operands)
  | cflush (o : Operands)
  | cinv (o : Operands)
  | iadd (o : Operands)
  | isub (o : Operands)
  | imul (o : Operands)
  | imad (o : Operands)
  | imin (o : Operands)
  | imax (o : Operands)
  | iabs (o : Operands)
  | iabsExt (o : Operands)
  | and (o : Operands)
  | or (o : Operands)
  | xor (o : Operands)
  | shl (o : Operands)
  | shr (o : Operands)
  | sar (o : Operands)
  | rot (o : Operands)
  | bfx (o : Operands)
  | bfi (o : Operands)
  | popc (o : Operands)
  | popcExt (o : Operands)
  | clz (o : Operands)
  | clzExt (o : Operands)
  | ctz (o : Operands)
  | ctzExt (o : Operands)
  | brev (o : Operands)
  | brevExt (o : Operands)
  | isetp (o : Operands)
  | mov (o : Operands)
  | movExt (o : Operands)
  | isel (o : Operands)
  | pand (o : Operands)
  | por (o : Operands)
  | pxor (o : Operands)
  | pnot (o : Operands)
  | pnotExt (o : Operands)
  | adda (o : Operands)
  | lea (o : Operands)
  | vtos (o : Operands)
  | vtosExt (o : Operands)
  | stov (o : Operands)
  | stovExt (o : Operands)
  | sadd (o : Operands)
  | ssub (o : Operands)
  | sand (o : Operands)
  | sor (o : Operands)
  | sshl (o : Operands)
  | sshr (o : Operands)
  | smul (o : Operands)
  | scmp (o : Operands)
  | idiv (o : Operands)
  | irem (o : Operands)
  | fadd (o : Operands)
  | fsub (o : Operands)
  | fmul (o : Operands)
  | ffma (o : Operands)
  | fmin (o : Operands)
  | fmax (o : Operands)
  | fsetp (o : Operands)
  | frcp (o : Operands)
  | frcpExt (o : Operands)
  | frsq (o : Operands)
  | frsqExt (o : Operands)
  | fsqrt (o : Operands)
  | fsqrtExt (o : Operands)
  | fdiv (o : Operands)
  | fexp2 (o : Operands)
  | fexp2Ext (o : Operands)
  | flog2 (o : Operands)
  | flog2Ext (o : Operands)
  | fsinp (o : Operands)
  | fsinpExt (o : Operands)
  | fcosp (o : Operands)
  | fcospExt (o : Operands)
  | frnd (o : Operands)
  | frndExt (o : Operands)
  | fclass (o : Operands)
  | fclassExt (o : Operands)
  | fscale (o : Operands)
  | ffrx (o : Operands)
  | ffrxExt (o : Operands)
  | cvt (o : Operands)
  | cvti (o : Operands)
  | qnt (o : Operands)
  | dqnt (o : Operands)
  | pack (o : Operands)
  | unpk (o : Operands)
  | shfl (o : Operands)
  | vote (o : Operands)
  | voteExt (o : Operands)
  | lred (o : Operands)
  | lscan (o : Operands)
  | matchLanes (o : Operands)
  | matchLanesExt (o : Operands)
  | elect (o : Operands)
  | cfma (o : Operands)
  | ld (o : Operands)
  | st (o : Operands)
  | lds (o : Operands)
  | sts (o : Operands)
  | prfm (o : Operands)
  | brmk (o : Operands)
  | brld (o : Operands)
  | brq (o : Operands)
  | acq (o : Operands)
  | commit (o : Operands)
  | abort (o : Operands)
  | cqry (o : Operands)
  | cropen (o : Operands)
  | crclose (o : Operands)
  | radd (o : Operands)
  | ldts (o : Operands)
  | atom (o : Operands)
  | acas (o : Operands)
  | afadd (o : Operands)
  | atoms (o : Operands)
  | bar (o : Operands)
  | barv (o : Operands)
  | bwait (o : Operands)
  | bexp (o : Operands)
  | bstat (o : Operands)
  | cwait (o : Operands)
  | acpy (o : Operands)
  | acpy2 (o : Operands)
  | agath (o : Operands)
  | acoll (o : Operands)
  | mma (o : Operands)
  | mmaj (o : Operands)
  | mlease (o : Operands)
  | tdef (o : Operands)
  | tidx (o : Operands)
  | tmul (o : Operands)
  | tew (o : Operands)
  | tred (o : Operands)
  | ttrn (o : Operands)
  | tqnt (o : Operands)
  | tforce (o : Operands)
  | tst (o : Operands)
  | twalk (o : Operands)
  | tdrop (o : Operands)
  | tstat (o : Operands)
  | spawn (o : Operands)
  | take (o : Operands)
  | done (o : Operands)
  | cancel (o : Operands)
  | tchk (o : Operands)
  | launch (o : Operands)
  | jwait (o : Operands)
  | ensure (o : Operands)
  | elseby (o : Operands)
  | elseerr (o : Operands)
  | accept (o : Operands)
  | reject (o : Operands)
  | tjoin (o : Operands)
  | tleave (o : Operands)
  | rstat (o : Operands)
  /-- LATE_FAULT_DELIVER (R390): the oldest late fault of the issuing string goes to the chosen group. -/
  | lateFaultDeliver
  /-- REGISTER_RESULT_RETURN (R34): the results of access `acc` are written to its registers. -/
  | registerResultReturn (acc : Nat)
  /-- STORE_ACCEPT (R204): line `line` of store `acc` enters its buffer or leaves for the memory unit. -/
  | storeAccept (acc line : Nat)
  /-- COMMIT_COMPLETE (R211): commit `op` advances: take point, lines sent, publication, completion. -/
  | commitComplete (op : Nat)
  /-- ROUND_CONFIRM (R212): the combined answer to the round query of `core`. -/
  | roundConfirm (core : Nat)
  /-- HOME_WRITE_ARRIVAL (R212): write `wid` arrives at its next home slice. -/
  | homeWriteArrival (wid : Nat)
  /-- ACQ_COMPLETE (R238). -/
  | acqComplete (op : Nat)
  /-- ABORT_COMPLETE (R214). -/
  | abortComplete (op : Nat)
  /-- RANGE_DECLARATION_COMPLETE (R224). -/
  | rangeDeclarationComplete (op : Nat)
  /-- RANGE_CLOSE_COMPLETE (R227). -/
  | rangeCloseComplete (op : Nat)
  /-- PAGE_WALK_COMPLETE (R362): line request `line` of access `acc` is answered, refused or hitched. -/
  | pageWalkComplete (acc line : Nat)
  /-- FAULT_RECORD_POST (R364): the fault processor posts the oldest kept notice of paddock `pad`. -/
  | faultRecordPost (pad : Nat)
  /-- FRESOLVE_REPLAY (R365). -/
  | fresolveReplay (pad : Nat) (src : BitVec 8) (fid : BitVec 24)
  /-- FRESOLVE_REFUSE_PAGE_FAULT (R365). -/
  | fresolveRefusePageFault (pad : Nat) (src : BitVec 8) (fid : BitVec 24)
  /-- FRESOLVE_REFUSE_PERMISSION (R365). -/
  | fresolveRefusePermission (pad : Nat) (src : BitVec 8) (fid : BitVec 24)
  /-- INVCNT_WRITE (R361, R368). -/
  | invcntWrite (pad : Nat) (cnt : BitVec 31)
  /-- INVALIDATION_COMPLETE (R368). -/
  | invalidationComplete (pad : Nat)
  /-- OWNCNT_WRITE (R363). -/
  | owncntWrite (pad : Nat) (cnt : BitVec 9)
  /-- PTROOT_WRITE (R361). -/
  | ptrootWrite (pad : Nat) (secure asRoot : Bool) (val : Dword)
  /-- FAULT_QUEUE_REG_WRITE (R364): FQBASE, FQLOG or FQRD. -/
  | faultQueueRegWrite (pad : Nat) (off : Nat) (val : Dword)
  /-- REGISTER_WRITE (R6): a register of paddock `fn`, or of PF0 (`none`). -/
  | registerWrite (fn : Option Nat) (off : Nat) (val : Dword)
  /-- DOORBELL_WRITE (R289). -/
  | doorbellWrite (pad q : Nat) (val : Dword)
  /-- QUEUE_REGISTER (R288, R373). -/
  | queueRegister (pad : Nat) (qid : BitVec 6)
  /-- QUEUE_UNREGISTER (R373). -/
  | queueUnregister (pad : Nat) (qid : BitVec 6)
  /-- PACKET_ADMIT (R293, R296): queue 64 is the device-side queue (R346). -/
  | packetAdmit (pad q : Nat)
  /-- BARRIER_AND_SATISFIED (R294). -/
  | barrierAndSatisfied (launch : Nat)
  /-- JOB_ACTIVATE (R334): `core` is the core that receives the troop of index 0. -/
  | jobActivate (launch core : Nat)
  /-- TROOP_DISPATCH (R297): core and base slice of each troop started together. -/
  | troopDispatch (launch : Nat) (places : List (Nat × Nat))
  /-- STRING_RETIRE (R38). -/
  | stringRetire (sid : Nat)
  /-- TROOP_RETIRE (R39). -/
  | troopRetire (tid : Nat)
  /-- PACKET_RELEASE (R293). -/
  | packetRelease (launch : Nat)
  /-- COMPLETION_SIGNAL_WRITE (R295). -/
  | completionSignalWrite (launch : Nat)
  /-- DRAIN (R303). -/
  | drain (pad : Nat) (slot : Byte)
  /-- CUT (R304). -/
  | cut (pad : Nat) (slot : Byte)
  /-- RESUME (R307). -/
  | resume (pad : Nat) (slot : Byte)
  /-- RESET (R305). -/
  | reset (pad : Nat)
  /-- DRAIN_DEADLINE_EXPIRY (R303). -/
  | drainDeadlineExpiry (pad : Nat)
  /-- CUTBOUND_EXPIRY (R305). -/
  | cutboundExpiry (pad : Nat)
  /-- REIN_MARKER_ARRIVAL (R304). -/
  | reinMarkerArrival (core : Nat)
  /-- CUT_COMPLETE (R304): the cut took `us` microseconds. -/
  | cutComplete (pad us : Nat)
  /-- NODE_CELL_COMPUTE (R165): `bad1`, `bad2` say whether the check of R149 fails in the first run and in the rerun. -/
  | nodeCellCompute (core node cell : Nat) (bad1 bad2 : Bool)
  /-- TILE_OP_RETIRE (R167). -/
  | tileOpRetire (op : Nat)
  /-- COPY_ENGINE_RETIRE (R249). -/
  | copyEngineRetire (op : Nat)
  /-- MATRIX_OP_COMPLETE (R142, R149). -/
  | matrixOpComplete (core quarter : Nat) (bad1 bad2 : Bool)
  /-- WAITV_REREAD (R322). -/
  | waitvReread (acc lane : Nat)
  /-- CYCLE_LIMIT_EXPIRY (R416). -/
  | cycleLimitExpiry (tid depth : Nat)
  /-- TEST_DRAIN_COMPLETE (R412). -/
  | testDrainComplete (tid : Nat)
  /-- OUTRIDER_COMPARE (R436). -/
  | outriderCompare (tid : Nat)
  /-- TIE_BREAK_DECIDE (R436). -/
  | tieBreakDecide (tid : Nat)
  /-- REFILL_BATCH_LAND (R338). -/
  | refillBatchLand (core : Nat)
  /-- STEAL_REQUEST (R340). -/
  | stealRequest (thief victim job : Nat)
  /-- STEAL_ANSWER (R340). -/
  | stealAnswer (sid : Nat)
  /-- SYSTEM_OP_COMPLETE (R401). -/
  | systemOpComplete (op : Nat)
  /-- INBOUND_PCIE_WRITE (R379). -/
  | inboundPcieWrite (pad zone off : Nat) (req : Requester) (poisoned : Bool) (data : List Byte)
  /-- INBOUND_PCIE_READ (R379). -/
  | inboundPcieRead (pad zone off len : Nat)
  /-- PEER_REQUEST (R381). -/
  | peerRequest (peer pad : Nat) (pa : Addr) (what : PeerOp) (data : List Byte)
  /-- PEER_LINK_LOSS (R381). -/
  | peerLinkLoss (peer : Nat)
  /-- VF_FLR (R376). -/
  | vfFlr (pad : Nat)
  /-- PF0_FLR (R376): `ok` says that no step of the warm start failed (R383). -/
  | pf0Flr
  /-- COLD_START (R382): `ok` says that no step failed, `badCores` which cores BIST removes. -/
  | coldStart (ok : Bool) (badCores : List Nat)
  /-- THROTTLE (R385): the clock falls by `steps` times 100 MHz. -/
  | throttle (steps : Nat)
  /-- THERMAL_TRIP (R385). -/
  | thermalTrip
  /-- WARM_START (R383). -/
  | warmStart (ok : Bool)
  /-- PATROL_SCRUB (R441). -/
  | patrolScrub (line : Nat)
  /-- SCAN_TEST_START (R444). -/
  | scanTestStart (core : Nat)
  /-- SCAN_TEST_COMPLETE (R444, R445). -/
  | scanTestComplete (core : Nat) (pass : Bool)
  /-- CANCEL_BIT_SET (R341): the cancel made by `op` reaches `core`. -/
  | cancelBitSet (op core : Nat)
  /-- PADDOCK_CREATE (R374). -/
  | paddockCreate
  /-- PADDOCK_DESTROY (R374). -/
  | paddockDestroy
  /-- QUEUE_SECURE (R374). -/
  | queueSecure
  /-- ATTEST (R384). -/
  | attest
  /-- READ_INFO (R374). -/
  | readInfo
  /-- ILLEGAL_INSTRUCTION (R58): the issued words decode to no instruction. -/
  | illegalInstruction
  deriving DecidableEq, Repr

/-- The instructions of form BA. -/
inductive Op where
  | nop | jmpi | call | ret | yld | exit | tret | sread | sreadExt | swrite | swriteExt | waitv | tlbi | cflush
  | cinv | iadd | isub | imul | imad | imin | imax | iabs | iabsExt | and | or | xor | shl | shr | sar | rot
  | bfx | bfi | popc | popcExt | clz | clzExt | ctz | ctzExt | brev | brevExt | isetp | mov | movExt | isel
  | pand | por | pxor | pnot | pnotExt | adda | lea | vtos | vtosExt | stov | stovExt | sadd | ssub | sand
  | sor | sshl | sshr | smul | scmp | idiv | irem | fadd | fsub | fmul | ffma | fmin | fmax | fsetp | frcp
  | frcpExt | frsq | frsqExt | fsqrt | fsqrtExt | fdiv | fexp2 | fexp2Ext | flog2 | flog2Ext | fsinp | fsinpExt
  | fcosp | fcospExt | frnd | frndExt | fclass | fclassExt | fscale | ffrx | ffrxExt | cvt | cvti | qnt | dqnt
  | pack | unpk | shfl | vote | voteExt | lred | lscan | matchLanes | matchLanesExt | elect | cfma | ld | st
  | lds | sts | prfm | brmk | brld | brq | acq | commit | abort | cqry | cropen | crclose | radd | ldts | atom
  | acas | afadd | atoms | bar | barv | bwait | bexp | bstat | cwait | acpy | acpy2 | agath | acoll | mma
  | mmaj | mlease | tdef | tidx | tmul | tew | tred | ttrn | tqnt | tforce | tst | twalk | tdrop | tstat
  | spawn | take | done | cancel | tchk | launch | jwait | ensure | elseby | elseerr | accept | reject | tjoin
  | tleave | rstat
  deriving DecidableEq, Repr

/-- The constructor of `Instr` that an instruction of form BA is. -/
def Op.instr : Op → Operands → Instr
  | .nop, o => .nop o
  | .jmpi, o => .jmpi o
  | .call, o => .call o
  | .ret, o => .ret o
  | .yld, o => .yld o
  | .exit, o => .exit o
  | .tret, o => .tret o
  | .sread, o => .sread o
  | .sreadExt, o => .sreadExt o
  | .swrite, o => .swrite o
  | .swriteExt, o => .swriteExt o
  | .waitv, o => .waitv o
  | .tlbi, o => .tlbi o
  | .cflush, o => .cflush o
  | .cinv, o => .cinv o
  | .iadd, o => .iadd o
  | .isub, o => .isub o
  | .imul, o => .imul o
  | .imad, o => .imad o
  | .imin, o => .imin o
  | .imax, o => .imax o
  | .iabs, o => .iabs o
  | .iabsExt, o => .iabsExt o
  | .and, o => .and o
  | .or, o => .or o
  | .xor, o => .xor o
  | .shl, o => .shl o
  | .shr, o => .shr o
  | .sar, o => .sar o
  | .rot, o => .rot o
  | .bfx, o => .bfx o
  | .bfi, o => .bfi o
  | .popc, o => .popc o
  | .popcExt, o => .popcExt o
  | .clz, o => .clz o
  | .clzExt, o => .clzExt o
  | .ctz, o => .ctz o
  | .ctzExt, o => .ctzExt o
  | .brev, o => .brev o
  | .brevExt, o => .brevExt o
  | .isetp, o => .isetp o
  | .mov, o => .mov o
  | .movExt, o => .movExt o
  | .isel, o => .isel o
  | .pand, o => .pand o
  | .por, o => .por o
  | .pxor, o => .pxor o
  | .pnot, o => .pnot o
  | .pnotExt, o => .pnotExt o
  | .adda, o => .adda o
  | .lea, o => .lea o
  | .vtos, o => .vtos o
  | .vtosExt, o => .vtosExt o
  | .stov, o => .stov o
  | .stovExt, o => .stovExt o
  | .sadd, o => .sadd o
  | .ssub, o => .ssub o
  | .sand, o => .sand o
  | .sor, o => .sor o
  | .sshl, o => .sshl o
  | .sshr, o => .sshr o
  | .smul, o => .smul o
  | .scmp, o => .scmp o
  | .idiv, o => .idiv o
  | .irem, o => .irem o
  | .fadd, o => .fadd o
  | .fsub, o => .fsub o
  | .fmul, o => .fmul o
  | .ffma, o => .ffma o
  | .fmin, o => .fmin o
  | .fmax, o => .fmax o
  | .fsetp, o => .fsetp o
  | .frcp, o => .frcp o
  | .frcpExt, o => .frcpExt o
  | .frsq, o => .frsq o
  | .frsqExt, o => .frsqExt o
  | .fsqrt, o => .fsqrt o
  | .fsqrtExt, o => .fsqrtExt o
  | .fdiv, o => .fdiv o
  | .fexp2, o => .fexp2 o
  | .fexp2Ext, o => .fexp2Ext o
  | .flog2, o => .flog2 o
  | .flog2Ext, o => .flog2Ext o
  | .fsinp, o => .fsinp o
  | .fsinpExt, o => .fsinpExt o
  | .fcosp, o => .fcosp o
  | .fcospExt, o => .fcospExt o
  | .frnd, o => .frnd o
  | .frndExt, o => .frndExt o
  | .fclass, o => .fclass o
  | .fclassExt, o => .fclassExt o
  | .fscale, o => .fscale o
  | .ffrx, o => .ffrx o
  | .ffrxExt, o => .ffrxExt o
  | .cvt, o => .cvt o
  | .cvti, o => .cvti o
  | .qnt, o => .qnt o
  | .dqnt, o => .dqnt o
  | .pack, o => .pack o
  | .unpk, o => .unpk o
  | .shfl, o => .shfl o
  | .vote, o => .vote o
  | .voteExt, o => .voteExt o
  | .lred, o => .lred o
  | .lscan, o => .lscan o
  | .matchLanes, o => .matchLanes o
  | .matchLanesExt, o => .matchLanesExt o
  | .elect, o => .elect o
  | .cfma, o => .cfma o
  | .ld, o => .ld o
  | .st, o => .st o
  | .lds, o => .lds o
  | .sts, o => .sts o
  | .prfm, o => .prfm o
  | .brmk, o => .brmk o
  | .brld, o => .brld o
  | .brq, o => .brq o
  | .acq, o => .acq o
  | .commit, o => .commit o
  | .abort, o => .abort o
  | .cqry, o => .cqry o
  | .cropen, o => .cropen o
  | .crclose, o => .crclose o
  | .radd, o => .radd o
  | .ldts, o => .ldts o
  | .atom, o => .atom o
  | .acas, o => .acas o
  | .afadd, o => .afadd o
  | .atoms, o => .atoms o
  | .bar, o => .bar o
  | .barv, o => .barv o
  | .bwait, o => .bwait o
  | .bexp, o => .bexp o
  | .bstat, o => .bstat o
  | .cwait, o => .cwait o
  | .acpy, o => .acpy o
  | .acpy2, o => .acpy2 o
  | .agath, o => .agath o
  | .acoll, o => .acoll o
  | .mma, o => .mma o
  | .mmaj, o => .mmaj o
  | .mlease, o => .mlease o
  | .tdef, o => .tdef o
  | .tidx, o => .tidx o
  | .tmul, o => .tmul o
  | .tew, o => .tew o
  | .tred, o => .tred o
  | .ttrn, o => .ttrn o
  | .tqnt, o => .tqnt o
  | .tforce, o => .tforce o
  | .tst, o => .tst o
  | .twalk, o => .twalk o
  | .tdrop, o => .tdrop o
  | .tstat, o => .tstat o
  | .spawn, o => .spawn o
  | .take, o => .take o
  | .done, o => .done o
  | .cancel, o => .cancel o
  | .tchk, o => .tchk o
  | .launch, o => .launch o
  | .jwait, o => .jwait o
  | .ensure, o => .ensure o
  | .elseby, o => .elseby o
  | .elseerr, o => .elseerr o
  | .accept, o => .accept o
  | .reject, o => .reject o
  | .tjoin, o => .tjoin o
  | .tleave, o => .tleave o
  | .rstat, o => .rstat o

/-- The form BA of an instruction: its `Op` and its operands. -/
def Instr.ba : Instr → Option (Op × Operands)
  | .bra _ => none
  | .braLong _ => none
  | .pblk _ => none
  | .movi _ => none
  | .trap _ => none
  | .bkpt _ => none
  | .scall _ => none
  | .nop o => some (.nop, o)
  | .jmpi o => some (.jmpi, o)
  | .call o => some (.call, o)
  | .ret o => some (.ret, o)
  | .yld o => some (.yld, o)
  | .exit o => some (.exit, o)
  | .tret o => some (.tret, o)
  | .sread o => some (.sread, o)
  | .sreadExt o => some (.sreadExt, o)
  | .swrite o => some (.swrite, o)
  | .swriteExt o => some (.swriteExt, o)
  | .waitv o => some (.waitv, o)
  | .tlbi o => some (.tlbi, o)
  | .cflush o => some (.cflush, o)
  | .cinv o => some (.cinv, o)
  | .iadd o => some (.iadd, o)
  | .isub o => some (.isub, o)
  | .imul o => some (.imul, o)
  | .imad o => some (.imad, o)
  | .imin o => some (.imin, o)
  | .imax o => some (.imax, o)
  | .iabs o => some (.iabs, o)
  | .iabsExt o => some (.iabsExt, o)
  | .and o => some (.and, o)
  | .or o => some (.or, o)
  | .xor o => some (.xor, o)
  | .shl o => some (.shl, o)
  | .shr o => some (.shr, o)
  | .sar o => some (.sar, o)
  | .rot o => some (.rot, o)
  | .bfx o => some (.bfx, o)
  | .bfi o => some (.bfi, o)
  | .popc o => some (.popc, o)
  | .popcExt o => some (.popcExt, o)
  | .clz o => some (.clz, o)
  | .clzExt o => some (.clzExt, o)
  | .ctz o => some (.ctz, o)
  | .ctzExt o => some (.ctzExt, o)
  | .brev o => some (.brev, o)
  | .brevExt o => some (.brevExt, o)
  | .isetp o => some (.isetp, o)
  | .mov o => some (.mov, o)
  | .movExt o => some (.movExt, o)
  | .isel o => some (.isel, o)
  | .pand o => some (.pand, o)
  | .por o => some (.por, o)
  | .pxor o => some (.pxor, o)
  | .pnot o => some (.pnot, o)
  | .pnotExt o => some (.pnotExt, o)
  | .adda o => some (.adda, o)
  | .lea o => some (.lea, o)
  | .vtos o => some (.vtos, o)
  | .vtosExt o => some (.vtosExt, o)
  | .stov o => some (.stov, o)
  | .stovExt o => some (.stovExt, o)
  | .sadd o => some (.sadd, o)
  | .ssub o => some (.ssub, o)
  | .sand o => some (.sand, o)
  | .sor o => some (.sor, o)
  | .sshl o => some (.sshl, o)
  | .sshr o => some (.sshr, o)
  | .smul o => some (.smul, o)
  | .scmp o => some (.scmp, o)
  | .idiv o => some (.idiv, o)
  | .irem o => some (.irem, o)
  | .fadd o => some (.fadd, o)
  | .fsub o => some (.fsub, o)
  | .fmul o => some (.fmul, o)
  | .ffma o => some (.ffma, o)
  | .fmin o => some (.fmin, o)
  | .fmax o => some (.fmax, o)
  | .fsetp o => some (.fsetp, o)
  | .frcp o => some (.frcp, o)
  | .frcpExt o => some (.frcpExt, o)
  | .frsq o => some (.frsq, o)
  | .frsqExt o => some (.frsqExt, o)
  | .fsqrt o => some (.fsqrt, o)
  | .fsqrtExt o => some (.fsqrtExt, o)
  | .fdiv o => some (.fdiv, o)
  | .fexp2 o => some (.fexp2, o)
  | .fexp2Ext o => some (.fexp2Ext, o)
  | .flog2 o => some (.flog2, o)
  | .flog2Ext o => some (.flog2Ext, o)
  | .fsinp o => some (.fsinp, o)
  | .fsinpExt o => some (.fsinpExt, o)
  | .fcosp o => some (.fcosp, o)
  | .fcospExt o => some (.fcospExt, o)
  | .frnd o => some (.frnd, o)
  | .frndExt o => some (.frndExt, o)
  | .fclass o => some (.fclass, o)
  | .fclassExt o => some (.fclassExt, o)
  | .fscale o => some (.fscale, o)
  | .ffrx o => some (.ffrx, o)
  | .ffrxExt o => some (.ffrxExt, o)
  | .cvt o => some (.cvt, o)
  | .cvti o => some (.cvti, o)
  | .qnt o => some (.qnt, o)
  | .dqnt o => some (.dqnt, o)
  | .pack o => some (.pack, o)
  | .unpk o => some (.unpk, o)
  | .shfl o => some (.shfl, o)
  | .vote o => some (.vote, o)
  | .voteExt o => some (.voteExt, o)
  | .lred o => some (.lred, o)
  | .lscan o => some (.lscan, o)
  | .matchLanes o => some (.matchLanes, o)
  | .matchLanesExt o => some (.matchLanesExt, o)
  | .elect o => some (.elect, o)
  | .cfma o => some (.cfma, o)
  | .ld o => some (.ld, o)
  | .st o => some (.st, o)
  | .lds o => some (.lds, o)
  | .sts o => some (.sts, o)
  | .prfm o => some (.prfm, o)
  | .brmk o => some (.brmk, o)
  | .brld o => some (.brld, o)
  | .brq o => some (.brq, o)
  | .acq o => some (.acq, o)
  | .commit o => some (.commit, o)
  | .abort o => some (.abort, o)
  | .cqry o => some (.cqry, o)
  | .cropen o => some (.cropen, o)
  | .crclose o => some (.crclose, o)
  | .radd o => some (.radd, o)
  | .ldts o => some (.ldts, o)
  | .atom o => some (.atom, o)
  | .acas o => some (.acas, o)
  | .afadd o => some (.afadd, o)
  | .atoms o => some (.atoms, o)
  | .bar o => some (.bar, o)
  | .barv o => some (.barv, o)
  | .bwait o => some (.bwait, o)
  | .bexp o => some (.bexp, o)
  | .bstat o => some (.bstat, o)
  | .cwait o => some (.cwait, o)
  | .acpy o => some (.acpy, o)
  | .acpy2 o => some (.acpy2, o)
  | .agath o => some (.agath, o)
  | .acoll o => some (.acoll, o)
  | .mma o => some (.mma, o)
  | .mmaj o => some (.mmaj, o)
  | .mlease o => some (.mlease, o)
  | .tdef o => some (.tdef, o)
  | .tidx o => some (.tidx, o)
  | .tmul o => some (.tmul, o)
  | .tew o => some (.tew, o)
  | .tred o => some (.tred, o)
  | .ttrn o => some (.ttrn, o)
  | .tqnt o => some (.tqnt, o)
  | .tforce o => some (.tforce, o)
  | .tst o => some (.tst, o)
  | .twalk o => some (.twalk, o)
  | .tdrop o => some (.tdrop, o)
  | .tstat o => some (.tstat, o)
  | .spawn o => some (.spawn, o)
  | .take o => some (.take, o)
  | .done o => some (.done, o)
  | .cancel o => some (.cancel, o)
  | .tchk o => some (.tchk, o)
  | .launch o => some (.launch, o)
  | .jwait o => some (.jwait, o)
  | .ensure o => some (.ensure, o)
  | .elseby o => some (.elseby, o)
  | .elseerr o => some (.elseerr, o)
  | .accept o => some (.accept, o)
  | .reject o => some (.reject, o)
  | .tjoin o => some (.tjoin, o)
  | .tleave o => some (.tleave, o)
  | .rstat o => some (.rstat, o)
  | .lateFaultDeliver => none
  | .registerResultReturn _ => none
  | .storeAccept _ _ => none
  | .commitComplete _ => none
  | .roundConfirm _ => none
  | .homeWriteArrival _ => none
  | .acqComplete _ => none
  | .abortComplete _ => none
  | .rangeDeclarationComplete _ => none
  | .rangeCloseComplete _ => none
  | .pageWalkComplete _ _ => none
  | .faultRecordPost _ => none
  | .fresolveReplay _ _ _ => none
  | .fresolveRefusePageFault _ _ _ => none
  | .fresolveRefusePermission _ _ _ => none
  | .invcntWrite _ _ => none
  | .invalidationComplete _ => none
  | .owncntWrite _ _ => none
  | .ptrootWrite _ _ _ _ => none
  | .faultQueueRegWrite _ _ _ => none
  | .registerWrite _ _ _ => none
  | .doorbellWrite _ _ _ => none
  | .queueRegister _ _ => none
  | .queueUnregister _ _ => none
  | .packetAdmit _ _ => none
  | .barrierAndSatisfied _ => none
  | .jobActivate _ _ => none
  | .troopDispatch _ _ => none
  | .stringRetire _ => none
  | .troopRetire _ => none
  | .packetRelease _ => none
  | .completionSignalWrite _ => none
  | .drain _ _ => none
  | .cut _ _ => none
  | .resume _ _ => none
  | .reset _ => none
  | .drainDeadlineExpiry _ => none
  | .cutboundExpiry _ => none
  | .reinMarkerArrival _ => none
  | .cutComplete _ _ => none
  | .nodeCellCompute _ _ _ _ _ => none
  | .tileOpRetire _ => none
  | .copyEngineRetire _ => none
  | .matrixOpComplete _ _ _ _ => none
  | .waitvReread _ _ => none
  | .cycleLimitExpiry _ _ => none
  | .testDrainComplete _ => none
  | .outriderCompare _ => none
  | .tieBreakDecide _ => none
  | .refillBatchLand _ => none
  | .stealRequest _ _ _ => none
  | .stealAnswer _ => none
  | .systemOpComplete _ => none
  | .inboundPcieWrite _ _ _ _ _ _ => none
  | .inboundPcieRead _ _ _ _ => none
  | .peerRequest _ _ _ _ _ => none
  | .peerLinkLoss _ => none
  | .vfFlr _ => none
  | .pf0Flr => none
  | .coldStart _ _ => none
  | .throttle _ => none
  | .thermalTrip => none
  | .paddockCreate => none
  | .paddockDestroy => none
  | .queueSecure => none
  | .attest => none
  | .warmStart _ => none
  | .readInfo => none
  | .patrolScrub _ => none
  | .scanTestStart _ => none
  | .scanTestComplete _ _ => none
  | .illegalInstruction => none
  | .cancelBitSet _ _ => none

/-- Every `Op`, in the order of the opcode table. -/
def Op.all : List Op :=
  List.flatten [
    [.nop, .jmpi, .call, .ret, .yld, .exit, .tret, .sread, .sreadExt, .swrite, .swriteExt, .waitv, .tlbi, .cflush],
    [.cinv, .iadd, .isub, .imul, .imad, .imin, .imax, .iabs, .iabsExt, .and, .or, .xor, .shl, .shr],
    [.sar, .rot, .bfx, .bfi, .popc, .popcExt, .clz, .clzExt, .ctz, .ctzExt, .brev, .brevExt, .isetp, .mov],
    [.movExt, .isel, .pand, .por, .pxor, .pnot, .pnotExt, .adda, .lea, .vtos, .vtosExt, .stov, .stovExt, .sadd],
    [.ssub, .sand, .sor, .sshl, .sshr, .smul, .scmp, .idiv, .irem, .fadd, .fsub, .fmul, .ffma, .fmin],
    [.fmax, .fsetp, .frcp, .frcpExt, .frsq, .frsqExt, .fsqrt, .fsqrtExt, .fdiv, .fexp2, .fexp2Ext, .flog2, .flog2Ext, .fsinp],
    [.fsinpExt, .fcosp, .fcospExt, .frnd, .frndExt, .fclass, .fclassExt, .fscale, .ffrx, .ffrxExt, .cvt, .cvti, .qnt, .dqnt],
    [.pack, .unpk, .shfl, .vote, .voteExt, .lred, .lscan, .matchLanes, .matchLanesExt, .elect, .cfma, .ld, .st, .lds],
    [.sts, .prfm, .brmk, .brld, .brq, .acq, .commit, .abort, .cqry, .cropen, .crclose, .radd, .ldts, .atom],
    [.acas, .afadd, .atoms, .bar, .barv, .bwait, .bexp, .bstat, .cwait, .acpy, .acpy2, .agath, .acoll, .mma],
    [.mmaj, .mlease, .tdef, .tidx, .tmul, .tew, .tred, .ttrn, .tqnt, .tforce, .tst, .twalk, .tdrop, .tstat],
    [.spawn, .take, .done, .cancel, .tchk, .launch, .jwait, .ensure, .elseby, .elseerr, .accept, .reject, .tjoin, .tleave],
    [.rstat]]

end Sys2Proof
end

