-- ==== Sys2Proof/Machine/Bits.lean ====
section
/-! DEFINITION. Bit fields, sign extension, byte order, the codes of types and levels, and the operations of the sparse maps.
The manual's notation for bits is R5; type codes are R53, levels R4, rounding modes R54. -/

namespace Sys2Proof

/-- Bits hi down to lo of `x` as a number (R5). -/
def bitsNat {n : Nat} (x : BitVec n) (hi lo : Nat) : Nat := (x.toNat >>> lo) % 2 ^ (hi + 1 - lo)

/-- The number `x` read as a two's complement value of `w` bits. -/
def toSigned (w x : Nat) : Int := if x % 2 ^ w < 2 ^ (w - 1) then (x % 2 ^ w : Nat) else (x % 2 ^ w : Nat) - (2 ^ w : Nat)

/-- The low `w` bits of an integer (R7). -/
def wrapNat (w : Nat) (x : Int) : Nat := (x % (2 ^ w : Nat)).toNat

/-- The lanes named by a mask, in increasing order. -/
def lanesOf (m : Mask) : List Nat := (List.range 32).filter fun l => m.getLsbD l

/-- The mask of a list of lanes. -/
def maskOf (ls : List Nat) : Mask := ls.foldl (fun m l => m ||| (1#32 <<< l)) 0#32

/-- A 64-bit value is canonical when bits [63:56] equal bit 55 (R180). -/
def canonical (x : Dword) : Bool := bitsNat x 63 55 == 0 || bitsNat x 63 55 == 511

/-- The 56-bit form of a 64-bit address (R180). -/
def addr56 (x : Dword) : Addr := x.setWidth 56

/-- The canonical 64-bit form of a 56-bit address (R180). -/
def dwordOf (x : Addr) : Dword := x.signExtend 64

/-- R181: the bytes first to last of an access lie in one half of the global space. -/
def spanOk (first : Int) (w : Nat) : Bool :=
  decide (0 ≤ first) && decide (first + w - 1 < 2 ^ 56) && !(decide (first < 2 ^ 55) && decide (2 ^ 55 ≤ first + w - 1))

/-- The `n` low bytes of a number, little-endian (R5). -/
def bytesOf : Nat → Nat → List Byte
  | 0, _ => []
  | n + 1, x => BitVec.ofNat 8 x :: bytesOf n (x >>> 8)

/-- A little-endian list of bytes as a number (R5). -/
def natOfBytes : List Byte → Nat
  | [] => 0
  | b :: bs => b.toNat + 256 * natOfBytes bs

/-! ### Type codes, levels and rounding modes -/

def Ty.code : Ty → Nat
  | .b32 => 0 | .b64 => 1 | .i8 => 2 | .i16 => 3 | .i32 => 4 | .i64 => 5 | .n8 => 6 | .n16 => 7 | .n32 => 8 | .n64 => 9
  | .f16 => 10 | .bf16 => 11 | .f32 => 12 | .f64 => 13 | .f16x2 => 14 | .bf16x2 => 15 | .tap8 => 16 | .tap6 => 17
  | .cf32 => 18 | .b8 => 19 | .b16 => 20

/-- Codes 0x15–0x1F name no type (R53). -/
def Ty.ofCode : Nat → Option Ty
  | 0 => some .b32 | 1 => some .b64 | 2 => some .i8 | 3 => some .i16 | 4 => some .i32 | 5 => some .i64 | 6 => some .n8
  | 7 => some .n16 | 8 => some .n32 | 9 => some .n64 | 10 => some .f16 | 11 => some .bf16 | 12 => some .f32 | 13 => some .f64
  | 14 => some .f16x2 | 15 => some .bf16x2 | 16 => some .tap8 | 17 => some .tap6 | 18 => some .cf32 | 19 => some .b8
  | 20 => some .b16 | _ => none

/-- The width column of R53. -/
def Ty.width : Ty → Nat
  | .i8 | .n8 | .b8 | .tap8 => 8
  | .i16 | .n16 | .b16 | .f16 | .bf16 => 16
  | .tap6 => 6
  | .b64 | .i64 | .n64 | .f64 | .cf32 => 64
  | _ => 32

/-- A type of 64 bits occupies an even-odd pair of vector registers (R53). -/
def Ty.wide (t : Ty) : Bool := t.width == 64

def Ty.isSigned : Ty → Bool
  | .i8 | .i16 | .i32 | .i64 => true
  | _ => false

/-- The eight integer types of R68. -/
def Ty.isInt : Ty → Bool
  | .i8 | .i16 | .i32 | .i64 | .n8 | .n16 | .n32 | .n64 => true
  | _ => false

/-- f16, bf16, f32 and f64 (R70). -/
def Ty.isIeee : Ty → Bool
  | .f16 | .bf16 | .f32 | .f64 => true
  | _ => false

def Ty.isTap : Ty → Bool
  | .tap8 | .tap6 => true
  | _ => false

/-- The b types of R68. -/
def Ty.isBits : Ty → Bool
  | .b8 | .b16 | .b32 | .b64 => true
  | _ => false

/-- The element format of a packed type (R74). -/
def Ty.elem : Ty → Ty
  | .f16x2 => .f16
  | .bf16x2 => .bf16
  | t => t

/-- The elements of a type (R74, R114). -/
def Ty.elems : Ty → List Nat
  | .f16x2 | .bf16x2 => [0, 1]
  | _ => [0]

def Level.code : Level → Nat
  | .str => 0 | .trp => 1 | .clu => 2 | .die => 3 | .dev => 4 | .sys => 5

/-- Codes 6 and 7 are illegal (R4). -/
def Level.ofCode : Nat → Option Level
  | 0 => some .str | 1 => some .trp | 2 => some .clu | 3 => some .die | 4 => some .dev | 5 => some .sys | _ => none

/-- A higher code is a wider level (R4). -/
def Level.max (a b : Level) : Level := if a.code < b.code then b else a

/-- The string, troop and cluster levels are buffered (R202). -/
def Level.buffered (l : Level) : Bool := l.code ≤ 2

def Rm.code : Rm → Nat
  | .rne => 0 | .rtz => 1 | .rup => 2 | .rdn => 3

def Rm.ofCode : Nat → Rm
  | 1 => .rtz | 2 => .rup | 3 => .rdn | _ => .rne

def Hint.code : Hint → Nat
  | .none => 0 | .lk => 1 | .unl => 2 | .unf => 3

def Hint.ofCode : Nat → Hint
  | 1 => .lk | 2 => .unl | 3 => .unf | _ => .none

def Len.code : Len → Nat
  | .one => 0 | .ext => 1 | .lit => 2 | .extLit => 3

def Len.ofCode : Nat → Len
  | 1 => .ext | 2 => .lit | 3 => .extLit | _ => .one

/-- The words of an instruction (R42). -/
def Len.words : Len → Nat
  | .one => 1 | .ext => 3 | .lit => 3 | .extLit => 5

def Len.hasExt : Len → Bool
  | .ext | .extLit => true
  | _ => false

def Len.hasLit : Len → Bool
  | .lit | .extLit => true
  | _ => false

/-! ### Sparse maps -/

/-- The entry of `k`, or the default. -/
def Cells.get {β : Type} (d : β) : Cells β → Nat → β
  | [], _ => d
  | (k', v) :: m, k => if k' = k then v else Cells.get d m k

/-- `m` with `(k, v)` before the first larger key. -/
def Cells.place {β : Type} (k : Nat) (v : β) : Cells β → Cells β
  | [] => [(k, v)]
  | (k', v') :: m => if k < k' then (k, v) :: (k', v') :: m else (k', v') :: Cells.place k v m

/-- `m` without the key `k`. -/
def Cells.erase {β : Type} (k : Nat) : Cells β → Cells β
  | [] => []
  | (k', v') :: m => if k' = k then Cells.erase k m else (k', v') :: Cells.erase k m

/-- `m` with `k` reading as `v`; writing the default removes the entry. -/
def Cells.set {β : Type} [DecidableEq β] (d : β) (m : Cells β) (k : Nat) (v : β) : Cells β :=
  if v = d then Cells.erase k m else Cells.place k v (Cells.erase k m)

/-- The keys of `m` rise strictly above `lo`, and no entry holds the default. -/
def Cells.risesFrom {β : Type} [DecidableEq β] (d : β) : Nat → Cells β → Bool
  | _, [] => true
  | lo, (k, v) :: m => decide (lo ≤ k) && decide (v ≠ d) && Cells.risesFrom d (k + 1) m

/-- The canonical form of a sparse map. -/
def Cells.wf {β : Type} [DecidableEq β] (d : β) (m : Cells β) : Bool := Cells.risesFrom d 0 m

/-- Writes a list of entries, the first one first. -/
def Cells.setMany {β : Type} [DecidableEq β] (d : β) (m : Cells β) : List (Nat × β) → Cells β
  | [] => m
  | (k, v) :: es => Cells.setMany d (Cells.set d m k v) es

/-- The first element that satisfies `p`, changed by `f`; the others unchanged. -/
def updFirst {α : Type} (p : α → Bool) (f : α → α) : List α → List α
  | [] => []
  | x :: xs => if p x then f x :: xs else x :: updFirst p f xs

/-- Every element that satisfies `p`, changed by `f`. -/
def updAll {α : Type} (p : α → Bool) (f : α → α) (xs : List α) : List α := xs.map fun x => if p x then f x else x

/-- `l` with entry `i` changed by `f`. -/
def updAt {α : Type} (f : α → α) : List α → Nat → List α
  | [], _ => []
  | x :: xs, 0 => f x :: xs
  | x :: xs, i + 1 => x :: updAt f xs i

end Sys2Proof
end

