-- ==== Sys2Proof/Machine/Num.lean ====
section
/-! DEFINITION. Numbers: the IEEE binary formats and the tapered formats to the bit, rounding, flush and flags, and the
exact operations that the instructions round once (R68 to R87). A finite number is m × 2^e with a sign, so every sum and
product is exact; a quotient or root keeps enough bits, with the last bit set when the rest is not zero, so that it rounds
as the exact value does. -/

namespace Sys2Proof

/-- A decoded value: a NaN (`sig` when reading it raises NV, as a signalling NaN or NaR does), an infinity, or
±m × 2^e; zero keeps its sign. -/
inductive FNum where
  | nan (sig : Bool)
  | inf (neg : Bool)
  | fin (neg : Bool) (m : Nat) (e : Int)
  deriving DecidableEq, Repr

/-- The five flags of R33: bit 0 NV, 1 DZ, 2 OF, 3 UF, 4 NX. -/
abbrev Flags := BitVec 5

def flagNV : Flags := 1#5
def flagDZ : Flags := 2#5
def flagOF : Flags := 4#5
def flagUF : Flags := 8#5
def flagNX : Flags := 16#5

/-- The exponent and fraction widths of an IEEE format (R70). -/
structure Fmt where
  eb : Nat
  fb : Nat
  deriving DecidableEq, Repr

def Fmt.bias (f : Fmt) : Nat := 2 ^ (f.eb - 1) - 1
def Fmt.width (f : Fmt) : Nat := 1 + f.eb + f.fb
/-- The exponent of the smallest normal. -/
def Fmt.emin (f : Fmt) : Int := 1 - (f.bias : Int)
/-- The pattern of +Inf. -/
def Fmt.infBits (f : Fmt) : Nat := (2 ^ f.eb - 1) * 2 ^ f.fb
/-- The canonical NaN (R70). -/
def Fmt.nanBits (f : Fmt) : Nat := f.infBits + 2 ^ (f.fb - 1)
/-- The sign bit in place. -/
def Fmt.sign (f : Fmt) (neg : Bool) : Nat := if neg then 2 ^ (f.eb + f.fb) else 0

/-- The IEEE format of a type; each part of cf32 is f32 (R74). -/
def Ty.fmt : Ty → Fmt
  | .f64 => ⟨11, 52⟩
  | .f16 | .f16x2 => ⟨5, 10⟩
  | .bf16 | .bf16x2 => ⟨8, 7⟩
  | _ => ⟨8, 23⟩

/-- Decode of an IEEE pattern (R70); with `ftz` a subnormal reads as the zero of its sign (R73). -/
def Fmt.decode (f : Fmt) (ftz : Bool) (x : Nat) : FNum :=
  let neg := (x >>> (f.eb + f.fb)) % 2 == 1
  let e := (x >>> f.fb) % 2 ^ f.eb
  let m := x % 2 ^ f.fb
  if e == 2 ^ f.eb - 1 then (if m == 0 then .inf neg else .nan (decide (m < 2 ^ (f.fb - 1))))
  else if e == 0 then (if ftz && f.fb != 52 then .fin neg 0 0 else .fin neg m (f.emin - f.fb))
  else .fin neg (m + 2 ^ f.fb) ((e : Int) - f.bias - f.fb)

/-- The number of bits of `m`. -/
def bitLen (m : Nat) : Nat := if m = 0 then 0 else Nat.log2 m + 1

/-- `m × 2^(-s)` rounded to an integer, and whether it is exact. -/
def roundShift (rm : Rm) (neg : Bool) (m s : Nat) : Nat × Bool :=
  let q := m >>> s
  let r := m % 2 ^ s
  let up := match rm with
    | .rne => decide (2 ^ s < 2 * r) || (decide (2 * r = 2 ^ s) && q % 2 == 1)
    | .rtz => false
    | .rup => !neg && decide (r ≠ 0)
    | .rdn => neg && decide (r ≠ 0)
  (if s = 0 then m else if up then q + 1 else q, decide (r = 0))

/-- ±m × 2^e rounded to a multiple of 2^q: the multiple and whether it is exact. -/
def roundTo (rm : Rm) (neg : Bool) (m : Nat) (e q : Int) : Nat × Bool :=
  if q ≤ e then (m <<< (e - q).toNat, true) else roundShift rm neg m (q - e).toNat

/-- The result of an overflow (IEEE 754-2019, R83). -/
def Fmt.overflow (f : Fmt) (rm : Rm) (neg : Bool) : Nat :=
  let toInf := match rm with | .rne => true | .rtz => false | .rup => !neg | .rdn => neg
  f.sign neg + (if toInf then f.infBits else f.infBits - 1)

/-- R72: the value rounded with an unbounded exponent range lies below the smallest normal. -/
def Fmt.tiny (f : Fmt) (rm : Rm) (neg : Bool) (m : Nat) (e : Int) : Bool :=
  let lead := e + bitLen m - 1
  if f.emin ≤ lead then false
  else !(decide (lead + 1 = f.emin) && decide ((roundTo rm neg m e (lead - f.fb)).1 = 2 ^ (f.fb + 1)))

/-- Encode of a value in an IEEE format (R8, R70 to R73): the pattern and the flags. -/
def Fmt.encode (f : Fmt) (rm : Rm) (ftz : Bool) : FNum → Nat × Flags
  | .nan _ => (f.nanBits, 0)
  | .inf neg => (f.sign neg + f.infBits, 0)
  | .fin neg m e =>
    if m = 0 then (f.sign neg, 0)
    else
      let lead := e + bitLen m - 1
      let q := max (lead - f.fb) (f.emin - f.fb)
      let (r, exact) := roundTo rm neg m e q
      let tiny := f.tiny rm neg m e
      if tiny && ftz && f.fb != 52 then (f.sign neg, flagUF ||| flagNX)
      else
        -- a mantissa of 2^(fb+1) carries into the exponent by itself
        let bits := r + (q - (f.emin - f.fb)).toNat * 2 ^ f.fb
        if bits < f.infBits then
          (f.sign neg + bits, (if exact then 0 else flagNX) ||| (if tiny && !exact then flagUF else 0))
        else (f.overflow rm neg, flagOF ||| flagNX)

/-! ### TAP8 and TAP6 -/

/-- The run of bits equal to `b` from bit n−1 downward, at most `n` (R75). -/
def tapRun (mag : Nat) (b : Bool) : Nat → Nat
  | 0 => 0
  | n + 1 => if mag.testBit n == b then 1 + tapRun mag b n else 0

/-- The magnitude of a nonzero pattern as (mantissa, exponent) (R75). -/
def tapMag (n mag : Nat) : Nat × Int :=
  let b := mag.testBit (n - 1)
  let m := tapRun mag b n
  let k : Int := if b then (m : Int) - 1 else -(m : Int)
  let rest := if m = n then 0 else n - m - 1
  let e : Int := if rest ≥ 1 && mag.testBit (rest - 1) then 1 else 0
  let fb := rest - 1
  (2 ^ fb + mag % 2 ^ fb, 2 * k + e - fb)

/-- DecodeTap (R75). NaR reads as a NaN that raises NV (R78). -/
def decodeTap (w bits : Nat) : FNum :=
  let n := w - 1
  let sgn := bits.testBit n
  let mag := bits % 2 ^ n
  if mag = 0 then (if sgn then .nan true else .fin false 0 0)
  else
    let (m, e) := tapMag n mag
    .fin sgn m e

/-- The magnitude of a TAP pattern in units of 2^-16. -/
def tapUnits (n mag : Nat) : Nat :=
  if mag = 0 then 0 else
    let (m, e) := tapMag n mag
    m <<< (e + 16).toNat

/-- The greatest magnitude pattern, at most `k`, whose value does not exceed `a` units of 2^-`s`. -/
def tapFloor (n a s : Nat) : Nat → Nat
  | 0 => 0
  | k + 1 => if tapUnits n (k + 1) <<< s ≤ a <<< 16 then k + 1 else tapFloor n a s k

/-- EncodeTap (R77): the pattern and the flags. -/
def encodeTap (w : Nat) : FNum → Nat × Flags
  | .nan _ => (2 ^ (w - 1), flagNV)
  | .inf _ => (2 ^ (w - 1), flagNV)
  | .fin neg m e =>
    let n := w - 1
    if m = 0 then (0, 0)
    else
      -- a = A × 2^-s exactly
      let s := (-e).toNat
      let a := m <<< e.toNat
      let sgn := if neg then 2 ^ n else 0
      let top := 2 ^ n - 1
      let au := a <<< 16
      if tapUnits n top <<< s < au then (sgn + top, flagOF ||| flagNX)
      else
        let lo := tapFloor n a s top
        let lv := tapUnits n lo <<< s
        let hv := tapUnits n (lo + 1) <<< s
        let mag := if lv = au then lo else
          if au - lv < hv - au then lo else if hv - au < au - lv then lo + 1 else if lo % 2 = 0 then lo else lo + 1
        let fl : Flags := (if tapUnits n mag <<< s = au then 0 else flagNX) |||
          (if au < tapUnits n 1 <<< s then flagUF else 0)
        (if mag = 0 then 0 else sgn + mag, fl)

/-- Decode of a pattern in a float or TAP format, with the input flush of R73. -/
def Ty.decode (t : Ty) (ftz : Bool) (x : Nat) : FNum :=
  if t.isTap then decodeTap t.width (x % 2 ^ t.width) else t.fmt.decode ftz (x % 2 ^ t.fmt.width)

/-- Encode of a value in a float or TAP format (R8). A TAP encode always rounds RNE (R77). -/
def Ty.encode (t : Ty) (rm : Rm) (ftz : Bool) (x : FNum) : Nat × Flags :=
  if t.isTap then encodeTap t.width x else t.fmt.encode rm ftz x

/-! ### Exact operations -/

/-- A NaN operand that raises NV (R71, R78). -/
def FNum.sigFlag : FNum → Flags
  | .nan true => flagNV
  | _ => 0

def FNum.isNan : FNum → Bool
  | .nan _ => true
  | _ => false

def FNum.isZero : FNum → Bool
  | .fin _ m _ => m == 0
  | _ => false

def FNum.sgn : FNum → Bool
  | .inf n => n
  | .fin n _ _ => n
  | _ => false

def FNum.negate : FNum → FNum
  | .inf n => .inf !n
  | .fin n m e => .fin (!n) m e
  | x => x

/-- The value × 2^k. -/
def FNum.scale (k : Int) : FNum → FNum
  | .fin n m e => .fin n m (e + k)
  | x => x

/-- ±m × 2^e in units of 2^q, for q ≤ e. -/
def unitsOf (neg : Bool) (m : Nat) (e q : Int) : Int :=
  let x : Int := (m <<< (e - q).toNat : Nat)
  if neg then -x else x

/-- A finite number from an integer in units of 2^q; a zero takes the sign given. -/
def ofUnits (x : Int) (q : Int) (zeroNeg : Bool) : FNum :=
  if x = 0 then .fin zeroNeg 0 0 else .fin (decide (x < 0)) x.natAbs q

/-- The exact sum; an exact zero of opposite signs is −0 only under RDN (R116). -/
def FNum.add (rm : Rm) : FNum → FNum → FNum × Flags
  | .nan s, y => (.nan false, (if s then flagNV else 0) ||| y.sigFlag)
  | x, .nan s => (.nan false, (if s then flagNV else 0) ||| x.sigFlag)
  | .inf a, .inf b => if a == b then (.inf a, 0) else (.nan false, flagNV)
  | .inf a, _ => (.inf a, 0)
  | _, .inf b => (.inf b, 0)
  | .fin a m e, .fin b n f =>
    let q := min e f
    let z := if m == 0 && n == 0 && a == b then a else rm == .rdn
    (ofUnits (unitsOf a m e q + unitsOf b n f q) q z, 0)

/-- The exact product. -/
def FNum.mul : FNum → FNum → FNum × Flags
  | .nan s, y => (.nan false, (if s then flagNV else 0) ||| y.sigFlag)
  | x, .nan s => (.nan false, (if s then flagNV else 0) ||| x.sigFlag)
  | .inf a, y => if y.isZero then (.nan false, flagNV) else (.inf (a != y.sgn), 0)
  | x, .inf b => if x.isZero then (.nan false, flagNV) else (.inf (b != x.sgn), 0)
  | .fin a m e, .fin b n f => (.fin (a != b) (m * n) (e + f), 0)

/-- The exact a × b + c; Inf × 0 raises NV even when c is a quiet NaN (R116). -/
def FNum.fma (rm : Rm) (a b c : FNum) : FNum × Flags :=
  let (p, f) := a.mul b
  let (r, g) := p.add rm c
  (r, f ||| g)

/-- The quotient, with 70 bits and the rest in the last bit. -/
def FNum.div : FNum → FNum → FNum × Flags
  | .nan s, y => (.nan false, (if s then flagNV else 0) ||| y.sigFlag)
  | x, .nan s => (.nan false, (if s then flagNV else 0) ||| x.sigFlag)
  | .inf _, .inf _ => (.nan false, flagNV)
  | .inf a, y => (.inf (a != y.sgn), 0)
  | x, .inf b => (.fin (b != x.sgn) 0 0, 0)
  | .fin a m e, .fin b n f =>
    if n = 0 then (if m = 0 then (.nan false, flagNV) else (.inf (a != b), flagDZ))
    else if m = 0 then (.fin (a != b) 0 0, 0)
    else
      let k := 70 + bitLen n - bitLen m
      let x := m <<< k
      (.fin (a != b) (2 * (x / n) + (if x % n = 0 then 0 else 1)) (e - f - k - 1), 0)

/-- The integer square root, one bit at a time from bit `k − 1`. -/
def isqrtAux (n : Nat) : Nat → Nat → Nat
  | 0, r => r
  | k + 1, r =>
    let t := r + 2 ^ k
    isqrtAux n k (if t * t ≤ n then t else r)

def isqrt (n : Nat) : Nat := isqrtAux n (bitLen n / 2 + 1) 0

/-- The square root, with 70 bits and the rest in the last bit. -/
def FNum.sqrt : FNum → FNum × Flags
  | .nan s => (.nan false, if s then flagNV else 0)
  | .inf n => if n then (.nan false, flagNV) else (.inf false, 0)
  | .fin n m e =>
    if m = 0 then (.fin n 0 0, 0)
    else if n then (.nan false, flagNV)
    else
      let k := 140 + (if (e % 2 = 0) then 0 else 1)
      let x := m <<< k
      let r := isqrt x
      (.fin false (2 * r + (if r * r = x then 0 else 1)) ((e - k) / 2 - 1), 0)

/-- 1/√x (R119), with the rest in the last bit. -/
def FNum.rsqrt : FNum → FNum × Flags
  | .nan s => (.nan false, if s then flagNV else 0)
  | .inf n => if n then (.nan false, flagNV) else (.fin false 0 0, 0)
  | .fin n m e =>
    if m = 0 then (.inf n, flagDZ)
    else if n then (.nan false, flagNV)
    else
      let (m, e) := if e % 2 = 0 then (m, e) else (2 * m, e - 1)
      let k := bitLen m / 2 + 80
      let r := isqrt (2 ^ (2 * k) / m)
      (.fin false (2 * r + (if r * r * m = 2 ^ (2 * k) then 0 else 1)) (-(e / 2) - k - 1), 0)

/-- 1/x (R119). -/
def FNum.recip (x : FNum) : FNum × Flags := (FNum.fin false 1 0).div x

/-- The order of two values; none for a NaN. −0 equals +0. -/
def FNum.cmp : FNum → FNum → Option Ordering
  | .nan _, _ => none
  | _, .nan _ => none
  | .inf a, .inf b => some (compare (if a then 0 else 1) (if b then 0 else 1))
  | .inf a, _ => some (if a then .lt else .gt)
  | _, .inf b => some (if b then .gt else .lt)
  | .fin a m e, .fin b n f =>
    let q := min e f
    some (compare (unitsOf a m e q) (unitsOf b n f q))

/-- FMIN (R117): −0 below +0, one NaN yields the other operand. -/
def FNum.min : FNum → FNum → FNum
  | .nan _, .nan _ => .nan false
  | .nan _, y => y
  | x, .nan _ => x
  | x, y =>
    match x.cmp y with
    | some .lt => x
    | some .gt => y
    | _ => if x.sgn then x else y

/-- FMAX (R117). -/
def FNum.max : FNum → FNum → FNum
  | .nan _, .nan _ => .nan false
  | .nan _, y => y
  | x, .nan _ => x
  | x, y =>
    match x.cmp y with
    | some .gt => x
    | some .lt => y
    | _ => if x.sgn then y else x

/-- The flags of FMIN and FMAX (R117). -/
def FNum.pairFlag (x y : FNum) : Flags := x.sigFlag ||| y.sigFlag

/-- The exact sum of a list of products (R88): −0 only when every product is −0. -/
def FNum.sum : List FNum → FNum × Flags
  | [] => (.fin true 0 0, 0)
  | x :: xs =>
    let (s, f) := FNum.sum xs
    let (r, g) := x.add .rne s
    (r, f ||| g)

/-- An integer as a number. -/
def FNum.ofInt (x : Int) : FNum := .fin (decide (x < 0)) x.natAbs 0

/-- A finite number rounded to an integer, and whether it is exact (R120, R126). -/
def roundInt (rm : Rm) (neg : Bool) (m : Nat) (e : Int) : Nat × Bool := roundTo rm neg m e 0

/-! ### Integers -/

/-- The least and greatest value of an integer type (R68). -/
def Ty.intMin (t : Ty) : Int := if t.isSigned then -(2 ^ (t.width - 1) : Nat) else 0
def Ty.intMax (t : Ty) : Int := if t.isSigned then (2 ^ (t.width - 1) : Nat) - 1 else (2 ^ t.width : Nat) - 1

/-- R68: clamps to the type's range. -/
def Ty.clamp (t : Ty) (x : Int) : Int := max t.intMin (min t.intMax x)

/-- R68: the exact integer reduced to the type, as a pattern of its width. -/
def Ty.reduce (t : Ty) (sat : Bool) (x : Int) : Nat := wrapNat t.width (if sat then t.clamp x else x)

/-- The integer value of a pattern: i types signed, n and b types unsigned (R96). -/
def Ty.intVal (t : Ty) (x : Nat) : Int := if t.isSigned then toSigned t.width x else ((x % 2 ^ t.width : Nat) : Int)

/-- R69: a pattern of the type as the contents of one 32-bit register, or of a pair. -/
def Ty.regBits (t : Ty) (x : Nat) : Nat :=
  match t with
  | .i8 | .i16 => wrapNat 32 (toSigned t.width x)
  | _ => x % 2 ^ (if t.wide then 64 else t.width)

/-- Float to integer (R126). -/
def FNum.toIntTy (t : Ty) (rm : Rm) : FNum → Nat × Flags
  | .nan _ => (0, flagNV)
  | .inf n => (wrapNat t.width (if n then t.intMin else t.intMax), flagNV)
  | .fin n m e =>
    let (r, exact) := roundInt rm n m e
    let x : Int := if n then -(r : Int) else r
    if x < t.intMin then (wrapNat t.width t.intMin, flagNV)
    else if t.intMax < x then (wrapNat t.width t.intMax, flagNV)
    else (wrapNat t.width x, if exact then 0 else flagNX)

/-! ### Conditions -/

/-- The integer conditions of R55. -/
def condInt (c : Nat) (a b : Int) : Bool :=
  match c with
  | 0 => decide (a = b) | 1 => decide (a ≠ b) | 2 => decide (a < b) | 3 => decide (a ≤ b) | 4 => decide (b < a)
  | _ => decide (b ≤ a)

/-- The float conditions of R55 and the flags of R118. -/
def condNum (c : Nat) (a b : FNum) : Bool × Flags :=
  let o := a.cmp b
  let r := match c with
    | 0 => o == some .eq | 1 => o != some .eq | 2 => o == some .lt | 3 => o == some .lt || o == some .eq
    | 4 => o == some .gt | 5 => o == some .gt || o == some .eq | 6 => o.isNone | _ => o.isSome
  let ordered := c == 2 || c == 3 || c == 4 || c == 5
  (r, if ordered && o.isNone then flagNV else a.pairFlag b)

/-- FCLASS (R121): the class of a raw pattern, with no flush. -/
def classOf (f : Fmt) (x : Nat) : Nat :=
  match f.decode false x with
  | .nan s => if s then 2 ^ 8 else 2 ^ 9
  | .inf n => if n then 1 else 2 ^ 7
  | .fin n m _ =>
    if m = 0 then (if n then 2 ^ 3 else 2 ^ 4)
    else if m < 2 ^ f.fb then (if n then 2 ^ 2 else 2 ^ 5)
    else if n then 2 ^ 1 else 2 ^ 6

/-- FRND (R120). -/
def FNum.roundIntegral (rm : Rm) : FNum → FNum × Flags
  | .nan s => (.nan false, if s then flagNV else 0)
  | .inf n => (.inf n, 0)
  | .fin n m e =>
    if 0 ≤ e then (.fin n m e, 0)
    else
      let (r, exact) := roundInt rm n m e
      (.fin n r 0, if exact then 0 else flagNX)

/-- ⌈log2⌉ of a positive finite magnitude (R129). -/
def ceilLog2 (m : Nat) (e : Int) : Int := e + (if m = 2 ^ (bitLen m - 1) then bitLen m - 1 else bitLen m : Nat)

/-- FFRX (R123): the significand and exponent of a finite nonzero value. -/
def splitNum (m : Nat) (e : Int) : Int × Int := (1 - (bitLen m : Int), e + bitLen m - 1)

end Sys2Proof
end

