-- ==== Sys2Proof/Machine/Shape.lean ====
section
/-! DEFINITION. The encoding tables of the manual as data: the opcode map (R57), and for each instruction of form BA what
its fields name and which values they may hold (R51 to R53, R55, R56, and the tables R97, R115, R134, R157 to R171, R257,
R277, R309, R342, R401, R408). A length code that needs the extended words is a row of its own in the opcode table. -/

namespace Sys2Proof

/-- A row of the opcode map (R57): the opcode, the FN values and the length codes of one row of the opcode table, and the
type that R49 implies. -/
structure Row where
  opc : Nat
  fns : List Nat := [0]
  lens : List Len := [.ext]
  dflt : Ty := .b32
  deriving DecidableEq, Repr

/-- The special registers of R30: scope (true for a lane), width, writable. -/
def specialReg : Nat → Option (Bool × Nat × Bool)
  | 0x00 => some (true, 32, false)
  | 0x01 | 0x02 | 0x03 | 0x04 | 0x05 | 0x06 | 0x07 | 0x08 | 0x09 | 0x0A | 0x0B | 0x0C => some (false, 32, false)
  | 0x10 | 0x11 | 0x12 => some (false, 32, true)
  | 0x13 | 0x14 | 0x15 => some (false, 32, false)
  | 0x16 => some (false, 64, false)
  | 0x18 => some (false, 64, true)
  | 0x19 => some (false, 32, false)
  | 0x1A | 0x1B => some (false, 64, false)
  | _ => none

/-- The numbers of R30. -/
def specialNums : List Nat := (List.range 28).filter fun n => (specialReg n).isSome

/-- The opcode map (R57), with the FN values of R55 and R56. -/
def Op.row : Op → Row
  | .nop => { opc := 0x00, lens := [.one] }
  | .jmpi => { opc := 0x02, lens := [.one] }
  | .call => { opc := 0x03, lens := [.ext, .lit] }
  | .ret => { opc := 0x04, lens := [.one] }
  | .yld => { opc := 0x06, lens := [.one] }
  | .exit => { opc := 0x07, lens := [.one] }
  | .tret => { opc := 0x09, lens := [.one] }
  | .sread => { opc := 0x0A, fns := specialNums, lens := [.one] }
  | .sreadExt => { opc := 0x0A, fns := specialNums }
  | .swrite => { opc := 0x0B, fns := specialNums, lens := [.one] }
  | .swriteExt => { opc := 0x0B, fns := specialNums }
  | .waitv => { opc := 0x0C, fns := [0, 1] }
  | .tlbi => { opc := 0x0F }
  | .cflush => { opc := 0x0F, fns := [1] }
  | .cinv => { opc := 0x0F, fns := [2] }
  | .iadd => { opc := 0x10, lens := [.ext, .lit, .extLit], dflt := .i32 }
  | .isub => { opc := 0x11, lens := [.ext, .lit, .extLit], dflt := .i32 }
  | .imul => { opc := 0x12, fns := [0, 1, 2], lens := [.ext, .lit, .extLit], dflt := .i32 }
  | .imad => { opc := 0x13, lens := [.ext, .extLit], dflt := .i32 }
  | .imin => { opc := 0x14, lens := [.ext, .lit, .extLit], dflt := .i32 }
  | .imax => { opc := 0x14, fns := [1], lens := [.ext, .lit, .extLit], dflt := .i32 }
  | .iabs => { opc := 0x14, fns := [2], lens := [.one], dflt := .i32 }
  | .iabsExt => { opc := 0x14, fns := [2], dflt := .i32 }
  | .and => { opc := 0x15, lens := [.ext, .lit, .extLit] }
  | .or => { opc := 0x16, lens := [.ext, .lit, .extLit] }
  | .xor => { opc := 0x17, lens := [.ext, .lit, .extLit] }
  | .shl => { opc := 0x18, lens := [.ext, .lit, .extLit] }
  | .shr => { opc := 0x19, lens := [.ext, .lit, .extLit] }
  | .sar => { opc := 0x1A, lens := [.ext, .lit, .extLit] }
  | .rot => { opc := 0x1B, lens := [.ext, .lit, .extLit] }
  | .bfx => { opc := 0x1C, lens := [.ext, .extLit] }
  | .bfi => { opc := 0x1D, lens := [.ext, .extLit] }
  | .popc => { opc := 0x1E, lens := [.one] }
  | .popcExt => { opc := 0x1E }
  | .clz => { opc := 0x1E, fns := [1], lens := [.one] }
  | .clzExt => { opc := 0x1E, fns := [1] }
  | .ctz => { opc := 0x1E, fns := [2], lens := [.one] }
  | .ctzExt => { opc := 0x1E, fns := [2] }
  | .brev => { opc := 0x1E, fns := [3], lens := [.one] }
  | .brevExt => { opc := 0x1E, fns := [3] }
  | .isetp => { opc := 0x1F, fns := [0, 1, 2, 3, 4, 5], lens := [.ext, .lit, .extLit], dflt := .i32 }
  | .mov => { opc := 0x20, lens := [.one] }
  | .movExt => { opc := 0x20, lens := [.ext, .lit, .extLit] }
  | .isel => { opc := 0x22 }
  | .pand => { opc := 0x23 }
  | .por => { opc := 0x23, fns := [1] }
  | .pxor => { opc := 0x23, fns := [2] }
  | .pnot => { opc := 0x23, fns := [3], lens := [.one] }
  | .pnotExt => { opc := 0x23, fns := [3] }
  | .adda => { opc := 0x24, lens := [.ext, .lit, .extLit], dflt := .i64 }
  | .lea => { opc := 0x25 }
  | .vtos => { opc := 0x26, lens := [.one] }
  | .vtosExt => { opc := 0x26 }
  | .stov => { opc := 0x26, fns := [1], lens := [.one] }
  | .stovExt => { opc := 0x26, fns := [1] }
  | .sadd => { opc := 0x27, lens := [.ext, .lit, .extLit], dflt := .i64 }
  | .ssub => { opc := 0x27, fns := [1], lens := [.ext, .lit, .extLit], dflt := .i64 }
  | .sand => { opc := 0x27, fns := [2], lens := [.ext, .lit, .extLit], dflt := .i64 }
  | .sor => { opc := 0x27, fns := [3], lens := [.ext, .lit, .extLit], dflt := .i64 }
  | .sshl => { opc := 0x27, fns := [4], lens := [.ext, .lit, .extLit], dflt := .i64 }
  | .sshr => { opc := 0x27, fns := [5], lens := [.ext, .lit, .extLit], dflt := .i64 }
  | .smul => { opc := 0x27, fns := [6], lens := [.ext, .lit, .extLit], dflt := .i64 }
  | .scmp => { opc := 0x27, fns := [7], lens := [.ext, .lit, .extLit], dflt := .i64 }
  | .idiv => { opc := 0x28, lens := [.ext, .lit, .extLit], dflt := .i32 }
  | .irem => { opc := 0x28, fns := [1], lens := [.ext, .lit, .extLit], dflt := .i32 }
  | .fadd => { opc := 0x30, lens := [.ext, .lit, .extLit], dflt := .f32 }
  | .fsub => { opc := 0x31, lens := [.ext, .lit, .extLit], dflt := .f32 }
  | .fmul => { opc := 0x32, lens := [.ext, .lit, .extLit], dflt := .f32 }
  | .ffma => { opc := 0x33, lens := [.ext, .extLit], dflt := .f32 }
  | .fmin => { opc := 0x34, lens := [.ext, .lit, .extLit], dflt := .f32 }
  | .fmax => { opc := 0x35, lens := [.ext, .lit, .extLit], dflt := .f32 }
  | .fsetp => { opc := 0x36, fns := [0, 1, 2, 3, 4, 5, 6, 7], lens := [.ext, .lit, .extLit], dflt := .f32 }
  | .frcp => { opc := 0x37, lens := [.one], dflt := .f32 }
  | .frcpExt => { opc := 0x37, dflt := .f32 }
  | .frsq => { opc := 0x38, lens := [.one], dflt := .f32 }
  | .frsqExt => { opc := 0x38, dflt := .f32 }
  | .fsqrt => { opc := 0x39, lens := [.one], dflt := .f32 }
  | .fsqrtExt => { opc := 0x39, dflt := .f32 }
  | .fdiv => { opc := 0x3A, lens := [.ext, .lit, .extLit], dflt := .f32 }
  | .fexp2 => { opc := 0x3B, lens := [.one], dflt := .f32 }
  | .fexp2Ext => { opc := 0x3B, dflt := .f32 }
  | .flog2 => { opc := 0x3B, fns := [1], lens := [.one], dflt := .f32 }
  | .flog2Ext => { opc := 0x3B, fns := [1], dflt := .f32 }
  | .fsinp => { opc := 0x3B, fns := [2], lens := [.one], dflt := .f32 }
  | .fsinpExt => { opc := 0x3B, fns := [2], dflt := .f32 }
  | .fcosp => { opc := 0x3B, fns := [3], lens := [.one], dflt := .f32 }
  | .fcospExt => { opc := 0x3B, fns := [3], dflt := .f32 }
  | .frnd => { opc := 0x3C, lens := [.one], dflt := .f32 }
  | .frndExt => { opc := 0x3C, dflt := .f32 }
  | .fclass => { opc := 0x3D, lens := [.one], dflt := .f32 }
  | .fclassExt => { opc := 0x3D, dflt := .f32 }
  | .fscale => { opc := 0x3E, lens := [.ext, .lit, .extLit], dflt := .f32 }
  | .ffrx => { opc := 0x3F, lens := [.one], dflt := .f32 }
  | .ffrxExt => { opc := 0x3F, dflt := .f32 }
  | .cvt => { opc := 0x40 }
  | .cvti => { opc := 0x41 }
  | .qnt => { opc := 0x42 }
  | .dqnt => { opc := 0x43 }
  | .pack => { opc := 0x44 }
  | .unpk => { opc := 0x45 }
  | .shfl => { opc := 0x46, fns := [0, 1, 2, 3], lens := [.ext, .extLit] }
  | .vote => { opc := 0x47, fns := [0, 1, 2], lens := [.one] }
  | .voteExt => { opc := 0x47, fns := [0, 1, 2] }
  | .lred => { opc := 0x48, fns := [0, 1, 2, 3, 4, 5], dflt := .i32 }
  | .lscan => { opc := 0x49, fns := [0, 1, 2, 3, 4, 5], dflt := .i32 }
  | .matchLanes => { opc := 0x4A, lens := [.one] }
  | .matchLanesExt => { opc := 0x4A }
  | .elect => { opc := 0x4B, lens := [.one] }
  | .cfma => { opc := 0x4C, dflt := .cf32 }
  | .ld => { opc := 0x50 }
  | .st => { opc := 0x51 }
  | .lds => { opc := 0x52 }
  | .sts => { opc := 0x53 }
  | .prfm => { opc := 0x54 }
  | .brmk => { opc := 0x55 }
  | .brld => { opc := 0x56 }
  | .brq => { opc := 0x57 }
  | .acq => { opc := 0x58 }
  | .commit => { opc := 0x59 }
  | .abort => { opc := 0x5A }
  | .cqry => { opc := 0x5B }
  | .cropen => { opc := 0x5C, fns := [0, 1, 2] }
  | .crclose => { opc := 0x5D }
  | .radd => { opc := 0x5E }
  | .ldts => { opc := 0x5F }
  | .atom => { opc := 0x60, fns := [0, 1, 2, 3, 4, 5, 6] }
  | .acas => { opc := 0x61 }
  | .afadd => { opc := 0x62 }
  | .atoms => { opc := 0x63, fns := [0, 1, 2, 3, 4, 5, 6] }
  | .bar => { opc := 0x64, fns := [0, 1] }
  | .barv => { opc := 0x65 }
  | .bwait => { opc := 0x66 }
  | .bexp => { opc := 0x67 }
  | .bstat => { opc := 0x68 }
  | .cwait => { opc := 0x69 }
  | .acpy => { opc := 0x6A }
  | .acpy2 => { opc := 0x6B }
  | .agath => { opc := 0x6C }
  | .acoll => { opc := 0x6D }
  | .mma => { opc := 0x70 }
  | .mmaj => { opc := 0x71 }
  | .mlease => { opc := 0x72, fns := [0, 1] }
  | .tdef => { opc := 0x73 }
  | .tidx => { opc := 0x74 }
  | .tmul => { opc := 0x75 }
  | .tew => { opc := 0x76, fns := [0, 1, 2, 3, 4] }
  | .tred => { opc := 0x77, fns := [0, 1, 2] }
  | .ttrn => { opc := 0x78 }
  | .tqnt => { opc := 0x79 }
  | .tforce => { opc := 0x7A }
  | .tst => { opc := 0x7B }
  | .twalk => { opc := 0x7C }
  | .tdrop => { opc := 0x7D }
  | .tstat => { opc := 0x7D, fns := [1] }
  | .spawn => { opc := 0x7E }
  | .take => { opc := 0x7E, fns := [1] }
  | .done => { opc := 0x7E, fns := [2] }
  | .cancel => { opc := 0x7E, fns := [3] }
  | .tchk => { opc := 0x7E, fns := [4] }
  | .launch => { opc := 0x7E, fns := [5] }
  | .jwait => { opc := 0x7E, fns := [6] }
  | .ensure => { opc := 0x7F, lens := [.extLit] }
  | .elseby => { opc := 0x7F, fns := [1], lens := [.one] }
  | .elseerr => { opc := 0x7F, fns := [2], lens := [.one] }
  | .accept => { opc := 0x7F, fns := [3], lens := [.one] }
  | .reject => { opc := 0x7F, fns := [4], lens := [.one] }
  | .tjoin => { opc := 0x7F, fns := [5] }
  | .tleave => { opc := 0x7F, fns := [6], lens := [.one] }
  | .rstat => { opc := 0x7F, fns := [7], lens := [.one] }

/-- A register class of R28, or a field that is read as a number. -/
inductive Cls where
  | none | v | s | p | b | t | num
  deriving DecidableEq, Repr

/-- What a register field names: `n` consecutive registers, a first register that is a multiple of `al` (R29), and whether
the instruction reads or writes them. -/
structure Fld where
  cls : Cls := .none
  n : Nat := 1
  al : Nat := 1
  rd : Bool := true
  wr : Bool := false
  deriving DecidableEq, Repr

/-- A field the instruction does not use (R52). -/
def Fld.unused : Fld := { n := 0, rd := false }
/-- The same registers, written instead of read. -/
def Fld.out (f : Fld) : Fld := { f with rd := false, wr := true }
/-- The same registers, read and written. -/
def Fld.inout (f : Fld) : Fld := { f with rd := true, wr := true }
/-- One vector register. -/
def Fld.v1 : Fld := { cls := .v }
/-- An even-odd pair (R29). -/
def Fld.vp : Fld := { cls := .v, n := 2, al := 2 }
/-- A pair when the type is 64 bits wide, else one register (R53). -/
def Fld.vt (t : Ty) : Fld := if t.wide then .vp else .v1
/-- A range of `n` vector registers. -/
def Fld.vr (n : Nat) : Fld := { cls := .v, n := n }
def Fld.s1 : Fld := { cls := .s }
def Fld.sr (n : Nat) : Fld := { cls := .s, n := n }
def Fld.p1 : Fld := { cls := .p }
def Fld.b1 : Fld := { cls := .b }
def Fld.t1 : Fld := { cls := .t }
/-- A field that holds a number (a condition, a source type). -/
def Fld.num : Fld := { cls := .num, n := 0, rd := false }

/-- The operand a literal stands in for (R50). -/
inductive Slot where
  | none | a | b | c | free
  deriving DecidableEq, Repr

/-- What the fields of one instruction may hold (R51, R52). -/
structure Shape where
  tys : List Ty := [.b32]
  d : Fld := .unused
  a : Fld := .unused
  b : Fld := .unused
  c : Fld := .unused
  more : List (Nat × Fld) := []
  last : Slot := .none
  rm : Bool := false
  sat : Bool := false
  nega : Bool := false
  negb : Bool := false
  negc : Bool := false
  absa : Bool := false
  spec : Bool := false
  levels : List Level := [.str]
  imm : Bool := false
  ok : Bool := true

def allTys : List Ty :=
  [.b32, .b64, .i8, .i16, .i32, .i64, .n8, .n16, .n32, .n64, .f16, .bf16, .f32, .f64, .f16x2, .bf16x2, .tap8, .tap6, .cf32,
    .b8, .b16]
/-- The eight integer types. -/
def intTys : List Ty := [.i8, .i16, .i32, .i64, .n8, .n16, .n32, .n64]
/-- "Int" of R257. -/
def atomInts : List Ty := [.i32, .i64, .n32, .n64]
/-- "Bit" of R257. -/
def bitTys : List Ty := [.b32, .b64]
def ieeeTys : List Ty := [.f16, .bf16, .f32, .f64]
/-- The types of FADD (R115). -/
def faddTys : List Ty := [.f16, .f16x2, .bf16, .bf16x2, .f32, .f64]
/-- "Mem" of R257. -/
def memTys : List Ty := allTys.filter fun t => t != .tap6
def allLevels : List Level := [.str, .trp, .clu, .die, .dev, .sys]

/-- The source type of a conversion, in C[4:0] with C[7:5] zero (R53). -/
def Operands.src (o : Operands) : Option Ty := Ty.ofCode o.c.toNat

/-- The destination and source pairs of CVT (R125); `exactPair` and the TAP destinations take RM zero. -/
def cvtPair (d s : Ty) : Bool :=
  match d with
  | .f64 => [Ty.f32, .f16, .bf16].contains s
  | .f32 => [Ty.f64, .f16, .bf16, .tap8, .tap6].contains s
  | .f16 => [Ty.f64, .f32, .bf16, .tap8, .tap6].contains s
  | .bf16 => [Ty.f64, .f32, .f16].contains s
  | .f16x2 | .bf16x2 => s == .f32
  | .tap8 | .tap6 => [Ty.f32, .f16].contains s
  | _ => false

/-- The pairs of R125 that take RM zero: the exact pairs and the TAP destinations. -/
def cvtRneOnly (d s : Ty) : Bool :=
  match d with
  | .f64 => true
  | .f32 => s != .f64
  | .f16 => s.isTap
  | .tap8 | .tap6 => true
  | _ => false

/-- The pairs of CVTI (R126). -/
def cvtiPair (d s : Ty) : Bool :=
  (d.isInt && s.isIeee) || (d.isIeee && s.isInt) || (d.isInt && s.isInt && d != s)

/-- The pairs of PACK (R127). -/
def packPair (d s : Ty) : Bool :=
  match d with
  | .tap8 | .tap6 => s == .f32 || s == .f16
  | .i8 | .n8 | .i16 | .n16 => s == .i32 || s == .n32
  | .b8 | .b16 => s == .b32
  | _ => false

/-- The values packed into one register (R127). -/
def packCount (d : Ty) : Nat := if d.width == 16 then 2 else 4

/-- The pairs of UNPK, source first (R128). -/
def unpkPair (d s : Ty) : Bool :=
  match s with
  | .tap8 | .tap6 => d == .f32 || d == .f16
  | .i8 | .i16 => d == .i32
  | .n8 | .n16 => d == .n32
  | .b8 | .b16 => d == .b32
  | .f16x2 | .bf16x2 => d == .f32
  | _ => false

/-- The registers that UNPK writes (R128). -/
def unpkCount (s : Ty) : Nat := if s.width == 8 || s.width == 6 then 4 else 2

/-- The shapes of R133: columns N, depth K, and the registers of A, B and the scales. -/
def mmaShape : Ty → Option (Nat × Nat × Nat × Nat × Nat)
  | .bf16 | .f16 => some (16, 32, 16, 8, 0)
  | .tap8 => some (16, 64, 16, 8, 2)
  | .i8 | .n8 => some (16, 64, 16, 8, 0)
  | .tap6 => some (16, 96, 18, 9, 2)
  | .f64 => some (8, 8, 16, 4, 0)
  | _ => none

/-- The registers of a packed TAP block of 32 elements (R129). -/
def tapRegs (t : Ty) : Nat := if t == .tap8 then 8 else 6

/-- The scale register g of QNT and DQNT (R129). -/
def Operands.scaleReg (o : Operands) : Nat := bitsNat o.imm 7 0

/-- The copy control of R277. -/
def copyControlOk (o : Operands) (cvt dir : Bool) : Bool :=
  bitsNat o.imm 31 10 == 0 && bitsNat o.imm 7 5 == 0 && (cvt || !o.imm.getLsbD 9) && (dir || !o.imm.getLsbD 8) &&
    (o.imm.getLsbD 4 || bitsNat o.imm 3 0 == 0)

/-- The levels of a copy: 0–5 when DIR = 1, else 0 (R277). -/
def copyLevels (o : Operands) : List Level := if o.imm.getLsbD 8 then allLevels else [.str]

/-- The greatest barrier number of a kind (R309). -/
def barrierMax : Level → Nat
  | .str => 0 | .trp => 15 | .clu => 7 | .dev => 3 | _ => 0

/-- The shape of an integer instruction with operands D, A, B and the literal in B (R97). -/
def shapeInt (o : Operands) (tys : List Ty) (sat : Bool) : Shape :=
  { tys := tys, d := (Fld.vt o.ty).out, a := .vt o.ty, b := .vt o.ty, last := .b, sat := sat }

/-- The shape of a shift: B is 32 bits (R97). -/
def shapeShift (o : Operands) : Shape :=
  { tys := bitTys, d := (Fld.vt o.ty).out, a := .vt o.ty, b := .v1, last := .b }

/-- One source of the type, one destination (R97, R115). -/
def shapeUn (o : Operands) (tys : List Ty) (d : Fld) : Shape := { tys := tys, d := d.out, a := .vt o.ty }

/-- The string-uniform ALU (R97). -/
def shapeS (sat : Bool) : Shape :=
  { tys := [.i64, .n64], d := Fld.s1.out, a := .s1, b := .s1, last := .b, sat := sat }

/-- FADD, FSUB, FMUL and FDIV (R115). -/
def shapeF (o : Operands) (tys : List Ty) (rm : Bool) : Shape :=
  { tys := tys, d := (Fld.vt o.ty).out, a := .vt o.ty, b := .vt o.ty, last := .b, rm := rm, absa := true, nega := true,
    negb := true }

/-- A one-source floating-point function (R115). -/
def shapeF1 (o : Operands) (tys : List Ty) (rm : Bool) (d : Fld) : Shape :=
  { tys := tys, d := d.out, a := .vt o.ty, rm := rm, absa := true, nega := true }

/-- VTOS and STOV (R97): SPEC selects a pair. -/
def shapeVs (o : Operands) (toS : Bool) : Shape :=
  let v : Fld := if o.spec then .vp else .v1
  if toS then { d := Fld.s1.out, a := v, spec := true } else { d := v.out, a := .s1, spec := true }

/-- SREAD and SWRITE (R309, R320, R321): the register of the width of the special register. -/
def shapeSpecial (o : Operands) (write : Bool) : Shape :=
  match specialReg o.fn.toNat with
  | some (lane, w, rw) =>
    let f : Fld := if o.spec then .s1 else if w == 64 then .vp else .v1
    if write then { a := f, spec := true, ok := rw && !(o.spec && lane) }
    else { d := f.out, spec := true, ok := !(o.spec && lane) }
  | none => { ok := false }

/-- ATOM and ATOMS (R257): Int for FN 0–2, Bit for FN 3–6. -/
def atomTys (o : Operands) : List Ty := if o.fn.toNat ≤ 2 then atomInts else bitTys

/-- A task instruction (R342). -/
def shapeTask (d a : Fld) : Shape := { d := d.out, a := a }

/-- A copy of R257. -/
def shapeCopy (o : Operands) (tys : List Ty) (levels : List Level) (cvt dir : Bool) : Shape :=
  { tys := tys, d := .s1, a := .s1, b := .b1, c := .s1, levels := levels, imm := true, ok := copyControlOk o cvt dir }

/-- MMA and MMAJ (R134): with f64 every register number is even, and C is zero for a type without scales, else the scale pair
C, C+1, whose first register is even (R29, R137). -/
def shapeMma (o : Operands) (joint : Bool) : Shape :=
  match mmaShape o.ty with
  | some (_, _, ra, rb, rs) =>
    let al := if o.ty == .f64 then 2 else 1
    let nd := if joint then 64 else 16
    { tys := if joint then [.bf16, .f16, .tap8, .tap6, .i8, .n8] else [.bf16, .f16, .tap8, .tap6, .i8, .n8, .f64]
      d := { cls := .v, n := nd, al := al, rd := !o.spec, wr := true }
      a := { cls := .v, n := ra, al := al }, b := { cls := .v, n := rb, al := al }
      c := if rs == 0 then .unused else { cls := .v, n := rs, al := rs }, spec := true }
  | none => { tys := [] }

/-- What each instruction of form BA may hold in its fields. DESIGN CHOICE (log entry 136), three times, where R162 does not say which
type a field belongs to or which error a type is: RM of a TMUL with T = i32 and SAT of a TRED with an IEEE type must be zero (R52),
and a TTRN whose T is f16x2 or bf16x2, which no view and no node has, is illegal (R53). -/
def Op.shape (op : Op) (o : Operands) : Shape :=
  match op with
  | .nop | .yld | .exit | .tret | .elseby | .elseerr | .accept | .reject | .tleave => {}
  | .jmpi | .ret => { a := .vp }
  | .call => { d := Fld.vp.out, imm := o.len == .ext, last := .free }
  | .sread | .sreadExt => shapeSpecial o false
  | .swrite | .swriteExt => shapeSpecial o true
  | .waitv => { tys := bitTys, a := .v1, b := .b1, c := .vt o.ty, levels := allLevels, imm := true }
  | .tlbi | .cflush => { a := .s1, b := .s1 }
  | .cinv => { a := .s1, b := .s1, levels := [.clu, .die, .dev, .sys] }
  | .iadd | .isub => shapeInt o intTys true
  | .imul =>
    if o.fn.toNat == 2 then { shapeInt o [.i32, .n32] false with d := Fld.vp.out }
    else shapeInt o atomInts (o.fn.toNat == 0)
  | .imad => { shapeInt o atomInts true with c := .vt o.ty, last := .c }
  | .imin | .imax => shapeInt o intTys false
  | .iabs | .iabsExt => { shapeUn o [.i8, .i16, .i32, .i64] (.vt o.ty) with sat := true }
  | .and | .or | .xor => shapeInt o bitTys false
  | .shl | .shr | .sar | .rot => shapeShift o
  | .bfx => { shapeShift o with tys := [.b32, .b64, .i32, .i64], c := .v1, last := .c }
  | .bfi => { shapeShift o with d := (Fld.vt o.ty).inout, c := .v1, last := .c }
  | .popc | .popcExt | .clz | .clzExt | .ctz | .ctzExt => shapeUn o bitTys .v1
  | .brev | .brevExt => shapeUn o bitTys (.vt o.ty)
  | .isetp => { shapeInt o intTys false with d := Fld.p1.out }
  | .mov => shapeUn o [.b32] .v1
  | .movExt => { shapeUn o bitTys (.vt o.ty) with last := .a }
  | .isel => { shapeInt o bitTys false with c := .p1, last := .none }
  | .pand | .por | .pxor => { d := Fld.p1.out, a := .p1, b := .p1 }
  | .pnot | .pnotExt => { d := Fld.p1.out, a := .p1 }
  | .adda => { tys := [.i64, .n64], d := Fld.vp.out, a := .vp, b := .v1, last := .b }
  | .lea => { d := Fld.vp.out, a := .v1, b := .b1, imm := true }
  | .vtos | .vtosExt => shapeVs o true
  | .stov | .stovExt => shapeVs o false
  | .sadd | .ssub | .smul => shapeS true
  | .sand | .sor | .sshl | .sshr => shapeS false
  | .scmp => { shapeS false with c := .num, ok := o.c.toNat ≤ 5 }
  | .idiv => { shapeInt o [.i32, .n32] true with spec := true }
  | .irem => { shapeInt o [.i32, .n32] false with spec := true }
  | .fadd | .fsub | .fmul => shapeF o faddTys true
  | .ffma => { shapeF o faddTys true with c := .vt o.ty, last := .c, negc := true }
  | .fmin | .fmax => shapeF o faddTys false
  | .fsetp => { shapeF o ieeeTys false with d := Fld.p1.out }
  | .frcp | .frcpExt | .frsq | .frsqExt => shapeF1 o [.f16, .f16x2, .f32] true .v1
  | .fsqrt | .fsqrtExt => shapeF1 o [.f16, .f16x2, .f32, .f64] true (.vt o.ty)
  | .fdiv => shapeF o [.f16, .f16x2, .f32, .f64] true
  | .fexp2 | .fexp2Ext | .flog2 | .flog2Ext | .fsinp | .fsinpExt | .fcosp | .fcospExt =>
    shapeF1 o [.f16, .f16x2, .f32] true .v1
  | .frnd | .frndExt => shapeF1 o faddTys true (.vt o.ty)
  | .fclass | .fclassExt => shapeF1 o ieeeTys false .v1
  | .fscale => { shapeF1 o ieeeTys true (.vt o.ty) with b := .v1, last := .b }
  | .ffrx | .ffrxExt => shapeF1 o [.f16, .f32] false .vp
  | .cvt =>
    match o.src with
    | some s =>
      { tys := [.f64, .f32, .f16, .bf16, .f16x2, .bf16x2, .tap8, .tap6], d := (Fld.vt o.ty).out, a := .vt s
        b := if o.ty == .f16x2 || o.ty == .bf16x2 then .v1 else .unused, c := .num, rm := true
        ok := cvtPair o.ty s && (o.rm == .rne || !cvtRneOnly o.ty s) }
    | none => { ok := false }
  | .cvti =>
    match o.src with
    | some s =>
      { tys := intTys ++ ieeeTys, d := (Fld.vt o.ty).out, a := .vt s, c := .num, rm := !(o.ty.isInt && s.isInt)
        sat := o.ty.isInt && s.isInt, ok := cvtiPair o.ty s }
    | none => { ok := false }
  | .qnt =>
    { tys := [.tap8, .tap6], d := (Fld.vr (tapRegs o.ty)).out, a := .vr 32, b := if o.spec then .v1 else .unused, c := .num
      more := [(o.scaleReg, Fld.v1.inout)], spec := true, imm := true
      ok := o.src == some .f32 && bitsNat o.imm 31 10 == 0 &&
        !(decide (o.d.toNat ≤ o.scaleReg) && decide (o.scaleReg < o.d.toNat + tapRegs o.ty)) }
  | .dqnt =>
    match o.src with
    | some s =>
      { tys := [.f32], d := (Fld.vr 32).out, a := .vr (tapRegs s), b := if o.spec then .v1 else .unused, c := .num
        more := [(o.scaleReg, .v1)], rm := true, spec := true, imm := true, ok := s.isTap && bitsNat o.imm 31 10 == 0 }
    | none => { ok := false }
  | .pack =>
    match o.src with
    | some s =>
      { tys := [.tap8, .tap6, .i8, .n8, .i16, .n16, .b8, .b16], d := Fld.v1.out, a := .vr (packCount o.ty), c := .num
        sat := o.ty.isInt, ok := packPair o.ty s }
    | none => { ok := false }
  | .unpk =>
    match o.src with
    | some s =>
      { tys := [.f32, .f16, .i32, .n32, .b32], d := (Fld.vr (unpkCount s)).out, a := .v1, c := .num, ok := unpkPair o.ty s }
    | none => { ok := false }
  | .shfl => shapeShift o
  | .vote | .voteExt => shapeUn o [.b32] .v1
  | .lred | .lscan =>
    { shapeUn o (if o.fn.toNat ≤ 2 then atomInts ++ [.f32] else atomInts) (.vt o.ty) with
      sat := o.fn.toNat == 0 && o.ty != .f32 }
  | .matchLanes | .matchLanesExt => shapeUn o bitTys .v1
  | .elect => { d := Fld.p1.out }
  | .cfma =>
    { tys := [.cf32], d := Fld.vp.out, a := .vp, b := .vp, c := .vp, rm := true, nega := true, negb := true, negc := true
      spec := true }
  | .ld => { tys := memTys, d := (Fld.vt o.ty).out, a := .v1, b := .b1, levels := allLevels, imm := true }
  | .st =>
    { tys := memTys, d := .vt o.ty, a := .v1, b := .b1, levels := if o.spec then allLevels else [.str], spec := true
      imm := true }
  | .lds =>
    if o.spec then { d := { cls := .v, n := 4, al := 4, rd := false, wr := true }, a := .v1, spec := true, imm := true }
    else { tys := memTys, d := (Fld.vt o.ty).out, a := .v1, spec := true, imm := true }
  | .sts =>
    if o.spec then { d := { cls := .v, n := 4, al := 4 }, a := .v1, spec := true, imm := true }
    else { tys := memTys, d := .vt o.ty, a := .v1, spec := true, imm := true }
  | .prfm => { a := .v1, b := .b1, levels := [.trp, .die, .dev], imm := true }
  | .brmk => { d := Fld.b1.out, a := .sr 4 }
  | .brld => { d := Fld.b1.out, a := .s1, imm := true }
  | .brq => { d := Fld.s1.out, a := .b1, imm := true, ok := o.imm.toNat ≤ 3 }
  | .acq | .commit => { levels := allLevels }
  | .abort => { levels := [.str, .trp, .clu] }
  | .cqry => { d := Fld.s1.out, levels := allLevels }
  | .cropen => { tys := [.f32, .f64, .i32, .i64], a := .s1, b := .s1 }
  | .crclose => { a := .s1 }
  | .radd => { tys := [.f32, .f64, .i32, .i64], d := .vt o.ty, a := .v1, b := .b1, imm := true }
  | .ldts => shapeCopy o [.b32] [.str] false false
  | .atom => { tys := atomTys o, d := (Fld.vt o.ty).out, a := .v1, b := .b1, c := .vt o.ty, levels := allLevels, imm := true }
  | .acas => { tys := bitTys, d := (Fld.vt o.ty).inout, a := .v1, b := .b1, c := .vt o.ty, levels := allLevels, imm := true }
  | .afadd =>
    { tys := [.f32, .f64, .f16x2, .bf16x2], d := (Fld.vt o.ty).out, a := .v1, b := .b1, c := .vt o.ty, levels := allLevels
      imm := true }
  | .atoms => { tys := atomTys o, d := (Fld.vt o.ty).out, a := .v1, c := .vt o.ty, imm := true }
  | .bar =>
    { d := if o.fn.toNat == 1 then Fld.s1.out else .unused, levels := [.str, .trp, .clu, .dev], imm := true
      ok := o.imm.toNat ≤ barrierMax o.level }
  | .barv => { d := Fld.s1.out, a := .s1, levels := [.trp, .clu, .dev], imm := true, ok := o.imm.toNat ≤ barrierMax o.level }
  | .bwait => { a := .s1, levels := [.str, .trp, .clu, .dev], imm := true, ok := o.imm.toNat ≤ barrierMax o.level }
  | .bexp => { a := .s1, levels := [.trp], imm := true, ok := o.imm.toNat ≤ barrierMax o.level }
  | .bstat =>
    { d := Fld.s1.out, levels := [.str, .trp, .clu, .dev], imm := true, ok := o.imm.toNat ≤ barrierMax o.level }
  | .cwait => { imm := true, ok := bitsNat o.imm 1 0 ≤ 2 && bitsNat o.imm 31 14 == 0 && bitsNat o.imm 7 2 == 0 }
  | .acpy => shapeCopy o [.b32] (copyLevels o) false true
  | .acpy2 => shapeCopy o (if o.imm.getLsbD 9 then allTys else [.b32]) (copyLevels o) true true
  | .agath => shapeCopy o [.b32] (copyLevels o) false true
  | .acoll => shapeCopy o [.f32, .f64, .i32, .i64, .n32, .n64] [.die, .dev, .sys] false false
  | .mma => shapeMma o false
  | .mmaj => shapeMma o true
  | .mlease => {}
  | .tdef =>
    { tys := allTys.filter (fun t => t != .f16x2 && t != .bf16x2), d := Fld.t1.out, a := .b1, b := .s1
      c := if o.spec then .unused else .s1, spec := true, imm := true, ok := bitsNat o.imm 31 19 == 0 }
  | .tidx => { d := Fld.t1.out, a := .t1, b := .t1 }
  | .tmul =>
    { tys := [.f32, .f16, .bf16, .i32, .f64], d := Fld.t1.out, a := .t1, b := .t1, c := if o.spec then .t1 else .unused
      rm := o.ty.isIeee, spec := true }
  | .tew => { tys := ieeeTys ++ intTys, d := Fld.t1.out, a := .t1, b := .t1, rm := o.ty.isIeee, sat := o.ty.isInt }
  | .tred =>
    { tys := ieeeTys ++ intTys, d := Fld.t1.out, a := .t1, rm := o.ty.isIeee, sat := o.ty.isInt, imm := true
      ok := o.imm.toNat ≤ 1 }
  | .ttrn => { tys := allTys.filter (fun t => t != .f16x2 && t != .bf16x2), d := Fld.t1.out, a := .t1 }
  | .tqnt =>
    { tys := [.tap8, .tap6], d := Fld.t1.out, a := .t1, b := if o.imm.getLsbD 1 then .s1 else .unused, imm := true
      ok := o.imm.toNat ≤ 3 }
  | .tforce => { a := .t1, b := .s1 }
  | .tst => { d := .t1, a := .t1, b := .s1, levels := allLevels }
  | .twalk => { d := .t1, a := .t1, b := .s1, c := .s1, levels := allLevels }
  | .tdrop => { a := Fld.t1.out }
  | .tstat => { d := Fld.s1.out, a := .t1 }
  | .spawn => shapeTask .s1 (.sr 8)
  | .take => shapeTask (.sr 8) .s1
  | .done | .cancel => { a := .s1 }
  | .tchk | .launch | .jwait => shapeTask .s1 .s1
  | .ensure => { imm := true, last := .free }
  | .tjoin => { a := .s1 }
  | .rstat => { d := Fld.s1.out }

/-- The registers of a class (R28); the vector class is bounded by the string's budget (R29). -/
def Cls.count : Cls → Nat
  | .s => 64 | .p => 8 | .b => 16 | .t => 16 | .v => 256 | _ => 256

/-- R51, R52: a field holds a register of its class, aligned as R29 asks, or zero when it is unused. -/
def Fld.holds (f : Fld) (x : Byte) : Bool :=
  match f.cls with
  | .none => x == 0
  | .num => true
  | c => decide (x.toNat + f.n ≤ c.count) && x.toNat % f.al == 0

/-- The width of the operand a literal stands in for (R50). -/
def Fld.litWidth (f : Fld) : Nat := if f.cls == .s || f.n == 2 then 64 else 32

/-- R50: bits [63:w] are all zero or all equal to bit w − 1. -/
def litFits (w : Nat) (x : Dword) : Bool :=
  if w < 64 then bitsNat x 63 w == 0 || bitsNat x 63 (w - 1) == 2 ^ (65 - w) - 1 else true

/-- The literal of the instruction fits its operand, whose register field is zero (R50). -/
def Shape.litOk (sh : Shape) (o : Operands) : Bool :=
  if o.len.hasLit then
    match sh.last with
    | .none => false
    | .a => o.a == 0 && litFits sh.a.litWidth o.lit
    | .b => o.b == 0 && litFits sh.b.litWidth o.lit
    | .c => o.c == 0 && litFits sh.c.litWidth o.lit
    | .free => true
  else o.lit == 0

/-- The fields A, B, C with the operand that a literal replaces taken out (R50). -/
def Shape.field (sh : Shape) (o : Operands) (k : Slot) : Fld :=
  let f := match k with | .a => sh.a | .b => sh.b | .c => sh.c | _ => .unused
  if o.len.hasLit && sh.last == k then .unused else f

/-- The implied words of R49. -/
def Operands.implied (o : Operands) (dflt : Ty) : Bool :=
  o.len.hasExt || (o.ty == dflt && o.rm == .rne && !o.sat && !o.nega && !o.negb && !o.negc && !o.absa && !o.spec &&
    o.level == .str && o.imm == 0 && o.b == 0 && o.c == 0)

/-- Every operand check of R58 but the vector budget of R29. -/
def Op.wf (op : Op) (o : Operands) : Bool :=
  let r := op.row
  let sh := op.shape o
  r.fns.contains o.fn.toNat && r.lens.contains o.len && o.implied r.dflt && sh.tys.contains o.ty && sh.d.holds o.d &&
    (sh.field o .a).holds o.a && (sh.field o .b).holds o.b && (sh.field o .c).holds o.c &&
    sh.more.all (fun (x, f) => decide (x + f.n ≤ f.cls.count)) && sh.litOk o && (sh.rm || o.rm == .rne) && (sh.sat || !o.sat) &&
    (sh.nega || !o.nega) && (sh.negb || !o.negb) && (sh.negc || !o.negc) && (sh.absa || !o.absa) && (sh.spec || !o.spec) &&
    sh.levels.contains o.level && (sh.imm || o.imm == 0) && sh.ok

/-- A use of registers: class, first register, number, read, written. -/
structure Use where
  cls : Cls
  first : Nat
  n : Nat
  rd : Bool
  wr : Bool
  deriving DecidableEq, Repr

def Fld.use (f : Fld) (x : Nat) : Use := { cls := f.cls, first := x, n := f.n, rd := f.rd, wr := f.wr }

/-- Every register an instruction of form BA reads or writes (R29, R35). -/
def Op.uses (op : Op) (o : Operands) : List Use :=
  let sh := op.shape o
  [sh.d.use o.d.toNat, (sh.field o .a).use o.a.toNat, (sh.field o .b).use o.b.toNat, (sh.field o .c).use o.c.toNat] ++
    sh.more.map (fun (x, f) => f.use x)

/-- The registers of an instruction of any form. -/
def Instr.uses : Instr → List Use
  | .bra o => if o.cond then [Fld.p1.use o.psel.toNat] else []
  | .braLong o => if o.cond then [Fld.p1.use o.psel.toNat] else []
  | .pblk o => [Fld.p1.use o.psel.toNat]
  | .movi o => [Fld.v1.out.use o.d.toNat]
  | i => match i.ba with
    | some (op, o) => op.uses o
    | none => []

/-- R29: every vector register lies below the budget of the string. -/
def Instr.budgetOk (i : Instr) (budget : Nat) : Bool :=
  i.uses.all fun u => u.cls != .v || u.n == 0 || decide (u.first + u.n ≤ budget)

/-- The words of the instruction (R42); an event of the machine has none. -/
def Instr.words : Instr → Nat
  | .bra _ | .pblk _ | .movi _ | .trap _ | .bkpt _ | .scall _ => 1
  | .braLong _ => 3
  | i => match i.ba with
    | some (_, o) => o.len.words
    | none => 0

end Sys2Proof
end

