-- ==== Sys2Proof/Machine/State.lean ====
section
/-! DEFINITION. The state of the NZ-940 as plain data: every piece of state the manual names, the accesses and operations
in flight, and the model's own script, which says what happens next where the manual leaves an order open. -/

namespace Sys2Proof.Machine

/-- Why the machine stops with a fault. No rule of the manual stops the machine, so no meaning answers with one; the type
has the one constructor that a later meaning could need. Safe: it stops where the machine would go on. -/
inductive Fault where
  /-- raised by nobody: kept so that the type is not empty (safe) -/
  | stuck (why : String)
  deriving DecidableEq, Repr

/-- Why the model gives no meaning. -/
inductive Refusal where
  /-- the arm of an instruction that has no meaning yet, by its mnemonic (safe) -/
  | notModelled (mnemonic : String)
  deriving DecidableEq, Repr

/-- The trap causes of R386. -/
inductive Cause where
  | illegalInstruction | privileged | trapInstr | fpException | intDivideZero | bounds | noncanonical | pageFault
  | permission | world | misaligned | rangeStore | commitOverflow | siblingConflict | recoveryEscape | recoveryExhausted
  | saddlebagOverflow | recoveryDepth | stableOverflow | tileShape | tileData | doubleFault | dataUnresolved
  | uncorrectableMemory | taskQueue | launchRejected
  deriving DecidableEq, Repr

/-- Progress through a predicate block (R315): the latched value, PATTERN, COUNT and the position. -/
structure Block where
  bit : Bool
  pattern : Byte
  cnt : Nat
  pos : Nat
  deriving DecidableEq, Repr

/-- A barrier (R323): of a string, a troop, a cluster group, or a co-resident grid, and its number. -/
inductive BarKey where
  | str (sid : Nat)
  | trp (tid n : Nat)
  | clu (launch group n : Nat)
  | grid (launch n : Nat)
  deriving DecidableEq, Repr

/-- Why a lane is parked (R13). -/
inductive Park where
  | none
  /-- in BAR or BARV, until the phase completes; BARV writes S(dst) (R325, R326) -/
  | barrier (key : BarKey) (phase : Word) (dst : Option Nat)
  /-- in BWAIT on a token (R327) -/
  | bwait (key : BarKey) (token : Word)
  /-- in WAITV, with its access (R322) -/
  | waitv (acc : Nat)
  /-- in BRLD, until its bytes return (R265) -/
  | brld (acc : Nat)
  /-- in TAKE of a job, into S(dst) to S(dst+7); `id` orders the TAKEs of a core (R339) -/
  | take (job dst id : Nat)
  /-- in CWAIT for a class and a count (R285) -/
  | cwait (cls n : Nat)
  /-- by a parked operation: COMMIT, ACQ, ABORT, CROPEN, CRCLOSE, CANCEL, JWAIT, LAUNCH, TLBI, CFLUSH, CINV -/
  | op (id : Nat)
  /-- at a recovery collective (R409) -/
  | collective
  /-- its trap is deferred (R388) -/
  | deferred
  /-- its fetch is hitched (R360) -/
  | fetch (id : Nat)
  deriving DecidableEq, Repr

/-- A lane (R9). A settle marker holds it, whatever else parks it, until every result and every store with an id below the
first number is in, and every BARV has returned that then held one of the scalar registers listed (R36). -/
structure Lane where
  pc : Addr := 0
  exited : Bool := false
  trap : Bool := false
  wait : Nat := 0
  yielded : Bool := false
  block : Option Block := none
  park : Park := .none
  settle : Option (Nat × List Nat) := none
  deriving DecidableEq, Repr

/-- A view of memory (R154); `tr` is MAP TRANSPOSED. -/
structure View where
  fmt : Ty
  rows : Nat
  cols : Nat
  scale : Nat
  cstride : Int
  rstride : Int
  extent : Nat
  origin : Int
  tr : Bool
  layout : Nat
  oob : Bool
  base : Nat
  deriving DecidableEq, Repr

/-- The three kinds of tile register value (R153). -/
inductive TileVal where
  | empty
  | view (v : View)
  | node (n : Nat)
  deriving DecidableEq, Repr

/-- An undelivered late fault (R387). -/
structure Late where
  cause : Cause
  pc : Addr
  nodePc : Addr
  depth : Nat
  deriving DecidableEq, Repr

/-- What a saddlebag entry records (R421). -/
inductive BagKey where
  | v (n : Nat) | s (n : Nat) | p (n : Nat) | b (n : Nat) | fpctl | strctl | trapBase
  deriving DecidableEq, Repr

/-- A saddlebag entry: the prior value (a vector register as its 32 lanes) and the depth of its epoch (R421, R423). `spill` is the
address of an entry that lies in the recovery spill area, and what its bytes there stand for (R422). -/
structure BagEnt where
  key : BagKey
  tag : Nat
  vals : List Nat
  spill : Option (Nat × List Nat) := none
  deriving DecidableEq, Repr

def BagEnt.spilled (e : BagEnt) : Bool := e.spill.isSome

/-- A tile register recorded by the stable (R176). -/
structure TileEnt where
  n : Nat
  tag : Nat
  val : TileVal
  deriving DecidableEq, Repr

/-- A string (R10, R28, R30, R34, R387). `fetchFaults` are the refused fetches, by PC and trap mode, whose cause the group there
has still to raise (R360). -/
structure Str where
  sid : Nat
  tid : Nat
  idx : Nat
  core : Nat
  slice : Nat
  slot : Nat
  budget : Nat
  lanes : List Lane
  v : Cells Word := []
  s : Cells Dword := []
  p : Cells Mask := []
  b : Cells Record := []
  t : Cells TileVal := []
  fpctl : Word := 0
  fpflags : Word := 0
  strctl : Word := 0
  trapBase : Dword := 0
  trapCause : Word := 0
  trapPc : Dword := 0
  trapNodePc : Dword := 0
  retPc : Addr := 0
  lateq : List Late := []
  pref : Option Addr := none
  aborted : Bool := false
  fkind : Nat := 0
  fcause : Nat := 0
  bag : List BagEnt := []
  tiles : List TileEnt := []
  held : List (Nat × Nat) := []
  fetchFaults : List (Addr × Bool × Cause) := []
  age : Nat := 0
  issued : Bool := false
  retired : Bool := false
  deriving DecidableEq, Repr

/-- A spill area with its allocation point (R168, R422); `shut` says that its next unit was refused (R456); `unit` is the place of
the unit that takes troop entries and `fill` how many it holds (R422). -/
structure Area where
  base : Nat
  size : Nat
  used : Nat
  shut : Bool := false
  unit : Nat := 0
  fill : Nat := 0
  deriving DecidableEq, Repr

/-- An open recovery block (R410, R432). `spillMark` is where the recovery spill area stood at its ENSURE: its allocation point, the
unit of troop entries and how many that held (R422). -/
structure RBlock where
  limit : Nat
  count : Nat
  alts : List Addr
  endPc : Addr
  test : Addr
  alt : Nat := 0
  inTest : Bool := false
  draining : Option Bool := none
  spillMark : Nat × Nat × Nat := (0, 0, 0)
  mmaj : List (Nat × Nat) := []
  deriving DecidableEq, Repr

/-- The recovery collectives (R409). -/
inductive Coll where
  | ensure | elseby | elseerr | accept | reject | tjoin | tleave
  deriving DecidableEq, Repr

/-- A lane's arrival at a collective (R409). -/
structure Arrival where
  sid : Nat
  lane : Nat
  coll : Coll
  pc : Addr
  next : Addr
  arg : Dword
  target : Dword
  limit : Nat
  deriving DecidableEq, Repr

/-- What a copy of a redundant troop is (R433, R436). -/
inductive OutrRole where
  | primary | outrider | tieBreak
  deriving DecidableEq, Repr

/-- The state of one copy of a redundant troop: its mates, its completed escaping commits, and the one it waits at, as kind
and signature (R435, R436). -/
structure Outr where
  role : OutrRole
  mate : Nat
  tie : Option Nat := none
  commits : Nat := 0
  waiting : Option (Nat × Nat) := none
  decided : Option Bool := none
  deriving DecidableEq, Repr

/-- How far a troop is (R39, R397). -/
inductive TroopSt where
  | running
  /-- its final commit or its outermost ACCEPT lifts lines, level by level (R39, R223) -/
  | lifting (final : Bool)
  | ended (cause : Option Cause)
  deriving DecidableEq, Repr

/-- A recorded scratchpad word (R421); `spill` as in a string's entry. -/
structure WordEnt where
  word : Nat
  tag : Nat
  val : Nat
  spill : Option (Nat × List Nat) := none
  deriving DecidableEq, Repr

def WordEnt.spilled (e : WordEnt) : Bool := e.spill.isSome

/-- A failure of the alternate of a depth (R417, R418): FKIND, FCAUSE, whether no alternate is left (R422), and whether each member
of a tandem has failed by itself (R430). -/
structure Failure where
  depth : Nat
  kind : Nat
  cause : Nat
  final : Bool := false
  each : Bool := false
  deriving DecidableEq, Repr

/-- A failure whose rollback waits for the forcing of R175 or for what it reads back from the recovery spill area (R207, R419):
whether this troop is the one at fault; `wait` names the forcing. -/
structure Failing extends Failure where
  lead : Bool
  wait : Nat
  deriving DecidableEq, Repr

/-- A troop (R20 to R27, R291). `rcPending` are the writes to its recovery spill area still to be made: address, bytes, entry
(R422). `fails` are the failures of its alternates that this clock has found, whose rollback begins when the clock ends (R418).
`spillSkip` are the pages of its stable spill area that a materialisation under way has found refused (R173). -/
structure Troop where
  tid : Nat
  launch : Nat
  pad : Nat
  secure : Bool
  super : Bool
  linear : Nat
  core : Nat
  slot : Nat
  nstr : Nat
  prod : Nat
  joint : Nat
  prio : Nat
  lease : Nat
  finLvl : Level
  scratchSize : Nat
  bufQ : Nat
  stq : Nat
  bagRows : Nat
  scratch : Cells Byte := []
  stSpill : Area := { base := 0, size := 0, used := 0 }
  rcSpill : Area := { base := 0, size := 0, used := 0 }
  blocks : List RBlock := []
  arrivals : List Arrival := []
  words : List WordEnt := []
  conflicts : Nat := 0
  tandem : Option Nat := none
  joining : Option Nat := none
  outr : Option Outr := none
  mmaj : List (Nat × Nat) := []
  st : TroopSt := .running
  overflow : Bool := false
  spillSkip : List Nat := []
  rcPending : List (Nat × Nat × List Nat) := []
  failing : Option Failing := none
  fails : List Failure := []
  deriving DecidableEq, Repr

/-- A tandem: the troops of a conversation and their mask (R429). -/
structure Tandem where
  id : Nat
  mask : Byte
  tids : List Nat
  deriving DecidableEq, Repr

/-- A string's arrival at a barrier phase (R324): its lanes, its depth and the value of a BARV. It takes effect once the
string's stores with ids below `before` have been accepted (R252, R330). -/
structure BarArr where
  sid : Nat
  tid : Nat
  lanes : Mask
  depth : Nat
  val : Option Dword
  before : Nat
  deriving DecidableEq, Repr

/-- A barrier (R324). ARRIVED and SUM are counted from the arrivals of the current phase and EXP from its expectations, as
(troop, depth, bytes); each keeps the depth that could withdraw it (R331). -/
structure Barrier where
  key : BarKey
  done : Word := 0
  arrs : List BarArr := []
  exps : List (Nat × Nat × Nat) := []
  cr : Nat := 0
  status : Half := 0
  last : Half := 0
  deriving DecidableEq, Repr

/-- Where a buffer line lives (R202): the string buffer, the troop buffer, or the shadow lines of a cluster. -/
inductive Space where
  | str (sid : Nat)
  | trp (tid : Nat)
  | clu (cluster : Nat)
  deriving DecidableEq, Repr

/-- Who wrote a byte of a shared buffer (R203). -/
inductive Committer where
  | str (sid : Nat)
  | trp (tid : Nat)
  | tan (id : Nat)
  deriving DecidableEq, Repr

/-- A buffer line (R203): `line` is its physical address over 64, `va` the virtual line of the first store into it; `asks` is its
requested level, kept for each committer, since a shadow line of epoch 0 outlives the bytes of one of them; `held` marks a shadow
line of a redundant troop, which no other troop sees (R434). -/
structure BufLine where
  space : Space
  line : Nat
  va : Nat
  mask : Dword
  data : BitVec 512
  epoch : Nat
  covered : Nat
  asks : List (Committer × Level)
  written : Dword
  removed : Dword
  owner : Committer
  comm : List (Nat × Committer)
  pol : Nat
  part : Nat
  held : Bool
  deriving DecidableEq, Repr

/-- A cached copy of a line, in the L1 of core `place` or the L2 of die `place`, the most recently used first in its list, and in an
L1 stamped with its last use; `auth` when the cache holds its atomic authority (R194, R195, R244), and then `dirty` names the bytes
that its atomics have written and that its home lacks, `pad` is their paddock, and `last` the string, PC, depth and mode of the last
of them (R441, R442). -/
structure CacheLine where
  place : Nat
  line : Nat
  data : BitVec 512
  auth : Bool
  dirty : Dword
  used : Nat := 0
  pad : Nat := 0
  last : Option (Nat × Addr × Nat × Bool) := none
  deriving DecidableEq, Repr

/-- A line held by its home LLC slice (R196), the most recently used first in the list: its data, its way in its set, whether
its policy retains it and under which partition (R197, R198), and whether it was written since it was read from DRAM. -/
structure LlcLine where
  line : Nat
  data : BitVec 512
  way : Nat
  retain : Bool
  part : Nat
  dirty : Bool
  deriving DecidableEq, Repr

/-- A partial line of the commutative range `range` of paddock `pad`: in the L1 of `core`, stamped with its last use, or, when
`slot`, in that core's slot at the home (R225). -/
structure Partial where
  pad : Nat
  range : Nat
  core : Nat
  line : Nat
  data : BitVec 512
  slot : Bool
  used : Nat := 0
  deriving DecidableEq, Repr

/-- How far a range slot is (R224, R227). -/
inductive RangeSt where
  | opening | isOpen | closing
  deriving DecidableEq, Repr

/-- A commutative range slot (R224). -/
structure Range where
  pad : Nat
  secure : Bool
  slot : Nat
  base : Nat
  len : Nat
  ty : Ty
  op : Nat
  st : RangeSt
  deriving DecidableEq, Repr

/-- A release round of a core (R212): the lines sent to their home L2 slices and to their homes, those counted there, whether the
round is closed, and whether it is confirmed at die and at device level. `rnd` counts a core's rounds from 0; the number that the
core gives a round is `rnd` mod 16, which names one round because at most nine are alive. -/
structure Round where
  core : Nat
  rnd : Nat
  sentL2 : List Nat := []
  arrL2 : List Nat := []
  sentHome : List Nat := []
  arrHome : List Nat := []
  closed : Bool := false
  dieOk : Bool := false
  devOk : Bool := false
  deriving DecidableEq, Repr

/-- A write at die level or wider on its way: to the L2 home slice of its die, then to its home (R204, R212). `hid` names the bytes
that it discarded from a buffer (R205, R233), and `told` says that its instruction's late fault stands already (R262, R442). -/
structure HomeWrite where
  wid : Nat
  core : Nat
  rnd : Nat
  sid : Nat
  line : Nat
  mask : Dword
  data : BitVec 512
  lvl : Level
  atL2 : Bool
  lanes : List (Nat × Dword)
  op : Nat
  pc : Addr
  depth : Nat
  pol : Nat
  part : Nat
  pad : Nat
  trap : Bool
  hid : Dword := 0
  told : Bool := false
  deriving DecidableEq, Repr

/-- What a line request of an access stands at (R186, R362). -/
inductive LineSt where
  | fresh
  /-- refused by a full rail and held by its core (R366) -/
  | held
  /-- on the rail, as that entry -/
  | railed (ent : Nat)
  /-- translated to a physical line, with its policy and partition -/
  | ready (pa pol part : Nat)
  | done
  | refused (c : Cause)
  deriving DecidableEq, Repr

/-- A 64-byte line request (R186); `sure` says that the instruction's own checks have passed it into its buffer (R218, R219), `wrote`
on which physical line a store has written it. -/
structure LineReq where
  va : Nat
  st : LineSt
  sure : Bool := false
  wrote : Option Nat := none
  deriving DecidableEq, Repr

/-- One lane's part of an access: its bytes, what it stores or combines, and the value it has been given. A lane out of range
under OOB 1 has the width 0 (R185). -/
structure Elem where
  lane : Nat
  va : Nat
  w : Nat
  data : Nat
  data2 : Nat
  val : Option Nat
  deriving DecidableEq, Repr

inductive AccKind where
  | ld | st | atom | acas | afadd | radd | waitv | brld
  deriving DecidableEq, Repr

/-- A global access in flight (R186, R260 to R262, R270, R276, R322). `fault` is the first cause found (R262), and `told` says that it
has been recorded; `strict` says that the checks of a store have found no conflict, under the policy that one faults, and `clash` that
a conflict of it has been counted (R218). `blocks` and `wasPref` are as in `SysOp`. -/
structure Access where
  id : Nat
  sid : Nat
  kind : AccKind
  fn : Nat
  ty : Ty
  lvl : Level
  pc : Addr
  next : Addr
  depth : Nat
  trap : Bool
  super : Bool
  dst : Nat
  lines : List LineReq
  elems : List Elem
  bundle : Mask
  fault : Option Cause := none
  strict : Bool := false
  clash : Bool := false
  told : Bool := false
  blocks : List (Nat × Block) := []
  wasPref : Bool := false
  deriving DecidableEq, Repr

/-- The kinds of parked operation. -/
inductive SysKind where
  | commit | acq | abort | cropen | crclose | tlbi | cflush | cinv | cancel | jwait | launch | lift
  deriving DecidableEq, Repr

/-- How far a parked operation is (R210). -/
inductive Phase where
  | waiting | sent | published
  deriving DecidableEq, Repr

/-- An operation that parks its bundle until it completes (R13, R210, R214, R240, R272, R273, R341, R346, R401). A lift is
the COMMIT of one level that an outermost ACCEPT or a final commit makes for a troop (R223, R39). `blocks` is the progress of its
lanes through predicate blocks before it issued and `wasPref` whether they were the preferred group, which a cut that saves it
unissued gives back (R213, R242, R345); `words` is the packet that a LAUNCH has read (R346). -/
structure SysOp where
  id : Nat
  sid : Nat
  tid : Nat
  kind : SysKind
  lvl : Level
  pc : Addr
  next : Addr
  mask : Mask
  depth : Nat
  trap : Bool
  phase : Phase
  arg : Nat
  arg2 : Nat
  cores : List Nat
  fault : Option Cause
  blocks : List (Nat × Block) := []
  wasPref : Bool := false
  words : List Word := []
  deriving DecidableEq, Repr

/-- A computed cell (R161): its index 16r + c, its values in the output format, its scale bytes by K-block, and whether it
has been evicted to BACKING. -/
structure CellVal where
  cell : Nat
  vals : List (Nat × Nat × Nat)
  scales : List (Nat × Nat × Nat)
  evicted : Bool
  used : Nat
  deriving DecidableEq, Repr

inductive NodeOp where
  | mul | ew | red | trn | qnt | gather
  deriving DecidableEq, Repr

/-- What a forced fault is recorded against (R172): the forcing instruction's string, PC and depth, and the operation,
access or parked operation that waits for the cells. -/
structure Force where
  sid : Nat
  pc : Addr
  depth : Nat
  trap : Bool
  wait : Nat
  deriving DecidableEq, Repr

/-- A stable entry (R160). `forcers` are the waiting operations that have had it forced whole (R175); `gathers` are, for a
cell of a gather whose index has been read, the node cells that the index named: cell, node and its cell (R165); `met` are, of a cell
that has been computed and waits for a page of its room, its flags and whether it had rerun (R83, R161). -/
structure Node where
  core : Nat
  n : Nat
  tid : Nat
  sid : Nat
  op : NodeOp
  fn : Nat
  out : Ty
  rows : Nat
  cols : Nat
  rm : Rm
  sat : Bool
  axis : Bool
  kcols : Bool
  chk : Bool
  epoch : Nat
  status : Nat
  fpc : BitVec 6
  pc : Addr
  smooth : Nat
  smen : Bool
  super : Bool
  slots : List TileVal
  backing : Nat
  demanded : List (Nat × Force)
  forced : List CellVal
  seq : Nat
  forcers : List Nat
  gathers : List (Nat × Nat × Nat) := []
  met : List (Nat × BitVec 5 × Bool) := []
  deriving DecidableEq, Repr

/-- What of an engine operation met the page that an item waits for: the nodes to be named, a working cell, and, when that had been
computed and waited for its room, its flags and whether it had rerun (R172); of a converting copy the flags of the element (R280). -/
structure Met where
  item : Nat
  chain : List Nat
  cell : Option (Nat × Nat)
  ran : Option (BitVec 5 × Bool)
  deriving DecidableEq, Repr

inductive EngKind where
  | acpy | acpy2 | agath | ldts | acoll | tforce | tst | twalk
  deriving DecidableEq, Repr

/-- An outstanding engine operation (R247, R278, R284, R167), issued by `lanes`. Items are numbered from 0; `done` lists those
performed, dropped or failed. `gidx` are the row indices that an AGATH has read (R281). Of a tile operation `kcols` tells the axis
of its source's scales; of a TWALK `tree` and `table` are its source's nodes and its shift table as they stood at its issue, and
`met` what of it waits for the pages of its items; `lost` are the lines that have been refused to an item whose other elements go on
(R284); `step` is the step that it has begun, `work` that step's working nodes with their
working cells, and `bad` the working cells that have failed (R167, R170, R172). -/
structure EngOp where
  id : Nat
  sid : Nat
  kind : EngKind
  lvl : Level
  dir : Bool
  record : Record
  off : Nat
  rows : Nat
  cols : Nat
  rstride : Int
  origin : Int
  ty : Ty
  op : Nat
  cvt : Bool
  ftz : Bool
  fpc : Word
  cred : Option Nat
  pc : Addr
  depth : Nat
  trap : Bool
  super : Bool
  dst : TileVal
  src : TileVal
  box : Nat × Nat × Nat × Nat
  lanes : Mask
  done : List Nat
  railed : List (Nat × Nat)
  fault : Option Cause
  flags : BitVec 5
  kcols : Bool := true
  tree : List Node := []
  table : List (Int × Int) := []
  met : List Met := []
  lost : List (Nat × Nat) := []
  gidx : List (Nat × Nat) := []
  step : Option Nat := none
  work : List Node := []
  bad : List (Nat × Nat) := []
  deriving DecidableEq, Repr

/-- A matrix operation queued at a quarter (R139, R142, R146): the values it will write, by register place, the registers
it holds pending, the flags it raises and those whose trap was enabled at its issue; `joint` names the joint operation that it
is a member of (R143), `dead` says that its epoch has been rolled back (R152), and `arr` is its arrival at the quarter, below which the ids
of the sequencer's earlier requests lie (R146). -/
structure MatOp where
  id : Nat
  sid : Nat
  tid : Nat
  slice : Nat
  pc : Addr
  depth : Nat
  trap : Bool
  units : Nat
  chk : Bool
  writes : List (Nat × Word)
  regs : List Nat
  flags : BitVec 5
  enabled : BitVec 5
  joint : Option Nat
  dead : Bool := false
  arr : Nat := 0
  deriving DecidableEq, Repr

/-- An MMAJ not yet joined: its latched A rows, B quarter, scales, accumulators and SPEC (R143, R151). -/
structure PendJ where
  id : Nat
  sid : Nat
  tid : Nat
  set : Nat
  num : Nat
  ty : Ty
  pc : Addr
  depth : Nat
  trap : Bool
  parts : Mask
  dst : Nat
  spec : Bool
  ftz : Bool
  enabled : BitVec 5
  chk : Bool
  aRegs : List (List Word)
  bRegs : List (List Word)
  sRegs : List (List Word)
  acc : List (List Word)
  deriving DecidableEq, Repr

/-- Whose request a rail entry is (R362, R456); a spill of a troop names the address it goes to, `bag` is a write to its recovery
spill area and `back` a read of it (R207, R422). -/
inductive ReqWho where
  | acc (id line : Nat)
  | eng (id item : Nat)
  | fetch (id sid : Nat)
  | cell (core n cell : Nat)
  | scan (tid : Nat)
  | spill (tid va : Nat)
  | bag (tid : Nat)
  | back (tid : Nat)
  | agent (launch : Nat)
  | task (core slot : Nat) (write : Bool)
  | op (id : Nat)
  deriving DecidableEq, Repr

/-- A requester in a quarter's queue (R146): its troop, whether by MLEASE.acq alone, and the slice and clock of its arrival. -/
structure QReq where
  tid : Nat
  acq : Bool := false
  slice : Nat := 0
  clock : Nat := 0
  deriving DecidableEq, Repr

/-- A cell of a MUL node, or a step of a walk that multiplies, for which the tile sequencer has asked a quarter (R145, R165). -/
structure CellReq where
  id : Nat
  tid : Nat
  who : ReqWho
  deriving DecidableEq, Repr

/-- A matrix quarter (R145, R146): the holder, its count of units, the queue of requesters, the queued operations in arrival
order, the one that runs, the cells that the sequencer has asked it for, when the holder has given the lease up the id
below which its operations still start in the tenure (R148), and the joint operation that it has been granted to (R146). -/
structure Quarter where
  core : Nat
  q : Nat
  holder : Option Nat := none
  count : Nat := 0
  queue : List QReq := []
  ops : List MatOp := []
  run : Option MatOp := none
  seq : List CellReq := []
  rel : Option Nat := none
  keep : Option Nat := none
  deriving DecidableEq, Repr

/-- A translation held by a core's TLB or by the MTU for it (R368). -/
structure TlbEnt where
  core : Nat
  pad : Nat
  secure : Bool
  va : Nat
  size : Nat
  leaf : Dword
  lvl : Nat
  deriving DecidableEq, Repr

/-- The kinds of access that R359 checks. -/
inductive AccessKind where
  | read | write | rmw | fetch | prefetch
  deriving DecidableEq, Repr

/-- An entry of a die's hitching rail (R362), of the shared part or of the paddock's pool (R366). -/
structure RailEnt where
  id : Nat
  die : Nat
  core : Nat
  pad : Nat
  secure : Bool
  super : Bool
  va : Nat
  kind : AccessKind
  who : ReqWho
  sid : Nat
  tid : Nat
  depth : Nat
  fid : Nat
  shared : Bool
  deriving DecidableEq, Repr

/-- A request refused by a full rail and held by its core (R366). -/
structure HeldReq where
  core : Nat
  ent : RailEnt
  deriving DecidableEq, Repr

/-- An open fault notice (R362, R364): of this device, or, when `src` is not 0, of that peer, whose fault processor this device
is. `cut` says that a cut has taken its entries, so that no later request joins it (R367). -/
structure Notice where
  die : Nat
  fid : Nat
  pad : Nat
  secure : Bool
  super : Bool
  va : Nat
  lvl : Nat
  home : Nat
  homePad : Nat
  kinds : BitVec 4
  posted : Bool
  isOpen : Bool
  src : Nat := 0
  cut : Bool := false
  deriving DecidableEq, Repr

/-- An entry of the ownership snapshot (R363). -/
structure Owner where
  base : Nat
  len : Nat
  home : Nat
  homePad : Nat
  deriving DecidableEq, Repr

/-- A landing zone (R378). -/
structure Zone where
  base : Nat := 0
  enable : Bool := false
  ordered : Bool := false
  pages : Nat := 0
  deriving DecidableEq, Repr

/-- A DRAM region of a paddock (R374), in GiB. -/
structure Region where
  first : Nat
  count : Nat
  secure : Bool
  deriving DecidableEq, Repr

/-- The error block counters (R440). -/
structure ErrCounters where
  retried : Nat := 0
  chkFail : Nat := 0
  ce : Nat := 0
  ue : Nat := 0
  partMisses : Nat := 0
  doorbellErrs : Nat := 0
  outrMismatch : Nat := 0
  outrUnresolved : Nat := 0
  coresRemoved : Nat := 0
  thermalTrips : Nat := 0
  agentDrops : Nat := 0
  deriving DecidableEq, Repr

/-- What the context status block counts (R308). -/
structure StatusBlock where
  oobDrops : Nat := 0
  prefetchDrops : Nat := 0
  cuts : Nat := 0
  resets : Nat := 0
  lastUs : Nat := 0
  deriving DecidableEq, Repr

/-- STATE of R308. -/
inductive PadSt where
  | running | draining | cutting | saved | reset
  deriving DecidableEq, Repr

/-- An invalidation in progress (R368): the first page and the number of pages (0 the whole context), the id below which
requests were translated before it, and the TLBI it serves. -/
structure Inval where
  first : Nat
  cnt : Nat
  before : Nat
  op : Option Nat
  deriving DecidableEq, Repr

/-- A paddock and its function's page (R302, R361, R372, R373, R400). -/
structure Paddock where
  n : Nat
  clusters : List Nat
  regions : List Region
  grants : Half
  peers : Word
  slots : Nat
  secure : Bool
  st : PadSt := .running
  result : Nat := 0
  busy : Bool := false
  slot : Nat := 0
  deadline : Word := 1000
  cutBound : Word := 20
  clMask : Word := 0
  csb : Dword := 0
  ptRoot : Dword := 0
  sptRoot : Dword := 0
  ownBase : Dword := 0
  ownCnt : Nat := 0
  owners : List Owner := []
  fqBase : Dword := 0
  fqLog : Nat := 0
  fqWr : Word := 0
  fqRd : Word := 0
  invVa : Dword := 0
  inval : Option Inval := none
  qDesc : Dword := 0
  qRes : Nat := 0
  intStat : BitVec 5 := 0
  lzDrops : Nat := 0
  zones : Cells Zone := []
  trapBase : Dword := 0
  err : ErrCounters := {}
  csbData : StatusBlock := {}
  marked : List Nat := []
  turn : Nat := 64
  outRows : List Nat := []
  deriving DecidableEq, Repr

/-- A registered queue (R288, R289). -/
structure Queue where
  pad : Nat
  qid : Nat
  kind : Nat
  prioMax : Nat
  logn : Nat
  base : Nat
  rdPtr : Nat
  rd : Nat
  door : Nat
  deriving DecidableEq, Repr

/-- A packet in flight and its stage (R290, R293); stage 0 waits in the device-side queue, which is queue 64 (R346). `words` are
w0 to w15, `ext` the bytes of its launch extension; `started` counts the troops dispatched, `live` those not yet ended, copies of
redundant ones included; `cores` have held its troops, `rounds` are the ones that its release closed there, as core and number;
`retagged` says that the release has carried its shadow lines out. -/
structure Launch where
  id : Nat
  pad : Nat
  qid : Nat
  kind : Nat
  words : List Word
  ext : List Byte
  stage : Nat
  reason : Nat
  cause : Option Cause
  cancelled : Bool
  started : Nat
  live : Nat
  job : Option Nat
  retagged : Bool
  cores : List Nat
  rounds : List (Nat × Nat)
  deriving DecidableEq, Repr

/-- A task record (R332). -/
structure TaskRec where
  codeOff : Nat
  noSplit : Bool
  job : Nat
  lo : Nat
  hi : Nat
  grain : Nat
  args : List Dword
  deriving DecidableEq, Repr

/-- An active job (R333, R334); `cancelCores` are the cores at which its cancel bit is set (R341), `homes` the cores whose ring
region another core has taken over at a resumption (R345). -/
structure Job where
  pad : Nat
  slot : Nat
  id : Nat
  launch : Nat
  code : Nat
  ring : Nat
  rlog : Nat
  secure : Bool
  super : Bool
  cancelled : Bool
  cancelCores : List Nat
  faulted : Bool
  terminated : Bool
  homes : List (Nat × Nat) := []
  deriving DecidableEq, Repr

/-- A core's ring of a job (R337). -/
structure Ring where
  core : Nat
  pad : Nat
  job : Nat
  head : Nat
  tail : Nat
  deriving DecidableEq, Repr

/-- A refill batch in flight (R338): the records read, the manger entries that it has reserved, and the slots of the ring that it has
still to read. -/
structure Batch where
  core : Nat
  job : Nat
  recs : List TaskRec
  reserved : Nat
  left : List Nat := []
  deriving DecidableEq, Repr

/-- A manger (R337). -/
structure Manger where
  core : Nat
  recs : List TaskRec
  turn : Nat
  deriving DecidableEq, Repr

/-- A stolen record on its way (R340). -/
structure Steal where
  id : Nat
  thief : Nat
  job : Nat
  task : TaskRec
  deriving DecidableEq, Repr

/-- What a cut saves (R306). -/
structure Context where
  pad : Nat
  slot : Nat
  strs : List Str
  troops : List Troop
  tandems : List Tandem
  bars : List Barrier
  lines : List BufLine
  accs : List Access
  ops : List SysOp
  engs : List EngOp
  pendJ : List PendJ
  nodes : List Node
  ranges : List Range
  partials : List Partial
  mangers : List Manger
  rings : List Ring
  batches : List Batch
  steals : List Steal
  jobs : List Job
  railed : List RailEnt
  refusals : List (ReqWho × Cause)
  queues : List Queue
  launches : List Launch
  deriving DecidableEq, Repr

/-- The mailbox of PF0 (R374); `block` is the command block as it was read when the command started, as eight words. -/
structure Mailbox where
  cmd : Dword := 0
  block : List Dword := []
  busy : Bool := false
  result : Nat := 0
  deriving DecidableEq, Repr

/-- A line of an inbound write to a zone that is not ordered, translated and not yet performed (R379, R380). -/
structure Inbound where
  id : Nat
  pad : Nat
  req : Requester
  pa : Nat
  pol : Nat
  part : Nat
  bytes : List Byte
  deriving DecidableEq, Repr

/-- What became of an issue. -/
inductive Verdict where
  | go
  /-- held as by the scoreboard: it does not count as an issue (R35) -/
  | held
  /-- its trap is deferred: its lanes are parked and the rest undone (R388) -/
  | deferred
  deriving DecidableEq, Repr

/-- The instruction being executed: its string, its bundle, the participants (R95), its PC and the next one, whether it is
in trap mode and at supervisor privilege, and what became of the issue; `split` is what R16 makes of the preferred PC when the
instruction says so; `blocks` is the block progress of its lanes before the issue. -/
structure Cur where
  sid : Nat
  bundle : Mask
  parts : Mask
  pc : Addr
  next : Addr
  trap : Bool
  super : Bool
  covered : Bool := false
  verdict : Verdict := .go
  split : Option (Option Addr) := none
  blocks : List (Nat × Block) := []
  deriving DecidableEq, Repr

/-- What the outside gets as an answer: the bytes read, a write done, Unsupported Request on the host link, or, for a peer, a
refusal (R379, R381). -/
inductive Reply where
  | bytes (bs : List Byte)
  | done
  | unsupported
  | refused (c : Cause)
  /-- a resolution sent to a peer, for its die and fault id (R364) -/
  | resolution (dev die fid : Nat) (out : Option Cause)
  deriving DecidableEq, Repr

/-- What happens next (the model's own): a slice gives an issue turn, the clock advances, an item of an engine operation
or a parked check is performed, a cache lets something go, a soft error strikes a line, or an event of the opcode table
takes place. -/
inductive Move where
  | turn (core slice : Nat)
  | tick
  /-- of a checked multiply of a walked node, whether the check fails in the run and in the rerun (R149) -/
  | item (eng item : Nat) (bad1 bad2 : Bool)
  | dropL1 (core line : Nat)
  | dropL2 (die line : Nat)
  | dropLlc (line : Nat)
  /-- root firmware writes entry `part` of a die's partition table (R198) -/
  | partition (die part : Nat) (mask : Half)
  | dropTlb (core va : Nat)
  | mergePartial (core line : Nat)
  | upset (line symbols : Nat)
  /-- a line of an inbound write is performed (R380) -/
  | inbound (id : Nat)
  /-- writes to host memory fail on the host link from here on, or no more (R374) -/
  | hostFails (b : Bool)
  /-- the firmware check of a warm start by FLR of PF0 fails from here on, or no more (R383) -/
  | firmwareFails (b : Bool)
  /-- a peer's notice reaches this device, the home of its address (R364) -/
  | peerNotice (n : Notice)
  /-- a peer forwards the resolution of a notice of this device (R364) -/
  | peerResolve (die fid : Nat) (out : Option Cause)
  | event (i : Instr)
  deriving DecidableEq, Repr

/-- The state of the machine. -/
structure State where
  clock : Nat := 0
  coreBase : Cells Nat := []
  cur : Option Cur := none
  strs : List Str := []
  troops : List Troop := []
  tandems : List Tandem := []
  bars : List Barrier := []
  lines : List BufLine := []
  accs : List Access := []
  ops : List SysOp := []
  engs : List EngOp := []
  quarters : List Quarter := []
  pendJ : List PendJ := []
  jointWait : List MatOp := []
  nodes : List Node := []
  mem : List Host.Cell := []
  llc : List LlcLine := []
  l1 : List CacheLine := []
  l2 : List CacheLine := []
  partials : List Partial := []
  ranges : List Range := []
  rounds : List Round := []
  writes : List HomeWrite := []
  tlb : List TlbEnt := []
  rail : List RailEnt := []
  heldReqs : List HeldReq := []
  railWait : List Nat := []
  notices : List Notice := []
  refusals : List (ReqWho × Cause) := []
  fids : Cells Nat := []
  pads : List Paddock := []
  queues : List Queue := []
  launches : List Launch := []
  jobs : List Job := []
  mangers : List Manger := []
  rings : List Ring := []
  batches : List Batch := []
  steals : List Steal := []
  contexts : List Context := []
  mailbox : Mailbox := {}
  partTable : Cells Half := []
  removed : List Nat := []
  scanning : List Nat := []
  pendFlags : List (Nat × Nat × BitVec 5) := []
  lastHeld : List (Nat × Nat × Bool) := []
  poison : List Nat := []
  upsets : Cells Nat := []
  repairs : List Nat := []
  excluded : List Nat := []
  ceSeen : List (Nat × Nat) := []
  patrol : Cells Nat := []
  repairOverflow : Nat := 0
  linkDown : List Nat := []
  hostFail : Bool := false
  firmwareFail : Bool := false
  inbound : List Inbound := []
  warm : Bool := false
  ready : Bool := true
  mhz : Nat := 2500
  answers : List Reply := []
  nextId : Nat := 1
  script : List Move := []
  deriving DecidableEq, Repr

/-- The machine right after a cold start (R382): no paddock exists and nothing is resident; memory lists nothing. -/
def State.reset : State := {}

end Sys2Proof.Machine
end

