-- ==== Sys2Proof/Machine/Access.lean ====
section
/-! DEFINITION. Reading and writing the machine's records: strings, troops, paddocks, and every register class, each with its
one reader and its one writer. A writer records the prior value with the saddlebag while a recovery block is open (R421). -/

namespace Sys2Proof.Machine

/-! ### Records -/

def State.str? (s : State) (sid : Nat) : Option Str := s.strs.find? (·.sid == sid)

def State.updStr (s : State) (sid : Nat) (f : Str → Str) : State :=
  { s with strs := updFirst (·.sid == sid) f s.strs }

def State.troop? (s : State) (tid : Nat) : Option Troop := s.troops.find? (·.tid == tid)

def State.updTroop (s : State) (tid : Nat) (f : Troop → Troop) : State :=
  { s with troops := updFirst (·.tid == tid) f s.troops }

def State.pad? (s : State) (n : Nat) : Option Paddock := s.pads.find? (·.n == n)

def State.updPad (s : State) (n : Nat) (f : Paddock → Paddock) : State :=
  { s with pads := updFirst (·.n == n) f s.pads }

def State.launch? (s : State) (id : Nat) : Option Launch := s.launches.find? (·.id == id)

def State.updLaunch (s : State) (id : Nat) (f : Launch → Launch) : State :=
  { s with launches := updFirst (·.id == id) f s.launches }

def State.acc? (s : State) (id : Nat) : Option Access := s.accs.find? (·.id == id)

def State.updAcc (s : State) (id : Nat) (f : Access → Access) : State :=
  { s with accs := updFirst (·.id == id) f s.accs }

def State.op? (s : State) (id : Nat) : Option SysOp := s.ops.find? (·.id == id)

def State.updOp (s : State) (id : Nat) (f : SysOp → SysOp) : State :=
  { s with ops := updFirst (·.id == id) f s.ops }

def State.eng? (s : State) (id : Nat) : Option EngOp := s.engs.find? (·.id == id)

def State.updEng (s : State) (id : Nat) (f : EngOp → EngOp) : State :=
  { s with engs := updFirst (·.id == id) f s.engs }

def State.node? (s : State) (core n : Nat) : Option Node := s.nodes.find? fun x => x.core == core && x.n == n

def State.updNode (s : State) (core n : Nat) (f : Node → Node) : State :=
  { s with nodes := updFirst (fun x => x.core == core && x.n == n) f s.nodes }

/-- The strings of a troop. -/
def State.strsOf (s : State) (tid : Nat) : List Str := s.strs.filter (·.tid == tid)

/-- The troop of a string. -/
def State.troopOf (s : State) (z : Str) : Option Troop := s.troop? z.tid

/-- RCVDEPTH of a troop (R410). -/
def Troop.depth (t : Troop) : Nat := t.blocks.length

/-- RCVDEPTH of a string's troop. -/
def State.depthOf (s : State) (z : Str) : Nat := match s.troopOf z with | some t => t.depth | none => 0

/-- A fresh id and the state that has given it. -/
def State.fresh (s : State) : Nat × State := (s.nextId, { s with nextId := s.nextId + 1 })

/-- A core's die and cluster, device-wide (R2). -/
def dieOf (core : Nat) : Nat := core / 64
def clusterOf (core : Nat) : Nat := core / 8

/-- The rein marker of a cut has reached the core: it starts no new work (R304). -/
def State.haltedCore (s : State) (core : Nat) : Bool := s.pads.any fun p => match p.st with
  | .cutting => p.marked.contains core
  | .saved | .reset => p.clusters.contains (core / 8)
  | _ => false

/-- The class of an engine operation (R247): 0 copy, 1 tile, 2 collective. -/
def EngKind.cls : EngKind → Nat
  | .acpy | .acpy2 | .agath | .ldts => 0
  | .tforce | .tst | .twalk => 1
  | .acoll => 2

/-- A request of the kind waits at the rail, or is held by its core. -/
def State.railedWhere (s : State) (p : ReqWho → Bool) : Bool := s.rail.any (p ·.who) || s.heldReqs.any fun h => p h.ent.who

/-- A request of a requester waits at the rail, or is held by its core. -/
def State.cellRailed (s : State) (who : ReqWho) : Bool := s.railedWhere (· == who)

/-! ### Registers -/

def Str.vreg (z : Str) (n l : Nat) : Word := Cells.get 0 z.v (32 * n + l)

/-- The pair of even register `n` (R53). -/
def Str.vpair (z : Str) (n l : Nat) : Dword := z.vreg (n + 1) l ++ z.vreg n l

/-- The pattern of an operand of type `t` (R53). -/
def Str.vval (z : Str) (t : Ty) (n l : Nat) : Nat := if t.wide then (z.vpair n l).toNat else (z.vreg n l).toNat

def Str.sreg (z : Str) (n : Nat) : Dword := Cells.get 0 z.s n

/-- p7 reads as true (R28). -/
def Str.preg (z : Str) (n l : Nat) : Bool := n == 7 || (Cells.get 0 z.p n).getLsbD l

def Str.breg (z : Str) (n : Nat) : Record := Cells.get 0 z.b n

def Str.treg (z : Str) (n : Nat) : TileVal := Cells.get .empty z.t n

/-- The lane with number `l`. -/
def Str.lane (z : Str) (l : Nat) : Lane := z.lanes.getD l {}

/-- Changes the lanes of a mask. -/
def mapLanesFrom (m : Mask) (f : Lane → Lane) : Nat → List Lane → List Lane
  | _, [] => []
  | l, x :: xs => (if m.getLsbD l then f x else x) :: mapLanesFrom m f (l + 1) xs

def Str.mapLanes (z : Str) (m : Mask) (f : Lane → Lane) : Str := { z with lanes := mapLanesFrom m f 0 z.lanes }

/-- The lanes that satisfy `p`. -/
def Str.lanesWhere (z : Str) (p : Lane → Bool) : Mask := maskOf ((List.range 32).filter fun l => p (z.lane l))

/-- A number for what a saddlebag entry records. -/
def BagKey.code : BagKey → Nat
  | .v n => n | .s n => 256 + n | .p n => 512 + n | .b n => 768 + n | .fpctl => 1024 | .strctl => 1025 | .trapBase => 1026

/-- Records the prior value of a register at its first write in an epoch (R421), in the saddlebag or, when that is full, in the
recovery spill area (R422). A write whose instruction was issued at an outer depth `d` belongs to the epoch of that depth: no
epoch that has opened since records it, and it stands when they are rolled back (R419). With no room the troop is marked, and the
block fails once the write has taken effect. -/
def State.record (s : State) (sid d : Nat) (key : BagKey) (prior : Str → List Nat) : State :=
  match s.str? sid with
  | none => s
  | some z =>
    match s.troop? z.tid with
    | none => s
    | some t =>
      let k := min d t.depth
      if k = 0 || z.bag.any (fun e => e.key == key && e.tag == k) then s
      else if (z.bag.filter fun e => !e.spilled).length < t.bagRows then
        s.updStr sid fun z => { z with bag := z.bag ++ [{ key := key, tag := k, vals := prior z }] }
      else if !t.rcSpill.shut && decide (t.rcSpill.used + 192 ≤ t.rcSpill.size) then
        let at0 := t.rcSpill.base + t.rcSpill.used
        let e := sid :: k :: key.code :: prior z
        (s.updStr sid fun z => { z with bag := z.bag ++ [{ key := key, tag := k, vals := prior z, spill := some (at0, e) }] }).updTroop
          z.tid fun t => { t with
            rcSpill := { t.rcSpill with used := t.rcSpill.used + 192 }, rcPending := t.rcPending ++ [(at0, 192, e)] }
      else s.updTroop z.tid fun t => { t with overflow := true }

/-- The 32 lanes of a vector register. -/
def Str.vall (z : Str) (n : Nat) : List Nat := (List.range 32).map fun l => (z.vreg n l).toNat

/-- Writes lanes of one vector register. -/
def Str.putV (z : Str) (n : Nat) (vals : List (Nat × Word)) : Str :=
  { z with v := Cells.setMany 0 z.v (vals.map fun (l, x) => (32 * n + l, x)) }

/-- Writes lanes of vector register `n`, for an instruction issued at depth `d`; with no lane nothing is written or recorded
(R95). -/
def State.writeV (s : State) (sid d n : Nat) (vals : List (Nat × Word)) : State :=
  if vals.isEmpty then s else (s.record sid d (.v n) (·.vall n)).updStr sid (·.putV n vals)

/-- Writes an operand of type `t`: one register, or a pair (R53). -/
def State.writeVal (s : State) (sid d : Nat) (t : Ty) (n : Nat) (vals : List (Nat × Nat)) : State :=
  let s := s.writeV sid d n (vals.map fun (l, x) => (l, BitVec.ofNat 32 x))
  if t.wide then s.writeV sid d (n + 1) (vals.map fun (l, x) => (l, BitVec.ofNat 32 (x >>> 32))) else s

def State.writeS (s : State) (sid d n : Nat) (x : Dword) : State :=
  (s.record sid d (.s n) fun z => [(z.sreg n).toNat]).updStr sid fun z => { z with s := Cells.set 0 z.s n x }

/-- Writes lanes of a predicate register; a write to p7 is discarded (R28), and with no lane nothing is written or recorded
(R95). -/
def State.writeP (s : State) (sid d n : Nat) (vals : List (Nat × Bool)) : State :=
  if n = 7 || vals.isEmpty then s
  else
    (s.record sid d (.p n) fun z => [(Cells.get 0 z.p n).toNat]).updStr sid fun z =>
      { z with p := Cells.set 0 z.p n (vals.foldl (fun m (l, b) =>
          if b then m ||| (1#32 <<< l) else m &&& ~~~(1#32 <<< l)) (Cells.get 0 z.p n)) }

def State.writeB (s : State) (sid d n : Nat) (x : Record) : State :=
  (s.record sid d (.b n) fun z => [(z.breg n).toNat]).updStr sid fun z => { z with b := Cells.set 0 z.b n x }

/-- The stable records a tile register at its first write in an epoch (R176). -/
def Str.recordTile (z : Str) (depth n : Nat) : Str :=
  if depth = 0 || z.tiles.any (fun e => e.n == n && e.tag == depth) then z
  else { z with tiles := z.tiles ++ [{ n := n, tag := depth, val := z.treg n }] }

def State.writeT (s : State) (sid n : Nat) (x : TileVal) : State :=
  match s.str? sid with
  | none => s
  | some z => s.updStr sid fun y => { y.recordTile (s.depthOf z) n with t := Cells.set .empty y.t n x }

/-- ORs flags into FPFLAGS (R33); FPFLAGS is never recorded (R131). -/
def State.orFlags (s : State) (sid : Nat) (f : Flags) : State :=
  s.updStr sid fun z => { z with fpflags := z.fpflags ||| f.setWidth 32 }

/-- FTZ of FPCTL (R32). -/
def Str.ftz (z : Str) : Bool := z.fpctl.getLsbD 0

/-- The flags whose trap FPCTL enables (R32): bit i of the flags is enabled by bit i + 1. -/
def Str.enabled (z : Str) : Flags := z.fpctl.extractLsb' 1 5

/-- The lane has exited: a result that returns for it is discarded (R37). -/
def State.exitedLane (s : State) (sid l : Nat) : Bool := match s.str? sid with | some z => (z.lane l).exited | none => false

/-! ### Scratchpad -/

/-- A byte of a troop's scratchpad, by its physical place. -/
def Troop.scratchByte (t : Troop) (a : Nat) : Byte := Cells.get 0 t.scratch a

/-- The four bytes of a physical scratchpad word. -/
def Troop.scratchWord (t : Troop) (w : Nat) : Nat :=
  natOfBytes [t.scratchByte (4 * w), t.scratchByte (4 * w + 1), t.scratchByte (4 * w + 2), t.scratchByte (4 * w + 3)]

/-- Where a recovery spill area stands. -/
def Area.mark (a : Area) : Nat × Nat × Nat := (a.used, a.unit, a.fill)

/-- The place of the next troop entry in a recovery spill area: in the unit being filled, or, when that holds eight, in a new one at
the allocation point (R422). -/
def Area.slot (a : Area) : Option (Nat × Area) :=
  if a.shut then none
  else if 0 < a.fill && decide (a.fill < 8) then some (a.base + a.unit + 8 * a.fill, { a with fill := a.fill + 1 })
  else if a.used + 64 ≤ a.size then some (a.base + a.used, { a with used := a.used + 64, unit := a.used, fill := 1 })
  else none

/-- The troop saddlebag records a physical word at its first write in an epoch, by any path: that of an engine operation of an
outer depth too (R287, R421, R422). -/
def Troop.recordWord (t : Troop) (w : Nat) : Troop :=
  if t.depth = 0 || t.words.any (fun e => e.word == w && e.tag == t.depth) then t
  else if (t.words.filter fun e => !e.spilled).length < 1024 then
    { t with words := t.words ++ [{ word := w, tag := t.depth, val := t.scratchWord w }] }
  else
    match t.rcSpill.slot with
    | some (at0, a) =>
      let e := [w, t.depth, t.scratchWord w]
      { t with words := t.words ++ [{ word := w, tag := t.depth, val := t.scratchWord w, spill := some (at0, e) }]
               rcSpill := a, rcPending := t.rcPending ++ [(at0, 8, e)] }
    | none => { t with overflow := true }

/-- Writes bytes of the scratchpad at physical places, the first one first. -/
def Troop.putScratch (t : Troop) : List (Nat × Byte) → Troop
  | [] => t
  | (a, b) :: es =>
    let t := t.recordWord (a / 4)
    Troop.putScratch { t with scratch := Cells.set 0 t.scratch a b } es

def State.writeScratch (s : State) (tid : Nat) (es : List (Nat × Byte)) : State :=
  s.updTroop tid (·.putScratch es)

end Sys2Proof.Machine
end

