-- ==== Sys2Proof/Machine/Barrier.lean ====
section
/-! DEFINITION. The launch packet's fields (R290), and the barriers: membership, arrival, completion (R323 to R331). -/

namespace Sys2Proof.Machine

/-! ### The launch packet -/

/-- Bits hi to lo of word `w` of a packet (R290). -/
def Launch.bits (l : Launch) (w hi lo : Nat) : Nat := bitsNat (l.words.getD w 0) hi lo
def Launch.dword (l : Launch) (w : Nat) : Dword := l.words.getD (w + 1) 0 ++ l.words.getD w 0
def Launch.gridX (l : Launch) : Nat := l.bits 1 23 0
def Launch.gridY (l : Launch) : Nat := l.bits 2 23 0
def Launch.gridZ (l : Launch) : Nat := l.bits 3 23 0
def Launch.nstr (l : Launch) : Nat := l.bits 4 5 0
def Launch.pstr (l : Launch) : Nat := l.bits 4 11 6
def Launch.joint (l : Launch) : Nat := l.bits 4 31 28
def Launch.coresident (l : Launch) : Bool := l.bits 0 20 20 == 1
def Launch.outrider (l : Launch) : Bool := l.bits 0 19 19 == 1
def Launch.group (l : Launch) : Nat := l.bits 14 7 4
def Launch.tandem (l : Launch) : Nat := l.bits 14 3 0
def Launch.code (l : Launch) : Addr := (l.dword 6).setWidth 56

/-- The membership code of troop barrier `n` (R290). -/
def Launch.memb (l : Launch) (n : Nat) : Nat :=
  let w := match n / 4 with | 0 => 1 | 1 => 2 | 2 => 3 | _ => 15
  l.bits w (24 + 2 * (n % 4) + 1) (24 + 2 * (n % 4))

/-! ### Barrier records -/

/-- The launch of a troop. -/
def State.launchOf (s : State) (t : Troop) : Option Launch := s.launch? t.launch

def State.bar (s : State) (k : BarKey) : Barrier := (s.bars.find? (·.key == k)).getD { key := k }

def State.putBar (s : State) (b : Barrier) : State :=
  { s with bars := b :: s.bars.filter (·.key != b.key) }

/-- Which copy of its troop this is: the copies of a redundant launch share no barrier and no tandem (R433, R436). -/
def Troop.copyNo (t : Troop) : Nat :=
  match t.outr with
  | some o => match o.role with
    | .primary => 0
    | .outrider => 1
    | .tieBreak => 2
  | none => 0

/-- The cluster group number of a troop (R25), apart for each copy. -/
def State.groupOf (s : State) (t : Troop) : Option Nat :=
  match s.launchOf t with
  | some l => if 2 ≤ l.group then some (t.linear / l.group + t.copyNo * 2 ^ 32) else none
  | none => none

/-- The barrier that LEVEL and IMM32 name for a string; none for a kind that its troop lacks (R323). -/
def State.barKey (s : State) (z : Str) (t : Troop) (l : Level) (n : Nat) : Option BarKey :=
  match l with
  | .str => some (.str z.sid)
  | .trp => some (.trp t.tid n)
  | .clu => (s.groupOf t).map fun g => .clu t.launch g n
  | _ => match s.launchOf t with
    | some p => if p.coresident then some (.grid t.launch (16 * t.copyNo + n)) else none
    | none => none

/-- The role of string `i` (R22): 0 a producer, 1 a consumer. -/
def Troop.role (t : Troop) (i : Nat) : Nat := if i < t.prod then 0 else 1

/-- A string is a member of troop barrier `n` (R290, R323). -/
def State.isMember (s : State) (t : Troop) (n idx : Nat) : Bool :=
  match (s.launchOf t).map (·.memb n) with
  | some 1 => t.role idx == 0
  | some 2 => t.role idx == 1
  | _ => true

/-- A store of the string with an id below `before` has not been accepted (R36, R252). -/
def State.storesPending (s : State) (sid before : Nat) : Bool :=
  s.accs.any fun a => a.sid == sid && decide (a.id < before) &&
    (a.kind == .st || a.kind == .radd) && a.lines.any fun l => l.st != .done

/-- An arrival has taken effect (R252, R330). -/
def State.arrived (s : State) (a : BarArr) : Bool := !s.storesPending a.sid a.before

/-- The troops of a barrier's launch or cluster group. -/
def State.barTroops (s : State) (k : BarKey) : List Troop :=
  match k with
  | .clu l g _ => s.troops.filter fun t => t.launch == l && s.groupOf t == some g
  | .grid l n => s.troops.filter fun t => t.launch == l && t.copyNo == n / 16
  | _ => []

def Troop.ended (t : Troop) : Bool := match t.st with | .ended _ => true | _ => false

/-- A troop ended by a fault (R328). -/
def Troop.lost (t : Troop) : Bool := match t.st with | .ended (some _) => true | _ => false

/-- Every string of the troop that has not retired has arrived (R323). -/
def State.troopArrived (s : State) (b : Barrier) (t : Troop) : Bool :=
  (s.strsOf t.tid).all fun z => z.retired || b.arrs.any fun a => a.sid == z.sid && s.arrived a

/-- ARRIVED (R324). -/
def State.arrivedCount (s : State) (b : Barrier) : Nat :=
  match b.key with
  | .str _ => (lanesOf ((b.arrs.filter s.arrived).foldl (fun m a => m ||| a.lanes) 0)).length
  | .trp _ _ => (b.arrs.filter s.arrived).length
  | k => ((s.barTroops k).filter fun t => b.arrs.any (·.tid == t.tid) && s.troopArrived b t).length

/-- The members of the barrier have all arrived, or count as arrived (R323); none when it has no member. -/
def State.allArrived (s : State) (b : Barrier) : Option Bool :=
  match b.key with
  | .str sid =>
    match s.str? sid with
    | some z =>
      let m := (b.arrs.filter s.arrived).foldl (fun m a => m ||| a.lanes) 0
      some ((List.range 32).all fun l => m.getLsbD l || (z.lane l).exited)
    | none => none
  | .trp tid n =>
    match s.troop? tid with
    | some t =>
      let mem := (s.strsOf tid).filter fun z => s.isMember t n z.idx
      if mem.isEmpty then none
      else some (mem.all fun z => z.retired || b.arrs.any fun a => a.sid == z.sid && s.arrived a)
    | none => none
  | k => some ((s.barTroops k).all fun t => t.ended || s.troopArrived b t)

def Barrier.exp (b : Barrier) : Nat := b.exps.foldl (fun n e => n + e.2.2) 0

/-- SUM (R324): one value for each string's first arrival by BARV, wrapping. -/
def Barrier.sum (b : Barrier) : Dword := b.arrs.foldl (fun x a => match a.val with | some v => x + v | none => x) 0

/-- Unparks the lanes whose reason satisfies `p`. -/
def Str.unpark (z : Str) (p : Park → Bool) : Str :=
  { z with lanes := z.lanes.map fun l => if p l.park then { l with park := .none } else l }

/-- R327: the phase that a token names has completed. -/
def tokenDone (done token : Word) : Bool := decide (0 < (done - token).toInt)

/-- The phase completes (R324, R326, R328). -/
def State.completePhase (s : State) (b : Barrier) : State :=
  let lost := (s.barTroops b.key).any Troop.lost
  let status : Half := if b.status = 0 && (decide (b.exp < b.cr) || lost) then 3 else b.status
  let sum := b.sum
  let s : State := s.strs.foldl (fun s z =>
    z.lanes.foldl (fun s l =>
      match l.park with
      | .barrier k p (some d) => if k = b.key ∧ p = b.done then s.writeS z.sid (s.depthOf z) d sum else s
      | _ => s) s) s
  let done := b.done + 1
  let s := { s with strs := s.strs.map fun (z : Str) => z.unpark fun p =>
    match p with
    | .barrier k ph _ => k == b.key && ph == b.done
    | .bwait k tok => k == b.key && tokenDone done tok
    | _ => false }
  s.putBar { key := b.key, done := done, last := status }

/-- Completes the phase at the first moment at which it can (R324). Each event that can complete a phase asks once. -/
def State.checkBar (s : State) (k : BarKey) : State :=
  let b := s.bar k
  let go := match s.allArrived b with
    | some all => all && decide (b.exp ≤ b.cr)
    | none => decide (0 < b.exp) && decide (b.exp ≤ b.cr)
  if go then s.completePhase b else s

/-- The barriers of a string's kinds with an arrival in the current phase. -/
def State.checkArrivals (s : State) (sid : Nat) : State :=
  ((s.bars.filter fun b => b.arrs.any (·.sid == sid)).map (·.key)).foldl (fun s k => s.checkBar k) s

/-- The cluster and grid barriers of a troop's launch. -/
def State.sharedKeys (s : State) (t : Troop) : List BarKey :=
  (match s.groupOf t with | some g => (List.range 8).map fun n => .clu t.launch g n | none => []) ++
    (match s.launchOf t with
      | some p => if p.coresident then (List.range 4).map fun n => .grid t.launch (16 * t.copyNo + n) else []
      | none => [])

/-- A string has retired: every barrier that counts it is asked (R38, R323). -/
def State.checkRetired (s : State) (t : Troop) : State :=
  (((List.range 16).map fun n => BarKey.trp t.tid n) ++ s.sharedKeys t).foldl (fun s k => s.checkBar k) s

/-- A string arrives (R324, R325): its first BAR or BARV of the phase is its arrival, a later one joins it. -/
def State.arrive (s : State) (z : Str) (k : BarKey) (lanes : Mask) (val : Option Dword) : State :=
  let b := s.bar k
  let fresh : Mask := match k with
    | .str _ => lanes &&& ~~~(b.arrs.foldl (fun m a => m ||| a.lanes) 0)
    | _ => if b.arrs.any (·.sid == z.sid) then 0 else lanes
  let s := if fresh = 0 then s else s.putBar { b with arrs := b.arrs ++
    [{ sid := z.sid, tid := z.tid, lanes := fresh, depth := s.depthOf z, val := val, before := s.nextId }] }
  s.checkBar k

/-- The barriers from whose current phase a withdrawal takes expected bytes. -/
def State.expKeys (s : State) (tid j : Nat) : List BarKey :=
  (s.bars.filter fun b => b.exps.any fun e => e.1 == tid && decide (j ≤ e.2.1)).map (·.key)

/-- A troop ends: at its shared barriers its arrivals of the current phase stay, and what its strings gave to SUM (R324, R328). One
that had not arrived whole counts as arrived without having been counted: its values stay under no troop's name. -/
def State.keepArrivals (s : State) (t : Troop) : State :=
  { s with bars := s.bars.map fun b =>
      if s.troopArrived b t then b
      else { b with arrs := b.arrs.map fun a => if a.tid == t.tid then { a with tid := 0 } else a } }

/-- R331: arrivals and expectations of the failed depths are withdrawn. -/
def State.withdraw (s : State) (tid j : Nat) : State :=
  { s with bars := s.bars.map fun b =>
      { b with arrs := b.arrs.filter fun a => !(a.tid == tid && decide (j ≤ a.depth))
               exps := b.exps.filter fun e => !(e.1 == tid && decide (j ≤ e.2.1)) } }

end Sys2Proof.Machine
end

