-- ==== Sys2Proof/Machine/Buffers.lean ====
section
/-! DEFINITION. The write buffers of the commit hierarchy: string, troop and cluster lines with their epochs (R201 to R223).
A store or commit at die level or wider leaves the buffers as a home write; its way to its home is in Mem. -/

namespace Sys2Proof.Machine

/-! ### Lines of 64 bytes -/

def lineByte (d : BitVec 512) (i : Nat) : Byte := d.extractLsb' (8 * i) 8

def lineSet (d : BitVec 512) (i : Nat) (b : Byte) : BitVec 512 :=
  (d &&& ~~~(255#512 <<< (8 * i))) ||| (b.setWidth 512 <<< (8 * i))

def byteBit (i : Nat) : Dword := 1#64 <<< i

/-- The bytes named by a mask. -/
def maskBytes (m : Dword) : List Nat := (List.range 64).filter fun i => m.getLsbD i

/-- The bytes of a line that a mask names. -/
def lineBytes (m : Dword) (d : BitVec 512) : List (Nat × Byte) := (maskBytes m).map fun i => (i, lineByte d i)

/-- A mask and a line from a list of bytes; the later byte of one place stands. -/
def packLine (bs : List (Nat × Byte)) : Dword × BitVec 512 :=
  bs.foldl (fun (m, d) (i, b) => (m ||| byteBit i, lineSet d i b)) (0, 0)

/-! ### Who owns and who sees a line -/

/-- The identity under which a troop commits shadow lines: its tandem inside a tandem block (R209, R430). -/
def Troop.owner (t : Troop) : Committer :=
  match t.tandem with
  | some id => if t.depth = 0 then .trp t.tid else .tan id
  | none => .trp t.tid

/-- The troop owns what it committed, and inside a tandem block what its tandem committed (R203, R209, R214). -/
def Troop.owns (t : Troop) (c : Committer) : Bool :=
  c == .trp t.tid || (match t.tandem with | some id => decide (0 < t.depth) && c == .tan id | none => false)

/-- A committer with a tandem counting as one troop (R203, R217). -/
def State.party (s : State) (c : Committer) : Committer :=
  match c with
  | .trp tid => match s.troop? tid with
    | some t => match t.tandem with
      | some id => .tan id
      | none => c
    | none => c
  | _ => c

/-- The protection level of a troop, when its writes are held at one (R221, R427, R434). -/
def Troop.protect (t : Troop) : Option Level :=
  if t.outr.isSome then some .clu
  else if t.depth = 0 then none
  else if t.tandem.isSome then some .clu else some .trp

/-- A write's level under demotion (R221). -/
def Troop.demote (t : Troop) (l : Level) : Level :=
  match t.protect with
  | some p => if p.code < l.code then p else l
  | none => l

/-- The buffer of a level for a string (R202). -/
def bufSpace (sid : Nat) (t : Troop) : Level → Space
  | .str => .str sid
  | .trp => .trp t.tid
  | _ => .clu (clusterOf t.core)

/-- A troop sees its own copies, and shadow lines of epoch 0 or of its own deeper epochs (R206); of those that a redundant troop
holds, its own and its tandem's (R434). -/
def State.sees (s : State) (t : Troop) (l : BufLine) : Bool :=
  match l.space with
  | .clu _ => (l.epoch == 0 && (!l.held || s.party l.owner == s.party (.trp t.tid))) || t.owns l.owner
  | _ => true

/-- The copy of the deepest epoch; of one epoch, the held copy of a redundant troop lies over the shared one. -/
def deepest : List BufLine → Option BufLine
  | [] => none
  | l :: ls =>
    match deepest ls with
    | some m => if l.epoch < m.epoch || (l.epoch == m.epoch && m.held) then some m else some l
    | none => some l

/-- The troop may change the copy in place: it is of the current epoch, and held when the troop is redundant (R220, R434). -/
def Troop.mayEdit (t : Troop) (l : BufLine) : Bool :=
  l.epoch == t.depth && (match l.space with | .clu _ => l.held == t.outr.isSome | _ => true)

/-- The copy of a line that loads of the troop read in one buffer (R206). -/
def State.visible (s : State) (t : Troop) (sp : Space) (line : Nat) : Option BufLine :=
  deepest (s.lines.filter fun l => l.space == sp && l.line == line && l.covered == 0 && s.sees t l)

/-- The byte that one buffer gives a load, if it holds one. -/
def State.bufByte (s : State) (t : Troop) (sp : Space) (pa : Nat) : Option Byte :=
  match s.visible t sp (pa / 64) with
  | some l => if l.mask.getLsbD (pa % 64) then some (lineByte l.data (pa % 64)) else none
  | none => none

/-- The byte that the buffers give a load of a string: string, troop, cluster (R206). -/
def State.bufferedByte (s : State) (sid : Nat) (t : Troop) (pa : Nat) : Option Byte :=
  match s.bufByte t (.str sid) pa with
  | some b => some b
  | none =>
    match s.bufByte t (.trp t.tid) pa with
    | some b => some b
    | none => s.bufByte t (.clu (clusterOf t.core)) pa

/-! ### Capacity -/

/-- The lines of one buffer, covered copies counted (R202, R220). -/
def State.used (s : State) (sp : Space) : Nat := (s.lines.filter fun l => l.space == sp).length

def bufCap (t : Troop) : Space → Nat
  | .str _ => 64
  | .trp _ => t.bufQ
  | .clu _ => 32768

/-- Whether a write of a line takes a new line copy (R220). -/
def State.takesCopy (s : State) (t : Troop) (sp : Space) (line : Nat) : Bool :=
  match s.visible t sp line with
  | some l => !t.mayEdit l
  | none => true

/-! ### Writing and discarding bytes -/

/-- A line with bytes written by a committer (R203, R217). -/
def BufLine.put (l : BufLine) (who : Committer) (bs : List (Nat × Byte)) : BufLine :=
  bs.foldl (fun l (i, b) =>
    { l with mask := l.mask ||| byteBit i, data := lineSet l.data i b, written := l.written ||| byteBit i
             removed := l.removed &&& ~~~byteBit i, comm := (i, who) :: l.comm.filter (·.1 != i) }) l

/-- A line with bytes discarded: their committers are cleared (R203). -/
def BufLine.drop (l : BufLine) (is : List Nat) : BufLine :=
  is.foldl (fun l i =>
    { l with mask := l.mask &&& ~~~byteBit i, data := lineSet l.data i 0, written := l.written ||| byteBit i
             removed := l.removed ||| byteBit i, comm := l.comm.filter (·.1 != i) }) l

/-- A committer asks for a level (R221). -/
def BufLine.ask (l : BufLine) (who : Committer) (lvl : Level) : BufLine :=
  let old := match l.asks.find? (·.1 == who) with | some e => e.2.max lvl | none => lvl
  { l with asks := (who, old) :: l.asks.filter (·.1 != who) }

/-- The requested level of a line (R203). -/
def BufLine.req (l : BufLine) : Level := l.asks.foldl (fun x e => x.max e.2) .str

/-- The requested level of what a troop carries of a line: of a shared shadow line, that of its own bytes. -/
def Troop.reqOf (t : Troop) (l : BufLine) : Level :=
  match l.space with
  | .clu _ => if l.epoch = 0 then (l.asks.filter fun e => t.owns e.1).foldl (fun x e => x.max e.2) .str else l.req
  | _ => l.req

/-- A shared shadow line once the bytes that a troop owns have left it, if it still holds one. -/
def Troop.leave (t : Troop) (l : BufLine) (is : List Nat) : Option BufLine :=
  let m := l.drop is
  if m.mask = 0 then none else some { m with written := 0, removed := 0, asks := l.asks.filter fun e => !t.owns e.1 }

/-- A line that holds nothing. -/
def Troop.emptyLine (t : Troop) (sp : Space) (line va pol part : Nat) : BufLine :=
  { space := sp, line := line, va := va, mask := 0, data := 0, epoch := t.depth, covered := 0, asks := [], written := 0
    removed := 0, owner := t.owner, comm := [], pol := pol, part := part, held := t.outr.isSome }

/-- An epoch copy of a line: the whole line, nothing marked written (R220). -/
def Troop.copyLine (t : Troop) (l : BufLine) : BufLine :=
  { l with epoch := t.depth, covered := 0, written := 0, removed := 0, owner := t.owner, held := t.outr.isSome }

/-- Frees lines that hold no byte and hide no outer copy. -/
def State.prune (s : State) : State :=
  { s with lines := s.lines.filter fun l => l.mask != 0 || s.lines.any fun m =>
      m.space == l.space && m.line == l.line && decide (m.epoch < l.epoch) }

/-- Changes the troop's copy of a line at the current depth, making it first when the visible copy is of an outer epoch or
there is none (R220). -/
def State.editLine (s : State) (t : Troop) (sp : Space) (line va pol part : Nat) (f : BufLine → BufLine) : State :=
  match s.visible t sp line with
  | some l =>
    if t.mayEdit l then { s with lines := updFirst (· == l) f s.lines }
    else { s with lines := s.lines ++ [f (t.copyLine l)] }
  | none => { s with lines := s.lines ++ [f (t.emptyLine sp line va pol part)] }

/-- The bytes of a line that a buffer would give a load. -/
def State.heldIn (s : State) (t : Troop) (sp : Space) (line : Nat) (is : List Nat) : List Nat :=
  match s.visible t sp line with
  | some l => is.filter fun i => l.mask.getLsbD i
  | none => []

/-- Discards bytes of a line from one buffer (R205); a discard in a recovery block is a write of its epoch (R220). -/
def State.discard (s : State) (t : Troop) (sp : Space) (line : Nat) (is : List Nat) : State :=
  let held := s.heldIn t sp line is
  if held = [] then s else (s.editLine t sp line 0 0 0 (·.drop held)).prune

/-- The buffers below a level whose overlapping bytes a write discards (R205). -/
def spacesBelow (sid : Nat) (t : Troop) (l : Level) : List Space :=
  (if 1 ≤ l.code then [.str sid] else []) ++ (if 2 ≤ l.code then [.trp t.tid] else []) ++
    (if 3 ≤ l.code then [.clu (clusterOf t.core)] else [])

def State.discardBelow (s : State) (sid : Nat) (t : Troop) (l : Level) (line : Nat) (is : List Nat) : State :=
  (spacesBelow sid t l).foldl (fun s sp => s.discard t sp line is) s

/-- The bytes of a line that a write at a level will discard from the buffers below it (R205). -/
def State.hiddenBy (s : State) (sid : Nat) (t : Troop) (l : Level) (line : Nat) (is : List Nat) : Dword :=
  (packLine (((spacesBelow sid t l).flatMap fun sp => s.heldIn t sp line is).map fun i => (i, 0))).1

/-- A discard that must copy an outer line first takes a line (R205, R220). -/
def State.discardFits (s : State) (sid : Nat) (t : Troop) (l : Level) (line : Nat) (is : List Nat) : Bool :=
  (spacesBelow sid t l).all fun sp =>
    s.heldIn t sp line is == [] || !s.takesCopy t sp line || decide (s.used sp < bufCap t sp)

/-- The committer recorded for the bytes a string writes into a buffer (R203). -/
def committerFor (sid : Nat) (t : Troop) : Space → Committer
  | .clu _ => t.owner
  | _ => .str sid

/-- R217: some written byte is held in a shared buffer with another committer. -/
def State.conflicts (s : State) (t : Troop) (sp : Space) (line : Nat) (is : List Nat) (who : Committer) : Bool :=
  match sp with
  | .str _ => false
  | _ =>
    match s.visible t sp line with
    | some l => l.comm.any fun (i, c) => is.contains i && s.party c != s.party who
    | none => false

/-- RCVSTAT.CONFLICTS of a troop rises by one and saturates (R218). -/
def State.countConflict (s : State) (tid : Nat) : State :=
  s.updTroop tid fun t => { t with conflicts := min 0xFFFF (t.conflicts + 1) }

/-- STRCTL.CONFLICT = FAULT (R31, R218). -/
def Str.conflictFaults (z : Str) : Bool := z.strctl.getLsbD 5

/-- The buffer of a level has room for the bytes of one line, and for the copies that what they discard below it needs (R219, R220). -/
def State.bufFits (s : State) (sid : Nat) (t : Troop) (asked : Level) (line : Nat) (is : List Nat) : Bool :=
  let sp := bufSpace sid t (t.demote asked)
  (!s.takesCopy t sp line || decide (s.used sp < bufCap t sp)) && s.discardFits sid t (t.demote asked) line is

/-- The write of one line's bytes into the buffer of a level (R204, R205, R221). `asked` is the level before demotion. -/
def State.bufPut (s : State) (sid : Nat) (t : Troop) (asked : Level) (line va pol part : Nat) (bs : List (Nat × Byte)) : State :=
  let sp := bufSpace sid t (t.demote asked)
  let who := committerFor sid t sp
  (s.discardBelow sid t (t.demote asked) line (bs.map (·.1))).editLine t sp line va pol part fun b =>
    { (b.put who bs).ask who asked with owner := t.owner }

/-! ### Carrying lines upward -/

/-- What leaves a buffer for die level or wider: the line, its virtual line, its bytes, its policy and partition. -/
structure Carried where
  line : Nat
  va : Nat
  mask : Dword
  data : BitVec 512
  req : Level
  pol : Nat
  part : Nat
  deriving DecidableEq, Repr

/-- The lines of a buffer that have a visible copy, each once. -/
def State.linesIn (s : State) (t : Troop) (sp : Space) : List Nat :=
  ((s.lines.filter fun l => l.space == sp && l.covered == 0 && s.sees t l).map (·.line)).dedup

/-- The bytes of a visible copy that a commit of the troop carries: of a shared shadow line, those it owns (R209). -/
def Troop.carries (t : Troop) (l : BufLine) : List (Nat × Byte) :=
  match l.space with
  | .clu _ =>
    if l.epoch = 0 then
      (lineBytes l.mask l.data).filter fun (i, _) => l.comm.any fun (j, c) => j == i && t.owns c
    else lineBytes l.mask l.data
  | _ => lineBytes l.mask l.data

/-- What a commit carries from one buffer, line by line. -/
def State.carriedFrom (s : State) (t : Troop) (sp : Space) : List Carried :=
  (s.linesIn t sp).filterMap fun line =>
    match s.visible t sp line with
    | some l =>
      let (m, d) := packLine (t.carries l)
      if m = 0 then none
      else some { line := line, va := l.va, mask := m, data := d, req := t.reqOf l, pol := l.pol, part := l.part }
    | none => none

/-- The source copies of the lines that `p` names after a commit at depth k: copies tagged k leave, outer ones are covered
(R220). Of a shared shadow line only the carried bytes leave. -/
def State.emptiedIf (s : State) (t : Troop) (sp : Space) (p : BufLine → Bool) : State :=
  { s with lines := s.lines.filterMap fun l =>
      if l.space != sp || l.covered != 0 || !s.sees t l || !p l then some l
      else if l.epoch = t.depth then
        match sp with
        | .clu _ =>
          if l.epoch = 0 then t.leave l ((t.carries l).map (·.1)) else none
        | _ => none
      else some { l with covered := t.depth } }

def State.emptied (s : State) (t : Troop) (sp : Space) : State := s.emptiedIf t sp fun _ => true

/-- The wider line's bytes with the narrower one's on top (R206, R209). -/
def Carried.over (top bottom : Carried) : Carried :=
  let (m, d) := packLine (lineBytes bottom.mask bottom.data ++ lineBytes top.mask top.data)
  { bottom with mask := m, data := d, req := bottom.req.max top.req }

/-- Two lists of carried lines, the first on top. -/
def overlay (top bottom : List Carried) : List Carried :=
  (bottom.map fun b => match top.find? (·.line == b.line) with | some t => t.over b | none => b) ++
    top.filter fun t => !bottom.any (·.line == t.line)

/-- The buffers below a level that a commit carries from (R209). -/
def State.commitBytes (s : State) (sid : Nat) (t : Troop) (l : Level) : List Carried :=
  (spacesBelow sid t l).foldl (fun acc sp => overlay acc (s.carriedFrom t sp)) []

def State.commitEmptied (s : State) (sid : Nat) (t : Troop) (l : Level) : State :=
  (spacesBelow sid t l).foldl (fun s sp => s.emptied t sp) s

/-- Lines carried into a buffer (R209, R220): `asked` raises their requested level. -/
def State.carryInto (s : State) (sid : Nat) (t : Troop) (sp : Space) (asked : Level) (cs : List Carried) : State :=
  cs.foldl (fun s c => s.editLine t sp c.line c.va c.pol c.part fun b =>
    { (b.put (committerFor sid t sp) (lineBytes c.mask c.data)).ask (committerFor sid t sp) (c.req.max asked) with
      owner := t.owner }) s

/-- A virtual line lies in an open commutative range of the troop's context (R224). -/
def State.inOpenRange (s : State) (t : Troop) (va w : Nat) : Option Range :=
  s.ranges.find? fun r => r.pad == t.pad && r.secure == t.secure && r.st != .opening && decide (r.base < va + w) &&
    decide (va < r.base + r.len)

/-- A line of an access lies under a part of it. -/
def LineReq.holds (l : LineReq) (e : Elem) : Bool := e.w != 0 && e.va / 64 * 64 == l.va

/-- The parts of an access on one of its lines. -/
def Access.on (a : Access) (l : LineReq) : List Elem := a.elems.filter l.holds

/-- The bytes that the parts of a store write in their line, in lane order. -/
def storeBytes (es : List Elem) : List (Nat × Byte) :=
  es.flatMap fun e => (List.range e.w).map fun k => (e.va % 64 + k, BitVec.ofNat 8 (e.data >>> (8 * k)))

/-- The line of a store is translated and has passed its instruction's checks, but is not yet written. -/
def LineReq.promised (l : LineReq) : Option (Nat × Nat × Nat) :=
  match l.st with
  | .ready pa pol part => if l.sure then some (pa, pol, part) else none
  | _ => none

/-- A line of a store that its instruction's checks have passed, and that has still to enter its buffer; of a `strict` one the checks
have found no conflict, and its string's policy is that such a one faults (R218). -/
structure Promise where
  sid : Nat
  t : Troop
  lvl : Level
  line : Nat
  va : Nat
  pol : Nat
  part : Nat
  bytes : List (Nat × Byte)
  strict : Bool

/-- What has passed its checks and is still to enter. What a cut has halted is checked again after it (R304). -/
def State.promises (s : State) : List Promise :=
  s.accs.flatMap fun a => match (s.str? a.sid).bind fun z => s.troop? z.tid with
    | some t =>
      if a.kind == .st && (t.demote a.lvl).buffered && !s.haltedCore t.core then
        a.lines.filterMap fun l => l.promised.map fun p =>
          { sid := a.sid, t := t, lvl := a.lvl, line := p.1, va := l.va, pol := p.2.1, part := p.2.2
            bytes := storeBytes (a.on l), strict := a.strict }
      else []
    | none => []

/-- The buffers with the copies that a promised line takes, of its own buffer and of those that it discards from in a recovery block;
what it discards still stands. -/
def State.withPromise (s : State) (p : Promise) : State :=
  let lvl := p.t.demote p.lvl
  let s := (spacesBelow p.sid p.t lvl).foldl (fun s sp =>
    if s.heldIn p.t sp p.line (p.bytes.map (·.1)) != [] && s.takesCopy p.t sp p.line then s.editLine p.t sp p.line 0 0 0 id else s) s
  s.editLine p.t (bufSpace p.sid p.t lvl) p.line p.va p.pol p.part fun b =>
    b.put (committerFor p.sid p.t (bufSpace p.sid p.t lvl)) p.bytes

/-- The buffers with every promised line in them: what the check of another write leaves to them (R219). -/
def State.projected (s : State) : State := s.promises.foldl State.withPromise s

/-- Bytes that enter a shared buffer now lie under promised ones of another committer, which enter after them (R217). No other troop
sees a shadow line of a recovery block or of a redundant troop. -/
def State.reserved (s : State) (p : Promise → Bool) (sp : Space) (line : Nat) (is : List Nat) (who : Committer) : Bool :=
  s.promises.any fun x => p x && bufSpace x.sid x.t (x.t.demote x.lvl) == sp && x.line == line && x.bytes.any (is.contains ·.1) &&
    (match sp with
      | .str _ => false
      | .trp _ => true
      | .clu _ => x.t.depth == 0 && x.t.outr.isNone) &&
    s.party (committerFor x.sid x.t sp) != s.party who

/-- Bytes that enter a shared buffer conflict (R217): with what lies there, or with a promised store that is checked already and must
not conflict itself, which thereby came first. DESIGN CHOICE (log entry 124). -/
def State.entersOver (s : State) (t : Troop) (sp : Space) (line : Nat) (is : List Nat) (who : Committer) : Bool :=
  s.conflicts t sp line is who || s.reserved (·.strict) sp line is who

/-- The write of bytes that no check of an issue has promised room: it takes what the promised stores leave, and says whether it
conflicts (R217, R219). -/
def State.bufStoreLate (s : State) (sid : Nat) (t : Troop) (asked : Level) (line va pol part : Nat) (bs : List (Nat × Byte)) :
    Except Cause (State × Bool) :=
  let sp := bufSpace sid t (t.demote asked)
  if s.projected.bufFits sid t asked line (bs.map (·.1)) then
    .ok (s.bufPut sid t asked line va pol part bs, s.entersOver t sp line (bs.map (·.1)) (committerFor sid t sp))
  else .error .commitOverflow

/-- Some carried byte lies over another committer's. -/
def State.carryClash (s : State) (z : Str) (t : Troop) (sp : Space) (cs : List Carried) : Bool :=
  cs.any fun c => s.entersOver t sp c.line (maskBytes c.mask) (committerFor z.sid t sp)

/-- The take point of a COMMIT into the troop or cluster level at depth k, at once for every observer (R209 to R211, R217 to
R221): the new state, or the precise fault, with which it takes nothing. `always` is a commit that merges whatever the
policy. -/
def State.commitInto (s : State) (z : Str) (t : Troop) (asked : Level) (always : Bool) : Except Cause State :=
  let l := t.demote asked
  let sp := bufSpace z.sid t l
  let cs := s.commitBytes z.sid t l
  let v := s.projected
  let hit := s.carryClash z t sp cs
  if cs.any fun c => (s.inOpenRange t c.va 64).isSome then .error .rangeStore
  else if !always && hit && z.conflictFaults then .error .siblingConflict
  else if bufCap t sp < v.used sp + (cs.filter fun c => v.takesCopy t sp c.line).length then .error .commitOverflow
  else
    let s := (s.commitEmptied z.sid t l).carryInto z.sid t sp asked cs
    .ok (if hit then s.countConflict t.tid else s)

/-- The retirement commit (R38, R219): a conflict merges and is counted, and the lines that find no room in the troop buffer are
not carried into it but given back, to go to the final commit level; a conflict there is this commit's too. -/
def State.retireCommit (s : State) (z : Str) (t : Troop) : State × List Carried :=
  let sp := Space.trp t.tid
  let cs := s.commitBytes z.sid t .trp
  let v := s.projected
  let left := (cs.filter fun c => v.takesCopy t sp c.line).drop (bufCap t sp - v.used sp)
  let fit := cs.filter fun c => !left.contains c
  let fin := t.demote t.finLvl
  let clu := Space.clu (clusterOf t.core)
  let hit := s.carryClash z t sp fit || (fin == .clu && s.carryClash z t clu left)
  let s := (s.commitEmptied z.sid t .trp).carryInto z.sid t sp .trp fit
  (if hit then s.countConflict t.tid else s, left)

/-! ### Abort, accept, rollback -/

/-- ABORT's discard in one buffer (R214): every copy at depth 0, the copies of the current epoch inside a block. -/
def State.abortSpace (s : State) (t : Troop) (sp : Space) : State :=
  { s with lines := s.lines.filterMap fun l =>
      if l.space != sp || l.epoch != t.depth then some l
      else
        match sp with
        | .clu _ =>
          if l.epoch = 0 then t.leave l ((t.carries l).map (·.1))
          else if t.owns l.owner then none else some l
        | _ => none }

/-- The buffers that an ABORT at a level discards from (R214). -/
def State.abortSpaces (s : State) (sid : Nat) (t : Troop) : Level → List Space
  | .str => [.str sid]
  | .trp => .trp t.tid :: (s.strsOf t.tid).map fun z => .str z.sid
  | _ => .clu (clusterOf t.core) :: .trp t.tid :: (s.strsOf t.tid).map fun z => .str z.sid

def State.abortBuffers (s : State) (sid : Nat) (t : Troop) (l : Level) : State :=
  (s.abortSpaces sid t l).foldl (fun s sp => s.abortSpace t sp) s

/-- A line belongs to the buffers of a troop or its tandem (R222). -/
def State.ofTroop (s : State) (t : Troop) (l : BufLine) : Bool :=
  match l.space with
  | .str sid => (s.strsOf t.tid).any (·.sid == sid)
  | .trp tid => tid == t.tid
  | .clu c => c == clusterOf t.core && t.owns l.owner

/-- A held copy without the bytes that `p` does not name, if it still holds one. -/
def BufLine.cutTo (l : BufLine) (owner : Committer) (p : Committer → Bool) : Option BufLine :=
  let m := l.drop ((l.comm.filter fun e => !p e.2).map (·.1))
  if m.mask = 0 then none
  else some { m with written := l.written &&& m.mask, removed := l.removed, asks := l.asks.filter fun e => p e.1, owner := owner }

/-- A troop that leaves its tandem takes its bytes out of the lines that redundant members hold together (R431, R434). -/
def State.partHeld (s : State) (t : Troop) : State :=
  let me : Committer := .trp t.tid
  { s with lines := s.lines.flatMap fun l =>
      match l.comm.find? fun e => e.2 != me && s.party e.2 == s.party me with
      | some e =>
        if l.held && l.epoch == 0 && s.party l.owner == s.party me then
          (l.cutTo (if l.owner == me then e.2 else l.owner) (· != me)).toList ++ (l.cutTo me (· == me)).toList
        else [l]
      | none => [l] }

/-- The copies of one line that members of a tandem held before they joined it become one, which all of them see (R434). -/
def State.joinHeld (s : State) (id : Nat) : State :=
  let ours := fun (l : BufLine) => l.held && l.epoch == 0 && s.party l.owner == .tan id
  { s with lines := s.lines.foldl (fun ls l =>
      match ls.find? fun m => ours l && ours m && m.space == l.space && m.line == l.line with
      | some m =>
        let own := fun i => l.comm.any fun e => e.1 == i && s.party e.2 == .tan id
        updFirst (· == m) (fun m => l.asks.foldl (fun m e => m.ask e.1 e.2) ((lineBytes l.mask l.data).foldl (fun m (i, b) =>
          if own i then { m with mask := m.mask ||| byteBit i, data := lineSet m.data i b
                                 comm := l.comm.filter (·.1 == i) ++ m.comm.filter (·.1 != i) } else m) m)) ls
      | none => ls ++ [l]) [] }

/-- R222: rollback of the buffers to depth j − 1. -/
def State.rollbackBuffers (s : State) (t : Troop) (j : Nat) : State :=
  { s with lines := s.lines.filterMap fun l =>
      if !s.ofTroop t l then some l
      else if decide (j ≤ l.epoch) && l.epoch != 0 then none
      else if j ≤ l.covered then some { l with covered := 0 } else some l }

/-- A copy of epoch k merged over one of epoch k − 1: written bytes take its value or removal (R222). -/
def BufLine.mergeOver (new old : BufLine) : BufLine :=
  let put := (lineBytes (new.mask &&& new.written) new.data).foldl (fun l (i, b) =>
    { l with mask := l.mask ||| byteBit i, data := lineSet l.data i b
             comm := (new.comm.filter (·.1 == i)) ++ l.comm.filter (·.1 != i) }) old
  let gone := maskBytes (new.removed &&& ~~~new.mask)
  let cut := gone.foldl (fun l i => { l with mask := l.mask &&& ~~~byteBit i, data := lineSet l.data i 0
                                             comm := l.comm.filter (·.1 != i) }) put
  new.asks.foldl (fun l e => l.ask e.1 e.2)
    { cut with written := old.written ||| new.written, removed := (old.removed &&& ~~~new.mask) ||| new.removed }

/-- A covered copy that a copy of its own epoch merges with gives no byte: its bytes are hidden, and no rollback can uncover them
once the copy has the epoch that covers it. -/
def BufLine.hidden (l : BufLine) : BufLine :=
  if l.covered = 0 then l else { l with mask := 0, data := 0, comm := [], covered := 0 }

/-- The copy of epoch k − 1 in the same buffer with which a copy of epoch k merges: one covered as it is, if there is one. -/
def State.lowerOf (s : State) (t : Troop) (k : Nat) (l : BufLine) : Option BufLine :=
  let ms := s.lines.filter fun m => m != l && m.space == l.space && m.line == l.line && m.epoch == k - 1 && m.held == l.held &&
    (match l.space with | .clu _ => s.sees t m | _ => true)
  (ms.find? (·.covered == l.covered)).or ms.head?

/-- Retags one copy of epoch k as k − 1, merging it with a copy of that epoch in the same buffer: two covered copies stay covered. -/
def State.retagLine (s : State) (t : Troop) (k : Nat) (l : BufLine) : State :=
  let rest := s.lines.erase l
  match s.lowerOf t k l with
  | some m => { s with lines := updFirst (· == m) (fun m => l.mergeOver (if l.covered = 0 then m.hidden else m)) rest }
  | none => { s with lines := { l with epoch := k - 1 } :: rest }

/-- At the outermost ACCEPT a copy's bytes replace another committer's in a shared shadow line (R223), or come before a promised store's
(R218). -/
def State.retagClash (s : State) (t : Troop) (l : BufLine) : Bool :=
  match l.space with
  | .clu _ =>
    s.reserved (·.strict) l.space l.line (maskBytes (l.written &&& l.mask)) l.owner || (match s.lowerOf t 1 l with
      | some m => m.comm.any fun (i, c) => l.written.getLsbD i && l.mask.getLsbD i && s.party c != s.party l.owner
      | none => false)
  | _ => false

/-- R222, R223: the buffers at the ACCEPT of depth k. At the outermost one the copies covered at depth 1 are freed, no byte stays
marked written, and a conflict is counted once for the whole retagging, as for a commit (R218). -/
def State.acceptBuffers (s : State) (t : Troop) (k : Nat) : State :=
  let s := if k = 1 then { s with lines := s.lines.filter fun l => !(s.ofTroop t l && decide (1 ≤ l.covered)) }
    else { s with lines := updAll (fun l => s.ofTroop t l && l.covered == k) (fun l => { l with covered := k - 1 }) s.lines }
  let mine := s.lines.filter fun l => s.ofTroop t l && l.epoch == k
  let clash := k == 1 && mine.any (s.retagClash t)
  let s := mine.foldl (fun s l => s.retagLine t k l) s
  let s := if clash then s.countConflict t.tid else s
  if k = 1 then { s with lines := updAll (fun l => s.ofTroop t l && l.epoch == 0)
                           (fun l => { l with written := 0, removed := 0 }) s.lines }.prune else s

end Sys2Proof.Machine
end

