-- ==== Sys2Proof/Machine/Demand.lean ====
section
/-! DEFINITION. Tile views and what a cell demands: where the elements of a view lie (R155, R156), what a cell of a node needs of its
inputs and its tracing (R165), and the check of writes against the sources of live nodes (R175). -/

namespace Sys2Proof.Machine

/-! ### Views -/

/-- What an element of a view is in memory: bytes from `va`, its bits from bit `shift` of them. -/
inductive ElemAt where
  | out
  | noncanonical
  | misaligned
  | at (va len shift : Nat)
  deriving DecidableEq, Repr

/-- The element index of (i, j) (R155). -/
def View.index (v : View) (i j : Nat) : Int :=
  let (i, j) := if v.tr then (j, i) else (i, j)
  if v.layout = 2 then
    v.origin + (i / 16 : Nat) * v.rstride + (j / 16 : Nat) * v.cstride + 16 * (i % 16 : Nat) + (j % 16 : Nat)
  else v.origin + i * v.rstride + j * v.cstride

/-- The bytes of `n` bytes at an exact address (R181). -/
def elemAtAddr (a : Int) (n al shift : Nat) : ElemAt :=
  if !spanOk a n then .noncanonical else if a.toNat % al != 0 then .misaligned else .at a.toNat n shift

/-- Where index `x` lies in memory (R155): first byte, length in bytes, and the bit that it begins at. -/
def View.bytesOf (v : View) (x : Int) : Int × Nat × Nat :=
  if v.fmt = .tap6 then
    let bit := 6 * (x.toNat % 4)
    (v.base + 3 * (x.toNat / 4) + bit / 8, (bit + 5) / 8 - bit / 8 + 1, bit % 8)
  else (v.base + x * (v.fmt.width / 8 : Nat), v.fmt.width / 8, 0)

/-- The element of index `x` (R155). -/
def View.at (v : View) (x : Int) : ElemAt :=
  if x < 0 || (v.extent : Int) ≤ x then .out
  else elemAtAddr (v.bytesOf x).1 (v.bytesOf x).2.1 (if v.fmt = .tap6 then 1 else v.fmt.width / 8) (v.bytesOf x).2.2

def View.elem (v : View) (i j : Nat) : ElemAt := v.at (v.index i j)

/-- The first element of the block of (i, j) along K, which is the columns when `kcols` (R156). -/
def blockHead (kcols : Bool) (i j : Nat) : Nat × Nat := if kcols then (i, 32 * (j / 32)) else (32 * (i / 32), j)

/-- The scale byte of the block of (i, j) (R156). -/
def View.scaleAt (v : View) (kcols : Bool) (i j : Nat) : ElemAt :=
  let (i0, j0) := blockHead kcols i j
  elemAtAddr (v.scale * 8192 + v.index i0 j0 / 32) 1 1 0

/-- The least and the greatest of a list of indices. -/
def ends : List Int → Option (Int × Int)
  | [] => none
  | x :: xs => some (xs.foldl min x, xs.foldl max x)

/-- The least and the greatest index of the elements in the rows `I` and the columns `J`: an index is a sum of a part for its row
and one for its column. -/
def View.indexEnds (v : View) (I J : List Nat) : Option (Int × Int) :=
  match ends (I.map fun i => v.index i 0), ends (J.map fun j => v.index 0 j - v.index 0 0) with
  | some r, some c => some (r.1 + c.1, r.2 + c.2)
  | _, _ => none

/-- The least and the greatest index of a view below EXTENT: an element outside it has no bytes (R155). -/
def View.heldEnds (v : View) : Option (Int × Int) :=
  let I := List.range v.rows
  let J := List.range v.cols
  let held := fun (x : Int) => decide (0 ≤ x) && decide (x < v.extent)
  (v.indexEnds I J).bind fun r =>
    if held r.1 && held r.2 then some r else ends ((I.flatMap fun i => J.map (v.index i)).filter held)

/-- The byte ranges, first and one past last, that a view's elements and its scale bytes span (R175); `kcols` says which axis its
consumer takes for K (R156). -/
def View.box (v : View) (kcols : Bool) : List (Int × Int) :=
  let elems := v.heldEnds.map fun r => ((v.bytesOf r.1).1, (v.bytesOf r.2).1 + (v.bytesOf r.2).2.1)
  let heads := fun n => (List.range ((n + 31) / 32)).map (32 * ·)
  let scales := (if kcols then v.indexEnds (List.range v.rows) (heads v.cols) else v.indexEnds (heads v.rows) (List.range v.cols)).map
    fun r => ((v.scale : Int) * 8192 + r.1 / 32, (v.scale : Int) * 8192 + r.2 / 32 + 1)
  elems.toList ++ if v.fmt.isTap then scales.toList else []

/-! ### Tile values -/

/-- The shape of a tile value: rows, columns, format, and whether the K axis of a TAP value is its columns (R174). -/
structure TDesc where
  rows : Nat
  cols : Nat
  fmt : Ty
  kcols : Bool
  deriving DecidableEq, Repr

def State.tdesc (s : State) (core : Nat) : TileVal → Option TDesc
  | .empty => none
  | .view v => some { rows := v.rows, cols := v.cols, fmt := v.fmt, kcols := true }
  | .node n => (s.node? core n).map fun x => { rows := x.rows, cols := x.cols, fmt := x.out, kcols := x.kcols }

/-! ### Cells -/

/-- Cell 16r + c of (i, j) (R160). -/
def cellOf (i j : Nat) : Nat := 16 * (i / 16) + j / 16

def Node.cellRows (x : Node) (cell : Nat) : List Nat := (List.range 16).filterMap fun i =>
  if 16 * (cell / 16) + i < x.rows then some (16 * (cell / 16) + i) else none

def Node.cellCols (x : Node) (cell : Nat) : List Nat := (List.range 16).filterMap fun j =>
  if 16 * (cell % 16) + j < x.cols then some (16 * (cell % 16) + j) else none

/-- Every cell of an output. -/
def Node.cells (x : Node) : List Nat :=
  (List.range ((x.rows + 15) / 16)).flatMap fun r => (List.range ((x.cols + 15) / 16)).map fun c => 16 * r + c

/-- The cells that a box meets: row0, col0, rows, cols (R164). -/
def boxCells (b : Nat × Nat × Nat × Nat) : List Nat :=
  let (r0, c0, nr, nc) := b
  (((List.range nr).map (r0 + ·)).flatMap fun i => ((List.range nc).map (c0 + ·)).map fun j => cellOf i j).dedup

/-- The computed cell that holds (i, j). -/
def Node.cellAt (x : Node) (i j : Nat) : Option CellVal := x.forced.find? (·.cell == cellOf i j)

def Node.isForced (x : Node) (cell : Nat) : Bool := x.forced.any (·.cell == cell)

/-- The bits of an element of a node. -/
def Node.bits (x : Node) (i j : Nat) : Nat :=
  match x.cellAt i j with
  | some c => ((c.vals.find? fun v => v.1 == i && v.2.1 == j).map fun v => v.2.2).getD 0
  | none => 0

/-- The scale byte for the block of (i, j) along an axis: that of the node's own block, along its K axis, which holds the
first element of the block (R174), when a cell that holds it is in the cell store. -/
def Node.scale? (x : Node) (kcols : Bool) (i j : Nat) : Option Nat :=
  let (i0, j0) := blockHead kcols i j
  let key := if x.kcols then (i0, j0 / 32) else (j0, i0 / 32)
  ((x.forced.flatMap (·.scales)).find? fun v => v.1 == key.1 && v.2.1 == key.2).map (·.2.2)

def Node.scale (x : Node) (kcols : Bool) (i j : Nat) : Nat := (x.scale? kcols i j).getD 0

/-- The element lies in a cell that has been evicted to BACKING (R161). -/
def Node.evictedAt (x : Node) (i j : Nat) : Bool := match x.cellAt i j with | some c => c.evicted | none => false

/-- Whole blocks of 32 that meet a list of places, below a bound (R165). -/
def widen (xs : List Nat) (bound : Nat) : List Nat :=
  ((xs.map (· / 32)).dedup.flatMap fun b => (List.range 32).map (32 * b + ·)).filter (· < bound)

/-- What a cell needs of its inputs (R165): slot, rows and columns. `a` and `b` are the shapes of slots 0 and 1, `gs` the rows
that a gather names once its index is known. -/
def Node.needs (x : Node) (cell : Nat) (a b : TDesc) (gs : List Nat) : List (Nat × List Nat × List Nat) :=
  let I := x.cellRows cell
  let J := x.cellCols cell
  match x.op with
  | .mul => [(0, I, List.range a.cols), (1, List.range a.cols, J)] ++ if 2 < x.slots.length then [(2, I, J)] else []
  | .ew => [(0, I, J), (1, if b.rows = 1 then [0] else I, if b.cols = 1 then [0] else J)]
  | .red => if x.axis then [(0, I, List.range a.cols)] else [(0, List.range a.rows, J)]
  | .trn => [(0, J, I)]
  | .qnt => if x.axis then [(0, widen I a.rows, J)] else [(0, I, widen J a.cols)]
  | .gather =>
    (1, I, [0]) :: if gs = [] then [] else
      [(0, gs.dedup, if a.fmt.isTap && !a.kcols then (J ++ J.map fun j => 32 * (j / 32)).dedup else J)]

/-! ### Demand (R165) -/

/-- The shape of an input slot. -/
def State.slotDesc (s : State) (x : Node) (i : Nat) : TDesc :=
  ((x.slots[i]?).bind (s.tdesc x.core)).getD { rows := 1, cols := 1, fmt := .b32, kcols := true }

/-- The node cells that a cell needs, with the rows of a gather as far as they are known. -/
def State.deps (s : State) (x : Node) (cell : Nat) (gs : List Nat) : List (Nat × Nat) :=
  ((x.needs cell (s.slotDesc x 0) (s.slotDesc x 1) gs).flatMap fun (k, I, J) =>
    match x.slots[k]? with
    | some (.node n) => (I.flatMap fun i => J.map fun j => (n, cellOf i j))
    | _ => []).dedup

/-- A cell that is neither computed nor demanded is demanded, and what it needs of its inputs after it. -/
def State.demandCell : Nat → State → Nat → Nat → Nat → Force → State
  | 0, s, _, _, _, _ => s
  | fuel + 1, s, core, n, cell, f =>
    match s.node? core n with
    | none => s
    | some x =>
      if x.isForced cell || x.demanded.any (·.1 == cell) then s
      else
        let s := s.updNode core n fun x => { x with demanded := x.demanded ++ [(cell, f)] }
        (s.deps x cell []).foldl (fun s d => State.demandCell fuel s core d.1 d.2 f) s

/-- Demands cells of a node. -/
def State.demand (s : State) (core n : Nat) (cells : List Nat) (f : Force) : State :=
  cells.foldl (fun s c => s.demandCell 257 core n c f) s

/-- The cells of a node that are not computed. -/
def Node.unforced (x : Node) : List Nat := x.cells.filter fun c => !x.isForced c

/-! ### Writes that overlap pending inputs (R175) -/

/-- A byte range meets another. -/
def meets (a b : Int × Int) : Bool := decide (a.1 < b.2) && decide (b.1 < a.2)

/-- Slot `k` takes its K axis along its columns (R156); that of a transpose is fixed at append (R174). -/
def Node.readsCols (x : Node) (k : Nat) : Bool := if x.op == .trn then !x.kcols else !(x.op == .mul && k == 1)

/-- The source boxes of a node. -/
def Node.boxes (x : Node) : List (Int × Int) :=
  x.slots.zipIdx.flatMap fun v => match v.1 with | .view w => w.box (x.readsCols v.2) | _ => []

/-- The smoothing range of a TQNT node, in plain scratchpad bytes. -/
def Node.smoothBox (x : Node) : List (Int × Int) :=
  if x.op == .qnt && x.smen then
    [((x.smooth : Int), (x.smooth : Int) + 4 * (if x.axis then x.rows else x.cols : Nat))]
  else []

/-- The live nodes of a troop with cells not computed, one of whose boxes meets one of the ranges. -/
def State.nodesOver (s : State) (tid : Nat) (box : Node → List (Int × Int)) (ranges : List (Int × Int)) : List Node :=
  s.nodes.filter fun x => x.tid == tid && x.unforced != [] && (box x).any fun b => ranges.any (meets b)

/-- The check of a write, in one of the two spaces: every node it overlaps is forced whole, once for the waiting operation. The
answer says whether the write may go on. -/
def State.guard (s : State) (tid : Nat) (box : Node → List (Int × Int)) (f : Force) (ranges : List (Int × Int)) :
    State × Bool :=
  let hit := s.nodesOver tid box ranges
  let new := hit.filter fun x => !x.forcers.contains f.wait
  let s := new.foldl (fun s x =>
    (s.demand x.core x.n x.unforced f).updNode x.core x.n fun x => { x with forcers := f.wait :: x.forcers }) s
  (s, new.isEmpty && hit.all fun x => x.demanded.isEmpty)

/-- The check of a write of global bytes. -/
def State.guardWrite (s : State) (tid : Nat) (f : Force) (ranges : List (Int × Int)) : State × Bool :=
  s.guard tid Node.boxes f ranges

/-- The check of a write of scratchpad bytes. -/
def State.guardScratch (s : State) (tid : Nat) (f : Force) (places : List Nat) : State × Bool :=
  s.guard tid Node.smoothBox f (places.map fun (p : Nat) => ((p : Int), (p : Int) + 1))

end Sys2Proof.Machine
end

