-- ==== Sys2Proof/Machine/Lease.lean ====
section
/-! DEFINITION. The matrix quarters of a core: their leases, requesters and operation queues (R142 to R148). The quarters do
what needs no further event, a grant, a start or the passing of a lease, as soon as it can happen. -/

namespace Sys2Proof.Machine

/-- The quarter that serves a slice (R3). -/
def quarterOf (slice : Nat) : Nat := slice / 3

def State.quarter (s : State) (core q : Nat) : Quarter :=
  (s.quarters.find? fun x => x.core == core && x.q == q).getD { core := core, q := q }

def State.putQuarter (s : State) (x : Quarter) : State :=
  { s with quarters := x :: s.quarters.filter fun y => !(y.core == x.core && y.q == x.q) }

/-- The lease length of a troop (R145). -/
def State.leaseOf (s : State) (tid : Nat) : Nat := match s.troop? tid with | some t => t.lease | none => 64

/-- The operations of the holder that have not started, in arrival order. -/
def Quarter.mine (x : Quarter) : List MatOp :=
  match x.holder with
  | some tid => x.ops.filter (·.tid == tid)
  | none => []

/-- A troop has an operation queued for the quarter, one of the sequencer's cells among them (R145, R146). -/
def Quarter.wants (x : Quarter) (tid : Nat) : Bool := x.ops.any (·.tid == tid) || x.seq.any (·.tid == tid)

/-- A requester takes its place in the queue: of those that arrive in one clock the lower slice number goes first (R146
step 3). -/
def QReq.place (r : QReq) : List QReq → List QReq
  | [] => [r]
  | y :: ys => if (y :: ys).all fun z => z.clock == r.clock && decide (r.slice < z.slice) then r :: y :: ys else y :: r.place ys

/-- A troop becomes a requester (R146 steps 1 to 3): a free quarter is granted, else the troop joins the queue once. -/
def Quarter.request (x : Quarter) (r : QReq) : Quarter :=
  match x.holder with
  | none => { x with holder := some r.tid, count := 0, rel := none }
  | some h => if h == r.tid || x.queue.any (·.tid == r.tid) then x else { x with queue := r.place x.queue }

/-- The lease goes to the oldest waiter, or the quarter becomes free; a holder with operations queued joins the tail
(R146 step 5). -/
def Quarter.pass (x : Quarter) : Quarter :=
  let tail := match x.holder with
    | some h => if x.wants h then [({ tid := h } : QReq)] else []
    | none => []
  match x.queue with
  | r :: rest => { x with holder := some r.tid, count := 0, queue := rest ++ tail, rel := none }
  | [] => { x with holder := tail.head?.map (·.tid), count := 0, rel := none }

/-- The tenure that MLEASE.rel gave up is over: the operations that were queued then have started (R148). -/
def Quarter.released (x : Quarter) : Bool :=
  match x.rel with
  | some n => x.mine.all (fun o => decide (n ≤ o.id)) && x.seq.all fun c => x.holder != some c.tid || decide (n ≤ c.id)
  | none => false

/-- Steps 5 to 7 of R146 when no operation runs, and the end of a tenure that was given up, which waits for no end (R148), but for
the start of a joint operation that keeps the quarter.
DESIGN CHOICE (log entry 139): an idle holder, one by MLEASE.acq that has queued nothing included, loses the lease to a waiter at once;
step 7 lets it keep the lease until a requester arrives, and no step says when one that already waits is served. -/
def Quarter.turnOver (x : Quarter) (lease : Nat) : Quarter :=
  match x.holder with
  | none => x
  | some h =>
    if x.keep.isSome then x
    else if x.released then x.pass
    else if x.run.isSome then x
    else if x.queue.isEmpty then (if lease ≤ x.count then { x with count := 0 } else x)
    else if decide (lease ≤ x.count) || !x.wants h then x.pass
    else x

/-- The operation of the holder that is next in arrival order, where that is no cell of the sequencer (R146 step 4). -/
def Quarter.head (x : Quarter) : Option MatOp :=
  x.mine.head?.filter fun op => x.seq.all fun c => x.holder != some c.tid || decide (op.arr ≤ c.id)

/-- The holder's next operation starts (R146 step 4). -/
def Quarter.start (x : Quarter) : Quarter :=
  match x.head with
  | some op => { x with run := some op, ops := x.ops.erase op, count := x.count + op.units, keep := none }
  | none => x

/-- The joint operation that is the holder's next. -/
def Quarter.headJoint (x : Quarter) : Option Nat := x.head.bind (·.joint)

/-- An operation that is not joint starts when it is the holder's next. -/
def Quarter.startSingle (x : Quarter) : Quarter := if x.run.isSome || x.headJoint.isSome then x else x.start

/-- The entries that a slice holds in a quarter's queue (R142); the operation that runs is in it no more. -/
def Quarter.queued (x : Quarter) (slice : Nat) : Nat := (x.ops.filter (·.slice == slice)).length

/-- The core of a string. -/
def State.strCore (s : State) (sid : Nat) : Nat := match s.str? sid with | some z => z.core | none => 0

/-- The quarter is granted to the joint operation that is the holder's next, once nothing runs there: it keeps it until it starts, with the
count that it was granted with (R146). -/
def Quarter.grantJoint (x : Quarter) : Quarter := if x.run.isSome then x else { x with keep := x.headJoint }

/-- A member of a joint operation enters its quarter's queue when its slice has room there (R142): first at MQ0, and at each
further quarter once the quarter before it is granted (R146). -/
def State.advanceJoint (s : State) (core q : Nat) : State :=
  let y := s.quarter core q
  let granted := fun (op : MatOp) => q == 0 || ((s.quarter core (q - 1)).keep == op.joint && op.joint.isSome)
  match s.jointWait.find? (fun op => s.strCore op.sid == core && quarterOf op.slice == q && granted op &&
      decide (y.queued op.slice < 2)) with
  | some op =>
    { s with jointWait := s.jointWait.erase op }.putQuarter
      ({ y with ops := y.ops ++ [{ op with arr := s.nextId }] }.request { tid := op.tid, slice := op.slice, clock := s.clock })
  | none => s

/-- The joint operation starts when it heads all four quarters (R143, R146). -/
def State.startJoint (s : State) (core : Nat) : State :=
  match (s.quarter core 0).headJoint with
  | some j =>
    if (List.range 4).all fun q => (s.quarter core q).headJoint == some j && (s.quarter core q).run.isNone then
      (List.range 4).foldl (fun s q => s.putQuarter (s.quarter core q).start) s
    else s
  | none => s

/-- A quarter passes its lease and starts an operation, as often as a waiter with nothing queued is passed by. -/
def State.settleOne (s : State) (core q : Nat) : Nat → State
  | 0 => s
  | n + 1 =>
    let x := s.quarter core q
    let y := (match x.holder with | some h => x.turnOver (s.leaseOf h) | none => x).startSingle.grantJoint
    State.settleOne (s.putQuarter y) core q n

/-- A request of the sequencer stands while its cell is demanded, or its item not done, and no page of it waits at the rail; on a halted
core only that of a rollback does (R151, R304, R419). -/
def State.asksStill (s : State) (core : Nat) (c : CellReq) : Bool :=
  (!s.haltedCore core || (match s.troop? c.tid with | some t => t.failing.isSome | none => false)) && (match c.who with
    | .cell core n cell => (match s.node? core n with | some x => x.demanded.any (·.1 == cell) | none => false)
    | .eng id item => (match s.eng? id with | some e => !e.done.contains item | none => false)
    | _ => false) && !s.cellRailed c.who

/-- One round of everything that a core's quarters do by themselves. -/
def State.quarterRound (s : State) (core : Nat) : State :=
  let s := (List.range 4).foldl (fun s q =>
    let x := s.quarter core q
    let s := s.putQuarter { x with seq := x.seq.filter (s.asksStill core) }
    s.settleOne core q (x.queue.length + 2)) s
  let s := (List.range 4).foldl (fun s q => s.advanceJoint core q) s
  s.startJoint core

/-- The quarters of a core after all that follows of itself: a joint operation takes one round for each quarter. -/
def State.settleQuarters (s : State) (core : Nat) : State :=
  (List.range (6 + s.jointWait.length)).foldl (fun s _ => s.quarterRound core) s

/-- An operation arrives at its quarter (R142, R146). -/
def State.queueMat (s : State) (core : Nat) (op : MatOp) : State :=
  let x := s.quarter core (quarterOf op.slice)
  (s.putQuarter ({ x with ops := x.ops ++ [{ op with arr := s.nextId }] }.request { tid := op.tid, slice := op.slice, clock := s.clock })).settleQuarters core

/-- The entries that a slice holds in its quarter's queue (R142). -/
def State.matQueued (s : State) (core slice : Nat) : Nat := (s.quarter core (quarterOf slice)).queued slice

/-- Every matrix operation that has not ended, but for MMAJs not yet joined. -/
def State.matOps (s : State) : List MatOp := s.quarters.flatMap (fun q => q.run.toList ++ q.ops) ++ s.jointWait

/-- The quarter on which a request of a troop's sequencer runs now: one that the troop holds, with nothing running, no operation
of the troop that arrived before the request, and its count below the lease (R146 step 4). -/
def State.cellQuarter (s : State) (t : Troop) (who : ReqWho) : Option Quarter :=
  ((List.range 4).map (s.quarter t.core)).find? fun x =>
    x.holder == some t.tid && x.run.isNone && decide (x.count < t.lease) &&
      match x.seq.find? fun c => c.tid == t.tid && c.who == who with
      | some c => x.mine.all fun o => decide (c.id < o.arr)
      | none => x.mine.isEmpty

/-- The sequencer asks for a quarter, once: one that the troop holds, else a free one, else any (R145). -/
def State.askQuarter (s : State) (t : Troop) (who : ReqWho) : State :=
  let qs := (List.range 4).map (s.quarter t.core)
  if qs.any fun x => x.seq.any fun c => c.tid == t.tid && c.who == who then s
  else
    let (id, s) := s.fresh
    let x : Quarter := ((qs.find? fun x => x.holder == some t.tid).or (qs.find? (·.holder.isNone))).getD (s.quarter t.core (id % 4))
    let x := { x with seq := x.seq ++ [CellReq.mk id t.tid who] }
    (s.putQuarter (x.request { tid := t.tid, slice := 12, clock := s.clock })).settleQuarters t.core

/-- The time of the request on a quarter counts as an operation that starts and ends (R145). -/
def State.spendQuarter (s : State) (t : Troop) (x : Quarter) (who : ReqWho) (units : Nat) : State :=
  (s.putQuarter { x with
    count := x.count + units
    seq := x.seq.filter fun c => !(c.tid == t.tid && c.who == who) }).settleQuarters t.core

/-- A troop that ends gives up its operations, its places and its leases. -/
def State.dropMat (s : State) (core tid : Nat) : State :=
  let s := { s with jointWait := s.jointWait.filter (·.tid != tid), pendJ := s.pendJ.filter (·.tid != tid) }
  let s := (List.range 4).foldl (fun s q =>
    let x := s.quarter core q
    let x := { x with
      ops := x.ops.filter (·.tid != tid), queue := x.queue.filter (·.tid != tid), seq := x.seq.filter (·.tid != tid)
      run := match x.run with | some o => if o.tid = tid then none else some o | none => none
      keep := if x.holder = some tid then none else x.keep }
    s.putQuarter (if x.holder == some tid then x.pass else x)) s
  s.settleQuarters core

/-- R152: operations of the failed depths run on, with their checks (R150, R419), but write nothing and record no late fault. -/
def MatOp.cancel (op : MatOp) : MatOp := { op with writes := [], regs := [], flags := 0, enabled := 0, dead := true }

def State.cancelMat (s : State) (tid j : Nat) : State :=
  let dead := fun (op : MatOp) => op.tid == tid && decide (j ≤ op.depth)
  { s with quarters := s.quarters.map fun x =>
             { x with ops := updAll dead MatOp.cancel x.ops
                      run := x.run.map fun o => if dead o then o.cancel else o }
           jointWait := updAll dead MatOp.cancel s.jointWait
           pendJ := s.pendJ.filter fun p => !(p.tid == tid && decide (j ≤ p.depth)) }

end Sys2Proof.Machine
end

