-- ==== Sys2Proof/Machine/Ops.lean ====
section
/-! DEFINITION. Taking an exception, and what it rests on: the causes and their routing (R386, R417), the end of a troop by an
error (R397), the rollback and the next alternate of a recovery block (R419, R420), precise and late delivery (R388 to R391)
and the return from a trap (R395). -/

namespace Sys2Proof.Machine

/-- The codes of R386. -/
def Cause.code : Cause → Nat
  | .illegalInstruction => 0x01 | .privileged => 0x02 | .trapInstr => 0x03 | .fpException => 0x04 | .intDivideZero => 0x05
  | .bounds => 0x10 | .noncanonical => 0x11 | .pageFault => 0x12 | .permission => 0x13 | .world => 0x14 | .misaligned => 0x15
  | .rangeStore => 0x16 | .commitOverflow => 0x20 | .siblingConflict => 0x21 | .recoveryEscape => 0x22
  | .recoveryExhausted => 0x23 | .saddlebagOverflow => 0x24 | .recoveryDepth => 0x25 | .stableOverflow => 0x30
  | .tileShape => 0x31 | .tileData => 0x32 | .doubleFault => 0x40 | .dataUnresolved => 0x41 | .uncorrectableMemory => 0x42
  | .taskQueue => 0x50 | .launchRejected => 0x51

/-- The causes that fail the alternate instead of running the handler (R417). -/
def Cause.routes : Cause → Bool
  | .trapInstr | .recoveryEscape | .recoveryDepth => false
  | _ => true

/-! ### Nodes of the stable that nothing names -/

def TileVal.names (v : TileVal) (n : Nat) : Bool := match v with | .node m => m == n | _ => false

/-- Something keeps the node: a tile register or a recorded one of its troop, an input slot of a live node, a demand (R169), or
a TST that still stores it; a walk has read its source's tree at its issue. -/
def State.nodeKept (s : State) (x : Node) : Bool :=
  s.engs.any (fun e => e.kind != .twalk && e.src.names x.n && (s.strsOf x.tid).any (·.sid == e.sid)) ||
    (s.strsOf x.tid).any (fun z => z.t.any (fun e => e.2.names x.n) || z.tiles.any (fun e => e.val.names x.n)) ||
    s.nodes.any (fun y => y.core == x.core && y.slots.any (·.names x.n)) || !x.demanded.isEmpty

/-- Frees the nodes that nothing names, and then those that only they named (R169). -/
def State.freeNodes (s : State) : State :=
  s.nodes.foldl (fun s _ => { s with nodes := s.nodes.filter s.nodeKept }) s

/-! ### Cancelling the work of failed depths -/

/-- An access or operation of the troop issued at depth j or deeper. -/
def State.failedSid (s : State) (tid j sid d : Nat) : Bool := decide (j ≤ d) && (s.strsOf tid).any (·.sid == sid)

/-- Of the recorded words tagged j or deeper, the one of each word with the smallest tag (R423). -/
def oldestWords (j : Nat) (ws : List WordEnt) : List WordEnt :=
  ws.filter fun e => decide (j ≤ e.tag) && ws.all fun f => f.word != e.word || decide (f.tag < j) || decide (e.tag ≤ f.tag)

/-- The addresses of a troop's entries of depth j or deeper in its recovery spill area. -/
def State.spillsFrom (s : State) (t : Troop) (j : Nat) : List Nat :=
  ((s.strsOf t.tid).flatMap fun z => z.bag.filterMap fun e => if j ≤ e.tag then e.spill.map (·.1) else none) ++
    t.words.filterMap fun e => if j ≤ e.tag then e.spill.map (·.1) else none

/-- The entries of the failed depths whose write to the recovery spill area has still to be made are not written, and a refusal
of such a write goes (R367, R419); what they hold is at hand. -/
def State.cancelSpills (s : State) (tid j : Nat) : State :=
  match s.troop? tid with
  | none => s
  | some t =>
    let dead := s.spillsFrom t j
    let cut := (t.rcPending.map (·.1)).filter dead.contains
    let held := fun (x : Option (Nat × List Nat)) => x.filter fun p => !cut.contains p.1
    let asks : Bool := match t.rcPending with | p :: _ => !cut.contains p.1 | [] => false
    { s with
      strs := updAll (·.tid == tid) (fun (z : Str) => { z with bag := z.bag.map fun (e : BagEnt) => { e with spill := held e.spill } }) s.strs
      refusals := if asks then s.refusals else s.refusals.filter (·.1 != ReqWho.bag tid) }.updTroop tid fun t =>
      { t with words := t.words.map fun (e : WordEnt) => { e with spill := held e.spill }
               rcPending := t.rcPending.filter fun p => !cut.contains p.1 }

/-- A refusal that answers work of the failed depths (R367). -/
def State.staleRefusal (s : State) (tid j : Nat) (w : ReqWho) : Bool :=
  match w with
  | .scan i | .back i | .spill i _ => i == tid
  | .eng id _ => s.engs.any fun e => e.id == id && s.failedSid tid j e.sid e.depth
  | .op id => s.ops.any fun o => o.id == id && o.tid == tid && decide (j ≤ o.depth)
  | _ => false

/-- R419 steps 1 and 2: accesses, rail entries, engine operations, parked operations, matrix results, node demands, pending spills
and refusals of the failed depths are cancelled. -/
def State.cancelWork (s : State) (tid j : Nat) : State :=
  let dead := s.failedSid tid j
  let stale := fun (r : ReqWho × Cause) => s.staleRefusal tid j r.1
  let s := (s.cancelMat tid j).cancelSpills tid j
  { s with
    refusals := s.refusals.filter fun r => !stale r
    accs := s.accs.filter fun a => !dead a.sid a.depth
    ops := s.ops.filter fun o => !(o.tid == tid && decide (j ≤ o.depth))
    engs := s.engs.filter fun e => !dead e.sid e.depth
    rail := s.rail.filter fun e => !(e.tid == tid && decide (j ≤ e.depth))
    heldReqs := s.heldReqs.filter fun h => !(h.ent.tid == tid && decide (j ≤ h.ent.depth))
    nodes := (s.nodes.filter fun x => !(x.tid == tid && decide (j ≤ x.epoch) && decide (0 < x.epoch))).map fun x =>
      { x with demanded := x.demanded.filter fun (_, f) => !dead f.sid f.depth }
    pads := s.pads.map fun p => match p.inval with
      | some v => match v.op with
        | some o => if s.ops.any fun x => x.id == o && x.tid == tid && decide (j ≤ x.depth) then
            { p with inval := some { v with op := none } } else p
        | none => p
      | none => p }

/-! ### Rollback -/

/-- Of the entries tagged j or deeper, the one of each key with the smallest tag (R423). -/
def oldest (j : Nat) (bag : List BagEnt) : List BagEnt :=
  bag.filter fun e => decide (j ≤ e.tag) && bag.all fun f => f.key != e.key || decide (f.tag < j) || decide (e.tag ≤ f.tag)

/-- A recorded register takes its old value (R421, R423). -/
def Str.unbag (z : Str) (e : BagEnt) : Str :=
  let x := e.vals.headD 0
  match e.key with
  | .v n => z.putV n ((List.range 32).map fun l => (l, BitVec.ofNat 32 (e.vals.getD l 0)))
  | .s n => { z with s := Cells.set 0 z.s n (BitVec.ofNat 64 x) }
  | .p n => { z with p := Cells.set 0 z.p n (BitVec.ofNat 32 x) }
  | .b n => { z with b := Cells.set 0 z.b n (BitVec.ofNat 256 x) }
  | .fpctl => { z with fpctl := BitVec.ofNat 32 x }
  | .strctl => { z with strctl := BitVec.ofNat 32 x }
  | .trapBase => { z with trapBase := BitVec.ofNat 64 x }

/-- Recorded tile registers take their old values (R176). -/
def Str.untile (z : Str) (j : Nat) : Str :=
  let olds := z.tiles.filter fun e => decide (j ≤ e.tag) &&
    z.tiles.all fun f => f.n != e.n || decide (f.tag < j) || decide (e.tag ≤ f.tag)
  { z with t := olds.foldl (fun t e => Cells.set .empty t e.n e.val) z.t, tiles := z.tiles.filter (·.tag < j) }

/-- R419 steps 3, 5 and 6 for one string: registers restored, lanes cleared, late faults of the failed depths dropped. -/
def Str.rollback (z : Str) (j : Nat) : Str :=
  let z := (oldest j z.bag).foldl Str.unbag z
  let z := z.untile j
  { z with
    bag := z.bag.filter (·.tag < j)
    lanes := z.lanes.map fun l => { l with trap := false, block := none, park := .none, settle := none, wait := 0, yielded := false }
    pref := none, retPc := 0, fetchFaults := []
    lateq := z.lateq.filter fun f => f.depth < j }

/-- A recorded scratchpad word takes its old value. -/
def WordEnt.put (scratch : Cells Byte) (e : WordEnt) : Cells Byte :=
  Cells.setMany 0 scratch ((List.range 4).map fun i => (4 * e.word + i, BitVec.ofNat 8 (e.val >>> (8 * i))))

/-- The scratchpad words of the failed depths take their old values (R421, R423). -/
def Troop.unword (t : Troop) (j : Nat) : Troop :=
  { t with
    scratch := (oldestWords j t.words).foldl WordEnt.put t.scratch
    words := t.words.filter (·.tag < j) }

/-- A barrier is neither a troop's own nor a string's of it. -/
def State.notTroopBar (s : State) (tid : Nat) (b : Barrier) : Bool :=
  match b.key with
  | .str sid => match s.str? sid with
    | some z => z.tid != tid
    | none => false
  | .trp i _ => i != tid
  | _ => true

/-- A tie-breaking run ends and its lines go (R436, R437). -/
def State.dropTie (s : State) (t : Troop) : State :=
  match t.outr.bind (·.tie) with
  | some x =>
    let s := s.cancelWork x 0
    let lines := match s.troop? x with
      | some u => s.lines.filter fun l => !s.ofTroop u l
      | none => s.lines
    let s := match s.troop? x with | some u => s.dropMat u.core x | none => s
    { s with
      lines := lines, strs := s.strs.filter (·.tid != x), nodes := s.nodes.filter (·.tid != x)
      bars := s.bars.filter (s.notTroopBar x)
      troops := (s.troops.filter (·.tid != x)).map fun u => match u.outr with
        | some o => if o.tie == some x then { u with outr := some { o with tie := none } } else u
        | none => u }
  | none => s

/-- The virtual bytes that a rollback to depth j − 1 discards from the buffers (R222). -/
def State.rollbackRanges (s : State) (t : Troop) (j : Nat) : List (Int × Int) :=
  (s.lines.filter fun l => s.ofTroop t l && decide (j ≤ l.epoch)).flatMap fun l =>
    (lineBytes l.mask l.data).map fun x => (((l.va + x.1 : Nat) : Int), ((l.va + x.1 + 1 : Nat) : Int))

/-- A rollback to depth j − 1 has still to read values back from the recovery spill area (R207, R422). -/
def State.unreadBag (s : State) (tid j : Nat) : Bool :=
  (s.strsOf tid).any (fun z => (oldest j z.bag).any (·.spilled)) ||
    match s.troop? tid with
    | some t => (oldestWords j t.words).any (·.spilled)
    | none => false

/-- R419 up to step 3 for one troop, and the forcing of R175 that step 4 comes after, named `wait`: whether it has ended, and the values
that step 5 restores have been read. DESIGN CHOICE (log entry 119): a fault in that forcing is recorded against the ENSURE, in the troop's
first string. -/
def State.rollbackForce (s : State) (tid j wait : Nat) : State × Bool :=
  match s.troop? tid with
  | none => (s, true)
  | some t =>
    let s := (s.dropTie t).cancelWork tid j
    let s := { s with strs := updAll (·.tid == tid) (·.untile j) s.strs }.freeNodes
    let s := s.updTroop tid fun t => { t with arrivals := [], joining := none, overflow := false }
    let pc := match t.blocks[j - 1]? with | some b => b.alts.getD 0 0 - 20 | none => 0
    let f : Force := { sid := ((s.strsOf tid).map (·.sid)).headD 0, pc := pc, depth := j - 1, trap := false, wait := wait }
    match s.guardWrite tid f (s.rollbackRanges t j) with
    | (s, done) => (s, done && !s.unreadBag tid j)

/-- R419 for one troop: every depth from the deepest open one to j is rolled back. -/
def State.rollback (s : State) (tid j : Nat) : State :=
  match s.troop? tid with
  | none => s
  | some t =>
    let s := s.dropTie t
    let s := s.cancelWork tid j
    let s := { s with strs := updAll (·.tid == tid) (·.rollback j) s.strs }
    let s := s.freeNodes
    let keys := s.expKeys tid j
    let s := (s.rollbackBuffers t j).withdraw tid j
    let s := keys.foldl (fun s k => s.checkBar k) s
    s.updTroop tid fun t =>
      { t.unword j with
        arrivals := [], joining := none, overflow := false, failing := none, spillSkip := []
        outr := t.outr.map fun o => { o with waiting := none, decided := none }
        mmaj := match t.blocks[j - 1]? with | some b => b.mmaj | none => t.mmaj }

/-- The troops that a failure reaches: the members of its tandem, or the troop alone (R430). -/
def State.members (s : State) (t : Troop) : List Troop :=
  match t.tandem with
  | some id => s.troops.filter fun u => u.tandem == some id && !u.ended
  | none => [t]

/-- FKIND and FCAUSE are written at each failure (R425); the exhaustion of an inner block keeps FCAUSE (R420). -/
def State.putFail (s : State) (tid kind cause : Nat) : State :=
  { s with strs := updAll (·.tid == tid) (fun z => { z with fkind := kind, fcause := if kind = 7 then z.fcause else cause }) s.strs }

/-- Every lane that has not exited continues at a PC. -/
def State.moveTroop (s : State) (tid : Nat) (pc : Addr) : State :=
  { s with strs := updAll (·.tid == tid) (fun z =>
      { z with lanes := z.lanes.map fun l => if l.exited then l else { l with pc := pc } }) s.strs }

/-! ### The end of a troop by an error -/

/-- One troop stops: its work is cancelled, its buffers, nodes, leases and barriers go, and it counts from now on as arrived
at its shared barriers (R397, R328). The records its strings hold are counted done because no string holds them (R343). -/
def State.stopTroop (s : State) (tid : Nat) (cause : Option Cause) : State :=
  match s.troop? tid with
  | none => s
  | some t =>
    if t.ended then s
    else
      let s := s.dropTie t
      let s := s.cancelWork tid 0
      let s := ((s.dropMat t.core tid).keepArrivals t).partHeld t
      -- of a shared shadow line only the bytes that the troop owns go
      let lines := s.lines.filterMap fun l =>
        match l.space with
        | .clu _ =>
          if l.epoch = 0 && !l.held then
            let m := l.drop ((lineBytes l.mask l.data).filterMap fun (i, _) =>
              if l.comm.any fun (j, c) => j == i && c == .trp tid then some i else none)
            if m.mask = 0 then none else some { m with written := l.written, removed := l.removed }
          else if l.owner == .trp tid then none else some l
        | _ => if s.ofTroop t l then none else some l
      let s := { s with
        lines := lines
        nodes := (s.nodes.filter (·.tid != tid))
        bars := s.bars.filter (s.notTroopBar tid)
        strs := s.strs.filter (·.tid != tid)
        tandems := (s.tandems.map fun (d : Tandem) => { d with tids := d.tids.filter (· != tid) }) }
      let s := s.updTroop tid fun t =>
        { t with st := .ended cause, blocks := [], arrivals := [], words := [], scratch := [], tandem := none, joining := none
                 overflow := false, failing := none, fails := [], rcPending := [] }
      let tie : Bool := match t.outr with | some o => o.role == OutrRole.tieBreak | none => false
      let s := if tie then s else s.updLaunch t.launch fun l =>
        { l with live := l.live - 1, cause := if l.cause.isSome then l.cause else cause }
      (s.sharedKeys t).foldl (fun s k => s.checkBar k) s

/-- A troop ends by DOUBLE_FAULT, RECOVERY_EXHAUSTED or DATA_UNRESOLVED; a redundant pair ends together (R397, R437). -/
def State.endTroop (s : State) (tid : Nat) (cause : Cause) : State :=
  match s.troop? tid with
  | none => s
  | some t =>
    let s := s.stopTroop tid (some cause)
    match t.outr with
    | some o => if o.role == .tieBreak then s else s.stopTroop o.mate (some cause)
    | none => s

/-! ### Delivery -/

/-- The trap registers are filled and the lanes enter the handler at TRAPBASE; with no handler the troop ends (R391). -/
def State.deliver (s : State) (sid : Nat) (cause : Cause) (pc nodePc ret : Addr) (g : Mask) : State :=
  match s.str? sid with
  | none => s
  | some z =>
    if z.trapBase = 0 then
      s.endTroop z.tid (if cause = .recoveryExhausted then .recoveryExhausted else .doubleFault)
    else
      s.updStr sid fun z =>
        { z.mapLanes g (fun l => { l with trap := true, pc := addr56 z.trapBase, park := .none, settle := none }) with
          trapCause := BitVec.ofNat 32 cause.code, trapPc := dwordOf pc, trapNodePc := dwordOf nodePc, retPc := ret }

/-- The next alternate of block j, for one member (R420). -/
def State.reopen (s : State) (tid j : Nat) (b : RBlock) : State :=
  let b := { b with alt := b.alt + 1, inTest := false, draining := none, count := 0 }
  (s.updTroop tid fun t => { t with blocks := t.blocks.take (j - 1) ++ [b] }).moveTroop tid (b.alts.getD b.alt 0)

/-- Block j closes: its spill allocation point returns (R422). -/
def State.closeBlock (s : State) (tid j : Nat) : State :=
  s.updTroop tid fun t =>
    { t with blocks := t.blocks.take (j - 1)
             rcSpill := match t.blocks[j - 1]? with
               | some b => { t.rcSpill with used := b.spillMark.1, unit := b.spillMark.2.1, fill := b.spillMark.2.2 }
               | none => t.rcSpill }

/-- RECOVERY_EXHAUSTED goes to every lane that has not exited, in every string that has not retired (R420). -/
def State.exhaust (s : State) (tid : Nat) (start : Addr) : State :=
  ((s.strsOf tid).filter fun z => !z.retired && z.lanes.any fun l => !l.exited).foldl (fun s z =>
    s.deliver z.sid .recoveryExhausted start 0 start (z.lanesWhere fun l => !l.exited)) s

/-- The least element by a key. -/
def leastBy {α : Type} (key : α → Nat) : List α → Option α
  | [] => none
  | x :: xs => match leastBy key xs with
    | some y => if key y < key x then some y else some x
    | none => some x

/-- What a member records of a failure of its tandem's depth j: its own failure in the same clock where that has the lower FKIND,
else FKIND 5 (R418, R430). -/
def Troop.ownFailure (t : Troop) (j : Nat) : Nat × Nat :=
  match leastBy (·.kind) (t.fails.filter fun f => f.depth == j && decide (f.kind < 5)) with
  | some f => (f.kind, f.cause)
  | none => (5, 0)

/-- Every member records the failure that troop `t` leads, and the failures that the clock has found are dealt with (R418, R425,
R430). -/
def State.recordFail (s : State) (t : Troop) (f : Failure) (ms : List Troop) : State :=
  ms.foldl (fun s m =>
    let r := if m.tid = t.tid || f.each then (f.kind, f.cause) else m.ownFailure f.depth
    (s.putFail m.tid r.1 r.2).updTroop m.tid fun t => { t with fails := [] }) s

/-- Block j goes on with its next alternate, or it closes: RECOVERY_EXHAUSTED at depth 1, at a deeper one nothing yet (R420). -/
def State.afterRollback (s : State) (ms : List Troop) (j : Nat) (more : Bool) : State :=
  if more then ms.foldl (fun s m => match m.blocks[j - 1]? with | some b => s.reopen m.tid j b | none => s) s
  else
    let s := ms.foldl (fun s m => s.closeBlock m.tid j) s
    if j = 1 then
      ms.foldl (fun s m => match m.blocks[0]? with
        | some b => s.exhaust m.tid (b.alts.getD 0 0 - 20)
        | none => s) s
    else s

/-- The alternate of depth j fails in every member: rollback, then the next alternate, or the end of the block and the failure
of the enclosing one (R417, R419, R420). While the forcing of R175 goes on, or what the rollback restores is read back, the troops
stand `failing`; `again` goes on after it. Meanwhile a failure of the depth or of a deeper one is discarded, and one of an outer
depth extends the rollback (R418). -/
def State.failBlock : Nat → State → Troop → Failure → Bool → State
  | 0, s, _, _, _ => s
  | fuel + 1, s, t, f, again =>
    if !again && (match t.failing with | some g => decide (g.depth ≤ f.depth) | none => false) then s
    else
      let ms := s.members t
      let s := if again then s else s.recordFail t f ms
      let wait := match t.failing with | some g => g.wait | none => s.nextId
      let (s, ready) := ms.foldl (fun (s, ready) m =>
        let (s, r) := s.rollbackForce m.tid f.depth wait
        (s, ready && r)) (s, true)
      if !ready then
        ms.foldl (fun s m => s.updTroop m.tid fun u =>
          { u with failing := some { toFailure := f, lead := m.tid == t.tid, wait := wait } })
          { s with nextId := max s.nextId (wait + 1) }
      else
        let s := ms.foldl (fun s m => s.rollback m.tid f.depth) s
        match t.blocks[f.depth - 1]? with
        | none => s
        | some b =>
          let more := !f.final && decide (b.alt + 1 < b.alts.length)
          let s := s.afterRollback ms f.depth more
          if more || f.depth = 1 then s
          else match s.troop? t.tid with
            | some t => State.failBlock fuel s t { depth := f.depth - 1, kind := 7, cause := f.cause, each := true } false
            | none => s

/-- A failure is found. It takes effect when the clock ends, so that among those of one depth in one cycle the one with the
lowest FKIND is recorded; one found once its depth is rolled back is discarded (R418). -/
def State.noteFail (s : State) (tid : Nat) (f : Failure) : State :=
  s.updTroop tid fun t =>
    if t.fails.contains f || (match t.failing with | some g => decide (g.depth ≤ f.depth) | none => false) then t
    else { t with fails := t.fails ++ [f] }

/-- The alternate of depth j fails with FKIND and FCAUSE. -/
def State.fail (s : State) (tid j kind cause : Nat) : State := s.noteFail tid { depth := j, kind := kind, cause := cause }

/-- The troop's alternate has failed, or is being rolled back. -/
def Troop.unwinding (t : Troop) : Bool := t.failing.isSome || !t.fails.isEmpty

/-- The failures of a troop or a tandem in one clock: the outermost one unwinds the deeper ones, and of one depth the lowest FKIND is
taken (R418). -/
def State.takeFail (s : State) (t : Troop) : State :=
  match leastBy (fun x => 8 * x.2.depth + x.2.kind) ((s.members t).flatMap fun m => m.fails.map fun f => (m, f)) with
  | some (m, f) => State.failBlock 5 s m f false
  | none => s

/-- The failures that a clock has found take effect as it ends (R418). -/
def State.takeFails (s : State) : State :=
  (s.troops.filter fun t => !t.fails.isEmpty).foldl (fun s t => match s.troop? t.tid with | some t => s.takeFail t | none => s) s

/-- A rollback that waited is completed, in every member of a tandem from the troop at fault (R419). -/
def State.resumeFail (s : State) (t : Troop) : State :=
  match (s.members t).find? fun m => match m.failing with | some f => f.lead | none => false with
  | some m => match m.failing with
    | some f => State.failBlock 5 s m f.toFailure true
    | none => s
  | none => s

/-- A saddlebag that found no room fails the whole block at the current depth (R422). -/
def State.settleOverflow (s : State) (tid : Nat) : State :=
  match s.troop? tid with
  | some t =>
    if t.overflow && decide (0 < t.depth) then
      s.noteFail tid { depth := t.depth, kind := 4, cause := Cause.saddlebagOverflow.code, final := true }
    else s
  | none => s

/-- A second error (R397). -/
def State.secondError (s : State) (z : Str) : State :=
  match s.troopOf z with
  | none => s
  | some t => if t.depth = 0 then s.endTroop t.tid .doubleFault else s.fail t.tid t.depth 3 Cause.doubleFault.code

/-- A fault delivered while a block is open, routed to recovery or to the handler (R391, R417): `d` is the depth at which its
instruction was issued. -/
def State.route (s : State) (z : Str) (cause : Cause) (d : Nat) (pc nodePc ret : Addr) (g : Mask) : State :=
  let k := s.depthOf z
  if decide (0 < k) && decide (0 < d) && cause.routes then s.fail z.tid (min d k) 3 cause.code
  else s.deliver z.sid cause pc nodePc ret g

/-- A precise trap of the bundle being issued: a second error in trap mode, deferred while another lane of the string is in
trap mode, else delivered to every lane of the bundle (R388, R391, R397). -/
def State.raise (s : State) (c : Cur) (cause : Cause) : State :=
  match s.str? c.sid with
  | none => s
  | some z =>
    if c.trap then s.secondError z
    else if z.lanes.any (·.trap) then { s with cur := some { c with verdict := .deferred } }
    else s.route z cause (s.depthOf z) c.pc 0 c.next c.bundle

/-- A string whose lanes have all exited with late faults queued: a second error, for as long as it stands so (R390, R397). -/
def Str.lost (z : Str) : Bool := z.lanes.all (·.exited) && !z.lateq.isEmpty

/-- LateFault (R389): the fault of an instruction issued at depth `d` joins the string's queue; one issued in trap mode is a second
error, and so is one of a string whose lanes have all exited, which stays queued when it is of an outer depth (R390, R397). -/
def State.lateFault (s : State) (sid : Nat) (cause : Cause) (pc nodePc : Addr) (d : Nat) (trap : Bool) : State :=
  match s.str? sid with
  | none => s
  | some z =>
    if trap then s.secondError z
    else
      let s := s.updStr sid fun z => { z with lateq := z.lateq ++ [{ cause := cause, pc := pc, nodePc := nodePc, depth := d }] }
      if z.lanes.all (·.exited) then s.secondError z else s

/-- Deferred lanes are released when no lane of the string is in trap mode (R388, R394). -/
def Str.endTrapMode (z : Str) : Str :=
  if z.lanes.any (·.trap) then z else z.unpark (· == .deferred)

/-- The return from a trap (R395). -/
def State.trapReturn (s : State) (sid : Nat) (g : Mask) : State :=
  s.updStr sid fun z => (z.mapLanes g fun l => { l with trap := false, pc := z.retPc }).endTrapMode

/-! ### Privilege -/

/-- The bundle runs at supervisor privilege: trap mode, or a privileged queue (R392, R399). -/
def State.isSuper (t : Troop) (trap : Bool) : Bool := trap || t.super

end Sys2Proof.Machine
end

