-- ==== Sys2Proof/WellFormed.lean ====
section
/-! DEFINITION. The well-formed instructions: those whose words R58 does not make illegal, but for the vector budget of R29,
which depends on the string that issues. -/

namespace Sys2Proof

/-- R46: with COND = 0, HINT, PINV and PSEL are zero. -/
def branchWf (cond pinv : Bool) (psel : BitVec 3) (hint : Hint) : Bool := cond || (!pinv && psel == 0 && hint == .none)

/-- R47: the bits of PATTERN at positions COUNT and above are zero. -/
def BlockOps.wf (o : BlockOps) : Bool := o.pattern.toNat < 2 ^ (o.cnt.toNat + 1)

/-- R58 on the instruction's words. An event of the machine has no words and is always well formed. -/
def Instr.wf : Instr → Bool
  | .bra o => branchWf o.cond o.pinv o.psel o.hint
  | .braLong o => branchWf o.cond o.pinv o.psel o.hint
  | .pblk o => o.wf
  | .movi _ => true
  | .trap o | .bkpt o | .scall o => o.d == 0
  | i => match i.ba with
    | some (op, o) => op.wf o
    | none => true

end Sys2Proof
end

