-- ==== Sys2Proof/Machine/Operands.lean ====
section
/-! DEFINITION. The issue of an instruction: the checks that come before its own effect (R43, R58, R59, R316), the source
operands, and the writes for the participants (R95, R96). -/

namespace Sys2Proof

/-- The instructions of form BA barred inside a predicate block (R316). -/
def Op.barred : Op → Bool
  | .jmpi | .call | .ret | .yld | .exit | .tret | .waitv | .bar | .barv | .bwait | .cwait | .spawn | .take | .done | .cancel
  | .tchk | .launch | .jwait | .ensure | .elseby | .elseerr | .accept | .reject | .tjoin | .tleave | .rstat => true
  | _ => false

/-- The instructions barred inside a predicate block (R316). -/
def Instr.barred : Instr → Bool
  | .bra _ | .braLong _ | .pblk _ | .trap _ | .bkpt _ | .scall _ => true
  | i => match i.ba with
    | some (op, _) => op.barred
    | none => false

namespace Machine

abbrev Out := Host.Outcome State Fault Refusal

/-- R58 and R316: the words are legal for the string, and the instruction is not barred in an open predicate block. -/
def legal (i : Instr) (c : Cur) (z : Str) : Bool :=
  i.wf && i.budgetOk z.budget && (!c.covered || !i.barred)

/-- The issue of an instruction: ILLEGAL_INSTRUCTION under R58 and R316, then under the instruction's own checks on the state
of its string and troop (R43), then its effect. A saddlebag that found no room fails its block at the end (R422). With no
instruction being issued nothing happens. -/
def State.issue (s : State) (i : Instr) (chk : Cur → Str → Troop → Bool) (body : Cur → Str → Troop → State) : Out :=
  match s.cur with
  | none => .next s
  | some c =>
    match s.str? c.sid with
    | none => .next s
    | some z =>
      match s.troop? z.tid with
      | none => .next s
      | some t =>
        if legal i c z && chk c z t then .next ((body c z t).settleOverflow t.tid)
        else .next (s.raise c .illegalInstruction)

/-- An instruction with no check of its own on the state. -/
def noCheck : Cur → Str → Troop → Bool := fun _ _ _ => true

/-- The instruction does not issue in this clock (R35). -/
def State.hold (s : State) : State :=
  { s with cur := match s.cur with | some c => some { c with verdict := .held } | none => none }

/-- The participants, in increasing lane number (R95). -/
def Cur.lanes (c : Cur) : List Nat := lanesOf c.parts

/-! ### Source operands -/

/-- A literal in place of an operand of type `t` (R50). -/
def litVal (t : Ty) (x : Dword) : Nat := x.toNat % 2 ^ (if t.wide then 64 else 32)

/-- A lane's source of type `t`: register `n`, or the literal when there is one and it stands for this operand (R50, R96). -/
def Str.src (z : Str) (o : Operands) (isLast : Bool) (t : Ty) (n : Byte) (l : Nat) : Nat :=
  if o.len.hasLit && isLast then litVal t o.lit else z.vval t n.toNat l

/-- A scalar source (R50, R96). -/
def Str.ssrc (z : Str) (o : Operands) (isLast : Bool) (n : Byte) : Dword :=
  if o.len.hasLit && isLast then o.lit else z.sreg n.toNat

/-! ### Destinations -/

/-- Writes a value for every participant (R95, R96). -/
def State.putLanes (s : State) (c : Cur) (z : Str) (t : Ty) (d : Byte) (f : Nat → Nat) : State :=
  s.writeVal c.sid (s.depthOf z) t d.toNat (c.lanes.map fun l => (l, f l))

/-- Writes a predicate for every participant. -/
def State.putPreds (s : State) (c : Cur) (z : Str) (d : Byte) (f : Nat → Bool) : State :=
  s.writeP c.sid (s.depthOf z) d.toNat (c.lanes.map fun l => (l, f l))

/-- Writes a scalar register once for the issue, when there is a participant (R109). -/
def State.putScalar (s : State) (c : Cur) (z : Str) (d : Byte) (x : Dword) : State :=
  if c.parts = 0 then s else s.writeS c.sid (s.depthOf z) d.toNat x

/-! ### Record addresses -/

/-- The fields of a buffer record (R182). -/
def recBase (b : Record) : Nat := bitsNat b 55 0
def recStride (b : Record) : Nat := bitsNat b 95 64
def recExtent (b : Record) : Nat := bitsNat b 127 96
def recSizeCode (b : Record) : Nat := bitsNat b 130 128
def recFormat (b : Record) : Nat := bitsNat b 135 131
def recMode (b : Record) : Nat := bitsNat b 139 136
def recParam (b : Record) : Nat := bitsNat b 143 140
def recLevel (b : Record) : Level := (Level.ofCode (bitsNat b 146 144)).getD .str
def recOob (b : Record) : Nat := bitsNat b 148 147
def recScaleBase (b : Record) : Nat := bitsNat b 247 192
def recScaleBlk (b : Record) : Nat := bitsNat b 255 248
/-- The element size in bytes. -/
def recSize (b : Record) : Nat := 2 ^ recSizeCode b

/-- What R184 says of one lane's address. -/
inductive AddrRes where
  | out
  | noncanonical
  | misaligned
  | at (va : Nat)
  deriving DecidableEq, Repr

/-- R184 for element index `x` and width `w`. -/
def recAddr (b : Record) (w : Nat) (x : Int) : AddrRes :=
  if x < 0 || (recExtent b : Int) ≤ x then .out
  else
    let a : Int := recBase b + x * recStride b
    if !spanOk a w then .noncanonical
    else if a.toNat % w != 0 then .misaligned
    else .at a.toNat

/-- The index of lane `l`: V(l, A) unsigned plus IMM32 signed (R184). -/
def recIndex (z : Str) (o : Operands) (l : Nat) : Int := ((z.vreg o.a.toNat l).toNat : Int) + o.imm.toInt

/-- The lanes' addresses, or the fault that R184 resolves for the bundle. -/
def recAddrs (z : Str) (o : Operands) (w : Nat) (lanes : List Nat) : Except Cause (List (Nat × AddrRes)) :=
  let b := z.breg o.b.toNat
  let rs := lanes.map fun l => (l, recAddr b w (recIndex z o l))
  if lanes.isEmpty then .ok []
  else if recSize b < w then .error .bounds
  else if recOob b = 0 && rs.any (fun r => r.2 == .out) then .error .bounds
  else if rs.any (fun r => r.2 == .noncanonical) then .error .noncanonical
  else if rs.any (fun r => r.2 == .misaligned) then .error .misaligned
  else .ok rs

/-! ### Scratchpad addresses -/

/-- The sum of the digits of `h` in base 2^`k` (R190). -/
def digitSum (k : Nat) : Nat → Nat → Nat
  | 0, _ => 0
  | n + 1, h => h % 2 ^ k + digitSum k n (h / 2 ^ k)

/-- The physical word of a logical word (R190); none when the selector names no swizzle. -/
def swizzle (mode param w : Nat) : Option Nat :=
  match mode with
  | 0 => if param = 0 then some w else none
  | 1 => if param ≤ 10 then some (w ^^^ ((w / 2 ^ (param + 6)) % 64)) else none
  | 2 =>
    if param ≤ 1 then
      let e := 64 / 2 ^ param
      let j := w % 2 ^ param
      let x := w / 2 ^ param
      let h := x / e
      let c := x % e
      some (2 ^ param * (e * h + (c + digitSum (6 - param) 8 h) % e) + j)
    else none
  | 3 => some (w + w / 2 ^ param)
  | _ => none

/-- What R191 says of one scratchpad access. -/
inductive ScrRes where
  | badSel
  | misaligned
  | bounds
  /-- the physical byte places, in logical order -/
  | at (places : List Nat)
  deriving DecidableEq, Repr

/-- The places of `w` bytes at logical offset `off`, a multiple of `al`, under a swizzle (R190, R191). -/
def scrPlaces (size mode param : Nat) (off : Int) (al w : Nat) : ScrRes :=
  if (swizzle mode param 0).isNone then .badSel
  else if off % al != 0 then .misaligned
  else if off < 0 then .bounds
  else
    let ps := (List.range w).map fun i =>
      let a := off.toNat + i
      4 * ((swizzle mode param (a / 4)).getD 0) + a % 4
    if ps.all (· < size) then .at ps else .bounds

/-- The places of `w` bytes at a swizzled address with an offset added (R189). -/
def scrAddr (size : Nat) (sel : Word) (imm : Int) (w : Nat) : ScrRes :=
  if bitsNat sel 29 28 != 0 then .badSel
  else scrPlaces size (bitsNat sel 31 30) (bitsNat sel 27 24) ((bitsNat sel 23 0 : Nat) + imm) w w

/-- The places of `w` bytes at a plain address (R189). -/
def scrPlain (size : Nat) (a w : Nat) : ScrRes := scrPlaces size 0 0 (a : Int) w w

/-- R191 resolved over a bundle, in the order of the checks. -/
def scrFault (rs : List ScrRes) : Option Cause :=
  if rs.any (· == .badSel) then some .bounds
  else if rs.any (· == .misaligned) then some .misaligned
  else if rs.any (· == .bounds) then some .bounds
  else none

/-- The bytes of the places of an access. -/
def ScrRes.places : ScrRes → List Nat
  | .at ps => ps
  | _ => []

def Troop.readScratch (t : Troop) (ps : List Nat) : Nat := natOfBytes (ps.map t.scratchByte)

end Machine

end Sys2Proof
end

