-- ==== Sys2Proof/Machine/Bar.lean ====
section
/-! DEFINITION. The barrier instructions (R323 to R331), and CWAIT (R247, R285). -/

namespace Sys2Proof.Machine

/-- Lanes of a mask are parked. -/
def State.park (s : State) (sid : Nat) (m : Mask) (p : Park) : State :=
  s.updStr sid fun z => z.mapLanes m fun l => { l with park := p }

/-! ### Barriers -/

/-- The kind of barrier exists for the string's troop (R323). -/
def State.hasBar (s : State) (o : Operands) (z : Str) (t : Troop) : Bool := (s.barKey z t o.level o.imm.toNat).isSome

/-- The barrier exists, and the string is a member of a troop barrier (R323). -/
def State.mayArrive (s : State) (o : Operands) (z : Str) (t : Troop) : Bool :=
  s.hasBar o z t && (o.level != .trp || s.isMember t o.imm.toNat z.idx)

/-- The lanes are parked on the current phase, and the arrival is made or joined (R324 to R326). -/
def State.arriveParked (s : State) (c : Cur) (z : Str) (k : BarKey) (dst : Option Nat) (val : Option Dword) : State :=
  (s.park z.sid c.bundle (.barrier k (s.bar k).done dst)).arrive z k c.bundle val

/-- BAR.sync and BAR.arrive (R325). -/
def execBar (o : Operands) (s : State) : Out :=
  s.issue (.bar o) (fun _ z t => s.mayArrive o z t) fun c z t =>
    match s.barKey z t o.level o.imm.toNat with
    | none => s
    | some k =>
      if c.parts = 0 then s
      else if o.fn = 1 then (s.putScalar c z o.d ((s.bar k).done.setWidth 64)).arrive z k c.bundle none
      else s.arriveParked c z k none none

/-- BARV (R326). -/
def execBarv (o : Operands) (s : State) : Out :=
  s.issue (.barv o) (fun _ z t => s.mayArrive o z t) fun c z t =>
    match s.barKey z t o.level o.imm.toNat with
    | none => s
    | some k => if c.parts = 0 then s else s.arriveParked c z k (some o.d.toNat) (some (z.sreg o.a.toNat))

/-- BWAIT (R327). -/
def execBwait (o : Operands) (s : State) : Out :=
  s.issue (.bwait o) (fun _ z t => s.hasBar o z t) fun c z t =>
    match s.barKey z t o.level o.imm.toNat with
    | none => s
    | some k =>
      let token : Word := (z.sreg o.a.toNat).setWidth 32
      if c.parts = 0 || tokenDone (s.bar k).done token then s else s.park z.sid c.bundle (.bwait k token)

/-- BEXP (R328). -/
def execBexp (o : Operands) (s : State) : Out :=
  s.issue (.bexp o) (fun _ z t => s.hasBar o z t) fun c z t =>
    match s.barKey z t o.level o.imm.toNat with
    | none => s
    | some k =>
      let b := s.bar k
      let x := (z.sreg o.a.toNat).toNat
      if c.parts = 0 then s
      else if 2 ^ 32 ≤ x || 2 ^ 32 ≤ b.exp + x then s.raise c .bounds
      else (s.putBar { b with exps := b.exps ++ [(t.tid, t.depth, x)] }).checkBar k

/-- The snapshot of a barrier (R329). -/
def State.barStat (s : State) (b : Barrier) : Dword :=
  BitVec.ofNat 64 (b.done.toNat * 2 ^ 32 + b.last.toNat * 2 ^ 16 + (if b.cr < b.exp then 2 ^ 15 else 0) +
    min 0x7FFF (s.arrivedCount b))

/-- BSTAT (R329). -/
def execBstat (o : Operands) (s : State) : Out :=
  s.issue (.bstat o) (fun _ z t => s.hasBar o z t) fun c z t =>
    match s.barKey z t o.level o.imm.toNat with
    | none => s
    | some k => s.putScalar c z o.d (s.barStat (s.bar k))

/-- A copy credits bytes with a status to the current phase of a troop barrier (R328). -/
def State.credit (s : State) (tid n bytes : Nat) (status : Half) : State :=
  let b := s.bar (.trp tid n)
  (s.putBar { b with cr := (b.cr + bytes) % 2 ^ 33, status := if b.status = 0 then status else b.status }).checkBar (.trp tid n)

/-! ### CWAIT -/

/-- The outstanding operations of a class. -/
def State.engCount (s : State) (sid cls : Nat) : Nat := (s.engs.filter fun e => e.sid == sid && e.kind.cls == cls).length

/-- CWAIT (R285). -/
def execCwait (o : Operands) (s : State) : Out :=
  s.issue (.cwait o) noCheck fun c z _ =>
    let cls := bitsNat o.imm 1 0
    let n := bitsNat o.imm 13 8
    if c.parts = 0 || decide (s.engCount z.sid cls ≤ n) then s else s.park z.sid c.bundle (.cwait cls n)

/-- Lanes parked in CWAIT leave when their condition holds. -/
def State.endCwait (s : State) (sid : Nat) : State :=
  s.updStr sid fun z => z.unpark fun p =>
    match p with
    | .cwait cls n => decide (s.engCount sid cls ≤ n)
    | _ => false

end Sys2Proof.Machine
end

