-- ==== Sys2Proof/Machine/Trans.lean ====
section
/-! DEFINITION. FEXP2, FLOG2, FSINP and FCOSP (R85, R87, R119). The exact cases are returned exactly. Every other result is
irrational; it is computed in fixed point with 400 fraction bits and its last bit set, so that rounding it to f32 or f16
rounds the exact value. -/

namespace Sys2Proof

/-- Fraction bits of the fixed-point values. -/
def transBits : Nat := 400
/-- ⌊π × 2^400⌋. -/
def piFix : Nat :=
  0x3243f6a8885a308d313198a2e03707344a4093822299f31d0082efa98ec4e6c89452821e638d01377be5466cf34e90c6cc0ac
/-- ⌊ln 2 × 2^400⌋. -/
def ln2Fix : Nat :=
  0xb17217f7d1cf79abc9e3b39803f2f6af40f343267298b62d8a0d175b8baafa2be7b876206debac98559552fb4afa1b10ed2e

/-- The exponential series: the sum of term × t^j / (k (k+1) …). -/
def expSeries (t : Nat) : Nat → Nat → Nat → Nat
  | 0, _, term => term
  | n + 1, k, term => term + expSeries t n (k + 1) (((term * t) >>> transBits) / k)

/-- 2^x (FEXP2). -/
def FNum.exp2 : FNum → FNum × Flags
  | .nan s => (.nan false, if s then flagNV else 0)
  | .inf n => (if n then .fin false 0 0 else .inf false, 0)
  | .fin n m e =>
    if 12 < e + bitLen m then (.fin false 3 (if n then -6000 else 6000), 0)
    else
      let x : Int := unitsOf n m e (-transBits)
      let k := x / (2 ^ transBits : Nat)
      let f := (x % (2 ^ transBits : Nat)).toNat
      if f = 0 then (.fin false 1 k, 0)
      else
        let t := (f * ln2Fix) >>> transBits
        (.fin false (2 * expSeries t 100 1 (2 ^ transBits) + 1) (k - transBits - 1), 0)

/-- The series of atanh: the sum of w^(2j+1) / (2j+1), with `p` the power of w and `w2` its square. -/
def atanhSeries (w2 : Nat) : Nat → Nat → Nat → Nat
  | 0, _, _ => 0
  | n + 1, k, p => p / k + atanhSeries w2 n (k + 2) ((p * w2) >>> transBits)

/-- log2 x (FLOG2). -/
def FNum.log2 : FNum → FNum × Flags
  | .nan s => (.nan false, if s then flagNV else 0)
  | .inf n => if n then (.nan false, flagNV) else (.inf false, 0)
  | .fin n m e =>
    if m = 0 then (.inf true, flagDZ)
    else if n then (.nan false, flagNV)
    else
      let one := 2 ^ (bitLen m - 1)
      let ex : Int := e + bitLen m - 1
      if m = one then (FNum.ofInt ex, 0)
      else
        let w := ((m - one) <<< transBits) / (m + one)
        let s := atanhSeries ((w * w) >>> transBits) 150 1 w
        let t : Int := ex * (2 ^ transBits : Nat) + ((2 * s) <<< transBits) / ln2Fix
        (ofUnits (2 * t + 1) (-(transBits : Int) - 1) false, 0)

/-- The sine series: alternating terms, each the last times t² / (k (k+1)). -/
def sinSeries (t2 : Nat) : Nat → Nat → Nat → Nat
  | 0, _, term => term
  | n + 1, k, term => term - sinSeries t2 n (k + 2) (((term * t2) >>> transBits) / (k * (k + 1)))

/-- sin(π r) for r units of 2^-400, 0 < r < 1/2, as a number with the sign given. -/
def sinPiUnits (neg : Bool) (r : Nat) : FNum :=
  let t := (r * piFix) >>> transBits
  .fin neg (2 * sinSeries ((t * t) >>> transBits) 80 2 t + 1) (-(transBits : Int) - 1)

/-- |x| mod 2 in units of 2^-400. -/
def mod2Units (m : Nat) (e : Int) : Nat :=
  if 1 ≤ e then 0 else (m <<< (e + transBits).toNat) % 2 ^ (transBits + 1)

/-- sin(πx) (FSINP). -/
def FNum.sinpi : FNum → FNum × Flags
  | .nan s => (.nan false, if s then flagNV else 0)
  | .inf _ => (.nan false, flagNV)
  | .fin n m e =>
    let one := 2 ^ transBits
    let r := mod2Units m e
    let neg := n != decide (one ≤ r)
    let r := if one ≤ r then r - one else r
    if r = 0 then (.fin n 0 0, 0)
    else if 2 * r = one then (.fin neg 1 0, 0)
    else (sinPiUnits neg (if one < 2 * r then one - r else r), 0)

/-- cos(πx) (FCOSP). -/
def FNum.cospi : FNum → FNum × Flags
  | .nan s => (.nan false, if s then flagNV else 0)
  | .inf _ => (.nan false, flagNV)
  | .fin _ m e =>
    let one := 2 ^ transBits
    let r := mod2Units m e
    let r := if one < r then 2 * one - r else r
    if r = 0 then (.fin false 1 0, 0)
    else if r = one then (.fin true 1 0, 0)
    else if 2 * r = one then (.fin false 0 0, 0)
    else if 2 * r < one then (sinPiUnits false (one / 2 - r), 0)
    else (sinPiUnits true (r - one / 2), 0)

end Sys2Proof
end

