-- ==== Sys2Proof/Machine/Flags.lean ====
section
/-! DEFINITION. Floating-point operands, results, flags and the trap of an enabled flag (R33, R71, R73, R83, R84, R114). -/

namespace Sys2Proof.Machine

/-- Element `i` of a raw operand (R74). -/
def elemBits (t : Ty) (raw i : Nat) : Nat := (raw >>> (t.elem.width * i)) % 2 ^ t.elem.width

/-- The sign bit cleared, then inverted (R71, R114). -/
def signMod (w x : Nat) (abs neg : Bool) : Nat :=
  let x := if abs then x % 2 ^ (w - 1) else x
  if neg then x ^^^ 2 ^ (w - 1) else x

/-- `Src` of R114 on a raw operand: element `i`, sign modifiers, decode with the input flush. -/
def fsrcRaw (t : Ty) (ftz : Bool) (raw i : Nat) (abs neg : Bool) : FNum :=
  t.decode ftz (signMod t.elem.width (elemBits t raw i) abs neg)

/-- The sources A, B and C of a floating-point instruction (R114). -/
def Str.fa (z : Str) (o : Operands) (t : Ty) (l i : Nat) : FNum :=
  fsrcRaw t z.ftz (z.vval t o.a.toNat l) i o.absa o.nega
def Str.fb (z : Str) (o : Operands) (t : Ty) (l i : Nat) : FNum := fsrcRaw t z.ftz (z.src o true t o.b l) i false o.negb
def Str.fb3 (z : Str) (o : Operands) (t : Ty) (l i : Nat) : FNum := fsrcRaw t z.ftz (z.vval t o.b.toNat l) i false o.negb
def Str.fc (z : Str) (o : Operands) (t : Ty) (l i : Nat) : FNum := fsrcRaw t z.ftz (z.src o true t o.c l) i false o.negc

/-- `Res` of R114: the elements of a result as one operand. -/
def packElems (t : Ty) (bs : List Nat) : Nat := bs.foldr (fun b x => b + x * 2 ^ t.elem.width) 0

def orAll (fs : List Flags) : Flags := fs.foldl (· ||| ·) 0

/-- The trap of this issue would be deferred (R388). -/
def Cur.defers (c : Cur) (z : Str) : Bool := !c.trap && z.lanes.any (·.trap)

/-- The end of a vector floating-point instruction (R83, R84): with an enabled flag it traps and writes nothing but FPFLAGS, and
not even that when the trap is deferred; else it ORs its flags and writes. -/
def State.fpEnd (s : State) (c : Cur) (z : Str) (f : Flags) (write : State → State) : State :=
  if f &&& z.enabled = 0 then write (s.orFlags c.sid f)
  else if c.defers z then s.raise c .fpException
  else (s.orFlags c.sid f).raise c .fpException

/-- A floating-point result for every participant and every element (R114, R116). -/
def State.fpLanes (s : State) (c : Cur) (z : Str) (t : Ty) (d : Byte) (f : Nat → Nat → Nat × Flags) : State :=
  let rs := c.lanes.map fun l => (l, t.elems.map (f l))
  s.fpEnd c z (orAll (rs.map fun r => orAll (r.2.map (·.2)))) fun s =>
    s.writeVal c.sid (s.depthOf z) t d.toNat (rs.map fun r => (r.1, packElems t (r.2.map (·.1))))

/-- The rounded result of an exact value with the flags that its operation raised (R8, R85). -/
def fpRound (t : Ty) (rm : Rm) (ftz : Bool) (x : FNum × Flags) : Nat × Flags :=
  let (bits, f) := t.encode rm ftz x.1
  (bits, x.2 ||| f)

/-- A function of one source, rounded (R119, R120). -/
def State.fp1 (s : State) (c : Cur) (z : Str) (o : Operands) (f : FNum → FNum × Flags) : State :=
  s.fpLanes c z o.ty o.d fun l i => fpRound o.ty o.rm z.ftz (f (z.fa o o.ty l i))

/-- A function of two sources, rounded (R116, R117). -/
def State.fp2 (s : State) (c : Cur) (z : Str) (o : Operands) (f : FNum → FNum → FNum × Flags) : State :=
  s.fpLanes c z o.ty o.d fun l i => fpRound o.ty o.rm z.ftz (f (z.fa o o.ty l i) (z.fb o o.ty l i))

end Sys2Proof.Machine
end

