-- ==== Sys2Proof/Machine/Int.lean ====
section
/-! DEFINITION. Integer arithmetic, bits and fields, compare, select, moves and predicates (R98 to R105). -/

namespace Sys2Proof.Machine

/-- `Wr` of R96: the exact integer reduced to the type, as register contents. -/
def wrInt (t : Ty) (sat : Bool) (x : Int) : Nat := t.regBits (t.reduce sat x)

/-- A lane-wise integer function of A and B (R98). -/
def State.int2 (s : State) (c : Cur) (z : Str) (o : Operands) (f : Int → Int → Int) : State :=
  s.putLanes c z o.ty o.d fun l =>
    wrInt o.ty o.sat (f (o.ty.intVal (z.src o false o.ty o.a l)) (o.ty.intVal (z.src o true o.ty o.b l)))

/-- A lane-wise function of the raw bits of A and of B of type `tb` (R100). -/
def State.bits2 (s : State) (c : Cur) (z : Str) (o : Operands) (tb : Ty) (f : Nat → Nat → Nat) : State :=
  s.putLanes c z o.ty o.d fun l => f (z.src o false o.ty o.a l) (z.src o true tb o.b l) % 2 ^ o.ty.width

/-- A lane-wise function of the raw bits of A into a destination of type `td` (R102, R104). -/
def State.bits1 (s : State) (c : Cur) (z : Str) (o : Operands) (td : Ty) (f : Nat → Nat) : State :=
  s.putLanes c z td o.d fun l => f (z.src o true o.ty o.a l)

/-! ### Integer arithmetic (R98) -/

def execIadd (o : Operands) (s : State) : Out := s.issue (.iadd o) noCheck fun c z _ => s.int2 c z o (· + ·)

def execIsub (o : Operands) (s : State) : Out := s.issue (.isub o) noCheck fun c z _ => s.int2 c z o (· - ·)

/-- IMUL.lo, .hi and .wide by FN. -/
def execImul (o : Operands) (s : State) : Out :=
  s.issue (.imul o) noCheck fun c z _ =>
    match o.fn.toNat with
    | 0 => s.int2 c z o (· * ·)
    | 1 => s.int2 c z o fun a b => (a * b) / (2 ^ o.ty.width : Nat)
    | _ =>
      s.putLanes c z .b64 o.d fun l =>
        wrapNat 64 (o.ty.intVal (z.src o false o.ty o.a l) * o.ty.intVal (z.src o true o.ty o.b l))

def execImad (o : Operands) (s : State) : Out :=
  s.issue (.imad o) noCheck fun c z _ =>
    s.putLanes c z o.ty o.d fun l =>
      wrInt o.ty o.sat (o.ty.intVal (z.src o false o.ty o.a l) * o.ty.intVal (z.src o false o.ty o.b l) +
        o.ty.intVal (z.src o true o.ty o.c l))

def execImin (o : Operands) (s : State) : Out := s.issue (.imin o) noCheck fun c z _ => s.int2 c z o min

def execImax (o : Operands) (s : State) : Out := s.issue (.imax o) noCheck fun c z _ => s.int2 c z o max

/-- |a| of every participant (R98). -/
def State.intAbs (s : State) (c : Cur) (z : Str) (o : Operands) : State :=
  s.putLanes c z o.ty o.d fun l => wrInt o.ty o.sat ((o.ty.intVal (z.src o false o.ty o.a l)).natAbs : Int)

def execIabs (o : Operands) (s : State) : Out := s.issue (.iabs o) noCheck fun c z _ => s.intAbs c z o

def execIabsExt (o : Operands) (s : State) : Out := s.issue (.iabsExt o) noCheck fun c z _ => s.intAbs c z o

/-- Some participant holds a zero divisor and SPEC asks for the trap (R99). -/
def zeroDivisor (c : Cur) (z : Str) (o : Operands) : Bool :=
  o.spec && c.lanes.any fun l => o.ty.intVal (z.src o true o.ty o.b l) == 0

def execIdiv (o : Operands) (s : State) : Out :=
  s.issue (.idiv o) noCheck fun c z _ =>
    if zeroDivisor c z o then s.raise c .intDivideZero
    else s.putLanes c z o.ty o.d fun l =>
      let a := o.ty.intVal (z.src o false o.ty o.a l)
      let b := o.ty.intVal (z.src o true o.ty o.b l)
      if b = 0 then 2 ^ 32 - 1 else wrInt o.ty o.sat (a.tdiv b)

def execIrem (o : Operands) (s : State) : Out :=
  s.issue (.irem o) noCheck fun c z _ =>
    if zeroDivisor c z o then s.raise c .intDivideZero
    else s.putLanes c z o.ty o.d fun l =>
      let a := o.ty.intVal (z.src o false o.ty o.a l)
      let b := o.ty.intVal (z.src o true o.ty o.b l)
      wrInt o.ty false (if b = 0 then a else a.tmod b)

/-! ### Bits and fields (R100 to R102) -/

def execAnd (o : Operands) (s : State) : Out := s.issue (.and o) noCheck fun c z _ => s.bits2 c z o o.ty (· &&& ·)

def execOr (o : Operands) (s : State) : Out := s.issue (.or o) noCheck fun c z _ => s.bits2 c z o o.ty (· ||| ·)

def execXor (o : Operands) (s : State) : Out := s.issue (.xor o) noCheck fun c z _ => s.bits2 c z o o.ty (· ^^^ ·)

/-- The shifts and the rotation of a value of `w` bits (R100). -/
def shlBits (w a n : Nat) : Nat := if w ≤ n then 0 else (a <<< n) % 2 ^ w
def shrBits (w a n : Nat) : Nat := if w ≤ n then 0 else (a % 2 ^ w) >>> n
def sarBits (w a n : Nat) : Nat := wrapNat w (toSigned w a / (2 ^ min n w : Nat))
def rotBits (w a n : Nat) : Nat :=
  let a := a % 2 ^ w
  let k := n % w
  (a <<< k) % 2 ^ w + a >>> (w - k)

def execShl (o : Operands) (s : State) : Out :=
  s.issue (.shl o) noCheck fun c z _ => s.bits2 c z o .b32 (shlBits o.ty.width)

def execShr (o : Operands) (s : State) : Out :=
  s.issue (.shr o) noCheck fun c z _ => s.bits2 c z o .b32 (shrBits o.ty.width)

def execSar (o : Operands) (s : State) : Out :=
  s.issue (.sar o) noCheck fun c z _ => s.bits2 c z o .b32 (sarBits o.ty.width)

def execRot (o : Operands) (s : State) : Out :=
  s.issue (.rot o) noCheck fun c z _ => s.bits2 c z o .b32 (rotBits o.ty.width)

/-- The field of BFX (R101). -/
def bfxBits (t : Ty) (a pos len : Nat) : Nat :=
  let w := t.width
  let n := min len w
  if n = 0 || decide (w ≤ pos) then 0
  else
    let f := ((a % 2 ^ w) >>> pos) % 2 ^ n
    if t.isSigned then wrapNat w (toSigned n f) else f

/-- The result of BFI (R101). -/
def bfiBits (w d a pos len : Nat) : Nat :=
  let m := if w ≤ pos then 0 else ((2 ^ min len w - 1) <<< pos) % 2 ^ w
  (d % 2 ^ w - (d % 2 ^ w &&& m)) + (if w ≤ pos then 0 else (a <<< pos) &&& m)

def execBfx (o : Operands) (s : State) : Out :=
  s.issue (.bfx o) noCheck fun c z _ => s.putLanes c z o.ty o.d fun l =>
    bfxBits o.ty (z.src o false o.ty o.a l) (z.src o false .b32 o.b l) (z.src o true .b32 o.c l)

def execBfi (o : Operands) (s : State) : Out :=
  s.issue (.bfi o) noCheck fun c z _ => s.putLanes c z o.ty o.d fun l =>
    bfiBits o.ty.width (z.vval o.ty o.d.toNat l) (z.src o false o.ty o.a l) (z.src o false .b32 o.b l) (z.src o true .b32 o.c l)

/-- The one bits of a value of `w` bits (R102). -/
def popBits (w a : Nat) : Nat := ((List.range w).filter a.testBit).length
/-- The zero bits above the highest one bit; `w` for zero. -/
def clzBits (w a : Nat) : Nat := w - bitLen (a % 2 ^ w)
/-- The zero bits below the lowest one bit; `w` for zero. -/
def ctzBits (w a : Nat) : Nat := ((List.range w).find? a.testBit).getD w
/-- The bits in reverse order. -/
def revBits (w a : Nat) : Nat := (List.range w).foldl (fun x i => if a.testBit i then x + 2 ^ (w - 1 - i) else x) 0

def execPopc (o : Operands) (s : State) : Out := s.issue (.popc o) noCheck fun c z _ => s.bits1 c z o .b32 (popBits o.ty.width)

def execPopcExt (o : Operands) (s : State) : Out :=
  s.issue (.popcExt o) noCheck fun c z _ => s.bits1 c z o .b32 (popBits o.ty.width)

def execClz (o : Operands) (s : State) : Out := s.issue (.clz o) noCheck fun c z _ => s.bits1 c z o .b32 (clzBits o.ty.width)

def execClzExt (o : Operands) (s : State) : Out :=
  s.issue (.clzExt o) noCheck fun c z _ => s.bits1 c z o .b32 (clzBits o.ty.width)

def execCtz (o : Operands) (s : State) : Out := s.issue (.ctz o) noCheck fun c z _ => s.bits1 c z o .b32 (ctzBits o.ty.width)

def execCtzExt (o : Operands) (s : State) : Out :=
  s.issue (.ctzExt o) noCheck fun c z _ => s.bits1 c z o .b32 (ctzBits o.ty.width)

def execBrev (o : Operands) (s : State) : Out := s.issue (.brev o) noCheck fun c z _ => s.bits1 c z o o.ty (revBits o.ty.width)

def execBrevExt (o : Operands) (s : State) : Out :=
  s.issue (.brevExt o) noCheck fun c z _ => s.bits1 c z o o.ty (revBits o.ty.width)

/-! ### Compare, select, move and predicates (R103 to R105) -/

def execIsetp (o : Operands) (s : State) : Out :=
  s.issue (.isetp o) noCheck fun c z _ => s.putPreds c z o.d fun l =>
    condInt o.fn.toNat (o.ty.intVal (z.src o false o.ty o.a l)) (o.ty.intVal (z.src o true o.ty o.b l))

def execMov (o : Operands) (s : State) : Out := s.issue (.mov o) noCheck fun c z _ => s.bits1 c z o o.ty id

def execMovExt (o : Operands) (s : State) : Out := s.issue (.movExt o) noCheck fun c z _ => s.bits1 c z o o.ty id

/-- MOVI: IMM14 sign-extended (R104). -/
def execMovi (o : ImmOps) (s : State) : Out :=
  s.issue (.movi o) noCheck fun c z _ => s.putLanes c z .b32 o.d fun _ => (o.imm.signExtend 32).toNat

def execIsel (o : Operands) (s : State) : Out :=
  s.issue (.isel o) noCheck fun c z _ => s.putLanes c z o.ty o.d fun l =>
    if z.preg o.c.toNat l then z.vval o.ty o.a.toNat l else z.vval o.ty o.b.toNat l

def execPand (o : Operands) (s : State) : Out :=
  s.issue (.pand o) noCheck fun c z _ => s.putPreds c z o.d fun l => z.preg o.a.toNat l && z.preg o.b.toNat l

def execPor (o : Operands) (s : State) : Out :=
  s.issue (.por o) noCheck fun c z _ => s.putPreds c z o.d fun l => z.preg o.a.toNat l || z.preg o.b.toNat l

def execPxor (o : Operands) (s : State) : Out :=
  s.issue (.pxor o) noCheck fun c z _ => s.putPreds c z o.d fun l => z.preg o.a.toNat l != z.preg o.b.toNat l

def execPnot (o : Operands) (s : State) : Out :=
  s.issue (.pnot o) noCheck fun c z _ => s.putPreds c z o.d fun l => !z.preg o.a.toNat l

def execPnotExt (o : Operands) (s : State) : Out :=
  s.issue (.pnotExt o) noCheck fun c z _ => s.putPreds c z o.d fun l => !z.preg o.a.toNat l

/-! ### Addresses (R106, R107) -/

/-- The offset of ADDA: signed for i64, unsigned for n64. -/
def addaOffset (t : Ty) (x : Nat) : Int := if t.isSigned then toSigned 32 x else x

def addaSum (z : Str) (o : Operands) (l : Nat) : Int :=
  toSigned 64 (z.vpair o.a.toNat l).toNat + addaOffset o.ty (z.src o true .b32 o.b l)

def execAdda (o : Operands) (s : State) : Out :=
  s.issue (.adda o) noCheck fun c z _ =>
    if c.lanes.any fun l => decide (addaSum z o l < -(2 ^ 55 : Nat)) || decide ((2 ^ 55 : Nat) ≤ addaSum z o l) then
      s.raise c .noncanonical
    else s.putLanes c z .b64 o.d fun l => wrapNat 64 (addaSum z o l)

/-- The address that LEA forms (R107). -/
def leaAddr (z : Str) (o : Operands) (l : Nat) : Int :=
  (recBase (z.breg o.b.toNat) : Int) + recIndex z o l * recStride (z.breg o.b.toNat)

def execLea (o : Operands) (s : State) : Out :=
  s.issue (.lea o) noCheck fun c z _ =>
    if c.lanes.any fun l => !spanOk (leaAddr z o l) (recSize (z.breg o.b.toNat)) then s.raise c .noncanonical
    else s.putLanes c z .b64 o.d fun l => (dwordOf (BitVec.ofInt 56 (leaAddr z o l))).toNat

end Sys2Proof.Machine
end

