-- ==== Sys2Proof/Machine/Conv.lean ====
section
/-! DEFINITION. Conversions, packing and the quantisation of blocks (R81, R125 to R130). -/

namespace Sys2Proof.Machine

/-- The source type named by C (R53). -/
def srcTyOf (o : Operands) : Ty := o.src.getD .b32

/-- A conversion between floating-point formats with its flags (R125, R78). -/
def cvtVal (d s : Ty) (rm : Rm) (ftz : Bool) (raw : Nat) : Nat × Flags :=
  let x := fsrcRaw s ftz raw 0 false false
  let (bits, f) := d.encode rm ftz x
  (bits, f ||| x.sigFlag)

def execCvt (o : Operands) (s : State) : Out :=
  s.issue (.cvt o) noCheck fun c z _ => s.fpLanes c z o.ty o.d fun l i =>
    cvtVal o.ty (srcTyOf o) o.rm z.ftz (z.vval (srcTyOf o) (if i = 0 then o.a.toNat else o.b.toNat) l)

/-- A conversion with an integer type on one side (R126): register contents and flags. -/
def cvtiVal (d s : Ty) (rm : Rm) (sat ftz : Bool) (raw : Nat) : Nat × Flags :=
  if d.isInt then
    if s.isInt then (wrInt d sat (s.intVal raw), 0)
    else
      let (x, f) := (fsrcRaw s ftz raw 0 false false).toIntTy d rm
      (d.regBits x, f)
  else d.encode rm ftz (FNum.ofInt (s.intVal raw))

def execCvti (o : Operands) (s : State) : Out :=
  s.issue (.cvti o) noCheck fun c z _ =>
    let rs := c.lanes.map fun l =>
      (l, cvtiVal o.ty (srcTyOf o) o.rm o.sat z.ftz (z.vval (srcTyOf o) o.a.toNat l))
    s.fpEnd c z (orAll (rs.map (·.2.2))) fun s =>
      s.writeVal c.sid (s.depthOf z) o.ty o.d.toNat (rs.map fun r => (r.1, r.2.1))

/-- One element of PACK (R127). -/
def packVal (d s : Ty) (sat ftz : Bool) (raw : Nat) : Nat × Flags :=
  if d.isTap then cvtVal d s .rne ftz raw
  else if d.isInt then (d.reduce sat (s.intVal raw), 0)
  else (raw % 2 ^ d.width, 0)

def execPack (o : Operands) (s : State) : Out :=
  s.issue (.pack o) noCheck fun c z _ =>
    let rs := c.lanes.map fun l =>
      let es := (List.range (packCount o.ty)).map fun i =>
        packVal o.ty (srcTyOf o) o.sat z.ftz (z.vreg (o.a.toNat + i) l).toNat
      (l, es.foldr (fun e x => e.1 + x * 2 ^ o.ty.width) 0, orAll (es.map (·.2)))
    s.fpEnd c z (orAll (rs.map (·.2.2))) fun s =>
      s.writeVal c.sid (s.depthOf z) .b32 o.d.toNat (rs.map fun r => (r.1, r.2.1))

/-- One element of UNPK (R128). -/
def unpkVal (d s : Ty) (ftz : Bool) (raw i : Nat) : Nat × Flags :=
  let w := s.elem.width
  let x := (raw >>> (w * i)) % 2 ^ w
  if s.isInt then (wrInt d false (s.intVal x), 0)
  else if s.isBits then (x, 0)
  else
    let v := s.elem.decode ftz x
    let (bits, f) := d.encode .rne ftz v
    (bits, f ||| v.sigFlag)

/-- Writes a range of registers for every participant: each lane's list of register contents. -/
def State.writeRange (s : State) (c : Cur) (z : Str) (d : Nat) (rows : List (Nat × List Nat)) (n : Nat) : State :=
  (List.range n).foldl (fun s i =>
    s.writeV c.sid (s.depthOf z) (d + i) (rows.map fun r => (r.1, BitVec.ofNat 32 (r.2.getD i 0)))) s

def execUnpk (o : Operands) (s : State) : Out :=
  s.issue (.unpk o) noCheck fun c z _ =>
    let n := unpkCount (srcTyOf o)
    let rs := c.lanes.map fun l =>
      (l, (List.range n).map fun i => unpkVal o.ty (srcTyOf o) z.ftz (z.vreg o.a.toNat l).toNat i)
    s.fpEnd c z (orAll (rs.map fun r => orAll (r.2.map (·.2)))) fun s =>
      s.writeRange c z o.d.toNat (rs.map fun r => (r.1, r.2.map (·.1))) n

/-! ### Blocks of 32 elements (R129, R130) -/

/-- The plain places of the 32 smoothing entries of a lane. -/
def smoothRes (t : Troop) (z : Str) (o : Operands) (l : Nat) : List ScrRes :=
  (List.range 32).map fun i => scrPlain t.scratchSize ((z.vreg o.b.toNat l).toNat + 4 * i) 4

/-- The fault of the smoothing reads of a bundle (R129). -/
def smoothFault (c : Cur) (z : Str) (t : Troop) (o : Operands) : Option Cause :=
  if o.spec then scrFault (c.lanes.flatMap (smoothRes t z o)) else none

/-- Entry i of the smoothing vector of a lane. -/
def smoothEntry (t : Troop) (z : Str) (o : Operands) (l i : Nat) : FNum :=
  Ty.f32.decode z.ftz (t.readScratch ((smoothRes t z o l).getD i .badSel).places)

/-- x / s[k] rounded to f32 (R81). -/
def smoothDiv (ftz : Bool) (x y : FNum) : FNum × Flags :=
  let (bits, f) := fpRound .f32 .rne ftz (x.div y)
  (Ty.f32.decode ftz bits, f)

/-- The greatest magnitude of finite values, as (mantissa, exponent). -/
def maxMag (xs : List FNum) : Nat × Int :=
  xs.foldl (fun (m, e) x =>
    match x with
    | .fin _ n f => if n = 0 then (m, e) else if m = 0 then (n, f) else
        if unitsOf false m e (min e f) < unitsOf false n f (min e f) then (n, f) else (m, e)
    | _ => (m, e)) (0, 0)

/-- The scale byte of a block (R129). -/
def blockScale (ys : List FNum) : Nat :=
  if ys.any fun y => y.isNan || y == .inf false || y == .inf true then 255
  else
    let (m, e) := maxMag ys
    if m = 0 then 127 else (max 0 (min 254 (127 + ceilLog2 m e - 1))).toNat

/-- A block quantised: its scale byte, its patterns and its flags (R129). -/
def quantBlock (w : Nat) (ys : List FNum) : Nat × List Nat × Flags :=
  let e := blockScale ys
  if e = 255 then (255, ys.map fun _ => 2 ^ (w - 1), flagNV)
  else
    let qs := ys.map fun y => encodeTap w (y.scale (127 - (e : Int)))
    (e, qs.map (·.1), orAll (qs.map (·.2)))

/-- Patterns of `w` bits as 32-bit registers, the first lowest. -/
def denseRegs (w n : Nat) (qs : List Nat) : List Nat :=
  let x := qs.foldr (fun q x => q + x * 2 ^ w) 0
  (List.range n).map fun i => (x >>> (32 * i)) % 2 ^ 32

/-- Register contents with byte j replaced. -/
def putByteIn (x : Word) (j b : Nat) : Word := (x &&& ~~~(255#32 <<< (8 * j))) ||| (BitVec.ofNat 32 b <<< (8 * j))

def execQnt (o : Operands) (s : State) : Out :=
  s.issue (.qnt o) noCheck fun c z t =>
    match smoothFault c z t o with
    | some cause => s.raise c cause
    | none =>
      let j := bitsNat o.imm 9 8
      let g := o.scaleReg
      let rs := c.lanes.map fun l =>
        let ys : List (FNum × Flags) := (List.range 32).map fun i =>
          let x := Ty.f32.decode z.ftz (z.vreg (o.a.toNat + i) l).toNat
          if o.spec then smoothDiv z.ftz x (smoothEntry t z o l i) else (x, (0 : Flags))
        let (e, qs, f) := quantBlock o.ty.width (ys.map (·.1))
        (l, denseRegs o.ty.width (tapRegs o.ty) qs, e, orAll (ys.map Prod.snd) ||| f)
      s.fpEnd c z (orAll (rs.map (·.2.2.2))) fun s =>
        (s.writeRange c z o.d.toNat (rs.map fun r => (r.1, r.2.1)) (tapRegs o.ty)).writeV c.sid (s.depthOf z) g
          (rs.map fun r => (r.1, putByteIn (z.vreg g r.1) j r.2.2.1))

/-- A scaled value is flushed by its scaled magnitude (R80). -/
def scaledFlush (ftz : Bool) (x : FNum) : FNum :=
  match x with
  | .fin n m e => if ftz && decide (m ≠ 0) && decide (e + bitLen m - 1 < -126) then .fin n 0 0 else x
  | _ => x

/-- A TAP pattern times its scale (R79): scale 255 is NaR. -/
def tapScaled (t : Ty) (ftz : Bool) (bits e : Nat) : FNum :=
  if e = 255 then .nan true else scaledFlush ftz ((decodeTap t.width bits).scale ((e : Int) - 127))

def execDqnt (o : Operands) (s : State) : Out :=
  s.issue (.dqnt o) noCheck fun c z t =>
    match smoothFault c z t o with
    | some cause => s.raise c cause
    | none =>
      let src := srcTyOf o
      let n := tapRegs src
      let rs := c.lanes.map fun l =>
        let e := bitsNat (z.vreg (o.scaleReg) l) (8 * bitsNat o.imm 9 8 + 7) (8 * bitsNat o.imm 9 8)
        let x := (List.range n).foldr (fun i x => (z.vreg (o.a.toNat + i) l).toNat + x * 2 ^ 32) 0
        (l, (List.range 32).map fun i =>
          let v := tapScaled src z.ftz ((x >>> (src.width * i)) % 2 ^ src.width) e
          if v.isNan then (Ty.f32.fmt.nanBits, flagNV)
          else fpRound .f32 o.rm z.ftz (if o.spec then v.mul (smoothEntry t z o l i) else (v, 0)))
      s.fpEnd c z (orAll (rs.map fun r => orAll (r.2.map (·.2)))) fun s =>
        s.writeRange c z o.d.toNat (rs.map fun r => (r.1, r.2.map (·.1))) 32

end Sys2Proof.Machine
end

