-- ==== Sys2Proof/Config.lean ====
section
/-! DEFINITION. What one device fixes and the manual does not state: constants with no body, so that no proof sees a value of
them. -/

namespace Sys2Proof

/-- The words of an instruction whose word 0 cannot be read, which its return PC counts (R360, R386). -/
opaque Config.unreadWords : Addr → Nat

/-- The quarter time, in units of 8 clocks, of a cell of a MUL node with a format of its inputs and a length of its sum: the
manual gives none (R145, R165). -/
opaque Config.cellUnits : Nat → Nat → Nat

/-- Byte `i` of an entry of a saddlebag in the recovery spill area: the manual gives its size and not its layout (R422). -/
opaque Config.spillByte : List Nat → Nat → Byte

/-- Value `i` of an entry at an address of a recovery spill area whose bytes are no longer those that the device wrote there, read
as some numbers; with none the read was refused (R422). -/
opaque Config.spillVal : Nat → List Nat → Nat → Nat

/-- The home L2 slice of a line on each die, modulo 256 (R195). -/
opaque Config.l2Slice : Nat → Nat

/-- The set of a line in the LLC of its home die, modulo 2^18: its slice, and the set in it (R196). -/
opaque Config.llcSet : Nat → Nat

/-- What a DRAM row of a line is (R443). -/
opaque Config.rowOf : Nat → Nat

/-- The GiB of this device's DRAM that root firmware keeps for itself and for shadow storage (R200, R374). -/
opaque Config.keptGiB : Nat → Bool

/-- The GiB of a die, modulo 60, that holds the 256 MiB of firmware, MTU and rail structures (R382). -/
opaque Config.firmwareGiB : Nat → Nat

/-- The row of the numbered cold start has no spare left in its bank (R443). -/
opaque Config.noSpare : Nat → Nat → Bool

/-- The numbered cold start, to which a warm start has escalated, succeeds, and a core that its BIST finds failing (R382, R383). -/
opaque Config.coldWorks : Nat → Bool
opaque Config.bistFails : Nat → Nat → Bool

/-- What a peer answers to a paddock's requests for a line of its memory (R381): modulo 3, 0 serves them, 1 is PERMISSION, 2 is
WORLD. The peer's pairing and regions are its own. -/
opaque Config.peerAnswer : Nat → Nat → Nat → Nat

/-- The shadow storage of a die in MiB, secure or not (R374). -/
opaque Config.shadowMiB : Bool → Nat → Nat

/-- Byte `i` of the fused SERIAL (R384). -/
opaque Config.serial : Nat → Byte

/-- The firmware image, whose SHA-512 digest is FWDIGEST (R382, R384). -/
opaque Config.firmware : List Byte

/-- The bytes of a paddock table that CFGDIGEST digests, the table written as a list of numbers for each paddock: its byte layout is
not given (R384). -/
opaque Config.tableBytes : List (List Nat) → List Byte

/-- Byte `i` of the secret Ed25519 key of the device, derived from the device secret in a way that is not given (R382, R384). -/
opaque Config.deviceKey : Nat → Byte

/-- The length of the vendor certificate, less one (R374). -/
opaque Config.certLen : Nat

/-- Byte `i` of the vendor certificate (R374). -/
opaque Config.cert : Nat → Byte

end Sys2Proof
end

