-- ==== Sys2Proof/Machine/Mem.lean ====
section
/-! DEFINITION. Memory beneath the buffers: DRAM with its error correction (R200, R441, R442), the home LLC slices (R196 to
R198), the caches of a core and a die with the atomic authority they hold (R194, R195, R243, R244), the writes on their way to
their homes and the rounds that count them (R204, R212, R232, R239), and the lines of commutative ranges (R225, R226). -/

namespace Sys2Proof.Machine

/-! ### Lines of physical memory -/

/-- The canonical form of memory: addresses strictly rising, and no entry equal to zero, which an unlisted address reads
as. -/
def Memory.wf (m : List Host.Cell) : Bool := Cells.wf 0 m

/-- The 64 bytes of line `line` in DRAM. -/
def memLine (m : List Host.Cell) (line : Nat) : BitVec 512 :=
  BitVec.ofNat 512 (natOfBytes ((List.range 64).map fun i => Cells.get 0 m (64 * line + i)))

/-- `m` with the bytes of a line that a mask names. -/
def setMemLine (m : List Host.Cell) (line : Nat) (mask : Dword) (d : BitVec 512) : List Host.Cell :=
  Cells.setMany 0 m ((maskBytes mask).map fun i => (64 * line + i, lineByte d i))

/-- `base` with the bytes of `d` that a mask names. -/
def lineMerge (base : BitVec 512) (mask : Dword) (d : BitVec 512) : BitVec 512 :=
  (maskBytes mask).foldl (fun x i => lineSet x i (lineByte d i)) base

def allBytes : Dword := BitVec.allOnes 64

/-- The line lies in this device's DRAM (R358). -/
def onDevice (line : Nat) : Bool := decide (line < 2 ^ 32)

/-- The home die of a line of this device (R200). -/
def homeDie (line : Nat) : Nat := line / 2 ^ 30 % 4

/-- The peer that a physical address names, 1 to 31. -/
def peerOf (pa : Nat) : Option Nat :=
  let n := pa / 2 ^ 50
  if decide (1 ≤ n) && decide (n ≤ 31) && pa / 2 ^ 38 % 2 ^ 12 == 0 then some n else none

/-- The address lies in the memory of a peer whose every link is down (R381). -/
def State.peerDown (s : State) (pa : Nat) : Bool :=
  decide (2 ^ 38 ≤ pa) && (match peerOf pa with | some n => s.linkDown.contains n | none => false)

/-! ### Error counters -/

/-- A saturating 32-bit counter rises by one (R440). -/
def inc32 (n : Nat) : Nat := min 0xFFFFFFFF (n + 1)

/-- A change of the error block of a paddock, which signals its supervisor (R440, R373). -/
def State.countErr (s : State) (pad : Nat) (f : ErrCounters → ErrCounters) : State :=
  s.updPad pad fun p => { p with err := f p.err, intStat := p.intStat ||| 0x10#5 }

/-- The DRAM row of a line, with its die. -/
def rowKey (line : Nat) : Nat := homeDie line * 2 ^ 40 + Config.rowOf line % 2 ^ 40

/-- A row joins its die's pending repair list, which holds 512 rows (R443). -/
def State.listRow (s : State) (line : Nat) : State :=
  let r := rowKey line
  if s.repairs.contains r then s
  else if (s.repairs.filter fun x => x / 2 ^ 40 == homeDie line).length < 512 then { s with repairs := s.repairs ++ [r] }
  else { s with repairOverflow := s.repairOverflow + 1 }

/-- A corrected error at a line: its row is listed at the third line address within 24 hours (R443). -/
def State.noteCorrected (s : State) (line : Nat) : State :=
  let day := 24 * 3600 * s.mhz * 1000000
  let seen := (s.ceSeen.filter fun e => e.1 != line && decide (s.clock < e.2 + day)) ++ [(line, s.clock)]
  let s := { s with ceSeen := seen }
  if 3 ≤ (seen.filter fun e => rowKey e.1 == rowKey line).length then s.listRow line else s

/-! ### DRAM and LLC -/

/-- A read of a line of DRAM for a paddock (R441, R442): the data, or nothing when they are uncorrectable. -/
def State.readDram (s : State) (pad line : Nat) : State × Option (BitVec 512) :=
  if s.poison.contains line then (s.countErr pad fun e => { e with ue := inc32 e.ue }, none)
  else
    match Cells.get 0 s.upsets line with
    | 0 => (s, some (memLine s.mem line))
    | 1 =>
      let s := { s with upsets := Cells.erase line s.upsets }
      ((s.noteCorrected line).countErr pad fun e => { e with ce := inc32 e.ce }, some (memLine s.mem line))
    | _ =>
      let s := { s with upsets := Cells.erase line s.upsets, poison := line :: s.poison }
      ((s.listRow line).countErr pad fun e => { e with ue := inc32 e.ue }, none)

def State.llcLine (s : State) (line : Nat) : Option LlcLine := s.llc.find? (·.line == line)

/-- The mask of an entry of a die's partition table (R198). -/
def State.partMask (s : State) (die part : Nat) : Half := Cells.get 0xFFFF s.partTable (16 * die + part)

/-- The paddock may allocate a line in LLC under its partition (R198). -/
def State.granted (s : State) (pad line part : Nat) : Bool :=
  (match s.pad? pad with | some p => p.grants.getLsbD part | none => true) && s.partMask (homeDie line) part != 0

/-- The LLC lets a line go: one that was written, or that DRAM does not hold, goes to DRAM whole, which clears its poison and its
upsets (R196, R442). -/
def State.dropLlc (s : State) (line : Nat) : State :=
  match s.llcLine line with
  | some l =>
    let s := { s with llc := s.llc.filter (·.line != line) }
    if l.dirty || memLine s.mem line != l.data then
      { s with mem := setMemLine s.mem line allBytes l.data, poison := s.poison.erase line, upsets := Cells.erase line s.upsets }
    else s
  | none => s

/-- The lines of the set of a line in the LLC of its home die, the most recently used first (R196). -/
def State.llcSet (s : State) (line : Nat) : List LlcLine :=
  s.llc.filter fun l => homeDie l.line == homeDie line && Config.llcSet l.line % 2 ^ 18 == Config.llcSet line % 2 ^ 18

/-- The ways that an entry of the partition table allows. -/
def waysOf (m : Half) : List Nat := (List.range 16).filter fun w => m.getLsbD w

/-- A retained line may be replaced: every way that its own partition allows in its set holds a retained line (R197). -/
def State.llcFree (s : State) (l : LlcLine) : Bool :=
  !l.retain || (waysOf (s.partMask (homeDie l.line) l.part)).all fun w => (s.llcSet l.line).any fun x => x.way == w && x.retain

/-- The line that a new one replaces in the ways of a mask: the least recently used one that may be replaced (R197). -/
def State.llcVictim (s : State) (line : Nat) (m : Half) : Option LlcLine :=
  ((s.llcSet line).filter fun l => m.getLsbD l.way && s.llcFree l).getLast?

/-- A way for a new line among those of a mask, a line of theirs making room when none is free (R197, R198); none where each holds a
line that is retained against it. -/
def State.llcWay (s : State) (line : Nat) (m : Half) : State × Option Nat :=
  let free := (waysOf m).find? fun w => (s.llcSet line).all (·.way != w)
  if s.llc.length < (waysOf m).length then (s, free)
  else
    match free, s.llcVictim line m with
    | some w, _ => (s, some w)
    | none, some l => (s.dropLlc l.line, some l.way)
    | none, none => (s, none)

/-- The line is allocated in its home LLC slice, where its policy allows and its partition is granted: evict-first puts it where
it is the least recently used (R197, R198). -/
def State.allocLlc (s : State) (pad line pol part : Nat) (d : BitVec 512) : State :=
  if !onDevice line || decide (3 ≤ pol) then s
  else if s.granted pad line part then
    match s.llcWay line (s.partMask (homeDie line) part) with
    | (s, some w) =>
      let l : LlcLine := { line := line, data := d, way := w, retain := pol == 1, part := part, dirty := false }
      { s with llc := if pol = 2 then s.llc ++ [l] else l :: s.llc }
    | (s, none) => s
  else s.countErr pad fun e => { e with partMisses := inc32 e.partMisses }

/-- A read of a line at its home: the LLC's line, or DRAM; a peer with no link left answers that it is uncorrectable (R381). -/
def State.readHome (s : State) (pad line pol part : Nat) : State × Option (BitVec 512) :=
  if s.peerDown (64 * line) then (s, none)
  else
    match s.llcLine line with
    | some l => ({ s with llc := l :: s.llc.erase l }, some l.data)
    | none =>
      match s.readDram pad line with
      | (s, some d) => (s.allocLlc pad line pol part d, some d)
      | (s, none) => (s, none)

/-- A write of a line's bytes at its home: the new state, and whether the write was performed. A partial write of a
poisoned line is not; a write of all 64 bytes clears the poison (R442). A write to a peer with no link left is not (R381). -/
def State.writeHome (s : State) (pad line pol part : Nat) (mask : Dword) (d : BitVec 512) : State × Bool :=
  if s.peerDown (64 * line) then (s, false)
  else
    match s.llcLine line with
    | some l => ({ s with llc := { l with data := lineMerge l.data mask d, dirty := true } :: s.llc.erase l }, true)
    | none =>
      if mask = allBytes then
        ({ s with mem := setMemLine s.mem line mask d, poison := s.poison.erase line
                  upsets := Cells.erase line s.upsets }.allocLlc pad line pol part d, true)
      else
        match s.readDram pad line with
        | (s, some old) =>
          ({ s with mem := setMemLine s.mem line mask d }.allocLlc pad line pol part (lineMerge old mask d), true)
        | (s, none) => (s, false)

/-! ### L1 and L2 -/

def findLine (cs : List CacheLine) (place line : Nat) : Option CacheLine :=
  cs.find? fun c => c.place == place && c.line == line

def putLine (cs : List CacheLine) (c : CacheLine) : List CacheLine :=
  c :: cs.filter fun x => !(x.place == c.place && x.line == c.line)

/-- A cache lets a read copy go. -/
def dropCopy (cs : List CacheLine) (place line : Nat) : List CacheLine :=
  cs.filter fun c => c.auth || !(c.place == place && c.line == line)

/-- The cache that holds the atomic authority of a line, when it is not at its home (R244). -/
def holder (cs : List CacheLine) (line : Nat) : Option CacheLine := cs.find? fun c => c.auth && c.line == line

/-- Bytes written into the copy that a die's L2 holds, if it holds one. -/
def State.updL2 (s : State) (die line : Nat) (mask : Dword) (d : BitVec 512) : State :=
  { s with l2 := updAll (fun c => c.place == die && c.line == line) (fun c => { c with data := lineMerge c.data mask d }) s.l2 }

/-- The writes of a die that have arrived at its L2 slice and not yet at their home, for one line, oldest first (R232). -/
def State.pendingAt (s : State) (die line : Nat) : List HomeWrite :=
  s.writes.filter fun w => w.atL2 && w.line == line && dieOf w.core == die

/-- The home's line with those writes over it. -/
def State.overlay (s : State) (die line : Nat) (d : BitVec 512) : BitVec 512 :=
  (s.pendingAt die line).foldl (fun x w => lineMerge x w.mask w.data) d

/-- The bytes of a line that later writes of a die, already at its L2, do not cover. -/
def State.uncovered (s : State) (die line : Nat) (mask : Dword) : Dword :=
  (s.pendingAt die line).foldl (fun m w => m &&& ~~~w.mask) mask

/-- A write performed at the home updates the copy in the home die's L2 (R239). -/
def State.freshenHome (s : State) (line : Nat) (mask : Dword) (d : BitVec 512) : State :=
  if onDevice line then s.updL2 (homeDie line) line (s.uncovered (homeDie line) line mask) d else s

/-- A count of a round, confirmed or not. -/
def State.countArrival (s : State) (w : HomeWrite) (f : Round → Round) : State :=
  { s with rounds := updAll (fun r => r.core == w.core && r.rnd == w.rnd) f s.rounds }

/-- The bytes of a write that the cluster could read in a buffer before it: all of one carried out of a buffer, and of another
those that it discarded there (R205, R233). -/
def HomeWrite.bared (w : HomeWrite) : Dword := if w.lanes.isEmpty then w.mask else w.hid

/-- The copies that a write makes stale in the L1s it was sent from. -/
def State.dropStale (s : State) (w : HomeWrite) : State :=
  { s with l1 := s.l1.filter fun c => c.auth || c.line != w.line ||
      !(c.place == w.core || (w.bared != 0 && clusterOf c.place == clusterOf w.core)) }

/-- The late fault of an instruction stands: its writes that are still on their way record no other (R262, R284, R442). -/
def State.tellWrites (s : State) (op : Nat) : State :=
  { s with writes := updAll (·.op == op) (fun w => { w with told := true }) s.writes }

/-- A fault, unless one came first (R262, R284). -/
def firstFault (f : Option Cause) (c : Cause) : Option Cause := if f.isSome then f else some c

/-! ### Faults of tile operations (R172) -/

/-- The first error code of a node sticks. -/
def Node.fail (x : Node) (code : Nat) : Node := if x.status ≤ 1 then { x with status := code } else x

/-- The status code of a cause (R172). -/
def statusOf : Cause → Nat
  | .uncorrectableMemory => 2
  | _ => 3

/-- A node takes a status code, if it is still there. -/
def State.failSeq (s : State) (core seq code : Nat) : State :=
  { s with nodes := updAll (fun y => y.core == core && y.seq == seq) (·.fail code) s.nodes }

/-- The node that a fault names: that of the cell met, or the source. -/
def State.faultNode (s : State) (core : Nat) (e : EngOp) (seq : Option Nat) : Option Node :=
  let nodes := if e.kind = .twalk then e.tree else s.nodes.filter (·.core == core)
  match seq with
  | some q => nodes.find? (·.seq == q)
  | none => match e.src with
    | .node n => nodes.find? (·.n == n)
    | _ => none

/-- The node met by a tile operation takes a status code, and the operation's first fault is recorded with the two PCs (R172,
R284). -/
def State.tileLate (s : State) (core : Nat) (e : EngOp) (first : Bool) (c : Cause) (x : Option Node) (code : Nat) : State :=
  let s := match x with
    | some x => s.failSeq core x.seq code
    | none => s
  if first then s.lateFault e.sid c e.pc (match x with | some x => x.pc | none => 0) e.depth e.trap else s

/-! ### Writes that their homes refuse -/

/-- A write of an engine operation is refused: the operation keeps its first fault, which a tile operation records as it meets it. -/
def State.blameEng (s : State) (core : Nat) (e : EngOp) (c : Cause) : State :=
  let s := s.updEng e.id fun e => { e with fault := firstFault e.fault c }
  if e.kind.cls = 1 then s.tileLate core e e.fault.isNone c (s.faultNode core e none) (statusOf c) else s

/-- A write that its home did not perform is its instruction's fault (R262, R284, R442): its access, engine operation or COMMIT
records it where one still stands, and else it is recorded here, once for the instruction. -/
def State.blameWrite (s : State) (w : HomeWrite) : State :=
  let c : Cause := .uncorrectableMemory
  if w.told then s
  else if (s.acc? w.op).isSome then s.updAcc w.op fun a => { a with fault := firstFault a.fault c }
  else match s.eng? w.op with
    | some e => s.blameEng w.core e c
    | none =>
      if s.ops.any fun o => o.id == w.op && o.kind == .commit then s.updOp w.op fun o => { o with fault := firstFault o.fault c }
      else (s.lateFault w.sid c w.pc 0 w.depth w.trap).tellWrites w.op

/-- A write to a peer with no link left is lost: a COMMIT.sys that waits for its round records the loss too (R381). -/
def State.loseWrite (s : State) (w : HomeWrite) : State :=
  let waits := fun (o : SysOp) => o.kind == .commit && o.lvl == .sys && o.phase == .sent && decide (w.rnd ≤ o.arg) &&
    (match s.str? o.sid with | some z => z.core == w.core | none => false)
  { s with ops := updAll waits (fun o => { o with fault := firstFault o.fault .uncorrectableMemory }) s.ops }.blameWrite w

/-- A write is performed at its home (R204, R232, R239, R381, R442). -/
def State.landHome (s : State) (w : HomeWrite) : State :=
  let s := { s with writes := s.writes.erase w }
  let down := s.peerDown (64 * w.line)
  let (s, ok) := s.writeHome w.pad w.line w.pol w.part w.mask w.data
  let s := if down then s.loseWrite w
    else if !ok then s.blameWrite w
    else if homeDie w.line = dieOf w.core then s
    else s.freshenHome w.line w.mask w.data
  (s.dropStale w).countArrival w fun r => { r with arrHome := w.line :: r.arrHome }

/-- The line is homed in host memory (R200, R212). -/
def hostLine (line : Nat) : Bool := !onDevice line && (peerOf (64 * line)).isNone

/-- The writes to a line that stand at a die's L2 slice are performed at the home, in their order there (R232), and for a line of host
memory the die's other writes into host memory with them, each behind its core's older ones (R212, R377). -/
def State.drainDie (s : State) (die line : Nat) : State :=
  (s.writes.filter fun w => w.atL2 && dieOf w.core == die && (w.line == line || (hostLine line && hostLine w.line))).foldl
    State.landHome s

/-- An L2 that holds the authority of a line writes its value to the home, where the authority then is (R244): behind the writes
that its slice received before the atomics (R232). A partial write that the home refuses is the fault of the last atomic that wrote
(R442). DESIGN CHOICE (log entry 159): the write allocates nothing in the LLC and counts no partition miss, whatever the policy and the
partition of its page: R197 says how the accesses of a page allocate, and not how a line that an L2 writes back does. -/
def State.spillL2 (s : State) (line : Nat) : State :=
  match holder s.l2 line with
  | some c =>
    let s := s.drainDie c.place line
    let s := { s with l2 := updAll (fun x => x.auth && x.line == line) (fun x => { x with auth := false, dirty := 0 }) s.l2 }
    if c.dirty = 0 then s
    else
      match s.writeHome c.pad line 3 0 c.dirty c.data with
      | (s, true) => s.freshenHome line c.dirty c.data
      | (s, false) => match c.last with
        | some (sid, pc, d, trap) => s.lateFault sid .uncorrectableMemory pc 0 d trap
        | none => s
  | none => s

/-- The lines of a slice of a die's L2: copies, and the shadow lines of its clusters (R195). -/
def State.sliceLoad (s : State) (die line : Nat) : Nat :=
  let same := fun (x : Nat) => Config.l2Slice x % 256 == Config.l2Slice line % 256
  (s.l2.filter fun c => c.place == die && same c.line).length +
    (s.lines.filter fun l => match l.space with | .clu k => k / 8 == die && same l.line | _ => false).length

/-- The slice lets its least recently used line go, authority first returning (R195, R197). -/
def State.evictL2 (s : State) (die line : Nat) : State :=
  match (s.l2.filter fun c => c.place == die && Config.l2Slice c.line % 256 == Config.l2Slice line % 256).getLast? with
  | some c =>
    let s := if c.auth then s.spillL2 c.line else s
    { s with l2 := s.l2.filter fun x => !(x.place == die && x.line == c.line) }
  | none => s

/-- Every slice of the dies' L2s holds 2,048 lines at most (R195): copies make room for what has entered. DESIGN CHOICE (log entry 122):
where more than 2,048 shadow lines of the die's clusters hash to one slice, each cluster within its 2 MiB, all of them stay. -/
def State.trimL2 (s : State) : State :=
  if s.l2.length + s.lines.length ≤ 2048 then s
  else s.l2.foldl (fun s c => if 2048 < s.sliceLoad c.place c.line then s.evictL2 c.place c.line else s) s

/-- A line enters a die's L2, whose slices hold 2,048 lines each (R195). -/
def State.putL2 (s : State) (c : CacheLine) : State :=
  let s := { s with l2 := putLine s.l2 c }
  if s.l2.length + s.lines.length ≤ 2048 then s
  else (List.range (s.sliceLoad c.place c.line - 2048)).foldl (fun s _ => s.evictL2 c.place c.line) s

/-- An L1 that holds the authority of a line writes its value to the L2 of its die, which then holds it (R244). -/
def State.spillL1 (s : State) (line : Nat) : State :=
  match holder s.l1 line with
  | some c =>
    { s with l1 := s.l1.filter fun x => !(x.auth && x.line == line) }.putL2
      { c with place := dieOf c.place, used := 0 }
  | none => s

/-- The authority of a line returns to its home. -/
def State.returnAuth (s : State) (line : Nat) : State := (s.spillL1 line).spillL2 line

/-! ### Combining values -/

/-- One combine of two patterns: 0 add, 1 min, 2 max (R225, R270, R283): integers wrap or compare, floats round RNE with no
flush, no flag and the canonical NaN. -/
def combine (t : Ty) (op a b : Nat) : Nat :=
  if t.isInt then
    let x := t.intVal a
    let y := t.intVal b
    wrapNat t.width (match op with | 0 => x + y | 1 => min x y | _ => max x y)
  else
    let x := t.decode false a
    let y := t.decode false b
    (t.encode .rne false (match op with | 0 => (x.add .rne y).1 | 1 => x.min y | _ => x.max y)).1

/-- The identity of an operator (R225). -/
def identity (t : Ty) (op : Nat) : Nat :=
  if t.isInt then match op with | 0 => 0 | 1 => wrapNat t.width t.intMax | _ => wrapNat t.width t.intMin
  else match op with
    | 0 => 2 ^ (t.width - 1)
    | 1 => (t.encode .rne false (.inf false)).1
    | _ => (t.encode .rne false (.inf true)).1

/-- The pattern of `w` bytes at byte `i` of a line. -/
def lineVal (d : BitVec 512) (i w : Nat) : Nat := d.toNat >>> (8 * i) % 2 ^ (8 * w)

def lineSetVal (d : BitVec 512) (i w x : Nat) : BitVec 512 :=
  (List.range w).foldl (fun d k => lineSet d (i + k) (BitVec.ofNat 8 (x >>> (8 * k)))) d

/-- The mask of `w` bytes from byte `i`. -/
def spanMask (i w : Nat) : Dword := BitVec.ofNat 64 ((2 ^ w - 1) <<< i)

/-- Two lines combined element by element, the first value on the left. -/
def combineLine (t : Ty) (op : Nat) (a b : BitVec 512) : BitVec 512 :=
  let w := t.width / 8
  (List.range (64 / w)).foldl (fun d k => lineSetVal d (w * k) w (combine t op (lineVal a (w * k) w) (lineVal b (w * k) w))) a

/-- A line that holds the identity in every element. -/
def identityLine (t : Ty) (op : Nat) : BitVec 512 :=
  let w := t.width / 8
  (List.range (64 / w)).foldl (fun d k => lineSetVal d (w * k) w (identity t op)) 0

/-! ### Commutative ranges -/

def State.partialOf (s : State) (r : Range) (core line : Nat) (slot : Bool) : Option Partial :=
  s.partials.find? fun p => p.pad == r.pad && p.range == r.slot && p.core == core && p.line == line && p.slot == slot

def State.putPartial (s : State) (p : Partial) : State :=
  { s with partials := p :: s.partials.filter fun q =>
      !(q.pad == p.pad && q.range == p.range && q.core == p.core && q.line == p.line && q.slot == p.slot) }

/-- The stamp of the next use of a line of a core's L1: copies and partial lines are used in one order (R197). -/
def State.l1Stamp (s : State) (core : Nat) : Nat :=
  let top := s.l1.foldl (fun m c => if c.place == core then max m c.used else m) 0
  s.partials.foldl (fun m p => if p.core == core && !p.slot then max m p.used else m) top + 1

/-- A line of a core's L1 is used. -/
def State.touchL1 (s : State) (c : CacheLine) : State :=
  { s with l1 := putLine s.l1 { c with used := s.l1Stamp c.place } }

/-- One lane's RADD to a partial line of a core (R225). -/
def State.applyRadd (s : State) (r : Range) (core line i x : Nat) : State :=
  let w := r.ty.width / 8
  let d := match s.partialOf r core line false with | some p => p.data | none => identityLine r.ty r.op
  s.putPartial { pad := r.pad, range := r.slot, core := core, line := line, slot := false, used := s.l1Stamp core
                 data := lineSetVal d i w (combine r.ty r.op (lineVal d i w) x) }

/-- The L1 evicts a partial line into the core's slot: the slot first, then the evicted partial (R225). -/
def State.evictPartial (s : State) (r : Range) (core line : Nat) : State :=
  match s.partialOf r core line false with
  | some p =>
    let s := { s with partials := s.partials.erase p }
    match s.partialOf r core line true with
    | some q => s.putPartial { q with data := combineLine r.ty r.op q.data p.data }
    | none => s.putPartial { p with slot := true, used := 0 }
  | none => s

/-! ### The capacity of an L1 -/

/-- The troops of a core that hold scratchpad there. -/
def State.scratchOn (s : State) (core : Nat) : Nat :=
  s.troops.foldl (fun n t => match t.st with | .ended _ => n | _ => if t.core = core then n + t.scratchSize else n) 0

/-- The lines that a core's scratchpad allocations leave to its L1 (R194). -/
def State.l1Room (s : State) (core : Nat) : Nat := (393216 - s.scratchOn core) / 64

/-- The lines in a core's L1: copies, lines of its authority, and partial lines (R194). -/
def State.l1Load (s : State) (core : Nat) : Nat :=
  (s.l1.filter (·.place == core)).length + (s.partials.filter fun p => p.core == core && !p.slot).length

/-- The partial line of a core's L1 that was used least recently. -/
def State.oldPartial (s : State) (core : Nat) : Option Partial :=
  s.partials.foldl (fun (m : Option Partial) p =>
    if p.core == core && !p.slot && (match m with | some q => decide (p.used < q.used) | none => true) then some p else m) none

/-- The L1 lets a copy go; authority returns. -/
def State.evictCopy (s : State) (c : CacheLine) : State :=
  let s := if c.auth then s.spillL1 c.line else s
  { s with l1 := s.l1.filter fun x => !(x.place == c.place && x.line == c.line) }

/-- The L1 lets a partial line go, which merges into its slot (R225). -/
def State.evictPart (s : State) (p : Partial) : State :=
  match s.ranges.find? fun r => r.pad == p.pad && r.slot == p.range with
  | some r => s.evictPartial r p.core p.line
  | none => s

/-- The L1 lets a line go, the least recently used first (R197). -/
def State.evictL1 (s : State) (core : Nat) : State :=
  match (s.l1.filter (·.place == core)).getLast?, s.oldPartial core with
  | some c, some p => if c.used < p.used then s.evictCopy c else s.evictPart p
  | some c, none => s.evictCopy c
  | none, some p => s.evictPart p
  | none, none => s

/-- The L1 of a core lets go what its room no longer holds (R194). -/
def State.trimL1 (s : State) (core : Nat) : State :=
  (List.range (s.l1Load core - s.l1Room core)).foldl (fun s _ => s.evictL1 core) s

/-- A line enters a core's L1. -/
def State.putL1 (s : State) (c : CacheLine) : State := (s.touchL1 c).trimL1 c.place

/-! ### The atomic authority -/

/-- Where the atomic authority of a line is, or goes (R243). -/
inductive AuthPlace where
  | l1 (core : Nat)
  | l2 (die : Nat)
  | home
  deriving DecidableEq, Repr

/-- The authority that a scope names for an atomic of a core; bypass-all keeps it at the home (R197, R243). -/
def authPlace (core : Nat) (l : Level) (pol : Nat) : AuthPlace :=
  if pol = 4 then .home
  else match l with
    | .str | .trp => .l1 core
    | .clu | .die => .l2 (dieOf core)
    | _ => .home

/-- The line as a die's L2 home slice reads it: its copy, or the home's line with the die's own writes on their way. -/
def State.dieFetch (s : State) (pad die line pol part : Nat) : State × Option (BitVec 512) :=
  match s.readHome pad line pol part with
  | (s, some d) => (s, some (s.overlay die line d))
  | (s, none) => (s, none)

def State.dieLine (s : State) (pad die line pol part : Nat) : State × Option (BitVec 512) :=
  match findLine s.l2 die line with
  | some c => ({ s with l2 := putLine s.l2 c }, some c.data)
  | none => s.dieFetch pad die line pol part

/-- The authority of a line is brought to a place, its holder first writing its value to the next wider cache (R244): the
line there, or nothing when its data are uncorrectable. It is the home's line with the writes over it that the die's slice has
received, never an older copy. -/
def State.recall (s : State) (core : Nat) (a : AuthPlace) (pad line pol part : Nat) : State × Option (BitVec 512) :=
  match a with
  | .home => ((s.returnAuth line).drainDie (dieOf core) line).readHome pad line pol part
  | .l2 die =>
    let s := match holder s.l1 line with
      | some c => if dieOf c.place = die then s.spillL1 line else s.returnAuth line
      | none => match holder s.l2 line with
        | some c => if c.place = die then s else s.spillL2 line
        | none => s
    match holder s.l2 line with
    | some c => (s, some c.data)
    | none =>
      match s.dieFetch pad die line pol part with
      | (s, some d) => (s.putL2 { place := die, line := line, data := d, auth := true, dirty := 0, pad := pad }, some d)
      | (s, none) => (s, none)
  | .l1 core =>
    let keep : Bool := match holder s.l1 line with | some c => c.place == core | none => false
    let s := if keep then s else s.returnAuth line
    match holder s.l1 line with
    | some c => (s, some c.data)
    | none =>
      match s.dieFetch pad (dieOf core) line pol part with
      | (s, some d) => (s.putL1 { place := core, line := line, data := d, auth := true, dirty := 0, pad := pad }, some d)
      | (s, none) => (s, none)

/-- Where the authority of a line stands after its recall: a full L1, or a slice full of shadow lines, has sent it on (R195, R199,
R244). -/
def State.authAt (s : State) (line : Nat) : AuthPlace :=
  match holder s.l1 line, holder s.l2 line with
  | some c, _ => .l1 c.place
  | none, some c => .l2 c.place
  | none, none => .home

/-- The write of an atomic at the authority that its recall brought: `mask` names the bytes written and `seen` those read. What
the issuer's caches hold of them is brought up to date, or goes (R233). -/
def State.putAuth (s : State) (f : Force) (core pad line pol part : Nat) (mask seen : Dword) (d : BitVec 512) : State :=
  let put := fun (c : CacheLine) => { c with
    data := lineMerge c.data mask d, dirty := c.dirty ||| mask, pad := pad
    last := if mask = 0 then c.last else some (f.sid, f.pc, f.depth, f.trap) }
  match s.authAt line with
  | .l1 k => { s with l1 := updFirst (fun c => c.auth && c.line == line && c.place == k) put s.l1 }
  | .l2 _ =>
    { s with l2 := updFirst (fun c => c.auth && c.line == line) put s.l2, l1 := dropCopy s.l1 core line }
  | .home =>
    let s := if mask = 0 then s else ((s.writeHome pad line pol part mask d).1).freshenHome line mask d
    { s.updL2 (dieOf core) line (s.uncovered (dieOf core) line (mask ||| seen)) d with l1 := dropCopy s.l1 core line }

/-- No L1 or L2 holds a read copy of the lines that `p` names (R226). -/
def State.dropCopies (s : State) (p : Nat → Bool) : State :=
  let keep := fun (c : CacheLine) => c.auth || !p c.line
  { s with l1 := s.l1.filter keep, l2 := s.l2.filter keep }

/-- No L1 of a cluster holds a read copy of a line. -/
def State.dropNear (s : State) (cluster line : Nat) : State :=
  { s with l1 := s.l1.filter fun c => c.auth || c.line != line || clusterOf c.place != cluster }

/-! ### Loads below the buffers -/

/-- The authority of a line stands in the L1 of a core or in the L2 of its die. -/
def State.authNear (s : State) (core line : Nat) : Bool :=
  match s.authAt line with
  | .l1 k => k == core
  | .l2 die => die == dieOf core
  | .home => false

/-- The line as a core's load finds it (R206 step 4), `fresh` being the level of a fresh load or 0 (R260), and 6 for a LAUNCH, which
reads the home (R245). The line is left as read copies in L1 and L2; under bypass-all no cache serves or keeps it, and authority that
the core's own path has taken under another policy returns first (R197, R233). -/
def State.pathRead (s : State) (pad core line pol part fresh : Nat) : State × Option (BitVec 512) :=
  if fresh = 6 then s.readHome pad line pol part else
  let die := dieOf core
  let near := onDevice line && homeDie line == die
  let useL2 : Bool := decide (fresh ≤ 3) || near || (decide (fresh = 4) && !onDevice line)
  if pol = 4 then (if s.authNear core line then s.returnAuth line else s).dieFetch pad die line pol part
  else
    match findLine s.l1 core line with
    | some c => if c.auth || decide (fresh < 3) then (s.touchL1 c, some c.data) else go s die useL2
    | none => go s die useL2
where
  /-- Past the L1. -/
  go (s : State) (die : Nat) (useL2 : Bool) : State × Option (BitVec 512) :=
    let held := match findLine s.l2 die line with
      | some c => if c.auth || useL2 then some c else none
      | none => none
    match held with
    | some c =>
      ({ s with l2 := putLine s.l2 c }.putL1 { place := core, line := line, data := c.data, auth := false, dirty := 0 }, some c.data)
    | none =>
      match s.dieFetch pad die line pol part with
      | (s, some d) =>
        ((s.putL2 { place := die, line := line, data := d, auth := false, dirty := 0 }).putL1
          { place := core, line := line, data := d, auth := false, dirty := 0 }, some d)
      | (s, none) => (s, none)

/-- The bytes of a write on its way that a reader of the issuing string takes from it: its own lane's, or all of a write
that is not one lane's (R231, R233). An engine reads as its string does (R248). -/
def HomeWrite.forwards (w : HomeWrite) (sid : Nat) (lane : Option Nat) : Dword :=
  if w.sid != sid then 0
  else
    match lane with
    | some l => if w.lanes.isEmpty then w.mask else w.lanes.foldl (fun m e => if e.1 == l then m ||| e.2 else m) 0
    | none => w.mask

/-- The byte that a write on its way gives a load: of the latest such write, in the order in which the memory unit took them,
which their numbers keep (R233). One that has reached its L2 slice is in what the load finds there, under what is coherence-later than
it; a LAUNCH, which reads the home (`fresh` 6), takes it from its way still. -/
def State.forwarded (s : State) (sid : Nat) (lane : Option Nat) (line i : Nat) (fresh : Nat := 0) : Option Byte :=
  (s.writes.foldl (fun (b : Option (Nat × Byte)) w =>
    if (!w.atL2 || fresh == 6) && w.line == line && (w.forwards sid lane).getLsbD i &&
        (match b with | some x => decide (x.1 < w.wid) | none => true) then
      some (w.wid, lineByte w.data i)
    else b) none).map (·.2)

/-- A read waits for a write on its way: at device level or wider until its home has performed it (R239); one carried out of a
buffer, or over bytes that it discarded from one, which the cluster could read there, until it is performed at its level (R233). -/
def State.readWaits (s : State) (sid : Nat) (lane : Option Nat) (core line : Nat) (mask : Dword) : Bool :=
  s.writes.any fun w =>
    w.line == line && mask &&& w.mask &&& ~~~w.forwards sid lane != 0 &&
      ((w.atL2 && dieOf w.core == dieOf core && w.lvl != .die) ||
        (mask &&& w.bared &&& ~~~w.forwards sid lane != 0 && clusterOf w.core == clusterOf core && !(w.lvl == .die && w.atL2)))

/-! ### Writes to the home, and rounds -/

/-- The open round of a core (R212). -/
def State.openRound (s : State) (core : Nat) : Round :=
  match s.rounds.find? fun r => r.core == core && !r.closed with
  | some r => r
  | none => { core := core, rnd := 0 }

def State.putRound (s : State) (r : Round) : State :=
  { s with rounds := r :: s.rounds.filter fun x => !(x.core == r.core && x.rnd == r.rnd) }

/-- The number of a round, which each write of it carries (R212). -/
def Round.number (r : Round) : Nat := r.rnd % 16

/-- What a round has sent to one home L2 slice, and what has been counted there (R212). -/
def Round.l2Counts (r : Round) (slice : Nat) : Nat × Nat :=
  let here := fun (ls : List Nat) => (ls.filter fun line => Config.l2Slice line % 256 == slice).length
  (here r.sentL2, here r.arrL2)

/-- What a round has sent to one home LLC slice of a die, and what has been counted there (R212). -/
def Round.llcCounts (r : Round) (die slice : Nat) : Nat × Nat :=
  let here := fun (ls : List Nat) =>
    (ls.filter fun line => onDevice line && homeDie line == die && Config.llcSet line % 2 ^ 18 / 2 ^ 14 == slice).length
  (here r.sentHome, here r.arrHome)

/-- Every home L2 slice has counted what the round sent to it: each arrival is of a line sent, so the sums tell it. -/
def Round.atL2 (r : Round) : Bool := r.sentL2.length == r.arrL2.length

/-- Every home LLC slice of the device has counted what the round sent to it. -/
def Round.atLlc (r : Round) : Bool := (r.sentHome.filter onDevice).length == (r.arrHome.filter onDevice).length

/-- And the homes off the device have answered. -/
def Round.atHomes (r : Round) : Bool := r.sentHome.length == r.arrHome.length

/-- The closed rounds of a core that are not confirmed (R212, R269). -/
def State.closedRounds (s : State) (core : Nat) : List Round := s.rounds.filter fun r => r.core == core && r.closed

/-- A COMMIT at die level or above closes the current round, and the core opens the next one (R212). -/
def State.closeRound (s : State) (core : Nat) : State :=
  let r := s.openRound core
  (s.putRound { r with closed := true }).putRound { core := core, rnd := r.rnd + 1 }

/-- A write leaves its core at die level or wider, tagged with the current round (R212). The core's L1 copy goes; of bytes
carried out of a buffer, every copy in the cluster (R233). -/
def State.sendHome (s : State) (w : HomeWrite) : State :=
  let r := s.openRound w.core
  let (id, s) := s.fresh
  let s := s.putRound { r with sentL2 := w.line :: r.sentL2, sentHome := w.line :: r.sentHome }
  { s with writes := s.writes ++ [{ w with wid := id, rnd := r.rnd, atL2 := false }] }.dropStale w

/-- A write that an engine performs at the authority of its line is counted in the current round at once (R212). -/
def State.tagWrite (s : State) (core line : Nat) : State :=
  let r := s.openRound core
  s.putRound { r with sentL2 := line :: r.sentL2, arrL2 := line :: r.arrL2
                      sentHome := line :: r.sentHome, arrHome := line :: r.arrHome }

/-- The write reaches the L2 home slice of its die, behind earlier writes of its core to the line (R204, R232). A cache of
that die which holds the line's authority returns it. -/
def State.arriveL2 (s : State) (w : HomeWrite) : State :=
  let die := dieOf w.core
  let mine : Bool := (match holder s.l1 w.line with | some c => dieOf c.place == die | none => false) ||
    (match holder s.l2 w.line with | some c => c.place == die | none => false)
  let s := if mine then s.returnAuth w.line else s
  let s := { s with writes := s.writes.erase w ++ [{ w with atL2 := true }] }
  ((s.updL2 die w.line w.mask w.data).dropStale w).countArrival w fun r => { r with arrL2 := w.line :: r.arrL2 }

/-- The write reaches its home, behind earlier writes of its die to the line. A cache of another die which holds the line's
authority returns it first; one of its own die has taken it after the write, and keeps what its atomics wrote (R232, R244). -/
def State.arriveHome (s : State) (w : HomeWrite) : State :=
  let here : Bool := (match holder s.l1 w.line with | some c => dieOf c.place == dieOf w.core | none => false) ||
    (match holder s.l2 w.line with | some c => c.place == dieOf w.core | none => false)
  (if here then s else s.returnAuth w.line).landHome w

/-- A write takes its next step, when nothing older holds it back: on its way to L2 an older one of its core to the line, and from
there an older one of its die to the line, or, into host memory, any older one of its core (R212). DEDUCED (log entry 162): a write
into host memory reaches the L2 behind the core's older ones too, so that the order of a slice and that of a core cannot wait for each
other (R375). -/
def State.arriveWrite (s : State) (wid : Nat) : State :=
  match s.writes.find? (·.wid == wid) with
  | none => s
  | some w =>
    let older := s.writes.takeWhile (·.wid != wid)
    if w.atL2 then
      if older.any fun x => x.atL2 && x.line == w.line && dieOf x.core == dieOf w.core then s
      else if hostLine w.line && s.writes.any fun x => decide (x.wid < wid) && x.core == w.core && hostLine x.line then s
      else s.arriveHome w
    else if older.any fun x => !x.atL2 && x.core == w.core && (x.line == w.line || (hostLine w.line && hostLine x.line)) then s
    else s.arriveL2 w

/-- The combined answers to a core's round queries (R212). -/
def State.confirmRounds (s : State) (core : Nat) : State :=
  { s with rounds := (s.rounds.filter fun r => !(r.core == core && r.closed && r.atHomes)).map fun r =>
      if r.core == core && r.closed then { r with dieOk := r.dieOk || r.atL2, devOk := r.devOk || r.atLlc } else r }

/-- Every round of a core up to `n` is confirmed at a level (R212). -/
def State.roundsDone (s : State) (core n : Nat) (l : Level) : Bool :=
  s.rounds.all fun r => r.core != core || !r.closed || decide (n < r.rnd) || (l == .die && r.dieOk) || (l == .dev && r.devOk)

/-! ### Gathering -/

/-- The cores that hold a part of a line of a range, in increasing number (R93). -/
def State.partialCores (s : State) (r : Range) (line : Nat) : List Nat :=
  (List.range 256).filter fun c => s.partials.any fun p =>
    p.pad == r.pad && p.range == r.slot && p.core == c && p.line == line

/-- The home gathers a line of an open range (R226): its value combined with each core's part in increasing core number,
written as the new home value; nothing when the home's line is uncorrectable. -/
def State.gather (s : State) (r : Range) (line pol part : Nat) : State × Option (BitVec 512) :=
  let s := (s.returnAuth line).dropCopies (· == line)
  match s.readHome r.pad line pol part with
  | (s, some home) =>
    let cores := s.partialCores r line
    let s := cores.foldl (fun s c => s.evictPartial r c line) s
    let v := cores.foldl (fun v c => match s.partialOf r c line true with
      | some p => combineLine r.ty r.op v p.data
      | none => v) home
    let s := { s with partials := s.partials.filter fun p => !(p.pad == r.pad && p.range == r.slot && p.line == line) }
    if cores.isEmpty then (s, some home)
    else (((s.writeHome r.pad line pol part allBytes v).1).freshenHome line allBytes v, some v)
  | (s, none) => (s, none)

/-- The lines of a range that have partials. -/
def State.partialLines (s : State) (r : Range) : List Nat :=
  ((s.partials.filter fun p => p.pad == r.pad && p.range == r.slot).map (·.line)).dedup

/-! ### The device's own agents -/

/-- Bytes `i` to `i + n - 1` of a line. -/
def lineSlice (d : BitVec 512) (i n : Nat) : List Byte := (List.range n).map fun k => lineByte d (i + k)

/-- The mask and the data of bytes from place `i` of a line. -/
def lineOf (i : Nat) (bs : List Byte) : Dword × BitVec 512 := packLine ((List.range bs.length).map fun k => (i + k, bs.getD k 0))

/-- The commutative range that a line has partials of. -/
def State.rangeOfLine (s : State) (line : Nat) : Option Range :=
  (s.partials.find? (·.line == line)).bind fun p => s.ranges.find? fun r => r.pad == p.pad && r.slot == p.range

/-- A read at the home of a line, which gathers one that has partials first (R226). -/
def State.readGathered (s : State) (pad line pol part : Nat) : State × Option (BitVec 512) :=
  match s.rangeOfLine line with
  | some r => s.gather r line pol part
  | none => s.readHome pad line pol part

/-- An agent's read of `n` bytes of one line at device level, with no buffer and no L1 (R207); nothing when the line is
uncorrectable. -/
def State.agentReadAs (s : State) (pad pol part pa n : Nat) : State × Option (List Byte) :=
  match s.readGathered pad (pa / 64) pol part with
  | (s, some d) => (s, some (lineSlice d (pa % 64) n))
  | (s, none) => (s, none)

/-- The read of an agent that meets no page: a walk, or a peer's. -/
def State.agentRead (s : State) (pad pa n : Nat) : State × Option (List Byte) := s.agentReadAs pad 3 0 pa n

/-- An agent's write of bytes of one line at device level, with no buffer: at the home, where authority first returns. The answer
says whether it was performed: a partial write of a poisoned line is not (R442). -/
def State.agentWriteOk (s : State) (pad pol part pa : Nat) (bs : List Byte) : State × Bool :=
  let line := pa / 64
  let (m, d) := lineOf (pa % 64) bs
  match (s.returnAuth line).writeHome pad line pol part m d with
  | (s, true) => (s.freshenHome line m d, true)
  | r => r

/-- An agent's write that has no instruction to answer. -/
def State.agentWriteAs (s : State) (pad pol part pa : Nat) (bs : List Byte) : State := (s.agentWriteOk pad pol part pa bs).1

def State.agentWrite (s : State) (pad pa : Nat) (bs : List Byte) : State := s.agentWriteAs pad 3 0 pa bs

/-! ### Acquire -/

/-- The read copies that ACQ of a level invalidates for a core, of the lines that `p` names (R240). -/
def State.acquire (s : State) (core : Nat) (l : Level) (p : Nat → Bool) : State :=
  let die := dieOf core
  let l1 : Bool := decide (2 ≤ l.code)
  let gone := fun (c : CacheLine) => !c.auth && c.place == die && p c.line &&
    ((decide (4 ≤ l.code) && onDevice c.line && homeDie c.line != die) || (decide (5 ≤ l.code) && !onDevice c.line))
  { s with
    l1 := s.l1.filter fun c => c.auth || !(l1 && c.place == core && p c.line)
    l2 := s.l2.filter fun c => !gone c }

end Sys2Proof.Machine
end

