-- ==== Sys2Proof/Machine/Matrix.lean ====
section
/-! DEFINITION. MMA, MMAJ and MLEASE, and the completion of a matrix operation (R88, R89, R133 to R150). -/

namespace Sys2Proof.Machine

/-! ### Sums of products (R88, R89) -/

/-- The exact sum of a chunk of products and its flags (R88). -/
def chunkSum (ps : List (FNum × FNum)) : FNum × Flags :=
  let rs := ps.map fun p => p.1.mul p.2
  let clash := rs.any (fun r => r.1 == .inf false) && rs.any (fun r => r.1 == .inf true)
  ((FNum.sum (rs.map (·.1))).1, orAll (rs.map (·.2)) ||| if clash then flagNV else 0)

/-- An f32 accumulator with one chunk added. -/
def chunkStep (ftz : Bool) (acc : Nat) (ps : List (FNum × FNum)) : Nat × Flags :=
  let (x, f) := chunkSum ps
  let (r, g) := fpRound .f32 .rne ftz ((Ty.f32.decode ftz acc).add .rne x)
  (r, f ||| g)

/-- An f32 accumulator updated chunk by chunk, a last short chunk taking the remainder. -/
def chunkAcc (ftz : Bool) (ch : Nat) : Nat → Nat × Flags → List (FNum × FNum) → Nat × Flags
  | 0, r, _ => r
  | _, r, [] => r
  | n + 1, (acc, f), ps =>
    let (x, g) := chunkStep ftz acc (ps.take ch)
    chunkAcc ftz ch n (x, f ||| g) (ps.drop ch)

/-- An f64 accumulator (R89). -/
def fmaAcc : Nat × Flags → List (FNum × FNum) → Nat × Flags
  | r, [] => r
  | (acc, f), p :: ps =>
    let (x, g) := fpRound .f64 .rne false (p.1.fma .rne p.2 (Ty.f64.decode false acc))
    fmaAcc (x, f ||| g) ps

/-- The products of one chunk (R88). -/
def chunkLen (t : Ty) : Nat := if t.isTap then 32 else 16

/-- The accumulator's format (R133). -/
def accTy (t : Ty) : Ty := if t == .f64 then .f64 else if t.isInt then .i32 else .f32

/-- One accumulator element with its row of A and column of B, as numbers. -/
def floatAcc (t : Ty) (ftz : Bool) (acc : Nat) (ps : List (FNum × FNum)) : Nat × Flags :=
  if t == .f64 then fmaAcc (acc, 0) ps else chunkAcc ftz (chunkLen t) (ps.length + 1) (acc, 0) ps

/-! ### Fragments (R135 to R138) -/

/-- A lane's consecutive registers as one value, the first lowest. -/
def denseVal (regs : List Nat) : Nat := regs.foldr (fun r x => r + 2 ^ 32 * x) 0

def Str.denseRegs (z : Str) (first n l : Nat) : Nat := denseVal ((List.range n).map fun i => (z.vreg (first + i) l).toNat)

/-- Element (l, k) of A from row l's registers (R135): every layout is dense. -/
def aBits (t : Ty) (row k : Nat) : Nat := (row >>> (t.width * k)) % 2 ^ t.width

/-- The lane that holds B(k, n) and its bit in that lane's registers (R136). -/
def bPlace (t : Ty) (k n : Nat) : Nat × Nat :=
  match t with
  | .f64 => (4 * k + n / 2, 64 * (n % 2))
  | .tap6 => (k / 3, 96 * (k % 3) + 6 * n)
  | .bf16 | .f16 => (k, 16 * n)
  | _ => (k / 2, 128 * (k % 2) + 8 * n)

/-- The operands of one matrix operation: rows of A and registers of B by lane, and the scale registers C and C + 1 of every
lane. -/
structure Frag where
  a : List Nat
  b : List Nat
  sa : List Nat
  sb : List Nat

def Str.frag (z : Str) (o : Operands) (ra rb : Nat) : Frag :=
  { a := (List.range 32).map (z.denseRegs o.a.toNat ra), b := (List.range 32).map (z.denseRegs o.b.toNat rb)
    sa := (List.range 32).map fun l => (z.vreg o.c.toNat l).toNat
    sb := (List.range 32).map fun l => (z.vreg (o.c.toNat + 1) l).toNat }

def Frag.bBits (f : Frag) (t : Ty) (k n : Nat) : Nat :=
  let (l, bit) := bPlace t k n
  (f.b.getD l 0 >>> bit) % 2 ^ t.width

/-- Byte j of a register. -/
def byteOf (x j : Nat) : Nat := (x >>> (8 * j)) % 256

/-- A matrix element as a number (R139): TAP by its scale, the others with the input flush; f64 never flushes. -/
def matNum (t : Ty) (ftz : Bool) (bits scale : Nat) : FNum :=
  if t.isTap then tapScaled t ftz bits scale else t.decode (ftz && t != .f64) bits

/-- The value of an element of the accumulator (R139). `k` counts the products. -/
def matElem (t : Ty) (ftz : Bool) (kk : Nat) (fa fb : Frag) (l n acc : Nat) : Nat × Flags :=
  if t.isInt then
    (wrapNat 32 ((acc : Int) + ((List.range kk).map fun k =>
      t.intVal (aBits t (fa.a.getD l 0) k) * t.intVal (fb.bBits t k n)).sum), 0)
  else
    floatAcc t ftz acc ((List.range kk).map fun k =>
      (matNum t ftz (aBits t (fa.a.getD l 0) k) (byteOf (fa.sa.getD l 0) (k / 32)),
        matNum t ftz (fb.bBits t k n) (byteOf (fb.sb.getD n 0) (k / 32))))

/-- The shape of a type (R133): N, K, and the registers of A and B. -/
def matShape (t : Ty) : Nat × Nat × Nat × Nat :=
  match mmaShape t with
  | some (n, k, ra, rb, _) => (n, k, ra, rb)
  | none => (0, 0, 0, 0)

/-- The words an element writes: its register, or its pair (R138). -/
def accWrites (t : Ty) (d l n x : Nat) : List (Nat × Word) :=
  if t == .f64 then
    [(32 * (d + 2 * n) + l, BitVec.ofNat 32 x), (32 * (d + 2 * n + 1) + l, BitVec.ofNat 32 (x >>> 32))]
  else [(32 * (d + n) + l, BitVec.ofNat 32 x)]

/-- AccRd of R139. -/
def Str.accRead (z : Str) (t : Ty) (d l n : Nat) : Nat :=
  if t == .f64 then (z.vpair (d + 2 * n) l).toNat else (z.vreg (d + n) l).toNat

/-- The registers of a destination range join the saddlebag at issue, at depth `k` (R152). -/
def State.recordRange (s : State) (sid k d n : Nat) : State :=
  (List.range n).foldl (fun s i => s.record sid k (.v (d + i)) (·.vall (d + i))) s

/-- STRCTL.CHKSUM (R31). -/
def Str.chksum (z : Str) : Bool := z.strctl.getLsbD 6

/-! ### MMA -/

/-- The results of an MMA for every participant: its writes and its flags (R139, R140). -/
def mmaResults (c : Cur) (z : Str) (o : Operands) : List (Nat × Word) × Flags :=
  let (n, k, ra, rb) := matShape o.ty
  let f := z.frag o ra rb
  let rs := c.lanes.flatMap fun l => (List.range n).map fun j =>
    let acc := if o.spec then 0 else z.accRead o.ty o.d.toNat l j
    let (x, g) := matElem o.ty z.ftz k f f l j acc
    (accWrites o.ty o.d.toNat l j x, g)
  (rs.flatMap (·.1), orAll (rs.map (·.2)))

/-- A matrix operation of an issue, not yet queued. -/
def matOpOf (c : Cur) (z : Str) (t : Troop) (id units : Nat) : MatOp :=
  { id := id, sid := z.sid, tid := t.tid, slice := z.slice, pc := c.pc, depth := t.depth, trap := c.trap, units := units
    chk := z.chksum, writes := [], regs := [], flags := 0, enabled := z.enabled, joint := none }

/-- MMA (R139 to R142): its results are computed from the operands read at issue and written when the quarter completes it. -/
def execMma (o : Operands) (s : State) : Out :=
  s.issue (.mma o) noCheck fun c z t =>
    if 2 ≤ s.matQueued z.core z.slice then s.hold
    else
      let (id, s) := s.fresh
      let op := matOpOf c z t id 1
      if c.parts = 0 then s.queueMat z.core op
      else
        let (ws, f) := mmaResults c z o
        (s.recordRange z.sid t.depth o.d.toNat 16).queueMat z.core
          { op with writes := ws, regs := (List.range 16).map (o.d.toNat + ·), flags := f }

/-! ### MMAJ (R143, R144) -/

/-- The MMAJs that a string has issued since its troop started. -/
def Troop.mmajCount (t : Troop) (idx : Nat) : Nat := ((t.mmaj.find? (·.1 == idx)).map (·.2)).getD 0

/-- The registers of a pending member as a fragment. -/
def PendJ.frag (p : PendJ) : Frag :=
  let lane := fun (rows : List (List Word)) l => denseVal ((rows.getD l []).map (·.toNat))
  { a := (List.range 32).map (lane p.aRegs), b := (List.range 32).map (lane p.bRegs)
    sa := p.sRegs.map fun r => (r.getD 0 0).toNat, sb := p.sRegs.map fun r => (r.getD 1 0).toNat }

/-- The results of one member of a joint operation. -/
def PendJ.results (p : PendJ) (ms : List PendJ) : List (Nat × Word) × Flags :=
  let (_, k, _, _) := matShape p.ty
  let fa := p.frag
  let rs := (lanesOf p.parts).flatMap fun l => (List.range 64).map fun n =>
    let fb := match ms[n / 16]? with | some m => m.frag | none => fa
    let acc := if p.spec then 0 else ((p.acc.getD l []).getD n 0).toNat
    let (x, g) := matElem p.ty p.ftz k fa fb l (n % 16) acc
    ([(32 * (p.dst + n) + l, BitVec.ofNat 32 x)], g)
  (rs.flatMap (·.1), orAll (rs.map (·.2)))

/-- The slice of a string. -/
def State.sliceOf (s : State) (sid : Nat) : Nat := match s.str? sid with | some z => z.slice | none => 0

/-- MMAJs that cannot be joined write nothing and fault late (R144). -/
def State.failJoint (s : State) (ms : List PendJ) : State :=
  ms.foldl (fun s p => s.lateFault p.sid .tileShape p.pc 0 p.depth p.trap)
    { s with pendJ := s.pendJ.filter fun p => !ms.any (·.id == p.id) }

/-- A member of a joint set has retired: the MMAJs of the set that wait for it cannot be joined (R144). -/
def State.failRetiredJoint (s : State) (t : Troop) (set : Nat) : State :=
  if (s.strsOf t.tid).any (fun z => z.idx / 4 == set && z.retired) then
    s.failJoint (s.pendJ.filter fun p => p.tid == t.tid && p.set == set)
  else s

/-- A joint operation forms when the fourth member's MMAJ has issued (R143): its members enter the queues of MQ0 to MQ3 in that
order (R146). Members of different types cannot be joined (R144). -/
def State.formJoint (s : State) (core : Nat) (ms : List PendJ) (joint : Nat) : State :=
  match ms with
  | [] => s
  | m :: _ =>
    if ms.any fun p => p.ty != m.ty then s.failJoint ms
    else
      let ops := ms.map fun p =>
        let (ws, f) := p.results ms
        { id := p.id, sid := p.sid, tid := p.tid, slice := s.sliceOf p.sid, pc := p.pc, depth := p.depth, trap := p.trap
          units := 4, chk := p.chk, writes := ws, regs := (List.range 64).map (p.dst + ·), flags := f, enabled := p.enabled
          joint := some joint : MatOp }
      { s with
        pendJ := s.pendJ.filter fun p => !ms.any (·.id == p.id)
        jointWait := s.jointWait ++ ops }.settleQuarters core

/-- MMAJ latches its operands as a pending member (R143); a string outside a joint set may not issue it (R26). DESIGN CHOICE (log entry
147): one with no participant still counts and joins, reads and supplies its B quarter, and keeps its registers pending; that it reads
and writes nothing R141 says of MMA. -/
def execMmaj (o : Operands) (s : State) : Out :=
  s.issue (.mmaj o)
    (fun _ z t => decide (z.idx < 4 * t.joint))
    fun c z t =>
      if 2 ≤ s.matQueued z.core z.slice then s.hold
      else
        let (_, _, ra, rb) := matShape o.ty
        let (id, s) := s.fresh
        let num := t.mmajCount z.idx
        let row := fun first n l => (List.range n).map fun i => z.vreg (first + i) l
        let p : PendJ :=
          { id := id, sid := z.sid, tid := t.tid, set := z.idx / 4, num := num, ty := o.ty, pc := c.pc, depth := t.depth
            trap := c.trap, parts := c.parts, dst := o.d.toNat, spec := o.spec, ftz := z.ftz, enabled := z.enabled
            chk := z.chksum, aRegs := (List.range 32).map (row o.a.toNat ra), bRegs := (List.range 32).map (row o.b.toNat rb)
            sRegs := (List.range 32).map (row o.c.toNat 2), acc := (List.range 32).map (row o.d.toNat 64) }
        let s := (if c.parts = 0 then s else s.recordRange z.sid t.depth o.d.toNat 64).updTroop t.tid fun t =>
          { t with mmaj := (z.idx, num + 1) :: t.mmaj.filter (·.1 != z.idx) }
        let s := { s with pendJ := s.pendJ ++ [p] }
        let ms := (List.range 4).filterMap fun q => s.pendJ.find? fun x =>
          x.tid == t.tid && x.num == num && x.set == z.idx / 4 && (match s.str? x.sid with
            | some y => y.idx == 4 * (z.idx / 4) + q
            | none => false)
        if ms.length = 4 then s.formJoint z.core ms id else s.failRetiredJoint t (z.idx / 4)

/-! ### MLEASE (R148) -/

/-- MLEASE: a hint, given once for an issue. DESIGN CHOICE (log entry 115): an MLEASE with every lane turned off by a predicate
block does nothing, as R95 has it for the lane instructions; chapter 6 says nothing of it. -/
def execMlease (o : Operands) (s : State) : Out :=
  s.issue (.mlease o) noCheck fun c z t =>
    let x := s.quarter z.core (quarterOf z.slice)
    if c.parts = 0 then s
    else if o.fn = 0 then
      (s.putQuarter (x.request { tid := t.tid, acq := true, slice := z.slice, clock := s.clock })).settleQuarters z.core
    else if x.holder = some t.tid then (s.putQuarter { x with rel := some s.nextId }).settleQuarters z.core
    else if x.wants t.tid then s
    else s.putQuarter { x with queue := x.queue.filter fun r => !(r.tid == t.tid && r.acq) }

/-! ### Completion -/

/-- The results of a matrix operation are written, and an enabled flag faults late (R140). -/
def State.writeMat (s : State) (op : MatOp) : State :=
  let s := op.regs.foldl (fun s r => s.writeV op.sid op.depth r
    (op.writes.filterMap fun (k, x) => if k / 32 = r && !s.exitedLane op.sid (k % 32) then some (k % 32, x) else none)) s
  let s := s.orFlags op.sid op.flags
  if op.flags &&& op.enabled = 0 then s else s.lateFault op.sid .fpException op.pc 0 op.depth op.trap

/-- MATRIX_OP_COMPLETE (R142, R149, R150): the operation that a quarter runs ends. `bad1` and `bad2` say whether the check of
a checked operation fails in the first run and in the rerun. -/
def execMatrixOpComplete (core quarter : Nat) (bad1 bad2 : Bool) (s : State) : Out :=
  let x := s.quarter core quarter
  match x.run with
  | some op =>
    let pad := match s.troop? op.tid with | some t => t.pad | none => 0
    let rerun := op.chk && bad1
    let fails := rerun && bad2
    let s := s.putQuarter
      { x with run := none, count := if rerun && x.holder == some op.tid then x.count + op.units else x.count }
    let s := if fails then
        let s := s.countErr pad fun e => { e with chkFail := inc32 e.chkFail }
        if op.dead then s else s.lateFault op.sid .uncorrectableMemory op.pc 0 op.depth op.trap
      else
        s.writeMat op
    let s := if rerun && !fails then s.countErr pad fun e => { e with retried := inc32 e.retried } else s
    .next ((s.settleOverflow op.tid).settleQuarters core)
  | none => .next s

end Sys2Proof.Machine
end

