-- ==== Sys2Proof/Machine/Tile.lean ====
section
/-! DEFINITION. Nodes: what the elements of a cell are (R163, R92). -/

namespace Sys2Proof.Machine

/-! ### The value of a cell -/

/-- How a cell reads its inputs: bits and scale bytes by slot, and smoothing entries by k. -/
structure Inputs where
  bits : Nat → Nat → Nat → Nat
  scale : Nat → Bool → Nat → Nat → Nat
  smooth : Nat → Nat

/-- A computed cell: values, scale bytes, flags, and whether an index was out of range (R158). -/
structure CellRes where
  vals : List (Nat × Nat × Nat) := []
  scales : List (Nat × Nat × Nat) := []
  flags : Flags := 0
  bad : Bool := false

/-- FTZ of the node's FPC (R160). -/
def Node.ftz (x : Node) : Bool := x.fpc.getLsbD 0

/-- The flags whose trap the node's FPC enables. -/
def Node.enabled (x : Node) : Flags := x.fpc.extractLsb' 1 5

/-- One element of a multiply (R163, R88, R89). -/
def Node.mulElem (x : Node) (inp : Inputs) (fa fb : Ty) (fc : Option Ty) (kk i j : Nat) : Nat × Flags :=
  if x.out.isInt then
    let acc : Int := match fc with | some t => t.intVal (inp.bits 2 i j) | none => 0
    (wrapNat 32 (acc + ((List.range kk).map fun k => fa.intVal (inp.bits 0 i k) * fb.intVal (inp.bits 1 k j)).sum), 0)
  else
    let ps := (List.range kk).map fun k =>
      (matNum fa x.ftz (inp.bits 0 i k) (inp.scale 0 true i k), matNum fb x.ftz (inp.bits 1 k j) (inp.scale 1 false k j))
    let acc : Nat × Flags := match fc with
      | some .f32 => (inp.bits 2 i j, 0)
      | some .f64 => (inp.bits 2 i j, 0)
      | some t =>
        let c := t.decode x.ftz (inp.bits 2 i j)
        ((Ty.f32.encode .rne false c).1, c.sigFlag)
      | none => (0, 0)
    let (r, f) := floatAcc fa x.ftz acc.1 ps
    if x.out == .f32 || x.out == .f64 then (r, acc.2 ||| f)
    else
      let (y, g) := x.out.encode x.rm x.ftz (Ty.f32.decode x.ftz r)
      (y, acc.2 ||| f ||| g)

/-- One element of an element-wise operation (R163, R117). -/
def Node.ewElem (x : Node) (fa fb : Ty) (p q : Nat) : Nat × Flags :=
  if x.out.isInt then
    let a := fa.intVal p
    let b := fb.intVal q
    (x.out.reduce x.sat (match x.fn with | 0 => a + b | 1 => a - b | 2 => a * b | 3 => min a b | _ => max a b), 0)
  else
    let a := fa.decode x.ftz p
    let b := fb.decode x.ftz q
    fpRound x.out x.rm x.ftz (match x.fn with
      | 0 => a.add x.rm b | 1 => a.add x.rm b.negate | 2 => a.mul b
      | 3 => (a.min b, a.pairFlag b) | _ => (a.max b, a.pairFlag b))

/-- One step of a reduction in its working format (R92). -/
def Node.redStep (x : Node) (work : Ty) (r : FNum × Flags) (y : FNum) : FNum × Flags :=
  let (v, f) := fpRound work .rne x.ftz (match x.fn with
    | 0 => r.1.add .rne y | 1 => (r.1.min y, r.1.pairFlag y) | _ => (r.1.max y, r.1.pairFlag y))
  (work.decode x.ftz v, r.2 ||| f)

/-- One element of a reduction (R92). -/
def Node.redElem (x : Node) (fa : Ty) (ps : List Nat) : Nat × Flags :=
  if x.out.isInt then
    let vs := ps.map fa.intVal
    let r := match vs with
      | [] => 0
      | v :: vs => vs.foldl (fun r v => match x.fn with | 0 => r + v | 1 => min r v | _ => max r v) v
    (x.out.reduce x.sat r, 0)
  else
    match ps.map (fa.decode x.ftz) with
    | [] => (0, 0)
    | v :: vs =>
      let work := if x.out == .f64 then Ty.f64 else Ty.f32
      let (r, f) := vs.foldl (x.redStep work) (v, v.sigFlag)
      fpRound x.out x.rm x.ftz (r, f)

/-- One block of a quantisation (R163, R81, R82, R129): `ks` are its places along K. -/
def Node.quant (x : Node) (inp : Inputs) (fa : Ty) (ks : List (Nat × Nat × Nat)) : Nat × List Nat × Flags :=
  let ys : List (FNum × Flags) := ks.map fun (k, i, j) =>
    let v := fa.decode x.ftz (inp.bits 0 i j)
    if x.smen then
      let e := Ty.f32.decode x.ftz (inp.smooth k)
      if x.axis then
        let (b, f) := fpRound .f32 .rne x.ftz (v.mul e)
        (Ty.f32.decode x.ftz b, f)
      else smoothDiv x.ftz v e
    else (v, (0 : Flags))
  let (e, qs, f) := quantBlock x.out.width (ys.map (·.1))
  (e, qs, orAll (ys.map Prod.snd) ||| f)

/-- A cell of TQNT: block by block, the blocks that its elements lie in. -/
def Node.quantCell (x : Node) (inp : Inputs) (fa : Ty) (cell : Nat) : CellRes :=
  let I := x.cellRows cell
  let J := x.cellCols cell
  let rs := if x.axis then
      J.flatMap fun j => ((I.map (· / 32)).dedup).map fun b =>
        let ks := ((List.range 32).map (32 * b + ·)).filter (· < x.rows)
        let (e, qs, f) := x.quant inp fa (ks.map fun k => (k, k, j))
        ((ks.zip qs).filterMap (fun (e : Nat × Nat) => if I.contains e.1 then some (e.1, j, e.2) else none), (j, b, e), f)
    else
      I.flatMap fun i => ((J.map (· / 32)).dedup).map fun b =>
        let ks := ((List.range 32).map (32 * b + ·)).filter (· < x.cols)
        let (e, qs, f) := x.quant inp fa (ks.map fun k => (k, i, k))
        ((ks.zip qs).filterMap (fun (e : Nat × Nat) => if J.contains e.1 then some (i, e.1, e.2) else none), (i, b, e), f)
  { vals := rs.flatMap (·.1), scales := rs.map (·.2.1), flags := orAll (rs.map (·.2.2)) }

/-- A cell whose elements are computed one by one. -/
def Node.eachElem (x : Node) (cell : Nat) (f : Nat → Nat → Nat × Flags) : CellRes :=
  let rs := (x.cellRows cell).flatMap fun i => (x.cellCols cell).map fun j => (i, j, f i j)
  { vals := rs.map fun r => (r.1, r.2.1, r.2.2.1), flags := orAll (rs.map (·.2.2.2)) }

/-- The scale bytes of a moved TAP cell: those of the source's blocks, by place in the output. -/
def Node.movedScales (x : Node) (cell : Nat) (get : Nat → Nat → Nat) : List (Nat × Nat × Nat) :=
  if x.out.isTap then
    ((x.cellRows cell).flatMap fun i => (x.cellCols cell).map fun j =>
      if x.kcols then (i, j / 32, get i j) else (j, i / 32, get i j)).dedup
  else []

/-- The value of a cell (R163): `a`, `b`, `fc` are the shapes of its inputs. -/
def Node.compute (x : Node) (inp : Inputs) (a b : TDesc) (fc : Option Ty) (cell : Nat) : CellRes :=
  match x.op with
  | .mul => x.eachElem cell (x.mulElem inp a.fmt b.fmt fc a.cols)
  | .ew => x.eachElem cell fun i j =>
      x.ewElem a.fmt b.fmt (inp.bits 0 i j) (inp.bits 1 (if b.rows = 1 then 0 else i) (if b.cols = 1 then 0 else j))
  | .red => x.eachElem cell fun i j =>
      x.redElem a.fmt (if x.axis then (List.range a.cols).map (inp.bits 0 i) else (List.range a.rows).map fun r => inp.bits 0 r j)
  | .trn =>
    -- the input's K axis is the one fixed at append, whatever the input has become since (R174)
    { x.eachElem cell (fun i j => (inp.bits 0 j i, 0)) with
      scales := x.movedScales cell fun i j => inp.scale 0 (!x.kcols) j i }
  | .qnt => x.quantCell inp a.fmt cell
  | .gather =>
    let g := fun i => b.fmt.intVal (inp.bits 1 i 0)
    if (x.cellRows cell).any fun i => decide (g i < 0) || decide ((a.rows : Int) ≤ g i) then { bad := true }
    else
      { x.eachElem cell (fun i j => (inp.bits 0 (g i).toNat j, 0)) with
        scales := x.movedScales cell fun i j => inp.scale 0 true (g i).toNat j }

end Sys2Proof.Machine
end

