-- ==== Sys2Proof/Machine/Stable.lean ====
section
/-! DEFINITION. The stable at work: the faults of cells (R172), the cell store (R161) and the flags of forced cells (R172). -/

namespace Sys2Proof.Machine

/-! ### Faults of cells (R172) -/

/-- A cell is not computed: its demand ends, and so do those of the cells that need it, by an index already read among them,
which fault no second time. -/
def State.dropDemand : Nat → State → Nat → Nat → Nat → Nat → State
  | 0, s, _, _, _, _ => s
  | fuel + 1, s, core, n, cell, code =>
    let s := s.updNode core n fun x =>
      { x.fail code with demanded := x.demanded.filter (·.1 != cell), gathers := x.gathers.filter (·.1 != cell)
                         met := x.met.filter (·.1 != cell) }
    let users := (s.nodes.filter fun y => y.core == core && y.slots.any (·.names n)).flatMap fun y =>
      (y.demanded.filter fun d => (s.deps y d.1 []).contains (n, cell) || y.gathers.contains (d.1, n, cell)).map fun d =>
        (y.n, d.1)
    users.foldl (fun s u => State.dropDemand fuel s core u.1 u.2 3) s

/-- A fault met while computing a cell: recorded against the string of the forcing instruction, with the two PCs. -/
def State.failCell (s : State) (core n cell : Nat) (cause : Cause) (code : Nat) : State :=
  match s.node? core n with
  | none => s
  | some x =>
    let f? := (x.demanded.find? (·.1 == cell)).map (·.2)
    let s := s.dropDemand 257 core n cell code
    match f? with
    | some f => s.lateFault f.sid cause f.pc x.pc f.depth f.trap
    | none => s

/-! ### Flags of forced cells (R172) -/

/-- Flags wait until the forcing that raised them ends. -/
def State.pendFlag (s : State) (wait sid : Nat) (f : Flags) : State :=
  if f = 0 then s else { s with pendFlags := s.pendFlags ++ [(wait, sid, f)] }

/-- The forcing of an operation ends: its flags reach FPFLAGS. -/
def State.takeFlags (s : State) (wait : Nat) : State :=
  let mine := s.pendFlags.filter (·.1 == wait)
  mine.foldl (fun s e => s.orFlags e.2.1 e.2.2) { s with pendFlags := s.pendFlags.filter (·.1 != wait) }

/-- A checked multiply that its rerun mended is counted, and its node says so (R150). -/
def State.countRerun (s : State) (pad : Nat) : State := s.countErr pad fun e => { e with retried := inc32 e.retried }

/-- A cell that has been computed, whether it is kept or fails after it: its rerun and its flags (R83, R150, R172). -/
def State.cellRan (s : State) (pad : Nat) (x : Node) (f : Force) (rerun : Bool) (flags : Flags) : State :=
  (if rerun then (s.countRerun pad).updNode x.core x.n fun y => y.fail 1 else s).pendFlag f.wait f.sid flags

/-- A cell's request is refused at the rail. One that had been computed and waited for its room has raised its flags (R83, R161,
R172). -/
def State.refuseCell (s : State) (core n cell : Nat) (c : Cause) : State :=
  match s.node? core n with
  | none => s
  | some x =>
    let s := match x.met.find? (·.1 == cell), x.demanded.find? (·.1 == cell), s.troop? x.tid with
      | some m, some d, some t => s.cellRan t.pad x d.2 m.2.2 m.2.1
      | _, _, _ => s
    s.failCell core n cell c (statusOf c)

/-! ### The cell store (R161, R168) -/

/-- The places that a cell of a format takes. DESIGN CHOICE (log entry 157): two for every format of 64 bits; R161 names f64 and cf32
alone. -/
def cellUnits (t : Ty) : Nat := if t.width = 64 then 2 else 1

/-- The places that the cells of a node take. -/
def Node.unitsHeld (x : Node) : Nat := cellUnits x.out * (x.forced.filter fun c => !c.evicted).length

/-- The cells of a core's store that are in use, working cells among them (R161, R170). -/
def State.cellsUsed (s : State) (core : Nat) : Nat :=
  ((s.nodes.filter (·.core == core)).map (·.unitsHeld)).sum +
    (s.engs.flatMap fun e => (e.work.filter (·.core == core)).map (·.unitsHeld)).sum

/-- An allocation of the spill area upward from an aligned place, in units of 64 bytes (R168). -/
def Area.alloc (a : Area) (align bytes : Nat) : Option (Nat × Area) :=
  let at0 := a.base + a.used
  let start := (at0 + align - 1) / align * align
  let stop := start + (bytes + 63) / 64 * 64 - a.base
  if stop ≤ a.size then some (start, { a with used := stop }) else none

/-- The least recently used cell of a troop that the store holds, as node and cell. -/
def State.oldestCell (s : State) (core tid : Nat) : Option (Nat × Nat) :=
  let all := (s.nodes.filter fun x => x.core == core && x.tid == tid).flatMap fun x =>
    (x.forced.filter fun c => !c.evicted).map fun c => (c.used, x.n, c.cell)
  match all with
  | [] => none
  | c :: cs => some (cs.foldl (fun m e => if e.1 < m.1 then e else m) c).2

end Sys2Proof.Machine
end

