-- ==== Sys2Proof/Machine/Xlate.lean ====
section
/-! DEFINITION. Address translation (R356 to R360), the hitching rail with its notices (R362 to R367), invalidation (R368), and
the reading of a line for a string (R206). -/

namespace Sys2Proof.Machine

/-! ### Physical addresses (R358, R372, R381) -/

/-- The 64 KiB frame of a physical address holds a line of an excluded row (R443). -/
def frameOut (rows : List Nat) (pa : Nat) : Bool :=
  !rows.isEmpty && (List.range 1024).any fun i => rows.contains (rowKey (pa / 65536 * 1024 + i))

/-- The paddock's region that holds a physical address (R374). -/
def Paddock.regionOf (p : Paddock) (pa : Nat) : Option Region :=
  p.regions.find? fun r => decide (r.first ≤ pa / 2 ^ 30) && decide (pa / 2 ^ 30 < r.first + r.count)

/-- A paddock may reach a physical address: its own DRAM regions, but for their excluded frames, a peer of its mask, or host memory. -/
def Paddock.reaches (p : Paddock) (pa : Nat) : Bool :=
  if pa < 2 ^ 38 then decide (pa % 2 ^ 36 < 60 * 2 ^ 30) && (p.regionOf pa).isSome && !frameOut p.outRows pa
  else if 2 ^ 55 ≤ pa then decide (pa < 2 ^ 56)
  else match peerOf pa with
    | some n => p.peers.getLsbD n
    | none => false

/-- A physical address in a region that root marked secure. -/
def Paddock.securePa (p : Paddock) (pa : Nat) : Bool := match p.regionOf pa with | some r => r.secure | none => false

/-- What a peer answers to an access of a paddock, when it is not served: the loss of every link, or the refusal of a request that its
root pairs with no paddock, or that the regions there refuse (R381). -/
def State.peerSays (s : State) (p : Paddock) (pa : Nat) : Option Cause :=
  if pa < 2 ^ 38 then none
  else match peerOf pa with
    | none => none
    | some n =>
      if s.linkDown.contains n then some .uncorrectableMemory
      else match Config.peerAnswer n p.n (pa / 64) % 3 with
        | 0 => none
        | 1 => some .permission
        | _ => some .world

/-! ### The walk (R356 to R358) -/

/-- What a walk finds. -/
inductive Walk where
  | leaf (e : Dword) (lvl : Nat)
  | absent (lvl : Nat)
  | malformed
  /-- a table that cannot be read -/
  | refused (c : Cause)
  deriving DecidableEq, Repr

/-- The size of the page of a leaf at a level. -/
def pageSize (lvl : Nat) : Nat := 2 ^ (16 + 10 * (3 - lvl))

/-- A well-formed leaf (R357). -/
def leafOk (e : Dword) (lvl : Nat) : Bool :=
  bitsNat e 61 56 == 0 && bitsNat e 15 14 == 0 && decide (bitsNat e 9 7 ≤ 4) && decide (1 ≤ lvl) &&
    16 * 4096 * bitsNat e 55 16 % pageSize lvl == 0

/-- The walk from a table at a level, `fuel` levels left; a table in a peer that does not serve the read cannot be read (R381). -/
def State.walk : Nat → State → Paddock → Nat → Nat → Nat → State × Walk
  | 0, s, _, _, _, _ => (s, .malformed)
  | fuel + 1, s, p, table, va, lvl =>
    if !p.reaches table then (s, .malformed)
    else if let some c := s.peerSays p table then (s, .refused c)
    else
      match s.agentRead p.n (table + 8 * ((va >>> (46 - 10 * lvl)) % 1024)) 8 with
      | (s, none) => (s, .refused .uncorrectableMemory)
      | (s, some bs) =>
        let e : Dword := BitVec.ofNat 64 (natOfBytes bs)
        if !e.getLsbD 0 then (s, .absent lvl)
        else if e.getLsbD 1 then (s, if leafOk e lvl then .leaf e lvl else .malformed)
        else if bitsNat e 63 56 == 0 && bitsNat e 12 2 == 0 && decide (lvl < 3) then
          State.walk fuel s p (8192 * bitsNat e 55 13) va (lvl + 1)
        else (s, .malformed)

/-! ### Translation and its checks (R359) -/

inductive Xl where
  | ok (pa pol part : Nat)
  | absent (lvl : Nat)
  | refused (c : Cause)
  deriving DecidableEq, Repr

/-- The permissions that a kind of access needs. -/
def leafAllows (e : Dword) : AccessKind → Bool
  | .read => e.getLsbD 2
  | .write => e.getLsbD 3
  | .rmw => e.getLsbD 2 && e.getLsbD 3
  | .fetch => e.getLsbD 4
  | .prefetch => true

/-- The checks of R359 on a well-formed leaf, in their order. -/
def State.checkLeaf (s : State) (p : Paddock) (secure super : Bool) (kind : AccessKind) (e : Dword) (lvl va : Nat) : Xl :=
  let pa := 65536 * bitsNat e 55 16 + va % pageSize lvl
  if !p.reaches pa then .refused .permission
  else if !secure && (e.getLsbD 5 || p.securePa pa) then .refused .world
  else if secure && kind == .fetch && !e.getLsbD 5 then .refused .world
  else if !super && !e.getLsbD 6 then .refused .permission
  else if !leafAllows e kind then .refused .permission
  else match s.peerSays p pa with
    | some c => .refused c
    | none => .ok pa (bitsNat e 9 7) (bitsNat e 13 10)

/-- The root of a world (R356). -/
def Paddock.root (p : Paddock) (secure : Bool) : Nat :=
  8192 * bitsNat (if secure then p.sptRoot else p.ptRoot) 55 13

/-- A translation for a core, which may answer from its TLB, or for an agent, which walks. What lies past the last address is not
canonical (R181). -/
def State.translate (s : State) (core : Option Nat) (pad : Nat) (secure super : Bool) (kind : AccessKind) (va : Nat) :
    State × Xl :=
  if 2 ^ 56 ≤ va then (s, .refused .noncanonical)
  else match s.pad? pad with
  | none => (s, .refused .permission)
  | some p =>
    let hit := core.bind fun c => s.tlb.find? fun e =>
      e.core == c && e.pad == pad && e.secure == secure && decide (e.va ≤ va) && decide (va < e.va + e.size)
    match hit with
    | some e => (s, s.checkLeaf p secure super kind e.leaf e.lvl va)
    | none =>
      match s.walk 4 p (p.root secure) va 0 with
      | (s, .leaf e lvl) =>
        let s := match core with
          | some c => { s with tlb := { core := c, pad := pad, secure := secure, va := va / pageSize lvl * pageSize lvl
                                        size := pageSize lvl, leaf := e, lvl := lvl } :: s.tlb }
          | none => s
        (s, s.checkLeaf p secure super kind e lvl va)
      | (s, .absent lvl) => (s, .absent lvl)
      | (s, .malformed) => (s, .refused .permission)
      | (s, .refused c) => (s, .refused c)

/-! ### Notices (R362, R363) -/

/-- The next fault id of a die: it wraps past 0xFFFFFF to 1 and skips open ids. -/
def nextFid (used : List Nat) : Nat → Nat → Nat
  | 0, n => n
  | fuel + 1, n =>
    let n := if n = 0xFFFFFF then 1 else n + 1
    if used.contains n then nextFid used fuel n else n

/-- The device and the paddock that a notice for an address goes to. -/
def Paddock.homeOf (p : Paddock) (va : Nat) : Nat × Nat :=
  match p.owners.find? fun o => decide (o.base ≤ va) && decide (va < o.base + o.len * 2 ^ 26) with
  | some o => (o.home, o.homePad)
  | none => (0, p.n)

def kindBit : AccessKind → BitVec 4
  | .read | .prefetch => 1
  | .write => 2
  | .fetch => 4
  | .rmw => 8

/-- The request joins the open notice of its page, or creates one: its id. A notice whose entries a cut has taken is joined no
more (R367). -/
def State.joinNotice (s : State) (r : RailEnt) (lvl : Nat) : Nat × State :=
  let same := fun (n : Notice) => n.isOpen && !n.cut && n.src == 0 && n.die == r.die && n.pad == r.pad && n.secure == r.secure &&
    n.va / 65536 == r.va / 65536
  match s.notices.find? same with
  | some n => (n.fid, { s with notices := updFirst same (fun n => { n with kinds := n.kinds ||| kindBit r.kind }) s.notices })
  | none =>
    let used := (s.notices.filter fun n => n.isOpen && n.src == 0 && n.die == r.die).map (·.fid)
    let fid := nextFid used 6200 (Cells.get 0 s.fids r.die)
    let home := match s.pad? r.pad with | some p => p.homeOf r.va | none => (0, r.pad)
    (fid, { s with
      fids := Cells.set 0 s.fids r.die fid
      notices := s.notices ++ [{ die := r.die, fid := fid, pad := r.pad, secure := r.secure, super := r.super, va := r.va
                                 lvl := lvl, home := home.1, homePad := home.2, kinds := kindBit r.kind, posted := false
                                 isOpen := true }] })

/-! ### The rail (R362, R366) -/

/-- A free entry of the die for a paddock: false one of its pool, true a shared one. -/
def State.railRoom (s : State) (die pad : Nat) : Option Bool :=
  if (s.rail.filter fun e => e.die == die && e.pad == pad && !e.shared).length < 64 then some false
  else if (s.rail.filter fun e => e.die == die && e.shared).length < 2048 then some true
  else none

/-- What the requester of a hitched request keeps of it. -/
def State.markHitched (s : State) (r : RailEnt) (held : Bool) : State :=
  match r.who with
  | .acc id line => s.updAcc id fun a => { a with lines := updAt (fun (l : LineReq) => { l with st := if held then .held else .railed r.id })
                                                    a.lines line }
  | .eng id item => s.updEng id fun e => { e with railed := (item, r.id) :: e.railed.filter (·.1 != item) }
  | _ => s

/-- A request that meets a not-present page takes an entry of the rail, or is held by its core, which joins the die's list of
waiting cores. -/
def State.hitch (s : State) (r : RailEnt) (lvl : Nat) : State :=
  match s.railRoom r.die r.pad with
  | some shared =>
    let (fid, s) := s.joinNotice r lvl
    let e : RailEnt := { r with fid := fid, shared := shared }
    ({ s with rail := s.rail ++ [e] }).markHitched r false
  | none =>
    let h : HeldReq := { core := r.core, ent := r }
    ({ s with heldReqs := s.heldReqs ++ [h]
              railWait := if s.railWait.contains r.core then s.railWait else s.railWait ++ [r.core] }).markHitched r true

/-- The late fault of a string whose fetch is refused is precise: its lanes leave the rail and fetch again, and the next fetch
at that address raises the cause (R360). -/
def State.fetchAnswered (s : State) (id sid : Nat) (c : Option Cause) : State :=
  s.updStr sid fun z =>
    let at? := (z.lanes.find? fun l => l.park == .fetch id).map fun l => (l.pc, l.trap)
    { z.unpark (· == .fetch id) with
      fetchFaults := match c, at? with
        | some c, some (pc, trap) => z.fetchFaults ++ [(pc, trap, c)]
        | _, _ => z.fetchFaults }

/-- A line of an access is answered with a fault. -/
def Access.refuse (a : Access) (line : Nat) (c : Cause) : Access :=
  { a with lines := updAt (fun (l : LineReq) => { l with st := .refused c }) a.lines line
           fault := if a.fault.isSome then a.fault else some c }

/-- The groups of four elements of an LDTS. -/
def EngOp.groups (e : EngOp) : Nat := e.rows * e.cols / 4

/-- A line of a copy's item is refused: the item has failed, with the flags that its conversion has raised (R280), or, of a group of
four elements, those of its elements that the line holds (R284). -/
def EngOp.refuse (e : EngOp) (item line : Nat) (c : Cause) : EngOp :=
  let e := { e with railed := e.railed.filter (·.1 != item), fault := if e.fault.isSome then e.fault else some c }
  if e.kind == .ldts && decide (item < e.groups) then { e with lost := (item, line) :: e.lost }
  else { e with done := item :: e.done
                flags := match (e.met.find? (·.item == item)).bind (·.ran) with
                  | some x => e.flags ||| x.1
                  | none => e.flags }

/-- A request for a line is answered: with its physical line, or with a fault. A refused request of a tile operation waits for the item,
which records it with its node (R172). -/
def State.answer (s : State) (who : ReqWho) (va : Nat) (res : Xl) : State :=
  match who, res with
  | .acc id line, .ok pa pol part =>
    s.updAcc id fun a => { a with lines := updAt (fun (l : LineReq) => { l with st := .ready (pa / 64) pol part }) a.lines line }
  | .acc id line, .refused c =>
    s.updAcc id (·.refuse line c)
  | .eng id item, .ok .. => s.updEng id fun e => { e with railed := e.railed.filter (·.1 != item) }
  | .eng id item, .refused c =>
    match s.eng? id with
    | some e =>
      if e.kind.cls = 1 then
        { s.updEng id fun e => { e with railed := e.railed.filter (·.1 != item) } with
          refusals := s.refusals ++ [(.eng id item, c)] }
      else
        s.updEng id (·.refuse item (va / 64) c)
    | none => s
  | .fetch id sid, .ok .. => s.fetchAnswered id sid none
  | .fetch id sid, .refused c => s.fetchAnswered id sid (some c)
  | .cell core n cell, .refused c => (s.refuseCell core n cell c).freeNodes
  | who, .refused c => { s with refusals := s.refusals ++ [(who, c)] }
  | _, _ => s

/-- A request walks: it is answered, or hitched. -/
def State.present (s : State) (r : RailEnt) : State :=
  match s.translate (some r.core) r.pad r.secure r.super r.kind r.va with
  | (s, .absent lvl) => s.hitch r lvl
  | (s, res) => s.answer r.who r.va res

/-- A line request waits at the rail, or is held by its core. -/
def LineSt.hitched : LineSt → Bool
  | .held | .railed _ => true
  | _ => false

/-- The hitched lines of earlier accesses of a string to the line of a request (R362). -/
def State.hitchedBefore (s : State) (r : RailEnt) : List LineSt :=
  match r.who with
  | .acc id _ => (s.accs.filter fun b => b.sid == r.sid && decide (b.id < id)).flatMap fun b =>
      (b.lines.filter fun x => x.va / 64 == r.va / 64 && x.st.hitched).map (·.st)
  | _ => []

/-- A request is presented; behind a hitched access of its string to the same line it joins that one's id with no walk of its
own (R362). -/
def State.submit (s : State) (r : RailEnt) : State := if s.hitchedBefore r = [] then s.present r else s.hitch r 0

/-- Freed entries go to the waiting cores in the order of their first refusal: each resubmits its oldest held request, and
leaves the list with its last one (R366). A halted core sends nothing but what a rollback of its troop asks for (R304, R419). -/
def State.grantHeld : Nat → State → State
  | 0, s => s
  | fuel + 1, s =>
    let sends := fun (h : HeldReq) => !s.haltedCore h.core || match s.troop? h.ent.tid with
      | some t => t.failing.isSome
      | none => false
    let next := fun (core : Nat) => (s.heldReqs.find? (·.core == core)).filter fun h =>
      sends h && (s.railRoom h.ent.die h.ent.pad).isSome
    match s.railWait.findSome? next with
    | some h =>
      let rest := s.heldReqs.erase h
      State.grantHeld fuel ({ s with
        heldReqs := rest
        railWait := if rest.any (·.core == h.core) then s.railWait else s.railWait.filter (· != h.core) }.submit h.ent)
    | none => s

/-- The waiting cores take what entries are free. A core with nothing held waits no more. -/
def State.grant (s : State) : State :=
  { s with railWait := s.railWait.filter fun c => s.heldReqs.any (·.core == c) }.grantHeld s.heldReqs.length

/-- A resolution acts on the entries of its id in the order of their arrival (R365); one that names no open notice is ignored.
`named` picks the notice. -/
def State.resolveOwn (s : State) (named : Notice → Bool) (out : Option Cause) : State :=
  match s.notices.find? fun n => n.isOpen && n.src == 0 && named n with
  | none => s
  | some n =>
    let mine := fun (e : RailEnt) => e.die == n.die && e.fid == n.fid
    let s1 := { s with notices := s.notices.erase n, rail := s.rail.filter fun e => !mine e }
    ((s.rail.filter mine).foldl (fun s e => match out with
      | none => s.present e
      | some c => s.answer e.who e.va (.refused c)) s1).grant

/-- FRESOLVE by a paddock of this device (R361, R364): it closes the notice that device, die and id name and that came to this
paddock, a peer's by sending the resolution to it. -/
def State.resolve (s : State) (pad dev die fid : Nat) (out : Option Cause) : State :=
  let named := fun (n : Notice) => n.die == die && n.fid == fid && n.homePad == pad && n.home == 0
  if fid = 0 then s
  else if dev = 0 then s.resolveOwn named out
  else
    match s.notices.find? fun n => n.isOpen && n.src == dev && named n with
    | some n => { s with notices := s.notices.erase n, answers := s.answers ++ [.resolution dev die fid out] }
    | none => s

/-- A peer, the home of one of this device's notices, forwards its resolution (R364). -/
def State.peerResolve (s : State) (die fid : Nat) (out : Option Cause) : State :=
  s.resolveOwn (fun n => n.die == die && n.fid == fid && n.home != 0) out

/-- A peer's notice for an address whose home is this device is received, once (R364). -/
def State.peerNotice (s : State) (n : Notice) : State :=
  if n.src = 0 || n.fid = 0 || s.notices.any fun m => m.src == n.src && m.die == n.die && m.fid == n.fid then s
  else { s with notices := s.notices ++ [{ n with home := 0, posted := false, isOpen := true, cut := false }] }

/-! ### Invalidation (R368) -/

/-- Translations of a paddock that overlap a range of pages are removed; no pages means all. -/
def State.dropTlb (s : State) (pad first cnt : Nat) : State :=
  { s with tlb := s.tlb.filter fun e => !(e.pad == pad && (cnt == 0 ||
      (decide (e.va < (first + cnt) * 65536) && decide (first * 65536 < e.va + e.size)))) }

def State.startInval (s : State) (pad first cnt : Nat) (op : Option Nat) : State :=
  (s.dropTlb pad first cnt).updPad pad fun p => { p with inval := some { first := first, cnt := cnt, before := s.nextId, op := op } }

/-- Every request translated before the start has been answered, has entered a buffer, or has been taken by the memory unit. -/
def State.invalDone (s : State) (pad : Nat) (v : Inval) : Bool :=
  s.inbound.all (fun x => x.pad != pad || decide (v.before ≤ x.id)) && s.accs.all fun a => decide (v.before ≤ a.id) || (match s.str? a.sid with
      | some z => (match s.troop? z.tid with | some t => t.pad != pad | none => true)
      | none => true) ||
    a.lines.all fun l => match l.st with | .ready .. => false | _ => true

/-- An invalidation completes: what walks have cached since its start goes too (R368). -/
def State.endInval (s : State) (pad : Nat) (v : Inval) : State :=
  (s.dropTlb pad v.first v.cnt).updPad pad fun p => { p with inval := none }

/-! ### Reading a line for a string (R206) -/

/-- What reading a line gives: its bytes, a wait, or uncorrectable data. -/
inductive LineRes where
  | wait
  | bad
  | ok (d : BitVec 512)
  deriving DecidableEq, Repr

/-- The bytes of a line as a string's load finds them over what its path gave. -/
def State.assemble (s : State) (sid : Nat) (t : Troop) (lane : Option Nat) (line : Nat) (mask : Dword) (d : BitVec 512)
    (fresh : Nat := 0) : BitVec 512 :=
  (maskBytes mask).foldl (fun x i =>
    match s.bufferedByte sid t (64 * line + i) with
    | some b => lineSet x i b
    | none => match s.forwarded sid lane line i fresh with
      | some b => lineSet x i b
      | none => x) d

/-- A line is read: at its home when it lies in an open commutative range (R226), else along the core's path. -/
def State.lineData (s : State) (t : Troop) (va line pol part fresh : Nat) : State × Option (BitVec 512) :=
  match s.inOpenRange t (va / 64 * 64) 64 with
  | some r => s.gather r line pol part
  | none => s.pathRead t.pad t.core line pol part fresh

/-- Every byte of a mask waits in a buffer that the lane reads, or on its way from one. -/
def State.coversLine (s : State) (sid : Nat) (t : Troop) (lane : Option Nat) (line : Nat) (mask : Dword) (fresh : Nat) : Bool :=
  (maskBytes mask).all fun i => (s.bufferedByte sid t (64 * line + i)).isSome || (s.forwarded sid lane line i fresh).isSome

/-- A line that reads of a string need: it is not read when buffers hold every byte of each of them (R206). -/
def State.neededLine (s : State) (sid : Nat) (t : Troop) (reads : List (Option Nat × Dword)) (va line pol part fresh : Nat) :
    State × Option (BitVec 512) :=
  if (s.inOpenRange t (va / 64 * 64) 64).isNone && reads.all fun r => s.coversLine sid t r.1 line r.2 fresh then (s, some 0)
  else s.lineData t va line pol part fresh

/-- The bytes of a translated line for a lane of a string, or for one of its engines. -/
def State.readLine (s : State) (sid : Nat) (t : Troop) (lane : Option Nat) (va line pol part fresh : Nat) (mask : Dword) :
    State × LineRes :=
  if s.readWaits sid lane t.core line mask then (s, .wait)
  else
    match s.neededLine sid t [(lane, mask)] va line pol part fresh with
    | (s, some d) => (s, .ok (s.assemble sid t lane line mask d fresh))
    | (s, none) => (s, .bad)

/-- A request record for an access of a string. -/
def railFor (t : Troop) (sid depth : Nat) (super : Bool) (kind : AccessKind) (va id : Nat) (who : ReqWho) : RailEnt :=
  { id := id, die := dieOf t.core, core := t.core, pad := t.pad, secure := t.secure, super := super, va := va / 64 * 64
    kind := kind, who := who, sid := sid, tid := t.tid, depth := depth, fid := 0, shared := false }

/-- What an engine or a tile read of a line gives. -/
inductive ReadRes where
  | wait
  | absent (lvl : Nat)
  | refused (c : Cause)
  | ok (d : BitVec 512)
  deriving DecidableEq, Repr

/-- Translates and reads the line of an address for an engine of a string, at the moment it is read (R207, R248). `kind` is what the
page must allow: a byte of which a store keeps some bits is read under the store's own permission (R359). -/
def State.readVirt (s : State) (sid : Nat) (t : Troop) (super : Bool) (va fresh : Nat) (mask : Dword)
    (kind : AccessKind := .read) : State × ReadRes :=
  match s.translate (some t.core) t.pad t.secure super kind va with
  | (s, .ok pa pol part) =>
    match s.readLine sid t none va (pa / 64) pol part fresh mask with
    | (s, .ok d) => (s, .ok d)
    | (s, .wait) => (s, .wait)
    | (s, .bad) => (s, .refused .uncorrectableMemory)
  | (s, .absent lvl) => (s, .absent lvl)
  | (s, .refused c) => (s, .refused c)

/-- Translates and reads the line of an address of a spill area, at die level with no buffer and no L1 consulted (R168, R207). -/
def State.readSpill (s : State) (t : Troop) (super : Bool) (va : Nat) : State × ReadRes :=
  match s.translate (some t.core) t.pad t.secure super .read va with
  | (s, .ok pa pol part) =>
    match s.dieLine t.pad (dieOf t.core) (pa / 64) pol part with
    | (s, some d) => (s, .ok d)
    | (s, none) => (s, .refused .uncorrectableMemory)
  | (s, .absent lvl) => (s, .absent lvl)
  | (s, .refused c) => (s, .refused c)

/-! ### Agents (R456) -/

/-- What an agent's access gives: a page that is not present at an address, a refusal, or the bytes read. -/
inductive AgentRes where
  | absent (va lvl : Nat)
  | refused (c : Cause)
  | ok (bs : List Byte)
  deriving DecidableEq, Repr

/-- An agent's read of `n` bytes at virtual addresses, line by line (R456). -/
def State.agentLines : Nat → State → Nat → Bool → Bool → Nat → Nat → State × AgentRes
  | 0, s, _, _, _, _, _ => (s, .ok [])
  | fuel + 1, s, pad, secure, super, va, n =>
    if n = 0 then (s, .ok [])
    else
      let k := min n (64 - va % 64)
      match s.translate none pad secure super .read va with
      | (s, .ok pa pol part) =>
        match s.agentReadAs pad pol part pa k with
        | (s, some bs) =>
          match State.agentLines fuel s pad secure super (va + k) (n - k) with
          | (s, .ok rest) => (s, .ok (bs ++ rest))
          | r => r
        | (s, none) => (s, .refused .uncorrectableMemory)
      | (s, .absent lvl) => (s, .absent va lvl)
      | (s, .refused c) => (s, .refused c)

def State.agentLoad (s : State) (pad : Nat) (secure super : Bool) (va n : Nat) : State × AgentRes :=
  s.agentLines (n / 64 + 2) pad secure super va n

/-- An agent's write of bytes at a virtual address, within one line. -/
def State.agentStore (s : State) (pad : Nat) (secure super : Bool) (va : Nat) (bs : List Byte) : State × AgentRes :=
  match s.translate none pad secure super .write va with
  | (s, .ok pa pol part) => match s.agentWriteOk pad pol part pa bs with
    | (s, true) => (s, .ok [])
    | (s, false) => (s, .refused .uncorrectableMemory)
  | (s, .absent lvl) => (s, .absent va lvl)
  | (s, .refused c) => (s, .refused c)

end Sys2Proof.Machine
end

