-- ==== Sys2Proof/Machine/Control.lean ====
section
/-! DEFINITION. Control flow, predicate blocks, deliberate traps and special registers (R30 to R33, R46, R311 to R321, R395,
R396, R400). -/

namespace Sys2Proof.Machine

/-! ### Branches (R46, R311) -/

/-- The target of a branch at `pc` (R46); none when it breaks the rule. -/
def branchTarget (pc : Addr) (off : Int) : Option Addr :=
  let t : Int := pc.toNat + 4 * off
  if 0 ≤ t && t ≤ 2 ^ 56 - 4 then some (BitVec.ofNat 56 t.toNat) else none

/-- The lanes of a mask move to a PC. -/
def State.moveLanes (s : State) (sid : Nat) (m : Mask) (pc : Addr) : State :=
  s.updStr sid fun z => z.mapLanes m fun l => { l with pc := pc }

/-- What R16 makes of the preferred PC is fixed by the instruction. -/
def State.setSplit (s : State) (p : Option Addr) : State :=
  { s with cur := s.cur.map fun c => { c with split := some p } }

/-- UNF_DIV rises by one and saturates (R18). -/
def Str.countUnf (z : Str) : Str :=
  { z with strctl := (z.strctl &&& 0xFFFF#32) ||| (BitVec.ofNat 32 (min 0xFFFF (bitsNat z.strctl 31 16 + 1)) <<< 16) }

/-- BRA: each participant lane takes the branch or falls through (R311), with its hint (R16, R18). -/
def State.branch (s : State) (c : Cur) (z : Str) (cond pinv : Bool) (psel : BitVec 3) (hint : Hint) (off : Int) : State :=
  let taken := maskOf (c.lanes.filter fun l => !cond || (z.preg psel.toNat l != pinv))
  let split := taken != 0 && taken != c.parts
  if taken = 0 then s
  else
    match branchTarget c.pc off with
    | none => s.raise c .noncanonical
    | some t =>
      let s := s.moveLanes c.sid taken t
      if !split then s
      else match hint with
        | .lk => s.setSplit (some t)
        | .unl => s.setSplit (some c.next)
        | .unf => s.updStr c.sid Str.countUnf
        | .none => s

def execBra (o : BranchOps) (s : State) : Out :=
  s.issue (.bra o) noCheck fun c z _ => s.branch c z o.cond o.pinv o.psel o.hint o.off.toInt

def execBraLong (o : BranchLongOps) (s : State) : Out :=
  s.issue (.braLong o) noCheck fun c z _ => s.branch c z o.cond o.pinv o.psel o.hint o.off.toInt

/-- JMPI and RET: every participant lane goes to its own target (R312). -/
def State.jump (s : State) (c : Cur) (z : Str) (o : Operands) : State :=
  let ts := c.lanes.map fun l => (l, z.vpair o.a.toNat l)
  if ts.any fun t => !canonical t.2 then s.raise c .noncanonical
  else if ts.any fun t => t.2.toNat % 4 != 0 then s.raise c .misaligned
  else ts.foldl (fun s t => s.moveLanes c.sid (maskOf [t.1]) (addr56 t.2)) s

def execJmpi (o : Operands) (s : State) : Out := s.issue (.jmpi o) noCheck fun c z _ => s.jump c z o

def execRet (o : Operands) (s : State) : Out := s.issue (.ret o) noCheck fun c z _ => s.jump c z o

/-- CALL (R313). -/
def execCall (o : Operands) (s : State) : Out :=
  s.issue (.call o) noCheck fun c _ t =>
    if c.parts = 0 then s
    else
      match branchTarget c.pc (if o.len.hasLit then o.lit.toInt else o.imm.toInt) with
      | none => s.raise c .noncanonical
      | some p =>
        (s.writeVal c.sid t.depth .b64 o.d.toNat (c.lanes.map fun l => (l, (dwordOf c.next).toNat))).moveLanes c.sid c.parts p

/-! ### Predicate blocks, yield, no-op -/

/-- PBLK (R315); in trap mode block progress is held unchanged (R316). -/
def execPblk (o : BlockOps) (s : State) : Out :=
  s.issue (.pblk o) noCheck fun c z _ =>
    if c.trap then s
    else
      c.lanes.foldl (fun s l => s.updStr c.sid fun y => y.mapLanes (maskOf [l]) fun x =>
        { x with block := some { bit := z.preg o.psel.toNat l, pattern := o.pattern, cnt := o.cnt.toNat + 1, pos := 0 } }) s

/-- NOP (R318). -/
def execNop (o : Operands) (s : State) : Out := s.issue (.nop o) noCheck fun _ _ _ => s

/-- YLD (R317): its lanes are marked yielded and the preferred PC is cleared. -/
def execYld (o : Operands) (s : State) : Out :=
  s.issue (.yld o) noCheck fun c _ _ =>
    (s.updStr c.sid fun z => z.mapLanes c.bundle fun l => { l with yielded := true }).setSplit none

/-! ### Deliberate traps and the return (R396, R319, R395) -/

def execTrap (o : ImmOps) (s : State) : Out := s.issue (.trap o) noCheck fun c _ _ => s.raise c .trapInstr

def execBkpt (o : ImmOps) (s : State) : Out := s.issue (.bkpt o) noCheck fun c _ _ => s.raise c .trapInstr

def execScall (o : ImmOps) (s : State) : Out := s.issue (.scall o) noCheck fun c _ _ => s.raise c .trapInstr

/-- TRET: illegal outside trap mode (R393). -/
def execTret (o : Operands) (s : State) : Out :=
  s.issue (.tret o) (fun c _ _ => c.trap) fun c _ _ => s.trapReturn c.sid c.bundle

/-- ILLEGAL_INSTRUCTION (R58): the fetched words decode to no instruction, and the bundle traps. -/
def execIllegalInstruction (s : State) : Out :=
  match s.cur with
  | some c => .next (s.raise c .illegalInstruction)
  | none => .next s

/-- LATE_FAULT_DELIVER (R390, R391): the oldest late fault of the issuing string goes to the chosen group, whose instruction
does not issue. -/
def execLateFaultDeliver (s : State) : Out :=
  match s.cur with
  | none => .next s
  | some c =>
    match s.str? c.sid with
    | none => .next s
    | some z =>
      match z.lateq with
      | [] => .next s
      | f :: rest =>
        if z.lanes.any (·.trap) then .next s
        else
          let s := s.updStr c.sid fun z => { z with lateq := rest }
          .next (s.route z f.cause f.depth f.pc f.nodePc c.pc c.bundle)

/-! ### Special registers (R30, R320, R321) -/

/-- RCVSTAT (R425). -/
def rcvStat (z : Str) (t : Troop) : Nat :=
  let b := t.blocks.getLast?
  t.conflicts * 2 ^ 16 + z.fcause * 2 ^ 8 + z.fkind * 2 ^ 5 +
    (match b with | some b => (if b.inTest then 16 else 0) + 2 * b.alt | none => 0) + if z.aborted then 1 else 0

/-- The coordinates of a troop in its grid (R24). -/
def State.coords (s : State) (t : Troop) : Nat × Nat × Nat :=
  match s.launchOf t with
  | some l =>
    let x := max 1 l.gridX
    let y := max 1 l.gridY
    (t.linear % x, t.linear / x % y, t.linear / x / y)
  | none => (0, 0, 0)

/-- CORE_CYCLES of a core (R30). -/
def State.coreCycles (s : State) (core : Nat) : Nat := s.clock - Cells.get 0 s.coreBase core

/-- The value of a special register of string scope (R30). -/
def State.special (s : State) (c : Cur) (z : Str) (t : Troop) (n : Nat) : Dword :=
  let l := s.launchOf t
  let dim := fun (f : Launch → Nat) => BitVec.ofNat 64 (max 1 ((l.map f).getD 1))
  match n with
  | 0x01 => BitVec.ofNat 64 z.idx
  | 0x02 => BitVec.ofNat 64 (s.coords t).1
  | 0x03 => BitVec.ofNat 64 (s.coords t).2.1
  | 0x04 => BitVec.ofNat 64 (s.coords t).2.2
  | 0x05 => dim Launch.gridX
  | 0x06 => dim Launch.gridY
  | 0x07 => dim Launch.gridZ
  | 0x08 => BitVec.ofNat 64 (if t.prod = 0 then 1 else t.role z.idx)
  | 0x09 => BitVec.ofNat 64 z.core
  | 0x0A => BitVec.ofNat 64 (clusterOf z.core)
  | 0x0B => BitVec.ofNat 64 (dieOf z.core)
  | 0x0C => BitVec.ofNat 64 z.slice
  | 0x10 => z.fpctl.setWidth 64
  | 0x11 => z.fpflags.setWidth 64
  | 0x12 => z.strctl.setWidth 64
  | 0x13 => c.bundle.setWidth 64
  | 0x14 => BitVec.ofNat 64 t.depth
  | 0x15 => BitVec.ofNat 64 (rcvStat z t)
  | 0x16 => BitVec.ofNat 64 (s.coreCycles z.core)
  | 0x18 => z.trapBase
  | 0x19 => z.trapCause.setWidth 64
  | 0x1A => z.trapPc
  | 0x1B => z.trapNodePc
  | _ => 0

/-- A matrix operation of the string has not returned its flags (R131). -/
def State.matPending (s : State) (sid : Nat) : Bool :=
  s.matOps.any (·.sid == sid) || s.pendJ.any (·.sid == sid)

/-- An access to FPFLAGS waits for the flags of earlier instructions (R131). -/
def State.flagsWait (s : State) (sid n : Nat) : Bool := n == 0x11 && s.matPending sid

/-- SREAD (R320). -/
def State.sread (s : State) (c : Cur) (z : Str) (t : Troop) (o : Operands) : State :=
  let n := o.fn.toNat
  if c.parts = 0 then s
  else if s.flagsWait z.sid n then s.hold
  else if o.spec then s.putScalar c z o.d (s.special c z t n)
  else
    let ty : Ty := match specialReg n with | some (_, 64, _) => .b64 | _ => .b32
    s.putLanes c z ty o.d fun l => if n = 0 then l else (s.special c z t n).toNat

def execSread (o : Operands) (s : State) : Out := s.issue (.sread o) noCheck fun c z t => s.sread c z t o

def execSreadExt (o : Operands) (s : State) : Out := s.issue (.sreadExt o) noCheck fun c z t => s.sread c z t o

/-- What a write of STRCTL stores (R31). -/
def strctlWrite (old x : Word) : Word :=
  let keep := (x &&& 0xFFFF0050#32) ||| (old &&& 0x20#32)
  keep ||| (if x &&& 15#32 = 0 then 11#32 else x &&& 15#32)

/-- A special register and its prior value in the saddlebag (R321, R421). -/
def State.recordSpecial (s : State) (sid d : Nat) (n : Nat) : State :=
  match n with
  | 0x10 => s.record sid d .fpctl fun z => [z.fpctl.toNat]
  | 0x12 => s.record sid d .strctl fun z => [z.strctl.toNat]
  | 0x18 => s.record sid d .trapBase fun z => [z.trapBase.toNat]
  | _ => s

/-- A write of a special register (R31 to R33, R321, R400). -/
def State.putSpecial (s : State) (c : Cur) (t : Troop) (n : Nat) (x : Dword) : State :=
  let w : Word := x.setWidth 32
  let s := s.recordSpecial c.sid t.depth n
  match n with
  | 0x10 => s.updStr c.sid fun z => { z with fpctl := w &&& 0x3F#32 }
  | 0x11 => s.updStr c.sid fun z => { z with fpflags := w &&& 0x1F#32 }
  | 0x12 =>
    s.updStr c.sid fun z =>
      { z with
        strctl := strctlWrite z.strctl w
        lanes := if w.getLsbD 4 then z.lanes else z.lanes.map fun l => { l with wait := 0 } }
  | 0x18 =>
    let s := s.updStr c.sid fun z => { z with trapBase := x }
    if t.super && !c.trap then s.updPad t.pad fun p => { p with trapBase := x } else s
  | _ => s

/-- SWRITE (R321, R400): its source is the lowest participant's, or a scalar register. -/
def State.swrite (s : State) (c : Cur) (z : Str) (t : Troop) (o : Operands) : State :=
  let n := o.fn.toNat
  match c.lanes with
  | [] => s
  | l :: _ =>
    let wide : Bool := match specialReg n with | some (_, 64, _) => true | _ => false
    let x := if o.spec then z.sreg o.a.toNat
      else if wide then z.vpair o.a.toNat l else (z.vreg o.a.toNat l).setWidth 64
    if n = 0x18 && !State.isSuper t c.trap then s.raise c .privileged
    else if n = 0x18 && !canonical x then s.raise c .noncanonical
    else if n = 0x18 && x.toNat % 4 != 0 then s.raise c .misaligned
    else if s.flagsWait z.sid n then s.hold
    else s.putSpecial c t n x

def execSwrite (o : Operands) (s : State) : Out := s.issue (.swrite o) noCheck fun c z t => s.swrite c z t o

def execSwriteExt (o : Operands) (s : State) : Out := s.issue (.swriteExt o) noCheck fun c z t => s.swrite c z t o

end Sys2Proof.Machine
end

