-- ==== Sys2Proof/Decode.lean ====
section
/-! DEFINITION. The decoder, total on any bytes, and the encoder. A word sequence whose opcode, FN, LEN, TYPE, LEVEL or
reserved bits name no instruction is rejected by name here (R42, R44 to R48, R53, R57, R58); the checks on what the fields
of an assigned instruction hold are those of `Instr.wf`, made at issue. -/

namespace Sys2Proof

/-- Why words decode to no instruction (R58). -/
inductive DecodeError where
  /-- fewer bytes than the instruction's words -/
  | short
  /-- an OPC in 0x29–0x2F, 0x4D–0x4F or 0x6E–0x6F -/
  | reservedOpcode
  /-- an FN not assigned to the opcode -/
  | unassignedFn
  /-- a LEN the opcode does not permit -/
  | badLength
  /-- a TYPE of 0x15–0x1F -/
  | badType
  /-- a LEVEL of 6 or 7 -/
  | badLevel
  /-- a nonzero reserved bit of form BB or BP -/
  | reservedBits
  deriving DecidableEq, Repr

/-- The word at the front of a list of bytes, little-endian (R5). -/
def takeWord : List Byte → Option (Word × List Byte)
  | b0 :: b1 :: b2 :: b3 :: rest => some (b3 ++ b2 ++ b1 ++ b0, rest)
  | _ => none

/-- The bytes of a word, little-endian (R5). -/
def wordBytes (w : Word) : List Byte :=
  [w.extractLsb' 0 8, w.extractLsb' 8 8, w.extractLsb' 16 8, w.extractLsb' 24 8]

/-- The `n` words at the front of a list of bytes. -/
def takeWords : Nat → List Byte → Option (List Word × List Byte)
  | 0, bs => some ([], bs)
  | n + 1, bs =>
    match takeWord bs with
    | some (w, rest) =>
      match takeWords n rest with
      | some (ws, rest') => some (w :: ws, rest')
      | none => none
    | none => none

/-- LEN, bits [1:0] of word 0 (R41). -/
def lenOf (w0 : Word) : Len := Len.ofCode (w0.extractLsb' 0 2).toNat
/-- OPC, bits [9:3] of word 0 (R41). -/
def opcOf (w0 : Word) : Nat := (w0.extractLsb' 3 7).toNat
/-- SETTLE, bit 2 of word 0 (R41). -/
def settleOf (w0 : Word) : Bool := w0.getLsbD 2
/-- FN, bits [31:26] of word 0 (R44). -/
def fnOf (w0 : Word) : BitVec 6 := w0.extractLsb' 26 6

/-- The instruction of form BA that an opcode, an FN and a LEN select (R57), or why there is none. -/
def pickOp (opc fn : Nat) (len : Len) : Except DecodeError Op :=
  match Op.all.find? (fun op => op.row.opc == opc && op.row.fns.contains fn && op.row.lens.contains len) with
  | some op => .ok op
  | none =>
    if Op.all.any (fun op => op.row.opc == opc && op.row.fns.contains fn) then .error .badLength
    else if Op.all.any (fun op => op.row.opc == opc) then .error .unassignedFn
    else .error .reservedOpcode

/-- The operands of the short lengths (R44, R49). -/
def shortOperands (w0 : Word) (len : Len) (dflt : Ty) (lit : Dword) : Operands :=
  { len := len, settle := settleOf w0, fn := fnOf w0, d := w0.extractLsb' 10 8, a := w0.extractLsb' 18 8, b := 0, c := 0
    ty := dflt, rm := .rne, sat := false, nega := false, negb := false, negc := false, absa := false, spec := false
    level := .str, imm := 0, lit := lit }

/-- The operands of the extended form (R44, R48). -/
def extOperands (w0 w1 w2 : Word) (len : Len) (lit : Dword) : Except DecodeError Operands :=
  match Ty.ofCode (w1.extractLsb' 16 5).toNat, Level.ofCode (w1.extractLsb' 28 3).toNat with
  | some ty, some level =>
    .ok { len := len, settle := settleOf w0, fn := fnOf w0, d := w0.extractLsb' 10 8, a := w0.extractLsb' 18 8
          b := w1.extractLsb' 0 8, c := w1.extractLsb' 8 8, ty := ty, rm := Rm.ofCode (w1.extractLsb' 21 2).toNat
          sat := w1.getLsbD 23, nega := w1.getLsbD 24, negb := w1.getLsbD 25, negc := w1.getLsbD 26, absa := w1.getLsbD 27
          spec := w1.getLsbD 31, level := level, imm := w2, lit := lit }
  | none, _ => .error .badType
  | _, none => .error .badLevel

/-- The 64-bit literal, low word first (R42). -/
def litOf (lo hi : Word) : Dword := hi ++ lo

/-- BRA (R46). -/
def decodeBranch (w0 : Word) (rest : List Word) : Except DecodeError Instr :=
  let s := settleOf w0
  let c := w0.getLsbD 16
  let v := w0.getLsbD 15
  let p := w0.extractLsb' 12 3
  let h := Hint.ofCode (w0.extractLsb' 10 2).toNat
  match lenOf w0, rest with
  | .one, _ => .ok (.bra { settle := s, cond := c, pinv := v, psel := p, hint := h, off := w0.extractLsb' 17 15 })
  | .lit, [lo, hi] =>
    if w0.extractLsb' 17 15 = 0#15 then
      .ok (.braLong { settle := s, cond := c, pinv := v, psel := p, hint := h, off := litOf lo hi })
    else .error .reservedBits
  | _, _ => .error .badLength

/-- PBLK (R47). -/
def decodeBlock (w0 : Word) : Except DecodeError Instr :=
  match lenOf w0 with
  | .one =>
    if w0.extractLsb' 24 8 = 0#8 then
      .ok (.pblk { settle := settleOf w0, pattern := w0.extractLsb' 16 8, psel := w0.extractLsb' 13 3
                   cnt := w0.extractLsb' 10 3 })
    else .error .reservedBits
  | _ => .error .badLength

/-- The form BI (R45). -/
def decodeImm (w0 : Word) (mk : ImmOps → Instr) : Except DecodeError Instr :=
  match lenOf w0 with
  | .one => .ok (mk { settle := settleOf w0, d := w0.extractLsb' 10 8, imm := w0.extractLsb' 18 14 })
  | _ => .error .badLength

/-- The form BA with its extended words and its literal (R42, R44, R48 to R50). -/
def decodeBa (w0 : Word) (rest : List Word) : Except DecodeError Instr :=
  match pickOp (opcOf w0) (fnOf w0).toNat (lenOf w0) with
  | .error e => .error e
  | .ok op =>
    match lenOf w0, rest with
    | .one, _ => .ok (op.instr (shortOperands w0 .one op.row.dflt 0))
    | .lit, [lo, hi] => .ok (op.instr (shortOperands w0 .lit op.row.dflt (litOf lo hi)))
    | .ext, [w1, w2] => (extOperands w0 w1 w2 .ext 0).map op.instr
    | .extLit, [w1, w2, lo, hi] => (extOperands w0 w1 w2 .extLit (litOf lo hi)).map op.instr
    | _, _ => .error .short

/-- Decodes word 0 and the words that its LEN gives (R41 to R48). -/
def decodeWords (w0 : Word) (rest : List Word) : Except DecodeError Instr :=
  match opcOf w0 with
  | 0x01 => decodeBranch w0 rest
  | 0x05 => decodeBlock w0
  | 0x08 => decodeImm w0 .trap
  | 0x0D => decodeImm w0 .bkpt
  | 0x0E => decodeImm w0 .scall
  | 0x21 => decodeImm w0 .movi
  | _ => decodeBa w0 rest

/-- Decodes the instruction at the front of a list of bytes and gives the bytes after it (R41, R42). -/
def decode (bs : List Byte) : Except DecodeError (Instr × List Byte) :=
  match takeWord bs with
  | none => .error .short
  | some (w0, bs1) =>
    match takeWords ((lenOf w0).words - 1) bs1 with
    | none => .error .short
    | some (ws, bs2) => (decodeWords w0 ws).map fun i => (i, bs2)

/-! ### The encoder -/

/-- Word 0 of form BA (R41, R44). -/
def encodeWord0 (opc : BitVec 7) (o : Operands) : Word :=
  o.fn ++ o.a ++ o.d ++ opc ++ BitVec.ofBool o.settle ++ BitVec.ofNat 2 o.len.code

/-- Word 1 of the extended form (R48). -/
def encodeWord1 (o : Operands) : Word :=
  BitVec.ofBool o.spec ++ BitVec.ofNat 3 o.level.code ++ BitVec.ofBool o.absa ++ BitVec.ofBool o.negc ++
    BitVec.ofBool o.negb ++ BitVec.ofBool o.nega ++ BitVec.ofBool o.sat ++ BitVec.ofNat 2 o.rm.code ++
    BitVec.ofNat 5 o.ty.code ++ o.c ++ o.b

/-- The words of an instruction of form BA (R42). -/
def encodeBa (op : Op) (o : Operands) : List Word :=
  let w0 := encodeWord0 (BitVec.ofNat 7 op.row.opc) o
  let lit := [o.lit.extractLsb' 0 32, o.lit.extractLsb' 32 32]
  match o.len with
  | .one => [w0]
  | .ext => [w0, encodeWord1 o, o.imm]
  | .lit => w0 :: lit
  | .extLit => [w0, encodeWord1 o, o.imm] ++ lit

/-- Word 0 of BRA (R46). -/
def encodeBranch (off : BitVec 15) (cond pinv : Bool) (psel : BitVec 3) (hint : Hint) (settle : Bool) (len : Len) : Word :=
  off ++ BitVec.ofBool cond ++ BitVec.ofBool pinv ++ psel ++ BitVec.ofNat 2 hint.code ++ 0x01#7 ++ BitVec.ofBool settle ++
    BitVec.ofNat 2 len.code

/-- The word of form BI (R45). -/
def encodeImm (opc : BitVec 7) (o : ImmOps) : Word := o.imm ++ o.d ++ opc ++ BitVec.ofBool o.settle ++ 0#2

/-- The words of an instruction; an event of the machine has none. -/
def encodeWords : Instr → List Word
  | .bra o => [encodeBranch o.off o.cond o.pinv o.psel o.hint o.settle .one]
  | .braLong o =>
    [encodeBranch 0 o.cond o.pinv o.psel o.hint o.settle .lit, o.off.extractLsb' 0 32, o.off.extractLsb' 32 32]
  | .pblk o => [0#8 ++ o.pattern ++ o.psel ++ o.cnt ++ 0x05#7 ++ BitVec.ofBool o.settle ++ 0#2]
  | .trap o => [encodeImm 0x08 o]
  | .bkpt o => [encodeImm 0x0D o]
  | .scall o => [encodeImm 0x0E o]
  | .movi o => [encodeImm 0x21 o]
  | i => match i.ba with
    | some (op, o) => encodeBa op o
    | none => []

/-- The bytes of an instruction, word 0 at the lowest address, each word little-endian (R5, R42). -/
def encode (i : Instr) : List Byte := (encodeWords i).flatMap wordBytes

/-- The instruction that the decoder reads from words whose bits are `w`, numbered as the opcode table numbers them; bits
at `nbits` and above are zero, up to the five words of the longest instruction. -/
def decodeTableWord (nbits w : Nat) : Option Instr :=
  match decode (bytesOf 20 (w % 2 ^ nbits)) with
  | .ok (i, _) => some i
  | .error _ => none

end Sys2Proof
end

