-- ==== Sys2Proof/Machine/Fetch.lean ====
section
/-! DEFINITION. Instruction fetch: the words at a PC, translated and read (R43, R359, R360). -/

namespace Sys2Proof.Machine

/-- What fetching gives. -/
inductive FetchRes where
  | ok (bs : List Byte)
  | absent (lvl : Nat)
  | refused (c : Cause)
  deriving DecidableEq, Repr

/-- Four bytes of code. -/
def State.fetchWord (s : State) (core pad : Nat) (secure super : Bool) (va : Nat) : State × FetchRes :=
  match s.translate (some core) pad secure super .fetch va with
  | (s, .ok pa pol part) =>
    match s.agentReadAs pad pol part pa 4 with
    | (s, some bs) => (s, .ok bs)
    | (s, none) => (s, .refused .uncorrectableMemory)
  | (s, .absent lvl) => (s, .absent lvl)
  | (s, .refused c) => (s, .refused c)

/-- `n` words of code, the first thing that stops a word stopping all; the answer names the address at which. DESIGN
CHOICE (log entry 81): each word is an access of its own, so words on both sides of 2^55 are read. -/
def State.fetchWords (s : State) (core pad : Nat) (secure super : Bool) : Nat → Nat → State × FetchRes × Nat
  | 0, va => (s, .ok [], va)
  | n + 1, va =>
    match s.fetchWord core pad secure super va with
    | (s, .ok bs) =>
      match State.fetchWords s core pad secure super n (va + 4) with
      | (s, .ok rest, _) => (s, .ok (bs ++ rest), va)
      | r => r
    | (s, r) => (s, r, va)

/-- The LEN of an instruction in words, from the bytes of its word 0 (R41). -/
def wordsOf (bs : List Byte) : Nat :=
  match takeWord bs with
  | some (w, _) => (lenOf w).words
  | none => 1

/-- Every word of the instruction at an address (R43). -/
def State.fetchInstr (s : State) (core pad : Nat) (secure super : Bool) (va : Nat) : State × FetchRes × Nat :=
  match s.fetchWord core pad secure super va with
  | (s, .ok bs) =>
    match s.fetchWords core pad secure super (wordsOf bs - 1) (va + 4) with
    | (s, .ok rest, _) => (s, .ok (bs ++ rest), va)
    | r => r
  | (s, r) => (s, r, va)

end Sys2Proof.Machine
end

