-- ==== Sys2Proof/Machine/Request.lean ====
section
/-! DEFINITION. Global accesses in flight: their lines are translated or hitched (R186, R362), loads are performed (R206, R233,
R260), stores are accepted (R204, R234, R261), atomics are performed at their authority or on a buffer (R208, R244, R270), and
an access ends with its registers written and its one late fault recorded (R262). -/

namespace Sys2Proof.Machine

/-! ### Making an access -/

/-- The lanes' parts of an access; a lane out of range has the width 0 and the value 0 (R185). -/
def elemsOf (w : Nat) (data data2 : Nat → Nat) (rs : List (Nat × AddrRes)) : List Elem :=
  rs.map fun (l, r) => match r with
    | .at va => { lane := l, va := va, w := w, data := data l, data2 := data2 l, val := none }
    | _ => { lane := l, va := 0, w := 0, data := data l, data2 := data2 l, val := some 0 }

/-- The distinct 64-byte lines of an access (R186). -/
def linesOf (es : List Elem) : List LineReq :=
  ((es.filter (·.w != 0)).map fun e => e.va / 64 * 64).dedup.map fun va => { va := va, st := .fresh }

/-- An access of the instruction being issued, without its id. -/
def accessOf (c : Cur) (t : Troop) (kind : AccKind) (fn : Nat) (ty : Ty) (lvl : Level) (dst : Nat) (es : List Elem) :
    Access :=
  { id := 0, sid := c.sid, kind := kind, fn := fn, ty := ty, lvl := lvl, pc := c.pc, next := c.next, depth := t.depth
    trap := c.trap, super := c.super, dst := dst, lines := linesOf es, elems := es, bundle := c.bundle, blocks := c.blocks }

/-- The access joins those in flight under a fresh id. -/
def State.addAccess (s : State) (a : Access) : Nat × State :=
  let (id, s) := s.fresh
  (id, { s with accs := s.accs ++ [{ a with id := id }] })

/-- Dropped lane-writes of a context (R185). -/
def State.countOob (s : State) (pad n : Nat) : State :=
  s.updPad pad fun p => { p with csbData := { p.csbData with oobDrops := min 0xFFFFFFFF (p.csbData.oobDrops + n) } }

/-! ### Lines and elements -/

def LineSt.ended : LineSt → Bool
  | .done | .refused _ => true
  | _ => false

def LineSt.isReady : LineSt → Bool
  | .ready .. => true
  | _ => false

def LineSt.refused? : LineSt → Bool
  | .refused _ => true
  | _ => false

/-- The part has been performed, or its line has been answered with a fault. -/
def Access.elemDone (a : Access) (e : Elem) : Bool :=
  e.w == 0 || e.val.isSome || a.lines.any fun l => l.holds e && l.st.ended

/-- Two parts share a byte. -/
def Elem.meets (e f : Elem) : Bool := decide (e.va < f.va + f.w) && decide (f.va < e.va + e.w)

/-- The mask of a part in its line. -/
def Elem.mask (e : Elem) : Dword := spanMask (e.va % 64) e.w

/-- The byte ranges of the parts. -/
def elemRanges (es : List Elem) : List (Int × Int) := es.map fun e => ((e.va : Int), (e.va + e.w : Nat))

def AccKind.reads : AccKind → Bool
  | .st | .radd => false
  | _ => true

def AccKind.writes : AccKind → Bool
  | .st | .atom | .acas | .afadd => true
  | _ => false

/-- The kind of access that R359 checks. -/
def AccKind.access : AccKind → AccessKind
  | .ld | .waitv | .brld => .read
  | .st => .write
  | _ => .rmw

/-- The earlier accesses of the same string. -/
def State.earlier (s : State) (a : Access) : List Access := s.accs.filter fun b => b.sid == a.sid && decide (b.id < a.id)

/-- Part `f` of an access lies, or with `may` perhaps lies, on a byte of part `e`, which is on physical line `line`: by their virtual
addresses, by what `f`'s line is translated to when two pages share a frame, or, while that line is not translated, by their places
in their pages, which are those in the frames. -/
def Access.clashes (b : Access) (line : Nat) (e f : Elem) (may : Bool := true) : Bool :=
  let within := decide (e.va % 64 < f.va % 64 + f.w) && decide (f.va % 64 < e.va % 64 + e.w)
  e.meets f || (e.w != 0 && within && b.lines.any fun l => l.holds f && (match l.st with
    | .ready pa _ _ => pa == line
    | .done | .refused _ => false
    | _ => may && e.va / 64 % 1024 == f.va / 64 % 1024))

/-- The lanes whose earlier accesses a part comes after (R233): its own, and for BRLD, which reads for its bundle, all of that's
(R265). -/
def Access.follows (a : Access) (e : Elem) (lane : Nat) : Bool := if a.kind == .brld then a.bundle.getLsbD lane else lane == e.lane

/-- A load may be performed: earlier accesses of the lane to its bytes have been (R233). -/
def State.loadMayGo (s : State) (a : Access) (line : Nat) (es : List Elem) : Bool :=
  (s.earlier a).all fun b => b.elems.all fun f =>
    b.elemDone f || es.all fun e => !(a.follows e f.lane && b.clashes line e f)

/-- A store may be sent: the lane's earlier loads have been performed (R234), and earlier writes of the string to its bytes
have been (R204). -/
def State.storeMayGo (s : State) (a : Access) (line : Nat) (es : List Elem) : Bool :=
  (s.earlier a).all fun b => b.elems.all fun f =>
    b.elemDone f || es.all fun e => !((b.kind.reads && f.lane == e.lane) || (b.kind.writes && b.clashes line e f))

/-- Every load of some lanes with an id below `id` has been performed or answered (R234, R238). -/
def State.loadsDone (s : State) (sid id : Nat) (lanes : Mask) : Bool :=
  s.accs.all fun a => a.sid != sid || decide (id ≤ a.id) || !a.kind.reads ||
    a.elems.all fun e => !lanes.getLsbD e.lane || a.elemDone e

/-- Line `i` of an access takes a state. -/
def State.setLine (s : State) (id i : Nat) (st : LineSt) : State :=
  s.updAcc id fun a => { a with lines := updAt (fun (l : LineReq) => { l with st := st }) a.lines i }

/-! ### Translation of a line -/

/-- What the access forces is recorded against it (R172, R175). -/
def Access.force (a : Access) : Force := { sid := a.sid, pc := a.pc, depth := a.depth, trap := a.trap, wait := a.id }

/-- The line request walks, unless it must stay behind a hitched access of its string to the same line (R362). -/
def State.requestLine (s : State) (t : Troop) (a : Access) (i : Nat) (l : LineReq) : State :=
  let (id, s) := s.fresh
  let r := railFor t a.sid a.depth a.super a.kind.access l.va id (.acc a.id i)
  let before := (s.earlier a).flatMap fun b => (b.lines.filter fun x => x.va == l.va && x.st.hitched).map (·.st)
  if before.isEmpty then s.present r
  else if before.contains .held then
    let h : HeldReq := { core := r.core, ent := r }
    ({ s with heldReqs := s.heldReqs ++ [h] }).markHitched r true
  else s.hitch r 0

/-! ### Loads -/

/-- The lane that a part reads for; BRLD reads for its string (R265). -/
def Access.reader (a : Access) (e : Elem) : Option Nat := if a.kind == .brld then none else some e.lane

/-- The level that a fresh load must reach, or 0 (R260). -/
def Access.fresh (a : Access) : Nat := if 3 ≤ a.lvl.code then a.lvl.code else 0

/-- A translated line of a load is read (R206, R260). -/
def State.performLoad (s : State) (t : Troop) (a : Access) (i : Nat) (l : LineReq) (line pol part : Nat) : State :=
  let es := a.on l
  if !s.loadMayGo a line es || es.any fun e => s.readWaits a.sid (a.reader e) t.core line e.mask then s
  else
    match s.neededLine a.sid t (es.map fun (e : Elem) => (a.reader e, e.mask)) l.va line pol part a.fresh with
    | (s, none) => s.updAcc a.id (·.refuse i .uncorrectableMemory)
    | (s, some d) =>
      (s.updAcc a.id fun a =>
        { a with elems := a.elems.map fun e =>
            if l.holds e then { e with val := some (lineVal (s.assemble a.sid t (a.reader e) line e.mask d) (e.va % 64) e.w) }
            else e }).setLine a.id i .done

/-! ### Atomics (R208, R243, R244, R270) -/

/-- The new value of a read-modify-write, if it writes one. For ACAS `x` is the value compared and `y` the one swapped in. -/
def atomNew (k : AccKind) (fn : Nat) (ty : Ty) (old x y : Nat) : Option Nat :=
  match k with
  | .acas => if old = x then some y else none
  | .afadd =>
    let w := ty.elem.width
    some ((ty.elems.map fun i => (combine ty.elem 0 (old >>> (w * i) % 2 ^ w) (x >>> (w * i) % 2 ^ w)) <<< (w * i)).sum)
  | _ => some (match fn with
    | 0 | 1 | 2 => combine ty fn old x
    | 3 => old &&& x
    | 4 => old ||| x
    | 5 => old ^^^ x
    | _ => x)

/-- The buffers at a level and below (R208). -/
def spacesUpTo (sid : Nat) (t : Troop) (l : Level) : List Space :=
  .str sid :: ((if 1 ≤ l.code then [.trp t.tid] else []) ++ (if 2 ≤ l.code then [.clu (clusterOf t.core)] else []))

/-- The bytes that an atomic carries up (R208). -/
def State.carriedUp (s : State) (sid : Nat) (t : Troop) (l : Level) (line : Nat) (is : List Nat) : List (Nat × Byte) :=
  is.filterMap fun i => ((spacesUpTo sid t l).findSome? fun sp => s.bufByte t sp (64 * line + i)).map fun b => (i, b)

/-- One lane's atomic at the authority of its scope: the old value, or nothing when the line is uncorrectable. An ACAS that swaps
nothing writes only what it carried up; the issuer's caches never keep less than it has read, nor those of its cluster less than what
it carried up (R233). -/
def State.atomAtHome (s : State) (t : Troop) (a : Access) (e : Elem) (line pol part : Nat) : State × Option Nat :=
  let is := (List.range e.w).map (e.va % 64 + ·)
  let up := s.carriedUp a.sid t a.lvl line is
  let place := authPlace t.core a.lvl pol
  match s.recall t.core place t.pad line pol part with
  | (s, none) => (s, none)
  | (s, some d) =>
    let s := (spacesUpTo a.sid t a.lvl).foldl (fun s sp => s.discard t sp line is) s
    let d := up.foldl (fun d (i, b) => lineSet d i b) d
    let m := (packLine up).1
    let old := lineVal d (e.va % 64) e.w
    let (m, d) := match atomNew a.kind a.fn a.ty old e.data e.data2 with
      | some x => (m ||| e.mask, lineSetVal d (e.va % 64) e.w x)
      | none => (m, d)
    let s := s.putAuth a.force t.core t.pad line pol part m e.mask d
    (if decide (2 ≤ a.lvl.code) && !up.isEmpty then s.dropNear (clusterOf t.core) line else s, some old)

/-- One lane's atomic on the buffer of its scope, inside a recovery block or in a redundant troop (R208, R434): the old value,
or the fault of its line. It is no store and conflicts with nothing that lies there (R217); a conflict with a store that is checked
already and enters after it is counted here (log entry 124). -/
def State.atomOnBuffer (s : State) (t : Troop) (a : Access) (e : Elem) (va line pol part : Nat) : State × Except Cause Nat :=
  match s.neededLine a.sid t [(some e.lane, e.mask)] va line pol part 0 with
  | (s, none) => (s, .error .uncorrectableMemory)
  | (s, some d) =>
    let old := lineVal (s.assemble a.sid t (some e.lane) line e.mask d) (e.va % 64) e.w
    match atomNew a.kind a.fn a.ty old e.data e.data2 with
    | none => (s, .ok old)
    | some x =>
      let bs := storeBytes [{ e with data := x }]
      let sp := bufSpace a.sid t (t.demote a.lvl)
      match s.bufStoreLate a.sid t a.lvl line va pol part bs with
      | .ok (u, _) => (if s.reserved (·.strict) sp line (bs.map (·.1)) (committerFor a.sid t sp) then u.countConflict t.tid else u, .ok old)
      | .error c => (s, .error c)

/-- The lanes of a line, one after the other, until a fault. -/
def State.atomLanes (s : State) (t : Troop) (a : Access) (va line pol part : Nat) :
    List Elem → State × List (Nat × Nat) × Option Cause
  | [] => (s, [], none)
  | e :: es =>
    let (s, r) := if t.protect.isSome then s.atomOnBuffer t a e va line pol part
      else match s.atomAtHome t a e line pol part with
        | (s, some old) => (s, .ok old)
        | (s, none) => (s, .error .uncorrectableMemory)
    match r with
    | .error c => (s, [], some c)
    | .ok old =>
      let (s, rest, f) := State.atomLanes s t a va line pol part es
      (s, (e.lane, old) :: rest, f)

/-- A write of the string to these bytes, or another's that a read would wait for, is on its way. -/
def State.atomWaits (s : State) (t : Troop) (sid line : Nat) (mask : Dword) : Bool :=
  s.readWaits sid none t.core line mask || s.writes.any fun w => w.sid == sid && w.line == line && w.mask &&& mask != 0

/-- What a core writes into host memory at the authority of a line leaves behind every earlier write of the core to host memory, and
from an L2 slice behind those that have not reached theirs (R212, R377; log entry 162). -/
def State.hostWaits (s : State) (core : Nat) (place : AuthPlace) (line : Nat) : Bool :=
  hostLine line && s.writes.any fun w => w.core == core && hostLine w.line && (place == .home || !w.atL2)

/-- The lanes of a line of an atomic that may go: one whose bytes another line of the same page frame names too comes after the lower
lanes there (R270). -/
def Access.turns (a : Access) (l : LineReq) (line : Nat) : List Elem :=
  ((a.on l).filter fun e => !a.elemDone e).takeWhile fun e =>
    a.elems.all fun f => l.holds f || decide (e.lane ≤ f.lane) || a.elemDone f || !a.clashes line e f

/-- A translated line of an atomic: its write is checked by R175, and its lanes are performed in increasing number. -/
def State.performAtomic (s : State) (t : Troop) (a : Access) (i : Nat) (l : LineReq) (line pol part : Nat) : State :=
  let es := a.turns l line
  if es.isEmpty || !s.storeMayGo a line es || s.hostWaits t.core (authPlace t.core a.lvl pol) line || es.any fun e => s.atomWaits t a.sid line e.mask then s
  else
    match s.guardWrite t.tid a.force (elemRanges es) with
    | (s, false) => s
    | (s, true) =>
      let (s, olds, f) := s.atomLanes t a l.va line pol part es
      let s := s.updAcc a.id fun a =>
        { a with elems := a.elems.map fun e => match olds.find? (fun r => l.holds e && r.1 == e.lane) with
            | some r => { e with val := some r.2 }
            | none => e }
      match f with
      | some c => s.updAcc a.id (·.refuse i c)
      | none => if ((a.on l).filter fun e => !a.elemDone e).length = es.length then s.setLine a.id i .done else s

/-! ### Stores -/

/-- The bytes that a line of a store writes on its physical line: those that no higher lane has written there through another virtual
line of the store (R204). -/
def Access.topBytes (a : Access) (l : LineReq) (line : Nat) : List (Nat × Byte) :=
  (a.on l).flatMap fun e => (storeBytes [e]).filter fun b =>
    !a.lines.any fun m => m.va != l.va && m.wrote == some line && (a.on m).any fun f => decide (e.lane < f.lane) && f.mask.getLsbD b.1

/-- A line of a store has been written, on a physical line; what the store has sent there through another virtual line counts as a write
of these lanes too (R204, R233). -/
def State.wroteLine (s : State) (a : Access) (i : Nat) (l : LineReq) (line : Nat) : State :=
  let mine := (a.on l).map fun e => (e.lane, e.mask)
  let share := fun (w : HomeWrite) => { w with lanes := w.lanes ++ mine.map fun e => (e.1, e.2 &&& w.mask) }
  let s := if a.lines.any fun m => m.va != l.va && m.wrote == some line then
    { s with writes := updAll (fun w => w.op == a.id && w.line == line) share s.writes } else s
  (s.setLine a.id i .done).updAcc a.id fun a =>
    { a with lines := updAt (fun (l : LineReq) => { l with wrote := some line }) a.lines i }

/-- A store leaves for its home at die level or wider: it discards what it overwrites of the buffers below (R205) and is taken
by the memory unit (R204). -/
def State.storeHome (s : State) (t : Troop) (a : Access) (es : List Elem) (bs : List (Nat × Byte)) (line pol part : Nat) : State :=
  let (m, d) := packLine bs
  (s.discardBelow a.sid t a.lvl line (bs.map (·.1))).sendHome
    { wid := 0, core := t.core, rnd := 0, sid := a.sid, line := line, mask := m, data := d, lvl := a.lvl, atL2 := false
      lanes := es.map (fun e => (e.lane, e.mask)), op := a.id, pc := a.pc, depth := a.depth, pol := pol, part := part
      pad := t.pad, trap := a.trap, hid := s.hiddenBy a.sid t a.lvl line (bs.map (·.1)) }

/-- Bytes of an engine's write enter the buffer of their level: a conflict merges and is counted, or faults as its string's policy
says, and then nothing is written (R217 to R219). DESIGN CHOICE (log entry 141): each write of an element that conflicts counts, as a
store of its own does; R218 does not say what counts once for an operation. -/
def State.storeBuffer (s : State) (z : Str) (t : Troop) (lvl : Level) (line va pol part : Nat) (bs : List (Nat × Byte)) :
    Except Cause State :=
  match s.bufStoreLate z.sid t lvl line va pol part bs with
  | .error c => .error c
  | .ok (s', hit) =>
    if hit && z.conflictFaults then .error .siblingConflict
    else .ok (if hit then s'.countConflict t.tid else s')

/-- The contributions of a RADD are applied to the core's partial line (R225, R276). -/
def State.applyRadds (s : State) (t : Troop) (es : List Elem) (line : Nat) : State :=
  (es.foldl (fun s e => match s.inOpenRange t e.va e.w with
    | some r => s.applyRadd r t.core line (e.va % 64) e.data
    | none => s) s).trimL1 t.core

/-- A part of a RADD lies in a range of its context that is open, or whose close has received it, and is of its type (R225, R276). -/
def State.takesRadd (s : State) (t : Troop) (ty : Ty) (e : Elem) : Bool :=
  match s.inOpenRange t e.va e.w with
  | some r => decide (r.base ≤ e.va) && decide (e.va + e.w ≤ r.base + r.len) && r.ty == ty
  | none => false

/-- A translated line of a RADD is applied. One that a cut has recorded may come after its range's close, and is refused (R273, R275; log
entry 40). -/
def State.raddLine (s : State) (t : Troop) (a : Access) (i : Nat) (es : List Elem) (line : Nat) : State :=
  if es.all (s.takesRadd t a.ty) then (s.applyRadds t es line).setLine a.id i .done
  else s.updAcc a.id (·.refuse i .rangeStore)

/-- A line of a RADD that a close on its way through the range table has to combine: a cut lets it finish (R275, R304). -/
def State.closes (s : State) (t : Troop) (a : Access) (l : LineReq) : Bool :=
  a.kind == .radd && match s.inOpenRange t l.va 64 with
    | some r => r.st == .closing
    | none => false

/-- A translated line of a store enters its buffer. One that its instruction's checks passed keeps the room that they found; under the
policy that a conflict faults they found none, and under the other it is counted as the line enters, once for its store. One that was
hitched is checked now, and faults late (R218, R219, R261). -/
def State.bufferLine (s : State) (z : Str) (t : Troop) (a : Access) (i : Nat) (l : LineReq) (line pol part : Nat)
    (bs : List (Nat × Byte)) : State :=
  let sp := bufSpace a.sid t (t.demote a.lvl)
  let entered := if l.sure then
      .ok (s.bufPut z.sid t a.lvl line l.va pol part bs,
        !a.strict && s.entersOver t sp line (bs.map (·.1)) (committerFor a.sid t sp))
    else s.bufStoreLate z.sid t a.lvl line l.va pol part bs
  match entered with
  | .error c => s.updAcc a.id (·.refuse i c)
  | .ok (s', hit) =>
    if hit && !l.sure && z.conflictFaults then s.updAcc a.id (·.refuse i .siblingConflict)
    else
      let s := if hit && !a.clash then (s'.countConflict t.tid).updAcc a.id fun a => { a with clash := true } else s'
      s.wroteLine a i l line

/-- A translated line of a store is written: into the buffer of its level, or towards its home (R204). One whose every byte a higher
lane has written is not written at all. -/
def State.storeLine (s : State) (z : Str) (t : Troop) (a : Access) (i : Nat) (l : LineReq) (line pol part : Nat) : State :=
  let bs := a.topBytes l line
  if bs.isEmpty then s.wroteLine a i l line
  else if (t.demote a.lvl).buffered then s.bufferLine z t a i l line pol part bs
  else (s.storeHome t a (a.on l) bs line pol part).wroteLine a i l line

/-- A translated line of a store or RADD is accepted (R204, R234, R261, R276), once what R175 forces for it is done. -/
def State.acceptLine (s : State) (z : Str) (t : Troop) (a : Access) (i : Nat) (l : LineReq) (line pol part : Nat) : State :=
  let es := a.on l
  if !s.storeMayGo a line es then s
  else
    match s.guardWrite t.tid a.force (elemRanges es) with
    | (s, false) => s
    | (s, true) => if a.kind == .radd then s.raddLine t a i es line else s.storeLine z t a i l line pol part

/-! ### The end of an access -/

/-- The access leaves: what it forced has ended, and its first fault is recorded late (R262). -/
def State.endAccess (s : State) (a : Access) : State :=
  let s := { s with accs := s.accs.filter (·.id != a.id) }.takeFlags a.id
  match a.fault with
  | some c => (s.lateFault a.sid c a.pc 0 a.depth a.trap).tellWrites a.id
  | none => s

/-- A store whose every line has ended leaves, and arrivals that waited for it take effect (R252). -/
def State.settleStore (s : State) (id : Nat) : State :=
  match s.acc? id with
  | none => s
  | some a => if a.lines.all (·.st.ended) then (s.endAccess a).checkArrivals a.sid else s

/-- Every part has a value or a refused line. -/
def Access.returned (a : Access) : Bool := a.elems.all a.elemDone

/-- The results of an access are written to its registers: D of every lane that has a value (R34, R259, R262) and has not
exited (R37). -/
def State.writeResults (s : State) (a : Access) : State :=
  s.writeVal a.sid a.depth a.ty a.dst (a.elems.filterMap fun e =>
    if s.exitedLane a.sid e.lane then none else e.val.map fun v => (e.lane, a.ty.regBits v))

/-! ### Traps of parked bundles -/

/-- The bundle of a parked instruction. -/
def parkedCur (sid : Nat) (bundle : Mask) (pc next : Addr) (trap super : Bool) : Cur :=
  { sid := sid, bundle := bundle, parts := bundle, pc := pc, next := next, trap := trap, super := super }

/-- A trap of a parked instruction would be deferred (R388). -/
def State.mustDefer (s : State) (sid : Nat) (trap : Bool) : Bool :=
  match s.str? sid with
  | some z => !trap && z.lanes.any (·.trap)
  | none => false

/-- The lanes parked for a reason go on. -/
def State.unparkAll (s : State) (sid : Nat) (p : Park) : State := s.updStr sid fun z => z.unpark (· == p)

/-- A lane stands at an instruction again, parked as `p` says, with the block progress that it had before the instruction issued. -/
def Lane.standAt (l : Lane) (p : Park) (pc : Addr) (block : Option Block) : Lane :=
  { l with park := p, settle := none, pc := pc, block := block }

/-- The instruction at `pc` on which lanes are parked has not issued: they stand at it again, parked as `p` says, with the block
progress and the preference that they had (R213, R242, R345, R388). -/
def State.standAgain (s : State) (sid : Nat) (was p : Park) (pc next : Addr) (blocks : List (Nat × Block)) (wasPref : Bool) :
    State :=
  s.updStr sid fun z =>
    { z with
      lanes := z.lanes.zipIdx.map fun (x : Lane × Nat) =>
        if x.1.park = was then x.1.standAt p pc ((blocks.find? fun b => b.1 == x.2).map (·.2)) else x.1
      pref := if wasPref && z.pref == some next then some pc else z.pref }

/-! ### Records (R183) -/

/-- A record passes R183. -/
def recordOk (b : Record) : Bool :=
  bitsNat b 63 56 == 0 && bitsNat b 191 149 == 0 && decide (bitsNat b 130 128 ≤ 4) && decide (bitsNat b 148 147 ≤ 1) &&
    decide (bitsNat b 146 144 ≤ 5) && (Ty.ofCode (bitsNat b 135 131)).isSome &&
    (swizzle (bitsNat b 139 136) (bitsNat b 143 140) 0).isSome &&
    (bitsNat b 255 248 == 5 || (bitsNat b 255 248 == 0 && bitsNat b 247 192 == 0))

/-- BRLD's bytes are in: the record is written, or the bundle traps (R265); one whose trap is deferred has not issued (R388). -/
def State.endBrld (s : State) (a : Access) : State :=
  let b : Record := BitVec.ofNat 256 ((a.elems.headD { lane := 0, va := 0, w := 0, data := 0, data2 := 0, val := none }).val.getD 0)
  let fault : Option Cause := if a.fault.isSome then a.fault else if recordOk b then none else some .bounds
  match fault with
  | none =>
    (({ s with accs := s.accs.filter (·.id != a.id) }).writeB a.sid a.depth a.dst b).unparkAll a.sid (.brld a.id)
  | some c =>
    if s.mustDefer a.sid a.trap then
      { s with accs := s.accs.filter (·.id != a.id) }.standAgain a.sid (.brld a.id) .deferred a.pc a.next a.blocks a.wasPref
    else
      (({ s with accs := s.accs.filter (·.id != a.id) }).unparkAll a.sid (.brld a.id)).raise
        (parkedCur a.sid a.bundle a.pc a.next a.trap a.super) c

/-! ### The events of an access -/

/-- The recovery spill area may have overflowed under a write of an access (R422). -/
def State.settleFor (s : State) (sid : Nat) : State :=
  match s.str? sid with
  | some z => s.settleOverflow z.tid
  | none => s

/-- A translated line of a load or atomic is performed. -/
def State.performLine (s : State) (t : Troop) (a : Access) (i : Nat) : State :=
  match a.lines[i]? with
  | some l =>
    match l.st with
    | .ready line pol part =>
      match a.kind with
      | .ld | .brld => s.performLoad t a i l line pol part
      | .atom | .acas | .afadd => s.performAtomic t a i l line pol part
      | _ => s
    | _ => s
  | none => s

/-- PAGE_WALK_COMPLETE (R362): a line request is answered, refused or hitched; a translated line of a load or atomic is then
performed, as soon as it may be. A halted core sends nothing: the access is one that its context records (R304), but a RADD that a
close combines goes on (R275). -/
def execPageWalkComplete (acc line : Nat) (s : State) : Out :=
  match s.acc? acc with
  | none => .next s
  | some a =>
    match (s.str? a.sid).bind fun z => s.troop? z.tid, a.lines[line]? with
    | some t, some l =>
      if s.haltedCore t.core && !s.closes t a l then .next s
      else
      let s := if l.st == .fresh then s.requestLine t a line l else s
      match s.acc? acc with
      | some a => .next (s.performLine t a line)
      | none => .next s
    | _, _ => .next s

/-- REGISTER_RESULT_RETURN (R34): the results of an access are written and its pending registers clear. -/
def execRegisterResultReturn (acc : Nat) (s : State) : Out :=
  match s.acc? acc with
  | none => .next s
  | some a =>
    if !a.returned then .next s
    else
      match a.kind with
      | .ld | .atom | .acas | .afadd => .next (((s.writeResults a).endAccess a).settleFor a.sid)
      | .brld => .next ((s.endBrld a).settleFor a.sid)
      | _ => .next s

/-- STORE_ACCEPT (R204): a translated line of a store enters its buffer or leaves for the memory unit; a line of a RADD is
applied. A halted core sends none (R304), but a RADD that a close combines (R275). -/
def execStoreAccept (acc line : Nat) (s : State) : Out :=
  match s.acc? acc with
  | none => .next s
  | some a =>
    match s.str? a.sid, a.lines[line]? with
    | some z, some l =>
      match s.troop? z.tid, l.st with
      | some t, .ready pa pol part =>
        if s.haltedCore t.core && !s.closes t a l then .next s
        else if a.kind == .st || a.kind == .radd then .next ((s.acceptLine z t a line l pa pol part).settleStore acc) else .next s
      | _, .refused _ => if a.kind == .st || a.kind == .radd then .next (s.settleStore acc) else .next s
      | _, _ => .next s
    | _, _ => .next s

end Sys2Proof.Machine
end

