-- ==== Sys2Proof/Machine/MemInstr.lean ====
section
/-! DEFINITION. The memory instructions that name their own bytes (R257 to R265, R269 to R271, R276): loads, stores, atomics,
RADD, scratchpad accesses, prefetch, buffer records, CQRY and WAITV (R322). -/

namespace Sys2Proof.Machine

/-! ### Loads and BRLD -/

/-- The access joins those in flight. -/
def State.start (s : State) (a : Access) : State := (s.addAccess a).2

/-- LD (R260). -/
def execLd (o : Operands) (s : State) : Out :=
  s.issue (.ld o) noCheck fun c z t =>
    let w := o.ty.width / 8
    match recAddrs z o w c.lanes with
    | .error f => s.raise c f
    | .ok rs =>
      if c.parts = 0 then s
      else s.start (accessOf c t .ld 0 o.ty o.level o.d.toNat (elemsOf w (fun _ => 0) (fun _ => 0) rs))

/-- BRLD (R265). DESIGN CHOICE (log entry 142): an address that is neither canonical nor a multiple of 32 raises NONCANONICAL; the rule
gives the two no order. -/
def execBrld (o : Operands) (s : State) : Out :=
  s.issue (.brld o) noCheck fun c z t =>
    let base := z.sreg o.a.toNat
    let a : Int := (addr56 base).toNat + o.imm.toInt
    if c.parts = 0 then s
    else if !canonical base || !spanOk a 32 then s.raise c .noncanonical
    else if a.toNat % 32 != 0 then s.raise c .misaligned
    else
      let e : Elem := { lane := 0, va := a.toNat, w := 32, data := 0, data2 := 0, val := none }
      let (id, s) := s.addAccess
        { accessOf c t .brld 0 .b32 .str o.d.toNat [e] with wasPref := z.pref == some c.pc }
      s.park c.sid c.bundle (.brld id)

/-! ### Stores (R261) -/

/-- What the translations of a buffered store's lines gave: the lines that translated, with their virtual lines. -/
def State.storeLines (s : State) (t : Troop) (super : Bool) : List LineReq → State × List (LineReq × Xl)
  | [] => (s, [])
  | l :: ls =>
    let (s, x) := s.translate (some t.core) t.pad t.secure super .write l.va
    let (s, rest) := s.storeLines t super ls
    (s, (l, x) :: rest)

/-- The buffers from which a write of a string discards, or carries up, the bytes that it writes (R205, R208). -/
def Access.clears (b : Access) (t : Troop) : List Space :=
  if b.kind == .st || (b.kind.writes && t.protect.isSome) then spacesBelow b.sid t (t.demote b.lvl)
  else if b.kind.writes then spacesUpTo b.sid t b.lvl else []

/-- An earlier write of the string, not yet performed, takes a byte out of a buffer before a store can enter it there: the writes of
one string to one byte take effect in order (R204). -/
def State.clearedFirst (s : State) (sid : Nat) (t : Troop) (sp : Space) (line va : Nat) : Bool :=
  let e : Elem := { lane := 0, va := va, w := 1, data := 0, data2 := 0, val := none }
  s.accs.any fun b => b.sid == sid && (b.clears t).contains sp && b.elems.any fun f => !b.elemDone f && b.clashes line e f false

/-- A store's bytes on a line conflict with what another committer has written, or has been promised, in the buffer of its level (R217). -/
def State.storeClash (s : State) (sid : Nat) (t : Troop) (lvl : Level) (line va : Nat) (is : List Nat) : Bool :=
  let sp := bufSpace sid t (t.demote lvl)
  let is := is.filter fun i => !s.clearedFirst sid t sp line (va + i)
  s.conflicts t sp line is (committerFor sid t sp) || s.reserved (fun _ => true) sp line is (committerFor sid t sp)

/-- The precise check of a buffered store's translated lines (R217 to R219): room for each, in the buffers `v` with all that is promised
already, and no conflict under the policy that one faults. -/
def State.storeCheck (s : State) (z : Str) (t : Troop) (a : Access) : State → List (LineReq × Xl) → Option Cause
  | _, [] => none
  | v, (l, .ok pa pol part) :: ls =>
    let bs := storeBytes (a.on l)
    if !v.bufFits z.sid t a.lvl (pa / 64) (bs.map (·.1)) then some .commitOverflow
    else if z.conflictFaults && s.storeClash z.sid t a.lvl (pa / 64) l.va (bs.map (·.1)) then some .siblingConflict
    else State.storeCheck s z t a (v.bufPut z.sid t a.lvl (pa / 64) l.va pol part bs) ls
  | v, _ :: ls => State.storeCheck s z t a v ls

/-- The lines of a buffered store take what their translations gave, or wait at the rail. -/
def State.placeLines (s : State) (t : Troop) (a : Access) : Nat → List (LineReq × Xl) → State
  | _, [] => s
  | i, (l, x) :: ls =>
    let s := match x with
      | .absent lvl =>
        let (id, s) := s.fresh
        s.hitch (railFor t a.sid a.depth a.super .write l.va id (.acc a.id i)) lvl
      | x => (s.answer (.acc a.id i) l.va x).updAcc a.id fun a =>
          { a with lines := updAt (fun (l : LineReq) => { l with sure := true }) a.lines i }
    s.placeLines t a (i + 1) ls

/-- A store at string, troop or cluster level: its lines are translated or hitched at once, and checked before any is
written. -/
def State.bufferedStore (s : State) (c : Cur) (z : Str) (t : Troop) (a : Access) (dropped : Nat) : State :=
  let (s, xs) := s.storeLines t a.super a.lines
  let behind := fun (l : LineReq) =>
    s.accs.any fun b => b.sid == a.sid && b.lines.any fun x => x.va == l.va && x.st.hitched
  let free := xs.filter fun x => !behind x.1
  match s.storeCheck z t a s.projected free with
  | some f => s.raise c f
  | none =>
    let (id, s) := (s.countOob t.pad dropped).addAccess { a with strict := z.conflictFaults }
    let a := { a with id := id }
    (s.placeLines t a 0 (xs.map fun x => if behind x.1 then (x.1, .absent 0) else x)).settleStore id

/-- ST. -/
def execSt (o : Operands) (s : State) : Out :=
  s.issue (.st o) noCheck fun c z t =>
    let w := o.ty.width / 8
    match recAddrs z o w c.lanes with
    | .error f => s.raise c f
    | .ok rs =>
      let es := elemsOf w (fun l => z.vval o.ty o.d.toNat l % 2 ^ (8 * w)) (fun _ => 0) rs
      let lvl := if o.spec then o.level else recLevel (z.breg o.b.toNat)
      let live := es.filter (·.w != 0)
      if c.parts = 0 then s
      else if live.any fun e => (s.inOpenRange t e.va e.w).isSome then s.raise c .rangeStore
      else
        let a := accessOf c t .st 0 o.ty lvl 0 live
        let dropped := es.length - live.length
        if live.isEmpty then s.countOob t.pad dropped
        else if (t.demote lvl).buffered then s.bufferedStore c z t a dropped
        else (s.start a).countOob t.pad dropped

/-! ### Atomics -/

/-- The order of the precise checks of an atomic (R270): the addresses, RECOVERY_ESCAPE, RANGE_STORE. -/
def State.atomic (s : State) (c : Cur) (z : Str) (t : Troop) (o : Operands) (kind : AccKind) (data2 : Nat → Nat) : State :=
  let w := o.ty.width / 8
  match recAddrs z o w c.lanes with
  | .error f => s.raise c f
  | .ok rs =>
    let es := elemsOf w (fun l => z.vval o.ty o.c.toNat l) data2 rs
    if c.parts = 0 then s
    else if (match t.protect with | some p => decide (p.code < o.level.code) | none => false) then s.raise c .recoveryEscape
    else if es.any fun e => e.w != 0 && (s.inOpenRange t e.va e.w).isSome then s.raise c .rangeStore
    else s.start (accessOf c t kind o.fn.toNat o.ty o.level o.d.toNat es)

/-- ATOM. -/
def execAtom (o : Operands) (s : State) : Out :=
  s.issue (.atom o) noCheck fun c z t => s.atomic c z t o .atom fun _ => 0

/-- ACAS: the swap value is in D. -/
def execAcas (o : Operands) (s : State) : Out :=
  s.issue (.acas o) noCheck fun c z t => s.atomic c z t o .acas fun l => z.vval o.ty o.d.toNat l

/-- AFADD. -/
def execAfadd (o : Operands) (s : State) : Out :=
  s.issue (.afadd o) noCheck fun c z t => s.atomic c z t o .afadd fun _ => 0

/-- The troop may do nothing that could not be undone: it is inside a recovery block, or redundant (R287, R434). -/
def Troop.held (t : Troop) : Bool := t.protect.isSome

/-- RADD (R276). -/
def execRadd (o : Operands) (s : State) : Out :=
  s.issue (.radd o) noCheck fun c z t =>
    let w := o.ty.width / 8
    if c.parts = 0 then s
    else if t.held then s.raise c .recoveryEscape
    else
      match recAddrs z o w c.lanes with
      | .error f => s.raise c f
      | .ok rs =>
        let es := elemsOf w (fun l => z.vval o.ty o.d.toNat l) (fun _ => 0) rs
        let live := es.filter (·.w != 0)
        let inRange := fun (e : Elem) => match s.inOpenRange t e.va e.w with
          | some r => r.st == .isOpen && decide (r.base ≤ e.va) && decide (e.va + e.w ≤ r.base + r.len) && r.ty == o.ty
          | none => false
        if !live.all inRange then s.raise c .rangeStore
        else
          let s := s.countOob t.pad (es.length - live.length)
          if live.isEmpty then s else s.start (accessOf c t .radd 0 o.ty .trp 0 live)

/-! ### Scratchpad (R263, R271) -/

/-- What a scratchpad write forces is recorded against its instruction; the string stands for the write (R175). -/
def Cur.force (c : Cur) (t : Troop) : Force := { sid := c.sid, pc := c.pc, depth := t.depth, trap := c.trap, wait := c.sid }

/-- A scratchpad write waits for the lanes' earlier loads (R234, R246) and is checked by R175: it goes on, or the bundle is held
while they are performed or the nodes are forced. -/
def State.checkedScratch (s : State) (c : Cur) (t : Troop) (places : List Nat) (go : State → State) : State :=
  if !s.loadsDone c.sid s.nextId c.parts then s.hold
  else match s.guardScratch t.tid (c.force t) places with
  | (s, false) => s.hold
  | (s, true) =>
    let s := { s with nodes := s.nodes.map fun (x : Node) => { x with forcers := x.forcers.filter (· != c.sid) } }
    go (s.takeFlags c.sid)

/-- The swizzled address of a lane (R189). -/
def scrOf (t : Troop) (z : Str) (o : Operands) (w l : Nat) : ScrRes :=
  scrAddr t.scratchSize (z.vreg o.a.toNat l) o.imm.toInt w

/-- LDS. DESIGN CHOICE (log entry 143): its scratchpad words are read at issue, so the LDS of a lane are performed in program order;
rule 5 (R246) would let those of different places be performed in any order. -/
def execLds (o : Operands) (s : State) : Out :=
  s.issue (.lds o) noCheck fun c z t =>
    let w := if o.spec then 16 else o.ty.width / 8
    let rs := c.lanes.map fun l => (l, scrOf t z o w l)
    match scrFault (rs.map (·.2)) with
    | some f => s.raise c f
    | none =>
      if o.spec then
        s.writeRange c z o.d.toNat (rs.map fun r => (r.1, (List.range 4).map fun i =>
          t.readScratch ((r.2.places.drop (4 * i)).take 4))) 4
      else s.writeVal c.sid t.depth o.ty o.d.toNat (rs.map fun r => (r.1, o.ty.regBits (t.readScratch r.2.places)))

/-- The value that STS stores: the low bytes of D, or of D to D + 3. -/
def stsVal (z : Str) (o : Operands) (l : Nat) : Nat :=
  if o.spec then z.denseRegs o.d.toNat 4 l else z.vval o.ty o.d.toNat l

/-- STS. -/
def execSts (o : Operands) (s : State) : Out :=
  s.issue (.sts o) noCheck fun c z t =>
    let w := if o.spec then 16 else o.ty.width / 8
    let rs := c.lanes.map fun l => (l, scrOf t z o w l)
    match scrFault (rs.map (·.2)) with
    | some f => s.raise c f
    | none =>
      if c.parts = 0 then s
      else s.checkedScratch c t (rs.flatMap fun r => r.2.places) fun s =>
        s.writeScratch t.tid (rs.flatMap fun r => r.2.places.zip (bytesOf w (stsVal z o r.1)))

/-- The lanes of an ATOMS, one after the other: the state and the old values. -/
def State.atomsLanes (s : State) (tid : Nat) (o : Operands) (w : Nat) :
    List (Nat × List Nat × Nat) → State × List (Nat × Nat)
  | [] => (s, [])
  | (l, ps, x) :: rs =>
    let old := match s.troop? tid with | some t => t.readScratch ps | none => 0
    let s := match atomNew .atom o.fn.toNat o.ty old x 0 with
      | some y => s.writeScratch tid (ps.zip (bytesOf w y))
      | none => s
    let (s, rest) := s.atomsLanes tid o w rs
    (s, (l, old) :: rest)

/-- ATOMS. -/
def execAtoms (o : Operands) (s : State) : Out :=
  s.issue (.atoms o) noCheck fun c z t =>
    let w := o.ty.width / 8
    let rs := c.lanes.map fun l => (l, scrOf t z o w l)
    match scrFault (rs.map (·.2)) with
    | some f => s.raise c f
    | none =>
      if c.parts = 0 then s
      else s.checkedScratch c t (rs.flatMap fun r => r.2.places) fun s =>
        let (s, olds) := s.atomsLanes t.tid o w (rs.map fun r => (r.1, r.2.places, z.vval o.ty o.c.toNat r.1))
        s.writeVal c.sid t.depth o.ty o.d.toNat (olds.map fun r => (r.1, o.ty.regBits r.2))

/-! ### Prefetch (R264) -/

/-- One line is brought near, or dropped and counted. -/
def State.prefetchLine (s : State) (t : Troop) (super : Bool) (lvl : Level) (va : Nat) : State :=
  match s.translate (some t.core) t.pad t.secure super .prefetch va with
  | (s, .ok pa pol part) =>
    if (s.inOpenRange t va 64).isSome then s
    else
      let line := pa / 64
      match lvl with
      | .trp => (s.pathRead t.pad t.core line pol part 0).1
      | .die =>
        match s.dieLine t.pad (dieOf t.core) line pol part with
        | (s, some d) =>
          if pol = 4 || (findLine s.l2 (dieOf t.core) line).isSome then s
          else s.putL2 { place := dieOf t.core, line := line, data := d, auth := false, dirty := 0 }
        | (s, none) => s
      | _ => (s.readHome t.pad line pol part).1
  | (s, _) =>
    s.updPad t.pad fun p =>
      { p with csbData := { p.csbData with prefetchDrops := min 0xFFFFFFFF (p.csbData.prefetchDrops + 1) } }

/-- PRFM: a lane that fails R184 is ignored. -/
def execPrfm (o : Operands) (s : State) : Out :=
  s.issue (.prfm o) noCheck fun c z t =>
    let b := z.breg o.b.toNat
    let vas := (c.lanes.filterMap fun l => match recAddr b (recSize b) (recIndex z o l) with
      | .at va => some (va / 64 * 64)
      | _ => none).dedup
    vas.foldl (fun s va => s.prefetchLine t c.super o.level va) s

/-! ### Buffer records (R265) -/

/-- BRMK. -/
def execBrmk (o : Operands) (s : State) : Out :=
  s.issue (.brmk o) noCheck fun c z t =>
    let q := fun i => z.sreg (o.a.toNat + i)
    let b : Record := q 3 ++ q 2 ++ q 1 ++ q 0
    if c.parts = 0 then s
    else if recordOk b then s.writeB c.sid t.depth o.d.toNat b
    else s.raise c .bounds

/-- BRQ. -/
def execBrq (o : Operands) (s : State) : Out :=
  s.issue (.brq o) noCheck fun c z _ =>
    s.putScalar c z o.d (BitVec.ofNat 64 (bitsNat (z.breg o.a.toNat) (64 * o.imm.toNat + 63) (64 * o.imm.toNat)))

/-! ### CQRY (R269) -/

/-- The snapshot of a level. -/
def State.queryLevel (s : State) (z : Str) (t : Troop) (l : Level) : Nat :=
  let sp := bufSpace z.sid t l
  let cap := bufCap t sp
  let used := s.used sp
  let held := match l with
    | .clu => (s.lines.filter fun x => x.space == sp && t.owns x.owner).length
    | _ => used
  if l.buffered then (cap - used) * 2 ^ 16 + held else 0

/-- CQRY. -/
def execCqry (o : Operands) (s : State) : Out :=
  s.issue (.cqry o) noCheck fun c z t =>
    s.putScalar c z o.d (BitVec.ofNat 64 (t.depth * 2 ^ 40 + (s.closedRounds t.core).length * 2 ^ 32 +
      s.queryLevel z t o.level))

/-! ### WAITV (R322) -/

/-- The condition of a WAITV lane has come true. -/
def waitvEnds (fn x y : Nat) : Bool := if fn = 0 then x != y else x == y

/-- WAITV: its participants are parked, and read when WAITV_REREAD says. A lane out of range reads 0. -/
def execWaitv (o : Operands) (s : State) : Out :=
  s.issue (.waitv o) noCheck fun c z t =>
    let w := o.ty.width / 8
    match recAddrs z o w c.lanes with
    | .error f => s.raise c f
    | .ok rs =>
      let es := (elemsOf w (fun l => z.vval o.ty o.c.toNat l) (fun _ => 0) rs).map fun (e : Elem) => { e with val := none }
      if c.parts = 0 then s
      else
        let (id, s) := s.addAccess (accessOf c t .waitv o.fn.toNat o.ty o.level 0 es)
        s.park c.sid c.parts (.waitv id)

/-- A WAITV lane leaves. -/
def State.waitvLeave (s : State) (a : Access) (ls : List Nat) : State :=
  let s := s.updStr a.sid fun z => z.mapLanes (maskOf ls) fun l => if l.park = .waitv a.id then { l with park := .none } else l
  let es := a.elems.map fun (e : Elem) => if ls.contains e.lane then { e with val := some 0 } else e
  if es.all (·.val.isSome) then { s with accs := s.accs.filter (·.id != a.id) }
  else s.updAcc a.id fun b => { b with elems := es }

/-- The waiting lanes of a refused line leave, with one late fault for the instruction (R262). -/
def State.waitvRefused (s : State) (a : Access) (l : LineReq) : State :=
  let ls := ((a.on l).filter (·.val.isNone)).map (·.lane)
  match a.fault, a.told with
  | some c, false => ((s.updAcc a.id fun b => { b with told := true }).waitvLeave { a with told := true } ls).lateFault a.sid c a.pc 0
      a.depth a.trap
  | _, _ => s.waitvLeave a ls

/-- One read of a WAITV lane whose line is translated. -/
def State.waitvRead (s : State) (t : Troop) (a : Access) (e : Elem) (i : Nat) (l : LineReq) (line pol part : Nat) : State :=
  if !s.loadMayGo a line [e] || s.readWaits a.sid (some e.lane) t.core line e.mask then s
  else
    match s.neededLine a.sid t [(some e.lane, e.mask)] l.va line pol part a.fresh with
    | (s, none) =>
      let s := s.updAcc a.id (·.refuse i .uncorrectableMemory)
      match s.acc? a.id with
      | some a => s.waitvRefused a l
      | none => s
    | (s, some d) =>
      let x := lineVal (s.assemble a.sid t (some e.lane) line e.mask d) (e.va % 64) e.w
      if waitvEnds a.fn x e.data then s.waitvLeave a [e.lane] else s.setLine a.id i .fresh

/-- WAITV_REREAD (R322): the read of one parked lane is made again, on a halted core after the resumption (R304). -/
def execWaitvReread (acc lane : Nat) (s : State) : Out :=
  match s.acc? acc with
  | none => .next s
  | some a =>
    match (s.str? a.sid).bind fun z => s.troop? z.tid, a.elems.find? (fun e => e.lane == lane && e.val.isNone) with
    | some t, some e =>
      if a.kind != .waitv || s.haltedCore t.core then .next s
      else if e.w = 0 then .next (if waitvEnds a.fn 0 e.data then s.waitvLeave a [lane] else s)
      else
        let i := a.lines.findIdx fun l => l.holds e
        match a.lines[i]? with
        | none => .next s
        | some l =>
          let s := if l.st == .fresh then s.requestLine t a i l else s
          match s.acc? acc with
          | none => .next s
          | some a =>
            match a.lines[i]? with
            | none => .next s
            | some l =>
              match l.st with
              | .ready line pol part => .next (s.waitvRead t a e i l line pol part)
              | .refused _ => .next (s.waitvRefused a l)
              | _ => .next s
    | _, _ => .next s

end Sys2Proof.Machine
end

