-- ==== Sys2Proof/Machine/Publish.lean ====
section
/-! DEFINITION. Publishing, discarding and acquiring: ACQ, COMMIT and ABORT (R209 to R216, R238, R240, R266 to R268), the lifts of
an outermost ACCEPT and of a final commit (R39, R223), commutative ranges (R224 to R228, R272, R273), and the system
instructions (R401). -/

namespace Sys2Proof.Machine

/-! ### Parked operations -/

/-- The bundle is parked on an operation of its own. -/
def State.startOp (s : State) (c : Cur) (t : Troop) (kind : SysKind) (lvl : Level) (arg arg2 : Nat) : State :=
  let (id, s) := s.fresh
  let op : SysOp :=
    { id := id, sid := c.sid, tid := t.tid, kind := kind, lvl := lvl, pc := c.pc, next := c.next, mask := c.bundle
      depth := t.depth, trap := c.trap, phase := .waiting, arg := arg, arg2 := arg2, cores := [], fault := none
      blocks := c.blocks, wasPref := (match s.str? c.sid with | some z => z.pref == some c.pc | none => false) }
  { s with ops := s.ops ++ [op] }.park c.sid c.bundle (.op id)

/-- The operation completes and its bundle goes on. -/
def State.endOp (s : State) (op : SysOp) : State :=
  { s with ops := s.ops.filter (·.id != op.id) }.unparkAll op.sid (.op op.id)

/-- The operation has not issued: its lanes stand at it again, parked as `p` says (R213, R242, R345, R388). -/
def State.unissue (s : State) (o : SysOp) (p : Park) : State :=
  { s with
    ops := s.ops.filter (·.id != o.id)
    rail := s.rail.filter (·.who != ReqWho.op o.id)
    heldReqs := s.heldReqs.filter (·.ent.who != ReqWho.op o.id)
    refusals := s.refusals.filter (·.1 != ReqWho.op o.id) }.standAgain o.sid (.op o.id) p o.pc o.next o.blocks o.wasPref

/-- The operation's bundle takes a precise trap at its instruction, or, where that is deferred, has not issued (R388). -/
def State.failOp (s : State) (op : SysOp) (c : Cause) : State :=
  if s.mustDefer op.sid op.trap then s.unissue op .deferred
  else (s.endOp op).raise (parkedCur op.sid op.mask op.pc op.next op.trap false) c

/-- The string and the troop of an operation. -/
def State.ownerOf (s : State) (op : SysOp) : Option (Str × Troop) :=
  (s.str? op.sid).bind fun z => (s.troop? z.tid).map fun t => (z, t)

/-! ### ACQ -/

/-- ACQ (R266). -/
def execAcq (o : Operands) (s : State) : Out :=
  s.issue (.acq o) noCheck fun c _ t => if c.parts = 0 then s else s.startOp c t .acq o.level 0 c.parts.toNat

/-- ACQ_COMPLETE (R238, R240). -/
def execAcqComplete (op : Nat) (s : State) : Out :=
  match s.op? op with
  | some op =>
    match op.kind, s.ownerOf op with
    | .acq, some (z, _) =>
      if s.loadsDone op.sid op.id (BitVec.ofNat 32 op.arg2) then
        .next ((s.acquire z.core op.lvl fun _ => true).endOp op)
      else .next s
    | _, _ => .next s
  | none => .next s

/-! ### COMMIT -/

/-- Carried bytes leave for their homes, discarding the shadow bytes of other troops (R205, R209). -/
def State.sendCarried (s : State) (t : Troop) (sid : Nat) (pc : Addr) (op : Nat) (lvl : Level) (trap : Bool)
    (cs : List Carried) : State :=
  cs.foldl (fun s c =>
    (s.discard t (.clu (clusterOf t.core)) c.line (maskBytes c.mask)).sendHome
      { wid := 0, core := t.core, rnd := 0, sid := sid, line := c.line, mask := c.mask, data := c.data, lvl := lvl
        atL2 := false, lanes := [], op := op, pc := pc, depth := t.depth, pol := c.pol, part := c.part, pad := t.pad
        trap := trap }) s

/-- The current round of a core closes, if fewer than eight are closed and unconfirmed (R212): its number. -/
def State.mayClose (s : State) (core : Nat) : Bool := decide ((s.closedRounds core).length < 8)

/-- Carried bytes leave, the round closes, and the operation waits for its rounds. -/
def State.publish (s : State) (t : Troop) (op : SysOp) (lvl : Level) (cs : List Carried) : State :=
  let s := s.sendCarried t op.sid op.pc op.id lvl op.trap cs
  let n := (s.openRound t.core).rnd
  (s.closeRound t.core).updOp op.id fun o => { o with phase := .sent, arg := n }

/-- COMMIT (R267). -/
def execCommit (o : Operands) (s : State) : Out :=
  s.issue (.commit o) noCheck fun c _ t =>
    if c.parts = 0 || o.level == .str then s else s.startOp c t .commit o.level 0 0

/-- An atomic of the string with an id below `before` and a scope up to the level has not written (R237, R245). -/
def State.atomsPending (s : State) (sid before : Nat) (l : Level) : Bool :=
  s.accs.any fun a => a.sid == sid && decide (a.id < before) && a.kind.writes && a.kind != .st && decide (a.lvl.code ≤ l.code) &&
    a.lines.any fun x => !x.st.ended

/-- A COMMIT completes, and records the loss of a write that it waited for (R381, R442). -/
def State.endCommit (s : State) (op : SysOp) : State :=
  let s := s.endOp op
  match op.fault with
  | some c => (s.lateFault op.sid c op.pc 0 op.depth op.trap).tellWrites op.id
  | none => s

/-- A COMMIT takes its next step: its wait, its take point, its completion (R210 to R212, R237). -/
def State.stepCommit (s : State) (op : SysOp) (z : Str) (t : Troop) : State :=
  let lvl := t.demote op.lvl
  match op.phase with
  | .waiting =>
    if s.haltedCore t.core || s.storesPending z.sid op.id || s.atomsPending z.sid op.id op.lvl then s
    else if lvl.buffered then
      match s.commitInto z t op.lvl false with
      | .ok s => s.endOp op
      | .error c => s.failOp op c
    else if !s.mayClose t.core then s
    else
      let cs := s.commitBytes z.sid t lvl
      if cs.any fun c => (s.inOpenRange t c.va 64).isSome then s.failOp op .rangeStore
      else (s.commitEmptied z.sid t lvl).publish t op lvl cs
  | _ => if s.roundsDone t.core op.arg lvl then s.endCommit op else s

/-! ### Lifts (R39, R223) -/

/-- The level to which a lift carries a line: its requested level, and for a final commit at least the packet's. -/
def liftTarget (t : Troop) (final : Bool) (l : BufLine) : Level := if final then (t.reqOf l).max t.finLvl else t.reqOf l

/-- The buffers that a lift empties: the protection-level buffer, or for a final commit the troop buffer and the shadow
lines. -/
def liftSpaces (t : Troop) (final : Bool) : List Space :=
  let clu := Space.clu (clusterOf t.core)
  if final then [.trp t.tid, clu]
  else if t.tandem.isSome || t.outr.isSome then [clu] else [.trp t.tid]

/-- The line is one that the lift still has to carry. -/
def State.liftWants (s : State) (t : Troop) (final : Bool) (l : BufLine) : Bool :=
  l.covered == 0 && s.sees t l && !(t.carries l).isEmpty && (match l.space with
    | .clu _ => decide (Level.clu.code < (liftTarget t final l).code) || (final && l.held)
    | _ => decide (Level.trp.code < (liftTarget t final l).code))

/-- The narrowest level that a lift has left. -/
def State.liftNext (s : State) (t : Troop) (final : Bool) : Option Level :=
  let todo := (s.lines.filter fun l => (liftSpaces t final).contains l.space && s.liftWants t final l).map (liftTarget t final)
  allLevels.find? todo.contains

/-- What a lift carries to one level, and the state that it leaves. -/
def State.liftTake (s : State) (t : Troop) (final : Bool) (lvl : Level) : List Carried × State :=
  (liftSpaces t final).foldl (fun (cs, s) sp =>
    let p := fun (l : BufLine) => s.liftWants t final l && liftTarget t final l == lvl
    let mine := (s.carriedFrom t sp).filter fun c => match s.visible t sp c.line with | some l => p l | none => false
    (Machine.overlay cs mine, s.emptiedIf t sp p)) ([], s)

/-- A lift begins: the COMMITs that it makes are those of one operation of the troop. That of a redundant troop follows a
decision, and completes before a cut saves the troop (R437). -/
def State.startLift (s : State) (tid : Nat) (pc : Addr) (final : Bool) : State :=
  let (id, s) := s.fresh
  let decided : Bool := match s.troop? tid with | some t => t.outr.isSome | none => false
  let op : SysOp :=
    { id := id, sid := ((s.strsOf tid).map (·.sid)).headD 0, tid := tid, kind := .lift, lvl := .trp, pc := pc, next := 0
      mask := 0, depth := 0, trap := false, phase := if decided then .published else .waiting, arg := 0
      arg2 := if final then 1 else 0, cores := [], fault := none }
  { s with ops := s.ops ++ [op] }.updTroop tid fun t => { t with st := .lifting final }

/-- The last of a troop's commits has completed: it releases its slots, registers, scratchpad, stable quota and barriers, and
leaves its tandem (R39, R431). -/
def State.finishTroop (s : State) (t : Troop) : State :=
  let s := s.dropMat t.core t.tid
  let s := { s with
    lines := s.lines.filter fun l => match l.space with
      | .str _ => !s.ofTroop t l
      | .trp i => i != t.tid
      | .clu _ => !(l.held && s.ofTroop t l)
    nodes := s.nodes.filter (·.tid != t.tid)
    bars := s.bars.filter (s.notTroopBar t.tid)
    strs := s.strs.filter (·.tid != t.tid)
    tandems := (s.tandems.map fun (d : Tandem) => { d with tids := d.tids.filter (· != t.tid) }).filter fun d => !d.tids.isEmpty }
  let s := s.updTroop t.tid fun t => { t with st := .ended none, scratch := [], words := [], tandem := none }
  let tie : Bool := match t.outr with | some o => o.role == OutrRole.tieBreak | none => false
  let s := if tie then s else s.updLaunch t.launch fun l => { l with live := l.live - 1 }
  (s.sharedKeys t).foldl (fun s k => s.checkBar k) s

/-- A lift has carried everything: the troop retires, or its ACCEPT completes, in a tandem when every member's has (R223,
R430). -/
def State.liftDone (s : State) (op : SysOp) (t : Troop) : State :=
  let s := { s with ops := s.ops.filter (·.id != op.id) }
  if op.arg2 = 1 then s.finishTroop t
  else
    let ms := s.members t
    if s.ops.any fun o => o.kind == .lift && ms.any (·.tid == o.tid) then s
    else ms.foldl (fun s m =>
      { s with strs := updAll (·.tid == m.tid) (fun (z : Str) => z.unpark fun p => p == Park.collective) s.strs }.updTroop m.tid fun m =>
        { m with st := .running }) s

/-- What a lift may carry of what it has taken: bytes in an open range are not carried, and fault late (R228). -/
def State.liftChecked (s : State) (op : SysOp) (t : Troop) (cs : List Carried) (go : State → List Carried → State) : State :=
  let bad := cs.filter fun c => (s.inOpenRange t c.va 64).isSome
  let s := go s (cs.filter fun c => !bad.contains c)
  if bad.isEmpty then s else s.lateFault op.sid .rangeStore op.pc 0 op.depth false

/-- The lift completes before a cut saves its troop: it is that of an outermost ACCEPT past its take point, or it follows a
comparison (R432, R437). -/
def State.liftBound (s : State) (op : SysOp) : Bool :=
  op.kind == .lift && op.phase != .waiting && (op.arg2 != 1 || (match s.troop? op.tid with | some t => t.outr.isSome | none => false))

/-- The lifts of an outermost ACCEPT are past its take point in every member of a tandem. -/
def State.takeAccept (s : State) (t : Troop) (final : Bool) : State :=
  if final then s
  else
    let ms := s.members t
    let waits := fun (o : SysOp) => o.kind == .lift && o.phase == .waiting && ms.any (·.tid == o.tid)
    { s with ops := updAll waits (fun o => { o with phase := .published }) s.ops }

/-- A lift takes its next step: level by level, from narrowest to widest, each COMMIT complete before the next. On a halted core it
takes no further one (R213), but for one that is bound to complete. -/
def State.stepLift (s : State) (op : SysOp) (t : Troop) : State :=
  let final : Bool := op.arg2 == 1
  if (s.haltedCore t.core && !s.liftBound op) || (op.phase == .sent && !s.roundsDone t.core op.arg op.lvl) then s
  else
    match s.liftNext t final with
    | none =>
      if op.phase != .sent && final && !t.finLvl.buffered then
        if s.mayClose t.core then (s.publish t op t.finLvl []).updOp op.id fun o => { o with lvl := t.finLvl } else s
      else s.liftDone op t
    | some lvl =>
      if lvl.buffered then
        let (cs, s) := (s.takeAccept t final).liftTake t final lvl
        s.liftChecked op t cs fun s cs =>
          let hit := cs.any fun c => s.entersOver t (.clu (clusterOf t.core)) c.line (maskBytes c.mask) t.owner
          let s := cs.foldl (fun s c => s.editLine { t with outr := none } (.clu (clusterOf t.core)) c.line c.va c.pol c.part
            fun b => { b.put t.owner (lineBytes c.mask c.data) with owner := t.owner }) s
          if hit then s.countConflict t.tid else s
      else if !s.mayClose t.core then s
      else
        let (cs, s) := (s.takeAccept t final).liftTake t final lvl
        s.liftChecked op t cs fun s cs => (s.publish t op lvl cs).updOp op.id fun o => { o with lvl := lvl }

/-- COMMIT_COMPLETE (R211, R223, R39): a COMMIT or a lift advances. -/
def execCommitComplete (op : Nat) (s : State) : Out :=
  match s.op? op with
  | none => .next s
  | some op =>
    match op.kind with
    | .commit => match s.ownerOf op with
      | some (z, t) => .next (s.stepCommit op z t)
      | none => .next s
    | .lift => match s.troop? op.tid with
      | some t => .next (s.stepLift op t)
      | none => .next s
    | _ => .next s

/-- ROUND_CONFIRM (R212): the combined answer to a core's query. -/
def execRoundConfirm (core : Nat) (s : State) : Out := .next (s.confirmRounds core)

/-- HOME_WRITE_ARRIVAL (R204, R212): a write arrives at its L2 home slice, and then at its home. -/
def execHomeWriteArrival (wid : Nat) (s : State) : Out := .next (s.arriveWrite wid)

/-! ### ABORT -/

/-- ABORT (R268). -/
def execAbort (o : Operands) (s : State) : Out :=
  s.issue (.abort o) noCheck fun c _ t => if c.parts = 0 then s else s.startOp c t .abort o.level 0 0

/-- The hitched stores that an ABORT cancels (R215): those of the discarded strings at its level or below. -/
def State.cancelHitched (s : State) (sid : Nat) (t : Troop) (lvl : Level) : State :=
  let mine := fun (a : Access) => a.kind == .st && decide ((t.demote a.lvl).code ≤ lvl.code) &&
    (a.sid == sid || (decide (1 ≤ lvl.code) && (s.strsOf t.tid).any (·.sid == a.sid)))
  let gone := fun (e : RailEnt) => match e.who with
    | .acc id _ => s.accs.any fun a => a.id == id && mine a
    | _ => false
  let ids := (s.accs.filter fun a => mine a && a.lines.any fun l => l.st.hitched).map (·.id)
  let s := { s with
    accs := updAll mine (fun a => { a with lines := a.lines.map fun (l : LineReq) =>
      if l.st.hitched then { l with st := .done } else l }) s.accs
    rail := s.rail.filter fun e => !gone e
    heldReqs := s.heldReqs.filter fun h => !gone h.ent }
  ids.foldl (fun s id => s.settleStore id) s.grant

/-- The virtual byte ranges that an ABORT would discard. -/
def State.abortRanges (s : State) (sid : Nat) (t : Troop) (lvl : Level) : List (Int × Int) :=
  let sps := s.abortSpaces sid t lvl
  (s.lines.filter fun l => sps.contains l.space && l.epoch == t.depth).flatMap fun l =>
    (t.carries l).map fun (i, _) => (((l.va + i : Nat) : Int), ((l.va + i + 1 : Nat) : Int))

/-- ABORT_COMPLETE (R214 to R216): cancelled stores, forced nodes, accepted stores, then the discard. -/
def execAbortComplete (op : Nat) (s : State) : Out :=
  match s.op? op with
  | none => .next s
  | some op =>
    match op.kind, s.ownerOf op with
    | .abort, some (z, t) =>
      let s := s.cancelHitched z.sid t op.lvl
      let f : Force := { sid := op.sid, pc := op.pc, depth := op.depth, trap := op.trap, wait := op.id }
      match s.guardWrite t.tid f (s.abortRanges z.sid t op.lvl) with
      | (s, false) => .next s
      | (s, true) =>
        if s.storesPending z.sid op.id then .next s
        else
          let s := (s.abortBuffers z.sid t op.lvl).prune.takeFlags op.id
          let s := if op.lvl == .str then s
            else { s with strs := updAll (fun y => y.tid == t.tid && y.sid != z.sid) (fun y => { y with aborted := true }) s.strs }
          .next (s.endOp op)
    | _, _ => .next s

/-! ### Spans of lines -/

/-- The physical spans, as first line and number of lines, of the pages of a virtual range that translate. -/
def State.spansOf (s : State) (t : Troop) (super : Bool) (base len : Nat) : State × List (Nat × Nat) :=
  (List.range (len / 65536 + 2)).foldl (fun (s, ps) i =>
    let lo := max base ((base / 65536 + i) * 65536)
    let hi := min (base + len) ((base / 65536 + i + 1) * 65536)
    if hi ≤ lo then (s, ps)
    else
      match s.translate (some t.core) t.pad t.secure super .prefetch lo with
      | (s, .ok pa _ _) => (s, ps ++ [(pa / 64, (hi - lo) / 64)])
      | (s, _) => (s, ps)) (s, [])

def inSpans (ps : List (Nat × Nat)) (line : Nat) : Bool := ps.any fun p => decide (p.1 ≤ line) && decide (line < p.1 + p.2)

/-! ### Commutative ranges -/

/-- The lowest free slot of a context (R224). -/
def State.freeSlot (s : State) (t : Troop) : Option Nat :=
  (List.range 16).find? fun i => !s.ranges.any fun r => r.pad == t.pad && r.slot == i

/-- Two ranges of a context share a byte. -/
def State.rangeClash (s : State) (t : Troop) (base len : Nat) : Bool :=
  s.ranges.any fun r => r.pad == t.pad && r.secure == t.secure && decide (r.base < base + len) &&
    decide (base < r.base + r.len)

/-- CROPEN (R224, R272): the range stands in the instruction's word 1 and its operands; `arg` holds the base, `arg2` the
length, the type and the operator. DESIGN CHOICE (log entry 39): the order of its operand faults, and BOUNDS for a length of 0 or above
2^32. -/
def execCropen (o : Operands) (s : State) : Out :=
  s.issue (.cropen o) noCheck fun c z t =>
    let a := z.sreg o.a.toNat
    let base := (addr56 a).toNat
    let len := (z.sreg o.b.toNat).toNat
    if c.parts = 0 then s
    else if t.held then s.raise c .recoveryEscape
    else if base % 64 != 0 || len % 64 != 0 then s.raise c .misaligned
    else if !canonical a || !spanOk base len then s.raise c .noncanonical
    else if len < 64 || 2 ^ 32 < len then s.raise c .bounds
    else s.startOp c t .cropen .str base (len * 256 + o.ty.code * 4 + o.fn.toNat)

/-- RANGE_DECLARATION_COMPLETE (R224, R272, R275): the range table receives the declaration, in its order and before the core halts,
and then every core and home slice holds it, and no cache holds a read
copy of its lines (R226). -/
def execRangeDeclarationComplete (op : Nat) (s : State) : Out :=
  match s.op? op with
  | none => .next s
  | some op =>
    match op.kind, op.phase, s.ownerOf op with
    | .cropen, .waiting, some (_, t) =>
      let len := op.arg2 / 256
      match s.freeSlot t with
      | none => .next (if s.haltedCore t.core then s else s.failOp op .bounds)
      | some slot =>
        if s.haltedCore t.core then .next s
        else if s.rangeClash t op.arg len then .next (s.failOp op .bounds)
        else
          let r : Range := { pad := t.pad, secure := t.secure, slot := slot, base := op.arg, len := len
                             ty := (Ty.ofCode (op.arg2 / 4 % 32)).getD .f32, op := op.arg2 % 4, st := .opening }
          .next ({ s with ranges := s.ranges ++ [r] }.updOp op.id fun o => { o with phase := .sent })
    | .cropen, _, some (_, t) =>
      let (s, ps) := s.spansOf t (State.isSuper t op.trap) op.arg (op.arg2 / 256)
      let s := s.dropCopies (inSpans ps)
      .next ({ s with ranges := updAll (fun r => r.pad == t.pad && r.secure == t.secure && r.base == op.arg)
                        (fun r => { r with st := .isOpen }) s.ranges }.endOp op)
    | _, _, _ => .next s

/-- CRCLOSE (R273). DESIGN CHOICE (log entry 39): a base that is not canonical is one at which no range is open. -/
def execCrclose (o : Operands) (s : State) : Out :=
  s.issue (.crclose o) noCheck fun c z t =>
    let a := z.sreg o.a.toNat
    if c.parts = 0 then s
    else if t.held then s.raise c .recoveryEscape
    else if !canonical a || !s.ranges.any (fun r => r.pad == t.pad && r.secure == t.secure && r.st == .isOpen &&
        r.base == (addr56 a).toNat) then s.raise c .bounds
    else s.startOp c t .crclose .str (addr56 a).toNat 0

/-- The RADDs that the range table received before the close have been applied. What a cut finds hitched it records, and the range
table receives it again after the resumption, after this close (R275, R304, R367; log entry 40). -/
def State.raddsDone (s : State) (t : Troop) (r : Range) : Bool :=
  s.accs.all fun a => a.kind != .radd || (match s.str? a.sid with
    | some z => (match s.troop? z.tid with | some u => u.pad != t.pad || u.secure != t.secure | none => true)
    | none => true) || a.elems.all fun e => a.elemDone e || decide (e.va < r.base) || decide (r.base + r.len ≤ e.va) ||
      a.lines.any fun l => l.holds e && l.st.hitched && (match s.str? a.sid with | some z => s.haltedCore z.core | none => false)

/-- RANGE_CLOSE_COMPLETE (R227, R273, R275): the range table receives the close before the core halts, and then every line with partials is gathered and its
result written, and the slot is freed. -/
def execRangeCloseComplete (op : Nat) (s : State) : Out :=
  match s.op? op with
  | none => .next s
  | some op =>
    match op.kind, s.ownerOf op with
    | .crclose, some (_, t) =>
      let mine := fun (r : Range) => r.pad == t.pad && r.secure == t.secure && r.base == op.arg && r.st != .opening
      match s.ranges.find? mine, op.phase with
      | some r, .waiting =>
        if s.haltedCore t.core then .next s
        else if r.st == .isOpen then
          .next ({ s with ranges := updAll mine (fun r => { r with st := .closing }) s.ranges }.updOp op.id fun o =>
            { o with phase := .sent })
        else .next (s.failOp op .bounds)
      | none, .waiting => .next (if s.haltedCore t.core then s else s.failOp op .bounds)
      | some r, _ =>
        if !s.raddsDone t r then .next s
        else
          let (s, bad) := (s.partialLines r).foldl (fun (s, bad) line =>
            match s.gather r line 3 0 with
            | (s, some _) => (s, bad)
            | (s, none) =>
              ({ s with partials := s.partials.filter fun p => !(p.pad == r.pad && p.range == r.slot && p.line == line) }, true))
            (s, false)
          let s := { s with ranges := s.ranges.erase r }.endOp op
          .next (if bad then s.lateFault op.sid .uncorrectableMemory op.pc 0 op.depth op.trap else s)
      | none, _ => .next (s.endOp op)
    | _, _ => .next s

/-! ### System instructions (R401) -/

/-- TLBI. -/
def execTlbi (o : Operands) (s : State) : Out :=
  s.issue (.tlbi o) noCheck fun c z t =>
    let a := (z.sreg o.a.toNat).toNat
    let n := (z.sreg o.b.toNat).toNat
    if c.parts = 0 then s
    else if !c.super then s.raise c .privileged
    else if a % 2 ^ 16 != 0 then s.raise c .misaligned
    else if 2 ^ 56 ≤ a || 2 ^ 31 ≤ n then s.raise c .bounds
    else s.startOp c t .tlbi .str (a / 2 ^ 16) n

/-- The checks of a range of CFLUSH and CINV. -/
def rangeFault (a n : Dword) : Option Cause :=
  if !canonical a || !spanOk (addr56 a).toNat n.toNat then some .noncanonical
  else if a.toNat % 64 != 0 then some .misaligned
  else if n.toNat % 64 != 0 || n.toNat < 64 || 2 ^ 32 < n.toNat then some .bounds
  else none

/-- CFLUSH. -/
def execCflush (o : Operands) (s : State) : Out :=
  s.issue (.cflush o) noCheck fun c z t =>
    let a := z.sreg o.a.toNat
    let n := z.sreg o.b.toNat
    if c.parts = 0 then s
    else if !c.super then s.raise c .privileged
    else match rangeFault a n with
      | some f => s.raise c f
      | none => s.startOp c t .cflush .str (addr56 a).toNat n.toNat

/-- CINV: `arg2` also holds the lanes whose loads it waits for. -/
def execCinv (o : Operands) (s : State) : Out :=
  s.issue (.cinv o) noCheck fun c z t =>
    let a := z.sreg o.a.toNat
    let n := z.sreg o.b.toNat
    if c.parts = 0 then s
    else match rangeFault a n with
      | some f => s.raise c f
      | none => s.startOp c t .cinv o.level (addr56 a).toNat (n.toNat * 2 ^ 32 + c.parts.toNat)

/-- CFLUSH's effect on the lines that `p` names: authority returns to the home, read copies go, and the LLC writes and drops its
line. -/
def State.flushLines (s : State) (p : Nat → Bool) : State :=
  let ls := ((s.l1.map (·.line) ++ s.l2.map (·.line) ++ s.llc.map (·.line)).filter p).dedup
  ls.foldl (fun s line =>
    let s := s.returnAuth line
    { s with l1 := s.l1.filter (·.line != line), l2 := s.l2.filter (·.line != line) }.dropLlc line) s

/-- A system operation takes its next step (R401): a TLBI starts its invalidation when none is in progress and ends with it; a
CFLUSH or CINV completes. -/
def State.stepSystemOp (s : State) (op : SysOp) (z : Str) (t : Troop) : State :=
  let super := State.isSuper t op.trap
  match op.kind, op.phase with
  | .tlbi, .waiting =>
    if s.haltedCore t.core || ((s.pad? t.pad).bind (·.inval)).isSome then s
    else (s.startInval t.pad op.arg op.arg2 (some op.id)).updOp op.id fun o => { o with phase := .sent }
  | .tlbi, _ =>
    match (s.pad? t.pad).bind (·.inval) with
    | some v =>
      if v.op = some op.id then
        if s.invalDone t.pad v then (s.endInval t.pad v).endOp op else s
      else s.endOp op
    | none => s.endOp op
  | .cflush, _ =>
    if s.haltedCore t.core then s
    else
      let (s, ps) := s.spansOf t super op.arg op.arg2
      (s.flushLines (inSpans ps)).endOp op
  | .cinv, _ =>
    if s.haltedCore t.core then s
    else if s.loadsDone op.sid op.id (BitVec.ofNat 32 op.arg2) then
      let (s, ps) := s.spansOf t super op.arg (op.arg2 / 2 ^ 32)
      (s.acquire z.core op.lvl (inSpans ps)).endOp op
    else s
  | _, _ => s

end Sys2Proof.Machine
end

