-- ==== Sys2Proof/Machine/Copy.lean ====
section
/-! DEFINITION. The engines: how an engine operation reads and writes global and scratchpad bytes (R247 to R249, R278, R284), and
the copies ACPY, ACPY2, AGATH, LDTS and ACOLL (R277 to R287). -/

namespace Sys2Proof.Machine

/-! ### Reading bytes at the moment they are read (R207, R248) -/

/-- What reading or writing a span of bytes gives: a page that is not present with the privilege and the kind of the access. -/
inductive SpanRes where
  | wait
  | absent (va lvl : Nat) (super : Bool) (kind : AccessKind)
  | refused (c : Cause)
  | ok (x : Nat)
  deriving DecidableEq, Repr

/-- The parts of a span by line: its address, the bytes before it, its length. -/
def spanParts (va n : Nat) : List (Nat × Nat × Nat) :=
  if n = 0 then []
  else
    let k := min n (64 - va % 64)
    (va, 0, k) :: if k < n then [(va + k, k, n - k)] else []

/-- The parts are read one after the other, each with `get`. -/
def State.readParts (get : State → Nat → Dword → State × ReadRes) (super : Bool) (kind : AccessKind) (s : State) :
    List (Nat × Nat × Nat) → State × SpanRes
  | [] => (s, .ok 0)
  | (va, off, k) :: ps =>
    match get s va (spanMask (va % 64) k) with
    | (s, .ok d) => match State.readParts get super kind s ps with
      | (s, .ok x) => (s, .ok (x + lineVal d (va % 64) k * 2 ^ (8 * off)))
      | r => r
    | (s, .wait) => (s, .wait)
    | (s, .absent lvl) => (s, .absent va lvl super kind)
    | (s, .refused c) => (s, .refused c)

/-- At most 64 bytes read for an engine of a string, or, when `spill`, from a spill area (R207). -/
def State.readSpan (s : State) (sid : Nat) (t : Troop) (super : Bool) (va n : Nat) (kind : AccessKind := .read)
    (spill : Bool := false) : State × SpanRes :=
  s.readParts (fun s va m => if spill then s.readSpill t super va else s.readVirt sid t super va 0 m kind) super kind (spanParts va n)

/-! ### Items of an engine operation -/

/-- What an operation forces is recorded against it (R172, R175). -/
def EngOp.force (e : EngOp) : Force := { sid := e.sid, pc := e.pc, depth := e.depth, trap := e.trap, wait := e.id }

/-- An item has been performed. -/
def State.engDone (s : State) (id item : Nat) : State := s.updEng id fun e => { e with done := item :: e.done }

/-- The operation meets a fault, and keeps the first cause (R284). -/
def State.engFault (s : State) (id : Nat) (c : Cause) : State := s.updEng id fun e => { e with fault := firstFault e.fault c }

/-- An item has failed: it is not written. -/
def State.engFail (s : State) (id item : Nat) (c : Cause) : State := (s.engFault id c).engDone id item

/-- An item meets a not-present page, with the privilege and the kind of its access (R284, R359, R362). -/
def State.engHitch (s : State) (t : Troop) (e : EngOp) (item : Nat) (super : Bool) (kind : AccessKind) (va lvl : Nat) : State :=
  let (id, s) := s.fresh
  s.hitch (railFor t e.sid e.depth super kind va id (.eng e.id item)) lvl

/-- The item may be stepped: it is neither done nor at the rail, nor held by its core. -/
def State.engOpen (s : State) (e : EngOp) (item : Nat) : Bool :=
  !e.done.contains item && !e.railed.any (·.1 == item) && !s.heldReqs.any fun h => h.ent.who == .eng e.id item

/-- Bytes of one line are written for an item, as a store of the issuing string at the operation's level (R204, R205, R217 to
R221, R278). -/
def State.engWrite (s : State) (z : Str) (t : Troop) (e : EngOp) (item va : Nat) (bs : List Byte) : State :=
  if (s.inOpenRange t va bs.length).isSome then s.engFail e.id item .rangeStore
  else if !s.loadsDone e.sid e.id e.lanes then s
  else
    match s.guardWrite t.tid e.force [((va : Int), ((va + bs.length : Nat) : Int))] with
    | (s, false) => s
    | (s, true) =>
      match s.translate (some t.core) t.pad t.secure e.super .write va with
      | (s, .absent lvl) => s.engHitch t e item e.super .write va lvl
      | (s, .refused c) => s.engFail e.id item c
      | (s, .ok pa pol part) =>
        let ps := (List.range bs.length).map fun k => (va % 64 + k, bs.getD k 0)
        if (t.demote e.lvl).buffered then
          match s.storeBuffer z t e.lvl (pa / 64) (va / 64 * 64) pol part ps with
          | .ok s => s.engDone e.id item
          | .error c => s.engFail e.id item c
        else
          let (m, d) := packLine ps
          ((s.discardBelow e.sid t e.lvl (pa / 64) (ps.map (·.1))).sendHome
            { wid := 0, core := t.core, rnd := 0, sid := e.sid, line := pa / 64, mask := m, data := d, lvl := e.lvl
              atL2 := false, lanes := [(32, m)], op := e.id, pc := e.pc, depth := e.depth, pol := pol, part := part
              pad := t.pad, trap := e.trap
              hid := s.hiddenBy e.sid t e.lvl (pa / 64) (ps.map (·.1)) }).engDone e.id item

/-- Scratchpad bytes are written for an item, as an STS of the issuing string (R175, R234, R246, R278). -/
def State.engScratch (s : State) (t : Troop) (e : EngOp) (item : Nat) (places : List Nat) (x : Nat) : State :=
  if !s.loadsDone e.sid e.id e.lanes then s
  else match s.guardScratch t.tid e.force places with
  | (s, false) => s
  | (s, true) => (s.writeScratch t.tid (places.zip (bytesOf places.length x))).engDone e.id item

/-- A byte range that an item writes: of scratchpad places or of global addresses. -/
abbrev Target := Bool × Int × Int

/-- Two byte ranges share a byte, or may share one: global ranges that two pages of one frame hold do when they are at one place of
their pages (log entry 129). -/
def Target.clash (a b : Target) : Bool :=
  a.1 == b.1 && if a.1 then meets a.2 b.2
    else
      let d := (b.2.1 - a.2.1) % 65536
      decide (d < a.2.2 - a.2.1) || decide (65536 < d + (b.2.2 - b.2.1))

/-- Every write that the operation sent at die level or wider has been performed at its level (R249). -/
def State.engWritesDone (s : State) (e : EngOp) : Bool :=
  s.writes.all fun w => w.op != e.id || (w.lvl == .die && w.atL2)

/-- An older operation of the class is outstanding (R247). -/
def State.olderEng (s : State) (e : EngOp) : Bool :=
  s.engs.any fun f => f.sid == e.sid && f.kind.cls == e.kind.cls && decide (f.id < e.id)

/-- The operation retires: its flags reach FPFLAGS, its faults are recorded (those of a tile operation were when it met
them), it leaves its counter and lets CWAITs go (R172, R247, R280, R284, R285). -/
def State.retireEng (s : State) (e : EngOp) : State :=
  let s := ({ s with engs := s.engs.filter (·.id != e.id) }.takeFlags e.id).orFlags e.sid e.flags
  let s := if e.kind.cls == 0 && e.flags &&& e.fpc.extractLsb' 1 5 != 0 then s.lateFault e.sid .fpException e.pc 0 e.depth e.trap else s
  let s := match e.fault, e.kind.cls with
    | some _, 1 => s.tellWrites e.id
    | some c, _ => (s.lateFault e.sid c e.pc 0 e.depth e.trap).tellWrites e.id
    | none, _ => s
  s.endCwait e.sid

/-! ### The items of a copy (R278 to R283) -/

/-- ES of R278: the element size of the record. -/
def EngOp.es (e : EngOp) : Nat := recSize e.record

/-- The element size on the scratchpad side. -/
def EngOp.esScr (e : EngOp) : Nat := if e.cvt then e.ty.width / 8 else e.es

/-- The width of an LDTS element in bits. -/
def EngOp.tapBits (e : EngOp) : Nat := if recFormat e.record = Ty.tap6.code then 6 else 8

/-- The number of items: elements, or for LDTS groups of four elements and then scale bytes. -/
def EngOp.count (e : EngOp) : Nat :=
  match e.kind with
  | .ldts => e.groups + e.rows * (e.cols / 32)
  | _ => e.rows * e.cols

/-- The troop's scratchpad word at a plain address. -/
def Troop.scratchAt (t : Troop) (a : Nat) : Nat := t.readScratch (scrPlain t.scratchSize a 4).places

/-- The index of a row of an AGATH: the one read when the engine reached the row, or what stands there (R281). -/
def EngOp.rowIndex (e : EngOp) (t : Troop) (row : Nat) : Nat :=
  match e.gidx.find? (·.1 == row) with
  | some r => r.2
  | none => t.scratchAt (e.origin.toNat + 4 * row)

/-- The engine reaches the row of an item and reads its index, once (R281). -/
def EngOp.reach (e : EngOp) (t : Troop) (item : Nat) : EngOp :=
  let row := item / e.cols
  if e.kind == .agath && !e.gidx.any (·.1 == row) then { e with gidx := (row, e.rowIndex t row) :: e.gidx } else e

/-- The global element index of an item (R278). -/
def EngOp.index (e : EngOp) (t : Troop) (item : Nat) : Int :=
  match e.kind with
  | .agath => (e.rowIndex t (item / e.cols) : Int) * e.rstride + (item % e.cols : Nat)
  | .ldts => e.origin + (4 * item / e.cols : Nat) * e.rstride + (4 * item % e.cols : Nat)
  | _ => e.origin + (item / e.cols : Nat) * e.rstride + (item % e.cols : Nat)

/-- The elements in range of a group of four (R282). -/
def EngOp.groupLive (e : EngOp) (x : Int) : Nat :=
  if x < 0 || (recExtent e.record : Int) ≤ x then 0 else min 4 ((recExtent e.record : Int) - x).toNat

/-- The global place of an item and its bytes (R184, R282). DESIGN CHOICE (log entry 158): each byte of an LDTS group is an access of its
own, so that a tap6 element whose six bits lie in the bytes 2^55 − 1 and 2^55 raises no NONCANONICAL; R278 gives w = 1 and does not say
which bytes are one access, and a view tests both as one. -/
def EngOp.global (e : EngOp) (t : Troop) (item : Nat) : AddrRes × Nat :=
  match e.kind with
  | .ldts =>
    if item < e.groups then
      let x := e.index t item
      let n := (e.tapBits * e.groupLive x + 7) / 8
      if n = 0 then (.out, 0)
      else
        let a : Int := recBase e.record + (if e.tapBits = 6 then 3 * (x / 4) else x)
        (if (List.range n).all fun k => spanOk (a + k) 1 then .at a.toNat else .noncanonical, n)
    else
      let m := item - e.groups
      let nb := e.cols / 32
      let a : Int := recScaleBase e.record + (e.origin + (m / nb : Nat) * e.rstride) / 32 + (m % nb : Nat)
      (if spanOk a 1 then .at a.toNat else .noncanonical, 1)
  | _ => (recAddr e.record e.es (e.index t item), e.es)

/-- The scratchpad places of an item (R189 to R191, R278, R282). -/
def EngOp.places (e : EngOp) (t : Troop) (item : Nat) : ScrRes :=
  let spot := scrPlaces t.scratchSize (recMode e.record) (recParam e.record)
  match e.kind with
  | .ldts =>
    if item < e.groups then spot ((e.off + e.tapBits / 2 * item : Nat) : Int) (if item = 0 then 4 else 1) (e.tapBits / 2)
    else spot ((e.off + e.tapBits / 2 * e.groups + (item - e.groups) : Nat) : Int) 1 1
  | _ => spot ((e.off + item * e.esScr : Nat) : Int) e.esScr e.esScr

/-- What an item writes. -/
def EngOp.targets (e : EngOp) (t : Troop) (item : Nat) : List Target :=
  if e.dir || e.kind == .acoll then
    match e.global t item with
    | (.at va, n) => [(false, (va : Int), ((va + n : Nat) : Int))]
    | _ => []
  else (e.places t item).places.map fun (p : Nat) => (true, (p : Int), (p : Int) + 1)

/-- Some item of an operation, below a number, is not done and writes one of these bytes. -/
def EngOp.pendingOn (f : EngOp) (n : Nat) (targets : Nat → List Target) (mine : List Target) : Bool :=
  (List.range n).any fun i => !f.done.contains i && (targets i).any fun x => mine.any x.clash

/-- The older operations of the class (R247). -/
def State.olderEngs (s : State) (e : EngOp) : List EngOp :=
  s.engs.filter fun f => f.sid == e.sid && f.kind.cls == e.kind.cls && decide (f.id < e.id)

/-- A row of a scatter below a number has not been reached: its index is not read yet, and it may write any byte (R281). -/
def EngOp.unreached (f : EngOp) (n : Nat) : Bool :=
  f.kind == .agath && f.dir && f.cols != 0 && (List.range n).any fun i => !f.gidx.any (·.1 == i)

/-- An item waits for an item of an older operation of its class that writes, or may write, a byte of its own, and an AGATH for its
rows before (R249, R281). -/
def State.copyWaits (s : State) (t : Troop) (e : EngOp) (item : Nat) : Bool :=
  let mine := e.targets t item
  (s.olderEngs e).any (fun f => (f.unreached f.rows && mine.any (!·.1)) || f.pendingOn f.count (f.targets t) mine) ||
    (e.kind == .agath && e.dir && (e.unreached (item / e.cols) || e.pendingOn (item / e.cols * e.cols) (e.targets t) mine))

/-- A converted element: its pattern and its flags (R280). -/
def EngOp.convert (e : EngOp) (x : Nat) : Nat × Flags :=
  if e.cvt then
    let g := (Ty.ofCode (recFormat e.record)).getD .b32
    let (d, src) := if e.dir then (g, e.ty) else (e.ty, g)
    let (y, f) := cvtVal d src .rne e.ftz x
    (y % 2 ^ d.width, f)
  else (x, 0)

/-- Flags of an item join the operation's. -/
def State.engFlags (s : State) (id : Nat) (f : Flags) : State :=
  s.updEng id fun e => { e with flags := e.flags ||| f }

/-- The flags of an item's conversion join the operation's when the item has ended. DEDUCED (log entry 161): R280 ORs the flags that the
conversions raise, those of an element whose write then fails among them; while the item waits for a page they wait with it. -/
def State.engFlagsDone (s : State) (e : EngOp) (item : Nat) (f : Flags) : State :=
  match s.eng? e.id with
  | some e' =>
    if e'.done.contains item then s.engFlags e.id f
    else s.updEng e.id fun e =>
      { e with met := { item := item, chain := [], cell := none, ran := some (f, false) } :: e.met.filter (·.item != item) }
  | none => s

/-- A line of some bytes has been refused to an item at the rail. -/
def EngOp.lostAt (e : EngOp) (item va n : Nat) : Bool := (spanParts va n).any fun p => e.lost.contains (item, p.1 / 64)

/-- The elements of an LDTS group are read one by one over what stands in scratchpad, those whose bytes are refused staying as they
are (R284). -/
def State.readEach (t : Troop) (e : EngOp) (item va : Nat) : State → Nat → List Nat → State × SpanRes
  | s, old, [] => (s, .ok old)
  | s, old, k :: ks =>
    let w := e.tapBits
    let lo := w * k / 8
    let n := (w * k + w + 7) / 8 - lo
    if e.lostAt item (va + lo) n then State.readEach t e item va s old ks
    else match s.readSpan e.sid t e.super (va + lo) n with
    | (s, .ok x) =>
      let y := x >>> (w * k - 8 * lo) % 2 ^ w
      State.readEach t e item va s (old % 2 ^ (w * k) + y * 2 ^ (w * k) + old >>> (w * k + w) * 2 ^ (w * k + w)) ks
    | (s, .refused _) => State.readEach t e item va s old ks
    | r => r

/-- What an item reads: its bytes, of an LDTS group those of its elements that are in range, or the cause of an element that is
refused beside the elements that are not (R284). -/
def State.copyRead (s : State) (t : Troop) (e : EngOp) (item va n old : Nat) : State × SpanRes × Option Cause :=
  let group : Bool := e.kind == .ldts && decide (item < e.groups)
  let live := e.groupLive (e.index t item)
  let whole : State × SpanRes := match e.fault with
    | some c => if e.lostAt item va n then (s, .refused c) else s.readSpan e.sid t e.super va n
    | none => s.readSpan e.sid t e.super va n
  match whole with
  | (s, .ok x) => (s, .ok (if group then x % 2 ^ (e.tapBits * live) else x), none)
  | (s, .refused c) =>
    if group then
      let (s, r) := State.readEach t e item va s (old % 2 ^ (e.tapBits * live)) (List.range live)
      (s, r, some c)
    else (s, .refused c, none)
  | (s, r) => (s, r, none)

/-- An item from global memory to scratchpad. -/
def State.copyIn (s : State) (t : Troop) (e : EngOp) (item : Nat) : State :=
  let places := (e.places t item).places
  match e.global t item with
  | (.out, _) =>
    if recOob e.record = 0 then s.engFail e.id item .bounds else s.engScratch t e item places 0
  | (.noncanonical, _) => s.engFail e.id item .noncanonical
  | (.misaligned, _) => s.engFail e.id item .misaligned
  | (.at va, n) =>
    if !s.loadsDone e.sid e.id e.lanes then s
    else match s.guardScratch t.tid e.force places with
    | (s, false) => s
    | (s, true) =>
      match s.copyRead t e item va n (t.readScratch places) with
      | (s, .wait, _) => s
      | (s, .absent va lvl super kind, _) => s.engHitch t e item super kind va lvl
      | (s, .refused c, _) => s.engFail e.id item c
      | (s, .ok x, bad) =>
        let (y, f) := e.convert x
        let s := (s.engScratch t e item places y).engFlagsDone e item f
        match bad with
        | some c => s.engFault e.id c
        | none => s

/-- An item from scratchpad to global memory. -/
def State.copyOut (s : State) (z : Str) (t : Troop) (e : EngOp) (item : Nat) : State :=
  match e.global t item with
  | (.out, _) =>
    if recOob e.record = 0 then s.engFail e.id item .bounds else (s.countOob t.pad 1).engDone e.id item
  | (.noncanonical, _) => s.engFail e.id item .noncanonical
  | (.misaligned, _) => s.engFail e.id item .misaligned
  | (.at va, n) =>
    let (y, f) := e.convert (t.readScratch (e.places t item).places)
    (s.engWrite z t e item va (bytesOf n y)).engFlagsDone e item f

/-- What ACOLL combines at a die's L2 goes on from that slice to its home, in the round of its core (R212, R232). -/
def State.forwardL2 (s : State) (w : HomeWrite) : State :=
  let id := s.nextId
  let s := s.sendHome w
  { s with writes := updAll (·.wid == id) (fun w => { w with atL2 := true }) s.writes }.countArrival
    { w with rnd := (s.openRound w.core).rnd } fun r => { r with arrL2 := w.line :: r.arrL2 }

/-- An item of ACOLL: an element is combined at the authority of its level (R283). -/
def State.copyColl (s : State) (t : Troop) (e : EngOp) (item : Nat) : State :=
  match e.global t item with
  | (.at va, n) =>
    let mask := spanMask (va % 64) n
    let is := (List.range n).map (va % 64 + ·)
    if (s.inOpenRange t va n).isSome then s.engFail e.id item .rangeStore
    else if !s.loadsDone e.sid e.id e.lanes then s
    else
      match s.guardWrite t.tid e.force [((va : Int), ((va + n : Nat) : Int))] with
      | (s, false) => s
      | (s, true) =>
        match s.translate (some t.core) t.pad t.secure e.super (if e.op = 3 then .write else .rmw) va with
        | (s, .absent lvl) => s.engHitch t e item e.super (if e.op = 3 then .write else .rmw) va lvl
        | (s, .refused c) => s.engFail e.id item c
        | (s, .ok pa pol part) =>
          let place := authPlace t.core e.lvl pol
          if s.atomWaits t e.sid (pa / 64) mask || s.hostWaits t.core place (pa / 64) then s
          else
            match s.recall t.core place t.pad (pa / 64) pol part with
            | (s, none) => s.engFail e.id item .uncorrectableMemory
            | (s, some d) =>
              let x := t.readScratch (e.places t item).places
              let y := if e.op = 3 then x else combine e.ty e.op (lineVal d (va % 64) n) x
              let s := s.discardBelow e.sid t e.lvl (pa / 64) is
              let d := lineSetVal d (va % 64) n y
              let home := s.authAt (pa / 64) == .home
              let s := (s.putAuth e.force t.core t.pad (pa / 64) pol part mask mask d).dropNear (clusterOf t.core) (pa / 64)
              let s := if home then s.tagWrite t.core (pa / 64)
                else s.forwardL2
                  { wid := 0, core := t.core, rnd := 0, sid := e.sid, line := pa / 64, mask := mask, data := d, lvl := e.lvl
                    atL2 := true, lanes := [(32, mask)], op := e.id, pc := e.pc, depth := e.depth, pol := pol, part := part
                    pad := t.pad, trap := e.trap }
              s.engDone e.id item
  | (.out, _) =>
    if recOob e.record = 0 then s.engFail e.id item .bounds else (s.countOob t.pad 1).engDone e.id item
  | (.noncanonical, _) => s.engFail e.id item .noncanonical
  | (.misaligned, _) => s.engFail e.id item .misaligned

/-- An item of a copy takes its step, when nothing older holds it back. -/
def State.copyItem (s : State) (e : EngOp) (item : Nat) : State :=
  match s.str? e.sid with
  | none => s
  | some z =>
    match s.troop? z.tid with
    | none => s
    | some t =>
      let e := e.reach t item
      if e.count ≤ item || !s.engOpen e item then s
      else
      let s := s.updEng e.id fun x => { x with gidx := e.gidx }
      if s.copyWaits t e item then s
      else if e.kind == .acoll then s.copyColl t e item
      else if e.dir then s.copyOut z t e item
      else s.copyIn t e item

/-! ### Issue (R278) -/

/-- The first cause of the order BOUNDS, NONCANONICAL, MISALIGNED that some global element meets. -/
def globalFault (b : Record) (rs : List AddrRes) : Option Cause :=
  if recOob b = 0 && rs.any (· == .out) then some .bounds
  else if rs.any (· == .noncanonical) then some .noncanonical
  else if rs.any (· == .misaligned) then some .misaligned
  else none

/-- Step 3 of R278: the scratchpad side, then the global elements of known index. -/
def EngOp.startFault (e : EngOp) (t : Troop) : Option Cause :=
  let items := List.range e.count
  let idx := if e.kind == .agath then (List.range e.rows).map fun i => scrPlain t.scratchSize (e.origin.toNat + 4 * i) 4 else []
  if items.isEmpty then none
  else match scrFault (items.map (e.places t) ++ idx) with
    | some c => some c
    | none =>
      let partly := fun i => e.kind == .ldts && decide (i < e.groups) && decide (e.groupLive (e.index t i) < 4)
      if e.kind == .agath then none
      else globalFault e.record (items.map fun i => if recOob e.record == 0 && partly i then .out else (e.global t i).1)

/-- The conditions of R282 on an LDTS. -/
def ldtsOk (b : Record) (cols a : Nat) (rs : Int) : Bool :=
  (recFormat b == Ty.tap8.code || recFormat b == Ty.tap6.code) && recScaleBlk b == 5 && recSizeCode b == 0 &&
    recStride b == 1 && cols % 32 == 0 && a % 32 == 0 && rs % 32 == 0

/-- The formats of a converting ACPY2 (R280). -/
def copyCvtOk (b : Record) (ty : Ty) (dir : Bool) : Bool :=
  match Ty.ofCode (recFormat b) with
  | none => false
  | some g =>
    let (d, src) := if dir then (g, ty) else (ty, g)
    g.width == 8 * recSize b && g != .tap6 && ty != .tap6 && d != .f16x2 && d != .bf16x2 && cvtPair d src

/-- Steps 1, 2 and 4 of R278 for a copy with `rows` by `cols` items: `ok` is the check of its own operands. -/
def State.startCopy (s : State) (c : Cur) (z : Str) (t : Troop) (o : Operands) (kind : EngKind) (rows cols : Nat) (rs : Int)
    (op : Nat) (ok : Bool) : State :=
  let sd := (z.sreg o.d.toNat).toNat
  let sa := (z.sreg o.a.toNat).toNat
  let cvt : Bool := kind == .acpy2 && o.imm.getLsbD 9
  let e : EngOp :=
    { id := s.nextId, sid := c.sid, kind := kind, lvl := o.level, dir := o.imm.getLsbD 8, record := z.breg o.b.toNat, off := sd
      rows := rows, cols := cols, rstride := rs, origin := (sa : Int), ty := o.ty, op := op, cvt := cvt, ftz := z.ftz
      fpc := z.fpctl, cred := if o.imm.getLsbD 4 then some (bitsNat o.imm 3 0) else none, pc := c.pc, depth := t.depth
      trap := c.trap, super := c.super, dst := .empty, src := .empty, box := (0, 0, 0, 0), lanes := c.parts, done := []
      railed := [], fault := none, flags := 0 }
  if s.storesPending c.sid s.nextId || s.engCount c.sid kind.cls == 63 then s.hold
  else if 2 ^ 24 ≤ sd || 2 ^ 32 ≤ sa || !ok || (cvt && !copyCvtOk e.record o.ty e.dir) then s.raise c .bounds
  else match e.startFault t with
    | some f => s.raise c f
    | none =>
      let s := s.fresh.2
      let s := { s with engs := s.engs ++ [e] }
      if e.count = 0 && !s.olderEng e then
        let s := s.retireEng e
        match e.cred with
        | some n => s.credit t.tid n 0 0
        | none => s
      else s

/-- ACPY (R279). -/
def execAcpy (o : Operands) (s : State) : Out :=
  s.issue (.acpy o) noCheck fun c z t =>
    let n := (z.sreg o.c.toNat).toNat
    if c.parts = 0 then s else s.startCopy c z t o .acpy 1 n 0 0 (decide (n ≤ 2 ^ 24))

/-- The ROWS, COLS and RSTRIDE of a C operand (R278). -/
def shapeOf (x : Dword) : Nat × Nat × Int := (bitsNat x 15 0, bitsNat x 31 16, toSigned 32 (bitsNat x 63 32))

/-- ACPY2 (R280). -/
def execAcpy2 (o : Operands) (s : State) : Out :=
  s.issue (.acpy2 o) noCheck fun c z t =>
    let (rows, cols, rs) := shapeOf (z.sreg o.c.toNat)
    if c.parts = 0 then s else s.startCopy c z t o .acpy2 rows cols rs 0 true

/-- AGATH (R281). -/
def execAgath (o : Operands) (s : State) : Out :=
  s.issue (.agath o) noCheck fun c z t =>
    let (rows, cols, rs) := shapeOf (z.sreg o.c.toNat)
    if c.parts = 0 then s else s.startCopy c z t o .agath rows cols rs 0 true

/-- LDTS (R282). -/
def execLdts (o : Operands) (s : State) : Out :=
  s.issue (.ldts o) noCheck fun c z t =>
    let (rows, cols, rs) := shapeOf (z.sreg o.c.toNat)
    if c.parts = 0 then s
    else s.startCopy c z t o .ldts rows cols rs 0 (ldtsOk (z.breg o.b.toNat) cols (z.sreg o.a.toNat).toNat rs)

/-- ACOLL (R283). -/
def execAcoll (o : Operands) (s : State) : Out :=
  s.issue (.acoll o) noCheck fun c z t =>
    let x := (z.sreg o.c.toNat).toNat
    let op := x / 2 ^ 32
    if c.parts = 0 then s
    else if t.held then s.raise c .recoveryEscape
    else s.startCopy c z t o .acoll 1 (x % 2 ^ 32) 0 op (decide (op ≤ 3) && o.ty.width == 8 * recSize (z.breg o.b.toNat))

/-! ### Retirement (R249, R253, R284) -/

/-- The nominal byte count of a copy (R284): its elements by the element size, or by the scratchpad's for a converted ACPY2, and the
scale bytes of an LDTS. -/
def EngOp.nominal (e : EngOp) : Nat :=
  match e.kind with
  | .ldts => e.rows * e.cols * e.es + e.rows * (e.cols / 32)
  | _ => e.count * e.esScr

/-- The status that a copy credits. -/
def EngOp.credStatus (e : EngOp) : Half :=
  match e.fault with
  | none => 0
  | some .uncorrectableMemory => 2
  | some _ => 3

/-- COPY_ENGINE_RETIRE (R249). -/
def execCopyEngineRetire (op : Nat) (s : State) : Out :=
  match s.eng? op with
  | none => .next s
  | some e =>
    if e.kind.cls == 1 || s.olderEng e || !s.engWritesDone e || !(List.range e.count).all e.done.contains then .next s
    else
      let tid := (s.str? e.sid).map (·.tid)
      let s := s.retireEng e
      .next (match e.cred, tid with
        | some n, some tid => s.credit tid n e.nominal e.credStatus
        | _, _ => s)

end Sys2Proof.Machine
end

