-- ==== Sys2Proof/Machine/Force.lean ====
section
/-! DEFINITION. The computing of cells: the leaf reads of a node (R165, R166), the values of its cells (R163), NODE_CELL_COMPUTE
with its faults and flags (R165, R172), and the materialisation of a node (R173, R174). -/

namespace Sys2Proof.Machine

/-! ### Reading elements of views -/

/-- An element, or a scale byte, of a view to be read: its key, its place, its width in bits. -/
structure Want where
  key : Nat × Nat × Nat
  place : ElemAt
  bits : Nat

/-- Elements that have been read. -/
abbrev Tab := List ((Nat × Nat × Nat) × Nat)

def Tab.at (t : Tab) (k : Nat × Nat × Nat) : Nat := ((t.find? (·.1 == k)).map (·.2)).getD 0

/-- One element is read, or answers why not (R155, R166); `spill` says that it lies in a spill area (R207). -/
def State.readElem (s : State) (sid : Nat) (t : Troop) (super oob spill : Bool) (p : ElemAt) (bits : Nat) : State × SpanRes :=
  match p with
  | .out => (s, if oob then .ok 0 else .refused .bounds)
  | .noncanonical => (s, .refused .noncanonical)
  | .misaligned => (s, .refused .misaligned)
  | .at va len shift =>
    match s.readSpan sid t super va len .read spill with
    | (s, .ok x) => (s, .ok ((x >>> shift) % 2 ^ bits))
    | r => r

/-- Elements are read one after the other; what stops one stops all. -/
def State.readAll (s : State) (sid : Nat) (t : Troop) (super oob spill : Bool) : List Want → State × Except SpanRes Tab
  | [] => (s, .ok [])
  | w :: ws =>
    match s.readElem sid t super oob spill w.place w.bits with
    | (s, .ok x) => match State.readAll s sid t super oob spill ws with
      | (s, .ok rest) => (s, .ok ((w.key, x) :: rest))
      | r => r
    | (s, r) => (s, .error r)

/-- Elements of a view in slot `k`, and scale bytes of blocks along an axis, by their first elements, under slot `k` + 10. -/
def View.wantsOf (v : View) (k : Nat) (kcols : Bool) (places heads : List (Nat × Nat)) : List Want :=
  (places.map fun p => { key := (k, p.1, p.2), place := v.elem p.1 p.2, bits := v.fmt.width }) ++
    if v.fmt.isTap then heads.map fun h => { key := (k + 10, h.1, h.2), place := v.scaleAt kcols h.1 h.2, bits := 8 } else []

/-- The places of rows × columns. -/
def gridOf (I J : List Nat) : List (Nat × Nat) := I.flatMap fun i => J.map fun j => (i, j)

/-- The blocks along an axis that some places lie in, by their first elements. -/
def headsOf (kcols : Bool) (places : List (Nat × Nat)) : List (Nat × Nat) := (places.map fun p => blockHead kcols p.1 p.2).dedup

/-- The elements of rows × columns of a view, and the scale bytes of their blocks. -/
def View.wants (v : View) (k : Nat) (kcols : Bool) (I J : List Nat) : List Want :=
  v.wantsOf k kcols (gridOf I J) (headsOf kcols (gridOf I J))


/-! ### The spill area (R161, R168, R173, R174) -/

/-- The K extent of a TAP node padded to whole blocks. -/
def Node.pitch (x : Node) : Nat := 32 * (((if x.kcols then x.cols else x.rows) + 31) / 32)

/-- The elements of a node's form in BACKING, the padding with them. -/
def Node.matElems (x : Node) : Nat :=
  if x.out.isTap then x.pitch * (if x.kcols then x.rows else x.cols) else x.rows * x.cols

def Node.elemBytes (x : Node) : Nat := (x.matElems * x.out.width + 7) / 8

/-- Its scale region, from its start. -/
def Node.scaleOff (x : Node) : Nat := (x.elemBytes + 8191) / 8192 * 8192

def Node.matBytes (x : Node) : Nat := if x.out.isTap then x.scaleOff + x.matElems / 32 else x.elemBytes

def Node.matAlign (x : Node) : Nat := if x.out.isTap then 8192 else 64

/-- The row and column of element `k` of the form. -/
def Node.matPlace (x : Node) (k : Nat) : Nat × Nat :=
  if x.out.isTap then (if x.kcols then (k / x.pitch, k % x.pitch) else (k % x.pitch, k / x.pitch)) else (k / x.cols, k % x.cols)

/-- Element `k` of the form: its pattern, 0 where it is padding or its cell faulted. -/
def Node.matElem (x : Node) (k : Nat) : Nat :=
  let (i, j) := x.matPlace k
  if i < x.rows && j < x.cols then x.bits i j else 0

/-- The two cells that block `k` of the form lies in. -/
def Node.blockCells (x : Node) (k : Nat) : Nat × Nat :=
  let (i, j) := x.matPlace (32 * k)
  (cellOf i j, if x.kcols then cellOf i (j + 16) else cellOf (i + 16) j)

/-- The scale byte of block `k` of the form. -/
def Node.matScale (x : Node) (k : Nat) : Nat :=
  let (i, j) := x.matPlace (32 * k)
  x.scale x.kcols i j

/-- The bytes of the form with their offsets, in pieces that lie in one line: the elements of the cells that `cell` picks, and
the scale bytes of the blocks whose cells `block` picks. -/
def Node.matPieces (x : Node) (cell : Nat → Bool) (block : Nat × Nat → Bool) : List (Nat × List Byte) :=
  let at0 := fun k => cell (cellOf (x.matPlace k).1 (x.matPlace k).2)
  let elems := if x.out = .tap6 then
      ((List.range (x.matElems / 4)).filter fun g => at0 (4 * g)).flatMap fun g =>
        let v := (List.range 4).foldr (fun i a => x.matElem (4 * g + i) + 64 * a) 0
        (bytesOf 3 v).zipIdx.map fun e => (3 * g + e.2, [e.1])
    else
      let w := x.out.width / 8
      ((List.range x.matElems).filter at0).map fun k => (w * k, bytesOf w (x.matElem k))
  let scales := if x.out.isTap then
      ((List.range (x.matElems / 32)).filter fun k => block (x.blockCells k)).map fun k =>
        (x.scaleOff + k, bytesOf 1 (x.matScale k))
    else []
  elems ++ scales

/-- The view of the form: it replaces a materialised node, and evicted cells are read back through it. -/
def Node.matView (x : Node) (backing : Nat) : View :=
  let tap := x.out.isTap
  { fmt := x.out, rows := x.rows, cols := x.cols, scale := if tap then (backing + x.scaleOff) / 8192 else 0
    cstride := if tap && !x.kcols then (x.pitch : Int) else 1
    rstride := if tap then (if x.kcols then (x.pitch : Int) else 1) else (x.cols : Int)
    extent := x.matElems, origin := 0, tr := false, layout := if tap && !x.kcols then 1 else 0, oob := false
    base := backing }

/-- A write of the device to a spill area: performed at die level with no buffer (R168, R422). The answer says whether it was: a
partial write of a poisoned line is not (R442). -/
def State.spillWrite (s : State) (t : Troop) (pa pol part : Nat) (bs : List Byte) : State × Bool :=
  let line := pa / 64
  let (m, d) := lineOf (pa % 64) bs
  match s.agentWriteOk t.pad pol part pa bs with
  | (s, true) =>
    let s := s.updL2 (dieOf t.core) line m d
    ({ s with l1 := dropCopy s.l1 t.core line }.tagWrite t.core line, true)
  | r => r

/-- The pieces are written one by one: a page that is not there stops the writing; a page that is refused, or that `skip` says
has been, is passed over, and the first refusal is answered (R172, R173). -/
def State.spillPieces (s : State) (t : Troop) (super : Bool) (backing : Nat) (skip : List Nat) (bad : Option Cause) :
    List (Nat × List Byte) → State × Option (Nat × Nat) × Option Cause
  | [] => (s, none, bad)
  | (off, bs) :: ps =>
    if skip.contains ((backing + off) / 65536) then State.spillPieces s t super backing skip bad ps
    else
      match s.translate (some t.core) t.pad t.secure super .write (backing + off) with
      | (s, .ok pa pol part) => match s.spillWrite t pa pol part bs with
        | (s, true) => State.spillPieces s t super backing skip bad ps
        | (s, false) => State.spillPieces s t super backing skip (bad.or (some .uncorrectableMemory)) ps
      | (s, .absent lvl) => (s, some (backing + off, lvl), bad)
      | (s, .refused c) => State.spillPieces s t super backing skip (bad.or (some c)) ps

/-- The node has its place in the spill area. -/
def State.backNode (s : State) (t : Troop) (x : Node) : Option (Nat × State) :=
  if x.backing ≠ 0 then some (x.backing, s)
  else (t.stSpill.alloc x.matAlign x.matBytes).map fun r =>
    (r.1, (s.updTroop t.tid fun t => { t with stSpill := r.2 }).updNode t.core x.n fun x => { x with backing := r.1 })

/-- What making room in the cell store comes to: a stop at a page of the spill area, or no more room, when there is no answer. -/
abbrev RoomRes := Option SpanRes

/-- The troop's least recently used cell is written to its node's BACKING and leaves the store (R161, R168, R456). -/
def State.evictCell (s : State) (t : Troop) : State × RoomRes :=
  match s.oldestCell t.core t.tid with
  | none => (s, none)
  | some (n, cell) =>
    match s.node? t.core n with
    | none => (s, none)
    | some x =>
      match s.backNode t x with
      | none => (s, none)
      | some (backing, s) =>
        match s.spillPieces t x.super backing [] none (x.matPieces (· == cell) fun b => b.1 == cell || b.2 == cell) with
        | (s, some (va, lvl), _) => (s, some (.absent va lvl x.super .write))
        | (s, none, some c) => (s, some (.refused c))
        | (s, none, none) =>
          let gone := fun (c : CellVal) => { c with evicted := true, vals := [], scales := [] }
          (s.updNode t.core n fun x => { x with forced := updAll (·.cell == cell) gone x.forced }, some (.ok 0))

/-- Room for `n` places in a core's cell store, evicting cells of the troop as it must (R161). -/
def State.roomFor : Nat → State → Nat → Nat → State × RoomRes
  | 0, s, _, _ => (s, none)
  | fuel + 1, s, tid, n =>
    match s.troop? tid with
    | none => (s, none)
    | some t =>
      if s.cellsUsed t.core + n ≤ 128 then (s, some (.ok 0))
      else match s.evictCell t with
        | (s, some (.ok _)) => State.roomFor fuel s tid n
        | r => r

/-- The depth of the epoch of the spilled entry at an address; one that has been freed belongs to none. -/
def State.spillTag (s : State) (t : Troop) (va : Nat) : Nat :=
  (((s.strsOf t.tid).flatMap fun z => z.bag.filterMap fun e => if e.spill.any (·.1 == va) then some e.tag else none) ++
    t.words.filterMap fun e => if e.spill.any (·.1 == va) then some e.tag else none).headD 0

/-- Byte `i` of line `k` of a spilled entry, and the lines of an entry of `n` bytes. -/
def bagLine (n : Nat) (e : List Nat) (k : Nat) : List Byte := (List.range (min 64 (n - 64 * k))).map fun i => Config.spillByte e (64 * k + i)

def bagLines (n : Nat) : List Nat := List.range ((n + 63) / 64)

/-- The pending writes of saddlebag entries to the recovery spill area are made at die level; one that meets a page that is not
present waits, and one that is refused leaves the area full (R422, R456). -/
def State.flushBag (s : State) (t : Troop) : List (Nat × Nat × List Nat) → State
  | [] => s.updTroop t.tid fun t => { t with rcPending := [] }
  | (va, n, e) :: rest =>
    match s.spillPieces t t.super va [] none ((bagLines n).map fun k => (64 * k, bagLine n e k)) with
    | (s, some (at0, lvl), _) =>
      let (id, s) := s.fresh
      (s.updTroop t.tid fun t => { t with rcPending := (va, n, e) :: rest }).hitch
        (railFor t 0 (s.spillTag t va) t.super .write at0 id (.bag t.tid)) lvl
    | (s, none, some _) =>
      State.flushBag (s.updTroop t.tid fun t => { t with overflow := true, rcSpill := { t.rcSpill with shut := true } }) t rest
    | (s, none, none) => State.flushBag s t rest

/-- Every troop's saddlebag entries reach its recovery spill area; a halted core sends nothing (R304). -/
def State.flushBags (s : State) : State :=
  (s.troops.filter fun t =>
    !t.rcPending.isEmpty && !t.ended && !s.haltedCore t.core && !s.cellRailed (.bag t.tid)).foldl (fun s t =>
    match s.refusals.find? (·.1 == .bag t.tid) with
    | some r => { s with refusals := s.refusals.erase r }.updTroop t.tid fun t =>
        { t with rcPending := t.rcPending.drop 1, overflow := true, rcSpill := { t.rcSpill with shut := true } }
    | none => s.flushBag t t.rcPending) s

/-! ### Reading the recovery spill area back (R207, R419, R422) -/

/-- An entry to be read back: its address, its bytes, what they were written for, and the values that it recorded. -/
structure BackEnt where
  va : Nat
  n : Nat
  code : List Nat
  vals : List Nat

/-- What a rollback to depth j − 1 has still to read back. -/
def State.backEnts (s : State) (t : Troop) (j : Nat) : List BackEnt :=
  ((s.strsOf t.tid).flatMap fun z => (oldest j z.bag).filterMap fun e =>
      e.spill.map fun p => { va := p.1, n := 192, code := p.2, vals := e.vals }) ++
    (oldestWords j t.words).filterMap fun e => e.spill.map fun p => { va := p.1, n := 8, code := p.2, vals := [e.val] }

/-- The lines of an entry are read at die level with no buffer (R207). -/
def State.readBag (s : State) (t : Troop) (x : BackEnt) : List Nat → State × Except SpanRes (List Nat)
  | [] => (s, .ok [])
  | k :: ks =>
    match s.readSpan 0 t t.super (x.va + 64 * k) (min 64 (x.n - 64 * k)) .read true with
    | (s, .ok b) => match State.readBag s t x ks with
      | (s, .ok bs) => (s, .ok (b :: bs))
      | r => r
    | (s, r) => (s, .error r)

/-- The values of an entry by the bytes read: those recorded where the area still holds what the device wrote there. Software has to
give the area to the troop alone (R422); where it has not, or the read is refused, the spec states no value (log entry 12). -/
def BackEnt.values (x : BackEnt) (got : List Nat) : List Nat :=
  if got = (bagLines x.n).map (fun k => natOfBytes (bagLine x.n x.code k)) then x.vals
  else (List.range x.vals.length).map (Config.spillVal x.va got)

/-- An entry has been read back. -/
def State.putBack (s : State) (tid : Nat) (x : BackEnt) (got : List Nat) : State :=
  let vals := x.values got
  let here := fun (p : Option (Nat × List Nat)) => p.any (·.1 == x.va)
  let bag := fun (e : BagEnt) => if here e.spill then { e with vals := vals, spill := none } else e
  let word := fun (e : WordEnt) => if here e.spill then { e with val := vals.headD 0, spill := none } else e
  { s with strs := updAll (·.tid == tid) (fun (z : Str) => { z with bag := z.bag.map bag }) s.strs }.updTroop tid fun t =>
    { t with words := t.words.map word }

/-- Entry after entry is read back, until one meets a page that is not present, whose read belongs to depth `d`. -/
def State.readEnts (s : State) (t : Troop) (d : Nat) : List BackEnt → State
  | [] => s
  | x :: xs =>
    match s.readBag t x (bagLines x.n) with
    | (s, .ok got) => State.readEnts (s.putBack t.tid x got) t d xs
    | (s, .error (.absent va lvl super kind)) =>
      let (id, s) := s.fresh
      s.hitch (railFor t 0 d super kind va id (.back t.tid)) lvl
    | (s, .error _) => State.readEnts (s.putBack t.tid x []) t d xs

/-- A rollback to depth j − 1 reads back what it restores; a read refused at the rail gives its entry no bytes. -/
def State.readBack (s : State) (t : Troop) (j : Nat) : State :=
  if s.cellRailed (.back t.tid) then s
  else
    match s.refusals.find? (·.1 == .back t.tid), s.backEnts t j with
    | some r, x :: xs => ({ s with refusals := s.refusals.erase r }.putBack t.tid x []).readEnts t (j - 1) xs
    | _, xs => s.readEnts t (j - 1) xs

/-! ### The inputs of a cell -/

/-- What of a node's output has to be read back from BACKING: the elements of its evicted cells, and the scale bytes that no
cell of the store holds (R161). -/
def Node.wantsBack (y : Node) (k : Nat) (kcols : Bool) (I J : List Nat) : List Want :=
  if y.forced.any (·.evicted) then
    (y.matView y.backing).wantsOf k kcols ((gridOf I J).filter fun p => y.evictedAt p.1 p.2)
      ((headsOf kcols (gridOf I J)).filter fun h => (y.scale? kcols h.1 h.2).isNone)
  else []

/-- The shape of a tile value among some nodes. -/
def descIn (nodes : List Node) : TileVal → TDesc
  | .view v => { rows := v.rows, cols := v.cols, fmt := v.fmt, kcols := true }
  | .node n => match nodes.find? (·.n == n) with
    | some x => { rows := x.rows, cols := x.cols, fmt := x.out, kcols := x.kcols }
    | none => { rows := 1, cols := 1, fmt := .b32, kcols := true }
  | .empty => { rows := 1, cols := 1, fmt := .b32, kcols := true }

def Node.slot (x : Node) (k : Nat) : TileVal := x.slots.getD k .empty

/-- The places along K whose smoothing entries a cell needs (R165). -/
def Node.smoothKs (x : Node) (cell rows cols : Nat) : List Nat :=
  if x.op == .qnt && x.smen then
    if x.axis then widen (x.cellRows cell) rows else widen (x.cellCols cell) cols
  else []

/-- Slot `k` names a node, whose evicted cells are read back from a spill area. -/
def Node.slotSpills (x : Node) (k : Nat) : Bool := match x.slot k with | .node _ => true | _ => false

/-- What a cell needs of slot `k`: a view's elements, with the privilege of the node, or a node's evicted ones, with that of the
node that they are of (R359, R456). -/
def Node.slotWants (x : Node) (nodes : List Node) (k : Nat) (I J : List Nat) : Bool × Bool × List Want :=
  match x.slot k with
  | .view v => (x.super, v.oob, v.wants k (x.readsCols k) I J)
  | .node n => match nodes.find? (·.n == n) with
    | some y => (y.super, false, y.wantsBack k (x.readsCols k) I J)
    | none => (x.super, false, [])
  | .empty => (x.super, false, [])

/-- What a cell needs of memory, slot by slot, is read. -/
def State.readNeeds (s : State) (sid : Nat) (t : Troop) (nodes : List Node) (x : Node) :
    List (Nat × List Nat × List Nat) → State × Except SpanRes Tab
  | [] => (s, .ok [])
  | (k, I, J) :: ns =>
    let w := x.slotWants nodes k I J
    match s.readAll sid t w.1 w.2.1 (x.slotSpills k) w.2.2 with
    | (s, .ok a) => match State.readNeeds s sid t nodes x ns with
      | (s, .ok b) => (s, .ok (a ++ b))
      | r => r
    | r => r

/-- The smoothing entries of a cell, or the fault of reading them (R166). -/
def smoothTab (t : Troop) (x : Node) (ks : List Nat) : Except SpanRes Tab :=
  let rs := ks.map fun k => (k, scrPlain t.scratchSize (x.smooth + 4 * k) 4)
  match scrFault (rs.map (·.2)) with
  | some c => .error (.refused c)
  | none => .ok (rs.map fun r => ((20, r.1, 0), t.readScratch r.2.places))

/-- How a cell reads its inputs: views and evicted cells from a table, nodes from their cells in the store. -/
def Node.inputs (x : Node) (nodes : List Node) (tab : Tab) : Inputs :=
  { bits := fun k i j => match x.slot k with
      | .node n => match nodes.find? (·.n == n) with
        | some y => if y.evictedAt i j then tab.at (k, i, j) else y.bits i j
        | none => 0
      | _ => tab.at (k, i, j)
    scale := fun k kcols i j => match x.slot k with
      | .node n => match nodes.find? (·.n == n) with
        | some y => (y.scale? kcols i j).getD (let h := blockHead kcols i j; tab.at (k + 10, h.1, h.2))
        | none => 0
      | _ => let h := blockHead kcols i j; tab.at (k + 10, h.1, h.2)
    smooth := fun k => tab.at (20, k, 0) }

/-- The rows that a gather's cell names, in range (R158). -/
def Node.gatherRows (x : Node) (a b : TDesc) (inp : Inputs) (cell : Nat) : List Nat :=
  if x.op == .gather then
    (x.cellRows cell).filterMap fun i =>
      let g := b.fmt.intVal (inp.bits 1 i 0)
      if decide (0 ≤ g) && decide (g < (a.rows : Int)) then some g.toNat else none
  else []

/-- The rows that a gather's cell names, once its index can be read; no rows for another cell. -/
def State.indexRows (s : State) (sid : Nat) (t : Troop) (nodes : List Node) (x : Node) (cell : Nat) :
    State × Except SpanRes (List Nat) :=
  let a := descIn nodes (x.slot 0)
  let b := descIn nodes (x.slot 1)
  if x.op == .gather then
    match s.readNeeds sid t nodes x (x.needs cell a b []) with
    | (s, .ok tab) => (s, .ok (x.gatherRows a b (x.inputs nodes tab) cell))
    | (s, .error r) => (s, .error r)
  else (s, .ok [])

/-- The value of a cell whose input cells are computed in `nodes` (R163, R166). -/
def State.cellValue (s : State) (sid : Nat) (t : Troop) (nodes : List Node) (x : Node) (cell : Nat) (gs : List Nat) :
    State × Except SpanRes CellRes :=
  let a := descIn nodes (x.slot 0)
  let b := descIn nodes (x.slot 1)
  match smoothTab t x (x.smoothKs cell a.rows a.cols) with
  | .error r => (s, .error r)
  | .ok sm =>
    match s.readNeeds sid t nodes x (x.needs cell a b gs) with
    | (s, .error r) => (s, .error r)
    | (s, .ok tab) =>
      let fc := if 2 < x.slots.length then some (descIn nodes (x.slot 2)).fmt else none
      (s, .ok (x.compute (x.inputs nodes (tab ++ sm)) a b fc cell))

/-- The node cells that a cell needs, by slot, among some nodes. -/
def Node.cellDeps (x : Node) (nodes : List Node) (cell : Nat) (gs : List Nat) : List (Nat × Nat) :=
  ((x.needs cell (descIn nodes (x.slot 0)) (descIn nodes (x.slot 1)) gs).flatMap fun (k, I, J) =>
    match x.slot k with
    | .node n => I.flatMap fun i => J.map fun j => (n, cellOf i j)
    | _ => []).dedup

/-! ### NODE_CELL_COMPUTE -/

/-- What stops the computing of a cell: nothing yet, a hitched page (R166, R456), or a fault (R172). `ran` are the flags of one that had
been computed and waits for its room, and whether it had rerun. -/
def State.cellStops (s : State) (t : Troop) (x : Node) (cell : Nat) (f : Force) (r : SpanRes)
    (ran : Option (Flags × Bool) := none) : State :=
  match r with
  | .absent va lvl super kind =>
    let (id, s) := s.fresh
    (s.updNode x.core x.n fun y =>
      { y with met := (ran.map fun m => (cell, m.1, m.2)).toList ++ y.met.filter (·.1 != cell) }).hitch (railFor t f.sid f.depth super kind va id (.cell x.core x.n cell)) lvl
  | .refused c => (s.failCell x.core x.n cell c (statusOf c)).freeNodes
  | _ => s

/-- A computed cell is retained (R161); the cells that it read count as used. -/
def State.storeCell (s : State) (x : Node) (cell : Nat) (r : CellRes) (deps : List (Nat × Nat)) : State :=
  let (stamp, s) := s.fresh
  let touch := fun (s : State) (d : Nat × Nat) => s.updNode x.core d.1 fun y =>
    { y with forced := updAll (·.cell == d.2) (fun c => { c with used := stamp }) y.forced }
  let c : CellVal := { cell := cell, vals := r.vals, scales := r.scales, evicted := false, used := stamp }
  (deps.foldl touch s).updNode x.core x.n fun y =>
    { y with demanded := y.demanded.filter (·.1 != cell), gathers := y.gathers.filter (·.1 != cell), met := y.met.filter (·.1 != cell)
             forced := y.forced ++ [c] }

/-- How a computed cell ends: it is kept, it waits for a page of its room, or it has failed, its check or after it. -/
inductive CellEnd where
  | kept
  | stopped (r : SpanRes)
  | failed (c : Cause) (code : Nat)
  | badCheck

/-- The checks of a computed cell, and the room that it takes (R149, R150, R161, R172). -/
def State.closeCell (s : State) (t : Troop) (x : Node) (bad1 bad2 : Bool) (r : CellRes) : State × CellEnd :=
  if x.chk && x.op == .mul && bad1 && bad2 then (s.countErr t.pad fun e => { e with chkFail := inc32 e.chkFail }, .badCheck)
  else if r.bad then (s, .failed .tileData 3)
  else if r.flags &&& x.enabled != 0 then (s, .failed .fpException 3)
  else match s.roomFor 257 t.tid (cellUnits x.out) with
    | (s, none) => (s, .failed .stableOverflow 3)
    | (s, some (.ok _)) => (s, .kept)
    | (s, some r) => (s, .stopped r)

/-- The outcome of a cell: its check, its flags, its index, its room, its value (R149, R150, R161, R172); its flags are raised also when
its room is refused (R83). -/
def State.endCell (s : State) (t : Troop) (x : Node) (cell : Nat) (f : Force) (bad1 bad2 : Bool) (deps : List (Nat × Nat))
    (r : CellRes) : State :=
  let rerun := x.chk && x.op == .mul && bad1
  let ran := fun (s : State) => s.cellRan t.pad x f rerun r.flags
  match s.closeCell t x bad1 bad2 r with
  | (s, .badCheck) => s.failCell x.core x.n cell .uncorrectableMemory 5
  | (s, .failed c code) => (ran s).failCell x.core x.n cell c code
  | (s, .kept) => (ran s).storeCell x cell r deps
  | (s, .stopped (.refused c)) => (ran s).cellStops t x cell f (.refused c)
  | (s, .stopped stop) => s.cellStops t x cell f stop (some (r.flags, rerun))

/-- The quarter time of a cell of a multiply, its rerun included (R145). -/
def Node.units (_ : Node) (a : TDesc) (rerun : Bool) : Nat := (if rerun then 2 else 1) * Config.cellUnits a.fmt.code a.cols

/-- A multiply's cell takes its time on a quarter that its troop holds, or asks for one (R145, R165); another's needs none. -/
def State.runCell (s : State) (t : Troop) (x : Node) (nodes : List Node) (who : ReqWho) (bad1 : Bool) (run : State → State) :
    State :=
  if x.op == .mul then
    match s.cellQuarter t who with
    | none => s.askQuarter t who
    | some q =>
      let s := run s
      if s.cellRailed who then s
      else s.spendQuarter t (s.quarter q.core q.q) who (x.units (descIn nodes (x.slot 0)) (x.chk && bad1))
  else run s

/-- NODE_CELL_COMPUTE (R165): a demanded cell whose input cells are computed is computed; those that are missing are
demanded. A rollback's forcing goes on when its core is halted (R419). -/
def execNodeCellCompute (core node cell : Nat) (bad1 bad2 : Bool) (s : State) : Out :=
  match s.node? core node with
  | none => .next s
  | some x =>
    match (x.demanded.find? (·.1 == cell)).map (·.2), s.troop? x.tid with
    | some f, some t =>
      let nodes := s.nodes.filter (·.core == core)
      let missing := fun (ds : List (Nat × Nat)) => ds.filter fun d =>
        match nodes.find? (·.n == d.1) with | some y => !y.isForced d.2 | none => false
      let first := missing (x.cellDeps nodes cell [])
      if (s.haltedCore core && t.failing.isNone) || s.cellRailed (.cell core node cell) then .next s
      else if first != [] then .next (first.foldl (fun s d => s.demandCell 257 core d.1 d.2 f) s)
      else
        match s.indexRows x.sid t nodes x cell with
        | (s, .error r) => .next (s.cellStops t x cell f r)
        | (s, .ok gs) =>
          let second := missing (x.cellDeps nodes cell gs)
          if second != [] then
            .next (second.foldl (fun s d => s.demandCell 257 core d.1 d.2 f) (s.updNode core node fun x =>
              { x with gathers := (x.gathers.filter (·.1 != cell)) ++ second.map fun d => (cell, d) }))
          else
            match s.cellValue x.sid t nodes x cell gs with
            | (s, .error r) => .next (s.cellStops t x cell f r)
            | (s, .ok r) =>
              .next ((s.runCell t x nodes (.cell core node cell) bad1 fun s =>
                s.endCell t x cell f bad1 bad2 (x.cellDeps nodes cell gs) r).freeNodes.settleOverflow t.tid)
    | _, _ => .next s

/-! ### Materialisation (R173) -/

/-- A tile value with a node replaced by a view. -/
def TileVal.swap (v : TileVal) (n : Nat) (w : View) : TileVal := if v.names n then .view w else v

/-- Every register, recorded value and input slot that names the node becomes a view, and the entry is free. A walk keeps the
nodes that it has taken at its issue (R170). -/
def State.rewriteNode (s : State) (x : Node) (w : View) : State :=
  { s with
    strs := updAll (·.tid == x.tid) (fun (z : Str) =>
      { z with t := z.t.map fun e => (e.1, e.2.swap x.n w)
               tiles := z.tiles.map fun (e : TileEnt) => { e with val := e.val.swap x.n w } }) s.strs
    nodes := (s.nodes.filter fun y => !(y.core == x.core && y.n == x.n)).map fun (y : Node) =>
      if y.core == x.core then { y with slots := y.slots.map (·.swap x.n w) } else y
    engs := s.engs.map fun (e : EngOp) =>
      if e.kind != .twalk && (s.strsOf x.tid).any (·.sid == e.sid) then { e with src := e.src.swap x.n w } else e : State }.freeNodes

/-- The troop's oldest live node. -/
def State.oldestNode (s : State) (tid : Nat) : Option Node :=
  match s.nodes.filter (·.tid == tid) with
  | [] => none
  | y :: ys => some (ys.foldl (fun m x => if x.seq < m.seq then x else m) y)

/-- A page of the troop's spill area waits at the rail. -/
def State.spillRailed (s : State) (tid : Nat) : Bool :=
  s.railedWhere fun w => match w with | .spill i _ => i == tid | _ => false

/-- The pages of a troop's spill area that have been refused at the rail are passed over from now on; the first such refusal. -/
def State.takeSpillRefusals (s : State) (tid : Nat) : State × Option Cause :=
  let mine := s.refusals.filter fun r => match r.1 with | .spill i _ => i == tid | _ => false
  ({ s with refusals := s.refusals.filter fun r => !mine.contains r }.updTroop tid fun t =>
    { t with spillSkip := t.spillSkip ++ mine.filterMap fun (r : ReqWho × Cause) =>
        match r.1 with | .spill _ va => some (va / 65536) | _ => none },
   (mine.head?).map (·.2))

/-- One attempt to materialise the oldest node of the troop for the instruction being issued: no answer while it waits, the
cause with which the append traps, or done. Cells whose page is refused stay unwritten, the others are written (R172, R173),
and what an eviction has written already stands. -/
def State.materialise (s : State) (c : Cur) (t : Troop) (x : Node) : State × Option (Except Cause Unit) :=
  if !x.forcers.contains c.sid then
    ((s.demand x.core x.n x.unforced (c.force t)).updNode x.core x.n fun x => { x with forcers := c.sid :: x.forcers }, none)
  else if x.demanded != [] || s.spillRailed t.tid then (s, none)
  else
    match s.backNode t x with
    | none => (s, some (.error .stableOverflow))
    | some (backing, s) =>
      let (s, late) := s.takeSpillRefusals t.tid
      let s := match late with
        | some f => s.lateFault c.sid f c.pc x.pc t.depth c.trap
        | none => s
      let skip := match s.troop? t.tid with | some t => t.spillSkip | none => []
      let out := fun cell => (x.forced.any fun v => v.cell == cell && v.evicted)
      match s.spillPieces t x.super backing skip none (x.matPieces (fun c => !out c) fun b => !(out b.1 || out b.2)) with
      | (s, some (va, lvl), _) =>
        let (id, s) := s.fresh
        (s.hitch (railFor t c.sid t.depth x.super .write va id (.spill t.tid va)) lvl, none)
      | (s, none, bad) =>
        let s := match bad with
          | some f => s.lateFault c.sid f c.pc x.pc t.depth c.trap
          | none => s
        (((s.updTroop t.tid fun t => { t with spillSkip := [] }).rewriteNode x (x.matView backing)).takeFlags c.sid, some (.ok ()))

end Sys2Proof.Machine
end

