-- ==== Sys2Proof/Machine/TileInstr.lean ====
section
/-! DEFINITION. The tile instructions (R157 to R174): views, the appends of nodes, TFORCE, TST and TWALK with their items, TDROP,
TSTAT, and the retirement of tile operations. -/

namespace Sys2Proof.Machine

/-- A tile register takes a value and lets the old one go (R169). -/
def State.setTile (s : State) (sid n : Nat) (v : TileVal) : State := (s.writeT sid n v).freeNodes

/-! ### Views (R157) -/

/-- s of R155. -/
def viewSize (t : Ty) : Nat := if t.isTap then 1 else t.width / 8

/-- The conditions on the record and the layout. -/
def tdefOk (b : Record) (t : Ty) (layout : Nat) : Bool :=
  recSize b == viewSize t && recStride b == viewSize t && layout != 3 &&
    (!t.isTap || (recScaleBlk b == 5 && recScaleBase b % 8192 == 0))

/-- Natural strides, of rows and of columns, for an array of `rows` by `cols`. -/
def naturalStrides (layout rows cols : Nat) : Int × Int :=
  match layout with
  | 0 => (cols, 1)
  | 1 => (1, rows)
  | _ => (256 * ((cols + 15) / 16 : Nat), 256)

/-- TDEF. -/
def execTdef (o : Operands) (s : State) : Out :=
  s.issue (.tdef o) noCheck fun c z _ =>
    let b := z.breg o.a.toNat
    let rows := bitsNat o.imm 7 0 + 1
    let cols := bitsNat o.imm 15 8 + 1
    let layout := bitsNat o.imm 17 16
    let tr := o.imm.getLsbD 18
    let x := z.sreg o.c.toNat
    let st := if o.spec then (if tr then naturalStrides layout cols rows else naturalStrides layout rows cols)
      else (toSigned 32 (bitsNat x 31 0), toSigned 32 (bitsNat x 63 32))
    if c.parts = 0 then s
    else if !tdefOk b o.ty layout then s.raise c .tileShape
    else s.setTile c.sid o.d.toNat (.view
      { fmt := o.ty, rows := rows, cols := cols, scale := if o.ty.isTap then recScaleBase b / 8192 else 0, cstride := st.2
        rstride := st.1, extent := recExtent b, origin := (bitsNat (z.sreg o.b.toNat) 31 0 : Nat), tr := tr, layout := layout
        oob := recOob b == 1, base := recBase b })

/-! ### Appends (R158 to R163, R173) -/

/-- The node that an instruction appends, without its entry number and its place in the order of appends. -/
def nodeOf (c : Cur) (z : Str) (t : Troop) (o : Operands) (op : NodeOp) (rows cols : Nat) (slots : List TileVal) : Node :=
  { core := t.core, n := 0, tid := t.tid, sid := c.sid, op := op, fn := o.fn.toNat, out := o.ty, rows := rows, cols := cols
    rm := o.rm, sat := o.sat, axis := false, kcols := true, chk := z.chksum, epoch := t.depth, status := 0
    fpc := z.fpctl.setWidth 6, pc := c.pc, smooth := 0, smen := false, super := c.super, slots := slots, backing := 0
    demanded := [], forced := [], seq := 0, forcers := [] }

/-- The node takes the lowest free entry of its core, and D names it. -/
def State.placeNode (s : State) (c : Cur) (d : Byte) (x : Node) : State :=
  let n := ((List.range 256).find? fun n => !s.nodes.any fun y => y.core == x.core && y.n == n).getD 0
  let (seq, s) := s.fresh
  { s with nodes := s.nodes ++ [{ x with n := n, seq := seq }] }.setTile c.sid d.toNat (.node n)

/-- An append: at a full quota the troop's oldest node is materialised first, or the append traps (R173). A materialisation
rewrites the registers, so the inputs are read again. -/
def State.append (s : State) (c : Cur) (t : Troop) (d : Byte) (again : Str → Option Node) : State :=
  match (s.str? c.sid).bind again with
  | none => s.raise c .tileShape
  | some x =>
    if (s.nodes.filter (·.tid == t.tid)).length < t.stq then s.placeNode c d x
    else if t.stq = 0 || t.stSpill.size = 0 then s.raise c .stableOverflow
    else
      match s.oldestNode t.tid with
      | none => s.raise c .stableOverflow
      | some y =>
        match s.materialise c t y with
        | (s, none) => s.hold
        | (s, some (.error f)) => s.raise c f
        | (s, some (.ok ())) =>
          match (s.str? c.sid).bind again with
          | some x => s.placeNode c d x
          | none => s.raise c .tileShape

/-- TIDX (R158). -/
def execTidx (o : Operands) (s : State) : Out :=
  s.issue (.tidx o) noCheck fun c _ t =>
    if c.parts = 0 then s
    else s.append c t o.d fun z =>
      match s.tdesc t.core (z.treg o.a.toNat), s.tdesc t.core (z.treg o.b.toNat) with
      | some a, some b =>
        if (b.fmt == .i32 || b.fmt == .n32) && b.cols == 1 then
          some { nodeOf c z t o .gather b.rows a.cols [z.treg o.a.toNat, z.treg o.b.toNat] with out := a.fmt }
        else none
      | _, _ => none

/-- The formats of a TMUL (R162). -/
def tmulTypes (out a : Ty) (c : Option Ty) : Bool :=
  match out with
  | .f32 | .f16 | .bf16 => [Ty.bf16, .f16, .tap8, .tap6].contains a && c.all fun t => [Ty.f32, .f16, .bf16].contains t
  | .i32 => [Ty.i8, .n8].contains a && c.all (· == .i32)
  | .f64 => a == .f64 && c.all (· == .f64)
  | _ => false

/-- TMUL. -/
def execTmul (o : Operands) (s : State) : Out :=
  s.issue (.tmul o) noCheck fun c _ t =>
    if c.parts = 0 then s
    else s.append c t o.d fun z =>
      match s.tdesc t.core (z.treg o.a.toNat), s.tdesc t.core (z.treg o.b.toNat) with
      | some a, some b =>
        let acc := if o.spec then s.tdesc t.core (z.treg o.c.toNat) else none
        if a.fmt == b.fmt && a.cols == b.rows && acc.isSome == o.spec && tmulTypes o.ty a.fmt (acc.map (·.fmt)) &&
            acc.all (fun x => x.rows == a.rows && x.cols == b.cols) then
          some (nodeOf c z t o .mul a.rows b.cols
            ([z.treg o.a.toNat, z.treg o.b.toNat] ++ if o.spec then [z.treg o.c.toNat] else []))
        else none
      | _, _ => none

/-- The formats of TEW and TRED: all IEEE, or all integer. -/
def sameKind (out a : Ty) : Bool := (out.isIeee && a.isIeee) || (out.isInt && a.isInt)

/-- TEW. -/
def execTew (o : Operands) (s : State) : Out :=
  s.issue (.tew o) noCheck fun c _ t =>
    if c.parts = 0 then s
    else s.append c t o.d fun z =>
      match s.tdesc t.core (z.treg o.a.toNat), s.tdesc t.core (z.treg o.b.toNat) with
      | some a, some b =>
        if sameKind o.ty a.fmt && sameKind o.ty b.fmt && (b.rows == a.rows || b.rows == 1) && (b.cols == a.cols || b.cols == 1) then
          some (nodeOf c z t o .ew a.rows a.cols [z.treg o.a.toNat, z.treg o.b.toNat])
        else none
      | _, _ => none

/-- TRED. -/
def execTred (o : Operands) (s : State) : Out :=
  s.issue (.tred o) noCheck fun c _ t =>
    if c.parts = 0 then s
    else s.append c t o.d fun z =>
      match s.tdesc t.core (z.treg o.a.toNat) with
      | some a =>
        let axis := o.imm.getLsbD 0
        if sameKind o.ty a.fmt then
          some { nodeOf c z t o .red (if axis then a.rows else 1) (if axis then 1 else a.cols) [z.treg o.a.toNat] with
                 axis := axis }
        else none
      | none => none

/-- TTRN. -/
def execTtrn (o : Operands) (s : State) : Out :=
  s.issue (.ttrn o) noCheck fun c _ t =>
    if c.parts = 0 then s
    else s.append c t o.d fun z =>
      match s.tdesc t.core (z.treg o.a.toNat) with
      | some a =>
        if o.ty == a.fmt then
          some { nodeOf c z t o .trn a.cols a.rows [z.treg o.a.toNat] with kcols := !a.kcols }
        else none
      | none => none

/-- TQNT. -/
def execTqnt (o : Operands) (s : State) : Out :=
  s.issue (.tqnt o) noCheck fun c _ t =>
    if c.parts = 0 then s
    else s.append c t o.d fun z =>
      match s.tdesc t.core (z.treg o.a.toNat) with
      | some a =>
        let wgt := o.imm.getLsbD 0
        if a.fmt == .f32 || a.fmt == .f16 || a.fmt == .bf16 then
          some { nodeOf c z t o .qnt a.rows a.cols [z.treg o.a.toNat] with
                 axis := wgt, kcols := !wgt, smen := o.imm.getLsbD 1
                 smooth := if o.imm.getLsbD 1 then bitsNat (z.sreg o.b.toNat) 31 0 else 0 }
        else none
      | none => none

/-! ### TDROP and TSTAT (R171) -/

/-- TDROP. -/
def execTdrop (o : Operands) (s : State) : Out :=
  s.issue (.tdrop o) noCheck fun c _ _ => if c.parts = 0 then s else s.setTile c.sid o.a.toNat .empty

def NodeOp.code : NodeOp → Nat
  | .mul => 1 | .ew => 2 | .red => 3 | .trn => 4 | .qnt => 5 | .gather => 6

/-- The status word of a node. -/
def Node.word (x : Node) : Nat :=
  x.epoch * 2 ^ 40 + x.op.code * 2 ^ 32 + (if x.demanded.isEmpty then 0 else 2 ^ 25) +
    (if x.unforced.isEmpty then 2 ^ 24 else 0) + x.n * 2 ^ 16 + x.status

/-- TSTAT. -/
def execTstat (o : Operands) (s : State) : Out :=
  s.issue (.tstat o) noCheck fun c z t =>
    s.putScalar c z o.d (BitVec.ofNat 64 (match z.treg o.a.toNat with
      | .empty => 0
      | .view _ => 2 ^ 26
      | .node n => match s.node? t.core n with | some x => x.word | none => 0))

/-! ### Boxes and operations (R164, R167) -/

/-- The box of an s register for an output of `rows` by `cols`: row0, col0, rows, cols. -/
def boxOf (x : Dword) (rows cols : Nat) : Option (Nat × Nat × Nat × Nat) :=
  let nr := bitsNat x 47 32
  let nc := bitsNat x 63 48
  let r0 := bitsNat x 15 0
  let c0 := bitsNat x 31 16
  if nr = 0 || nc = 0 then some (0, 0, rows, cols)
  else if r0 + nr ≤ rows && c0 + nc ≤ cols then some (r0, c0, nr, nc)
  else none

/-- A tile operation of the instruction being issued. -/
def tileOpOf (s : State) (c : Cur) (z : Str) (t : Troop) (kind : EngKind) (lvl : Level) (src dst : TileVal)
    (box : Nat × Nat × Nat × Nat) : EngOp :=
  let fpc : Word := match src with
    | .node n => match s.node? t.core n with | some x => x.fpc.setWidth 32 | none => 0
    | _ => z.fpctl
  { id := s.nextId, sid := c.sid, kind := kind, lvl := lvl, dir := false, record := 0, off := 0, rows := 1, cols := 1
    rstride := 0, origin := 0, ty := .b32, op := 0, cvt := false, ftz := fpc.getLsbD 0, fpc := fpc, cred := none, pc := c.pc
    depth := t.depth, trap := c.trap, super := c.super, dst := dst, src := src, box := box, lanes := c.parts, done := []
    railed := [], fault := none, flags := 0, kcols := (s.tdesc t.core src).elim true (·.kcols) }

/-- The bundle is held while its tile counter is full or its string's stores are not all accepted (R247, R248). -/
def State.tileHeld (s : State) (c : Cur) : Bool := s.storesPending c.sid s.nextId || s.engCount c.sid 1 == 63

/-- The operation joins the counter, and what it names is demanded. -/
def State.startTile (s : State) (t : Troop) (e : EngOp) (demand : Bool) : State :=
  let s := s.fresh.2
  let s := { s with engs := s.engs ++ [e] }
  match e.src with
  | .node n => if demand then s.demand t.core n (boxCells e.box) e.force else s
  | _ => s

/-- TFORCE: of a view it completes at once. -/
def execTforce (o : Operands) (s : State) : Out :=
  s.issue (.tforce o) noCheck fun c z t =>
    let src := z.treg o.a.toNat
    if c.parts = 0 then s
    else if s.tileHeld c then s.hold
    else match s.tdesc t.core src with
      | none => s.raise c .tileShape
      | some a => match boxOf (z.sreg o.b.toNat) a.rows a.cols with
        | none => s.raise c .tileShape
        | some box =>
          let e := tileOpOf s c z t .tforce .str src .empty box
          let s := s.startTile t e true
          match src with
          | .view _ => if s.olderEng e then s else s.retireEng e
          | _ => s

/-- The conversions of R167. -/
def tstPair (dst src : Ty) : Bool :=
  if dst.isTap then src == dst
  else if dst.isIeee then src.isIeee || src.isInt || src.isTap
  else if dst.isInt then src.isIeee || src.isInt
  else src == dst

/-- The element that a store writes, with its flags. -/
def tstVal (dst src : Ty) (ftz : Bool) (bits scale : Nat) : Nat × Flags :=
  if dst.isTap || dst.isBits then (bits, 0)
  else if dst == .cf32 then
    let (a, f) := cvtVal .f32 .f32 .rne ftz (bits % 2 ^ 32)
    let (b, g) := cvtVal .f32 .f32 .rne ftz (bits / 2 ^ 32)
    (a + b * 2 ^ 32, f ||| g)
  else if src.isTap then
    let x := tapScaled src ftz bits scale
    if x.isNan then (dst.fmt.nanBits, flagNV) else dst.encode .rne ftz x
  else if dst.isInt && src.isInt then (wrapNat dst.width (src.intVal bits), 0)
  else if dst.isInt || src.isInt then
    let (x, f) := cvtiVal dst src .rne false ftz bits
    (x % 2 ^ dst.width, f)
  else cvtVal dst src .rne ftz bits

/-- TST. -/
def execTst (o : Operands) (s : State) : Out :=
  s.issue (.tst o) noCheck fun c z t =>
    let src := z.treg o.a.toNat
    if c.parts = 0 then s
    else if s.tileHeld c then s.hold
    else match s.tdesc t.core src, z.treg o.d.toNat with
      | some a, .view v =>
        if a.rows != v.rows || a.cols != v.cols || !tstPair v.fmt a.fmt then s.raise c .tileShape
        else match boxOf (z.sreg o.b.toNat) a.rows a.cols with
          | none => s.raise c .tileShape
          | some box => s.startTile t (tileOpOf s c z t .tst o.level src (.view v) box) true
      | _, _ => s.raise c .tileShape

/-! ### TWALK (R170) -/

/-- The leaf views of a tile value met in a depth-first walk, slot 0 first; counting stops above 31. DESIGN CHOICE (log entry 144): a
node that the walk reaches by two paths is walked each time, and its leaves counted, which R170 leaves open. -/
def leafCount (nodes : List Node) : Nat → TileVal → Nat → Nat
  | 0, _, k => k + 32
  | fuel + 1, v, k =>
    if 31 < k then k
    else match v with
      | .view _ => k + 1
      | .node n => match nodes.find? (·.n == n) with
        | some x => x.slots.foldl (fun k w => leafCount nodes fuel w k) k
        | none => k
      | .empty => k

/-- A view shifted by a step of a walk, with entry `k` of the walk table. -/
def View.shift (v : View) (table : List (Int × Int)) (p q k : Nat) : View :=
  let d := table.getD k (0, 0)
  { v with origin := v.origin + p * d.1 + q * d.2 }

/-- The walk table at a scratchpad address, of `n` entries, read at issue as plain 4-byte accesses (R170, R189, R191), or the
fault of reading it. -/
def Troop.walkTable (t : Troop) (off n : Nat) : Except Cause (List (Int × Int)) :=
  let at0 := fun i => scrPlain t.scratchSize (off + 4 * i) 4
  let val := fun i => toSigned 32 (t.readScratch (at0 i).places)
  match scrFault ((List.range (2 * n)).map at0) with
  | some c => .error c
  | none => .ok ((List.range n).map fun k => (val (2 * k), val (2 * k + 1)))

/-- The walked nodes as a tree of working nodes with no cells, each leaf shifted: working nodes are numbered by their place in
the list, and SEQ still names the node walked. -/
def workTree (nodes : List Node) (shift : View → Nat → View) : Nat → TileVal → List Node × Nat → TileVal × List Node × Nat
  | 0, _, acc => (.empty, acc)
  | fuel + 1, v, (ws, k) =>
    match v with
    | .view w => (.view (shift w (k + 1)), ws, k + 1)
    | .empty => (.empty, ws, k)
    | .node n => match nodes.find? (·.n == n) with
      | none => (.empty, ws, k)
      | some x =>
        let (slots, ws, k) := x.slots.foldl (fun (acc : List TileVal × List Node × Nat) w =>
          let r := workTree nodes shift fuel w (acc.2.1, acc.2.2)
          (acc.1 ++ [r.1], r.2.1, r.2.2)) ([], ws, k)
        let y : Node := { x with n := ws.length, slots := slots, demanded := [], forced := [] }
        (.node y.n, ws ++ [y], k)

/-- The nodes that a walk reaches, as they stand at its issue, with no cells: what becomes of them later changes nothing in it. -/
def walkTree (nodes : List Node) (src : TileVal) : List Node :=
  let ws := (workTree nodes (fun v _ => v) 257 src ([], 0)).2.1
  (nodes.filter fun x => ws.any (·.seq == x.seq)).map fun x => { x with demanded := [], forced := [], forcers := [], gathers := [], met := [] }

/-- What stops an item: a wait, a page or a fault; the nodes that it names, by their places in the order of appends, that of the cell
met first and then those whose cells depend on it; the status code that the first takes; the working cell; and, of one that had been
computed and waits for its room, its flags and whether it had rerun. -/
structure WalkStop where
  res : SpanRes
  chain : List Nat := []
  code : Nat := 3
  cell : Option (Nat × Nat) := none
  ran : Option (Flags × Bool) := none

/-- The status code of what stopped a read (R172). -/
def SpanRes.code : SpanRes → Nat
  | .refused c => statusOf c
  | _ => 3

/-- A stop that names a node alone. -/
def Node.stop (x : Node) (r : SpanRes) : WalkStop := { res := r, chain := [x.seq], code := r.code }

/-- A working cell to be computed, the rows that its gather names, and the nodes whose cells wait for it. -/
structure WalkCell where
  node : Node
  cell : Nat
  rows : List Nat
  above : List Nat := []

/-- A stop at a working cell. -/
def WalkCell.stop (w : WalkCell) (r : SpanRes) (code : Nat) : WalkStop :=
  { res := r, chain := w.node.seq :: w.above, code := code, cell := some (w.node.n, w.cell) }

/-- What of a working cell is to be computed next: nothing, a cell, or nothing any more. -/
abbrev NextCell := Except WalkStop (Option WalkCell)

/-- The same for a cell of a node that depends on it. -/
def NextCell.under (x : Node) : NextCell → NextCell
  | .error r => .error { r with chain := r.chain ++ [x.seq] }
  | .ok (some w) => .ok (some { w with above := w.above ++ [x.seq] })
  | .ok none => .ok none

/-- The first working cell that is not computed, of those that a cell needs and then itself (R165); what depends on a failed one fails
with it. -/
def State.nextCell (t : Troop) (e : EngOp) : Nat → State × NextCell → Nat × Nat → State × NextCell
  | 0, acc, _ => acc
  | _ + 1, (s, .error r), _ => (s, .error r)
  | _ + 1, (s, .ok (some w)), _ => (s, .ok (some w))
  | fuel + 1, (s, .ok none), (n, cell) =>
    match e.work.find? (·.n == n) with
    | none => (s, .ok none)
    | some x =>
      if x.isForced cell then (s, .ok none)
      else if e.bad.contains (n, cell) then
        (s, .error { res := .refused (e.fault.getD .tileData), chain := [x.seq], cell := some (n, cell) })
      else
        match (x.cellDeps e.work cell []).foldl (State.nextCell t e fuel) (s, .ok none) with
        | (s, .ok none) =>
          match s.indexRows x.sid t e.work x cell with
          | (s, .error r) => (s, .error { x.stop r with cell := some (n, cell) })
          | (s, .ok gs) =>
            match (if gs = [] then [] else x.cellDeps e.work cell gs).foldl (State.nextCell t e fuel) (s, .ok none) with
            | (s, .ok none) => (s, .ok (some { node := x, cell := cell, rows := gs }))
            | (s, r) => (s, r.under x)
        | (s, r) => (s, r.under x)

/-- TWALK. DESIGN CHOICE (log entry 138): a P or Q of 0, an ACC of 8 to 15, bits [63:36] that are not zero, and an A register that holds a
view raise TILE_SHAPE, for which R167 and R170 name no error, and the walk table is read at issue, as plain 4-byte accesses that must be aligned (R189, R191). -/
def execTwalk (o : Operands) (s : State) : Out :=
  s.issue (.twalk o) noCheck fun c z t =>
    let src := z.treg o.a.toNat
    let x := z.sreg o.c.toNat
    let acc := bitsNat x 63 32
    let off := (z.sreg o.b.toNat).toNat
    if c.parts = 0 then s
    else if s.tileHeld c then s.hold
    else if acc = 7 && t.held then s.raise c .recoveryEscape
    else match src, z.treg o.d.toNat with
      | .node n, .view v =>
        match s.tdesc t.core (.node n) with
        | none => s.raise c .tileShape
        | some a =>
          let leaves := leafCount (s.nodes.filter (·.core == t.core)) 257 src 0
          if a.rows != v.rows || a.cols != v.cols || !tstPair v.fmt a.fmt || decide (7 < acc) || bitsNat x 15 0 == 0 ||
              bitsNat x 31 16 == 0 || (decide (1 ≤ acc) && decide (acc ≤ 6) && !v.fmt.isInt) || decide (31 < leaves) then
            s.raise c .tileShape
          else match t.walkTable off (leaves + 1) with
            | .error f => s.raise c f
            | .ok table =>
              let e := tileOpOf s c z t .twalk o.level src (.view v) (0, 0, a.rows, a.cols)
              s.startTile t { e with rows := bitsNat x 15 0, cols := bitsNat x 31 16, op := acc, off := off, table := table
                                     tree := walkTree (s.nodes.filter (·.core == t.core)) src } false
      | _, _ => s.raise c .tileShape

/-! ### The items of TST and TWALK -/

/-- The destination view of a step. -/
def EngOp.dstAt (e : EngOp) (step : Nat) : Option View :=
  match e.dst with
  | .view v => some (if e.kind == .twalk then v.shift e.table (step / e.cols) (step % e.cols) 0 else v)
  | _ => none

/-- The source's shape, its K axis that of the issue, also when it has been materialised since (R167, R174). -/
def State.srcDesc (s : State) (t : Troop) (e : EngOp) : TDesc :=
  { descIn (if e.kind = .twalk then e.tree else s.nodes.filter (·.core == t.core)) e.src with kcols := e.kcols }

/-- The parts of an element: a tap6 element may lie in two bytes. -/
def EngOp.parts (e : EngOp) : Nat := match e.dst with | .view v => if v.fmt = .tap6 then 2 else 1 | _ => 1

/-- The element of the box with number `k`. -/
def EngOp.place (e : EngOp) (k : Nat) : Nat × Nat :=
  let (r0, c0, _, nc) := e.box
  (r0 + k / nc, c0 + k % nc)

/-- The K-blocks that meet the box, each by its first element in the box and the first element of the block. -/
def EngOp.blocks (e : EngOp) (kcols : Bool) : List ((Nat × Nat) × (Nat × Nat)) :=
  let (r0, c0, nr, nc) := e.box
  match e.dst with
  | .view v =>
    if !v.fmt.isTap then []
    else if kcols then
      (List.range nr).flatMap fun i => (((List.range nc).map fun j => (c0 + j) / 32).dedup).map fun b =>
        ((r0 + i, max c0 (32 * b)), (r0 + i, 32 * b))
    else
      (List.range nc).flatMap fun j => (((List.range nr).map fun i => (r0 + i) / 32).dedup).map fun b =>
        ((max r0 (32 * b), c0 + j), (32 * b, c0 + j))
  | _ => []

/-- The items of a step: the parts of its elements and then the scale bytes. -/
def EngOp.perStep (e : EngOp) (kcols : Bool) : Nat := e.box.2.2.1 * e.box.2.2.2 * e.parts + (e.blocks kcols).length

/-- The number of items. -/
def EngOp.tileCount (e : EngOp) (kcols : Bool) : Nat :=
  match e.kind with
  | .tforce => 0
  | _ => e.rows * e.cols * e.perStep kcols

/-- The bytes of the destination that an item writes. -/
def EngOp.tilePlace (e : EngOp) (kcols : Bool) (item : Nat) : ElemAt :=
  let k := item % e.perStep kcols
  let els := e.box.2.2.1 * e.box.2.2.2
  match e.dstAt (item / e.perStep kcols) with
  | none => .out
  | some v =>
    if k < els * e.parts then
      let (i, j) := e.place (k / e.parts)
      v.elem i j
    else match (e.blocks kcols)[k - els * e.parts]? with
      | some b => v.scaleAt kcols b.2.1 b.2.2
      | none => .out

def EngOp.tileTargets (e : EngOp) (kcols : Bool) (item : Nat) : List Target :=
  match e.tilePlace kcols item with
  | .at va len _ => [(false, (va : Int), ((va + len : Nat) : Int))]
  | _ => []

/-- What the source gives an item: nothing when its cell is neither computed nor demanded. -/
abbrev SrcRes := Except WalkStop (Option Nat)

/-- A node's element, or its scale byte along an axis, from the cell store, or from BACKING with the node's privilege (R161,
R456). -/
def State.nodeValue (s : State) (sid : Nat) (t : Troop) (x : Node) (kcols scale : Bool) (at0 head : Nat × Nat) :
    State × SrcRes :=
  let kept := if scale then x.scale? kcols head.1 head.2
    else if x.evictedAt at0.1 at0.2 then none else some (x.bits at0.1 at0.2)
  match kept with
  | some v => (s, .ok (some v))
  | none =>
    let v := x.matView x.backing
    let p := if scale then v.scaleAt kcols head.1 head.2 else v.elem at0.1 at0.2
    match s.readElem sid t x.super false true p (if scale then 8 else x.out.width) with
    | (s, .ok v) => (s, .ok (some v))
    | (s, r) => (s, .error (x.stop r))

/-- The value of an element of the source, or its scale byte along an axis: of a walk, from the working cells of its step. -/
def State.srcValue (s : State) (t : Troop) (e : EngOp) (kcols scale : Bool) (at0 head : Nat × Nat) : State × SrcRes :=
  match e.src, e.kind with
  | .view v, _ =>
    let p := if scale then v.scaleAt kcols head.1 head.2 else v.elem at0.1 at0.2
    match s.readElem e.sid t e.super v.oob false p (if scale then 8 else v.fmt.width) with
    | (s, .ok x) => (s, .ok (some x))
    | (s, r) => (s, .error { res := r, code := r.code })
  | .node _, .twalk =>
    (s, .ok (e.work.getLast?.map fun x => if scale then x.scale kcols head.1 head.2 else x.bits at0.1 at0.2))
  | .node n, _ =>
    match s.node? t.core n with
    | none => (s, .ok none)
    | some x =>
      let cell := cellOf at0.1 at0.2
      if x.isForced cell then s.nodeValue e.sid t x kcols scale at0 head
      else (s, if x.demanded.any (·.1 == cell) then .error { res := .wait } else .ok none)
  | .empty, _ => (s, .ok none)

/-- A tile operation meets a fault: the node met takes its code, and those whose cells depend on it FAULT (R172). -/
def State.tileFailAt (s : State) (t : Troop) (e : EngOp) (item : Nat) (c : Cause) (chain : List Nat) (code : Nat) : State :=
  let first := match s.eng? e.id with | some e => e.fault.isNone | none => false
  chain.tail.foldl (fun s q => s.failSeq t.core q 3)
    ((s.engFail e.id item c).tileLate t.core e first c (s.faultNode t.core e chain.head?) code)

/-- A tile operation meets a fault of its own item. -/
def State.tileFail (s : State) (t : Troop) (e : EngOp) (item : Nat) (c : Cause) : State :=
  s.tileFailAt t e item c [] (statusOf c)

/-- A store of an item: what `engWrite` finds wrong is recorded as a fault of the source's node. -/
def State.tileWrite (s : State) (z : Str) (t : Troop) (e : EngOp) (item va : Nat) (bs : List Byte) : State :=
  let before := e.fault
  let s := s.engWrite z t e item va bs
  match s.eng? e.id with
  | some e' => match before, e'.fault with
    | none, some c => s.tileLate t.core e true c (s.faultNode t.core e none) (statusOf c)
    | _, _ => s
  | none => s

/-- The combine of ACC 1 to 6. -/
def walkCombine (t : Ty) (acc old x : Nat) : Nat :=
  match acc with
  | 1 => combine t 0 old x | 2 => combine t 1 old x | 3 => combine t 2 old x
  | 4 => old &&& x | 5 => old ||| x | _ => old ^^^ x

/-- A contribution of ACC 7 to an open range that covers the element (R170, R276). -/
def State.walkRadd (s : State) (t : Troop) (e : EngOp) (item va n x : Nat) (ty : Ty) : State :=
  match s.inOpenRange t va n with
  | some r =>
    if r.st == .isOpen && decide (r.base ≤ va) && decide (va + n ≤ r.base + r.len) && r.ty == ty then
      if !s.loadsDone e.sid e.id e.lanes then s
      else match s.guardWrite t.tid e.force [((va : Int), ((va + n : Nat) : Int))] with
      | (s, false) => s
      | (s, true) =>
        match s.translate (some t.core) t.pad t.secure e.super .rmw va with
        | (s, .absent lvl) => s.engHitch t e item e.super .rmw va lvl
        | (s, .refused c) => s.tileFail t e item c
        | (s, .ok pa _ _) => ((s.applyRadd r t.core (pa / 64) (va % 64) x).trimL1 t.core).engDone e.id item
    else s.tileFail t e item .rangeStore
  | none => s.tileFail t e item .rangeStore

/-- What stops an item: a wait, a hitched page, with which the operation remembers what met it, or a fault (R172). -/
def State.itemStops (s : State) (t : Troop) (e : EngOp) (item : Nat) (x : WalkStop) : State :=
  match x.res with
  | .absent va lvl super kind =>
    (s.updEng e.id fun e =>
      { e with met := { item := item, chain := x.chain, cell := x.cell, ran := x.ran } :: e.met.filter (·.item != item) }).engHitch
      t e item super kind va lvl
  | .refused c => (s.updEng e.id fun e => { e with bad := x.cell.toList ++ e.bad }).tileFailAt t e item c x.chain x.code
  | _ => s

/-- The converted value of an element is stored, combined or contributed. A tap6 element is merged into the bytes that it
shares; the page needs WRITE alone (R359). -/
def State.storeElem (s : State) (z : Str) (t : Troop) (e : EngOp) (item part : Nat) (v : View) (p : ElemAt) (y : Nat) : State :=
  match p with
  | .out => if v.oob then (s.countOob t.pad (if part = 0 then 1 else 0)).engDone e.id item else s.tileFail t e item .bounds
  | .noncanonical => s.tileFail t e item .noncanonical
  | .misaligned => s.tileFail t e item .misaligned
  | .at va len shift =>
    if e.op = 7 then s.walkRadd t e item va len y v.fmt
    else if v.fmt = .tap6 then
      if len ≤ part then s.engDone e.id item
      else
        match s.readSpan e.sid t e.super (va + part) 1 .write with
        | (s, .ok old) =>
          let m := (63 <<< shift) >>> (8 * part) % 256
          let new := (old &&& (255 - m)) ||| ((y <<< shift) >>> (8 * part) % 256)
          s.tileWrite z t e item (va + part) (bytesOf 1 new)
        | (s, r) => s.itemStops t e item { res := r, code := r.code }
    else if e.op = 0 then s.tileWrite z t e item va (bytesOf len y)
    else
      match s.readSpan e.sid t e.super va len with
      | (s, .ok old) => s.tileWrite z t e item va (bytesOf len (walkCombine v.fmt e.op old y))
      | (s, r) => s.itemStops t e item { res := r, code := r.code }

/-- An element of a step. DESIGN CHOICE (log entry 145): the format pairs and conversions of R167, which it gives for TST and for ACC = 0,
hold for a TWALK with any ACC, before its combine or contribution. -/
def State.elemItem (s : State) (z : Str) (t : Troop) (e : EngOp) (item k : Nat) (v : View) (d : TDesc) : State :=
  let (i, j) := e.place (k / e.parts)
  let scaled := d.fmt.isTap && !v.fmt.isTap
  match s.srcValue t e d.kcols false (i, j) (i, j) with
  | (s, .error x) => s.itemStops t e item x
  | (s, .ok none) => s.engDone e.id item
  | (s, .ok (some bits)) =>
    match (if scaled then s.srcValue t e d.kcols true (i, j) (blockHead d.kcols i j) else (s, .ok (some 127))) with
    | (s, .error x) => s.itemStops t e item x
    | (s, .ok sc) =>
      let (y, g) := tstVal v.fmt d.fmt e.ftz bits (sc.getD 127)
      let s := s.engFlags e.id g
      if g &&& e.fpc.extractLsb' 1 5 != 0 then s.tileFail t e item .fpException
      else s.storeElem z t e item (k % e.parts) v (v.elem i j) y

/-- The values of the blocks that share a scale byte. -/
def State.blockValues (s : State) (t : Troop) (e : EngOp) (kcols : Bool) :
    List ((Nat × Nat) × (Nat × Nat)) → State × Except WalkStop (List Nat)
  | [] => (s, .ok [])
  | b :: bs =>
    match s.srcValue t e kcols true b.1 b.2 with
    | (s, .error r) => (s, .error r)
    | (s, .ok x) => match State.blockValues s t e kcols bs with
      | (s, .ok xs) => (s, .ok (x.toList ++ xs))
      | r => r

/-- The blocks of the box whose scale byte is that of a block. -/
def EngOp.sharing (e : EngOp) (kcols : Bool) (v : View) (b : (Nat × Nat) × (Nat × Nat)) : List ((Nat × Nat) × (Nat × Nat)) :=
  (e.blocks kcols).filter fun a => v.scaleAt kcols a.2.1 a.2.2 == v.scaleAt kcols b.2.1 b.2.2

/-- A scale byte of a step (R167). No commutative range holds scale bytes, so ACC 7 finds none open for it (R170). -/
def State.scaleItem (s : State) (z : Str) (t : Troop) (e : EngOp) (item k : Nat) (v : View) (d : TDesc) : State :=
  match (e.blocks d.kcols)[k]? with
  | none => s.engDone e.id item
  | some b =>
    match s.blockValues t e d.kcols (e.sharing d.kcols v b) with
    | (s, .error x) => s.itemStops t e item x
    | (s, .ok xs) =>
      match xs.dedup, v.scaleAt d.kcols b.2.1 b.2.2 with
      | [], _ => s.engDone e.id item
      | [x], .at va _ _ => if e.op = 7 then s.tileFail t e item .rangeStore else s.tileWrite z t e item va (bytesOf 1 x)
      | [_], _ => s.tileFail t e item .noncanonical
      | _, _ => s.tileFail t e item .tileData

/-! ### The working cells of a step (R170) -/

/-- The places in a step of its element parts; its scale bytes follow. -/
def EngOp.elemCount (e : EngOp) : Nat := e.box.2.2.1 * e.box.2.2.2 * e.parts

/-- The item at place `k` of a step stores an element, or a scale byte. -/
def State.storeItem (s : State) (z : Str) (t : Troop) (e : EngOp) (item k : Nat) (v : View) (d : TDesc) : State :=
  if k < e.elemCount then s.elemItem z t e item k v d else s.scaleItem z t e item (k - e.elemCount) v d

/-- The cells of the source that the item at place `k` of a step stores from. -/
def EngOp.itemCells (e : EngOp) (kcols : Bool) (v : View) (k : Nat) : List Nat :=
  if k < e.elemCount then [cellOf (e.place (k / e.parts)).1 (e.place (k / e.parts)).2]
  else match (e.blocks kcols)[k - e.elemCount]? with
    | some b => ((e.sharing kcols v b).map fun a => cellOf a.1.1 a.1.2).dedup
    | none => []

/-- The step begins: its working nodes have no cells yet. -/
def EngOp.beginStep (e : EngOp) (step : Nat) : EngOp :=
  let shift := fun (v : View) k => v.shift e.table (step / e.cols) (step % e.cols) k
  { e with step := some step, work := (workTree e.tree shift 257 e.src ([], 0)).2.1, bad := [] }

/-- No step is under way: its working cells are free. -/
def EngOp.freeWork (e : EngOp) : EngOp := { e with step := none, work := [], bad := [] }

/-- The step ends when each of its items has been stored or has failed. -/
def EngOp.endStep (e : EngOp) (per : Nat) : EngOp :=
  match e.step with
  | some st => if (e.done.filter fun i => i / per == st).length == per then e.freeWork else e
  | none => e

/-- The source's working cells from which nothing is left to store give up their room. -/
def EngOp.dropStored (e : EngOp) (per : Nat) (kcols : Bool) : EngOp :=
  match e.step, e.work.getLast? with
  | some st, some x =>
    let left := match e.dstAt st with
      | some v => ((List.range per).filter fun k => !e.done.contains (st * per + k)).flatMap (e.itemCells kcols v)
      | none => []
    { e with work := e.work.dropLast ++ [{ x with forced := x.forced.filter fun c => left.contains c.cell }] }
  | _, _ => e

/-- A working cell that has been computed, whether it is kept or fails after it: its rerun and its flags (R83, R150, R172). -/
def State.walkedRan (s : State) (t : Troop) (e : EngOp) (seq : Nat) (rerun : Bool) (flags : Flags) : State :=
  (if rerun then (s.countRerun t.pad).failSeq t.core seq 1 else s).engFlags e.id flags

/-- The outcome of a working cell, like that of a node's (R149, R161, R163, R172): it holds its room until the step's stores are in.
DESIGN CHOICE (log entry 146): where the store has no room left, cells of the source whose own stores are in are freed before that. -/
def State.endWalked (s : State) (t : Troop) (e : EngOp) (item : Nat) (w : WalkCell) (bad1 bad2 : Bool) (per : Nat) (kcols : Bool)
    (r : CellRes) : State :=
  let x := w.node
  let rerun := x.chk && x.op == .mul && bad1
  let ran := fun (s : State) => s.walkedRan t e x.seq rerun r.flags
  let s := if s.cellsUsed t.core + cellUnits x.out ≤ 128 then s else s.updEng e.id fun e => e.dropStored per kcols
  match s.closeCell t x bad1 bad2 r with
  | (s, .badCheck) => s.itemStops t e item (w.stop (.refused .uncorrectableMemory) 5)
  | (s, .failed c code) => (ran s).itemStops t e item (w.stop (.refused c) code)
  | (s, .stopped (.refused c)) => (ran s).itemStops t e item (w.stop (.refused c) (statusOf c))
  | (s, .stopped stop) => s.itemStops t e item { w.stop stop stop.code with ran := some (r.flags, rerun) }
  | (s, .kept) =>
    let c : CellVal := { cell := w.cell, vals := r.vals, scales := r.scales, evicted := false, used := 0 }
    (ran s).updEng e.id fun e => { e with work := updFirst (·.n == x.n) (fun y => { y with forced := y.forced ++ [c] }) e.work }

/-- A working cell is computed for an item, that of a multiply on a quarter that its troop holds (R145, R163, R165, R170). -/
def State.walkCell (s : State) (t : Troop) (e : EngOp) (item : Nat) (w : WalkCell) (bad1 bad2 : Bool) (per : Nat) (kcols : Bool) :
    State :=
  match s.cellValue w.node.sid t e.work w.node w.cell w.rows with
  | (s, .error r) => s.itemStops t e item (w.stop r r.code)
  | (s, .ok r) => s.runCell t w.node e.work (.eng e.id item) bad1 fun s => s.endWalked t e item w bad1 bad2 per kcols r

/-- An item of a walk: a cell that it lacks is computed, or it is stored. One step is under way at a time (log entry 146). -/
def State.walkItem (s : State) (z : Str) (t : Troop) (e : EngOp) (item : Nat) (v : View) (d : TDesc) (bad1 bad2 : Bool) : State :=
  let per := e.perStep d.kcols
  if e.step.isSome && e.step != some (item / per) then s
  else
    let e := if e.step.isSome then e else e.beginStep (item / per)
    let s := s.updEng e.id fun f => { f with step := e.step, work := e.work, bad := e.bad }
    let root := e.work.length - 1
    let next := ((e.itemCells d.kcols v (item % per)).map fun c => (root, c)).foldl (State.nextCell t e 257) (s, .ok none)
    let s := match next with
      | (s, .error x) => s.itemStops t e item x
      | (s, .ok (some w)) => s.walkCell t e item w bad1 bad2 per d.kcols
      | (s, .ok none) => s.storeItem z t e item (item % per) v d
    s.updEng e.id fun e => e.endStep per

/-- An item of TST or TWALK takes its step, when no older operation that writes its bytes holds it back (R249). One whose page
has been refused at the rail fails (R172). -/
def State.tileItem (s : State) (e : EngOp) (item : Nat) (bad1 bad2 : Bool) : State :=
  match s.str? e.sid with
  | none => s
  | some z =>
    match s.troop? z.tid with
    | none => s
    | some t =>
      let d := s.srcDesc t e
      let per := e.perStep d.kcols
      if e.tileCount d.kcols ≤ item || !s.engOpen e item || (s.olderEngs e).any (fun f =>
          f.pendingOn (f.tileCount f.kcols) (f.tileTargets f.kcols) (e.tileTargets d.kcols item)) then s
      else
        match s.refusals.find? (·.1 == .eng e.id item) with
        | some r =>
          let s := { s with refusals := s.refusals.erase r }
          State.updEng (match e.met.find? (fun (m : Met) => m.item == item) with
            | some m =>
              let s := match m.ran with | some x => s.walkedRan t e (m.chain.headD 0) x.2 x.1 | none => s
              s.itemStops t e item { res := .refused r.2, chain := m.chain, code := statusOf r.2, cell := m.cell }
            | none => s.itemStops t e item { res := .refused r.2, code := statusOf r.2 }) e.id fun e => e.endStep per
        | none =>
          match e.dstAt (item / per) with
          | none => s.engDone e.id item
          | some v => if e.kind == .twalk then s.walkItem z t e item v d bad1 bad2 else s.storeItem z t e item (item % per) v d

/-! ### Items and retirement -/

/-- An item of an engine operation takes its step; `bad1` and `bad2` say whether the check of a checked multiply in it fails in
the run and in the rerun (R149). -/
def State.engItem (s : State) (id item : Nat) (bad1 bad2 : Bool) : State :=
  match s.eng? id with
  | none => s
  | some e => (if e.kind.cls == 1 then s.tileItem e item bad1 bad2 else s.copyItem e item).settleFor e.sid

/-- The cells that the operation demanded have been computed or have failed. -/
def State.demandsEnded (s : State) (t : Troop) (e : EngOp) : Bool :=
  match e.src, e.kind with
  | _, .twalk => true
  | .node n, _ => match s.node? t.core n with
    | some x => (boxCells e.box).all fun c => !x.demanded.any (·.1 == c)
    | none => true
  | _, _ => true

/-- TILE_OP_RETIRE (R167, R247, R249). -/
def execTileOpRetire (op : Nat) (s : State) : Out :=
  match s.eng? op with
  | none => .next s
  | some e =>
    match (s.str? e.sid).bind fun z => s.troop? z.tid with
    | none => .next s
    | some t =>
      if e.kind.cls != 1 || s.olderEng e || !s.engWritesDone e || !s.demandsEnded t e ||
          !(List.range (e.tileCount (s.srcDesc t e).kcols)).all e.done.contains then .next s
      else .next ((s.retireEng e).freeNodes.settleOverflow t.tid)

end Sys2Proof.Machine
end

