-- ==== Sys2Proof/Machine/Recovery.lean ====
section
/-! DEFINITION. Recovery blocks and tandems: the troop collectives (R409), ENSURE and its scan (R410), the markers and the drain
(R411, R412), the acceptance decision (R413, R414), cycle limits (R416), RSTAT (R426), tandems (R428 to R431), the signature of an
escaping commit (R435), and EXIT (R37, R415). -/

namespace Sys2Proof.Machine

/-! ### Arrivals (R409) -/

def Coll.decides : Coll → Bool
  | .accept | .reject => true
  | _ => false

/-- The innermost open block is in its test. -/
def Troop.inTest (t : Troop) : Bool := match t.blocks.getLast? with | some b => b.inTest | none => false

/-- An arrival belongs to the collective that `k` at `pc` names. -/
def Troop.matchesColl (t : Troop) (a : Arrival) (k : Coll) (pc : Addr) : Bool :=
  (a.coll == k && a.pc == pc) || (t.inTest && a.coll.decides && k.decides)

/-- The pending collective is dropped. -/
def State.dropArrivals (s : State) (tid : Nat) : State :=
  s.updTroop tid fun t => { t with arrivals := [], joining := none }

/-- Every arrived lane takes a precise trap at its own instruction, as one bundle for each string; lanes whose trap is
deferred issue their collective again (R388, R409). -/
def State.trapArrived (s : State) (t : Troop) (cause : Cause) : State :=
  (s.strsOf t.tid).foldl (fun s z =>
    match t.arrivals.filter (·.sid == z.sid) with
    | [] => s
    | a :: as =>
      let m := maskOf ((a :: as).map (·.lane))
      if s.mustDefer z.sid false then
        s.updStr z.sid fun z => z.mapLanes m fun l => { l with pc := a.pc, park := .deferred }
      else s.raise (parkedCur z.sid m a.pc a.next false t.super) cause) (s.dropArrivals t.tid)

/-- Every lane of every string has arrived; exited lanes and retired strings count. -/
def State.collDone (s : State) (t : Troop) : Bool :=
  !t.arrivals.isEmpty && (s.strsOf t.tid).all fun z => z.retired || (List.range 32).all fun l =>
    (z.lane l).exited || t.arrivals.any fun a => a.sid == z.sid && a.lane == l

/-- The lanes parked at a collective go on. -/
def State.leaveColl (s : State) (tid : Nat) : State :=
  { s with strs := updAll (·.tid == tid) (fun (z : Str) => z.unpark fun p => p == Park.collective) s.strs }.dropArrivals tid

/-- The lanes parked at a collective go on at a PC. -/
def State.leaveTo (s : State) (tid : Nat) (pc : Addr) : State := (s.leaveColl tid).moveTroop tid pc

/-! ### The scan of ENSURE (R410) -/

inductive ScanRes where
  | wait
  | ok (alts : List Addr) (endPc : Addr)
  | illegal
  | absent (va lvl : Nat)
  | refused (c : Cause)
  deriving DecidableEq, Repr

/-- The scan from `va`, `alts` found so far, newest first. -/
def State.scan : Nat → State → Troop → Nat → Nat → Nat → List Addr → State × ScanRes
  | 0, s, _, _, _, _, _ => (s, .illegal)
  | fuel + 1, s, t, start, va, nest, alts =>
    if 16384 ≤ (va - start) / 4 then (s, .illegal)
    else
      match s.fetchWord t.core t.pad t.secure t.super va with
      | (s, .absent lvl) => (s, .absent va lvl)
      | (s, .refused c) => (s, .refused c)
      | (s, .ok bs) =>
        match takeWord bs with
        | none => (s, .illegal)
        | some (w, _) =>
          let next := va + 4 * (lenOf w).words
          if opcOf w != 0x7F then State.scan fuel s t start next nest alts
          else if fnOf w = 0 then State.scan fuel s t start next (nest + 1) alts
          else if fnOf w = 2 then
            if nest = 0 then (s, .ok alts.reverse (BitVec.ofNat 56 va))
            else State.scan fuel s t start next (nest - 1) alts
          else if fnOf w = 1 && nest == 0 then
            if alts.length = 8 then (s, .illegal)
            else State.scan fuel s t start next nest (BitVec.ofNat 56 (va + 4) :: alts)
          else State.scan fuel s t start next nest alts

/-- The scan of an arrived ENSURE, unless one of its fetches is hitched; a hitched one that was refused answers so. -/
def State.scanEnsure (s : State) (t : Troop) (a : Arrival) : State × ScanRes :=
  if s.cellRailed (.scan t.tid) then (s, .wait)
  else
    match s.refusals.find? (·.1 == .scan t.tid) with
    | some r => ({ s with refusals := s.refusals.erase r }, .refused r.2)
    | none => s.scan 16385 t (a.pc.toNat + 20) (a.pc.toNat + 20) 0 [a.pc + 20]

/-- The block opens (R410). -/
def State.openBlock (s : State) (tid : Nat) (a : Arrival) (alts : List Addr) (endPc : Addr) : State :=
  (s.updTroop tid fun t => { t with blocks := t.blocks ++
    [{ limit := a.limit, count := 0, alts := alts, endPc := endPc, test := addr56 a.target, spillMark := t.rcSpill.mark
       mmaj := t.mmaj }] }).leaveTo tid (alts.headD 0)

/-- The scan failed: a precise trap at the ENSURE, or inside a block the failure of the alternate (R417). -/
def State.ensureFault (s : State) (t : Troop) (c : Cause) : State :=
  if t.depth = 0 then s.trapArrived t c else s.fail t.tid t.depth 3 c.code

/-- The scans of a tandem's members, when every one has succeeded. -/
def State.scanAll (s : State) : List Troop → State × Option (List (Nat × Arrival × List Addr × Addr))
  | [] => (s, some [])
  | m :: ms =>
    match m.arrivals with
    | [] => (s, none)
    | a :: _ =>
      if a.coll != .ensure || !s.collDone m || m.depth == 4 then (s, none)
      else match s.scanEnsure m a with
        | (s, .ok alts e) =>
          if !canonical a.target then (s, none)
          else match State.scanAll s ms with
            | (s, some rest) => (s, some ((m.tid, a, alts, e) :: rest))
            | r => r
        | (s, .refused c) => ({ s with refusals := s.refusals ++ [(.scan m.tid, c)] }, none)
        | (s, _) => (s, none)

/-- A completed ENSURE (R410, R430). Its test address is checked after its scan, whose failure is ILLEGAL_INSTRUCTION and comes
first (R43, R59, R408; log entry 140). -/
def State.stepEnsure (s : State) (t : Troop) (a : Arrival) : State :=
  if t.depth = 4 then s.trapArrived t .recoveryDepth
  else
    match s.scanEnsure t a with
    | (s, .wait) => s
    | (s, .absent va lvl) =>
      let (id, s) := s.fresh
      s.hitch (railFor t a.sid t.depth t.super .fetch va id (.scan t.tid)) lvl
    | (s, .illegal) => s.ensureFault t .illegalInstruction
    | (s, .refused c) => s.ensureFault t c
    | (s, .ok alts e) =>
      if !canonical a.target then s.ensureFault t .noncanonical
      else if t.tandem.isNone then s.openBlock t.tid a alts e
      else
        let ms := s.members t
        match s.scanAll ms with
        | (s, none) => s
        | (s, some rs) =>
          if rs.all fun r => r.2.2.1.length == alts.length then
            rs.foldl (fun s r => s.openBlock r.1 r.2.1 r.2.2.1 r.2.2.2) s
          else if t.depth = 0 then ms.foldl (fun s m => s.trapArrived m .illegalInstruction) s
          else s.noteFail t.tid { depth := t.depth, kind := 6, cause := 0, each := true }

/-! ### The drain (R412) -/

/-- A drain begins: the unforced cells of the live nodes of the current epoch are demanded (R177). -/
def State.startDrain (s : State) (t : Troop) (decision : Bool) (pc : Addr) : State :=
  let mine := s.nodes.filter fun x => x.tid == t.tid && x.epoch == t.depth
  let s := mine.foldl (fun s x =>
    s.demand x.core x.n x.unforced { sid := x.sid, pc := pc, depth := t.depth, trap := false, wait := x.sid }) s
  s.updTroop t.tid fun t =>
    { t with blocks := updAt (fun (b : RBlock) => { b with draining := some decision }) t.blocks (t.depth - 1) }

/-- Nothing of the troop is left to drain. -/
def State.drained (s : State) (t : Troop) : Bool :=
  let mine := fun sid => (s.strsOf t.tid).any (·.sid == sid)
  s.accs.all (fun a => !mine a.sid) && s.engs.all (fun e => !mine e.sid || decide (e.depth < t.depth)) &&
    s.matOps.all (fun o => o.tid != t.tid || o.regs.isEmpty) && s.pendJ.all (·.tid != t.tid) &&
    s.nodes.all fun x => x.tid != t.tid || decide (x.epoch < t.depth) || x.demanded.isEmpty

/-- A late fault of the current depth or deeper is queued. -/
def State.lateIn (s : State) (t : Troop) : Option Late :=
  ((s.strsOf t.tid).flatMap (·.lateq)).find? fun f => decide (t.depth ≤ f.depth)

/-- The flags of the cells that a drain forced reach FPFLAGS. -/
def State.takeTroopFlags (s : State) (tid : Nat) : State := (s.strsOf tid).foldl (fun s z => s.takeFlags z.sid) s

/-- The end of the current alternate (R411). -/
def RBlock.marker (b : RBlock) : Addr := match b.alts[b.alt + 1]? with | some a => a - 4 | none => b.endPc

/-- A completed ELSEBY or ELSEERR (R411, R412). -/
def State.stepMarker (s : State) (t : Troop) (a : Arrival) : State :=
  match t.blocks.getLast? with
  | none => s
  | some b =>
    if b.draining.isNone then
      if a.pc = b.marker && !b.inTest then s.startDrain t false a.pc else s.fail t.tid t.depth 6 0
    else if !s.drained t then s
    else
      match s.lateIn t with
      | some f => s.fail t.tid t.depth 3 f.cause.code
      | none =>
        ((s.takeTroopFlags t.tid).updTroop t.tid fun t =>
          { t with blocks := updAt (fun (b : RBlock) => { b with draining := none, inTest := true }) t.blocks (t.depth - 1) }).leaveTo
          t.tid b.test

/-! ### Acceptance (R413, R423) -/

/-- Entries of depth k: the older value of each key stays (R423). -/
def mergeBag (k : Nat) (bag : List BagEnt) : List BagEnt :=
  if k = 1 then []
  else (bag.filter fun e => e.tag != k || bag.all fun f => f.key != e.key || f.tag != k - 1).map fun e =>
    if e.tag = k then { e with tag := k - 1 } else e

def mergeWords (k : Nat) (ws : List WordEnt) : List WordEnt :=
  if k = 1 then []
  else (ws.filter fun e => e.tag != k || ws.all fun f => f.word != e.word || f.tag != k - 1).map fun e =>
    if e.tag = k then { e with tag := k - 1 } else e

/-- Recorded tile registers (R176). -/
def mergeTiles (k : Nat) (ts : List TileEnt) : List TileEnt :=
  if k = 1 then []
  else (ts.filter fun e => e.tag != k || ts.all fun f => f.n != e.n || f.tag != k - 1).map fun e =>
    if e.tag = k then { e with tag := k - 1 } else e

def Str.mergeEpoch (z : Str) (k : Nat) : Str := { z with bag := mergeBag k z.bag, tiles := mergeTiles k z.tiles }

/-- A barrier's arrivals and expectations of depth k of a troop become those of depth k − 1 (R331). -/
def Barrier.accept (b : Barrier) (tid k : Nat) : Barrier :=
  { b with
    arrs := b.arrs.map fun (a : BarArr) => if a.tid == tid && decide (k ≤ a.depth) then { a with depth := k - 1 } else a
    exps := b.exps.map fun (e : Nat × Nat × Nat) => if e.1 == tid && decide (k ≤ e.2.1) then (e.1, k - 1, e.2.2) else e }

/-- Depth k of one troop becomes k − 1: saddlebags, tile records, nodes, buffers, barriers (R176, R222, R331, R413, R423). A node that
only a merged record named is freed (R169). -/
def State.acceptOne (s : State) (t : Troop) : State :=
  let k := t.depth
  let s := s.acceptBuffers t k
  let s := { s with
    strs := updAll (·.tid == t.tid) (·.mergeEpoch k) s.strs
    nodes := updAll (fun x => x.tid == t.tid && x.epoch == k) (fun x => { x with epoch := k - 1 }) s.nodes
    bars := s.bars.map fun (b : Barrier) => b.accept t.tid k }
  ((s.updTroop t.tid fun t => { t with words := mergeWords k t.words }).closeBlock t.tid k).freeNodes

/-- The shadow lines of depth 0 that a tandem owns and that its outermost ACCEPT carries out, or all of them, pass to one member; what
it does not carry out stays the tandem's, which its last member takes over (R223, R431). -/
def State.giveTandem (s : State) (t : Troop) (all : Bool) : State :=
  match t.tandem with
  | none => s
  | some id =>
    let give := fun (l : BufLine) =>
      let wide := l.asks.any fun e => e.1 == .tan id && decide (2 < e.2.code)
      if l.epoch = 0 && l.space == .clu (clusterOf t.core) && (all || wide) then
        { l with asks := l.asks.map fun e => if e.1 == .tan id then (.trp t.tid, e.2) else e
                 owner := if l.owner == .tan id then .trp t.tid else l.owner
                 comm := l.comm.map fun c => if c.2 == .tan id then (c.1, .trp t.tid) else c }
      else l
    { s with lines := s.lines.map give }

/-- Every member's depth 1 becomes 0. -/
def State.acceptOuter (s : State) (ms : List Troop) : State :=
  let s := ms.foldl (fun s m => s.acceptOne m) s
  match ms with
  | m :: _ => s.giveTandem m false
  | [] => s

/-! ### Escaping commits (R435) -/

/-- The line of the buffer is one that an escaping commit carries wider than cluster. -/
def State.escapes (s : State) (t : Troop) (final : Bool) (sp : Space) (line : Nat) : Bool :=
  match s.visible t sp line with
  | some l => s.liftWants t final l && decide (Level.clu.code < (liftTarget t final l).code)
  | none => false

/-- What an escaping commit carries wider than cluster. -/
def State.escLines (s : State) (t : Troop) (final : Bool) : List Carried :=
  (liftSpaces t final).foldl (fun cs sp =>
    Machine.overlay cs ((s.carriedFrom t sp).filter fun c => s.escapes t final sp c.line)) []

/-- The carried lines in increasing physical line address. -/
def sortCarried (cs : List Carried) : List Carried :=
  cs.foldl (fun acc c => acc.filter (fun x => decide (x.line < c.line)) ++ [c] ++ acc.filter fun x => decide (c.line ≤ x.line)) []

/-- The record of a line in the signature's sequence. -/
def Carried.record (c : Carried) : List Byte :=
  bytesOf 8 (64 * c.line) ++ bytesOf 8 c.mask.toNat ++
    (List.range 64).map fun i => if c.mask.getLsbD i then lineByte c.data i else 0

/-- The signature of escaping commit `n` of kind `kind` (0 final, 1 ACCEPT). -/
def signature (kind n : Nat) (cs : List Carried) : Nat :=
  natOfBytes ((sha512 (bytesOf 4 kind ++ bytesOf 4 n ++ (sortCarried cs).flatMap (·.record))).take 8)

/-- The lines of an escaping commit are discarded (R436). -/
def State.dropEscaped (s : State) (t : Troop) (final : Bool) : State :=
  (liftSpaces t final).foldl (fun s sp =>
    s.emptiedIf t sp fun l => s.liftWants t final l && decide (Level.clu.code < (liftTarget t final l).code)) s

/-- A tie-breaking run before the commit that it decides: that commit's number is the primary's next one (R436). -/
def State.beforeTie (s : State) (o : Outr) : Bool :=
  o.role == .tieBreak && (match s.troop? o.mate with
    | some p => match p.outr with | some q => decide (o.commits < q.commits) | none => false
    | none => false)

/-- The copy still has to wait at its escaping commit. -/
def State.mustCompare (s : State) (t : Troop) : Bool :=
  match t.outr with
  | some o => o.decided.isNone && !s.beforeTie o
  | none => false

/-- A copy parks at its escaping commit with its signature, once. -/
def State.parkEscape (s : State) (tid kind : Nat) (cs : List Carried) : State :=
  s.updTroop tid fun t => { t with outr := t.outr.map fun o =>
    if o.waiting.isNone && o.decided.isNone then { o with waiting := some (kind, signature kind (o.commits + 1) cs) } else o }

/-- A copy has passed its escaping commit. -/
def State.passEscape (s : State) (tid : Nat) : State :=
  s.updTroop tid fun t => { t with outr := t.outr.map fun o =>
    { o with commits := o.commits + 1, waiting := none, decided := none } }

/-! ### The acceptance decision (R413, R414, R430) -/

/-- The outermost block is accepted: every member's lines are lifted, but for those that a redundant copy discards or goes on
holding; with nothing to lift the lanes go on (R223, R436). -/
def State.finishAccept (s : State) (ms : List Troop) (pc : Addr) : State :=
  let s := s.acceptOuter ms
  let s := ms.foldl (fun s m => s.dropArrivals m.tid) s
  let lift := fun (s : State) (m : Troop) =>
    match m.outr with
    | none => s.startLift m.tid pc false
    | some o =>
      let s := s.passEscape m.tid
      match o.decided, s.troop? m.tid with
      | some true, _ => s.startLift m.tid pc false
      | some false, some m => s.dropEscaped m false
      | _, _ => s
  let s := ms.foldl lift s
  if s.ops.any fun o => o.kind == .lift && ms.any (·.tid == o.tid) then s else ms.foldl (fun s m => s.leaveColl m.tid) s

/-- What the drained arrivals decide: a REJECT, whose FKIND is the lower, before a fault of the drain (R413, R418); a failure found
before it prevails over an acceptance. -/
def State.judge (s : State) (ms : List Troop) (k : Nat) (pc : Addr) : State :=
  match ms.find? fun m => m.arrivals.any (·.coll == .reject) with
  | some m => s.fail m.tid k 1 0
  | none =>
    match ms.find? fun m => (s.lateIn m).isSome with
    | some m => s.fail m.tid k 3 (match s.lateIn m with | some f => f.cause.code | none => 0)
    | none =>
      let s := ms.foldl (fun s m => s.takeTroopFlags m.tid) s
      if ms.any fun m => !m.fails.isEmpty then s
      else if k ≠ 1 then ms.foldl (fun s m => (s.acceptOne m).leaveColl m.tid) s
      else if ms.any s.mustCompare then
        let after := s.acceptOuter ms
        ms.foldl (fun s m =>
          if s.mustCompare m then
            s.parkEscape m.tid 1 (match after.troop? m.tid with | some u => after.escLines u false | none => [])
          else s) s
      else s.finishAccept ms pc

/-- A completed acceptance decision. -/
def State.stepDecide (s : State) (t : Troop) (a : Arrival) : State :=
  match t.blocks.getLast? with
  | none => s
  | some b =>
    if !b.inTest then s.fail t.tid t.depth (if a.coll = .reject then 1 else 6) 0
    else
      let ms := s.members t
      if b.draining.isNone then
        if ms.all fun m => s.collDone m && m.inTest && m.arrivals.all (·.coll.decides) then
          ms.foldl (fun s m => s.startDrain m true (match m.arrivals with | x :: _ => x.pc | [] => a.pc)) s
        else s
      else if ms.all s.drained then s.judge ms t.depth a.pc else s

/-! ### Tandems (R428 to R431) -/

/-- The linear index of the first troop of a troop's tandem group, and T. -/
def State.tandemGroup (s : State) (t : Troop) : Nat × Nat :=
  match s.launchOf t with
  | some l => if l.tandem = 0 then (t.linear, 0) else (t.linear / l.tandem * l.tandem, l.tandem)
  | none => (t.linear, 0)

/-- A TJOIN's mask is one that its troop may give (R429). -/
def State.maskOk (s : State) (t : Troop) (x : Dword) : Bool :=
  let (base, n) := s.tandemGroup t
  decide (2 ≤ n) && decide (x.toNat < 2 ^ n) && x.getLsbD (t.linear - base) &&
    decide (2 ≤ ((List.range 8).filter fun i => x.getLsbD i).length) && t.tandem.isNone

/-- The troops that a mask names, of the same copy of the launch. -/
def State.named (s : State) (t : Troop) (mask : Nat) : List Troop :=
  let base := (s.tandemGroup t).1
  s.troops.filter fun u => u.launch == t.launch && u.copyNo == t.copyNo && decide (base ≤ u.linear) &&
    decide (u.linear < base + 8) && mask.testBit (u.linear - base)

/-- The named troops form one tandem. -/
def State.formTandem (s : State) (ms : List Troop) (mask : Nat) : State :=
  let (id, s) := s.fresh
  let d : Tandem := { id := id, mask := BitVec.ofNat 8 mask, tids := ms.map (·.tid) }
  (ms.foldl (fun (s : State) m => (s.leaveColl m.tid).updTroop m.tid fun t => { t with tandem := some id })
    { s with tandems := s.tandems ++ [d] }).joinHeld id

/-- The troops that wait at a TJOIN with another mask, which names a troop whose TJOIN is refused, are refused too (R429). -/
def State.trapWaiting (s : State) (t : Troop) (mask : Nat) : State :=
  let base := (s.tandemGroup t).1
  let waits := fun (u : Troop) => u.launch == t.launch && u.copyNo == t.copyNo && (s.tandemGroup u).1 == base && u.tid != t.tid &&
    (match u.joining with | some x => x != mask && x.testBit (t.linear - base) | none => false)
  (s.troops.filter waits).foldl (fun s u => s.trapArrived u .bounds) s

/-- A completed TJOIN waits for the troops that it names; where it cannot be, every troop that has arrived at it is refused, and every
one that waits with another mask which names this troop (R429). -/
def State.stepJoin (s : State) (t : Troop) (a : Arrival) : State :=
  let mask := a.arg.toNat
  let s := s.updTroop t.tid fun t => { t with joining := some mask }
  let ms := s.named t mask
  if ms.any fun m => m.ended || m.tandem.isSome || (match m.joining with | some x => x != mask | none => false) then
    (ms.foldl (fun s m => if m.joining.isSome then s.trapArrived m .bounds else s) s).trapWaiting t mask
  else if ms.all fun m => m.joining.isSome then s.formTandem ms mask
  else s

/-- A troop leaves its tandem; the last one takes over its epoch-0 shadow lines (R431). -/
def State.leaveTandem (s : State) (t : Troop) : State :=
  match t.tandem with
  | none => s
  | some id =>
    let last := s.tandems.any fun d => d.id == id && d.tids == [t.tid]
    let s := if last then s.giveTandem t true else s.partHeld t
    { s with tandems := (s.tandems.map fun (d : Tandem) =>
        if d.id = id then { d with tids := d.tids.filter (· != t.tid) } else d).filter fun d => !d.tids.isEmpty }.updTroop t.tid
      fun t => { t with tandem := none }

/-! ### Completion -/

/-- The pending collective of a troop takes its next step, when it has one. -/
def State.advance (s : State) (tid : Nat) : State :=
  match s.troop? tid with
  | none => s
  | some t =>
    match t.arrivals with
    | [] => s
    | a :: _ =>
      if !s.collDone t then s
      else
        match a.coll with
        | .ensure => s.stepEnsure t a
        | .elseby | .elseerr => s.stepMarker t a
        | .accept | .reject => s.stepDecide t a
        | .tjoin => s.stepJoin t a
        | .tleave => (s.leaveTandem t).leaveColl tid

/-- The arriving bundle and every lane that has arrived at the troop's pending collective trap, each at its own instruction: first
the bundle that issues, so that a lane of its own string that had arrived is deferred (R388, R409). -/
def State.trapAll (s : State) (c : Cur) (t : Troop) (cause : Cause) : State := (s.raise c cause).trapArrived t cause

/-- A collective's first check: at depth 0 one that mismatches the pending one is illegal, before every other check (R43, R59,
R409). -/
def State.atColl (s : State) (c : Cur) (t : Troop) (k : Coll) (go : State) : State :=
  if t.depth = 0 && t.arrivals.any fun a => !t.matchesColl a k c.pc then s.trapAll c t .illegalInstruction else go

/-- The bundle arrives at a collective, or mismatches the pending one, inside a block a failure (R409). -/
def State.arriveColl (s : State) (c : Cur) (t : Troop) (k : Coll) (arg target : Dword) (limit : Nat) : State :=
  s.atColl c t k <|
  if t.arrivals.any fun a => !t.matchesColl a k c.pc then s.fail t.tid t.depth 6 0
  else
    let new := (lanesOf c.bundle).map fun l =>
      ({ sid := c.sid, lane := l, coll := k, pc := c.pc, next := c.next, arg := arg, target := target, limit := limit } : Arrival)
    ((s.park c.sid c.bundle .collective).updTroop t.tid fun t => { t with arrivals := t.arrivals ++ new }).advance t.tid

/-- TEST_DRAIN_COMPLETE (R412): the troop's pending collective takes its next step, or a rollback that waited for a forcing is
completed (R419), once it has read back what it restores, with the flags of the cells that it forced; a halted core's collective waits for
the resumption (R304). -/
def execTestDrainComplete (tid : Nat) (s : State) : Out :=
  match s.troop? tid with
  | some t => match t.failing with
    | some f =>
      let u := (s.readBack t f.depth).resumeFail t
      .next (if (match u.troop? tid with | some x => x.failing.isSome | none => false) then u else u.takeFlags f.wait)
    | none => .next (if s.haltedCore t.core then s else s.advance tid)
  | none => .next s

/-- CYCLE_LIMIT_EXPIRY (R416). -/
def execCycleLimitExpiry (tid depth : Nat) (s : State) : Out :=
  match (s.troop? tid).bind fun t => t.blocks[depth - 1]? with
  | some b => .next (if b.limit != 0 && decide (b.limit ≤ b.count) && decide (0 < depth) then s.fail tid depth 2 0 else s)
  | none => .next s

/-! ### The instructions -/

/-- The test address of an ENSURE, which no canonical address stands for when it breaks R46 (R408). -/
def testTarget (pc : Addr) (off : Dword) : Dword := match branchTarget pc off.toInt with | some p => dwordOf p | none => 1#64 <<< 63

/-- A marker or a decision arrives; with no block open it is illegal, and so is the pending collective, which it mismatches (R409,
R411, R414). -/
def State.arriveInBlock (s : State) (c : Cur) (t : Troop) (k : Coll) : State :=
  if t.depth = 0 then s.trapAll c t .illegalInstruction else s.arriveColl c t k 0 0 0

/-- ENSURE (R408, R410). -/
def execEnsure (o : Operands) (s : State) : Out :=
  s.issue (.ensure o) (fun c _ _ => !c.trap) fun c _ t => s.arriveColl c t .ensure 0 (testTarget c.pc o.lit) o.imm.toNat

/-- ELSEBY (R411). -/
def execElseby (o : Operands) (s : State) : Out :=
  s.issue (.elseby o) (fun c _ _ => !c.trap) fun c _ t => s.arriveInBlock c t .elseby

/-- ELSEERR (R411). -/
def execElseerr (o : Operands) (s : State) : Out :=
  s.issue (.elseerr o) (fun c _ _ => !c.trap) fun c _ t => s.arriveInBlock c t .elseerr

/-- ACCEPT (R413, R414). -/
def execAccept (o : Operands) (s : State) : Out :=
  s.issue (.accept o) (fun c _ _ => !c.trap) fun c _ t => s.arriveInBlock c t .accept

/-- REJECT (R413, R414). -/
def execReject (o : Operands) (s : State) : Out :=
  s.issue (.reject o) (fun c _ _ => !c.trap) fun c _ t => s.arriveInBlock c t .reject

/-- TJOIN (R415, R429). -/
def execTjoin (o : Operands) (s : State) : Out :=
  s.issue (.tjoin o) (fun c _ _ => !c.trap) fun c z t =>
    let x := z.sreg o.a.toNat
    if t.depth != 0 then s.raise c .recoveryEscape
    else if t.arrivals.all (fun a => t.matchesColl a .tjoin c.pc) &&
        (!s.maskOk t x || t.arrivals.any fun a => a.arg != x) then (s.trapAll c t .bounds).trapWaiting t x.toNat
    else s.arriveColl c t .tjoin x 0 0

/-- TLEAVE (R415, R431). -/
def execTleave (o : Operands) (s : State) : Out :=
  s.issue (.tleave o) (fun c _ _ => !c.trap) fun c _ t =>
    if t.depth != 0 then s.raise c .recoveryEscape
    else s.atColl c t .tleave <|
      if t.tandem.isNone then s.raise c .bounds
      else s.arriveColl c t .tleave 0 0 0

/-- TMASK (R426). -/
def State.tmask (s : State) (t : Troop) : Nat :=
  match (t.tandem.bind fun id => s.tandems.find? (·.id == id)) with
  | some d => d.mask.toNat
  | none => 0

/-- RSTAT (R426). -/
def execRstat (o : Operands) (s : State) : Out :=
  s.issue (.rstat o) (fun c _ _ => !c.trap) fun c z t =>
    if c.parts = 0 then s
    else
      let s := s.putScalar c z o.d (BitVec.ofNat 64 (t.depth * 2 ^ 40 + s.tmask t * 2 ^ 32 + rcvStat z t))
      (s.updTroop t.tid fun t => { t with conflicts := 0 }).updStr c.sid fun z =>
        { z with aborted := false, fkind := 0, fcause := 0 }

/-! ### EXIT -/

/-- Lanes exit: trap mode ends with the last lane in it, the string barrier and the troop's collective count them, and a late
fault left in the queue of a string with no lane is a second error; their block progress goes (R37, R316, R390, R394, R409). -/
def State.exitLanes (s : State) (c : Cur) (t : Troop) : State :=
  let s := s.updStr c.sid fun z => (z.mapLanes c.bundle fun l => { l with exited := true, trap := false, block := none }).endTrapMode
  match s.str? c.sid with
  | none => s
  | some z =>
    if z.lanes.all (·.exited) && !z.lateq.isEmpty then s.secondError z
    else (s.checkBar (.str c.sid)).advance t.tid

/-- EXIT (R37, R318, R415). -/
def execExit (o : Operands) (s : State) : Out :=
  s.issue (.exit o) noCheck fun c _ t => if t.depth != 0 then s.raise c .recoveryEscape else s.exitLanes c t

end Sys2Proof.Machine
end

