-- ==== Sys2Proof/Machine/Launch.lean ====
section
/-! DEFINITION. Packets and troops: the packet processor's stages (R289 to R295), admission (R296), dispatch and the start of a
troop (R11, R20 to R27, R291, R292, R297, R371), the retirement of strings and troops (R38, R39), release and the completion
signal. -/

namespace Sys2Proof.Machine

/-! ### Fields of a packet (R290) -/

def Launch.type (l : Launch) : Nat := l.bits 0 7 0
def Launch.flushN (l : Launch) : Nat := l.bits 0 23 21
def Launch.world (l : Launch) : Bool := l.bits 0 18 18 == 1
def Launch.prio (l : Launch) : Nat := l.bits 0 17 16
def Launch.barrier (l : Launch) : Bool := l.bits 0 14 14 == 1
def Launch.relLvl (l : Launch) : Level := (Level.ofCode (l.bits 0 13 11)).getD .str
def Launch.acqLvl (l : Launch) : Level := (Level.ofCode (l.bits 0 10 8)).getD .str
def Launch.cvregs (l : Launch) : Nat := l.bits 4 27 20
def Launch.pvregs (l : Launch) : Nat := l.bits 4 19 12
def Launch.saddle (l : Launch) : Nat := 8 * l.bits 5 31 28
def Launch.stq (l : Launch) : Nat := l.bits 5 17 9
def Launch.scr (l : Launch) : Nat := l.bits 5 8 0
def Launch.finLvl (l : Launch) : Nat := l.bits 14 24 22
def Launch.pktid (l : Launch) : Nat := l.bits 15 23 0
/-- DESIGN CHOICE (log entry 61): the low 3 bits and bits [63:56] are dropped. -/
def Launch.signal (l : Launch) : Nat := (addr56 (l.dword 10)).toNat / 8 * 8
def Launch.extVa (l : Launch) : Dword := l.dword 12
/-- The troop buffer's lines (R201). -/
def Launch.tbuf (l : Launch) : Nat := if l.bits 5 27 18 = 0 then 64 else 64 * l.bits 5 27 18
/-- The commit lines that a troop reserves (R201). -/
def Launch.reserve (l : Launch) : Nat := 64 * l.nstr + l.tbuf + 64
/-- The packet has troops. -/
def Launch.hasTroops (l : Launch) : Bool := l.type == 1 || l.type == 4
/-- The troops of the grid. -/
def Launch.total (l : Launch) : Nat := l.gridX * l.gridY * l.gridZ
/-- The troops of a cluster group. -/
def Launch.unit (l : Launch) : Nat := if 2 ≤ l.group then l.group else 1
/-- The register budget of string `i` (R23). -/
def Launch.budget (l : Launch) (i : Nat) : Nat := 8 * (if i < l.pstr then l.pvregs else l.cvregs)
/-- The 64-bit word at byte `off` of the launch extension (R292). -/
def Launch.extWord (l : Launch) (off : Nat) : Nat := natOfBytes ((l.ext.drop off).take 8)
/-- Flush entry `k`: its base, its lines, and whether it flushes (R292). -/
def Launch.flush (l : Launch) (k : Nat) : Nat × Nat × Bool :=
  let q1 := l.extWord (72 + 16 * k)
  (l.extWord (64 + 16 * k), q1 % 2 ^ 32, q1.testBit 32)
def Launch.flushes (l : Launch) : List (Nat × Nat × Bool) := (List.range l.flushN).map l.flush

/-! ### Placement on slices (R21, R23, R26) -/

/-- The strings and the rows on each of a core's twelve slices. -/
abbrev Slices := List (Nat × Nat)

def sliceFits (occ : Slices) (i rows : Nat) : Bool :=
  let o := occ.getD i (0, 0)
  decide (o.1 < 16) && decide (o.2 + rows ≤ 1024)

def sliceAdd (occ : Slices) (i rows : Nat) : Slices := updAt (fun o => (o.1 + 1, o.2 + rows)) occ i

/-- The slices of strings `i` to `n` − 1, each placed with those before it; `next` is where the strings outside joint sets go
on. -/
def Launch.layoutFrom (l : Launch) : Nat → Slices → Nat → Nat → Option (List Nat × Slices)
  | 0, occ, _, _ => some ([], occ)
  | left + 1, occ, i, next =>
    let rows := l.budget i + l.saddle
    let place := if i < 4 * l.joint then some (3 * (i % 4) + i / 4 % 3)
      else if l.joint = 0 then some (next % 12)
      else ((List.range 12).map fun d => (next + d) % 12).find? fun x => sliceFits occ x rows
    match place with
    | none => none
    | some x =>
      if sliceFits occ x rows then
        match Launch.layoutFrom l left (sliceAdd occ x rows) (i + 1) (if i < 4 * l.joint then next else x + 1) with
        | some (xs, occ) => some (x :: xs, occ)
        | none => none
      else none

/-- The slices of a troop's strings on a core from base slice `b`. -/
def Launch.layout (l : Launch) (occ : Slices) (b : Nat) : Option (List Nat × Slices) := l.layoutFrom l.nstr occ 0 b

def emptySlices : Slices := List.replicate 12 (0, 0)

/-- A troop of this shape fits an empty core. -/
def Launch.fitsEmpty (l : Launch) : Bool := (List.range 12).any fun b => (l.layout emptySlices b).isSome

/-- The rows of a troop. -/
def Launch.rows (l : Launch) : Nat := ((List.range l.nstr).map fun i => l.budget i + l.saddle).foldl (· + ·) 0

/-- The rows that are free on the slices of a core. -/
def freeRows (occ : Slices) : Nat := (occ.map fun o => 1024 - o.2).foldl (· + ·) 0

/-- The base slices of one more troop that leave different slices, from `b` on. -/
def Launch.bases (l : Launch) (occ : Slices) (b : Nat) : List (Nat × Slices) :=
  (((List.range 12).filter (b ≤ ·)).filterMap fun b => (l.layout occ b).map fun r => (b, r.2)).foldl (fun xs x =>
    if xs.any (·.2 == x.2) then xs else xs ++ [x]) []

/-- Base slices with which `n` more troops fit the slices of a core, if there are any. With no joint sets the order in which troops
are placed does not matter, and the bases are taken rising. -/
def Launch.packing (l : Launch) : Nat → Slices → Nat → Option (List Nat)
  | 0, _, _ => some []
  | n + 1, occ, b =>
    if freeRows occ < (n + 1) * l.rows then none
    else (l.bases occ b).findSome? fun x =>
      (Launch.packing l n x.2 (if l.joint = 0 then x.1 else 0)).map (x.1 :: ·)

/-- A largest packing of some slices, of at most `n` troops. -/
def Launch.mostFrom (l : Launch) (occ : Slices) : Nat → List Nat
  | 0 => []
  | n + 1 => match l.packing (n + 1) occ 0 with
    | some bs => bs
    | none => Launch.mostFrom l occ n

/-- The troops of this shape that one empty core holds (R297). -/
def Launch.perCore (l : Launch) : Nat :=
  let n := (List.range 32).countP fun n => (n + 1) * l.scr ≤ 20 && (n + 1) * l.stq ≤ 256 && (n + 1) * l.reserve ≤ 4096
  (l.mostFrom emptySlices n).length

/-! ### The paddock's cores -/

/-- The enabled cores of a cluster. -/
def State.clusterCores (s : State) (c : Nat) : List Nat :=
  ((List.range 8).map fun i => 8 * c + i).filter fun k => !s.removed.contains k

/-- The enabled cores of a paddock, in increasing number. -/
def State.padCores (s : State) (p : Paddock) : List Nat := p.clusters.flatMap s.clusterCores

/-! ### Admission (R296) -/

def sum (xs : List Nat) : Nat := xs.foldl (· + ·) 0

/-- The groups of troops that each cluster of the paddock holds when empty. -/
def State.groupRoom (s : State) (p : Paddock) (l : Launch) : List Nat :=
  p.clusters.map fun c => (s.clusterCores c).length * l.perCore / l.unit

/-- The whole grid, with its outriders on other clusters, fits the empty paddock. -/
def State.gridFits (s : State) (p : Paddock) (l : Launch) : Bool :=
  let room := s.groupRoom p l
  let n := (l.total + l.unit - 1) / l.unit
  if l.outrider then decide (2 * n ≤ sum room) && decide (n ≤ sum room - room.foldl max 0) else decide (n ≤ sum room)

/-- Row 0x01. -/
def Launch.badWords (l : Launch) : Bool :=
  let z := fun (ws : List Nat) => ws.any fun w => l.words.getD w 0 != 0
  let memb3 := (List.range 4).any fun n => l.memb (12 + n) == 3
  let words := match l.type with
    | 1 | 4 => (List.range 16).any (fun n => l.memb n == 3) || !canonical (l.dword 6) || (l.dword 6).toNat % 64 != 0
    | 2 =>
      let c := (l.words.getD 1 0).toNat
      decide (c < 1) || decide (4 < c) || z ((List.range 8).filterMap fun i => if 2 * c ≤ i then some (2 + i) else none) ||
        z [14] || memb3
    | 3 => z [1, 2, 3, 4, 5, 6, 7, 8, 9, 14] || memb3
    | _ => true
  words || l.bits 0 31 24 != 0 || l.bits 0 15 15 != 0 || l.bits 14 31 25 != 0 || decide (5 < l.bits 0 10 8) ||
    decide (5 < l.bits 0 13 11)

/-- Rows 0x03 to 0x0D, for a packet with troops. -/
def State.shapeReason (s : State) (p : Paddock) (l : Launch) : Nat :=
  if l.total = 0 || l.nstr = 0 || 32 < l.nstr || l.nstr ≤ l.pstr then 0x03
  else if (0 < l.pstr && (l.pvregs = 0 || 32 < l.pvregs)) || l.cvregs = 0 || 32 < l.cvregs ||
      !l.fitsEmpty then 0x04
  else if 20 < l.scr then 0x05
  else if 256 < l.stq then 0x06
  else if 4096 < l.reserve then 0x07
  else if 8 < l.group || (2 ≤ l.group && (l.total % l.group != 0 || (s.groupRoom p l).all (· == 0))) then 0x08
  else if 8 < l.joint || l.nstr < 4 * l.joint then 0x09
  else if 8 < l.tandem || (2 ≤ l.tandem && (l.group < 2 || l.group % l.tandem != 0)) then 0x0A
  else if l.finLvl < 2 || 5 < l.finLvl then 0x0B
  else if l.coresident && !s.gridFits p l then 0x0C
  else if l.outrider && p.clusters.length ≤ 1 then 0x0D
  else 0

/-- The checks of R296 before the extension is read; `prioMax` is the queue's. -/
def State.admitReason (s : State) (p : Paddock) (l : Launch) (prioMax : Nat) : Nat :=
  if l.badWords then 0x01
  else if (l.world && l.kind != 2) || prioMax < l.prio then 0x02
  else if l.hasTroops then s.shapeReason p l
  else 0

/-- The bytes of the extension that are read, or none when its address breaks row 0x0E. -/
def Launch.extBytes (l : Launch) : Option Nat :=
  if l.extVa.toNat % 64 != 0 || (l.extVa == 0 && (l.flushN != 0 || l.type == 4)) then none
  else if l.extVa = 0 || (!l.hasTroops && l.flushN == 0) then some 0
  else some (64 + 16 * l.flushN)

/-- The extension is well formed (R292, R294, R333). -/
def Launch.extOk (l : Launch) : Bool :=
  let w := l.extWord
  l.ext == [] || (([0, 8, 16, 24].all fun o => w o % 64 == 0) &&
    (if l.type = 4 then
      decide (w 0x20 < 2 ^ 56) && w 0x20 % 64 == 0 && decide (w 0x28 < 2 ^ 32) && w 0x28 / 16 % 4096 == 0 &&
        w 0x28 / 65536 != 0 && decide (w 0x30 < 2 ^ 56) && w 0x30 % 64 == 0 && w 0x38 == 0
    else [0x20, 0x28, 0x30, 0x38].all fun o => w o == 0) &&
    (l.hasTroops || [0, 8, 16, 24].all fun o => w o == 0) &&
    l.flushes.all fun f => decide (f.1 < 2 ^ 56) && f.1 % 64 == 0 && f.2.1 != 0) &&
  (l.ext == [] || (List.range l.flushN).all fun k => decide (w (72 + 16 * k) < 2 ^ 33))

/-! ### The packet processor's accesses (R456) -/

/-- The request of a packet's agent. -/
def State.agentRail (s : State) (l : Launch) (kind : AccessKind) (va id : Nat) : RailEnt :=
  let core := 8 * (((s.pad? l.pad).map (·.clusters)).getD []).headD 0
  { id := id, die := dieOf core, core := core, pad := l.pad, secure := l.kind == 2, super := l.kind == 1, va := va / 64 * 64
    kind := kind, who := .agent l.id, sid := 0, tid := 0, depth := 0, fid := 0, shared := false }

/-- An agent access waits at the rail, has been refused there, or is made. `absent` is not among the answers: it hitches. -/
def State.agentTry (s : State) (l : Launch) (kind : AccessKind) (go : State → State × AgentRes) : State × Option AgentRes :=
  if s.cellRailed (.agent l.id) then (s, none)
  else
    match s.refusals.find? (·.1 == .agent l.id) with
    | some r => ({ s with refusals := s.refusals.erase r }, some (.refused r.2))
    | none =>
      match go s with
      | (s, .absent va lvl) =>
        let (id, s) := s.fresh
        (s.hitch (s.agentRail l kind va id) lvl, none)
      | (s, r) => (s, some r)

def State.agentGet (s : State) (l : Launch) (va n : Nat) : State × Option AgentRes :=
  s.agentTry l .read fun s => s.agentLoad l.pad (l.kind == 2) (l.kind == 1) va n

def State.agentPut (s : State) (l : Launch) (va x : Nat) : State × Option AgentRes :=
  s.agentTry l .write fun s => s.agentStore l.pad (l.kind == 2) (l.kind == 1) va (bytesOf 8 x)

/-- A write of the device's agents is dropped (R440, R456). -/
def State.agentDrop (s : State) (pad : Nat) : State := s.countErr pad fun e => { e with agentDrops := inc32 e.agentDrops }

/-- The physical spans of a flush entry's pages that translate for an agent; the others are skipped. -/
def State.agentSpans (s : State) (l : Launch) (base n : Nat) : State × List (Nat × Nat) :=
  (List.range (n * 64 / 65536 + 2)).foldl (fun (s, ps) i =>
    let lo := max base ((base / 65536 + i) * 65536)
    let hi := min (base + 64 * n) ((base / 65536 + i + 1) * 65536)
    if hi ≤ lo then (s, ps)
    else
      match s.translate none l.pad (l.kind == 2) (l.kind == 1) .prefetch lo with
      | (s, .ok pa _ _) => (s, ps ++ [(pa / 64, (hi - lo) / 64)])
      | (s, _) => (s, ps)) (s, [])

/-! ### Stages 1 to 4 (R293) -/

def State.queue? (s : State) (pad qid : Nat) : Option Queue := s.queues.find? fun q => q.pad == pad && q.qid == qid

/-- The packets of a queue, in order. -/
def State.queued (s : State) (pad qid : Nat) : List Launch := s.launches.filter fun l => l.pad == pad && l.qid == qid

/-- The earlier packets of a packet's queue that have not completed. -/
def State.before (s : State) (l : Launch) : List Launch := (s.queued l.pad l.qid).filter fun m => decide (m.id < l.id)

/-- Every troop of the packet has been dispatched. -/
def Launch.dispatched (l : Launch) : Bool := decide (6 ≤ l.stage) || (l.stage == 5 && (!l.hasTroops || l.started == l.total))

/-- The queue's read index is written (R289), for a packet that is taken. -/
def State.writeIndex (s : State) (l : Launch) (q : Option Queue) : State × Bool :=
  match q with
  | none => (s, true)
  | some q =>
    match s.agentPut l q.rdPtr (q.rd + 1) with
    | (s, none) => (s, false)
    | (s, some r) =>
      let s := { s with queues := updFirst (fun x => x.pad == q.pad && x.qid == q.qid) (fun x => { x with rd := x.rd + 1 }) s.queues }
      (match r with | .refused _ => s.agentDrop l.pad | _ => s, true)

/-- Stage 3: the copies that ACQ at ACQLVL invalidates, on every core, and the invalidate entries (R293). -/
def State.packetAcquire (s : State) (p : Paddock) (l : Launch) : State :=
  let s := (s.padCores p).foldl (fun s c => s.acquire c l.acqLvl fun _ => true) s
  l.flushes.foldl (fun s f =>
    if f.2.2 then s
    else
      let (s, ps) := s.agentSpans l f.1 f.2.1
      { s with
        l1 := s.l1.filter fun c => c.auth || !(p.clusters.contains (clusterOf c.place) && inSpans ps c.line)
        l2 := s.l2.filter fun c => c.auth || !((p.clusters.map (· / 8)).contains c.place && inSpans ps c.line) }) s

/-- The packet is rejected; its index is written in its turn (R293). -/
def State.rejectPacket (s : State) (l : Launch) (reason : Nat) : State :=
  s.updLaunch l.id fun l => { l with stage := 4, reason := reason }

/-- The packet that starts on the next index of a queue, when there is one and every earlier packet has been dispatched. -/
def State.startPacket (s : State) (p : Paddock) (q : Queue) : State :=
  if q.door ≤ q.rd || !(s.queued p.n q.qid).all (·.dispatched) then s
  else
    let (id, s) := s.fresh
    let l : Launch := { id := id, pad := p.n, qid := q.qid, kind := q.kind, words := [], ext := [], stage := 1, reason := 0
                        cause := none, cancelled := false, started := 0, live := 0, job := none, retagged := false
                        cores := [], rounds := [] }
    { s with launches := s.launches ++ [l] }

/-- Words of 32 bits from bytes. -/
def wordsOfBytes (n : Nat) (bs : List Byte) : List Word := (chunks 4 n bs).map fun c => BitVec.ofNat 32 (natOfBytes c)

/-- A packet that has not been taken takes its next step. -/
def State.stepPacket (s : State) (p : Paddock) (q : Option Queue) (l : Launch) : State :=
  match l.stage with
  | 0 => if (s.before l).all (·.dispatched) then s.updLaunch l.id fun l => { l with stage := 1 } else s
  | 1 =>
    if l.words = [] then
      match q with
      | none => s
      | some q =>
        match s.agentGet l (q.base + 64 * (q.rd % 2 ^ q.logn)) 64 with
        | (s, some (.ok bs)) => s.updLaunch l.id fun l => { l with words := wordsOfBytes 16 bs }
        | (s, some _) => s.updLaunch l.id fun l => { l with words := List.replicate 16 0, stage := 4, reason := 0x0E }
        | (s, none) => s
    else if l.barrier && !(s.before l).isEmpty then s
    else s.updLaunch l.id fun l => { l with stage := 2 }
  | 2 =>
    let r := s.admitReason p l (match q with | some q => q.prioMax | none => 3)
    if r != 0 then s.rejectPacket l r
    else
      match l.extBytes with
      | none => s.rejectPacket l 0x0E
      | some n =>
        let next := fun (s : State) (l : Launch) =>
          if l.extOk then s.updLaunch l.id fun x => { x with ext := l.ext, stage := 3 } else s.rejectPacket l 0x0E
        if n = 0 || q.isNone then next s l
        else
          match s.agentGet l (addr56 l.extVa).toNat n with
          | (s, some (.ok bs)) => next s { l with ext := bs }
          | (s, some _) => s.rejectPacket l 0x0E
          | (s, none) => s
  | 3 => (s.packetAcquire p l).updLaunch l.id fun l => { l with stage := 4 }
  | _ =>
    match s.writeIndex l q with
    | (s, true) => s.updLaunch l.id fun l => { l with stage := if l.reason = 0 then 5 else 7 }
    | (s, false) => s

/-- PACKET_ADMIT (R293, R296): the packet processor goes on with the packet of a queue that has not been taken, or starts on the
next one. -/
def execPacketAdmit (pad q : Nat) (s : State) : Out :=
  match s.pad? pad with
  | none => .next s
  | some p =>
    if p.st != .running && p.st != .draining then .next s
    else
      match (s.queued pad q).find? fun l => decide (l.stage ≤ 4) with
      | some l => .next (s.stepPacket p (s.queue? pad q) l)
      | none => match s.queue? pad q with
        | some q => .next (s.startPacket p q)
        | none => .next s

/-- The packet processor of a launch works in these states of its paddock (R303, R304). -/
def State.processes (s : State) (l : Launch) (sts : List PadSt) : Bool :=
  match s.pad? l.pad with
  | some p => sts.contains p.st
  | none => false

/-- BARRIER_AND_SATISFIED (R294): bit 63 of every signal is 1; a refused read completes the packet with a fault (R456).
DESIGN CHOICE (log entry 61): the low 3 bits and bits [63:56] of their addresses are dropped. -/
def execBarrierAndSatisfied (launch : Nat) (s : State) : Out :=
  match s.launch? launch with
  | none => .next s
  | some l =>
    if l.type != 2 || l.stage != 5 || l.started != 0 || !s.processes l [.running, .draining] then .next s
    else
      let addrs := (List.range (l.bits 1 2 0)).map fun i => (addr56 (l.dword (2 + 2 * i))).toNat / 8 * 8
      let (s, res) := addrs.foldl (fun (s, r) a => match r with
        | some (Except.ok true) => match s.agentGet l a 8 with
          | (s, some (.ok bs)) => (s, some (.ok ((natOfBytes bs).testBit 63)))
          | (s, some (.refused c)) => (s, some (.error c))
          | (s, _) => (s, none)
        | r => (s, r)) (s, some (Except.ok (ε := Cause) true))
      match res with
      | some (.ok true) => .next (s.updLaunch launch fun l => { l with started := 1 })
      | some (.error c) => .next (s.updLaunch launch fun l => { l with started := 1, cause := some c })
      | _ => .next s

/-! ### Dispatch (R297) -/

/-- The troops that are resident on a core. -/
def State.resident (s : State) (core : Nat) : List Troop := s.troops.filter fun t => t.core == core && !t.ended

/-- The strings and rows on the slices of a core. -/
def State.slicesOf (s : State) (core : Nat) : Slices :=
  (s.resident core).foldl (fun occ t => (s.strsOf t.tid).foldl (fun occ z => sliceAdd occ z.slice (z.budget + t.bagRows)) occ)
    emptySlices

/-- The limits of a core, but for its slices, hold with `n` more troops of the launch (R297, R371). -/
def State.limitsHold (s : State) (l : Launch) (core n : Nat) : Bool :=
  let ts := s.resident core
  ts.all (fun t => t.pad == l.pad && t.secure == l.world) && decide (ts.length + n ≤ 32) &&
    decide (sum (ts.map (·.scratchSize)) + n * (16384 * l.scr) ≤ 327680) && decide (sum (ts.map (·.stq)) + n * l.stq ≤ 256) &&
    decide (sum (ts.map fun t => 64 * t.nstr + t.bufQ + 64) + n * l.reserve ≤ 4096) && !s.scanning.contains core

/-- A troop of the launch may be started on a core from base slice `b`: its slices. -/
def State.fits (s : State) (l : Launch) (core b : Nat) : Option (List Nat) :=
  if s.limitsHold l core 1 then (l.layout (s.slicesOf core) b).map (·.1) else none

/-- The base slices with which a core takes as many troops of a launch as it can. -/
def State.coreBases (s : State) (l : Launch) (core : Nat) : List Nat :=
  l.mostFrom (s.slicesOf core) ((List.range 32).countP fun n => s.limitsHold l core (n + 1))

/-- The lowest number that a list does not hold. -/
def freeOf (used : List Nat) (n : Nat) : Nat := ((List.range n).find? fun i => !used.contains i).getD 0

/-- A spill area of the launch extension for an index (R292). -/
def Launch.area (l : Launch) (off i : Nat) : Area :=
  let base := l.extWord off
  let size := l.extWord (off + 8)
  let size := if base = 0 then 0 else size
  { base := if size = 0 then 0 else base + i * size, size := size, used := 0 }

/-- STRCTL at the start of a string (R31, R291). -/
def Launch.strctl (l : Launch) : Word :=
  let k := l.bits 14 11 8
  BitVec.ofNat 32 (32 * l.bits 14 21 21 + 16 * l.bits 14 20 20 + (if k = 0 then 11 else k))

/-- A string as it starts (R11). -/
def Launch.newStr (l : Launch) (p : Paddock) (sid tid i core slice slot : Nat) : Str :=
  { sid := sid, tid := tid, idx := i, core := core, slice := slice, slot := slot, budget := l.budget i
    lanes := List.replicate 32 { pc := l.code }, s := Cells.set 0 [] 0 (l.dword 8), strctl := l.strctl, trapBase := p.trapBase }

/-- A troop as it starts; `copy` is 0 for a primary, 1 for an outrider and 2 for a tie-breaking run. -/
def Launch.newTroop (l : Launch) (tid linear core slot copy : Nat) (outr : Option Outr) : Troop :=
  { tid := tid, launch := l.id, pad := l.pad, secure := l.world, super := l.kind == 1, linear := linear, core := core, slot := slot
    nstr := l.nstr, prod := l.pstr, joint := l.joint, prio := if copy = 2 then 3 else l.prio
    lease := if l.bits 14 19 12 = 0 then 64 else l.bits 14 19 12, finLvl := (Level.ofCode l.finLvl).getD .dev
    scratchSize := 16384 * l.scr, bufQ := l.tbuf, stq := l.stq, bagRows := l.saddle
    stSpill := l.area 0 (linear + copy * l.total), rcSpill := l.area 16 (linear + copy * l.total), outr := outr }

/-- The strings of a troop are placed on their slices, each in the lowest free slot. -/
def State.addStrs (s : State) (p : Paddock) (l : Launch) (tid core : Nat) : List Nat → Nat → State
  | [], _ => s
  | x :: xs, i =>
    let (sid, s) := s.fresh
    let used := (s.strs.filter fun z => z.core == core && z.slice == x).map (·.slot)
    let s := { s with strs := s.strs ++ [l.newStr p sid tid i core x (freeOf used 16)] }
    State.addStrs s p l tid core xs (i + 1)

/-- A core's L1 and manger are emptied (R371): what the L1 alone holds goes to the next level first. -/
def State.scrubCore (s : State) (core : Nat) : State :=
  let s := (s.l1.filter fun c => c.auth && c.place == core).foldl (fun s c => s.spillL1 c.line) s
  let s := (s.partials.filter fun x => x.core == core && !x.slot).foldl (fun s x =>
    match s.ranges.find? fun r => r.pad == x.pad && r.slot == x.range with
    | some r => s.evictPartial r core x.line
    | none => s) s
  { s with l1 := s.l1.filter (·.place != core), mangers := s.mangers.filter (·.core != core) }

/-- A core that crosses a world or a paddock is scrubbed (R371): registers, buffers and accumulators start fresh with the troop,
the L1 and the manger are emptied. -/
def State.scrub (s : State) (pad : Nat) (secure : Bool) (core : Nat) : State :=
  let last := s.lastHeld.find? (·.1 == core)
  let dirty := match last with
    | some (_, p, sec) => p != pad || (sec && !secure)
    | none => false
  let s := { s with lastHeld := (core, pad, secure) :: s.lastHeld.filter (·.1 != core) }
  if dirty then s.scrubCore core else s

/-- A troop starts on a core; its scratchpad takes the room of L1 lines (R194). -/
def State.startTroop (s : State) (p : Paddock) (l : Launch) (linear core b copy : Nat) (outr : Option Outr) :
    Option (Nat × State) :=
  match s.fits l core b with
  | none => none
  | some xs =>
    let s := if (s.resident core).isEmpty then s.scrub l.pad l.world core else s
    let (tid, s) := s.fresh
    let t := l.newTroop tid linear core (freeOf ((s.resident core).map (·.slot)) 32) copy outr
    some (tid, ({ s with troops := s.troops ++ [t] }.addStrs p l tid core xs 0).trimL1 core)

/-- The troops that start together (R25, R27). -/
def Launch.batch (l : Launch) : Nat := if l.coresident then l.total else l.unit

/-- The launch that the dispatcher serves: the highest PRIO first, and queues in turn (R297). -/
def State.served (s : State) (p : Paddock) : Option Launch :=
  let waits := s.launches.filter fun l => l.pad == p.n && l.stage == 5 && l.hasTroops && decide (l.started < l.total) &&
    !s.cellRailed (.agent l.id)
  let best := fun (a b : Launch) =>
    let ka := (l3 a, (a.qid + 130 - p.turn - 1) % 65)
    let kb := (l3 b, (b.qid + 130 - p.turn - 1) % 65)
    if kb.1 < ka.1 || (kb.1 == ka.1 && decide (kb.2 < ka.2)) then b else a
  match waits with
  | [] => none
  | l :: ls => some (ls.foldl best l)
where l3 (l : Launch) : Nat := 3 - l.prio

/-- The cores of one group lie in one cluster. -/
def oneCluster (cores : List Nat) : Bool := ((cores.map clusterOf).dedup).length ≤ 1

/-- The places of primaries and outriders keep to R25 and R433: a group on one cluster, its outriders on another. -/
def placesOk (unit : Nat) (prim outr : List Nat) : Bool :=
  let n := prim.length / unit
  (chunks unit n prim).all oneCluster && (chunks unit n outr).all oneCluster &&
    (outr.isEmpty || (prim.zip outr).all fun x => clusterOf x.1 != clusterOf x.2)

/-- Troops start one after the other; one that does not fit stops them all. -/
def State.startAll (s : State) (p : Paddock) (l : Launch) (copy first : Nat) : List (Nat × Nat) → Option (List Nat × State)
  | [] => some ([], s)
  | (core, b) :: rest =>
    let role : Option Outr := if l.outrider then
        some { role := if copy = 0 then .primary else .outrider, mate := 0 }
      else none
    match s.startTroop p l first core b copy role with
    | none => none
    | some (tid, s) =>
      match State.startAll s p l copy (first + 1) rest with
      | some (tids, s) => some (tid :: tids, s)
      | none => none

/-- A core's scan test is over: it is scrubbed and returns (R371, R444). -/
def State.endScan (s : State) (core : Nat) : State :=
  let s := s.scrubCore core
  { s with scanning := s.scanning.filter (· != core) }

/-- The scan tests of some cores abort: the cores are scrubbed and return (R444). -/
def State.abortScans (s : State) (cores : List Nat) : State :=
  (s.scanning.filter cores.contains).foldl (fun s c => s.endScan c) s

/-- A packet of PRIO 3 that waits for placement aborts the scan tests of its paddock (R444). -/
def State.yieldScans (s : State) : State :=
  if s.scanning.isEmpty then s
  else s.pads.foldl (fun s p => match s.served p with
    | some l => if l.prio = 3 && l.stage == 5 && l.hasTroops && Nat.blt l.started l.total then s.abortScans (s.padCores p) else s
    | none => s) s

/-- TROOP_DISPATCH (R297): the next troops of a launch that start together, primaries first and then their outriders, each with its
core and its base slice. -/
def execTroopDispatch (launch : Nat) (places : List (Nat × Nat)) (s : State) : Out :=
  match s.launch? launch with
  | none => .next s
  | some l =>
    match s.pad? l.pad with
    | none => .next s
    | some p =>
      let s := if l.prio = 3 && l.stage == 5 && l.hasTroops then s.abortScans (s.padCores p) else s
      let prim := places.take l.batch
      let outr := places.drop l.batch
      let first := if l.type = 4 && l.started = 0 then prim.head?.map (·.1) == l.cores.head? && l.job.isSome else true
      if p.st == .running && (s.served p).map (·.id) == some l.id && prim.length == l.batch &&
          outr.length == (if l.outrider then l.batch else 0) && places.all (fun x => (s.padCores p).contains x.1) &&
          placesOk l.unit (prim.map (·.1)) (outr.map (·.1)) && first then
        match s.startAll p l 0 l.started prim with
        | none => .next s
        | some (as, s1) =>
          match s1.startAll p l 1 l.started outr with
          | none => .next s
          | some (bs, s2) =>
            let mate := fun (s : State) (x : Nat × Nat) =>
              (s.updTroop x.1 fun t => { t with outr := t.outr.map fun o => { o with mate := x.2 } }).updTroop x.2 fun t =>
                { t with outr := t.outr.map fun o => { o with mate := x.1 } }
            let s2 := (as.zip bs).foldl mate s2
            let s2 := s2.updLaunch l.id fun l =>
              { l with started := l.started + prim.length, live := l.live + places.length
                       cores := (l.cores ++ places.map (·.1)).dedup }
            .next (if l.started + prim.length = l.total then s2.updPad p.n fun p => { p with turn := l.qid } else s2)
      else .next s

/-! ### Retirement (R38, R39) -/

/-- A result of the string is pending. -/
def State.resultPending (s : State) (sid : Nat) : Bool :=
  s.accs.any (fun a => a.sid == sid && a.kind.reads) || s.matOps.any (fun o => o.sid == sid && !o.regs.isEmpty) ||
    s.pendJ.any (·.sid == sid)

/-- The retirement commit carries the lines that the troop buffer has no room for to the final commit level (R219). -/
def State.carryLeft (s : State) (z : Str) (t : Troop) (cs : List Carried) : State :=
  let lvl := t.demote t.finLvl
  if lvl.buffered then s.carryInto z.sid t (bufSpace z.sid t lvl) lvl cs else s.sendCarried t z.sid 0 0 lvl false cs

/-- The string commits its string buffer to troop level (R38). Bytes of an open commutative range are not carried; no instruction
is left to take RANGE_STORE, and the string is lost with it (R228, R390). -/
def State.retireBuffer (s : State) (z : Str) (t : Troop) : Option State :=
  if (s.commitBytes z.sid t .trp).any fun c => (s.inOpenRange t c.va 64).isSome then none
  else
    let (s, left) := s.retireCommit z t
    some (s.carryLeft z t left)

/-- STRING_RETIRE (R38); no string retires inside a recovery block (R415). MMAJs that waited for it cannot be joined (R144). -/
def execStringRetire (sid : Nat) (s : State) : Out :=
  match s.str? sid with
  | none => .next s
  | some z =>
    match s.troopOf z with
    | none => .next s
    | some t =>
      if s.haltedCore t.core || z.retired || t.depth != 0 || !z.lanes.all (·.exited) || s.resultPending sid ||
          s.storesPending sid s.nextId then .next s
      else
        match s.retireBuffer z t with
        | none => .next (s.secondError z)
        | some s =>
          let s := (s.updStr sid fun z => { z with retired := true, held := [] }).failRetiredJoint t (z.idx / 4)
          .next ((s.checkRetired t).advance t.tid)

/-- A troop with nothing left to run leaves its tandem and begins its final commit, or, one of a redundant pair, waits for the
comparison (R431, R435, R436). -/
def State.retireTroop (s : State) (t : Troop) : State :=
  let s := s.leaveTandem t
  match s.troop? t.tid with
  | none => s
  | some t =>
    match t.outr with
    | none => s.startLift t.tid 0 true
    | some o =>
      match o.decided with
      | some true => (s.passEscape t.tid).startLift t.tid 0 true
      | some false => (s.passEscape t.tid).finishTroop t
      | none => s.parkEscape t.tid 0 (s.escLines t true)

/-- The troop has an entry at the rail, or a request that its core holds for one. -/
def State.troopRailed (s : State) (tid : Nat) : Bool := s.rail.any (·.tid == tid) || s.heldReqs.any (·.ent.tid == tid)

/-- TROOP_RETIRE (R39): every string has retired, every engine counter is zero, no write to its recovery spill area is left on its
way, and it has no hitched entry (R367, R422). -/
def execTroopRetire (tid : Nat) (s : State) : Out :=
  match s.troop? tid with
  | none => .next s
  | some t =>
    if s.haltedCore t.core || t.st != .running || !(s.strsOf tid).all (·.retired) || !t.rcPending.isEmpty || s.troopRailed tid ||
        s.engs.any fun e => (s.strsOf tid).any (·.sid == e.sid) then .next s
    else .next (s.retireTroop t)

/-! ### Release and signal (R293, R295) -/

/-- The job of a launch. -/
def State.jobOf (s : State) (l : Launch) : Option Job := s.jobs.find? (·.launch == l.id)

/-- Stage 5 is done: every troop has retired, the job has terminated, the signals are in (R293, R294, R334). -/
def State.stage5Done (s : State) (l : Launch) : Bool :=
  match l.type with
  | 2 => l.started == 1
  | 3 => true
  | _ => l.started == l.total && l.live == 0 && (match s.jobOf l with | some j => j.terminated | none => l.type != 4)

/-- The shadow lines that the launch's troops still own, as carried bytes with a core of their cluster (R293). -/
def State.ownedShadow (s : State) (l : Launch) : List (Nat × Carried) :=
  let mine := fun (c : Committer) => match c with
    | .trp tid => (match s.troop? tid with | some t => t.launch == l.id | none => false)
    | _ => false
  s.lines.filterMap fun b => match b.space with
    | .clu c =>
      let (m, d) := packLine ((lineBytes b.mask b.data).filter fun (i, _) => b.comm.any fun (j, w) => j == i && mine w)
      if m = 0 || b.epoch != 0 || b.held then none
      else some ((l.cores.find? fun k => clusterOf k == c).getD (8 * c),
        { line := b.line, va := b.va, mask := m, data := d, req := b.req, pol := b.pol, part := b.part })
    | _ => none

/-- The carried bytes leave for their homes from a core of their cluster, and their shadow bytes go. -/
def State.carryShadow (s : State) (l : Launch) (lvl : Level) (core : Nat) (c : Carried) : State :=
  let cut := fun (b : BufLine) =>
    if b.space == .clu (clusterOf core) && b.line == c.line && b.epoch == 0 && !b.held then b.drop (maskBytes c.mask) else b
  ({ s with lines := s.lines.map cut }.prune).sendHome
    { wid := 0, core := core, rnd := 0, sid := 0, line := c.line, mask := c.mask, data := c.data, lvl := lvl, atL2 := false
      lanes := [], op := 0, pc := 0, depth := 0, pol := c.pol, part := c.part, pad := l.pad, trap := false }

/-- The first part of stage 6: the shadow lines leave, and the rounds of the launch's cores close. -/
def State.releaseLines (s : State) (l : Launch) : State :=
  let own := s.ownedShadow l
  if own.isEmpty && l.relLvl.code < 3 then s.updLaunch l.id fun l => { l with retagged := true, rounds := [] }
  else if !l.cores.all s.mayClose then s
  else
    let lvl := l.relLvl.max .die
    let s := own.foldl (fun s x => s.carryShadow l lvl x.1 x.2) s
    let rounds := l.cores.map fun c => (c, (s.openRound c).rnd)
    (l.cores.foldl (fun s c => s.closeRound c) s).updLaunch l.id fun l => { l with retagged := true, rounds := rounds }

/-- Every write that is on its way to the lines of the flush entries has been performed (R293). -/
def State.flushed (s : State) (l : Launch) : State × Bool :=
  l.flushes.foldl (fun (s, ok) f =>
    if !f.2.2 || !ok then (s, ok)
    else
      let (s, ps) := s.agentSpans l f.1 f.2.1
      (s, s.writes.all fun w => !inSpans ps w.line)) (s, true)

/-- PACKET_RELEASE (R293): stage 6, in the order of the queue. A drain stops packets at stage 5 (R303), a cut stops every stage
(R304). -/
def execPacketRelease (launch : Nat) (s : State) : Out :=
  match s.launch? launch with
  | none => .next s
  | some l =>
    match l.stage with
    | 5 =>
      if s.processes l [.running] && s.stage5Done l && (s.before l).all (fun m => decide (6 ≤ m.stage)) then
        .next ((s.updLaunch launch fun l => { l with stage := 6 }).releaseLines { l with stage := 6 })
      else .next s
    | 6 =>
      if !s.processes l [.running, .draining] then .next s
      else if !l.retagged then .next (s.releaseLines l)
      else if !l.rounds.all fun r => s.roundsDone r.1 r.2 (l.relLvl.max .die) then .next s
      else
        match s.flushed l with
        | (s, true) => .next (s.updLaunch launch fun l => { l with stage := 7 })
        | (s, false) => .next s
    | _ => .next s

/-- The value of the completion signal (R295, R334). -/
def State.signalValue (s : State) (l : Launch) : Nat :=
  let job := s.jobOf l
  let status := if l.cancelled then 4
    else match job with
      | some j => if j.faulted then 3 else if j.cancelled then 4 else if l.cause.isSome then 3 else 0
      | none => if l.reason != 0 || l.cause.isSome then 3 else 0
  let cause := if l.cancelled then 0 else if l.reason != 0 then Cause.launchRejected.code
    else match l.cause with | some c => c.code | none => 0
  2 ^ 63 + cause * 2 ^ 48 + (if l.cancelled then 0 else l.reason) * 2 ^ 40 + l.pktid * 2 ^ 16 + status

/-- A request for a ring of a job (R343). -/
def State.ringAsk (s : State) (j : Job) (w : ReqWho) : Bool :=
  match w with
  | .task core slot _ => slot == j.slot && (match s.pad? j.pad with | some p => p.clusters.contains (clusterOf core) | none => false)
  | _ => false

/-- The rings of a job go, and what is asked of them. -/
def State.dropRings (s : State) (j : Job) : State :=
  { s with
    rings := s.rings.filter fun r => !(r.pad == j.pad && r.job == j.id)
    rail := s.rail.filter fun e => !s.ringAsk j e.who
    heldReqs := s.heldReqs.filter fun h => !s.ringAsk j h.ent.who
    refusals := s.refusals.filter fun r => !s.ringAsk j r.1 }.grant

/-- The packet is complete: its record, its troops' records, its barriers and its job go, and what waited on the job learns its
end. -/
def State.endLaunch (s : State) (l : Launch) : State :=
  let s := match s.jobOf l with | some j => s.dropRings j | none => s
  { s with
    launches := s.launches.filter (·.id != l.id), troops := s.troops.filter (·.launch != l.id)
    jobs := s.jobs.filter (·.launch != l.id)
    bars := s.bars.filter fun b => match b.key with | .clu i _ _ | .grid i _ => i != l.id | _ => true }

/-- COMPLETION_SIGNAL_WRITE (R295): stage 7, in the order of the queue. -/
def execCompletionSignalWrite (launch : Nat) (s : State) : Out :=
  match s.launch? launch with
  | none => .next s
  | some l =>
    if l.stage != 7 || !s.processes l [.running, .draining, .reset] || !(s.before l).all (fun m => decide (7 ≤ m.stage)) then .next s
    else if l.dword 10 = 0 then .next (s.endLaunch l)
    else
      match s.agentPut l l.signal (s.signalValue l) with
      | (s, none) => .next s
      | (s, some (.refused _)) => .next ((s.agentDrop l.pad).endLaunch l)
      | (s, some _) => .next (s.endLaunch l)

end Sys2Proof.Machine
end

