-- ==== Sys2Proof/Machine/Outrider.lean ====
section
/-! DEFINITION. Outriders: the comparison of a redundant pair at an escaping commit, the tie-breaking run, and what it decides
(R433, R435, R436, R437). -/

namespace Sys2Proof.Machine

/-- The primary and the outrider of a pair, from either of them or from their tie-breaking run. -/
def State.pair (s : State) (tid : Nat) : Option (Troop × Troop × Outr × Outr) :=
  match s.troop? tid with
  | none => none
  | some t =>
    match t.outr with
    | none => none
    | some o =>
      let p? := match o.role with
        | .primary => some t
        | _ => s.troop? o.mate
      match p? with
      | none => none
      | some p =>
        match p.outr with
        | none => none
        | some po =>
          match s.troop? po.mate with
          | none => none
          | some q => match q.outr with
            | some qo => some (p, q, po, qo)
            | none => none

/-- A copy that has been decided goes on: a final commit retires it, an ACCEPT completes (R436). -/
def State.afterDecision (s : State) (tid kind : Nat) : State :=
  match s.troop? tid with
  | none => s
  | some t => if kind = 0 then s.retireTroop t else s.advance tid

/-- The lines of one copy, the winner, are committed, and those of the other are discarded. -/
def State.compared (s : State) (winner loser : Troop) (kw kl : Nat) : State :=
  let put := fun (s : State) (tid : Nat) (b : Bool) =>
    s.updTroop tid fun t => { t with outr := t.outr.map fun o => { o with decided := some b, tie := none } }
  let s := put (put s winner.tid true) loser.tid false
  (s.afterDecision winner.tid kw).afterDecision loser.tid kl

/-- DATA_UNRESOLVED (R436): both copies end, or the ACCEPT fails in both. -/
def State.unresolved (s : State) (p q : Troop) (kp kq : Nat) : State :=
  let s := s.countErr p.pad fun e => { e with outrUnresolved := inc32 e.outrUnresolved }
  if kp = 0 || kq = 0 then s.endTroop p.tid .dataUnresolved
  else (s.fail p.tid 1 3 Cause.dataUnresolved.code).fail q.tid 1 3 Cause.dataUnresolved.code

/-- The places of a tie-breaking run: a cluster other than the outrider's, and other than the primary's where there is one. -/
def State.tiePlaces (s : State) (pad : Paddock) (p q : Troop) : List (Nat × Nat) :=
  let away := pad.clusters.filter (· != clusterOf q.core)
  let third := away.filter (· != clusterOf p.core)
  ((if third = [] then away else third).flatMap s.clusterCores).flatMap fun c => (List.range 12).map fun b => (c, b)

/-- A tie-breaking run starts, where one fits. -/
def State.startTie (s : State) (l : Launch) (pad : Paddock) (p q : Troop) : State :=
  let o : Outr := { role := .tieBreak, mate := p.tid }
  match (s.tiePlaces pad p q).findSome? fun x => s.startTroop pad l p.linear x.1 x.2 2 (some o) with
  | none => s
  | some (tid, s) =>
    let put := fun (s : State) (i : Nat) => s.updTroop i fun t => { t with outr := t.outr.map fun o => { o with tie := some tid } }
    (put (put s p.tid) q.tid).countErr p.pad fun e => { e with outrMismatch := inc32 e.outrMismatch }

/-- OUTRIDER_COMPARE (R436): both copies of a pair wait at their escaping commits; equal signatures commit the primary's lines,
unequal ones start a tie-breaking run, but not in a cut, which starts no troop (R304); where a copy's alternate has failed it is
rolled back and nothing is compared. DESIGN CHOICE (log entry 152): during a drain such a run may start, since it belongs to troops that
have started; R303 bars troops of waiting launches and task records. -/
def execOutriderCompare (tid : Nat) (s : State) : Out :=
  match s.pair tid with
  | none => .next s
  | some (p, q, po, qo) =>
    match po.waiting, qo.waiting with
    | some (kp, x), some (kq, y) =>
      if p.unwinding || q.unwinding || po.decided.isSome || po.tie.isSome then .next s
      else if kp = kq && x == y then .next (s.compared p q kp kq)
      else
        match s.launchOf p, s.pad? p.pad with
        | some l, some pad => .next (if pad.st == .cutting then s else s.startTie l pad p q)
        | _, _ => .next s
    | _, _ => .next s

/-- TIE_BREAK_DECIDE (R436): the tie-breaking run has reached the commit, or has ended. -/
def execTieBreakDecide (tid : Nat) (s : State) : Out :=
  match s.pair tid with
  | none => .next s
  | some (p, q, po, qo) =>
    match po.tie.bind s.troop?, po.waiting, qo.waiting with
    | some x, some (kp, a), some (kq, b) =>
      if p.unwinding || q.unwinding then .next s
      else match x.outr.bind (·.waiting), x.ended with
      | some (k, c), false =>
        let s := s.dropTie p
        if k = kp && c == a then .next (s.compared p q kp kq)
        else if k = kq && c == b then .next (s.compared q p kq kp)
        else .next (s.unresolved p q kp kq)
      | none, false => .next s
      | _, true => .next ((s.dropTie p).unresolved p q kp kq)
    | _, _, _ => .next s

end Sys2Proof.Machine
end

