-- ==== Sys2Proof/Machine/Tasks.lean ====
section
/-! DEFINITION. Range tasks: records and jobs (R332 to R334), termination (R335, R336), the manger and its rings (R337 to R339),
stealing (R340), cancellation (R341), and the task instructions (R342 to R347). -/

namespace Sys2Proof.Machine

/-! ### Records (R332) -/

/-- The record of eight words, or none when it is malformed. -/
def taskOf (w : Nat → Dword) : Option TaskRec :=
  let n := fun i => (w i).toNat
  if 2 ^ 32 ≤ n 0 || n 0 % 4 != 0 || 2 ^ 17 ≤ n 1 || n 3 < n 2 || n 4 = 0 then none
  else some { codeOff := n 0, noSplit := (n 1).testBit 16, job := n 1 % 2 ^ 16, lo := n 2, hi := n 3, grain := n 4
              args := [w 5, w 6, w 7] }

def TaskRec.words (r : TaskRec) : List Dword :=
  [BitVec.ofNat 64 r.codeOff, BitVec.ofNat 64 (r.job + if r.noSplit then 2 ^ 16 else 0), BitVec.ofNat 64 r.lo,
    BitVec.ofNat 64 r.hi, BitVec.ofNat 64 r.grain] ++ r.args

def TaskRec.bytes (r : TaskRec) : List Byte := r.words.flatMap fun w => bytesOf 8 w.toNat

/-- The record of 64 bytes. -/
def taskOfBytes (bs : List Byte) : Option TaskRec :=
  taskOf fun i => BitVec.ofNat 64 (natOfBytes ((bs.drop (8 * i)).take 8))

/-! ### Mangers, rings and jobs -/

/-- The paddock that owns a core. -/
def State.padOf (s : State) (core : Nat) : Option Paddock := s.pads.find? fun p => p.clusters.contains (clusterOf core)

def State.manger (s : State) (core : Nat) : Manger :=
  (s.mangers.find? (·.core == core)).getD { core := core, recs := [], turn := 0 }

def State.putManger (s : State) (m : Manger) : State := { s with mangers := m :: s.mangers.filter (·.core != m.core) }

def State.ring (s : State) (core pad job : Nat) : Ring :=
  (s.rings.find? fun r => r.core == core && r.pad == pad && r.job == job).getD
    { core := core, pad := pad, job := job, head := 0, tail := 0 }

def State.putRing (s : State) (r : Ring) : State :=
  { s with rings := r :: s.rings.filter fun x => !(x.core == r.core && x.pad == r.pad && x.job == r.job) }

/-- An active job of a paddock. -/
def State.job? (s : State) (pad id : Nat) : Option Job := s.jobs.find? fun j => j.pad == pad && j.id == id

def State.updJob (s : State) (j : Job) (f : Job → Job) : State :=
  { s with jobs := updFirst (fun x => x.pad == j.pad && x.id == j.id) f s.jobs }

/-- The free entries of a manger: they hold no record, and no refill batch in flight has reserved them (R337). -/
def State.freeEntries (s : State) (core : Nat) : Nat :=
  32 - (s.manger core).recs.length - sum ((s.batches.filter (·.core == core)).map (·.reserved))

/-- The slots of a ring (R333). -/
def Job.slots (j : Job) : Nat := 2 ^ (j.rlog + 3)

/-- The address of slot `i` of a core's ring; after a resumption a ring keeps its address (R345). -/
def Job.slotVa (j : Job) (core i : Nat) : Nat :=
  let own := ((j.homes.find? (·.1 == core)).map (·.2)).getD core
  j.ring + own * 64 * j.slots + 64 * (i % j.slots)

/-- A core's strings of the paddock. -/
def State.ofPad (s : State) (pad : Nat) (z : Str) : Bool := match s.troopOf z with | some t => t.pad == pad | none => false

def Str.heldOf (z : Str) (job : Nat) : Nat := ((z.held.find? (·.1 == job)).map (·.2)).getD 0

def Str.setHeld (z : Str) (job n : Nat) : Str :=
  { z with held := (if n = 0 then [] else [(job, n)]) ++ z.held.filter (·.1 != job) }

/-- The core belongs to the job's context. -/
def State.coreOf (s : State) (j : Job) (core : Nat) : Bool := match s.padOf core with | some p => p.n == j.pad | none => false

/-- The records of a job at a core (R335): in its manger, its ring, refill batches and stolen records in flight to it, and held by
its strings. -/
def State.counter (s : State) (j : Job) (core : Nat) : Nat :=
  if !s.coreOf j core then 0
  else
    let r := s.ring core j.pad j.id
    ((s.manger core).recs.filter (·.job == j.id)).length + (r.tail - r.head) +
      sum ((s.batches.filter fun b => b.core == core && b.job == j.id).map fun b => b.recs.length + b.left.length) +
      (s.steals.filter fun x => x.thief == core && x.job == j.id).length +
      sum ((s.strs.filter fun z => z.core == core && s.ofPad j.pad z).map (·.heldOf j.id))

/-- The cores of a context. -/
def State.jobCores (s : State) (pad : Nat) : List Nat :=
  match s.pad? pad with
  | some p => p.clusters.flatMap fun c => (List.range 8).map fun i => 8 * c + i
  | none => []

/-- How many of some counters are not zero. -/
def nonzeros (xs : List Nat) : Nat := (xs.filter (· != 0)).length

/-- The job's counter of a cluster: its cores whose counter is not zero (R335). -/
def State.clusterCounter (s : State) (j : Job) (c : Nat) : Nat := nonzeros ((List.range 8).map fun i => s.counter j (8 * c + i))

/-- The job's counter of a die: its clusters whose counter is not zero (R335). -/
def State.dieCounter (s : State) (j : Job) (d : Nat) : Nat := nonzeros ((List.range 8).map fun i => s.clusterCounter j (8 * d + i))

/-- The job's counter of the device: the dies whose counter is not zero (R335). -/
def State.deviceCounter (s : State) (j : Job) : Nat := nonzeros ((List.range 4).map fun d => s.dieCounter j d)

/-- No record of the job exists: the device counter is zero (R336). -/
def State.jobEmpty (s : State) (j : Job) : Bool := s.deviceCounter j == 0

/-- The status of a job (R343). -/
def Job.status (j : Job) : Nat := if j.faulted then 3 else if j.cancelled then 4 else 0

/-! ### Waking (R339, R343) -/

/-- The parked TAKEs of some strings: string, job, destination and id. -/
def takesOf (zs : List Str) : List (Nat × Nat × Nat × Nat) :=
  (zs.flatMap fun z => z.lanes.filterMap fun l => match l.park with
    | .take j d id => some (z.sid, j, d, id)
    | _ => none).dedup

/-- A TAKE ends and writes its eight registers. -/
def State.endTake (s : State) (sid dst id job : Nat) (ws : List Dword) : State :=
  (ws.zipIdx.foldl (fun s w => s.writeS sid 0 (dst + w.2) w.1) s).unparkAll sid (.take job dst id)

/-- The words of a TAKE that no record ends. -/
def takeEnd (status : Nat) : List Dword := [0, BitVec.ofNat 64 status, 0, 0, 0, 0, 0, 0]

/-- Every parked TAKE of a job among the cores that `p` names returns the job's status. -/
def State.wakeTakes (s : State) (j : Job) (status : Nat) (p : Nat → Bool) : State :=
  (takesOf (s.strs.filter fun z => p z.core && s.ofPad j.pad z)).foldl (fun s x =>
    if x.2.1 = j.id then s.endTake x.1 x.2.2.1 x.2.2.2 j.id (takeEnd status) else s) s

/-- The job terminates, once (R336): every TAKE and JWAIT of it returns its status. -/
def State.terminate (s : State) (j : Job) : State :=
  let s := (s.updJob j fun j => { j with terminated := true }).wakeTakes j j.status fun _ => true
  (s.ops.filter fun o => o.kind == .jwait && o.arg == j.id && (match s.troop? o.tid with | some t => t.pad == j.pad | none => false)).foldl
    (fun s o => (s.writeS o.sid o.depth o.arg2 (BitVec.ofNat 64 j.status)).endOp o) s

/-! ### Cancellation (R341) -/

/-- The step of a cancel at one core: the bit is set, the queued records go, and the parked TAKEs return. A job that has terminated
keeps its status (R336). -/
def State.cancelAt (s : State) (j : Job) (core : Nat) : State :=
  let m := s.manger core
  let s := s.putManger { m with recs := m.recs.filter (·.job != j.id) }
  let r := s.ring core j.pad j.id
  let s := if r.head = r.tail then s else s.putRing { r with head := r.tail }
  let s := { s with batches := s.batches.map fun (b : Batch) =>
    if b.core == core && b.job == j.id then { b with recs := [], left := [] } else b }
  let s := s.updJob j fun j => { j with cancelled := j.cancelled || !j.terminated, cancelCores := core :: j.cancelCores.filter (· != core) }
  match s.job? j.pad j.id with
  | some j => s.wakeTakes j j.status (· == core)
  | none => s

/-- A cancel that reaches every core at once. -/
def State.cancelAll (s : State) (j : Job) : State := (s.jobCores j.pad).foldl (fun s c => s.cancelAt j c) s

/-- A ring access of the job was refused (R456): its status becomes FAULT and it is cancelled. -/
def State.faultJob (s : State) (j : Job) : State :=
  let s := s.updJob j fun j => { j with faulted := true }
  match s.job? j.pad j.id with
  | some j => s.cancelAll j
  | none => s

/-- Refused ring accesses fault the jobs that made them (R343, R456). -/
def State.settleRings (s : State) : State :=
  s.refusals.foldl (fun s r => match r.1 with
    | .task core slot _ =>
      let s := { s with refusals := s.refusals.erase r }
      match (s.padOf core).bind fun p => s.jobs.find? fun j => j.pad == p.n && j.slot == slot with
      | some j => if j.terminated then s else s.faultJob j
      | none => s
    | _ => s) s

/-- Jobs with no record left terminate (R336). -/
def State.endJobs (s : State) : State :=
  s.jobs.foldl (fun s j =>
    match s.job? j.pad j.id with
    | some j => if !j.terminated && s.jobEmpty j then s.terminate j else s
    | none => s) s

/-- Jobs that still have records and whose launch has no troop left are cancelled (R334). -/
def State.cancelOrphans (s : State) : State :=
  s.jobs.foldl (fun s j =>
    match s.launch? j.launch with
    | some l => if !j.terminated && l.stage == 5 && l.started == l.total && l.live == 0 && l.started != 0 &&
        !(s.jobCores j.pad).all j.cancelCores.contains then s.cancelAll j else s
    | none => s) s

/-- Jobs with no record left terminate, also one whose last record the launch's last troop held (R336, R343); those that have lost
every troop are cancelled, and terminate with their records gone (R334). -/
def State.settleJobs (s : State) : State := s.settleRings.endJobs.cancelOrphans.endJobs

/-! ### Delivery and refill (R338, R339) -/

/-- The oldest parked TAKE of a core whose job has a record in the manger: that TAKE, the record's job and the record. -/
def State.nextTake (s : State) (core : Nat) : Option ((Nat × Nat × Nat × Nat) × Job × TaskRec) :=
  match s.padOf core with
  | none => none
  | some p =>
    let m := s.manger core
    let ready := (takesOf (s.strs.filter fun z => z.core == core && s.ofPad p.n z)).filterMap fun x =>
      match s.job? p.n x.2.1, m.recs.find? (·.job == x.2.1) with
      | some j, some r => some (x, j, r)
      | _, _ => none
    match ready with
    | [] => none
    | y :: ys => some (ys.foldl (fun a b => if b.1.2.2.2 < a.1.2.2.2 then b else a) y)

/-- Parked TAKEs are served while they can be. -/
def State.serveTakes : Nat → State → Nat → State
  | 0, s, _ => s
  | fuel + 1, s, core =>
    match s.nextTake core with
    | none => s
    | some (x, j, r) =>
      let m := s.manger core
      let s := (s.putManger { m with recs := m.recs.erase r }).updStr x.1 fun z => z.setHeld j.id (z.heldOf j.id + 1)
      let s := s.endTake x.1 x.2.2.1 x.2.2.2 j.id (BitVec.ofNat 64 (j.code + r.codeOff) :: r.words.drop 1)
      State.serveTakes fuel s core

/-- A request for a ring of a core (R456). -/
def Job.rail (j : Job) (core va id : Nat) (write : Bool) : RailEnt :=
  { id := id, die := dieOf core, core := core, pad := j.pad, secure := j.secure, super := j.super, va := va / 64 * 64
    kind := if write then .write else .read, who := .task core j.slot write, sid := 0, tid := 0, depth := 0, fid := 0
    shared := false }

/-- The refill batches of a core read their records from the rings, the oldest batch first; one whose job is gone reads no more. -/
def State.fillBatches : Nat → State → Nat → State
  | 0, s, _ => s
  | fuel + 1, s, core =>
    match s.padOf core, s.batches.find? fun b => b.core == core && b.left != [] with
    | some p, some b =>
      let put := fun (s : State) (f : Batch → Batch) => { s with batches := updFirst (· == b) f s.batches }
      match s.job? p.n b.job, b.left with
      | some j, i :: rest =>
        if s.cellRailed (.task core j.slot false) then s
        else
          match s.agentLoad j.pad j.secure j.super (j.slotVa core i) 64 with
          | (s, .ok bs) =>
            State.fillBatches fuel (put s fun b => { b with recs := b.recs ++ (taskOfBytes bs).toList, left := rest }) core
          | (s, .absent va lvl) =>
            let (id, s) := s.fresh
            s.hitch (j.rail core va id false) lvl
          | (s, .refused _) => s.faultJob j
      | _, _ => put s fun b => { b with left := [] }
    | _, _ => s

/-- The ring whose turn it is: the rings of the core that hold records, in cyclic order of job slot. DESIGN CHOICE (log entry 154): a
manger that has refilled nothing yet counts slot 0 as the last served, so that slot 1 goes before it; R338 names no first slot. -/
def State.turnRing (s : State) (core pad : Nat) : Option (Job × Ring) :=
  let m := s.manger core
  let rs := (s.rings.filter fun r => r.core == core && r.pad == pad && decide (r.head < r.tail)).filterMap fun r =>
    (s.job? pad r.job).map fun j => (j, r)
  let key := fun (x : Job × Ring) => (x.1.slot + 16 - m.turn - 1) % 8
  match rs with
  | [] => none
  | x :: xs => some (xs.foldl (fun a b => if key b < key a then b else a) x)

/-- Refills start while the manger has eight free entries and a ring holds records: each reserves its entries and takes its records
from the ring's head at once, whenever its reads are made. -/
def State.startRefills : Nat → State → Nat → State
  | 0, s, _ => s
  | fuel + 1, s, core =>
    match s.padOf core with
    | none => s
    | some p =>
      if s.freeEntries core < 8 then s
      else
        match s.turnRing core p.n with
        | none => s
        | some (j, r) =>
          let n := min 8 (r.tail - r.head)
          let b : Batch := { core := core, job := j.id, recs := [], reserved := n, left := (List.range n).map (r.head + ·) }
          let s := ({ s with batches := s.batches ++ [b] }).putRing { r with head := r.head + n }
          State.startRefills fuel (s.putManger { s.manger core with turn := j.slot }) core

/-- A core goes on after its manger or its parked TAKEs have changed. -/
def State.serveCore (s : State) (core : Nat) : State :=
  if s.haltedCore core then s.settleJobs else (((s.serveTakes 64 core).startRefills 4 core).fillBatches 40 core).settleJobs

/-- A record arrives at a core's manger; one of a job cancelled there is discarded (R341). -/
def State.land (s : State) (core pad : Nat) (r : TaskRec) : State :=
  match s.job? pad r.job with
  | some j =>
    if j.cancelCores.contains core then s
    else
      let m := s.manger core
      s.putManger { m with recs := m.recs ++ [r] }
  | none => s

/-- REFILL_BATCH_LAND (R338): the oldest batch of a core lands; one that waited for a page reads on. -/
def execRefillBatchLand (core : Nat) (s : State) : Out :=
  match s.padOf core with
  | none => .next s
  | some p =>
    match s.batches.find? (·.core == core) with
    | some b =>
      if s.haltedCore core || b.left != [] then .next (s.serveCore core)
      else .next ((b.recs.foldl (fun (s : State) r => s.land core p.n r) { s with batches := s.batches.erase b }).serveCore core)
    | none => .next (s.serveCore core)

/-! ### Stealing (R340) -/

/-- The core is idle for the job. -/
def State.idleFor (s : State) (core : Nat) (j : Job) : Bool :=
  (takesOf (s.strs.filter fun z => z.core == core && s.ofPad j.pad z)).any (·.2.1 == j.id) && decide (0 < s.freeEntries core) &&
    !(s.manger core).recs.any (·.job == j.id) && (let r := s.ring core j.pad j.id; r.head == r.tail) &&
    !s.batches.any (fun b => b.core == core && b.job == j.id) && !s.steals.any (·.thief == core)

/-- STEAL_REQUEST (R340): the victim answers with its oldest record of the job, split or whole, or not at all. -/
def execStealRequest (thief victim job : Nat) (s : State) : Out :=
  match s.padOf thief with
  | none => .next s
  | some p =>
    match s.job? p.n job with
    | none => .next s
    | some j =>
      let m := s.manger victim
      match m.recs.filter (·.job == job) with
      | [] => .next s
      | r :: rest =>
        if s.haltedCore thief || s.haltedCore victim || !s.idleFor thief j || !s.coreOf j victim then .next s
        else
          let (id, s) := s.fresh
          let half := (r.hi - r.lo) / 2
          if !r.noSplit && decide (r.grain ≤ half) then
            let mid := r.lo + (r.hi - r.lo + 1) / 2
            let s := s.putManger { m with recs := updFirst (· == r) (fun r => { r with hi := mid }) m.recs }
            .next { s with steals := s.steals ++ [{ id := id, thief := thief, job := job, task := { r with lo := mid } }] }
          else if rest = [] then .next s
          else
            let s := s.putManger { m with recs := m.recs.erase r }
            .next { s with steals := s.steals ++ [{ id := id, thief := thief, job := job, task := r }] }

/-- STEAL_ANSWER (R340): a stolen record arrives at the thief's manger, when it has room or hands it to a parked TAKE at once. A
manger that has filled up since the request keeps the answer waiting: R337 counts no reservation for it. A record of a job that is
cancelled there is discarded whatever the room (R341). -/
def execStealAnswer (sid : Nat) (s : State) : Out :=
  match s.steals.find? (·.id == sid) with
  | none => .next s
  | some x =>
    match s.padOf x.thief with
    | none => .next s
    | some p =>
      let taken := (takesOf (s.strs.filter fun z => z.core == x.thief && s.ofPad p.n z)).any (·.2.1 == x.job)
      let gone := match s.job? p.n x.job with | some j => j.cancelCores.contains x.thief | none => true
      if s.haltedCore x.thief || (s.freeEntries x.thief == 0 && !taken && !gone) then .next s
      else .next ((({ s with steals := s.steals.erase x }).land x.thief p.n x.task).serveCore x.thief)

/-! ### Activation (R334) -/

/-- JOB_ACTIVATE (R333, R334): the job takes its slot, and its initial record goes to the core that receives troop 0. DESIGN CHOICE (log
entry 153): while that core's manger has no free entry the activation waits; R334 does not say what a full manger does. -/
def execJobActivate (launch core : Nat) (s : State) : Out :=
  match s.launch? launch with
  | none => .next s
  | some l =>
    match s.pad? l.pad with
    | none => .next s
    | some p =>
      if l.type != 4 || l.stage != 5 || l.job.isSome || p.st != .running || (s.served p).map (·.id) != some l.id ||
          !(s.padCores p).contains core || s.freeEntries core = 0 ||
          (List.range 12).all (fun b => (s.fits l core b).isNone) then .next s
      else
        let id := l.extWord 0x28 / 65536
        let mine := s.jobs.filter (·.pad == p.n)
        let reject := fun (s : State) => s.updLaunch launch fun l => { l with stage := 7, reason := 0x0E }
        if mine.any (·.id == id) || 8 ≤ mine.length then .next (reject s)
        else
          match s.agentGet l (l.extWord 0x30) 64 with
          | (s, none) => .next s
          | (s, some (.ok bs)) =>
            match taskOfBytes bs with
            | none => .next (reject s)
            | some r =>
              let j : Job := { pad := p.n, slot := freeOf (mine.map (·.slot)) 8, id := id, launch := launch
                               code := (l.dword 6).toNat, ring := l.extWord 0x20, rlog := l.extWord 0x28 % 16
                               secure := l.world, super := l.kind == 1, cancelled := false, cancelCores := []
                               faulted := false, terminated := false }
              let s := if (s.resident core).isEmpty then s.scrub l.pad l.world core else s
              let s := { s with jobs := s.jobs ++ [j] }.updLaunch launch fun l => { l with job := some id, cores := [core] }
              .next ((s.land core p.n { r with job := id }).serveCore core)
          | (s, some _) => .next (reject s)

/-! ### The instructions (R342, R343) -/

/-- The job id of an instruction; none when S(A)[63:16] is not zero. -/
def jobId (x : Dword) : Option Nat := if x.toNat < 2 ^ 16 then some x.toNat else none

/-- The slots of a job's ring at a core that a refill batch has still to read: they hold their records until it does (R338). -/
def State.unread (s : State) (core job : Nat) : Nat :=
  sum ((s.batches.filter fun b => b.core == core && b.job == job).map (·.left.length))

/-- A record is pushed at a core (R337): into the manger, or to the ring; none when it has to wait for the ring's page. DESIGN CHOICE (log
entry 156): a SPAWN whose own ring write is refused, which faults and cancels the job (R456), enqueues nothing and returns CANCELLED;
R343 does not name its result. -/
def State.push (s : State) (j : Job) (core : Nat) (r : TaskRec) : State × Option (Except Cause Nat) :=
  let ring := s.ring core j.pad j.id
  let m := s.manger core
  if 0 < s.freeEntries core && ring.head == ring.tail && !s.batches.any (fun b => b.core == core && b.job == j.id) then
    ((s.putManger { m with recs := m.recs ++ [r] }).serveCore core, some (.ok 0))
  else if j.slots ≤ ring.tail - ring.head + s.unread core j.id then (s, some (.error .taskQueue))
  else if s.cellRailed (.task core j.slot true) then (s, none)
  else
    match s.agentStore j.pad j.secure j.super (j.slotVa core ring.tail) r.bytes with
    | (s, .ok _) => ((s.putRing { ring with tail := ring.tail + 1 }).serveCore core, some (.ok 0))
    | (s, .absent va lvl) =>
      let (id, s) := s.fresh
      (s.hitch (j.rail core va id true) lvl, none)
    | (s, .refused _) => (s.faultJob j, some (.ok 4))

/-- SPAWN. -/
def execSpawn (o : Operands) (s : State) : Out :=
  s.issue (.spawn o) noCheck fun c z t =>
    if c.parts = 0 then s
    else if t.held then s.raise c .recoveryEscape
    else
      match taskOf fun i => z.sreg (o.a.toNat + i) with
      | none => s.raise c .bounds
      | some r =>
        match s.job? t.pad r.job with
        | none => s.putScalar c z o.d 3
        | some j =>
          if z.heldOf j.id = 0 then s.putScalar c z o.d 3
          else if j.cancelCores.contains z.core then s.putScalar c z o.d 4
          else
            match s.push j z.core r with
            | (s, none) => s.hold
            | (s, some (.error f)) => s.raise c f
            | (s, some (.ok x)) => s.putScalar c z o.d (BitVec.ofNat 64 x)

/-- TAKE. DESIGN CHOICE (log entry 155): only records that the string holds count towards the 255 of R343; parked TAKEs of it do not, so
later deliveries can take the count beyond it. -/
def execTake (o : Operands) (s : State) : Out :=
  s.issue (.take o) noCheck fun c z t =>
    let write := fun (s : State) (ws : List Dword) => ws.zipIdx.foldl (fun s w => s.writeS z.sid t.depth (o.d.toNat + w.2) w.1) s
    if c.parts = 0 then s
    else if t.held then s.raise c .recoveryEscape
    else
      match jobId (z.sreg o.a.toNat) with
      | none => s.raise c .bounds
      | some id =>
        match s.job? t.pad id with
        | none => write s (takeEnd 3)
        | some j =>
          if j.terminated || j.cancelCores.contains z.core then write s (takeEnd j.status)
          else if z.heldOf id + 1 > 255 then s.raise c .taskQueue
          else
            let (n, s) := s.fresh
            (s.park z.sid c.bundle (.take id o.d.toNat n)).serveCore z.core

/-- DONE. -/
def execDone (o : Operands) (s : State) : Out :=
  s.issue (.done o) noCheck fun c z t =>
    if c.parts = 0 then s
    else if t.held then s.raise c .recoveryEscape
    else
      match jobId (z.sreg o.a.toNat) with
      | none => s.raise c .bounds
      | some id =>
        if (s.job? t.pad id).isNone || z.heldOf id = 0 then s.raise c .taskQueue
        else (s.updStr z.sid fun z => z.setHeld id (z.heldOf id - 1)).settleJobs

/-- CANCEL. -/
def execCancel (o : Operands) (s : State) : Out :=
  s.issue (.cancel o) noCheck fun c z t =>
    if c.parts = 0 then s
    else if t.held then s.raise c .recoveryEscape
    else
      match jobId (z.sreg o.a.toNat) with
      | none => s.raise c .bounds
      | some id =>
        match s.job? t.pad id with
        | none => s
        | some j =>
          let op := s.nextId
          (s.startOp c t .cancel .str id j.launch).updOp op fun x => { x with cores := s.jobCores t.pad }

/-- CANCEL_BIT_SET (R341): the cancel reaches one core; with the last one its bundle goes on. -/
def execCancelBitSet (op core : Nat) (s : State) : Out :=
  match s.op? op with
  | none => .next s
  | some x =>
    if x.kind != .cancel || !x.cores.contains core then .next s
    else
      let s := match (s.troop? x.tid).bind fun t => s.job? t.pad x.arg with
        | some j => if j.launch = x.arg2 then s.cancelAt j core else s
        | none => s
      let left := x.cores.filter (· != core)
      let s := s.updOp op fun x => { x with cores := left }
      .next (if left = [] then (s.endOp x).settleJobs else s.settleJobs)

/-- TCHK. -/
def execTchk (o : Operands) (s : State) : Out :=
  s.issue (.tchk o) noCheck fun c z t =>
    if c.parts = 0 then s
    else
      match jobId (z.sreg o.a.toNat) with
      | none => s.raise c .bounds
      | some id =>
        s.putScalar c z o.d (match s.job? t.pad id with
          | some j => if j.cancelCores.contains z.core then 1 else 0
          | none => 0)

/-- JWAIT. -/
def execJwait (o : Operands) (s : State) : Out :=
  s.issue (.jwait o) noCheck fun c z t =>
    if c.parts = 0 then s
    else
      match jobId (z.sreg o.a.toNat) with
      | none => s.raise c .bounds
      | some id =>
        match s.job? t.pad id with
        | none => s.putScalar c z o.d 3
        | some j =>
          if z.heldOf id != 0 then s.raise c .taskQueue
          else if j.terminated then s.putScalar c z o.d (BitVec.ofNat 64 j.status)
          else s.startOp c t .jwait .str id o.d.toNat

/-- LAUNCH (R346). -/
def execLaunch (o : Operands) (s : State) : Out :=
  s.issue (.launch o) noCheck fun c z t =>
    let a := z.sreg o.a.toNat
    if c.parts = 0 then s
    else if t.held then s.raise c .recoveryEscape
    else if !canonical a then s.raise c .noncanonical
    else if a.toNat % 64 != 0 then s.raise c .misaligned
    else s.startOp c t .launch .dev (addr56 a).toNat o.d.toNat

/-! ### LAUNCH completes (R346) -/

/-- Lines of 64 bytes read by the string at device level, at supervisor privilege or not. -/
def State.readLinesOf (s : State) (sid : Nat) (t : Troop) (super : Bool) : List Nat → State × Except AgentRes (Option (List Byte))
  | [] => (s, .ok (some []))
  | va :: vas =>
    match s.readVirt sid t super va 6 allBytes with
    | (s, .ok d) =>
      match State.readLinesOf s sid t super vas with
      | (s, .ok (some rest)) => (s, .ok (some (lineSlice d 0 64 ++ rest)))
      | r => r
    | (s, .wait) => (s, .ok none)
    | (s, .absent lvl) => (s, .error (.absent va lvl))
    | (s, .refused c) => (s, .error (.refused c))

/-- The reads of a LAUNCH, then `go` on the bytes. `stop` is the answer to a refusal. -/
def State.launchRead (s : State) (op : SysOp) (t : Troop) (va n : Nat) (stop : State → State)
    (go : State → List Byte → State) : State :=
  let lines := ((List.range n).map fun i => (va + i) / 64 * 64).dedup
  match s.readLinesOf op.sid t (State.isSuper t op.trap) lines with
  | (s, .ok (some bs)) => go s (bs.take n)
  | (s, .ok none) => s
  | (s, .error (.absent va lvl)) =>
    let (id, s) := s.fresh
    s.hitch (railFor t op.sid op.depth (State.isSuper t op.trap) .read va id (.op op.id)) lvl
  | (s, .error _) => stop s

/-- S(D) of a LAUNCH. -/
def launchResult (reason pktid : Nat) : Dword :=
  BitVec.ofNat 64 (reason * 2 ^ 40 + pktid * 2 ^ 16 + if reason = 0 then 0 else 3)

/-- A LAUNCH ends: its result is written and its bundle goes on. -/
def State.endLaunchOp (s : State) (op : SysOp) (reason pktid : Nat) : State :=
  (s.writeS op.sid op.depth op.arg2 (launchResult reason pktid)).endOp op

/-- The KIND of a troop's queue. -/
def State.kindOf (s : State) (t : Troop) : Nat := match s.launchOf t with | some l => l.kind | none => if t.super then 1 else 0

/-- The packets in a context's device-side queue that have not been taken. -/
def State.deviceQueued (s : State) (pad : Nat) : Nat := ((s.queued pad 64).filter fun l => decide (l.stage ≤ 4)).length

/-- An accepted packet enters the device-side queue. -/
def State.acceptLaunch (s : State) (op : SysOp) (t : Troop) (l : Launch) : State :=
  if 64 ≤ s.deviceQueued t.pad then s.endLaunchOp op 0x10 l.pktid
  else
    let (id, s) := s.fresh
    { s with launches := s.launches ++ [{ l with id := id }] }.endLaunchOp op 0 l.pktid

/-- The checks of a LAUNCH once its extension is in: its form, then those on the troop, the job and the queue. -/
def State.checkLaunch (s : State) (op : SysOp) (t : Troop) (l : Launch) : State :=
  if !l.extOk then s.endLaunchOp op 0x0E l.pktid
  else if (l.world && !t.secure) || t.prio < l.prio then s.endLaunchOp op 0x02 l.pktid
  else if l.type != 4 then s.acceptLaunch op t l
  else
    let mine := s.jobs.filter (·.pad == t.pad)
    if mine.any (·.id == l.extWord 0x28 / 65536) || 8 ≤ mine.length then s.endLaunchOp op 0x0E l.pktid
    else s.launchRead op t (l.extWord 0x30) 64 (fun s => s.endLaunchOp op 0x0E l.pktid) fun s bs =>
      if (taskOfBytes bs).isNone then s.endLaunchOp op 0x0E l.pktid else s.acceptLaunch op t l

/-- The packet of a LAUNCH, of these words. -/
def State.packetOf (s : State) (t : Troop) (words : List Word) : Launch :=
  { id := 0, pad := t.pad, qid := 64, kind := s.kindOf t, words := words, ext := [], stage := 0, reason := 0, cause := none
    cancelled := false, started := 0, live := 0, job := none, retagged := false, cores := [], rounds := [] }

/-- A LAUNCH whose packet is read makes its checks and reads the rest. -/
def State.launchChecks (s : State) (op : SysOp) (p : Paddock) (t : Troop) (words : List Word) : State :=
  let l := s.packetOf t words
  let r := s.admitReason p l 3
  if r != 0 then s.endLaunchOp op r l.pktid
  else
    match l.extBytes with
    | none => s.endLaunchOp op 0x0E l.pktid
    | some 0 => s.checkLaunch op t l
    | some n => s.launchRead op t (addr56 l.extVa).toNat n (fun s => s.endLaunchOp op 0x0E l.pktid) fun s bs =>
      s.checkLaunch op t { l with ext := bs }

/-- A LAUNCH makes its reads and checks. A read refused at the rail gives the packet's PKTID when the packet is in. -/
def State.stepLaunch (s : State) (op : SysOp) (t : Troop) : State :=
  match s.pad? t.pad with
  | none => s
  | some p =>
    if s.haltedCore t.core || s.cellRailed (.op op.id) then s
    else
      match s.refusals.find? (·.1 == .op op.id) with
      | some x =>
        { s with refusals := s.refusals.erase x }.endLaunchOp op 0x0E
          (if op.words = [] then 0 else (s.packetOf t op.words).pktid)
      | none =>
        if op.words != [] then s.launchChecks op p t op.words
        else s.launchRead op t op.arg 64 (fun s => s.endLaunchOp op 0x0E 0) fun s bs =>
          let words := wordsOfBytes 16 bs
          (s.updOp op.id fun o => { o with words := words }).launchChecks { op with words := words } p t words

/-- SYSTEM_OP_COMPLETE (R346, R401): a TLBI, CFLUSH, CINV or LAUNCH takes its next step. -/
def execSystemOpComplete (op : Nat) (s : State) : Out :=
  match s.op? op with
  | none => .next s
  | some op =>
    match s.ownerOf op with
    | none => .next s
    | some (z, t) => .next (if op.kind = .launch then s.stepLaunch op t else s.stepSystemOp op z t)

end Sys2Proof.Machine
end

