-- ==== Sys2Proof/Machine/Context.lean ====
section
/-! DEFINITION. Pre-emption: draining, cutting, saving, resuming and resetting a paddock (R302 to R308, R213, R228, R242, R286,
R345, R367), and what the machine settles after each step: the status and error blocks in memory (R308, R440), the halt of a
drained paddock (R303). -/

namespace Sys2Proof.Machine

/-! ### The context status block and the error block (R308, R440) -/

def PadSt.code : PadSt → Nat
  | .running => 0 | .draining => 1 | .cutting => 2 | .saved => 3 | .reset => 4

/-- An agent write to the block of a paddock: with PTROOT, non-secure, supervisor; dropped when it cannot be made (R456). DESIGN CHOICE
(log entry 61): bits [63:56] of CSB, which no rule gives a meaning, take no part in its addresses. -/
def State.putBlock (s : State) (p : Paddock) (off : Nat) (bs : List Byte) : State × Bool :=
  match s.agentStore p.n false true (p.csb.toNat % 2 ^ 56 + off) bs with
  | (s, .ok _) => (s, true)
  | (s, _) => (s, false)

/-- The state of the paddock changes, in its register view and, where there is one, in its block. DESIGN CHOICE (log entry 33): a block
named later shows STATE, and LASTUS, from their next change on. -/
def State.setSt (s : State) (pad : Nat) (st : PadSt) : State :=
  let s := s.updPad pad fun p => { p with st := st }
  match s.pad? pad with
  | some p =>
    if p.csb = 0 then s
    else
      match s.putBlock p 8 [BitVec.ofNat 8 st.code] with
      | (s, true) => s
      | (s, false) => s.agentDrop pad
  | none => s

/-- The pending increments of the block, as offset, width in bytes, and increment; the last is AGENT_DROPS. -/
def Paddock.pending (p : Paddock) : List (Nat × Nat × Nat) :=
  let e := p.err
  let b := p.csbData
  [(0, 4, b.oobDrops), (4, 4, b.prefetchDrops), (0x0A, 2, b.cuts), (9, 1, b.resets), (0x40, 4, e.retried), (0x44, 4, e.chkFail),
    (0x48, 4, e.ce), (0x4C, 4, e.ue), (0x50, 4, e.partMisses), (0x54, 4, e.doorbellErrs), (0x58, 4, e.outrMismatch),
    (0x5C, 4, e.outrUnresolved), (0x62, 2, e.coresRemoved), (0x60, 2, e.thermalTrips), (0x64, 4, e.agentDrops)]

/-- What the counters hold beyond what has been taken from them: an access that updates the block may itself be counted (R440). -/
def ErrCounters.less (a b : ErrCounters) : ErrCounters :=
  { retried := a.retried - b.retried, chkFail := a.chkFail - b.chkFail, ce := a.ce - b.ce, ue := a.ue - b.ue
    partMisses := a.partMisses - b.partMisses, doorbellErrs := a.doorbellErrs - b.doorbellErrs
    outrMismatch := a.outrMismatch - b.outrMismatch, outrUnresolved := a.outrUnresolved - b.outrUnresolved
    coresRemoved := a.coresRemoved - b.coresRemoved, thermalTrips := a.thermalTrips - b.thermalTrips
    agentDrops := a.agentDrops - b.agentDrops }

/-- One field rises by its pending increment and saturates. -/
def State.addBlock (s : State) (p : Paddock) (f : Nat × Nat × Nat) : State × Bool :=
  if f.2.2 = 0 then (s, true)
  else
    match s.agentLoad p.n false true (p.csb.toNat % 2 ^ 56 + f.1) f.2.1 with
    | (s, .ok bs) => s.putBlock p f.1 (bytesOf f.2.1 (min (2 ^ (8 * f.2.1) - 1) (natOfBytes bs + f.2.2)))
    | (s, _) => (s, false)

/-- The pending increments of a paddock reach its block, or are dropped (R440, R456); with CSB = 0 they stay in the device. The
count of drops itself waits in the device until the block takes it. DESIGN CHOICE (log entry 33): a block just named takes the counts alone,
and STATE and LASTUS when they next change. -/
def State.syncBlock (s : State) (p : Paddock) : State :=
  if p.csb = 0 || p.pending.all (fun f => f.2.2 == 0) then s
  else
    let (t, ok) := p.pending.dropLast.foldl (fun (s, ok) f =>
      if ok then s.addBlock p f else (s, false)) (s, true)
    let t := t.updPad p.n fun q =>
      { q with err := q.err.less { p.err with agentDrops := 0 }, csbData := { lastUs := p.csbData.lastUs } }
    if !ok then t.agentDrop p.n
    else
      match t.addBlock p (0x64, 4, p.err.agentDrops) with
      | (u, true) => u.updPad p.n fun q => { q with err := q.err.less { agentDrops := p.err.agentDrops } }
      | (u, false) => u

def State.syncBlocks (s : State) : State := s.pads.foldl (fun s p => s.syncBlock p) s

/-! ### What belongs to a paddock -/

/-- The troops of a paddock. -/
def State.padTroops (s : State) (pad : Nat) : List Troop := s.troops.filter (·.pad == pad)

/-- A troop of the paddock is resident. -/
def State.hasResident (s : State) (pad : Nat) : Bool := (s.padTroops pad).any fun t => !t.ended

/-- A buffer line is in the place of one of some strings, troops or clusters. -/
def BufLine.within (l : BufLine) (sids tids clusters : List Nat) : Bool :=
  match l.space with
  | .str i => sids.contains i
  | .trp i => tids.contains i
  | .clu c => clusters.contains c

def BarKey.within (k : BarKey) (sids tids launches : List Nat) : Bool :=
  match k with
  | .str i => sids.contains i
  | .trp i _ => tids.contains i
  | .clu l _ _ => launches.contains l
  | .grid l _ => launches.contains l

/-- The requests that a context holds as references: not those of the packet processor, which asks again (R367). -/
def ReqWho.saved : ReqWho → Bool
  | .agent _ => false
  | _ => true

/-- A request is one of some strings, troops, launches or cores. -/
def State.asksFor (s : State) (sids tids launches cores : List Nat) (w : ReqWho) : Bool :=
  match w with
  | .acc id _ => s.accs.any fun a => a.id == id && sids.contains a.sid
  | .eng id _ => s.engs.any fun e => e.id == id && sids.contains e.sid
  | .fetch _ sid => sids.contains sid
  | .scan tid | .spill tid _ | .bag tid | .back tid => tids.contains tid
  | .agent l => launches.contains l
  | .cell core _ _ | .task core _ _ => cores.contains core
  | .op id => s.ops.any fun o => o.id == id && tids.contains o.tid

/-- A lift that a cut finds between two of its COMMITs takes the next one after the resumption (R213); one that is bound to complete
has done so (R432, R437). -/
def SysOp.save (o : SysOp) : SysOp := if o.kind == .lift then { o with phase := .waiting } else o

/-- Everything of a paddock that a cut saves leaves the machine for a context (R306). Its open notices stay with the fault
processor, with no entry, and no later request joins them (R367). -/
def State.takePad (s : State) (p : Paddock) (slot : Nat) : Context × State :=
  let pad := p.n
  let cores := s.jobCores pad
  let tids := (s.padTroops pad).map (·.tid)
  let sids := (s.strs.filter fun z => tids.contains z.tid).map (·.sid)
  let launches := (s.launches.filter (·.pad == pad)).map (·.id)
  let reqs := (s.rail ++ s.heldReqs.map (·.ent)).filter fun e => e.pad == pad && e.who.saved
  ({ pad := pad, slot := slot
     strs := s.strs.filter fun z => sids.contains z.sid
     troops := s.padTroops pad
     tandems := s.tandems.filter fun d => d.tids.any tids.contains
     bars := s.bars.filter fun b => b.key.within sids tids launches
     lines := s.lines.filter fun l => l.within sids tids p.clusters
     accs := s.accs.filter fun a => sids.contains a.sid
     ops := (s.ops.filter fun o => tids.contains o.tid).map SysOp.save
     engs := (s.engs.filter fun e => sids.contains e.sid).map EngOp.freeWork
     pendJ := s.pendJ.filter fun j => tids.contains j.tid
     nodes := s.nodes.filter fun x => tids.contains x.tid
     ranges := s.ranges.filter (·.pad == pad)
     partials := s.partials.filter (·.pad == pad)
     mangers := s.mangers.filter fun m => cores.contains m.core
     rings := s.rings.filter (·.pad == pad)
     batches := s.batches.filter fun b => cores.contains b.core
     steals := s.steals.filter fun x => cores.contains x.thief
     jobs := s.jobs.filter (·.pad == pad)
     railed := reqs
     refusals := s.refusals.filter fun r => s.asksFor sids tids launches cores r.1
     queues := s.queues.filter (·.pad == pad)
     launches := s.launches.filter (·.pad == pad) },
   { s with
     strs := s.strs.filter fun z => !sids.contains z.sid
     troops := s.troops.filter (·.pad != pad)
     tandems := s.tandems.filter fun d => !d.tids.any tids.contains
     bars := s.bars.filter fun b => !b.key.within sids tids launches
     lines := s.lines.filter fun l => !l.within sids tids p.clusters
     accs := s.accs.filter fun a => !sids.contains a.sid
     ops := s.ops.filter fun o => !tids.contains o.tid
     engs := s.engs.filter fun e => !sids.contains e.sid
     pendJ := s.pendJ.filter fun j => !tids.contains j.tid
     jointWait := s.jointWait.filter fun o => !tids.contains o.tid
     nodes := s.nodes.filter fun x => !tids.contains x.tid
     quarters := s.quarters.filter fun q => !cores.contains q.core
     ranges := s.ranges.filter (·.pad != pad)
     partials := s.partials.filter (·.pad != pad)
     mangers := s.mangers.filter fun m => !cores.contains m.core
     rings := s.rings.filter (·.pad != pad)
     batches := s.batches.filter fun b => !cores.contains b.core
     steals := s.steals.filter fun x => !cores.contains x.thief
     jobs := s.jobs.filter (·.pad != pad)
     rail := s.rail.filter (·.pad != pad)
     heldReqs := s.heldReqs.filter (·.ent.pad != pad)
     refusals := s.refusals.filter fun r => !s.asksFor sids tids launches cores r.1
     notices := s.notices.map fun n => if n.src == 0 && n.pad == pad then { n with cut := true } else n
     launches := s.launches.filter (·.pad != pad) })

/-! ### Halting (R303, R304) -/

/-- A pre-emption command ends with a result (R302, R373). -/
def State.endCmd (s : State) (pad result : Nat) : State :=
  s.updPad pad fun p => { p with busy := false, result := result
                                 intStat := if result = 0 then p.intStat ||| 2#5 else p.intStat }

/-- A command is discarded with a result. -/
def State.refuseCmd (s : State) (pad result : Nat) : State := s.updPad pad fun p => { p with result := result }

/-- Every partial line of the paddock is merged into its home slot (R228). -/
def State.mergePartials (s : State) (pad : Nat) : State :=
  (s.partials.filter fun x => x.pad == pad && !x.slot).foldl (fun s x =>
    match s.ranges.find? fun r => r.pad == x.pad && r.slot == x.range with
    | some r => s.evictPartial r x.core x.line
    | none => s) s

/-- A paddock with no resident troop gives a context only its queues, with their packets, and its range slots (R303, R306); the rest
stays where it is. The packet processor's requests are made again, and the open notices that they leave with no entry are joined no
more (R367). -/
def State.takeQueues (s : State) (p : Paddock) (slot : Nat) : Context × State :=
  let agent := fun (e : RailEnt) => e.pad == p.n && !e.who.saved
  let rail := s.rail.filter fun e => !agent e
  let cut := fun (n : Notice) => n.src == 0 && n.pad == p.n && !rail.any fun e => e.die == n.die && e.fid == n.fid
  ({ pad := p.n, slot := slot, strs := [], troops := [], tandems := [], bars := [], lines := [], accs := [], ops := [], engs := []
     pendJ := [], nodes := [], mangers := [], rings := [], batches := [], steals := [], jobs := [], railed := []
     ranges := s.ranges.filter (·.pad == p.n)
     partials := s.partials.filter (·.pad == p.n)
     refusals := s.refusals.filter fun r => s.asksFor [] [] ((s.launches.filter (·.pad == p.n)).map (·.id)) [] r.1
     queues := s.queues.filter (·.pad == p.n)
     launches := s.launches.filter (·.pad == p.n) },
   { s with
     ranges := s.ranges.filter (·.pad != p.n)
     partials := s.partials.filter (·.pad != p.n)
     rail := rail
     notices := s.notices.map fun n => if cut n then { n with cut := true } else n
     heldReqs := s.heldReqs.filter fun h => !agent h.ent
     refusals := s.refusals.filter fun r => !s.asksFor [] [] ((s.launches.filter (·.pad == p.n)).map (·.id)) [] r.1
     launches := s.launches.filter (·.pad != p.n) })

/-- A context stands in its slot, and the paddock is halted; the rail entries that it gave up go to waiting cores (R366). -/
def State.halt (s : State) (p : Paddock) (ctx : Context) : State :=
  let s := { s with contexts := ctx :: s.contexts.filter fun x => !(x.pad == p.n && x.slot == p.slot) }.grant
  ((s.updPad p.n fun p => { p with marked := [] }).setSt p.n .saved).endCmd p.n 0

/-- An operation that a cut saves unissued: a COMMIT before its take point, an ACQ, a declaration or close that the range table has
not received, a LAUNCH that has not entered its packet (R213, R242, R275, R345). -/
def SysOp.unissued (o : SysOp) : Bool :=
  match o.kind with
  | .acq | .launch => true
  | .commit | .cropen | .crclose => o.phase == .waiting
  | _ => false

/-- What the caches of some cores, and of their dies, hold alone goes to its home: a resumed string reads no copy older than what
its own atomics have left (R242). -/
def State.returnCores (s : State) (cores : List Nat) : State :=
  let s := (s.l1.filter fun c => c.auth && cores.contains c.place).foldl (fun s c => s.spillL1 c.line) s
  (s.l2.filter fun c => c.auth && (cores.map dieOf).contains c.place).foldl (fun s c => s.spillL2 c.line) s

/-- The context of a cut is written to its slot (R304); with no resident troop it holds the queues and the range slots alone
(R306). -/
def State.saveContext (s : State) (p : Paddock) : State :=
  let s := s.mergePartials p.n
  let tids := (s.padTroops p.n).map (·.tid)
  let s := (s.ops.filter fun o => tids.contains o.tid && o.unissued).foldl (fun s o => s.unissue o .none) s
  let (ctx, s) := if s.hasResident p.n then (s.returnCores (s.jobCores p.n)).takePad p p.slot else s.takeQueues p p.slot
  s.halt p ctx

/-- A draining paddock whose last troop has retired halts with no cut (R303). -/
def State.haltDrained (s : State) : State :=
  s.pads.foldl (fun s p =>
    if p.st == .draining && !s.hasResident p.n then
      let (ctx, s) := (s.mergePartials p.n).takeQueues p p.slot
      s.halt p ctx
    else s) s

/-- What follows each step by itself: jobs end, drained paddocks halt, scan tests give way, the blocks in memory are brought up to
date. -/
def State.settle (s : State) : State := s.settleJobs.haltDrained.yieldScans.syncBlocks

/-- The checks that a DRAIN or CUT passes: the slot exists and the paddock is not halted. -/
def cutCheck (p : Paddock) (slot : Nat) : Option Nat :=
  if p.st == .saved || p.st == .reset then some 4 else if p.slots ≤ slot then some 2 else none

/-- The rein marker is injected (R304). -/
def State.startCut (s : State) (pad slot : Nat) : State :=
  (s.updPad pad fun p => { p with busy := true, slot := slot, marked := [] }).setSt pad .cutting

/-- The command DRAIN (R302, R303). -/
def State.cmdDrain (s : State) (p : Paddock) (slot : Nat) : State :=
  if p.busy then s.refuseCmd p.n 1
  else
    match cutCheck p slot with
    | some r => s.refuseCmd p.n r
    | none => ((s.updPad p.n fun p => { p with busy := true, slot := slot }).setSt p.n .draining).haltDrained

/-- The command CUT, which takes over a drain in progress (R302, R304). -/
def State.cmdCut (s : State) (p : Paddock) (slot : Nat) : State :=
  if p.busy && p.st != .draining then s.refuseCmd p.n 1
  else
    match cutCheck p slot with
    | some r => s.refuseCmd p.n r
    | none => s.startCut p.n slot

/-- DRAIN (R303). -/
def execDrain (pad : Nat) (slot : Byte) (s : State) : Out :=
  match s.pad? pad with
  | some p => .next (s.cmdDrain p slot.toNat)
  | none => .next s

/-- CUT (R304). -/
def execCut (pad : Nat) (slot : Byte) (s : State) : Out :=
  match s.pad? pad with
  | some p => .next (s.cmdCut p slot.toNat)
  | none => .next s

/-- DRAIN_DEADLINE_EXPIRY (R303): the cut begins. -/
def execDrainDeadlineExpiry (pad : Nat) (s : State) : Out :=
  match s.pad? pad with
  | some p => .next (if p.st == .draining then s.startCut pad p.slot else s)
  | none => .next s

/-- REIN_MARKER_ARRIVAL (R304): the units of a core halt. -/
def execReinMarkerArrival (core : Nat) (s : State) : Out :=
  match s.padOf core with
  | some p => .next (if p.st == .cutting && !p.marked.contains core then
      (s.updPad p.n fun p => { p with marked := core :: p.marked }).settleQuarters core else s)
  | none => .next s

/-- The cut may complete: every core has halted, its pipelines and rollbacks have finished (R419), no commit is past its take point, no
outermost ACCEPT or compared commit is under way, no declaration or
close of a range is past the range table, and every round is confirmed (R151, R213, R275, R304, R432, R437). -/
def State.cutReady (s : State) (p : Paddock) : Bool :=
  let cores := s.jobCores p.n
  let tids := (s.padTroops p.n).map (·.tid)
  (s.padCores p).all p.marked.contains && (s.padTroops p.n).all (!·.unwinding) &&
    s.quarters.all (fun q => !cores.contains q.core || (q.ops.isEmpty && q.run.isNone)) &&
    s.jointWait.all (fun o => !tids.contains o.tid) &&
    s.ops.all (fun o => !tids.contains o.tid || (o.kind != .commit && o.kind != .cropen && o.kind != .crclose) ||
      o.phase == .waiting) &&
    s.ops.all (fun o => !tids.contains o.tid || !s.liftBound o) &&
    s.writes.all (fun w => !cores.contains w.core) && s.rounds.all fun r => !cores.contains r.core || !r.closed

/-- CUT_COMPLETE (R304, R308): the context is saved; the cut took `us` microseconds. -/
def execCutComplete (pad us : Nat) (s : State) : Out :=
  match s.pad? pad with
  | none => .next s
  | some p =>
    if p.st != .cutting || !s.cutReady p then .next s
    else
      let s := s.updPad pad fun p => { p with csbData := { p.csbData with cuts := p.csbData.cuts + 1, lastUs := us } }
      let s := if p.csb = 0 then s
        else match s.putBlock p 0x0C (bytesOf 4 us) with
          | (s, true) => s
          | (s, false) => s.agentDrop pad
      .next (s.saveContext p)

/-! ### Reset (R305) -/

/-- Every launch that has not signalled completes as cancelled. -/
def Launch.cancel (l : Launch) : Launch := { l with cancelled := true, stage := 7, live := 0, job := none }

/-- A line of an inbound write is performed at device level (R379). -/
def State.landInbound (s : State) (x : Inbound) : State :=
  { s with inbound := s.inbound.erase x }.agentWriteAs x.pad x.pol x.part x.pa x.bytes

/-- No earlier line of the same requester holds the line back: it may pass earlier writes only with the relaxed-ordering attribute
(R380). -/
def State.mayLand (s : State) (x : Inbound) : Bool :=
  x.req.relaxed || (s.inbound.takeWhile (· != x)).all fun y => y.pad != x.pad || y.req.id != x.req.id

/-- The inbound lines of a paddock that are on their way are performed. -/
def State.landAll (s : State) (pad : Nat) : State :=
  (s.inbound.filter (·.pad == pad)).foldl (fun s x => s.landInbound x) s

/-- The paddock is reset: its cores, engines, stables, buffers, rail entries and queues are cleared. What its caches alone hold of
memory goes home first. DESIGN CHOICE (log entry 117): CORE_CYCLES of its cores counts from this reset on; R30 counts from the
core's reset, and no rule says whether this is one. DESIGN CHOICE (log entry 73): a DRAIN or CUT that the reset at CUTBOUND ends leaves RESULT
0 and no command-done bit; R302 and R305 give neither. -/
def State.resetPad (s : State) (p : Paddock) : State :=
  let cores := s.jobCores p.n
  let s := s.landAll p.n
  let dying := (s.launches.filter (·.pad == p.n)).map Launch.cancel
  let s := (s.l1.filter fun c => c.auth && cores.contains c.place).foldl (fun s c => s.spillL1 c.line) s
  let s := (s.takePad p 0).2
  let s := { s with
    launches := s.launches ++ dying
    coreBase := Cells.setMany 0 s.coreBase (cores.map fun c => (c, s.clock))
    l1 := s.l1.filter fun c => !cores.contains c.place
    queues := s.queues.filter (·.pad != p.n)
    notices := s.notices.filter fun n => n.src != 0 || n.pad != p.n }.grant
  let s := s.updPad p.n fun p =>
    { p with busy := false, result := 0, marked := [], trapBase := 0, fqBase := 0, inval := none
             zones := p.zones.map fun z => (z.1, { z.2 with enable := false })
             csbData := { p.csbData with resets := min 255 (p.csbData.resets + 1) }
             intStat := p.intStat ||| 4#5 }
  s.setSt p.n .reset

/-- The command RESET, which is done with the reset (R302, R305, R373). -/
def State.cmdReset (s : State) (p : Paddock) : State := (s.resetPad p).endCmd p.n 0

/-- RESET (R302, R305). -/
def execReset (pad : Nat) (s : State) : Out :=
  match s.pad? pad with
  | some p => .next (s.cmdReset p)
  | none => .next s

/-- CUTBOUND_EXPIRY (R305). -/
def execCutboundExpiry (pad : Nat) (s : State) : Out :=
  match s.pad? pad with
  | some p => .next (if p.st == .cutting then s.resetPad p else s)
  | none => .next s

/-! ### Resumption (R307) -/

/-- A list sorted by a key, largest first. -/
def sortDown {α : Type} (key : α → Nat) (xs : List α) : List α :=
  xs.foldl (fun acc x => acc.filter (fun y => decide (key x ≤ key y)) ++ [x] ++ acc.filter fun y => decide (key y < key x)) []

/-- The cores that a context has state on. -/
def Context.cores (x : Context) : List Nat :=
  ((x.troops.filter fun t => !t.ended).map (·.core) ++ (x.mangers.filter fun m => m.recs != []).map (·.core) ++
    (x.rings.filter fun r => r.head != r.tail).map (·.core) ++ x.batches.map (·.core) ++ x.steals.map (·.thief)).dedup

/-- The clusters that a context has state on, and its cores in each. -/
def Context.clusters (x : Context) : List (Nat × List Nat) :=
  let shadow := x.lines.filterMap fun l => match l.space with | .clu c => some c | _ => none
  ((x.cores.map clusterOf ++ shadow).dedup).map fun c => (c, x.cores.filter fun k => clusterOf k == c)

/-- Each saved cluster to a granted one, and each saved core to a core of it that `on` names; none when they do not fit. -/
def Context.mapOnto (x : Context) (granted : List Nat) (on : Nat → List Nat) : Option (List (Nat × Nat) × List (Nat × Nat)) :=
  let from_ := sortDown (fun c => c.2.length) x.clusters
  let dst := sortDown (fun c => c.2.length) (granted.map fun c => (c, on c))
  if from_.length ≤ dst.length && (from_.zip dst).all fun p => Nat.ble p.1.2.length p.2.2.length then
    some ((from_.zip dst).map fun p => (p.1.1, p.2.1), (from_.zip dst).flatMap fun p => p.1.2.zip p.2.2)
  else none

/-- The cores that a context resumes on: enabled ones, and those under test only where the others do not do (R307, R444). -/
def State.mapCores (s : State) (x : Context) (granted : List Nat) : Option (List (Nat × Nat) × List (Nat × Nat)) :=
  (x.mapOnto granted fun c => (s.clusterCores c).filter fun k => !s.scanning.contains k).or (x.mapOnto granted s.clusterCores)

/-- A number under a map, itself where the map has no entry. -/
def mapped (m : List (Nat × Nat)) (n : Nat) : Nat := ((m.find? (·.1 == n)).map (·.2)).getD n

/-- The map of cores as a permutation of the paddock's cores: those that it does not name take the places left over. -/
def completeMap (m : List (Nat × Nat)) (cores : List Nat) : List (Nat × Nat) :=
  let src := cores.filter fun c => !m.any (·.1 == c)
  let dst := cores.filter fun c => !m.any (·.2 == c)
  m ++ src.zip dst

def ReqWho.move (w : ReqWho) (f : Nat → Nat) : ReqWho :=
  match w with
  | .cell c n k => .cell (f c) n k
  | .task c j b => .task (f c) j b
  | w => w

/-- A saved request on its new core. -/
def RailEnt.move (e : RailEnt) (f : Nat → Nat) : RailEnt :=
  { e with core := f e.core, die := dieOf (f e.core), who := e.who.move f, fid := 0 }

/-- A job on its new cores: its rings keep their addresses (R345). -/
def Job.move (j : Job) (f : Nat → Nat) (cores : List Nat) : Job :=
  { j with cancelCores := j.cancelCores.map f
           homes := cores.map fun c => (f c, ((j.homes.find? (·.1 == c)).map (·.2)).getD c) }

/-- An engine operation on its new core: the nodes that a walk has taken at its issue are of that core (R178). -/
def EngOp.move (e : EngOp) (f : Nat → Nat) : EngOp :=
  { e with tree := e.tree.map fun (y : Node) => { y with core := f y.core }
           work := e.work.map fun (y : Node) => { y with core := f y.core } }

def BufLine.move (l : BufLine) (g : Nat → Nat) : BufLine :=
  match l.space with
  | .clu c => { l with space := .clu (g c) }
  | _ => l

def Launch.move (l : Launch) (f : Nat → Nat) : Launch := { l with cores := l.cores.map f }

/-- A queue continues from its saved read index; a registration and a doorbell since then stand. -/
def mergeQueues (saved now : List Queue) : List Queue :=
  saved.foldl (fun qs q =>
    if qs.any fun x => x.pad == q.pad && x.qid == q.qid then
      updFirst (fun x => x.pad == q.pad && x.qid == q.qid) (fun x => { x with rd := q.rd }) qs
    else qs ++ [q]) now

/-- A line that was translated and not performed is requested again after a cut (R304, R307). -/
def LineReq.again (l : LineReq) : LineReq :=
  match l.st with
  | .ready .. => { l with st := .fresh, sure := false }
  | _ => l

/-- The context returns to the machine, on cores that are scrubbed as for a dispatch (R371). -/
def State.restore (s : State) (p : Paddock) (x : Context) (g f : Nat → Nat) (cores : List Nat) : State :=
  let s := x.troops.foldl (fun s t => if t.ended then s else s.scrub p.n t.secure (f t.core)) s
  let s := { s with
    strs := s.strs ++ x.strs.map fun (z : Str) => { z with core := f z.core, age := 0, issued := false }
    troops := s.troops ++ x.troops.map fun (t : Troop) => { t with core := f t.core }
    tandems := s.tandems ++ x.tandems
    bars := s.bars ++ x.bars
    lines := s.lines ++ x.lines.map fun (l : BufLine) => l.move g
    accs := s.accs ++ x.accs.map fun (a : Access) => { a with lines := a.lines.map LineReq.again }
    ops := s.ops ++ x.ops.map fun (o : SysOp) => { o with cores := o.cores.map f }
    engs := s.engs ++ x.engs.map fun (e : EngOp) => e.move f
    pendJ := s.pendJ ++ x.pendJ
    nodes := s.nodes ++ x.nodes.map fun (y : Node) => { y with core := f y.core }
    ranges := s.ranges ++ x.ranges
    partials := s.partials ++ x.partials
    mangers := s.mangers ++ x.mangers.map fun (m : Manger) => { m with core := f m.core }
    rings := s.rings ++ x.rings.map fun (r : Ring) => { r with core := f r.core }
    batches := s.batches ++ x.batches.map fun (b : Batch) => { b with core := f b.core }
    steals := s.steals ++ x.steals.map fun (y : Steal) => { y with thief := f y.thief }
    jobs := s.jobs ++ x.jobs.map fun (j : Job) => j.move f cores
    launches := s.launches ++ x.launches.map fun (l : Launch) => l.move f
    queues := mergeQueues x.queues s.queues
    refusals := s.refusals ++ x.refusals.map fun (r : ReqWho × Cause) => (r.1.move f, r.2)
    contexts := s.contexts.erase x }
  let landed := (x.cores.map f).dedup
  let s := landed.foldl (fun s c => (s.acquire c .sys fun _ => true).trimL1 c) s
  x.railed.foldl (fun s e => s.present (e.move f)) s

/-- The command RESUME (R302, R307). -/
def State.cmdResume (s : State) (p : Paddock) (slot : Nat) : State :=
  let granted := (List.range 32).filter fun c => p.clMask.getLsbD c
  if p.busy then s.refuseCmd p.n 1
  else if p.st == .running then s.refuseCmd p.n 4
  else if p.slots ≤ slot then s.refuseCmd p.n 2
  else if !granted.all p.clusters.contains then s.refuseCmd p.n 6
  else
    match s.contexts.find? fun x => x.pad == p.n && x.slot == slot with
    | none => s.refuseCmd p.n 5
    | some x =>
      match s.mapCores x granted with
      | none => s.refuseCmd p.n 3
      | some (cm, km) =>
        let cores := s.jobCores p.n
        let perm := completeMap km cores
        let s := s.abortScans (km.map (·.2))
        ((s.restore p x (mapped cm) (mapped perm) cores).setSt p.n .running).endCmd p.n 0

/-- RESUME (R307). -/
def execResume (pad : Nat) (slot : Byte) (s : State) : Out :=
  match s.pad? pad with
  | some p => .next (s.cmdResume p slot.toNat)
  | none => .next s

end Sys2Proof.Machine
end

