-- ==== Sys2Proof/Machine/Ed25519.lean ====
section
/-! DEFINITION. The Ed25519 public key and signature that R384 names; the manual takes the scheme from RFC 8032. -/

namespace Sys2Proof

/-- The field of the curve, and the order of its base point. -/
def edP : Nat := 2 ^ 255 - 19
def edL : Nat := 2 ^ 252 + 27742317777372353535851937790883648493

/-- The powers by squaring of `n` bits of an exponent, the lowest first. -/
def edPow : Nat → Nat → Nat → Nat → Nat
  | 0, _, _, acc => acc
  | n + 1, x, e, acc => edPow n (x * x % edP) (e / 2) (if e % 2 = 1 then acc * x % edP else acc)

def edInv (x : Nat) : Nat := edPow 255 x (edP - 2) 1

/-- The curve's constant d. -/
def edD : Nat := (edP - 121665) * edInv 121666 % edP

/-- A point in extended coordinates. -/
structure EdPoint where
  x : Nat
  y : Nat
  z : Nat
  t : Nat
  deriving DecidableEq, Repr

def edZero : EdPoint := { x := 0, y := 1, z := 1, t := 0 }

def edBase : EdPoint :=
  let x := 15112221349535400772501151409588531511454012693041857206046113283949847762202
  let y := 46316835694926478169428394003475163141307993866256225615783033603165251855960
  { x := x, y := y, z := 1, t := x * y % edP }

def EdPoint.add (p q : EdPoint) : EdPoint :=
  let a := (p.y + edP - p.x) * (q.y + edP - q.x) % edP
  let b := (p.y + p.x) * (q.y + q.x) % edP
  let c := 2 * edD * p.t * q.t % edP
  let d := 2 * p.z * q.z % edP
  let e := b + edP - a
  let f := d + edP - c
  let g := d + c
  let h := b + a
  { x := e * f % edP, y := g * h % edP, z := f * g % edP, t := e * h % edP }

/-- The multiple of a point by `n` bits of a scalar, the lowest first. -/
def EdPoint.mul : Nat → EdPoint → Nat → EdPoint → EdPoint
  | 0, _, _, acc => acc
  | n + 1, p, k, acc => EdPoint.mul n (p.add p) (k / 2) (if k % 2 = 1 then acc.add p else acc)

/-- The 32 bytes of a point. -/
def EdPoint.bytes (p : EdPoint) : List Byte :=
  let i := edInv p.z
  bytesOf 32 (p.y * i % edP + p.x * i % edP % 2 * 2 ^ 255)

/-- The secret scalar of a key. -/
def edScalar (key : List Byte) : Nat :=
  natOfBytes ((sha512 key).take 32) / 8 * 8 % 2 ^ 254 + 2 ^ 254

/-- The public key of a secret key. -/
def edPublic (key : List Byte) : List Byte := (EdPoint.mul 256 edBase (edScalar key) edZero).bytes

/-- The 64 bytes of the signature of some bytes by a secret key. -/
def edSign (key msg : List Byte) : List Byte :=
  let r := natOfBytes (sha512 ((sha512 key).drop 32 ++ msg)) % edL
  let rb := (EdPoint.mul 256 edBase r edZero).bytes
  let k := natOfBytes (sha512 (rb ++ edPublic key ++ msg)) % edL
  rb ++ bytesOf 32 ((r + k * edScalar key) % edL)

end Sys2Proof
end

