-- ==== Sys2Proof/Machine/Registers.lean ====
section
/-! DEFINITION. The register page of a paddock's function and of PF0 (R302, R361, R373, R374, R378): each offset's effect, and
the events that are writes of one register: doorbells, queue registration, page-table roots, the ownership snapshot, the fault
queue and its records, resolutions and invalidations. -/

namespace Sys2Proof.Machine

/-- Bits hi to lo of a written value, in place; the others are reserved and read as zero (R6). -/
def keepBits (x : Dword) (hi lo : Nat) : Dword := BitVec.ofNat 64 (bitsNat x hi lo * 2 ^ lo)

/-- The low word of a written value. -/
def lowWord (x : Dword) : Word := x.setWidth 32

/-! ### The fault queue (R364) -/

/-- The words of a fault record. -/
def Notice.words (n : Notice) : List Nat :=
  [n.va % 2 ^ 56,
   n.fid * 2 ^ 16 + n.kinds.toNat * 2 ^ 8 + n.lvl * 2 ^ 6 + (if n.secure then 32 else 0) + (if n.super then 0 else 16),
   n.pad * 2 ^ 8 + n.src * 4 + n.die, 0]

/-- The fault queue has no free slot. -/
def Paddock.fqFull (p : Paddock) : Bool := (p.fqWr - p.fqRd).toNat == 2 ^ (p.fqLog + 6)

/-- The notices that this device's fault processor keeps for a paddock, in the order of their arrival. -/
def State.keptNotices (s : State) (pad : Nat) : List Notice :=
  s.notices.filter fun n => n.isOpen && !n.posted && n.home == 0 && n.homePad == pad

/-- The record of the oldest kept notice is written, when the queue can take it; a page that is not present and a refusal
keep it (R456). -/
def State.postRecord (s : State) (pad : Nat) : State :=
  match s.pad? pad, (s.keptNotices pad).head? with
  | some p, some n =>
    if p.fqBase = 0 || p.fqFull then s
    else
      let va := p.fqBase.toNat + 32 * (p.fqWr.toNat % 2 ^ (p.fqLog + 6))
      match s.agentStore pad false true va (n.words.flatMap (bytesOf 8)) with
      | (s, .ok _) =>
        let s := { s with notices := updFirst (· == n) (fun n => { n with posted := true }) s.notices }
        s.updPad pad fun p => { p with fqWr := p.fqWr + 1, intStat := p.intStat ||| 1#5 }
      | (s, _) => s
  | _, _ => s

/-- The processor posts what it can. -/
def State.postAll : Nat → State → Nat → State
  | 0, s, _ => s
  | n + 1, s, pad => State.postAll n (s.postRecord pad) pad

def State.postKept (s : State) (pad : Nat) : State := s.postAll (s.keptNotices pad).length pad

/-- FAULT_RECORD_POST (R364). -/
def execFaultRecordPost (pad : Nat) (s : State) : Out := .next (s.postRecord pad)

/-- A write of FQBASE, FQLOG or FQRD, after which the processor tries again (R364). -/
def State.writeFaultReg (s : State) (pad off : Nat) (val : Dword) : State :=
  match off with
  | 0x040 => (s.updPad pad fun p => { p with fqBase := keepBits val 55 12 }).postKept pad
  | 0x048 => (s.updPad pad fun p => { p with fqLog := bitsNat val 3 0 }).postKept pad
  | 0x054 => (s.updPad pad fun p => { p with fqRd := lowWord val }).postKept pad
  | _ => s

/-- FAULT_QUEUE_REG_WRITE (R361, R364). -/
def execFaultQueueRegWrite (pad off : Nat) (val : Dword) (s : State) : Out := .next (s.writeFaultReg pad off val)

/-! ### Resolutions (R361, R365) -/

/-- The requesting die and the requesting device of SRC. -/
def srcDie (src : BitVec 8) : Nat := bitsNat src 1 0
def srcDev (src : BitVec 8) : Nat := bitsNat src 7 2

/-- FRESOLVE with OUT 0 (R365). -/
def execFresolveReplay (pad : Nat) (src : BitVec 8) (fid : BitVec 24) (s : State) : Out :=
  .next (s.resolve pad (srcDev src) (srcDie src) fid.toNat none)

/-- FRESOLVE with OUT 1 (R365). -/
def execFresolveRefusePageFault (pad : Nat) (src : BitVec 8) (fid : BitVec 24) (s : State) : Out :=
  .next (s.resolve pad (srcDev src) (srcDie src) fid.toNat (some .pageFault))

/-- FRESOLVE with OUT 2 (R365). -/
def execFresolveRefusePermission (pad : Nat) (src : BitVec 8) (fid : BitVec 24) (s : State) : Out :=
  .next (s.resolve pad (srcDev src) (srcDie src) fid.toNat (some .permission))

/-- A write of FRESOLVE (R361); OUT 3 to 15 is ignored. -/
def State.writeResolve (s : State) (pad : Nat) (val : Dword) : State :=
  let die := bitsNat val 33 32
  let dev := bitsNat val 39 34
  let fid := bitsNat val 23 0
  match bitsNat val 31 28 with
  | 0 => s.resolve pad dev die fid none
  | 1 => s.resolve pad dev die fid (some .pageFault)
  | 2 => s.resolve pad dev die fid (some .permission)
  | _ => s

/-! ### Invalidation (R361, R368) -/

/-- A write of INVCNT. -/
def State.writeInvCnt (s : State) (pad cnt : Nat) : State :=
  match s.pad? pad with
  | some p => if p.inval.isSome then s else (s.startInval pad (p.invVa.toNat / 65536) cnt none).postKept pad
  | none => s

/-- INVCNT_WRITE (R361, R368). -/
def execInvcntWrite (pad : Nat) (cnt : BitVec 31) (s : State) : Out := .next (s.writeInvCnt pad cnt.toNat)

/-- INVALIDATION_COMPLETE (R368): of one that a register write started. -/
def execInvalidationComplete (pad : Nat) (s : State) : Out :=
  match s.pad? pad with
  | some p => match p.inval with
    | some v => .next (if v.op.isNone && s.invalDone pad v then s.endInval pad v else s)
    | none => .next s
  | none => .next s

/-! ### Roots (R356, R361) -/

/-- A write of PTROOT or SPTROOT: the translations that derive from it go. SPTROOT is root's. -/
def State.writeRoot (s : State) (pad : Nat) (secure asRoot : Bool) (val : Dword) : State :=
  if secure && !asRoot then s
  else
    let x := keepBits val 55 13
    let s := s.updPad pad fun p => if secure then { p with sptRoot := x } else { p with ptRoot := x }
    { s with tlb := s.tlb.filter fun e => !(e.pad == pad && e.secure == secure) }

/-- PTROOT_WRITE (R361). -/
def execPtrootWrite (pad : Nat) (secure asRoot : Bool) (val : Dword) (s : State) : Out :=
  .next (s.writeRoot pad secure asRoot val)

/-! ### The ownership snapshot (R363) -/

/-- One entry of the table; none when it is malformed. -/
def parseOwner (bs : List Byte) : Option Owner :=
  let q0 := natOfBytes (bs.take 8)
  let q1 := natOfBytes (bs.drop 8)
  let home := q1 / 2 ^ 32 % 256
  let len := q1 % 2 ^ 32
  if 2 ^ 56 ≤ q0 || q0 % 2 ^ 26 != 0 || 2 ^ 45 ≤ q1 || 31 < home || len = 0 then none
  else some { base := q0, len := len, home := home, homePad := q1 / 2 ^ 40 % 32 }

/-- Every entry, or none when one is malformed. -/
def parseOwners : List (List Byte) → Option (List Owner)
  | [] => some []
  | x :: xs => match parseOwner x, parseOwners xs with
    | some o, some os => some (o :: os)
    | _, _ => none

/-- A write of OWNCNT takes a snapshot, whole or not at all. -/
def State.writeOwnCnt (s : State) (pad cnt : Nat) : State :=
  match s.pad? pad with
  | none => s
  | some p =>
    if 256 < cnt then s
    else
      match s.agentLoad pad false true p.ownBase.toNat (16 * cnt) with
      | (s, .ok bs) => match parseOwners (chunks 16 cnt bs) with
        | some os => s.updPad pad fun p => { p with ownCnt := cnt, owners := os }
        | none => s
      | (s, _) => s

/-- OWNCNT_WRITE (R361, R363). -/
def execOwncntWrite (pad : Nat) (cnt : BitVec 9) (s : State) : Out := .next (s.writeOwnCnt pad cnt.toNat)

/-! ### Queues (R288, R289, R373) -/

/-- The queue of a descriptor; none when it breaks R288. -/
def parseQueue (pad qid : Nat) (bs : List Byte) : Option Queue :=
  let base := natOfBytes (bs.take 8)
  let rd := natOfBytes ((bs.drop 8).take 8)
  let c := natOfBytes ((bs.drop 16).take 4)
  let kind := c / 64 % 4
  let logn := c % 16
  if 2 ^ 56 ≤ base || base % 4096 != 0 || 2 ^ 56 ≤ rd || rd % 8 != 0 || 256 ≤ c || kind = 3 || 10 < logn ||
      (bs.drop 24).any (· != 0) then none
  else some { pad := pad, qid := qid, kind := kind, prioMax := c / 16 % 4, logn := logn + 6, base := base, rdPtr := rd
              rd := 0, door := 0 }

/-- Registers a queue from the descriptor at an address: the new state and QRES. A secure queue is registered by the mailbox
alone. -/
def State.register (s : State) (pad qid desc : Nat) (secure : Bool) : State × Nat :=
  if (s.queue? pad qid).isSome then (s, 2)
  else
    match s.agentLoad pad secure true desc 64 with
    | (s, .ok bs) =>
      match parseQueue pad qid bs with
      | some q =>
        if q.kind = 2 && !secure then (s, 4)
        else if secure && q.kind != 2 then (s, 1)
        else
          let s := { s with queues := s.queues ++ [q] }
          match s.pad? pad with
          | some p => (if p.st == .saved || p.st == .reset then s.setSt pad .running else s, 0)
          | none => (s, 0)
      | none => (s, 1)
    | (s, _) => (s, 1)

/-- QOP 1 (R373). -/
def State.registerQueue (s : State) (pad qid : Nat) : State :=
  match s.pad? pad with
  | some p =>
    let (s, r) := s.register pad qid p.qDesc.toNat false
    s.updPad pad fun p => { p with qRes := r }
  | none => s

/-- QOP 2 (R373): a queue that holds a packet goes only when its paddock is halted. -/
def State.unregisterQueue (s : State) (pad qid : Nat) : State :=
  match s.pad? pad with
  | some p =>
    if (s.queue? pad qid).isNone then s.updPad pad fun p => { p with qRes := 3 }
    else if !(s.queued pad qid).isEmpty && p.st != .saved && p.st != .reset then s.updPad pad fun p => { p with qRes := 5 }
    else
      { s with queues := s.queues.filter fun q => !(q.pad == pad && q.qid == qid) }.updPad pad fun p => { p with qRes := 0 }
  | none => s

/-- QUEUE_REGISTER (R288, R373). -/
def execQueueRegister (pad : Nat) (qid : BitVec 6) (s : State) : Out := .next (s.registerQueue pad qid.toNat)

/-- QUEUE_UNREGISTER (R373). -/
def execQueueUnregister (pad : Nat) (qid : BitVec 6) (s : State) : Out := .next (s.unregisterQueue pad qid.toNat)

/-- A doorbell: taken, or ignored and counted (R289, R373). -/
def State.ringDoorbell (s : State) (pad q : Nat) (val : Dword) : State :=
  let bad := s.countErr pad fun e => { e with doorbellErrs := inc32 e.doorbellErrs }
  match s.queue? pad q with
  | none => bad
  | some x =>
    if val.toNat < x.rd || x.rd + 2 ^ x.logn < val.toNat then bad
    else { s with queues := updFirst (fun y => y.pad == pad && y.qid == q) (fun y => { y with door := val.toNat }) s.queues }

/-- DOORBELL_WRITE (R289). -/
def execDoorbellWrite (pad q : Nat) (val : Dword) (s : State) : Out := .next (s.ringDoorbell pad q val)

/-! ### The page (R302, R361, R373, R378) -/

/-- A command of R302; 0 and 5 to 15 are ignored. -/
def State.writeCmd (s : State) (p : Paddock) (val : Dword) : State :=
  let slot := bitsNat val 7 0
  match bitsNat val 31 28 with
  | 1 => s.cmdDrain p slot
  | 2 => s.cmdCut p slot
  | 3 => s.cmdResume p slot
  | 4 => s.cmdReset p
  | _ => s

/-- A landing-zone word (R378). -/
def Zone.write (z : Zone) (second : Bool) (val : Dword) : Zone :=
  if second then { z with enable := val.getLsbD 34, ordered := val.getLsbD 33, pages := bitsNat val 31 0 }
  else { z with base := bitsNat val 55 16 }

def Paddock.zone (p : Paddock) (z : Nat) : Zone := Cells.get {} p.zones z

/-- A write at an offset of the page of a paddock's function. An offset that no row names ignores it. -/
def State.writeVf (s : State) (p : Paddock) (off : Nat) (val : Dword) : State :=
  let upd := s.updPad p.n
  match off with
  | 0x000 => s.writeCmd p val
  | 0x008 => upd fun p => { p with deadline := lowWord val }
  | 0x00C => upd fun p => { p with cutBound := lowWord val }
  | 0x010 => upd fun p => { p with clMask := lowWord val }
  | 0x018 => upd fun p => { p with csb := keepBits val 63 6 }
  | 0x020 => s.writeRoot p.n false false val
  | 0x030 => upd fun p => { p with ownBase := keepBits val 55 6 }
  | 0x038 => s.writeOwnCnt p.n (bitsNat val 8 0)
  | 0x040 => s.writeFaultReg p.n 0x040 val
  | 0x048 => s.writeFaultReg p.n 0x048 val
  | 0x054 => s.writeFaultReg p.n 0x054 val
  | 0x058 => s.writeResolve p.n val
  | 0x060 => upd fun p => { p with invVa := keepBits val 55 16 }
  | 0x068 => s.writeInvCnt p.n (bitsNat val 30 0)
  | 0x070 => upd fun p => { p with qDesc := keepBits val 55 6 }
  | 0x078 =>
    match bitsNat val 31 28 with
    | 1 => s.registerQueue p.n (bitsNat val 5 0)
    | 2 => s.unregisterQueue p.n (bitsNat val 5 0)
    | _ => s
  | 0x080 => upd fun p => { p with intStat := p.intStat &&& ~~~val.setWidth 5 }
  | 0x088 => upd fun p => { p with lzDrops := (lowWord val).toNat }
  | off =>
    if 0x100 ≤ off && off < 0x180 && off % 8 == 0 then
      let z := (off - 0x100) / 16
      upd fun p => { p with zones := Cells.set {} p.zones z ((p.zone z).write (off % 16 == 8) val) }
    else if 0x800 ≤ off && off < 0xA00 && off % 8 == 0 then s.ringDoorbell p.n ((off - 0x800) / 8) val
    else s

/-- The command block that MBCMD names, in host memory (R358, R374). -/
def State.readBlock (s : State) : List Dword :=
  let line := (2 ^ 55 + s.mailbox.cmd.toNat % 2 ^ 55) / 64
  (List.range 8).map fun i => BitVec.ofNat 64 (lineVal (memLine s.mem line) (8 * i) 8)

/-- A command starts: its block is read. One that no row of R374 names is malformed at once. -/
def State.startMailbox (s : State) : State :=
  let block := s.readBlock
  let code := bitsNat (block.headD 0) 7 0
  if 1 ≤ code && code ≤ 6 then { s with mailbox := { s.mailbox with busy := true, block := block } }
  else { s with mailbox := { s.mailbox with result := 1 } }

/-- A write at an offset of PF0's page (R374); MBSTAT is read-only. -/
def State.writePf0 (s : State) (off : Nat) (val : Dword) : State :=
  match off with
  | 0x000 => { s with mailbox := { s.mailbox with cmd := keepBits val 55 6 } }
  | 0x008 => if val = 1 && !s.mailbox.busy then s.startMailbox else s
  | _ => s

/-- What a read at an offset of PF0's page gives. -/
def State.readPf0 (s : State) (off : Nat) : Dword :=
  match off with
  | 0x000 => s.mailbox.cmd
  | 0x00C => BitVec.ofNat 64 ((if s.mailbox.busy then 2 ^ 31 else 0) + s.mailbox.result)
  | _ => 0

/-- REGISTER_WRITE (R6, R302, R361, R373, R374): at an offset of the page of paddock `fn`, or of PF0. DESIGN CHOICE (log entry 116):
the page of a function whose paddock does not exist ignores writes. A start that has failed exposes no function but PF0 (R382). -/
def execRegisterWrite (fn : Option Nat) (off : Nat) (val : Dword) (s : State) : Out :=
  match fn with
  | none => .next (s.writePf0 off val)
  | some n => match s.pad? n with
    | some p => .next (if s.ready then s.writeVf p off val else s)
    | none => .next s

/-- What a read at an offset of a paddock's page gives, to software below root or to root, which alone reads SPTROOT (R361). -/
def Paddock.readReg (p : Paddock) (off : Nat) (asRoot : Bool := false) : Dword :=
  match off with
  | 0x004 => BitVec.ofNat 64 (p.result * 256 + if p.busy then 1 else 0)
  | 0x008 => p.deadline.setWidth 64
  | 0x00C => p.cutBound.setWidth 64
  | 0x010 => p.clMask.setWidth 64
  | 0x018 => p.csb
  | 0x020 => p.ptRoot
  | 0x028 => if asRoot then p.sptRoot else 0
  | 0x030 => p.ownBase
  | 0x038 => BitVec.ofNat 64 p.ownCnt
  | 0x040 => p.fqBase
  | 0x048 => BitVec.ofNat 64 p.fqLog
  | 0x050 => p.fqWr.setWidth 64
  | 0x054 => p.fqRd.setWidth 64
  | 0x060 => p.invVa
  | 0x068 => if p.inval.isSome then 0x80000000#64 else 0
  | 0x070 => p.qDesc
  | 0x07C => BitVec.ofNat 64 p.qRes
  | 0x080 => p.intStat.setWidth 64
  | 0x088 => BitVec.ofNat 64 p.lzDrops
  | off =>
    if 0x100 ≤ off && off < 0x180 && off % 8 == 0 then
      let z := p.zone ((off - 0x100) / 16)
      if off % 16 == 8 then
        BitVec.ofNat 64 ((if z.enable then 2 ^ 34 else 0) + (if z.ordered then 2 ^ 33 else 0) + z.pages)
      else BitVec.ofNat 64 (z.base * 65536)
    else 0

/-- The registers of a function whose paddock does not exist: their reset values. -/
def emptyPage (n : Nat) : Paddock := { n := n, clusters := [], regions := [], grants := 0, peers := 0, slots := 0, secure := false }

/-- What a read of the page of function n + 1 gives. DESIGN CHOICE (log entry 116): where paddock n does not exist, the reset values of
its fields. -/
def State.readVf (s : State) (n off : Nat) (asRoot : Bool := false) : Dword :=
  ((s.pad? n).getD (emptyPage n)).readReg off asRoot

end Sys2Proof.Machine
end

