-- ==== Sys2Proof/Machine/Device.lean ====
section
/-! DEFINITION. The whole device: the mailbox and its commands (R374, R384), the host link and landing zones (R376 to R380), the
Dwezer peers (R381), cold and warm starts (R382, R383), power and cooling (R385), the patrol scrubber and the scan test (R441,
R444, R445). -/

namespace Sys2Proof.Machine

/-! ### Physical bytes -/

/-- Bytes at an address cut at the ends of lines. -/
def cutLines : Nat → Nat → List Byte → List (Nat × List Byte)
  | 0, _, _ => []
  | fuel + 1, a, bs =>
    if bs.isEmpty then []
    else
      let k := 64 - a % 64
      (a, bs.take k) :: cutLines fuel (a + k) (bs.drop k)

def linePieces (a : Nat) (bs : List Byte) : List (Nat × List Byte) := cutLines (bs.length / 64 + 2) a bs

/-- Writes physical bytes as an agent, line by line. -/
def State.writePhys (s : State) (pad pa : Nat) (bs : List Byte) : State :=
  (linePieces pa bs).foldl (fun s x => s.agentWrite pad x.1 x.2) s

/-- Reads physical bytes as an agent; nothing when a line is uncorrectable. -/
def State.readPhys (s : State) (pad pa n : Nat) : State × Option (List Byte) :=
  (linePieces pa (List.replicate n 0)).foldl (fun (s, r) x => match r with
    | some bs => match s.agentRead pad x.1 x.2.length with
      | (s, some more) => (s, some (bs ++ more))
      | (s, none) => (s, none)
    | none => (s, none)) (s, some [])

/-- An address of host memory, from its PCIe address. -/
def hostPa (a : Nat) : Nat := 2 ^ 55 + a % 2 ^ 55

/-! ### Clearing (R305, R371, R374, R383) -/

/-- A line of this device within regions. -/
def inRegions (rs : List Region) (pa : Nat) : Bool :=
  Decidable.decide (pa < 2 ^ 38) && rs.any fun r => Decidable.decide (r.first ≤ pa / 2 ^ 30) && Decidable.decide (pa / 2 ^ 30 < r.first + r.count)

/-- Zero is written to every byte of some regions: every copy, and every write on its way there, goes. -/
def State.zeroRegions (s : State) (rs : List Region) : State :=
  let hit := fun (line : Nat) => inRegions rs (64 * line)
  { s with
    mem := s.mem.filter fun (c : Host.Cell) => !inRegions rs c.1
    llc := s.llc.filter fun (l : LlcLine) => !hit l.line
    l1 := s.l1.filter fun (l : CacheLine) => !hit l.line
    l2 := s.l2.filter fun (l : CacheLine) => !hit l.line
    writes := s.writes.filter fun (w : HomeWrite) => !hit w.line
    poison := s.poison.filter fun l => !hit l
    upsets := s.upsets.filter fun (u : Nat × Nat) => !hit u.1 }

/-- Everything that caches hold alone is written to its home. -/
def State.writeBackAll (s : State) : State :=
  let s := (s.l1.filter (·.auth)).foldl (fun s c => s.spillL1 c.line) s
  let s := (s.l2.filter (·.auth)).foldl (fun s c => s.spillL2 c.line) s
  s.llc.foldl (fun s l => s.dropLlc l.line) s

/-- The completion signals that a reset paddock has still to write are written, where their pages are there (R305). -/
def State.lastSignals (s : State) (pad : Nat) : State :=
  (s.launches.filter fun l => l.pad == pad && l.cancelled && l.dword 10 != 0).foldl (fun s l =>
    (s.agentStore pad (l.kind == 2) (l.kind == 1) l.signal (bytesOf 8 (s.signalValue l))).1) s

/-- The writes on their way of some cores are performed whole: each reaches its L2 slice, and from there its home, in the order of the
slice and of its core (R232, R377). -/
def State.landWrites (s : State) (cores : List Nat) : State :=
  let mine := fun (s : State) => s.writes.filter fun w => cores.contains w.core
  let s := ((mine s).filter (!·.atL2)).foldl State.arriveL2 s
  (mine s).foldl (fun s w => s.drainDie (dieOf w.core) w.line) s

/-- The paddock's record and everything that is its own go: the writes on their way are performed whole, and with them the release
rounds of its cores end (R305, R375). -/
def State.removePad (s : State) (p : Paddock) : State :=
  let cores := s.jobCores p.n
  let s := s.landWrites cores
  let s := (((s.landAll p.n).lastSignals p.n).takePad p 0).2
  { s with
    rounds := s.rounds.filter fun r => !cores.contains r.core
    pads := s.pads.filter (·.n != p.n)
    queues := s.queues.filter (·.pad != p.n)
    notices := s.notices.filter fun n => if n.src = 0 then n.pad != p.n else n.homePad != p.n
    contexts := s.contexts.filter (·.pad != p.n)
    tlb := s.tlb.filter (·.pad != p.n)
    lastHeld := s.lastHeld.filter fun (h : Nat × Nat × Bool) => !cores.contains h.1
    l1 := s.l1.filter fun (c : CacheLine) => !cores.contains c.place }

/-! ### Paddock creation (R374) -/

/-- The region that bits [16i + 15:16i] of q3 name. -/
def regionOf (q3 : Dword) (i : Nat) : Region :=
  { first := bitsNat q3 (16 * i + 7) (16 * i), count := bitsNat q3 (16 * i + 14) (16 * i + 8), secure := q3.getLsbD (16 * i + 15) }

/-- The GiB of a region. -/
def Region.gibs (r : Region) : List Nat := (List.range r.count).map (r.first + ·)

/-- A GiB that root can give: on a die of this device, backed, and not kept for itself, the 256 MiB per die of R382 among that, or for
shadow storage (R200). -/
def gibOk (g : Nat) : Bool := Decidable.decide (g < 256) && Decidable.decide (g % 64 < 60) && g % 64 != Config.firmwareGiB (g / 64) % 60 &&
  !Config.keptGiB g

/-- No GiB twice. -/
def noRepeat : List Nat → Bool
  | [] => true
  | g :: gs => !gs.contains g && noRepeat gs

/-- The die of a cluster. -/
def clusterDie (c : Nat) : Nat := c / 8

/-- The MiB of shadow storage of a die that a paddock's slots take. -/
def Paddock.shadow (p : Paddock) (die : Nat) : Nat := 20 * p.slots * (p.clusters.filter (clusterDie · == die)).length

/-- The regions can be given: they overlap nothing and are backed, and no die has more than 16 secure ones. -/
def State.regionsOk (s : State) (rs : List Region) : Bool :=
  let all := s.pads.flatMap (·.regions) ++ rs
  let new := rs.flatMap Region.gibs
  new.all gibOk && noRepeat (all.flatMap Region.gibs) &&
    (List.range 4).all fun d => Decidable.decide ((all.filter fun r => r.secure && r.gibs.any (· / 64 == d)).length ≤ 16)

/-- The slots fit the shadow storage of every die. -/
def State.shadowOk (s : State) (p : Paddock) : Bool :=
  (List.range 4).all fun d =>
    Decidable.decide (p.shadow d + sum ((s.pads.filter (·.secure == p.secure)).map (·.shadow d)) ≤ Config.shadowMiB p.secure d)

/-- The paddock that a command names; none when the command is malformed. -/
def parseCreate (q : List Dword) : Option Paddock :=
  let w := fun i => q.getD i 0
  let n := bitsNat (w 0) 30 28
  let slots := bitsNat (w 0) 27 24
  let clusters := (List.range 32).filter fun c => (w 1).getLsbD c
  let rs := (List.range n).map (regionOf (w 3))
  if bitsNat (w 0) 15 13 != 0 || bitsNat (w 0) 23 17 != 0 || bitsNat (w 0) 63 31 != 0 || bitsNat (w 1) 63 32 != 0 ||
      bitsNat (w 2) 32 16 != 0 || (q.drop 4).any (· != 0) || slots < 1 || 8 < slots || n < 1 || 4 < n || clusters.isEmpty ||
      rs.any fun r => r.count == 0 then none
  else some { n := bitsNat (w 0) 12 8, clusters := clusters, regions := rs, grants := (w 2).setWidth 16
              peers := BitVec.ofNat 32 (2 * bitsNat (w 2) 63 33), slots := slots, secure := (w 0).getLsbD 16 }

/-- The result of a creation (R374). -/
def State.createResult (s : State) (p : Paddock) : Nat :=
  if (s.pad? p.n).isSome then 2
  else if p.clusters.any fun c => s.pads.any (·.clusters.contains c) || (s.clusterCores c).isEmpty then 3
  else if !s.regionsOk p.regions then 4
  else if !s.shadowOk p then 5
  else if !p.secure && p.regions.any (·.secure) then 7
  else 0

/-! ### The mailbox (R374) -/

/-- A command in progress ends with a result. -/
def State.endMailbox (s : State) (result : Nat) : State :=
  { s with mailbox := { s.mailbox with busy := false, result := result, block := [] } }

/-- The command in progress has this code: its effect and its result. -/
def State.mailboxCmd (s : State) (code : Nat) (go : List Dword → State × Nat) : State :=
  if s.mailbox.busy && bitsNat (s.mailbox.block.headD 0) 7 0 == code then
    let (s, r) := go s.mailbox.block
    s.endMailbox r
  else s

/-- The words of a command hold nothing but what a mask for each of them names. -/
def onlyBits (q masks : List Dword) : Bool := ((List.range 8).map fun i => q.getD i 0 &&& ~~~masks.getD i 0).all (· == 0)

def State.createPad (s : State) (q : List Dword) : State × Nat :=
  match parseCreate q with
  | none => (s, 1)
  | some p => match s.createResult p with
    | 0 => ({ s with pads := s.pads ++ [{ p with outRows := s.excluded }] }, 0)
    | r => (s, r)

/-- PADDOCK_CREATE (R374). -/
def execPaddockCreate (s : State) : Out := .next (s.mailboxCmd 1 s.createPad)

/-- The paddock has no context: nothing of it is resident and no packet is in flight. -/
def State.idlePad (s : State) (pad : Nat) : Bool := !s.hasResident pad && s.launches.all fun l => l.pad != pad

def State.destroyPad (s : State) (q : List Dword) : State × Nat :=
  if !onlyBits q [0x1FFF#64] then (s, 1)
  else
    match s.pad? (bitsNat (q.headD 0) 12 8) with
    | none => (s, 2)
    | some p =>
      if p.st == .saved || p.st == .reset || s.idlePad p.n then ((s.removePad p).zeroRegions p.regions, 0) else (s, 6)

/-- PADDOCK_DESTROY (R374). -/
def execPaddockDestroy (s : State) : Out := .next (s.mailboxCmd 2 s.destroyPad)

def State.secureQueue (s : State) (q : List Dword) : State × Nat :=
  if !onlyBits q [0x3F1FFF#64, 0x00FFFFFFFFFFFFC0#64] then (s, 1)
  else
    match s.pad? (bitsNat (q.headD 0) 12 8) with
    | none => (s, 2)
    | some p =>
      if !p.secure then (s, 7)
      else
        match s.register p.n (bitsNat (q.headD 0) 21 16) (q.getD 1 0).toNat true with
        | (s, 0) => (s, 0)
        | (s, _) => (s, 1)

/-- QUEUE_SECURE (R374). -/
def execQueueSecure (s : State) : Out := .next (s.mailboxCmd 3 s.secureQueue)

/-! ### Attestation (R384) -/

/-- The paddock table as numbers. -/
def State.padTable (s : State) : List (List Nat) :=
  s.pads.map fun p => [p.n, if p.secure then 1 else 0, p.slots, p.grants.toNat, p.peers.toNat] ++ p.clusters ++
    p.regions.flatMap fun r => [r.first, r.count, if r.secure then 1 else 0]

/-- The secret key of the device (R382). -/
def deviceKey : List Byte := (List.range 32).map Config.deviceKey

/-- Bytes 0x000 to 0x0DF of the report, for a nonce. -/
def State.reportBody (s : State) (nonce : List Byte) : List Byte :=
  bytesOf 4 1 ++ bytesOf 4 940 ++ (List.range 16).map Config.serial ++ bytesOf 4 (if s.warm then 1 else 0) ++
    bytesOf 4 (256 - s.removed.length) ++ nonce ++ sha512 Config.firmware ++
    sha512 (Config.tableBytes s.padTable) ++ edPublic deviceKey

def State.report (s : State) (nonce : List Byte) : List Byte :=
  let body := s.reportBody nonce
  body ++ edSign deviceKey body

def State.attest (s : State) (q : List Dword) : State × Nat :=
  let all := BitVec.allOnes 64
  if !onlyBits q [0xFF#64, all, all, all, all, 0x00FFFFFFFFFFFFC0#64] then (s, 1)
  else
    let nonce := ((q.drop 1).take 4).flatMap fun x => bytesOf 8 x.toNat
    (s.writePhys 0 (hostPa (q.getD 5 0).toNat) (s.report nonce), 0)

/-- ATTEST (R384). -/
def execAttest (s : State) : Out := .next (s.mailboxCmd 4 s.attest)

/-- The 4 KiB of READ_INFO (R374). -/
def infoBuffer : List Byte :=
  let n := 1 + Config.certLen % 4088
  bytesOf 4 1 ++ bytesOf 4 n ++ (List.range n).map Config.cert ++ List.replicate (4088 - n) 0

def State.readInfo (s : State) (q : List Dword) : State × Nat :=
  if !onlyBits q [0xFF#64, 0x00FFFFFFFFFFFFC0#64] || s.hostFail then (s, 1)
  else (s.writePhys 0 (hostPa (q.getD 1 0).toNat) infoBuffer, 0)

/-- READ_INFO (R374): malformed, or failing on the host link, it writes nothing. -/
def execReadInfo (s : State) : Out := .next (s.mailboxCmd 6 s.readInfo)

/-! ### Starts (R382, R383) -/

/-- A cold start that has failed: PF0 exposes only the mailbox (R382). -/
def State.coldFail (s : State) : State :=
  { State.reset with
    mem := s.mem.filter fun (c : Host.Cell) => Decidable.decide (2 ^ 38 ≤ c.1)
    removed := s.removed, repairs := s.repairs, excluded := s.excluded, repairOverflow := s.repairOverflow, answers := s.answers
    nextId := s.nextId, script := s.script, ready := false, mailbox := { result := 0xFF } }

/-- The listed rows that a cold start cannot repair: their banks have no spare left (R443). -/
def State.unrepaired (s : State) : List Nat := s.repairs.filter (Config.noSpare s.nextId)

/-- A cold start: what is not in non-volatile storage or outside the device is as after reset. The pending repairs are made, but for
those that find no spare, whose rows stay listed and leave every region; the cores that BIST finds failing leave the map (R382, R443,
R445). -/
def State.coldOk (s : State) (badCores : List Nat) : State :=
  { State.reset with
    mem := s.mem.filter fun (c : Host.Cell) => Decidable.decide (2 ^ 38 ≤ c.1)
    removed := s.removed ++ badCores.filter fun c => Decidable.decide (c < 256) && !s.removed.contains c
    repairs := s.unrepaired, excluded := s.excluded ++ s.unrepaired.filter fun r => !s.excluded.contains r
    repairOverflow := s.repairOverflow, answers := s.answers, nextId := s.nextId, script := s.script }

/-- COLD_START (R382). -/
def execColdStart (ok : Bool) (badCores : List Nat) (s : State) : Out :=
  .next (if ok then s.coldOk badCores.dedup else s.coldFail)

/-- A warm start (R383): every paddock is reset and goes, secure regions are zeroed, and every other DRAM byte keeps its value. The Dwezer links are
trained again. -/
def State.warmStart (s : State) : State :=
  let secure := (s.pads.flatMap (·.regions)).filter (·.secure)
  let s := (s.pads.foldl (fun s p => ((s.resetPad p).syncBlocks).removePad p) s).writeBackAll.zeroRegions secure
  { State.reset with
    clock := s.clock, mem := s.mem, partTable := s.partTable, removed := s.removed, poison := s.poison, upsets := s.upsets
    repairs := s.repairs, ceSeen := s.ceSeen, patrol := s.patrol, repairOverflow := s.repairOverflow, excluded := s.excluded
    hostFail := s.hostFail, warm := true, ready := s.ready, mhz := s.mhz, answers := s.answers, nextId := s.nextId, script := s.script
    mailbox := { s.mailbox with busy := false, result := 0, block := [] } }

/-- A cold start to which a warm start has escalated, with what its steps and its BIST come to (R382, R383). -/
def State.escalate (s : State) : State :=
  let bad := (List.range 256).filter (Config.bistFails s.nextId)
  let s1 := { s with nextId := s.nextId + 1 }
  if Config.coldWorks s.nextId then s1.coldOk bad else s1.coldFail

/-- A start whose steps fail escalates to a cold start (R383). -/
def State.warmOr (s : State) (ok : Bool) : State := if ok then s.warmStart else s.escalate

/-- WARM_START (R383). -/
def execWarmStart (ok : Bool) (s : State) : Out :=
  .next (s.mailboxCmd 5 fun q => if onlyBits q [0xFF#64] then
    (let u := s.warmOr ok; (u, u.mailbox.result)) else (s, 1))

/-- FLR of PF0 (R376): a warm start, of which a failure escalates (R383). -/
def execPf0Flr (s : State) : Out := .next (s.warmOr !s.firmwareFail)

/-- FLR of the function of a paddock (R376). -/
def execVfFlr (pad : Nat) (s : State) : Out :=
  match s.pad? pad with
  | some p => .next (s.resetPad p)
  | none => .next s

/-! ### Power and cooling (R385) -/

/-- THROTTLE (R385). -/
def execThrottle (steps : Nat) (s : State) : Out := .next { s with mhz := max 1200 (s.mhz - 100 * steps) }

/-- THERMAL_TRIP (R385). -/
def execThermalTrip (s : State) : Out :=
  .next (s.pads.foldl (fun s p =>
    (s.resetPad p).countErr p.n fun e => { e with thermalTrips := min 0xFFFF (e.thermalTrips + 1) }) s)

/-! ### Landing zones (R378 to R380) -/

/-- An inbound access is dropped and counted (R379). -/
def State.dropInbound (s : State) (pad : Nat) : State :=
  s.updPad pad fun p => { p with lzDrops := inc32 p.lzDrops, intStat := p.intStat ||| 8#5 }

/-- The virtual address of an inbound access of `n` bytes; none outside an enabled zone. -/
def Paddock.zoneVa (p : Paddock) (zone off n : Nat) : Option Nat :=
  let z := p.zone zone
  if zone < 8 && z.enable && off + n ≤ z.pages * 65536 then some (z.base * 65536 + off) else none

/-- The lines of an inbound write, translated; none when a page is absent or refuses it. -/
def State.inboundLines (s : State) (pad : Nat) (req : Requester) : List (Nat × List Byte) → State × Option (List Inbound)
  | [] => (s, some [])
  | (va, bs) :: rest =>
    match s.translate none pad false false .write va with
    | (s, .ok pa pol part) =>
      let (id, s) := s.fresh
      match State.inboundLines s pad req rest with
      | (s, some xs) => (s, some ({ id := id, pad := pad, req := req, pa := pa, pol := pol, part := part, bytes := bs } :: xs))
      | r => r
    | (s, _) => (s, none)

/-- The inbound lines of a requester that no later write of its own may pass are performed (R380). -/
def State.landEarlier (s : State) (pad : Nat) (req : Requester) : State :=
  if req.relaxed then s
  else (s.inbound.filter fun x => x.pad == pad && x.req.id == req.id).foldl (fun s x => s.landInbound x) s

/-- INBOUND_PCIE_WRITE (R379, R380): dropped, or performed at device level. Into an ordered zone it is performed as it is received,
behind what its requester has written before; into another one each of its lines is performed whole in its own time. -/
def execInboundPcieWrite (pad zone off : Nat) (req : Requester) (poisoned : Bool) (data : List Byte) (s : State) : Out :=
  match s.pad? pad with
  | none => .next s
  | some p =>
    match p.zoneVa zone off data.length with
    | none => .next (s.dropInbound pad)
    | some va =>
      if poisoned then .next (s.dropInbound pad)
      else
        match s.inboundLines pad req (linePieces va data) with
        | (s, some xs) =>
          .next (if (p.zone zone).ordered then xs.foldl (fun s x => s.landInbound x) (s.landEarlier pad req)
            else { s with inbound := s.inbound ++ xs })
        | (s, none) => .next (s.dropInbound pad)

/-- The outside gets an answer. -/
def State.reply (s : State) (r : Reply) : State := { s with answers := s.answers ++ [r] }

/-- INBOUND_PCIE_READ (R379): device-level data, or Unsupported Request. It passes no posted write of the function. -/
def execInboundPcieRead (pad zone off len : Nat) (s : State) : Out :=
  match s.pad? pad with
  | none => .next (s.reply .unsupported)
  | some p =>
    match p.zoneVa zone off len with
    | none => .next ((s.dropInbound pad).reply .unsupported)
    | some va =>
      let s := s.landAll pad
      match s.agentLoad pad false false va len with
      | (s, .ok bs) => .next (s.reply (.bytes bs))
      | (s, _) => .next ((s.dropInbound pad).reply .unsupported)

/-! ### Peers (R370, R381) -/

/-- What a peer's request for some bytes of a paddock's regions is refused with. -/
def peerRefusal (p : Paddock) (pa n : Nat) : Option Cause :=
  let last := pa + (n - 1)
  let ok := fun a => Decidable.decide (a < 2 ^ 38) && p.reaches a
  if !ok pa || !ok last then some .permission
  else if p.securePa pa || p.securePa last then some .world
  else none

/-- What a peer's atomic does with the old value (R243, R283, R381): its size, and its new value for the operand bytes; none when it
is no atomic. -/
def peerCombine (data : List Byte) : PeerOp → Option (Nat × (Nat → Option Nat))
  | .read | .write => none
  | .atom fn ty => let w := ty.width / 8; some (w, fun old => atomNew .atom fn ty old (natOfBytes (data.take w)) 0)
  | .acas ty =>
    let w := ty.width / 8
    some (w, fun old => atomNew .acas 0 ty old (natOfBytes (data.take w)) (natOfBytes ((data.drop w).take w)))
  | .afadd ty => let w := ty.width / 8; some (w, fun old => atomNew .afadd 0 ty old (natOfBytes (data.take w)) 0)

/-- How many bytes a peer's request names. -/
def peerSize (data : List Byte) (op : PeerOp) : Nat := match peerCombine data op with | some (w, _) => w | none => data.length

/-- PEER_REQUEST (R381): a request that root pairs with paddock `pad`: a write of the bytes of `data`, a read of as many, or an atomic
with those operands, performed at the home LLC slice, to which the authority of its line first returns (R243, R244). -/
def execPeerRequest (peer pad : Nat) (pa : Addr) (what : PeerOp) (data : List Byte) (s : State) : Out :=
  if peer < 1 || 31 < peer || s.linkDown.contains peer then .next s
  else
    match s.pad? pad with
    | none => .next (s.reply (.refused .permission))
    | some p =>
      match peerRefusal p pa.toNat (peerSize data what) with
      | some c => .next (s.reply (.refused c))
      | none =>
        if what = .write then .next ((s.writePhys pad pa.toNat data).reply .done)
        else
          let own := if (peerCombine data what).isSome then
              (linePieces pa.toNat (List.replicate (peerSize data what) 0)).foldl (fun s x => s.returnAuth (x.1 / 64)) s else s
          match own.readPhys pad pa.toNat (peerSize data what) with
          | (s, some bs) =>
            let s := match peerCombine data what with
              | some (w, f) => match f (natOfBytes bs) with
                | some x => s.writePhys pad pa.toNat (bytesOf w x)
                | none => s
              | none => s
            .next (s.reply (.bytes bs))
          | (s, none) => .next (s.reply (.refused .uncorrectableMemory))

/-- PEER_LINK_LOSS (R381): each access to the peer is answered UNCORRECTABLE_MEMORY from here on, and each write on its way
there is lost when it arrives. -/
def execPeerLinkLoss (peer : Nat) (s : State) : Out :=
  .next (if 1 ≤ peer && peer ≤ 31 && !s.linkDown.contains peer then { s with linkDown := peer :: s.linkDown } else s)

/-! ### Patrol scrub and scan test (R441, R443 to R445) -/

/-- PATROL_SCRUB (R441): the counts of die d are at places 2d (corrected) and 2d + 1 (uncorrectable). -/
def execPatrolScrub (line : Nat) (s : State) : Out :=
  if !onDevice line || Decidable.decide (60 * 2 ^ 24 ≤ line % 2 ^ 30) then .next s
  else
    let count := fun (s : State) (i : Nat) =>
      let k := 2 * homeDie line + i
      { s with patrol := Cells.set 0 s.patrol k (Cells.get 0 s.patrol k + 1) }
    if s.poison.contains line then .next (count s 1)
    else
      match Cells.get 0 s.upsets line with
      | 0 => .next s
      | 1 => .next (count ({ s with upsets := Cells.erase line s.upsets }.noteCorrected line) 0)
      | _ => .next (count ({ s with upsets := Cells.erase line s.upsets, poison := line :: s.poison }.listRow line) 1)

/-- The core holds nothing that the test could lose: no troop, and no record of a job. -/
def State.idleCore (s : State) (core : Nat) : Bool :=
  (s.resident core).isEmpty && s.mangers.all (fun m => m.core != core || m.recs.isEmpty) &&
    s.rings.all (fun r => r.core != core || r.head == r.tail) && s.batches.all (·.core != core) && s.steals.all (·.thief != core)

/-- SCAN_TEST_START (R444). -/
def execScanTestStart (core : Nat) (s : State) : Out :=
  .next (if core < 256 && !s.removed.contains core && !s.scanning.contains core && s.idleCore core then
    { s with scanning := core :: s.scanning } else s)

/-- SCAN_TEST_COMPLETE (R444, R445): the core is scrubbed and returns, or leaves the map. -/
def execScanTestComplete (core : Nat) (pass : Bool) (s : State) : Out :=
  if !s.scanning.contains core then .next s
  else
    let s := s.endScan core
    if pass then .next s
    else
      let s := { s with removed := s.removed ++ [core] }
      .next (match s.padOf core with
        | some p => s.countErr p.n fun e => { e with coresRemoved := min 0xFFFF (e.coresRemoved + 1) }
        | none => s)

end Sys2Proof.Machine
end

