-- ==== Sys2Proof/Machine/Float.lean ====
section
/-! DEFINITION. Floating-point arithmetic (R116 to R124). -/

namespace Sys2Proof.Machine

/-- The exact difference (R116). -/
def fsubExact (rm : Rm) (x y : FNum) : FNum × Flags := x.add rm y.negate

def execFadd (o : Operands) (s : State) : Out :=
  s.issue (.fadd o) noCheck fun c z _ => s.fp2 c z o (FNum.add o.rm)

def execFsub (o : Operands) (s : State) : Out :=
  s.issue (.fsub o) noCheck fun c z _ => s.fp2 c z o (fsubExact o.rm)

def execFmul (o : Operands) (s : State) : Out :=
  s.issue (.fmul o) noCheck fun c z _ => s.fp2 c z o FNum.mul

def execFdiv (o : Operands) (s : State) : Out :=
  s.issue (.fdiv o) noCheck fun c z _ => s.fp2 c z o FNum.div

def execFfma (o : Operands) (s : State) : Out :=
  s.issue (.ffma o) noCheck fun c z _ => s.fpLanes c z o.ty o.d fun l i =>
    fpRound o.ty o.rm z.ftz (FNum.fma o.rm (z.fa o o.ty l i) (z.fb3 o o.ty l i) (z.fc o o.ty l i))

/-- FMIN and FMAX deliver an operand unrounded (R117). -/
def fminVal (x y : FNum) : FNum × Flags := (x.min y, x.pairFlag y)
def fmaxVal (x y : FNum) : FNum × Flags := (x.max y, x.pairFlag y)

def execFmin (o : Operands) (s : State) : Out :=
  s.issue (.fmin o) noCheck fun c z _ => s.fp2 c z o fminVal

def execFmax (o : Operands) (s : State) : Out :=
  s.issue (.fmax o) noCheck fun c z _ => s.fp2 c z o fmaxVal

def execFsetp (o : Operands) (s : State) : Out :=
  s.issue (.fsetp o) noCheck fun c z _ =>
    let rs := c.lanes.map fun l => (l, condNum o.fn.toNat (z.fa o o.ty l 0) (z.fb o o.ty l 0))
    s.fpEnd c z (orAll (rs.map (·.2.2))) fun s =>
      s.writeP c.sid (s.depthOf z) o.d.toNat (rs.map fun r => (r.1, r.2.1))

def execFrcp (o : Operands) (s : State) : Out :=
  s.issue (.frcp o) noCheck fun c z _ => s.fp1 c z o FNum.recip

def execFrcpExt (o : Operands) (s : State) : Out :=
  s.issue (.frcpExt o) noCheck fun c z _ => s.fp1 c z o FNum.recip

def execFrsq (o : Operands) (s : State) : Out :=
  s.issue (.frsq o) noCheck fun c z _ => s.fp1 c z o FNum.rsqrt

def execFrsqExt (o : Operands) (s : State) : Out :=
  s.issue (.frsqExt o) noCheck fun c z _ => s.fp1 c z o FNum.rsqrt

def execFsqrt (o : Operands) (s : State) : Out :=
  s.issue (.fsqrt o) noCheck fun c z _ => s.fp1 c z o FNum.sqrt

def execFsqrtExt (o : Operands) (s : State) : Out :=
  s.issue (.fsqrtExt o) noCheck fun c z _ => s.fp1 c z o FNum.sqrt

def execFexp2 (o : Operands) (s : State) : Out :=
  s.issue (.fexp2 o) noCheck fun c z _ => s.fp1 c z o FNum.exp2

def execFexp2Ext (o : Operands) (s : State) : Out :=
  s.issue (.fexp2Ext o) noCheck fun c z _ => s.fp1 c z o FNum.exp2

def execFlog2 (o : Operands) (s : State) : Out :=
  s.issue (.flog2 o) noCheck fun c z _ => s.fp1 c z o FNum.log2

def execFlog2Ext (o : Operands) (s : State) : Out :=
  s.issue (.flog2Ext o) noCheck fun c z _ => s.fp1 c z o FNum.log2

def execFsinp (o : Operands) (s : State) : Out :=
  s.issue (.fsinp o) noCheck fun c z _ => s.fp1 c z o FNum.sinpi

def execFsinpExt (o : Operands) (s : State) : Out :=
  s.issue (.fsinpExt o) noCheck fun c z _ => s.fp1 c z o FNum.sinpi

def execFcosp (o : Operands) (s : State) : Out :=
  s.issue (.fcosp o) noCheck fun c z _ => s.fp1 c z o FNum.cospi

def execFcospExt (o : Operands) (s : State) : Out :=
  s.issue (.fcospExt o) noCheck fun c z _ => s.fp1 c z o FNum.cospi

def execFrnd (o : Operands) (s : State) : Out :=
  s.issue (.frnd o) noCheck fun c z _ => s.fp1 c z o (FNum.roundIntegral o.rm)

def execFrndExt (o : Operands) (s : State) : Out :=
  s.issue (.frndExt o) noCheck fun c z _ => s.fp1 c z o (FNum.roundIntegral o.rm)

/-- The class of the raw bits after the sign modifiers (R121). -/
def State.fclassLanes (s : State) (c : Cur) (z : Str) (o : Operands) : State :=
  s.putLanes c z .b32 o.d fun l => classOf o.ty.fmt (signMod o.ty.width (elemBits o.ty (z.vval o.ty o.a.toNat l) 0) o.absa o.nega)

def execFclass (o : Operands) (s : State) : Out :=
  s.issue (.fclass o) noCheck fun c z _ => s.fclassLanes c z o

def execFclassExt (o : Operands) (s : State) : Out :=
  s.issue (.fclassExt o) noCheck fun c z _ => s.fclassLanes c z o

/-- The exact a × 2^n (R122). -/
def fscaleVal (n : Int) : FNum → FNum × Flags
  | .nan sig => (.nan false, if sig then flagNV else 0)
  | x => (x.scale n, 0)

def execFscale (o : Operands) (s : State) : Out :=
  s.issue (.fscale o) noCheck fun c z _ => s.fpLanes c z o.ty o.d fun l i =>
    fpRound o.ty o.rm z.ftz (fscaleVal (toSigned 32 (z.src o true .b32 o.b l)) (z.fa o o.ty l i))

/-- The significand in the format and the exponent as an i32 (R123). -/
def ffrxVal (t : Ty) (x : FNum) : Nat × Nat × Flags :=
  match x with
  | .nan sig => (t.fmt.nanBits, 0x80000000, if sig then flagNV else 0)
  | .inf n => ((t.fmt.encode .rne false (.inf n)).1, 0x7FFFFFFF, 0)
  | .fin n m e =>
    if m = 0 then ((t.fmt.encode .rne false x).1, 0, 0)
    else
      let (k, ex) := splitNum m e
      ((t.fmt.encode .rne false (.fin n m k)).1, wrapNat 32 ex, 0)

def State.ffrxLanes (s : State) (c : Cur) (z : Str) (o : Operands) : State :=
  let rs := c.lanes.map fun l => (l, ffrxVal o.ty (z.fa o o.ty l 0))
  s.fpEnd c z (orAll (rs.map (·.2.2.2))) fun s =>
    s.writeVal c.sid (s.depthOf z) .b64 o.d.toNat (rs.map fun r => (r.1, r.2.1 + r.2.2.1 * 2 ^ 32))

def execFfrx (o : Operands) (s : State) : Out :=
  s.issue (.ffrx o) noCheck fun c z _ => s.ffrxLanes c z o

def execFfrxExt (o : Operands) (s : State) : Out :=
  s.issue (.ffrxExt o) noCheck fun c z _ => s.ffrxLanes c z o

/-- A part of a cf32 register pair, negated on demand (R124). -/
def cpart (z : Str) (n : Byte) (l i : Nat) (neg : Bool) : FNum :=
  Ty.f32.decode z.ftz (signMod 32 (z.vreg (n.toNat + i) l).toNat false neg)

/-- An exact sum of two products and an addend, with the flags of an invalid sum or product. DESIGN CHOICE (log entry 137), twice: the
terms are added from left to right by the rules for two operands (R116), so the sign of an exact zero is that of the second sum, and
opposite infinities raise NV only where no NaN stands before them; R124 speaks of neither. -/
def mulMulAdd (rm : Rm) (p q : FNum × Flags) (x : FNum) : FNum × Flags :=
  let (a, f) := p.1.add rm q.1
  let (r, g) := a.add rm x
  (r, p.2 ||| q.2 ||| f ||| g)

def execCfma (o : Operands) (s : State) : Out :=
  s.issue (.cfma o) noCheck fun c z _ =>
    let rs := c.lanes.map fun l =>
      let ar := cpart z o.a l 0 o.nega
      let ai := cpart z o.a l 1 o.nega
      let br := cpart z o.b l 0 o.negb
      let bi := cpart z o.b l 1 (o.negb != o.spec)
      let m := ai.mul bi
      let re := fpRound .f32 o.rm z.ftz (mulMulAdd o.rm (ar.mul br) (m.1.negate, m.2) (cpart z o.c l 0 o.negc))
      let im := fpRound .f32 o.rm z.ftz (mulMulAdd o.rm (ar.mul bi) (ai.mul br) (cpart z o.c l 1 o.negc))
      (l, re.1 + im.1 * 2 ^ 32, re.2 ||| im.2)
    s.fpEnd c z (orAll (rs.map (·.2.2))) fun s =>
      s.writeVal c.sid (s.depthOf z) .b64 o.d.toNat (rs.map fun r => (r.1, r.2.1))

end Sys2Proof.Machine
end

