-- ==== Sys2Proof/Machine/Lane.lean ====
section
/-! DEFINITION. Between lanes and the string: VTOS and STOV (R108), the string-uniform ALU (R109), the lane exchanges
(R110, R111), and the reductions and scans with their stated orders (R90, R91, R112). -/

namespace Sys2Proof.Machine

/-! ### VTOS and STOV (R108) -/

/-- The lowest-numbered participant's register A. -/
def State.vtosLanes (s : State) (c : Cur) (z : Str) (o : Operands) : State :=
  match c.lanes with
  | [] => s
  | l :: _ => s.putScalar c z o.d (if o.spec then z.vpair o.a.toNat l else (z.vreg o.a.toNat l).setWidth 64)

def State.stovLanes (s : State) (c : Cur) (z : Str) (o : Operands) : State :=
  s.putLanes c z (if o.spec then .b64 else .b32) o.d fun _ =>
    if o.spec then (z.sreg o.a.toNat).toNat else (z.sreg o.a.toNat).toNat % 2 ^ 32

def execVtos (o : Operands) (s : State) : Out :=
  s.issue (.vtos o) noCheck fun c z _ => s.vtosLanes c z o

def execVtosExt (o : Operands) (s : State) : Out :=
  s.issue (.vtosExt o) noCheck fun c z _ => s.vtosLanes c z o

def execStov (o : Operands) (s : State) : Out :=
  s.issue (.stov o) noCheck fun c z _ => s.stovLanes c z o

def execStovExt (o : Operands) (s : State) : Out :=
  s.issue (.stovExt o) noCheck fun c z _ => s.stovLanes c z o

/-! ### The string-uniform ALU (R109) -/

/-- SADD, SSUB and SMUL: exact, reduced to the type. -/
def State.scalarInt (s : State) (c : Cur) (z : Str) (o : Operands) (f : Int → Int → Int) : State :=
  s.putScalar c z o.d (BitVec.ofNat 64 (o.ty.reduce o.sat
    (f (o.ty.intVal (z.ssrc o false o.a).toNat) (o.ty.intVal (z.ssrc o true o.b).toNat))))

def execSadd (o : Operands) (s : State) : Out :=
  s.issue (.sadd o) noCheck fun c z _ => s.scalarInt c z o (· + ·)

def execSsub (o : Operands) (s : State) : Out :=
  s.issue (.ssub o) noCheck fun c z _ => s.scalarInt c z o (· - ·)

def execSmul (o : Operands) (s : State) : Out :=
  s.issue (.smul o) noCheck fun c z _ => s.scalarInt c z o (· * ·)

def execSand (o : Operands) (s : State) : Out :=
  s.issue (.sand o) noCheck fun c z _ => s.putScalar c z o.d (z.ssrc o false o.a &&& z.ssrc o true o.b)

def execSor (o : Operands) (s : State) : Out :=
  s.issue (.sor o) noCheck fun c z _ => s.putScalar c z o.d (z.ssrc o false o.a ||| z.ssrc o true o.b)

def execSshl (o : Operands) (s : State) : Out :=
  s.issue (.sshl o) noCheck fun c z _ => s.putScalar c z o.d (z.ssrc o false o.a <<< min 64 (z.ssrc o true o.b).toNat)

def execSshr (o : Operands) (s : State) : Out :=
  s.issue (.sshr o) noCheck fun c z _ => s.putScalar c z o.d
    (if o.ty.isSigned then (z.ssrc o false o.a).sshiftRight (min 64 (z.ssrc o true o.b).toNat)
     else z.ssrc o false o.a >>> min 64 (z.ssrc o true o.b).toNat)

def execScmp (o : Operands) (s : State) : Out :=
  s.issue (.scmp o) noCheck fun c z _ => s.putScalar c z o.d
    (if condInt o.c.toNat (o.ty.intVal (z.ssrc o false o.a).toNat) (o.ty.intVal (z.ssrc o true o.b).toNat) then 1 else 0)

/-! ### Lane exchange (R110, R111) -/

/-- The source lane of SHFL: outside 0 to 31 the lane keeps its own value. -/
def shflLane (fn l b : Nat) : Nat :=
  match fn with
  | 0 => b % 32
  | 1 => if b ≤ l then l - b else l
  | 2 => if l + b ≤ 31 then l + b else l
  | _ => l ^^^ (b % 32)

def execShfl (o : Operands) (s : State) : Out :=
  s.issue (.shfl o) noCheck fun c z _ => s.putLanes c z o.ty o.d fun l =>
    z.vval o.ty o.a.toNat (shflLane o.fn.toNat l (z.src o true .b32 o.b l))

/-- The participants whose register A is not zero (R111). -/
def ballot (c : Cur) (z : Str) (o : Operands) : Mask := maskOf (c.lanes.filter fun l => z.vreg o.a.toNat l != 0)

/-- VOTE.all, .any and .ballot by FN. -/
def voteVal (c : Cur) (z : Str) (o : Operands) : Nat :=
  match o.fn.toNat with
  | 0 => if ballot c z o = c.parts then 1 else 0
  | 1 => if ballot c z o = 0 then 0 else 1
  | _ => (ballot c z o).toNat

def execVote (o : Operands) (s : State) : Out :=
  s.issue (.vote o) noCheck fun c z _ => s.putLanes c z .b32 o.d fun _ => voteVal c z o

def execVoteExt (o : Operands) (s : State) : Out :=
  s.issue (.voteExt o) noCheck fun c z _ => s.putLanes c z .b32 o.d fun _ => voteVal c z o

/-- The participants whose value equals that of lane `l` (R111). -/
def matchMask (c : Cur) (z : Str) (o : Operands) (l : Nat) : Mask :=
  maskOf (c.lanes.filter fun j => z.vval o.ty o.a.toNat j == z.vval o.ty o.a.toNat l)

def execMatchLanes (o : Operands) (s : State) : Out :=
  s.issue (.matchLanes o) noCheck fun c z _ => s.putLanes c z .b32 o.d fun l => (matchMask c z o l).toNat

def execMatchLanesExt (o : Operands) (s : State) : Out :=
  s.issue (.matchLanesExt o) noCheck fun c z _ => s.putLanes c z .b32 o.d fun l => (matchMask c z o l).toNat

def execElect (o : Operands) (s : State) : Out :=
  s.issue (.elect o) noCheck fun c z _ => s.putPreds c z o.d fun l => c.lanes.head? == some l

/-! ### Reductions and scans (R90, R91, R112) -/

/-- The integer operators of R56 by FN: add, min, max, and, or, xor. -/
def intOp (t : Ty) (fn : Nat) (a b : Int) : Int :=
  match fn with
  | 0 => a + b
  | 1 => min a b
  | 2 => max a b
  | 3 => t.intVal (wrapNat t.width a &&& wrapNat t.width b)
  | 4 => t.intVal (wrapNat t.width a ||| wrapNat t.width b)
  | _ => t.intVal (wrapNat t.width a ^^^ wrapNat t.width b)

/-- Folds a nonempty list from its first element. -/
def fold1 (f : Int → Int → Int) : List Int → Int
  | [] => 0
  | x :: xs => xs.foldl f x

/-- The integer reduction over lanes, exact until it is reduced (R112). -/
def intReduce (z : Str) (o : Operands) (ls : List Nat) : Nat :=
  wrInt o.ty o.sat (fold1 (intOp o.ty o.fn.toNat) (ls.map fun l => o.ty.intVal (z.vval o.ty o.a.toNat l)))

/-- One step of an f32 reduction: add rounds RNE, min and max follow FMIN and FMAX (R90). -/
def f32Step (fn : Nat) (ftz : Bool) (x y : FNum) : FNum × Flags :=
  match fn with
  | 0 =>
    let (bits, f) := fpRound .f32 .rne ftz (x.add .rne y)
    (Ty.f32.decode ftz bits, f)
  | 1 => (x.min y, x.pairFlag y)
  | _ => (x.max y, x.pairFlag y)

/-- The identity of the operator for lanes outside the bundle (R90). -/
def f32Ident (fn : Nat) : FNum := match fn with | 0 => .fin false 0 0 | 1 => .inf false | _ => .inf true

/-- One level of the tree of R90: element l with element l + d. -/
def treeLevel (fn : Nat) (ftz : Bool) (d : Nat) (ys : List FNum) : List (FNum × Flags) :=
  (List.range d).map fun l => f32Step fn ftz (ys.getD l (f32Ident fn)) (ys.getD (l + d) (f32Ident fn))

/-- The tree of R90 over 32 values. -/
def treeReduce (fn : Nat) (ftz : Bool) : List Nat → List FNum → Flags → FNum × Flags
  | [], ys, f => (ys.getD 0 (f32Ident fn), f)
  | d :: ds, ys, f =>
    let r := treeLevel fn ftz d ys
    treeReduce fn ftz ds (r.map (·.1)) (f ||| orAll (r.map (·.2)))

/-- A lane's f32 value of register A with the input flush. -/
def Str.f32In (z : Str) (o : Operands) (l : Nat) : FNum := Ty.f32.decode z.ftz (z.vreg o.a.toNat l).toNat

def execLred (o : Operands) (s : State) : Out :=
  s.issue (.lred o) noCheck fun c z _ =>
    if o.ty = .f32 then
      let ys := (List.range 32).map fun l => if c.parts.getLsbD l then z.f32In o l else f32Ident o.fn.toNat
      let (r, f) := treeReduce o.fn.toNat z.ftz [16, 8, 4, 2, 1] ys 0
      s.fpEnd c z (if c.parts = 0 then 0 else f) fun s =>
        s.putLanes c z .f32 o.d fun _ => (Ty.f32.encode .rne z.ftz r).1
    else s.putLanes c z o.ty o.d fun _ => intReduce z o c.lanes

/-- The inclusive scan of R91 over the participants: the value of each lane, and the flags. -/
def f32Scan (fn : Nat) (ftz : Bool) (val : Nat → FNum) : Option FNum → List Nat → List (Nat × FNum) × Flags
  | _, [] => ([], 0)
  | none, l :: ls =>
    let (rs, f) := f32Scan fn ftz val (some (val l)) ls
    ((l, val l) :: rs, (val l).sigFlag ||| f)
  | some r, l :: ls =>
    let (x, g) := f32Step fn ftz r (val l)
    let (rs, f) := f32Scan fn ftz val (some x) ls
    ((l, x) :: rs, g ||| f)

/-- The pattern a scan delivers: of a sum the first lane's own bits under the input flush (R91), else the rounded value; a NaN of a
scan built on FMIN or FMAX is canonical in every lane (R71). -/
def scanBits (z : Str) (o : Operands) (first : Option Nat) (l : Nat) (x : FNum) : Nat :=
  if o.fn = 0 && first == some l && x.isNan then (z.vreg o.a.toNat l).toNat else (Ty.f32.encode .rne z.ftz x).1

def execLscan (o : Operands) (s : State) : Out :=
  s.issue (.lscan o) noCheck fun c z _ =>
    if o.ty = .f32 then
      let (rs, f) := f32Scan o.fn.toNat z.ftz (z.f32In o) none c.lanes
      s.fpEnd c z f fun s =>
        s.writeVal c.sid (s.depthOf z) .f32 o.d.toNat (rs.map fun r => (r.1, scanBits z o c.lanes.head? r.1 r.2))
    else s.putLanes c z o.ty o.d fun l => intReduce z o (c.lanes.filter (· ≤ l))

end Sys2Proof.Machine
end

