-- ==== Sys2Proof/Machine/Dispatch.lean ====
section
/-! DEFINITION. The dispatch: one arm for each constructor of `Instr`, each a direct call of its meaning. -/

namespace Sys2Proof.Machine

def exec (i : Instr) (s : State) : Host.Outcome State Fault Refusal :=
  match i with
  | .bra o => Sys2Proof.Machine.execBra o s
  | .braLong o => Sys2Proof.Machine.execBraLong o s
  | .pblk o => Sys2Proof.Machine.execPblk o s
  | .movi o => Sys2Proof.Machine.execMovi o s
  | .trap o => Sys2Proof.Machine.execTrap o s
  | .bkpt o => Sys2Proof.Machine.execBkpt o s
  | .scall o => Sys2Proof.Machine.execScall o s
  | .nop o => Sys2Proof.Machine.execNop o s
  | .jmpi o => Sys2Proof.Machine.execJmpi o s
  | .call o => Sys2Proof.Machine.execCall o s
  | .ret o => Sys2Proof.Machine.execRet o s
  | .yld o => Sys2Proof.Machine.execYld o s
  | .exit o => Sys2Proof.Machine.execExit o s
  | .tret o => Sys2Proof.Machine.execTret o s
  | .sread o => Sys2Proof.Machine.execSread o s
  | .sreadExt o => Sys2Proof.Machine.execSreadExt o s
  | .swrite o => Sys2Proof.Machine.execSwrite o s
  | .swriteExt o => Sys2Proof.Machine.execSwriteExt o s
  | .waitv o => Sys2Proof.Machine.execWaitv o s
  | .tlbi o => Sys2Proof.Machine.execTlbi o s
  | .cflush o => Sys2Proof.Machine.execCflush o s
  | .cinv o => Sys2Proof.Machine.execCinv o s
  | .iadd o => Sys2Proof.Machine.execIadd o s
  | .isub o => Sys2Proof.Machine.execIsub o s
  | .imul o => Sys2Proof.Machine.execImul o s
  | .imad o => Sys2Proof.Machine.execImad o s
  | .imin o => Sys2Proof.Machine.execImin o s
  | .imax o => Sys2Proof.Machine.execImax o s
  | .iabs o => Sys2Proof.Machine.execIabs o s
  | .iabsExt o => Sys2Proof.Machine.execIabsExt o s
  | .and o => Sys2Proof.Machine.execAnd o s
  | .or o => Sys2Proof.Machine.execOr o s
  | .xor o => Sys2Proof.Machine.execXor o s
  | .shl o => Sys2Proof.Machine.execShl o s
  | .shr o => Sys2Proof.Machine.execShr o s
  | .sar o => Sys2Proof.Machine.execSar o s
  | .rot o => Sys2Proof.Machine.execRot o s
  | .bfx o => Sys2Proof.Machine.execBfx o s
  | .bfi o => Sys2Proof.Machine.execBfi o s
  | .popc o => Sys2Proof.Machine.execPopc o s
  | .popcExt o => Sys2Proof.Machine.execPopcExt o s
  | .clz o => Sys2Proof.Machine.execClz o s
  | .clzExt o => Sys2Proof.Machine.execClzExt o s
  | .ctz o => Sys2Proof.Machine.execCtz o s
  | .ctzExt o => Sys2Proof.Machine.execCtzExt o s
  | .brev o => Sys2Proof.Machine.execBrev o s
  | .brevExt o => Sys2Proof.Machine.execBrevExt o s
  | .isetp o => Sys2Proof.Machine.execIsetp o s
  | .mov o => Sys2Proof.Machine.execMov o s
  | .movExt o => Sys2Proof.Machine.execMovExt o s
  | .isel o => Sys2Proof.Machine.execIsel o s
  | .pand o => Sys2Proof.Machine.execPand o s
  | .por o => Sys2Proof.Machine.execPor o s
  | .pxor o => Sys2Proof.Machine.execPxor o s
  | .pnot o => Sys2Proof.Machine.execPnot o s
  | .pnotExt o => Sys2Proof.Machine.execPnotExt o s
  | .adda o => Sys2Proof.Machine.execAdda o s
  | .lea o => Sys2Proof.Machine.execLea o s
  | .vtos o => Sys2Proof.Machine.execVtos o s
  | .vtosExt o => Sys2Proof.Machine.execVtosExt o s
  | .stov o => Sys2Proof.Machine.execStov o s
  | .stovExt o => Sys2Proof.Machine.execStovExt o s
  | .sadd o => Sys2Proof.Machine.execSadd o s
  | .ssub o => Sys2Proof.Machine.execSsub o s
  | .sand o => Sys2Proof.Machine.execSand o s
  | .sor o => Sys2Proof.Machine.execSor o s
  | .sshl o => Sys2Proof.Machine.execSshl o s
  | .sshr o => Sys2Proof.Machine.execSshr o s
  | .smul o => Sys2Proof.Machine.execSmul o s
  | .scmp o => Sys2Proof.Machine.execScmp o s
  | .idiv o => Sys2Proof.Machine.execIdiv o s
  | .irem o => Sys2Proof.Machine.execIrem o s
  | .fadd o => Sys2Proof.Machine.execFadd o s
  | .fsub o => Sys2Proof.Machine.execFsub o s
  | .fmul o => Sys2Proof.Machine.execFmul o s
  | .ffma o => Sys2Proof.Machine.execFfma o s
  | .fmin o => Sys2Proof.Machine.execFmin o s
  | .fmax o => Sys2Proof.Machine.execFmax o s
  | .fsetp o => Sys2Proof.Machine.execFsetp o s
  | .frcp o => Sys2Proof.Machine.execFrcp o s
  | .frcpExt o => Sys2Proof.Machine.execFrcpExt o s
  | .frsq o => Sys2Proof.Machine.execFrsq o s
  | .frsqExt o => Sys2Proof.Machine.execFrsqExt o s
  | .fsqrt o => Sys2Proof.Machine.execFsqrt o s
  | .fsqrtExt o => Sys2Proof.Machine.execFsqrtExt o s
  | .fdiv o => Sys2Proof.Machine.execFdiv o s
  | .fexp2 o => Sys2Proof.Machine.execFexp2 o s
  | .fexp2Ext o => Sys2Proof.Machine.execFexp2Ext o s
  | .flog2 o => Sys2Proof.Machine.execFlog2 o s
  | .flog2Ext o => Sys2Proof.Machine.execFlog2Ext o s
  | .fsinp o => Sys2Proof.Machine.execFsinp o s
  | .fsinpExt o => Sys2Proof.Machine.execFsinpExt o s
  | .fcosp o => Sys2Proof.Machine.execFcosp o s
  | .fcospExt o => Sys2Proof.Machine.execFcospExt o s
  | .frnd o => Sys2Proof.Machine.execFrnd o s
  | .frndExt o => Sys2Proof.Machine.execFrndExt o s
  | .fclass o => Sys2Proof.Machine.execFclass o s
  | .fclassExt o => Sys2Proof.Machine.execFclassExt o s
  | .fscale o => Sys2Proof.Machine.execFscale o s
  | .ffrx o => Sys2Proof.Machine.execFfrx o s
  | .ffrxExt o => Sys2Proof.Machine.execFfrxExt o s
  | .cvt o => Sys2Proof.Machine.execCvt o s
  | .cvti o => Sys2Proof.Machine.execCvti o s
  | .qnt o => Sys2Proof.Machine.execQnt o s
  | .dqnt o => Sys2Proof.Machine.execDqnt o s
  | .pack o => Sys2Proof.Machine.execPack o s
  | .unpk o => Sys2Proof.Machine.execUnpk o s
  | .shfl o => Sys2Proof.Machine.execShfl o s
  | .vote o => Sys2Proof.Machine.execVote o s
  | .voteExt o => Sys2Proof.Machine.execVoteExt o s
  | .lred o => Sys2Proof.Machine.execLred o s
  | .lscan o => Sys2Proof.Machine.execLscan o s
  | .matchLanes o => Sys2Proof.Machine.execMatchLanes o s
  | .matchLanesExt o => Sys2Proof.Machine.execMatchLanesExt o s
  | .elect o => Sys2Proof.Machine.execElect o s
  | .cfma o => Sys2Proof.Machine.execCfma o s
  | .ld o => Sys2Proof.Machine.execLd o s
  | .st o => Sys2Proof.Machine.execSt o s
  | .lds o => Sys2Proof.Machine.execLds o s
  | .sts o => Sys2Proof.Machine.execSts o s
  | .prfm o => Sys2Proof.Machine.execPrfm o s
  | .brmk o => Sys2Proof.Machine.execBrmk o s
  | .brld o => Sys2Proof.Machine.execBrld o s
  | .brq o => Sys2Proof.Machine.execBrq o s
  | .acq o => Sys2Proof.Machine.execAcq o s
  | .commit o => Sys2Proof.Machine.execCommit o s
  | .abort o => Sys2Proof.Machine.execAbort o s
  | .cqry o => Sys2Proof.Machine.execCqry o s
  | .cropen o => Sys2Proof.Machine.execCropen o s
  | .crclose o => Sys2Proof.Machine.execCrclose o s
  | .radd o => Sys2Proof.Machine.execRadd o s
  | .ldts o => Sys2Proof.Machine.execLdts o s
  | .atom o => Sys2Proof.Machine.execAtom o s
  | .acas o => Sys2Proof.Machine.execAcas o s
  | .afadd o => Sys2Proof.Machine.execAfadd o s
  | .atoms o => Sys2Proof.Machine.execAtoms o s
  | .bar o => Sys2Proof.Machine.execBar o s
  | .barv o => Sys2Proof.Machine.execBarv o s
  | .bwait o => Sys2Proof.Machine.execBwait o s
  | .bexp o => Sys2Proof.Machine.execBexp o s
  | .bstat o => Sys2Proof.Machine.execBstat o s
  | .cwait o => Sys2Proof.Machine.execCwait o s
  | .acpy o => Sys2Proof.Machine.execAcpy o s
  | .acpy2 o => Sys2Proof.Machine.execAcpy2 o s
  | .agath o => Sys2Proof.Machine.execAgath o s
  | .acoll o => Sys2Proof.Machine.execAcoll o s
  | .mma o => Sys2Proof.Machine.execMma o s
  | .mmaj o => Sys2Proof.Machine.execMmaj o s
  | .mlease o => Sys2Proof.Machine.execMlease o s
  | .tdef o => Sys2Proof.Machine.execTdef o s
  | .tidx o => Sys2Proof.Machine.execTidx o s
  | .tmul o => Sys2Proof.Machine.execTmul o s
  | .tew o => Sys2Proof.Machine.execTew o s
  | .tred o => Sys2Proof.Machine.execTred o s
  | .ttrn o => Sys2Proof.Machine.execTtrn o s
  | .tqnt o => Sys2Proof.Machine.execTqnt o s
  | .tforce o => Sys2Proof.Machine.execTforce o s
  | .tst o => Sys2Proof.Machine.execTst o s
  | .twalk o => Sys2Proof.Machine.execTwalk o s
  | .tdrop o => Sys2Proof.Machine.execTdrop o s
  | .tstat o => Sys2Proof.Machine.execTstat o s
  | .spawn o => Sys2Proof.Machine.execSpawn o s
  | .take o => Sys2Proof.Machine.execTake o s
  | .done o => Sys2Proof.Machine.execDone o s
  | .cancel o => Sys2Proof.Machine.execCancel o s
  | .tchk o => Sys2Proof.Machine.execTchk o s
  | .launch o => Sys2Proof.Machine.execLaunch o s
  | .jwait o => Sys2Proof.Machine.execJwait o s
  | .ensure o => Sys2Proof.Machine.execEnsure o s
  | .elseby o => Sys2Proof.Machine.execElseby o s
  | .elseerr o => Sys2Proof.Machine.execElseerr o s
  | .accept o => Sys2Proof.Machine.execAccept o s
  | .reject o => Sys2Proof.Machine.execReject o s
  | .tjoin o => Sys2Proof.Machine.execTjoin o s
  | .tleave o => Sys2Proof.Machine.execTleave o s
  | .rstat o => Sys2Proof.Machine.execRstat o s
  | .lateFaultDeliver => Sys2Proof.Machine.execLateFaultDeliver s
  | .registerResultReturn acc => Sys2Proof.Machine.execRegisterResultReturn acc s
  | .storeAccept acc line => Sys2Proof.Machine.execStoreAccept acc line s
  | .commitComplete op => Sys2Proof.Machine.execCommitComplete op s
  | .roundConfirm core => Sys2Proof.Machine.execRoundConfirm core s
  | .homeWriteArrival wid => Sys2Proof.Machine.execHomeWriteArrival wid s
  | .acqComplete op => Sys2Proof.Machine.execAcqComplete op s
  | .abortComplete op => Sys2Proof.Machine.execAbortComplete op s
  | .rangeDeclarationComplete op => Sys2Proof.Machine.execRangeDeclarationComplete op s
  | .rangeCloseComplete op => Sys2Proof.Machine.execRangeCloseComplete op s
  | .pageWalkComplete acc line => Sys2Proof.Machine.execPageWalkComplete acc line s
  | .faultRecordPost pad => Sys2Proof.Machine.execFaultRecordPost pad s
  | .fresolveReplay pad src fid => Sys2Proof.Machine.execFresolveReplay pad src fid s
  | .fresolveRefusePageFault pad src fid => Sys2Proof.Machine.execFresolveRefusePageFault pad src fid s
  | .fresolveRefusePermission pad src fid => Sys2Proof.Machine.execFresolveRefusePermission pad src fid s
  | .invcntWrite pad cnt => Sys2Proof.Machine.execInvcntWrite pad cnt s
  | .invalidationComplete pad => Sys2Proof.Machine.execInvalidationComplete pad s
  | .owncntWrite pad cnt => Sys2Proof.Machine.execOwncntWrite pad cnt s
  | .ptrootWrite pad secure asRoot val => Sys2Proof.Machine.execPtrootWrite pad secure asRoot val s
  | .faultQueueRegWrite pad off val => Sys2Proof.Machine.execFaultQueueRegWrite pad off val s
  | .registerWrite fn off val => Sys2Proof.Machine.execRegisterWrite fn off val s
  | .doorbellWrite pad q val => Sys2Proof.Machine.execDoorbellWrite pad q val s
  | .queueRegister pad qid => Sys2Proof.Machine.execQueueRegister pad qid s
  | .queueUnregister pad qid => Sys2Proof.Machine.execQueueUnregister pad qid s
  | .packetAdmit pad q => Sys2Proof.Machine.execPacketAdmit pad q s
  | .barrierAndSatisfied launch => Sys2Proof.Machine.execBarrierAndSatisfied launch s
  | .jobActivate launch core => Sys2Proof.Machine.execJobActivate launch core s
  | .troopDispatch launch places => Sys2Proof.Machine.execTroopDispatch launch places s
  | .stringRetire sid => Sys2Proof.Machine.execStringRetire sid s
  | .troopRetire tid => Sys2Proof.Machine.execTroopRetire tid s
  | .packetRelease launch => Sys2Proof.Machine.execPacketRelease launch s
  | .completionSignalWrite launch => Sys2Proof.Machine.execCompletionSignalWrite launch s
  | .drain pad slot => Sys2Proof.Machine.execDrain pad slot s
  | .cut pad slot => Sys2Proof.Machine.execCut pad slot s
  | .resume pad slot => Sys2Proof.Machine.execResume pad slot s
  | .reset pad => Sys2Proof.Machine.execReset pad s
  | .drainDeadlineExpiry pad => Sys2Proof.Machine.execDrainDeadlineExpiry pad s
  | .cutboundExpiry pad => Sys2Proof.Machine.execCutboundExpiry pad s
  | .reinMarkerArrival core => Sys2Proof.Machine.execReinMarkerArrival core s
  | .cutComplete pad us => Sys2Proof.Machine.execCutComplete pad us s
  | .nodeCellCompute core node cell bad1 bad2 => Sys2Proof.Machine.execNodeCellCompute core node cell bad1 bad2 s
  | .tileOpRetire op => Sys2Proof.Machine.execTileOpRetire op s
  | .copyEngineRetire op => Sys2Proof.Machine.execCopyEngineRetire op s
  | .matrixOpComplete core quarter bad1 bad2 => Sys2Proof.Machine.execMatrixOpComplete core quarter bad1 bad2 s
  | .waitvReread acc lane => Sys2Proof.Machine.execWaitvReread acc lane s
  | .cycleLimitExpiry tid depth => Sys2Proof.Machine.execCycleLimitExpiry tid depth s
  | .testDrainComplete tid => Sys2Proof.Machine.execTestDrainComplete tid s
  | .outriderCompare tid => Sys2Proof.Machine.execOutriderCompare tid s
  | .tieBreakDecide tid => Sys2Proof.Machine.execTieBreakDecide tid s
  | .refillBatchLand core => Sys2Proof.Machine.execRefillBatchLand core s
  | .stealRequest thief victim job => Sys2Proof.Machine.execStealRequest thief victim job s
  | .stealAnswer sid => Sys2Proof.Machine.execStealAnswer sid s
  | .systemOpComplete op => Sys2Proof.Machine.execSystemOpComplete op s
  | .inboundPcieWrite pad zone off req poisoned data => Sys2Proof.Machine.execInboundPcieWrite pad zone off req poisoned data s
  | .inboundPcieRead pad zone off len => Sys2Proof.Machine.execInboundPcieRead pad zone off len s
  | .peerRequest peer pad pa what data => Sys2Proof.Machine.execPeerRequest peer pad pa what data s
  | .peerLinkLoss peer => Sys2Proof.Machine.execPeerLinkLoss peer s
  | .vfFlr pad => Sys2Proof.Machine.execVfFlr pad s
  | .pf0Flr => Sys2Proof.Machine.execPf0Flr s
  | .coldStart ok badCores => Sys2Proof.Machine.execColdStart ok badCores s
  | .throttle steps => Sys2Proof.Machine.execThrottle steps s
  | .thermalTrip => Sys2Proof.Machine.execThermalTrip s
  | .warmStart ok => Sys2Proof.Machine.execWarmStart ok s
  | .patrolScrub line => Sys2Proof.Machine.execPatrolScrub line s
  | .scanTestStart core => Sys2Proof.Machine.execScanTestStart core s
  | .scanTestComplete core pass => Sys2Proof.Machine.execScanTestComplete core pass s
  | .cancelBitSet op core => Sys2Proof.Machine.execCancelBitSet op core s
  | .paddockCreate => Sys2Proof.Machine.execPaddockCreate s
  | .paddockDestroy => Sys2Proof.Machine.execPaddockDestroy s
  | .queueSecure => Sys2Proof.Machine.execQueueSecure s
  | .attest => Sys2Proof.Machine.execAttest s
  | .readInfo => Sys2Proof.Machine.execReadInfo s
  | .illegalInstruction => Sys2Proof.Machine.execIllegalInstruction s

end Sys2Proof.Machine
end

