-- ==== Sys2Proof/Machine/Issue.lean ====
section
/-! DEFINITION. The issue of one instruction: the choice of a PC group (R12 to R17), the scoreboard (R34 to R36), the fetch (R43,
R360), the delivery of late faults (R389, R390), slice scheduling (R299), the clock, and the moves of which the machine's
script is made. -/

namespace Sys2Proof

/-- Two uses share a register. -/
def Use.meets (u v : Use) : Bool :=
  u.cls == v.cls && Nat.blt u.first (v.first + v.n) && Nat.blt v.first (u.first + u.n)

/-- The instructions that can record a late fault (R389). DEDUCED (log entry 148): R389 holds every instruction that can record one,
and beside those that it goes on to name these can: a CRCLOSE and a COMMIT at die or device level, whose write of an uncorrectable
line is refused (R442), an STS, ATOMS, ABORT or append, which may force nodes (R172, R173), and an ELSEBY, ELSEERR, ACCEPT or REJECT,
whose drain forces (R172, R412, R413). -/
def Instr.canFaultLate (i : Instr) : Bool :=
  match i.ba with
  | some (op, o) => match op with
    | .ld | .st | .atom | .acas | .afadd | .radd | .waitv | .brld | .acpy | .acpy2 | .agath | .acoll | .ldts | .tforce | .tst
    | .twalk | .mma | .mmaj | .crclose | .sts | .atoms | .abort | .tidx | .tmul | .tew | .tred | .ttrn | .tqnt => true
    | .elseby | .elseerr | .accept | .reject => true
    | .commit => !o.level.buffered
    | _ => false
  | none => false

/-- The instruction carries a settle marker (R36, R41). -/
def Instr.settles : Instr → Bool
  | .bra o => o.settle
  | .braLong o => o.settle
  | .pblk o => o.settle
  | .movi o | .trap o | .bkpt o | .scall o => o.settle
  | i => match i.ba with
    | some (_, o) => o.settle
    | none => false

namespace Machine

/-! ### The choice of a PC group (R13 to R17) -/

/-- The candidate lanes at one PC with one trap-mode bit (R13). -/
structure Group where
  pc : Addr
  trap : Bool
  lanes : Mask
  deriving DecidableEq, Repr

/-- A candidate lane (R13). -/
def Lane.candidate (l : Lane) : Bool := !l.exited && l.park == .none && l.settle.isNone

/-- A fetch at the address is hitched: until its replay the lanes there count as parked, those that arrive later too (R360). -/
def Str.fetching (z : Str) (pc : Addr) : Bool := z.lanes.any fun l => match l.park with
  | .fetch _ => l.pc == pc
  | _ => false

/-- A candidate lane of the string, where no fetch is hitched (R13, R360). -/
def Str.candidate (z : Str) (l : Lane) : Bool := l.candidate && !z.fetching l.pc

/-- The group of lane `l`. -/
def Str.groupAt (z : Str) (l : Nat) : Group :=
  let x := z.lane l
  { pc := x.pc, trap := x.trap, lanes := z.lanesWhere fun y => z.candidate y && y.pc == x.pc && y.trap == x.trap }

/-- The groups of a string: of each lane that is the lowest of its group. -/
def Str.groups (z : Str) : List Group :=
  ((List.range 32).filter fun l => z.candidate (z.lane l)).filterMap fun l =>
    let g := z.groupAt l
    if (lanesOf g.lanes).head? == some l then some g else none

/-- STRCTL.PROG and STRCTL.FAIR_EXP (R31). -/
def Str.prog (z : Str) : Bool := z.strctl.getLsbD 4
def Str.fairExp (z : Str) : Nat := bitsNat z.strctl 3 0

/-- The greatest wait count of a group. -/
def Str.maxWait (z : Str) (g : Group) : Nat := (lanesOf g.lanes).foldl (fun m l => max m (z.lane l).wait) 0

/-- A group is yielded when any of its lanes is (R17). -/
def Str.groupYielded (z : Str) (g : Group) : Bool := (lanesOf g.lanes).any fun l => (z.lane l).yielded

/-- A key that orders by a first number, largest first, then by lowest PC, trap mode first. -/
def Group.key (g : Group) (first : Nat) : Nat := ((2 ^ 17 - first) * 2 ^ 56 + g.pc.toNat) * 2 + if g.trap then 0 else 1

/-- R14: at the preferred PC the group in trap mode goes first, whatever the groups' lanes. -/
def Str.choose (z : Str) : Option Group :=
  let gs := z.groups
  let due := gs.filter fun g => z.prog && Decidable.decide (2 ^ z.fairExp ≤ z.maxWait g)
  if !due.isEmpty then leastBy (fun g => g.key (z.maxWait g)) due
  else
    let live := gs.filter fun g => !z.groupYielded g
    let gs := if live.isEmpty then gs else live
    let pref := gs.filter fun g => z.pref == some g.pc
    if pref.isEmpty then leastBy (fun g => g.key (lanesOf g.lanes).length) gs else leastBy (·.key 0) pref

/-- The preference goes when no candidate lane sits at it at the moment of choice (R16). -/
def Str.dropPref (z : Str) : Str :=
  { z with pref := match z.pref with
      | some p => if z.lanes.any fun l => z.candidate l && l.pc == p then some p else none
      | none => none }

/-! ### The scoreboard (R34 to R36) -/

/-- The registers of a string whose results have not returned, each with the id of what will write it; a BARV has none. -/
def State.results (s : State) (z : Str) : List (Option Nat × Use) :=
  let use := fun (c : Cls) (first n : Nat) => ({ cls := c, first := first, n := n, rd := false, wr := true } : Use)
  let mats := s.matOps
  (s.accs.filterMap fun a =>
    if a.sid != z.sid then none
    else match a.kind with
      | .ld | .atom | .acas | .afadd => some (some a.id, use .v a.dst (if a.ty.wide then 2 else 1))
      | .brld => some (some a.id, use .b a.dst 1)
      | _ => none) ++
    ((mats.filter (·.sid == z.sid)).flatMap fun o => o.regs.map fun r => (some o.id, use .v r 1)) ++
    ((s.pendJ.filter (·.sid == z.sid)).map fun j => (some j.id, use .v j.dst 64)) ++
    (s.ops.filterMap fun o =>
      if o.sid == z.sid && (o.kind == .jwait || o.kind == .launch) then some (some o.id, use .s o.arg2 1) else none) ++
    z.lanes.filterMap fun l => match l.park with
      | .barrier _ _ (some d) => some (none, use .s d 1)
      | .take _ d id => some (some id, use .s d 8)
      | _ => none

/-- An instruction reads or writes a pending register (R35). -/
def State.scoreboardHolds (s : State) (z : Str) (i : Instr) : Bool :=
  i.uses.any fun u => (u.rd || u.wr) && (s.results z).any fun r => u.meets r.2

/-- The scalar registers that a BARV of the string has still to write. -/
def State.barvRegs (s : State) (z : Str) : List Nat := (s.results z).filterMap fun r => if r.1.isNone then some r.2.first else none

/-- What a settle marker waited for is in, its BARVs aside (R36). -/
def State.settledLane (s : State) (z : Str) (m : Nat × List Nat) : Bool :=
  m.2.isEmpty && !s.storesPending z.sid m.1 && (s.results z).all fun r => match r.1 with
    | some id => Decidable.decide (m.1 ≤ id)
    | none => true

/-- A settle marker forgets the BARVs that have returned, and releases its lane when nothing is left (R36). -/
def State.settleLane (s : State) (z : Str) (l : Lane) : Lane :=
  { l with settle := l.settle.bind fun m =>
      let m := (m.1, m.2.filter (s.barvRegs z).contains)
      if s.settledLane z m then none else some m }

def State.releaseSettled (s : State) : State :=
  { s with strs := s.strs.map fun z =>
      if z.lanes.any fun l => l.settle.isSome then { z with lanes := z.lanes.map (s.settleLane z) } else z }

/-! ### The start and the end of an issue -/

/-- The choice state after an issue of a group (R15, R17), its turn taken (R299). -/
def Str.startIssue (z : Str) (g : Group) : Str :=
  let allYielded := z.lanes.all fun l => !z.candidate l || l.yielded
  let clear := allYielded || !z.groupYielded g
  let outside := z.lanesWhere z.candidate
  let z := { z with lanes := z.lanes.map fun (l : Lane) => if clear then { l with yielded := false } else l
                    issued := true, age := 0 }
  if z.prog then
    (z.mapLanes (outside &&& ~~~g.lanes) fun l => { l with wait := min 0xFFFF (l.wait + 1) }).mapLanes g.lanes fun l =>
      { l with wait := 0 }
  else { z with lanes := z.lanes.map fun (l : Lane) => { l with wait := 0 } }

/-- The lane takes part in the issued instruction (R315). -/
def Lane.takesPart (l : Lane) : Bool :=
  match l.block with
  | some b => b.bit == b.pattern.getLsbD b.pos
  | none => true

/-- One position further in the block; after its last position the block ends (R315). -/
def Lane.nextPos (l : Lane) : Lane :=
  { l with block := match l.block with
      | some b => if b.pos + 1 < b.cnt then some { b with pos := b.pos + 1 } else none
      | none => none }

/-- The instruction at a group's PC is under way: its record and its string. Block progress is held in trap mode (R316). -/
def State.beginIssue (s : State) (z : Str) (t : Troop) (g : Group) (next : Addr) (settle : Bool) : State :=
  let covered := !g.trap && (lanesOf g.lanes).any fun l => (z.lane l).block.isSome
  let parts := if g.trap then g.lanes else g.lanes &&& z.lanesWhere Lane.takesPart
  let y := (z.startIssue g).mapLanes g.lanes fun l =>
    { (if g.trap then l else l.nextPos) with pc := next, settle := if settle then some (0, []) else none }
  let c : Cur := { sid := z.sid, bundle := g.lanes, parts := parts, pc := g.pc, next := next, trap := g.trap
                   super := State.isSuper t g.trap, covered := covered
                   blocks := (lanesOf g.lanes).filterMap fun l => (z.lane l).block.map fun b => (l, b) }
  { s.updStr z.sid fun _ => y with cur := some c }

/-- The bundle's lanes have one next PC. -/
def Str.commonPc (z : Str) (m : Mask) : Option Addr :=
  match lanesOf m with
  | [] => none
  | l :: ls => if ls.all fun k => (z.lane k).pc == (z.lane l).pc then some (z.lane l).pc else none

/-- The preferred PC after an issue (R16). DESIGN CHOICE (log entry 118), twice: an unhinted or `.unf` branch of the preferred group that
splits it while its target is the fall-through leaves its lanes one next PC, and the preference follows them there, although
Splitting says that it is cleared; and after an EXIT of the preferred group it stands at the next word, where lanes that wait
there inherit it, although the rule does not say whether lanes that exit reach a next PC. -/
def Str.endPref (z : Str) (c : Cur) (wasPref : Bool) : Str :=
  { z with pref := match c.split with
      | some p => p
      | none => if wasPref && z.pref.isSome then z.commonPc c.bundle else z.pref }

/-- The settle markers that the issue has set take what is pending now (R36). -/
def State.markSettle (s : State) (z : Str) (m : Mask) : Str :=
  z.mapLanes m fun l => { l with settle := l.settle.map fun _ => (s.nextId, s.barvRegs z) }

/-- What giving a string a turn comes to: nothing issues, or something does. -/
inductive Try where
  | idle (s : State)
  | ran (o : Out)

/-- An issue ends: a held one leaves the string's choice state as it stood before the choice (R35), a deferred one leaves all as it
was and parks its lanes (R388). -/
def State.endIssue (s0 : State) (z0 : Str) (g : Group) (o : Out) : Try :=
  match o with
  | .next s =>
    match s.cur with
    | some c =>
      match c.verdict with
      | .held => .idle ({ s with cur := none }.updStr z0.sid fun _ => (s0.str? z0.sid).getD z0)
      | .deferred => .idle (s0.updStr z0.sid fun z => z.mapLanes g.lanes fun l => { l with park := .deferred })
      | .go =>
        .ran (.next ({ s with cur := none }.updStr z0.sid fun z =>
          s.markSettle (z.endPref c (z0.pref == some g.pc)) g.lanes))
    | none => .ran (.next s)
  | o => .ran o

/-! ### One turn of a string -/

/-- The oldest late fault goes to the chosen group (R390). -/
def State.deliverTurn (s : State) (z : Str) (t : Troop) (g : Group) : Try :=
  let c : Cur := { sid := z.sid, bundle := g.lanes, parts := g.lanes, pc := g.pc, next := g.pc, trap := g.trap
                   super := State.isSuper t g.trap }
  s.endIssue z g (exec .lateFaultDeliver { s.updStr z.sid fun _ => z.startIssue g with cur := some c })

/-- The cause with which a fetch of the group was refused at the rail (R360). -/
def Str.fetchFault (z : Str) (g : Group) : Option (Addr × Bool × Cause) := z.fetchFaults.find? fun f => f.1 == g.pc && f.2.1 == g.trap

/-- The fetch of the group's instruction faults, precisely (R360); a refusal at the rail serves one attempt, so that deferred lanes fetch
anew (R388). -/
def State.fetchTrap (s : State) (z : Str) (t : Troop) (g : Group) (c : Cause) : Try :=
  let n := match s.fetchWord t.core t.pad t.secure (State.isSuper t g.trap) g.pc.toNat with
    | (_, .ok bs) => wordsOf bs
    | _ => Config.unreadWords g.pc
  let y := { z with fetchFaults := match z.fetchFault g with | some f => z.fetchFaults.erase f | none => z.fetchFaults }
  let s := s.updStr z.sid fun x => { x with fetchFaults := y.fetchFaults }
  let s1 := s.beginIssue y t g (g.pc + BitVec.ofNat 56 (4 * n)) false
  s.endIssue z g (match s1.cur with | some cur => .next (s1.raise cur c) | none => .next s1)

/-- The fetch is hitched, and the group's lanes wait for it, as do those that come to its address before the replay (R360). -/
def State.fetchHitch (s : State) (z : Str) (t : Troop) (g : Group) (va lvl : Nat) : State :=
  let (id, s) := s.fresh
  let s := s.updStr z.sid fun z => z.mapLanes g.lanes fun l => { l with park := .fetch id }
  s.hitch (railFor t z.sid t.depth (State.isSuper t g.trap) .fetch va id (.fetch id z.sid)) lvl

/-- A write at the open depth may need the recovery spill area (R421, R422). -/
def Troop.bagFull (t : Troop) (z : Str) : Bool :=
  Nat.blt 0 t.depth && Nat.blt t.rcSpill.used t.rcSpill.size &&
    (Nat.ble t.bagRows (z.bag.filter fun e => !e.spilled).length || Nat.ble 1024 (t.words.filter fun e => !e.spilled).length)

/-- The places of the next unit of a recovery spill area are tried (R456): the first that is refused shuts the area, the first
that is absent is hitched, and the instruction waits. -/
def State.tryUnit (z : Str) (t : Troop) : State → List Nat → State × Bool
  | s, [] => (s.updTroop t.tid fun t => { t with rcSpill := { t.rcSpill with shut := false } }, false)
  | s, va :: vas =>
    match s.translate (some t.core) t.pad t.secure t.super .write va with
    | (s, .ok ..) => State.tryUnit z t s vas
    | (s, .refused _) => (s.updTroop t.tid fun t => { t with rcSpill := { t.rcSpill with shut := true } }, false)
    | (s, .absent lvl) =>
      let (id, s) := s.fresh
      (s.hitch (railFor t z.sid t.depth t.super .write va id (.bag t.tid)) lvl, true)

/-- The recovery spill area is ready for an instruction that may need it, or holds it (R422, R456). -/
def State.bagHolds (s : State) (z : Str) (t : Troop) : State × Bool :=
  if !t.bagFull z then (s, false)
  else if s.cellRailed (.bag t.tid) then (s, true)
  else
    match s.refusals.find? (·.1 == .bag t.tid) with
    | some r =>
      ({ s with refusals := s.refusals.erase r }.updTroop t.tid fun t => { t with rcSpill := { t.rcSpill with shut := true } }, false)
    | none => s.tryUnit z t [t.rcSpill.base + t.rcSpill.used, t.rcSpill.base + t.rcSpill.used + 191]

/-- The decoded instruction issues, or is held (R35, R389). -/
def State.issueInstr (s : State) (z : Str) (t : Troop) (g : Group) (next : Addr) (i : Instr) : Try :=
  if s.scoreboardHolds z i || (i.canFaultLate && Decidable.decide (16 ≤ z.lateq.length)) then .idle s
  else
    match s.bagHolds z t with
    | (s, true) => .idle s
    | (s, false) => s.endIssue z g (exec i (s.beginIssue z t g next i.settles))

/-- The group's instruction is fetched, decoded and issued (R43). -/
def State.issueTurn (s : State) (z : Str) (t : Troop) (g : Group) : Try :=
  match z.fetchFault g with
  | some f => s.fetchTrap z t g f.2.2
  | none => go s
where
  /-- The fetch. -/
  go (s : State) : Try :=
    match s.fetchInstr t.core t.pad t.secure (State.isSuper t g.trap) g.pc.toNat with
    | (s, .ok bs, _) =>
      let next := g.pc + BitVec.ofNat 56 (4 * wordsOf bs)
      match decode bs with
      | .ok (i, _) => s.issueInstr z t g next i
      | .error _ => s.endIssue z g (exec .illegalInstruction (s.beginIssue z t g next false))
    | (s, .refused c, _) => s.fetchTrap z t g c
    | (s, .absent lvl, va) => .idle (s.fetchHitch z t g va lvl)

/-- A string is offered a turn: a late fault goes before the group's instruction (R390); none issues in a rollback (R419). -/
def State.attempt (s : State) (z : Str) (t : Troop) : Try :=
  let z := z.dropPref
  match (if t.failing.isSome then none else z.choose) with
  | none => .idle s
  | some g =>
    if !z.lateq.isEmpty && !z.lanes.any (·.trap) then s.deliverTurn z t g
    else s.issueTurn z t g

/-! ### Slice scheduling (R299) -/

/-- The string's class. -/
def Str.cls (z : Str) (t : Troop) : Nat := min 3 (t.prio + z.age / 4096)

/-- The string's place among those of its slice: the least goes first. -/
def State.rankKey (s : State) (z : Str) : Nat :=
  match s.troop? z.tid with
  | none => 0
  | some t =>
    let q := s.quarter z.core (quarterOf z.slice)
    let near := q.holder == some t.tid || (q.queue.head?.map (·.tid)) == some t.tid
    (((3 - z.cls t) * 65536 + (65535 - z.age)) * 2 + if near then 0 else 1) * 16 + z.slot

/-- A list in the order of a key. -/
def insertBy {α : Type} (key : α → Nat) (x : α) : List α → List α
  | [] => [x]
  | y :: ys => if key y ≤ key x then y :: insertBy key x ys else x :: y :: ys

def sortBy {α : Type} (key : α → Nat) (xs : List α) : List α := xs.foldl (fun acc x => insertBy key x acc) []

/-- The strings of a slice that have not issued in this clock, in their order. -/
def State.waiting (s : State) (core slice : Nat) : List Nat :=
  (sortBy s.rankKey (s.strs.filter fun z => z.core == core && z.slice == slice && !z.issued && !z.retired)).map (·.sid)

/-- The first of some strings that is ready issues. -/
def State.turnOf (s : State) : List Nat → Out
  | [] => .next s
  | sid :: rest =>
    match s.str? sid with
    | none => State.turnOf s rest
    | some z =>
      match s.troop? z.tid with
      | none => State.turnOf s rest
      | some t =>
        match s.attempt z t with
        | .ran o => o
        | .idle s => State.turnOf s rest

/-- A slice gives a turn, at most two in a clock; a halted core gives none (R299, R304). -/
def State.turn (s : State) (core slice : Nat) : Out :=
  if s.haltedCore core || Decidable.decide (2 ≤ (s.strs.filter fun z => z.core == core && z.slice == slice && z.issued).length) then .next s
  else s.turnOf (s.waiting core slice)

/-- A string is ready and has not issued (R299). -/
def State.isReady (s : State) (z : Str) : Bool :=
  !z.issued && !z.retired && !s.haltedCore z.core && (match s.troop? z.tid with
    | some t => (match s.attempt z t with | .ran _ => true | .idle _ => false)
    | none => false)

/-- The open depths whose cycle count has reached their limit, each troop's outermost one (R416, R418). -/
def State.expired (s : State) : List (Nat × Nat) :=
  s.troops.filterMap fun t =>
    if s.haltedCore t.core || t.ended then none
    else ((List.range t.depth).find? fun d => match t.blocks[d]? with
      | some b => b.limit != 0 && Nat.ble b.limit b.count
      | none => false).map fun d => (t.tid, d + 1)

/-- Each depth whose limit is reached fails its alternate (R416). -/
def State.expire (s : State) : State :=
  s.expired.foldl (fun s x => match exec (.cycleLimitExpiry x.1 x.2) s with | .next s => s | _ => s) s

/-- A clock passes: ages (R299), the cycle counts of open blocks, the failures that the clock has found (R418) and then the limits that
the next one finds (R416), and the quarters that cells ask for (R145). -/
def State.tick (s : State) : State :=
  let cores := ((s.quarters.filter (·.seq != [])).map (·.core)).dedup
  State.expire (State.takeFails (cores.foldl (fun s c => s.settleQuarters c) { s with
    clock := s.clock + 1
    strs := s.strs.map fun (z : Str) => { z with issued := false, age := if s.isReady z then min 0xFFFF (z.age + 1) else z.age }
    troops := s.troops.map fun (t : Troop) =>
      if s.haltedCore t.core || t.ended then t
      else { t with blocks := t.blocks.map fun (b : RBlock) => { b with count := b.count + 1 } } }))

/-! ### Moves -/

/-- The items of an engine operation. -/
def State.itemCount (s : State) (e : EngOp) : Nat :=
  if e.kind.cls = 1 then
    match (s.str? e.sid).bind fun z => s.troop? z.tid with
    | some t => e.tileCount (s.srcDesc t e).kcols
    | none => 0
  else e.count

/-- An item of an engine operation takes its step; a halted core's engines start none (R304). -/
def State.stepItem (s : State) (eng item : Nat) (bad1 bad2 : Bool) : State :=
  match s.eng? eng with
  | some e =>
    match s.str? e.sid with
    | some z => if s.haltedCore z.core || s.itemCount e ≤ item then s else s.engItem eng item bad1 bad2
    | none => s
  | none => s

/-- An L1 lets a line go: what it holds alone goes to the L2 first (R194, R244). -/
def State.dropL1 (s : State) (core line : Nat) : State :=
  let s := match findLine s.l1 core line with
    | some c => if c.auth then s.spillL1 line else s
    | none => s
  { s with l1 := dropCopy s.l1 core line }

/-- An L2 lets a line go: what it holds alone goes to its home first (R195, R244). -/
def State.dropL2 (s : State) (die line : Nat) : State :=
  let s := match findLine s.l2 die line with
    | some c => if c.auth then s.spillL2 line else s
    | none => s
  { s with l2 := dropCopy s.l2 die line }

/-- The L1 of a core lets a partial line of a range go (R225). -/
def State.dropPartial (s : State) (core line : Nat) : State :=
  (s.partials.filter fun x => x.core == core && x.line == line && !x.slot).foldl (fun s x =>
    match s.ranges.find? fun r => r.pad == x.pad && r.slot == x.range with
    | some r => s.evictPartial r core line
    | none => s) s

/-- One move of the machine. An instruction issues by a turn alone, so as an event it does nothing. -/
def State.perform (s : State) : Move → Out
  | .turn core slice => s.turn core slice
  | .tick => .next s.tick
  | .item eng item bad1 bad2 => .next (s.stepItem eng item bad1 bad2)
  | .dropL1 core line => .next (s.dropL1 core line)
  | .dropL2 die line => .next (s.dropL2 die line)
  | .dropLlc line => .next (match s.llcLine line with | some l => if l.retain then s else s.dropLlc line | none => s)
  | .partition die part mask => .next { s with partTable := Cells.set 0xFFFF s.partTable (16 * (die % 4) + part % 16) mask }
  | .dropTlb core va => .next { s with tlb := s.tlb.filter fun e => !(e.core == core && Decidable.decide (e.va ≤ va) && Decidable.decide (va < e.va + e.size)) }
  | .mergePartial core line => .next (s.dropPartial core line)
  | .upset line n => .next { s with upsets := Cells.set 0 s.upsets line (Cells.get 0 s.upsets line + n) }
  | .inbound id => .next (match s.inbound.find? (·.id == id) with | some x => if s.mayLand x then s.landInbound x else s | none => s)
  | .hostFails b => .next { s with hostFail := b }
  | .firmwareFails b => .next { s with firmwareFail := b }
  | .peerNotice n => .next (s.peerNotice n)
  | .peerResolve die fid out => .next (s.peerResolve die fid out)
  | .event i => exec i s

/-! ### What happens when the script says nothing -/

/-- The troops of one group on the cores of one cluster: each core takes as many as it can. -/
def State.placeGroup (s : State) (p : Paddock) (l : Launch) (copy : Nat) : List Nat → Nat → Option (List (Nat × Nat) × State)
  | _, 0 => some ([], s)
  | [], _ + 1 => none
  | c :: cs, n + 1 =>
    let bs := (s.coreBases l c).take (n + 1)
    let s := bs.foldl (fun s b => match s.startTroop p l 0 c b copy none with | some r => r.2 | none => s) s
    match State.placeGroup s p l copy cs (n + 1 - bs.length) with
    | some (xs, s) => some (bs.map (fun b => (c, b)) ++ xs, s)
    | none => none

/-- The groups that start together, each on the lowest cluster that it fits; `avoid` lists the cluster that each may not take. -/
def State.placeGroups (s : State) (p : Paddock) (l : Launch) (copy : Nat) : List (Option Nat) → Option (List (Nat × Nat) × State)
  | [] => some ([], s)
  | a :: rest =>
    match (p.clusters.filter fun c => some c != a).findSome? fun c => s.placeGroup p l copy (s.clusterCores c) l.unit with
    | some (xs, s) => match State.placeGroups s p l copy rest with
      | some (ys, s) => some (xs ++ ys, s)
      | none => none
    | none => none

/-- Places for the troops that a launch starts next. -/
def State.somePlaces (s : State) (l : Launch) : Option (List (Nat × Nat)) :=
  match s.pad? l.pad with
  | none => none
  | some p =>
    let groups := l.batch / l.unit
    match s.placeGroups p l 0 (List.replicate groups none) with
    | none => none
    | some (prim, s) =>
      if l.outrider then
        let avoid := (List.range groups).map fun k => (prim[k * l.unit]?).map fun x => clusterOf x.1
        (s.placeGroups p l 1 avoid).map fun r => prim ++ r.1
      else some prim

/-- The dispatch of a launch that waits for it. -/
def State.offerTroops (s : State) (l : Launch) : List Move :=
  if l.stage != 5 || !l.hasTroops || Decidable.decide (l.total ≤ l.started) then []
  else
    match s.somePlaces l with
    | some (x :: xs) =>
      let act : List Move := if l.type = 4 && l.job.isNone then [.event (.jobActivate l.id x.1)] else []
      act ++ [.event (.troopDispatch l.id (x :: xs))]
    | _ => []

/-- The events that what is in flight may give rise to. -/
def State.offers (s : State) : List Move :=
  let ev := fun (i : Instr) => Move.event i
  (s.accs.flatMap fun a => ((List.range a.lines.length).flatMap fun l =>
      [ev (.pageWalkComplete a.id l), ev (.storeAccept a.id l)]) ++ [ev (.registerResultReturn a.id)] ++
        if a.kind == .waitv then (List.range 32).map fun k => ev (.waitvReread a.id k) else []) ++
    ((s.inbound.filter s.mayLand).map fun x => Move.inbound x.id) ++
    (s.writes.map fun w => ev (.homeWriteArrival w.wid)) ++ (s.rounds.map fun r => ev (.roundConfirm r.core)) ++
    (s.ops.flatMap fun o => match o.kind with
      | .commit | .lift => [ev (.commitComplete o.id)]
      | .acq => [ev (.acqComplete o.id)]
      | .abort => [ev (.abortComplete o.id)]
      | .cropen => [ev (.rangeDeclarationComplete o.id)]
      | .crclose => [ev (.rangeCloseComplete o.id)]
      | .cancel => o.cores.map fun c => ev (.cancelBitSet o.id c)
      | _ => [ev (.systemOpComplete o.id)]) ++
    (s.engs.flatMap fun e => ((List.range (s.itemCount e)).filter fun i => !e.done.contains i).map (fun i => Move.item e.id i false false) ++
      [ev (.copyEngineRetire e.id), ev (.tileOpRetire e.id)]) ++
    (s.nodes.flatMap fun x => x.demanded.map fun d => ev (.nodeCellCompute x.core x.n d.1 false false)) ++
    (s.quarters.map fun q => ev (.matrixOpComplete q.core q.q false false)) ++
    (s.strs.map fun z => ev (.stringRetire z.sid)) ++
    (s.troops.flatMap fun t => [ev (.troopRetire t.tid), ev (.testDrainComplete t.tid), ev (.outriderCompare t.tid),
      ev (.tieBreakDecide t.tid)] ++ (List.range t.depth).map fun d => ev (.cycleLimitExpiry t.tid (d + 1))) ++
    (s.mangers.map fun m => ev (.refillBatchLand m.core)) ++ (s.batches.map fun b => ev (.refillBatchLand b.core)) ++
    (s.steals.map fun x => ev (.stealAnswer x.id)) ++
    ((takesOf s.strs).flatMap fun x => match s.str? x.1 with
      | some z => (s.mangers.filter fun m => !m.recs.isEmpty).map fun m => ev (.stealRequest z.core m.core x.2.1)
      | none => []) ++
    (s.launches.flatMap fun l => [ev (.barrierAndSatisfied l.id), ev (.packetRelease l.id), ev (.completionSignalWrite l.id),
      ev (.packetAdmit l.pad l.qid)] ++ s.offerTroops l) ++
    (s.queues.map fun q => ev (.packetAdmit q.pad q.qid)) ++
    (s.pads.flatMap fun p => [ev (.faultRecordPost p.n), ev (.invalidationComplete p.n)] ++
      if p.st == .cutting then (p.clusters.flatMap fun c => (List.range 8).map fun i => ev (.reinMarkerArrival (8 * c + i))) ++
        [ev (.cutComplete p.n 0)] else [])

/-- The slices of the resident strings, in the order of the strings. -/
def State.busySlices (s : State) : List (Nat × Nat) := s.strs.map fun z => (z.core, z.slice)

/-- The first move of some that changes the state. -/
def State.firstChange (s : State) : List Move → Option Out
  | [] => none
  | m :: ms => match s.perform m with
    | .next s1 => if s1 = s then State.firstChange s ms else some (.next s1)
    | o => some o

/-- With an empty script a slice issues; else something in flight goes on; else a clock passes. -/
def State.idleMove (s : State) : Out :=
  match s.firstChange (s.busySlices.map fun x => .turn x.1 x.2) with
  | some o => o
  | none => match s.firstChange s.offers with
    | some o => o
    | none => .next s.tick

/-- A string that stands lost is a second error: inside a block each alternate fails, and the troop ends once none is open (R397). -/
def State.loseStrings (s : State) : State :=
  (s.strs.filter fun z => z.lost && !s.haltedCore z.core).foldl (fun s z => s.secondError z) s

/-- What follows each move by itself: lost strings (R397), freed rail entries go to the waiting cores (R366), saddlebag entries reach their spill area
(R422), L2 slices keep their size (R195), and settle markers release their lanes (R36). -/
def State.afterMove (s : State) : State := s.loseStrings.settle.grant.flushBags.trimL2.releaseSettled

/-- One step of the machine: the next move of its script, or, with none left, a move of its own choice. -/
def State.advance1 (s : State) : Out :=
  let o := match s.script with
    | [] => s.idleMove
    | m :: rest => { s with script := rest }.perform m
  match o with
  | .next s => .next s.afterMove
  | o => o

end Machine

end Sys2Proof
end

