-- ==== Sys2Proof/Machine/Step.lean ====
section
/-! DEFINITION. One step of the machine, and the state in which the next step fetches a given instruction. -/

namespace Sys2Proof.Machine

/-- One step: the head of the script takes place, or what the machine does by itself. -/
def step (s : State) : Host.Outcome State Fault Refusal := s.advance1

/-- The code address at which `withFetchWord` places an instruction; virtual and physical addresses agree there. -/
def fetchVa : Nat := 0x10000

/-- The bytes that it needs in memory: a level-0 entry, a 64 GiB leaf with every permission, and the instruction. -/
def fetchCells (nbits w : Nat) : List (Nat × Byte) :=
  ((bytesOf 8 0x2001).zipIdx.map fun (b, i) => (i, b)) ++ ((bytesOf 8 0x5F).zipIdx.map fun (b, i) => (0x2000 + i, b)) ++
    (bytesOf 20 (w % 2 ^ nbits)).zipIdx.map fun (b, i) => (fetchVa + i, b)

/-- The paddock, launch, troop and string that fetch it. -/
def fetchPad : Paddock := { n := 0, clusters := [0], regions := [⟨0, 1, false⟩], grants := 1, peers := 0, slots := 1, secure := false }

def fetchLaunch (id : Nat) : Launch :=
  { id := id, pad := 0, qid := 0, kind := 0
    words := [1, 1, 1, 1, 0x02000001, 1, 0x10000, 0, 0, 0, 0, 0, 0, 0, 0x01000000, 0], ext := [], stage := 5, reason := 0
    cause := none, cancelled := false, started := 1, live := 1, job := none, retagged := false, cores := [0], rounds := [] }

def fetchTroop (tid launch : Nat) : Troop :=
  { tid := tid, launch := launch, pad := 0, secure := false, super := false, linear := 0, core := 0, slot := 0, nstr := 1, prod := 0
    joint := 0, prio := 0, lease := 64, finLvl := .dev, scratchSize := 16384, bufQ := 64, stq := 16, bagRows := 0 }

def fetchStr (sid tid : Nat) : Str :=
  { sid := sid, tid := tid, idx := 0, core := 0, slice := 0, slot := 0, budget := 256
    lanes := List.replicate 32 { pc := BitVec.ofNat 56 fetchVa }, strctl := 11 }

/-- The state whose next step fetches and runs the instruction with these bits: what a launch would have set up is set up here
(a paddock, a mapped page, a troop of one string at the code address), and the script gives the string's slice a turn. -/
def State.withFetchWord (s : State) (nbits w : Nat) : State :=
  let n := s.nextId
  { s with
    pads := fetchPad :: s.pads.filter (·.n != 0)
    launches := fetchLaunch n :: s.launches
    troops := fetchTroop (n + 1) n :: s.troops
    strs := fetchStr (n + 2) (n + 1) :: s.strs.filter fun z => !(z.core == 0 && z.slice == 0)
    mem := Cells.setMany 0 s.mem (fetchCells nbits w)
    llc := s.llc.filter fun l => !(l.line == 0 || l.line == 128 || l.line == 1024)
    tlb := s.tlb.filter fun e => !(e.core == 0)
    poison := s.poison.filter fun l => !(l == 0 || l == 128 || l == 1024)
    nextId := n + 3
    script := .turn 0 0 :: s.script }

end Sys2Proof.Machine
end

