-- ==== Sys2Proof/Safety.lean ====
section
/-! DEFINITION. What counts as a safe run, and the terms in which the statements speak: an instruction that issues, what it leaves unchanged, and what the
registers of its string read afterwards. -/

/-- A step answers a next state: neither a fault nor a refusal. -/
def Sys2Proof.Machine.State.Runs (s : Sys2Proof.Machine.State) : Prop := ∃ t, Sys2Proof.Machine.step s = .next t

namespace Sys2Proof.Claims

open Sys2Proof.Machine

/-- The instruction `i` is under way for the string `z` of troop `t`, with the issue record `c`, and R58 and R316 make it
legal. -/
structure Issues (s : State) (i : Instr) (c : Cur) (z : Str) (t : Troop) : Prop where
  cur : s.cur = some c
  str : s.str? c.sid = some z
  troop : s.troop? z.tid = some t
  legal : legal i c z = true

/-- The saddlebag has room for `k` more registers, or none is open (R421, R422). -/
def Room (z : Str) (t : Troop) (k : Nat) : Prop :=
  t.overflow = false ∧ (t.depth = 0 ∨ (z.bag.filter fun e => !e.spilled).length + k ≤ t.bagRows)

/-- A string after an instruction that writes only vector registers and sets flags `f`; an open recovery block may have
recorded registers. -/
def onlyV (z z' : Str) (t : Troop) (f : Flags) : Prop :=
  z' = { z with v := z'.v, bag := z'.bag, fpflags := z.fpflags ||| f.setWidth 32 } ∧ (t.depth = 0 → z'.bag = z.bag)

/-- A string after an instruction that writes only predicate registers and sets flags `f`. -/
def onlyP (z z' : Str) (t : Troop) (f : Flags) : Prop :=
  z' = { z with p := z'.p, bag := z'.bag, fpflags := z.fpflags ||| f.setWidth 32 } ∧ (t.depth = 0 → z'.bag = z.bag)

/-- A string after an instruction that writes only scalar registers. -/
def onlyS (z z' : Str) (t : Troop) : Prop :=
  z' = { z with s := z'.s, bag := z'.bag } ∧ (t.depth = 0 → z'.bag = z.bag)

/-- The words that an operand of type `td` at register `d` puts into register `n`: one register, or a pair (R53). -/
def oneDest (td : Ty) (d x n : Nat) : Option Word :=
  if n = d then some (BitVec.ofNat 32 x)
  else if td.wide && n == d + 1 then some (BitVec.ofNat 32 (x / 2 ^ 32))
  else none

/-- The words that a list of values puts into the registers from `d` up. -/
def rangeDest (d : Nat) (xs : List Nat) (n : Nat) : Option Word :=
  if d ≤ n then (xs[n - d]?).map (BitVec.ofNat 32) else none

/-- The instruction completes for every state in which it issues, has room for `k` records, meets its own condition `pre` and
raises no enabled flag: lane `l` of register `n` holds `after`, where that names a value and the lane takes part, and nothing
else of the machine changes but FPFLAGS, into which the flags are ORed (R33, R95, R96). -/
def VResult (i : Instr) (k : Nat) (pre : Cur → Str → Troop → Prop) (flags : Cur → Str → Troop → Flags)
    (after : Cur → Str → Troop → Nat → Nat → Option Word) : Prop :=
  ∀ s c z t, Issues s i c z t → Room z t k → pre c z t → flags c z t &&& z.enabled = 0 →
    ∃ z', exec i s = .next (s.updStr c.sid fun _ => z') ∧ onlyV z z' t (flags c z t) ∧
      ∀ n l, l < 32 → z'.vreg n l = if c.parts.getLsbD l then (after c z t n l).getD (z.vreg n l) else z.vreg n l

/-- The trap is delivered to the handler at once: the bundle is not in trap mode, no lane of the string is, there is a handler,
and no open recovery block takes the cause (R388, R391, R417). -/
def Delivers (c : Cur) (z : Str) (t : Troop) (cause : Cause) : Prop :=
  c.trap = false ∧ z.lanes.any (·.trap) = false ∧ z.trapBase ≠ 0 ∧ (t.depth = 0 ∨ cause.routes = false)

/-- The string after a precise trap has been delivered to the bundle (R391): the trap registers are filled, the bundle's lanes
are in trap mode at TRAPBASE, and nothing else of the string changes. -/
def Entered (z z' : Str) (c : Cur) (cause : Cause) : Prop :=
  z' = { z with lanes := z'.lanes, trapCause := BitVec.ofNat 32 cause.code, trapPc := dwordOf c.pc, trapNodePc := dwordOf 0
                retPc := c.next } ∧
  z'.lanes.length = z.lanes.length ∧
  ∀ l, l < z.lanes.length → z'.lane l =
    if c.bundle.getLsbD l then { z.lane l with trap := true, pc := addr56 z.trapBase, park := .none, settle := none }
    else z.lane l

/-- With an enabled flag raised the instruction traps with FP_EXCEPTION: of its string FPFLAGS alone takes the flags, before the
handler runs; a trap that is deferred updates nothing (R84, R388). -/
def FpTraps (i : Instr) (pre : Cur → Str → Troop → Prop) (flags : Cur → Str → Troop → Flags) : Prop :=
  (∀ s c z t, Issues s i c z t → t.overflow = false → Delivers c z t .fpException → pre c z t → flags c z t &&& z.enabled ≠ 0 →
    ∃ z', exec i s = .next (s.updStr c.sid fun _ => z') ∧
      Entered { z with fpflags := z.fpflags ||| (flags c z t).setWidth 32 } z' c .fpException) ∧
  ∀ s c z t, Issues s i c z t → t.overflow = false → c.trap = false → z.lanes.any (·.trap) = true → pre c z t →
    flags c z t &&& z.enabled ≠ 0 → exec i s = .next { s with cur := some { c with verdict := .deferred } }

/-- As `VResult`, and with an enabled flag the trap of R84. -/
def FlagResult (i : Instr) (k : Nat) (pre : Cur → Str → Troop → Prop) (flags : Cur → Str → Troop → Flags)
    (after : Cur → Str → Troop → Nat → Nat → Option Word) : Prop :=
  VResult i k pre flags after ∧ FpTraps i pre flags

/-- As `VResult`, for an instruction with no condition of its own and no flags. -/
def IntResult (i : Instr) (td : Ty) (d : Byte) (val : Cur → Str → Nat → Nat) : Prop :=
  VResult i 2 (fun _ _ _ => True) (fun _ _ _ => 0) fun c z _ n l => oneDest td d.toNat (val c z l) n

/-- As `FlagResult`, for an instruction whose elements round separately and raise flags (R74, R114, R116). -/
def FpResult (i : Instr) (td : Ty) (d : Byte) (val : Str → Nat → Nat → Nat × Flags) : Prop :=
  FlagResult i 2 (fun _ _ _ => True)
    (fun c z _ => orAll (c.lanes.map fun l => orAll (td.elems.map fun e => (val z l e).2)))
    fun _ z _ n l => oneDest td d.toNat (packElems td (td.elems.map fun e => (val z l e).1)) n

/-- The exact integers of a lane's sources A, B and C (R98). -/
def intA (z : Str) (o : Operands) (l : Nat) : Int := o.ty.intVal (z.src o false o.ty o.a l)
def intB (z : Str) (o : Operands) (l : Nat) : Int := o.ty.intVal (z.src o true o.ty o.b l)
def intB3 (z : Str) (o : Operands) (l : Nat) : Int := o.ty.intVal (z.src o false o.ty o.b l)
def intC (z : Str) (o : Operands) (l : Nat) : Int := o.ty.intVal (z.src o true o.ty o.c l)

/-- As `FpResult`, for a function of one source that is rounded once (R119). -/
def Fp1 (i : Instr) (o : Operands) (f : FNum → FNum × Flags) : Prop :=
  FpResult i o.ty o.d fun z l e => fpRound o.ty o.rm z.ftz (f (z.fa o o.ty l e))

/-- As `FpResult`, for a function of two sources that is rounded once (R116). -/
def Fp2 (i : Instr) (o : Operands) (f : FNum → FNum → FNum × Flags) : Prop :=
  FpResult i o.ty o.d fun z l e => fpRound o.ty o.rm z.ftz (f (z.fa o o.ty l e) (z.fb o o.ty l e))

/-- The instruction completes, and predicate register `d` holds `val` for the lanes that take part; p7 takes no write (R28). -/
def PResult (i : Instr) (d : Byte) (flags : Cur → Str → Flags) (val : Cur → Str → Nat → Bool) : Prop :=
  ∀ s c z t, Issues s i c z t → Room z t 1 → flags c z &&& z.enabled = 0 →
    ∃ z', exec i s = .next (s.updStr c.sid fun _ => z') ∧ onlyP z z' t (flags c z) ∧
      ∀ n l, l < 32 → z'.preg n l = if n = d.toNat ∧ n ≠ 7 ∧ c.parts.getLsbD l then val c z l else z.preg n l

/-- The instruction completes, and with a participant scalar register `d` holds `val`; without one nothing is written
(R109). -/
def SResult (i : Instr) (d : Byte) (pre : State → Cur → Str → Troop → Prop) (val : State → Cur → Str → Troop → Dword) : Prop :=
  ∀ s c z t, Issues s i c z t → Room z t 1 → pre s c z t →
    ∃ z', exec i s = .next (s.updStr c.sid fun _ => z') ∧ onlyS z z' t ∧
      ∀ n, z'.sreg n = if n = d.toNat ∧ c.parts ≠ 0 then val s c z t else z.sreg n

/-- The instruction completes in the state that a function gives, when its own condition holds. -/
def Completes (i : Instr) (pre : State → Cur → Str → Troop → Prop) (eff : State → Cur → Str → Troop → State) : Prop :=
  ∀ s c z t, Issues s i c z t → t.overflow = false → pre s c z t → exec i s = .next (eff s c z t)

/-- The instruction takes a trap of a cause when its condition holds: only its string changes, as a trap entry says. -/
def Traps (i : Instr) (pre : State → Cur → Str → Troop → Prop) (cause : Cause) : Prop :=
  ∀ s c z t, Issues s i c z t → t.overflow = false → Delivers c z t cause → pre s c z t →
    ∃ z', exec i s = .next (s.updStr c.sid fun _ => z') ∧ Entered z z' c cause

/-- As `Issues`, for an instruction that R58 or R316 makes illegal. -/
structure IllegalAt (s : State) (i : Instr) (c : Cur) (z : Str) (t : Troop) : Prop where
  cur : s.cur = some c
  str : s.str? c.sid = some z
  troop : s.troop? z.tid = some t
  illegal : legal i c z = false

/-- The lanes of a string change one by one: lane `l` becomes `f l` of what it was. -/
def Lanes (z z' : Str) (f : Nat → Lane → Lane) : Prop :=
  z'.lanes.length = z.lanes.length ∧ ∀ l, l < z.lanes.length → z'.lane l = f l (z.lane l)

/-- The lane goes on at a PC. -/
def goTo (p : Addr) (x : Lane) : Lane := { x with pc := p }

/-- The instruction completes and changes nothing but the lanes of its string, when its own condition holds. -/
def MovesLanes (i : Instr) (pre : State → Cur → Str → Troop → Prop) (f : Cur → Str → Nat → Lane → Lane) : Prop :=
  ∀ s c z t, Issues s i c z t → t.overflow = false → pre s c z t →
    ∃ z', exec i s = .next (s.updStr c.sid fun _ => z') ∧ z' = { z with lanes := z'.lanes } ∧ Lanes z z' (f c z)

/-- The lanes of the participants of a branch that take it (R311). -/
def takes (cond pinv : Bool) (psel : BitVec 3) (c : Cur) (z : Str) : Mask :=
  maskOf (c.lanes.filter fun l => !cond || z.preg psel.toNat l != pinv)

/-- What a branch does (R16, R18, R46, R311): nothing when no lane takes it; else its takers go to PC + 4 × offset, and the hint
of a branch that splits its participants acts. A target outside the address space traps. -/
def BranchResult (i : Instr) (cond pinv : Bool) (psel : BitVec 3) (hint : Hint) (off : Int) : Prop :=
  let target := fun (c : Cur) => (c.pc.toNat : Int) + 4 * off
  let inside := fun (c : Cur) => 0 ≤ target c ∧ target c ≤ 2 ^ 56 - 4
  Completes i (fun _ c z _ => takes cond pinv psel c z = 0) (fun s _ _ _ => s) ∧
  (∀ s c z t, Issues s i c z t → t.overflow = false → takes cond pinv psel c z ≠ 0 → inside c →
    let m := takes cond pinv psel c z
    let c' : Cur := if m = c.parts then c else match hint with
      | .lk => { c with split := some (some (BitVec.ofInt 56 (target c))) }
      | .unl => { c with split := some (some c.next) }
      | _ => c
    ∃ z', exec i s = .next ({ s with cur := some c' }.updStr c.sid fun _ => z') ∧
      z' = { z with lanes := z'.lanes, strctl := z'.strctl } ∧
      z'.strctl = (if m ≠ c.parts ∧ hint = .unf then
        (z.strctl &&& 0xFFFF#32) ||| (BitVec.ofNat 32 (min 0xFFFF (bitsNat z.strctl 31 16 + 1)) <<< 16) else z.strctl) ∧
      Lanes z z' fun l x => if m.getLsbD l then goTo (BitVec.ofInt 56 (target c)) x else x) ∧
  Traps i (fun _ c z _ => takes cond pinv psel c z ≠ 0 ∧ ¬ inside c) .noncanonical

/-- What JMPI and RET do (R312): every participant goes to its own target, which must be canonical and aligned. -/
def JumpResult (i : Instr) (a : Byte) : Prop :=
  MovesLanes i (fun _ c z _ => ∀ l ∈ c.lanes, canonical (z.vpair a.toNat l) = true ∧ (z.vpair a.toNat l).toNat % 4 = 0)
    (fun c z l x => if c.parts.getLsbD l then goTo (addr56 (z.vpair a.toNat l)) x else x) ∧
  Traps i (fun _ c z _ => ∃ l ∈ c.lanes, canonical (z.vpair a.toNat l) = false) .noncanonical ∧
  Traps i (fun _ c z _ => (∀ l ∈ c.lanes, canonical (z.vpair a.toNat l) = true) ∧
    ∃ l ∈ c.lanes, (z.vpair a.toNat l).toNat % 4 ≠ 0) .misaligned

/-- The instruction does not issue in this clock: nothing changes but the record of the issue (R35). -/
def Held (s : State) (c : Cur) (i : Instr) : Prop := exec i s = .next { s with cur := some { c with verdict := .held } }

/-! ### Accesses and parked operations -/

/-- An access has joined those in flight, under the next id, and nothing else has changed. -/
def joined (s : State) (a : Access) : State :=
  { s with accs := s.accs ++ [{ a with id := s.nextId }], nextId := s.nextId + 1 }

/-- The access `b` is `a` as its events have left it: only the states of its lines, the values of its parts and its first fault
may differ. -/
def Onward (a b : Access) : Prop :=
  b = { a with lines := b.lines, elems := b.elems, fault := b.fault, clash := b.clash } ∧
    b.elems.map (fun e => { e with val := none }) = a.elems.map fun e => { e with val := none }

/-- When every part of the access has a value or a refused line, its results are written to D of the lanes that have a value and
have not exited, it leaves, and its first fault joins the late queue, once for the instruction (R34, R37, R259, R262). -/
def Returns (a : Access) : Prop :=
  ∀ s b z t, s.acc? a.id = some b → Onward a b → b.returned = true → s.str? a.sid = some z → s.troop? z.tid = some t →
    Room z t 2 → (b.elems.map (·.lane)).Nodup → (∀ e ∈ b.elems, e.lane < 32) → (∀ f ∈ s.pendFlags, f.1 ≠ a.id) →
    b.fault = none ∨ (a.trap = false ∧ ∃ l ∈ z.lanes, l.exited = false) →
    ∃ z', exec (.registerResultReturn a.id) s =
        .next ({ s with accs := s.accs.filter (·.id != a.id)
                        writes := if b.fault.isSome then (s.tellWrites a.id).writes else s.writes }.updStr a.sid fun _ => z') ∧
      z' = { z with v := z'.v, bag := z'.bag, lateq := z'.lateq } ∧ (t.depth = 0 → z'.bag = z.bag) ∧
      z'.lateq = (match b.fault with
        | some f => z.lateq ++ [{ cause := f, pc := a.pc, nodePc := 0, depth := a.depth }]
        | none => z.lateq) ∧
      (∀ e ∈ b.elems, ∀ n, z'.vreg n e.lane = match e.val with
        | some x => if (z.lane e.lane).exited then z.vreg n e.lane
          else (oneDest a.ty a.dst (a.ty.regBits x) n).getD (z.vreg n e.lane)
        | none => z.vreg n e.lane) ∧
      ∀ l < 32, (∀ e ∈ b.elems, e.lane ≠ l) → ∀ n, z'.vreg n l = z.vreg n l

/-- A translated line of a load is read, once the earlier accesses of its lanes to its bytes are done: each of its parts takes the
bytes that its lane sees (R206, R233, R260). -/
def LineReads (a : Access) : Prop :=
  ∀ s b line z t l pa pol part s' d, s.acc? a.id = some b → Onward a b → s.str? a.sid = some z → s.troop? z.tid = some t →
    b.lines[line]? = some l → l.st = .ready pa pol part → s.haltedCore t.core = false → s.loadMayGo b pa (b.on l) = true →
    (∀ e ∈ b.on l, s.readWaits a.sid (some e.lane) t.core pa e.mask = false) →
    s.neededLine a.sid t ((b.on l).map fun e => (some e.lane, e.mask)) l.va pa pol part b.fresh = (s', some d) →
    let read := fun (e : Elem) => lineVal (s'.assemble a.sid t (some e.lane) pa e.mask d) (e.va % 64) e.w
    let fill := fun (e : Elem) => if l.holds e then { e with val := some (read e) } else e
    exec (.pageWalkComplete a.id line) s =
      .next ((s'.updAcc a.id fun b => { b with elems := b.elems.map fill }).setLine a.id line .done)

/-- A translated line of an atomic is performed, its lanes one after the other at the authority of its scope, or on its buffer; each
part keeps the old value (R208, R243, R244, R270). Stated where no node's input is overwritten (R175), and where no lower lane names the
bytes through another line. -/
def LineModifies (a : Access) : Prop :=
  ∀ s b line z t l pa pol part s' olds, s.acc? a.id = some b → Onward a b → s.str? a.sid = some z → s.troop? z.tid = some t →
    b.lines[line]? = some l → l.st = .ready pa pol part → (∀ x ∈ s.nodes, x.tid ≠ t.tid) → s.haltedCore t.core = false →
    b.on l ≠ [] → b.turns l pa = b.on l →
    s.storeMayGo b pa (b.on l) = true → s.hostWaits t.core (authPlace t.core a.lvl pol) pa = false →
    (∀ e ∈ b.on l, s.atomWaits t a.sid pa e.mask = false) →
    s.atomLanes t b l.va pa pol part (b.on l) = (s', olds, none) →
    let keep := fun (e : Elem) => match olds.find? (fun r => l.holds e && r.1 == e.lane) with
      | some r => { e with val := some r.2 }
      | none => e
    exec (.pageWalkComplete a.id line) s =
      .next ((s'.updAcc a.id fun b => { b with elems := b.elems.map keep }).setLine a.id line .done)

/-- A translated line of a store enters the buffer of its level, or leaves for its home at die level or wider, with the bytes that no
higher lane has written through another line; a line of a RADD is applied to the core's partial line; a fault of the buffer refuses the
line (R204, R205, R217 to R219, R225, R276). A line that its instruction's checks have passed has its room, and under the policy that a
conflict faults it has none; under the other a conflict is counted once for the store, as its line enters. One that was hitched is checked
now. When the last line has ended the access leaves. Stated where no node's input is overwritten (R175). -/
def Accepts (a : Access) : Prop :=
  ∀ s b line z t l pa pol part, s.acc? a.id = some b → Onward a b → s.str? a.sid = some z → s.troop? z.tid = some t →
    b.lines[line]? = some l → l.st = .ready pa pol part → s.haltedCore t.core = false → s.storeMayGo b pa (b.on l) = true →
    (∀ x ∈ s.nodes, x.tid ≠ t.tid) →
    let bytes := b.topBytes l pa
    let sp := bufSpace a.sid t (t.demote a.lvl)
    let is := bytes.map (·.1)
    let hit := s.entersOver t sp pa is (committerFor a.sid t sp)
    let put := s.bufPut a.sid t a.lvl pa l.va pol part bytes
    let goes := fun (u : State) => exec (.storeAccept a.id line) s = .next (u.settleStore a.id)
    let counted := (put.countConflict t.tid).updAcc a.id fun b => { b with clash := true }
    (a.kind = .radd → (b.on l).all (s.takesRadd t a.ty) = true → goes ((s.applyRadds t (b.on l) pa).setLine a.id line .done)) ∧
    (a.kind = .radd → (b.on l).all (s.takesRadd t a.ty) = false → goes (s.updAcc a.id (·.refuse line .rangeStore))) ∧
    (a.kind = .st → bytes = [] → goes (s.wroteLine b line l pa)) ∧
    (a.kind = .st → bytes ≠ [] → (t.demote a.lvl).buffered = false →
      goes ((s.storeHome t b (b.on l) bytes pa pol part).wroteLine b line l pa)) ∧
    (a.kind = .st → bytes ≠ [] → (t.demote a.lvl).buffered = true → l.sure = true →
      (b.strict = true ∨ hit = false ∨ b.clash = true → goes (put.wroteLine b line l pa)) ∧
      (b.strict = false → hit = true → b.clash = false → goes (counted.wroteLine b line l pa))) ∧
    (a.kind = .st → bytes ≠ [] → (t.demote a.lvl).buffered = true → l.sure = false →
      (s.projected.bufFits a.sid t a.lvl pa is = false → goes (s.updAcc a.id (·.refuse line .commitOverflow))) ∧
      (s.projected.bufFits a.sid t a.lvl pa is = true →
        (hit = true → z.conflictFaults = true → goes (s.updAcc a.id (·.refuse line .siblingConflict))) ∧
        (hit = false ∨ z.conflictFaults = false ∧ b.clash = true → goes (put.wroteLine b line l pa)) ∧
        (hit = true → z.conflictFaults = false → b.clash = false → goes (counted.wroteLine b line l pa))))

/-- An instruction of the record form starts an access, when R184 passes and its own condition holds, and the events of that access
do the rest; without a participant it does nothing; a fault of R184 traps. -/
def Joins (i : Instr) (o : Operands) (pre : State → Cur → Str → Troop → Access → Prop)
    (acc : Cur → Str → Troop → List (Nat × AddrRes) → Access) (rest : Access → Prop) : Prop :=
  (∀ s c z t rs, Issues s i c z t → t.overflow = false → recAddrs z o (o.ty.width / 8) c.lanes = .ok rs → c.parts ≠ 0 →
    pre s c z t (acc c z t rs) →
    exec i s = .next (joined s (acc c z t rs)) ∧ rest { acc c z t rs with id := s.nextId }) ∧
  Completes i (fun _ c _ _ => c.parts = 0) (fun s _ _ _ => s) ∧
  ∀ f, Traps i (fun _ c z _ => recAddrs z o (o.ty.width / 8) c.lanes = .error f) f

/-- No byte of an access lies in an open commutative range. -/
def OutsideRanges (s : State) (t : Troop) (es : List Elem) : Prop :=
  ∀ e ∈ es, e.w ≠ 0 → s.inOpenRange t e.va e.w = none

/-- An event of a parked operation, in every state in which the operation stands and the event's condition holds. -/
def OpEvent (i : Instr) (o : SysOp) (pre : State → Str → Troop → Prop) (eff : State → Str → Troop → State) : Prop :=
  ∀ s z t, s.op? o.id = some o → s.str? o.sid = some z → s.troop? z.tid = some t → pre s z t → exec i s = .next (eff s z t)

/-- ACQ completes once the earlier loads of its lanes are done: it invalidates read copies and its bundle goes on (R238,
R240, R266). -/
def AcqEnds (o : SysOp) : Prop :=
  OpEvent (.acqComplete o.id) o (fun s _ _ => s.loadsDone o.sid o.id (BitVec.ofNat 32 o.arg2) = true)
    fun s z _ => (s.acquire z.core o.lvl fun _ => true).endOp o

/-- COMMIT takes its lines once its stores have been accepted and its atomics performed: at cluster level or below at once, or it
traps; wider by sending them, closing its round, and waiting for its rounds; then its bundle goes on, and the loss of a write that it
waited for is recorded (R210 to R213, R237, R381). -/
def CommitEnds (o : SysOp) : Prop :=
  let go := fun (s : State) (z : Str) (t : Troop) => s.haltedCore t.core = false ∧ s.storesPending z.sid o.id = false ∧
    s.atomsPending z.sid o.id o.lvl = false
  let taken := fun (s : State) (z : Str) (t : Troop) => s.commitBytes z.sid t (t.demote o.lvl)
  OpEvent (.commitComplete o.id) o (fun s z t => go s z t ∧ (t.demote o.lvl).buffered = true)
    (fun s z t => match s.commitInto z t o.lvl false with
      | .ok s' => s'.endOp o
      | .error f => s.failOp o f) ∧
  OpEvent (.commitComplete o.id) o (fun s z t => go s z t ∧ (t.demote o.lvl).buffered = false ∧ (s.closedRounds t.core).length < 8 ∧
      ∀ x ∈ taken s z t, s.inOpenRange t x.va 64 = none)
    (fun s z t => (s.commitEmptied z.sid t (t.demote o.lvl)).publish t o (t.demote o.lvl) (taken s z t)) ∧
  OpEvent (.commitComplete o.id) o (fun s z t => go s z t ∧ (t.demote o.lvl).buffered = false ∧ (s.closedRounds t.core).length < 8 ∧
      ∃ x ∈ taken s z t, s.inOpenRange t x.va 64 ≠ none)
    (fun s _ _ => s.failOp o .rangeStore) ∧
  ∀ n f, let sent := { o with phase := .sent, arg := n, fault := f }
    OpEvent (.commitComplete o.id) sent (fun s _ t => s.roundsDone t.core n (t.demote o.lvl) = true) fun s _ _ => s.endCommit sent

/-- ABORT discards once its stores have been accepted: the bytes of its level and below at its depth go, and at troop level or
wider the other strings of the troop are told (R214 to R216, R268). Stated where no node of the troop and no hitched request stands. -/
def AbortEnds (o : SysOp) : Prop :=
  OpEvent (.abortComplete o.id) o
    (fun s z t => (∀ x ∈ s.nodes, x.tid ≠ t.tid) ∧ s.storesPending z.sid o.id = false ∧
      (∀ a ∈ s.accs, a.kind = .st → ∀ l ∈ a.lines, l.st.hitched = false) ∧ s.heldReqs = [] ∧ s.rail = [] ∧ s.railWait = [] ∧
      ∀ f ∈ s.pendFlags, f.1 ≠ o.id)
    fun s z t =>
      let s' := (s.abortBuffers z.sid t o.lvl).prune
      let told := updAll (fun y => y.tid == t.tid && y.sid != z.sid) (fun y => { y with aborted := true }) s'.strs
      (if o.lvl = .str then s' else { s' with strs := told }).endOp o

/-- The range of a declaration. -/
def declared (o : SysOp) (t : Troop) (slot : Nat) : Range :=
  { pad := t.pad, secure := t.secure, slot := slot, base := o.arg, len := o.arg2 / 256
    ty := (Ty.ofCode (o.arg2 / 4 % 32)).getD .f32, op := o.arg2 % 4, st := .opening }

/-- The range tables take a declaration into the lowest free slot, unless its core is halted; an overlap or a full table traps. Its
second event opens it and lets the bundle go on, when no L1 or L2 is left with a read copy of its lines (R224, R226, R272, R275). -/
def CropenEnds (o : SysOp) : Prop :=
  let clash := fun (s : State) (t : Troop) => s.rangeClash t o.arg (o.arg2 / 256)
  let sent := { o with phase := .sent }
  (∀ slot, OpEvent (.rangeDeclarationComplete o.id) o
    (fun s _ t => s.haltedCore t.core = false ∧ s.freeSlot t = some slot ∧ clash s t = false)
    fun s _ t => { s with ranges := s.ranges ++ [declared o t slot] }.updOp o.id fun o => { o with phase := .sent }) ∧
  OpEvent (.rangeDeclarationComplete o.id) o
    (fun s _ t => s.haltedCore t.core = false ∧ (s.freeSlot t = none ∨ clash s t = true)) (fun s _ _ => s.failOp o .bounds) ∧
  OpEvent (.rangeDeclarationComplete o.id) o (fun s _ t => s.haltedCore t.core = true) (fun s _ _ => s) ∧
  ∀ s z t s1 ps, s.op? o.id = some sent → s.str? o.sid = some z → s.troop? z.tid = some t →
    s.spansOf t (State.isSuper t o.trap) o.arg (o.arg2 / 256) = (s1, ps) →
    ∃ u : State, exec (.rangeDeclarationComplete o.id) s = .next (u.endOp sent) ∧
      u = { s1 with ranges := u.ranges, l1 := u.l1, l2 := u.l2 } ∧
      (∀ c, c ∈ u.l1 ↔ c ∈ s1.l1 ∧ (c.auth = true ∨ inSpans ps c.line = false)) ∧
      (∀ c, c ∈ u.l2 ↔ c ∈ s1.l2 ∧ (c.auth = true ∨ inSpans ps c.line = false)) ∧ u.ranges.length = s1.ranges.length ∧
      ∀ (i : Nat) (r : Range), s1.ranges[i]? = some r → u.ranges[i]? =
        some (if r.pad = t.pad ∧ r.secure = t.secure ∧ r.base = o.arg then { r with st := .isOpen } else r)

/-- A close marks its range, unless its core is halted, and traps when it is not open; its second event gathers every
partial line of the range, drops one whose home is uncorrectable, frees the slot and lets the bundle go on; it
faults late once when a line was dropped (R227, R273, R275, R442). -/
def CrcloseEnds (o : SysOp) : Prop :=
  let mine := fun (t : Troop) (r : Range) => r.pad = t.pad ∧ r.secure = t.secure ∧ r.base = o.arg
  (∀ r, OpEvent (.rangeCloseComplete o.id) o
    (fun s _ t => s.haltedCore t.core = false ∧ r ∈ s.ranges ∧ mine t r ∧ r.st = .isOpen ∧ ∀ x ∈ s.ranges, mine t x → x = r)
    fun s _ _ => { s with ranges := s.ranges.map fun x => if x = r then { r with st := .closing } else x }.updOp o.id fun o =>
      { o with phase := .sent }) ∧
  OpEvent (.rangeCloseComplete o.id) o (fun s _ t => s.haltedCore t.core = false ∧ ∀ x ∈ s.ranges, mine t x → x.st = .opening)
    (fun s _ _ => s.failOp o .bounds) ∧
  OpEvent (.rangeCloseComplete o.id) o (fun s _ t => s.haltedCore t.core = true) (fun s _ _ => s) ∧
  ∀ r, OpEvent (.rangeCloseComplete o.id) { o with phase := .sent }
    (fun s _ t => r ∈ s.ranges ∧ mine t r ∧ r.st = .closing ∧ (∀ x ∈ s.ranges, mine t x → x = r) ∧ s.raddsDone t r = true)
    fun s _ _ =>
      let gathered := fun (x : State × Bool) line => match x.1.gather r line 3 0 with
        | (u, some _) => (u, x.2)
        | (u, none) =>
          ({ u with partials := u.partials.filter fun p => !(p.pad == r.pad && p.range == r.slot && p.line == line) }, true)
      let res := (s.partialLines r).foldl gathered (s, false)
      let u := { res.1 with ranges := res.1.ranges.erase r }.endOp { o with phase := .sent }
      if res.2 then u.lateFault o.sid .uncorrectableMemory o.pc 0 o.depth o.trap else u

/-- A TLBI removes the translations of its range as it starts, and ends once what was translated before is over, removing what
walks have cached since; one that finds another in progress waits (R368, R401). -/
def TlbiEnds (o : SysOp) : Prop :=
  let going := fun (s : State) (t : Troop) => (s.pad? t.pad).bind (·.inval)
  let sent := { o with phase := .sent }
  OpEvent (.systemOpComplete o.id) o (fun s _ t => s.haltedCore t.core = false ∧ going s t = none)
    (fun s _ t => (s.startInval t.pad o.arg o.arg2 (some o.id)).updOp o.id fun o => { o with phase := .sent }) ∧
  OpEvent (.systemOpComplete o.id) o (fun s _ t => s.haltedCore t.core = true ∨ going s t ≠ none) (fun s _ _ => s) ∧
  ∀ v, v.op = some o.id →
    OpEvent (.systemOpComplete o.id) sent (fun s _ t => going s t = some v ∧ s.invalDone t.pad v = true)
      (fun s _ t => (s.endInval t.pad v).endOp sent) ∧
    OpEvent (.systemOpComplete o.id) sent (fun s _ t => going s t = some v ∧ s.invalDone t.pad v = false) fun s _ _ => s

/-- CFLUSH flushes the lines of its pages that translate, and its bundle goes on (R401). -/
def CflushEnds (o : SysOp) : Prop :=
  OpEvent (.systemOpComplete o.id) o (fun s _ t => s.haltedCore t.core = true) (fun s _ _ => s) ∧
  OpEvent (.systemOpComplete o.id) o (fun s _ t => s.haltedCore t.core = false) fun s _ t =>
    let r := s.spansOf t (State.isSuper t o.trap) o.arg o.arg2
    (r.1.flushLines (inSpans r.2)).endOp o

/-- CINV invalidates read copies of the lines of its pages that translate, once the earlier loads of its lanes are done, and its
bundle goes on (R401). -/
def CinvEnds (o : SysOp) : Prop :=
  let done := fun (s : State) => s.loadsDone o.sid o.id (BitVec.ofNat 32 o.arg2)
  OpEvent (.systemOpComplete o.id) o (fun s _ t => s.haltedCore t.core = false ∧ done s = true)
    (fun s z t =>
      let r := s.spansOf t (State.isSuper t o.trap) o.arg (o.arg2 / 2 ^ 32)
      (r.1.acquire z.core o.lvl (inSpans r.2)).endOp o) ∧
  OpEvent (.systemOpComplete o.id) o (fun s _ t => s.haltedCore t.core = true ∨ done s = false) fun s _ _ => s

/-- A job that ends lets each JWAIT of it go on with the job's status in its destination (R336, R343). Stated where no TAKE and no
other JWAIT waits. -/
def JwaitEnds (o : SysOp) : Prop :=
  ∀ (s : State) (t : Troop) (j : Job), s.ops = [o] → s.troop? o.tid = some t → j.pad = t.pad → j.id = o.arg →
    (∀ y ∈ s.strs, ∀ l ∈ y.lanes, ∀ k d n, l.park ≠ .take k d n) →
    s.terminate j = (((s.updJob j fun j => { j with terminated := true }).writeS o.sid o.depth o.arg2
      (BitVec.ofNat 64 j.status)).endOp o)

/-- A LAUNCH whose packet is in memory, with the extension and the initial record that it names, and passes its checks joins the
device-side queue, or is refused when that is full; a check that it fails gives its reason; the result word is written and the bundle
goes on (R346). -/
def LaunchEnds (o : SysOp) : Prop :=
  ∀ s z t p s' d, s.op? o.id = some o → s.str? o.sid = some z → s.troop? z.tid = some t → s.pad? t.pad = some p →
    s.haltedCore t.core = false → s.cellRailed (.op o.id) = false → (∀ x ∈ s.refusals, x.1 ≠ .op o.id) → o.words = [] →
    o.arg % 64 = 0 → s.readVirt o.sid t (State.isSuper t o.trap) o.arg 6 allBytes = (s', .ok d) →
    let words := wordsOfBytes 16 (lineSlice d 0 64)
    let u := s'.updOp o.id fun o => { o with words := words }
    let l := u.packetOf t words
    let x := { o with words := words }
    let ends := fun (u : State) => exec (.systemOpComplete o.id) s = .next u
    let refused := fun (u : State) (reason : Nat) => ends (u.endLaunchOp x reason l.pktid)
    let accepted := fun (u : State) (l : Launch) => (64 ≤ u.deviceQueued t.pad → refused u 0x10) ∧
      (u.deviceQueued t.pad < 64 → ends (({ u with nextId := u.nextId + 1, launches := u.launches ++ [{ l with id := u.nextId }] } :
        State).endLaunchOp x 0 l.pktid))
    let checked := fun (u : State) (l : Launch) =>
      (l.extOk = false → refused u 0x0E) ∧
      (l.extOk = true → (l.world = true ∧ t.secure = false) ∨ t.prio < l.prio → refused u 0x02) ∧
      (l.extOk = true → (l.world = true → t.secure = true) → l.prio ≤ t.prio →
        (l.type ≠ 4 → accepted u l) ∧
        (l.type = 4 →
          let mine := u.jobs.filter (·.pad == t.pad)
          ((∃ j ∈ mine, j.id = l.extWord 0x28 / 65536) ∨ 8 ≤ mine.length → refused u 0x0E) ∧
          ((∀ j ∈ mine, j.id ≠ l.extWord 0x28 / 65536) → mine.length < 8 → l.extWord 0x30 % 64 = 0 → ∀ v d,
            u.readVirt o.sid t (State.isSuper t o.trap) (l.extWord 0x30) 6 allBytes = (v, .ok d) →
            (taskOfBytes (lineSlice d 0 64) = none → refused v 0x0E) ∧ (taskOfBytes (lineSlice d 0 64) ≠ none → accepted v l))))
    (u.admitReason p l 3 ≠ 0 → refused u (u.admitReason p l 3)) ∧
    (u.admitReason p l 3 = 0 → l.extBytes = none → refused u 0x0E) ∧
    (u.admitReason p l 3 = 0 → l.extBytes = some 0 → checked u l) ∧
    (u.admitReason p l 3 = 0 → ∀ n v bs, l.extBytes = some n → n ≠ 0 →
      u.readLinesOf o.sid t (State.isSuper t o.trap) ((List.range n).map fun i => ((addr56 l.extVa).toNat + i) / 64 * 64).dedup =
        (v, .ok (some bs)) → checked v { l with ext := bs.take n })

/-- A CANCEL reaches the cores of its context one by one: each drops the job's queued records and wakes its TAKEs; with the last the
bundle goes on (R341). -/
def CancelEnds (o : SysOp) : Prop :=
  ∀ s z t core j left, s.op? o.id = some { o with cores := left } → s.str? o.sid = some z → s.troop? o.tid = some t →
    s.job? t.pad o.arg = some j → j.launch = o.arg2 → core ∈ left →
    let rest := left.filter (· != core)
    let s' := (s.cancelAt j core).updOp o.id fun o => { o with cores := rest }
    exec (.cancelBitSet o.id core) s =
      .next (if rest = [] then (s'.endOp { o with cores := left }).settleJobs else s'.settleJobs)

/-- The instruction starts an operation of its own and parks its bundle on it, when its condition holds, and the events of that
operation do the rest. -/
def StartsOp (i : Instr) (pre : State → Cur → Str → Troop → Prop) (kind : SysKind) (lvl : Level)
    (arg arg2 : Cur → Str → Nat) (rest : SysOp → Prop) : Prop :=
  Completes i (fun _ c _ _ => c.parts = 0) (fun s _ _ _ => s) ∧
  ∀ s c z t, Issues s i c z t → t.overflow = false → c.parts ≠ 0 → pre s c z t →
    let op : SysOp :=
      { id := s.nextId, sid := c.sid, tid := t.tid, kind := kind, lvl := lvl, pc := c.pc, next := c.next, mask := c.bundle
        depth := t.depth, trap := c.trap, phase := .waiting, arg := arg c z, arg2 := arg2 c z, cores := [], fault := none
        blocks := c.blocks, wasPref := z.pref == some c.pc }
    rest op ∧ ∃ z', exec i s = .next ({ s with ops := s.ops ++ [op], nextId := s.nextId + 1 }.updStr c.sid fun _ => z') ∧
      z' = { z with lanes := z'.lanes } ∧ Lanes z z' fun l x => if c.bundle.getLsbD l then { x with park := .op s.nextId } else x

/-! ### Bytes of memory -/

/-- A byte of physical memory as its home holds it: in the home LLC slice, or in DRAM (R196). -/
def homeByte (s : State) (a : Nat) : Byte :=
  match s.llcLine (a / 64) with
  | some l => lineByte l.data (a % 64)
  | none => Cells.get 0 s.mem a

/-- The bytes at some scratchpad places as one number, the first lowest. -/
def scrRead (m : Nat → Byte) (ps : List Nat) : Nat := natOfBytes (ps.map m)

/-- A scratchpad with bytes written, the later write of a place standing. -/
def scrWrite (m : Nat → Byte) (es : List (Nat × Byte)) (a : Nat) : Byte :=
  ((es.reverse.find? (·.1 == a)).map (·.2)).getD (m a)

/-- The lanes of an ATOMS, one after the other (R271): the scratchpad and the old values. -/
def atomsRun (o : Operands) : (Nat → Byte) → List (Nat × List Nat × Nat) → (Nat → Byte) × List (Nat × Nat)
  | m, [] => (m, [])
  | m, (l, ps, x) :: rs =>
    let old := scrRead m ps
    let m := match atomNew .atom o.fn.toNat o.ty old x 0 with
      | some y => scrWrite m (ps.zip (bytesOf (o.ty.width / 8) y))
      | none => m
    let (m, olds) := atomsRun o m rs
    (m, (l, old) :: olds)

/-- The scratchpad is not an input of any live node of the troop, and the string owes no flags of a forcing (R175). -/
def NothingForced (s : State) (c : Cur) (t : Troop) : Prop :=
  (∀ x ∈ s.nodes, x.tid ≠ t.tid ∧ x.forcers.contains c.sid = false) ∧ ∀ f ∈ s.pendFlags, f.1 ≠ c.sid

/-! ### Engine operations -/

/-- The operation that a copy instruction starts (R278). -/
def copyOp (s : State) (c : Cur) (z : Str) (t : Troop) (o : Operands) (kind : EngKind) (rows cols : Nat) (rs : Int) (op : Nat) :
    EngOp :=
  { id := s.nextId, sid := c.sid, kind := kind, lvl := o.level, dir := o.imm.getLsbD 8, record := z.breg o.b.toNat
    off := (z.sreg o.d.toNat).toNat, rows := rows, cols := cols, rstride := rs, origin := ((z.sreg o.a.toNat).toNat : Int)
    ty := o.ty, op := op, cvt := kind == .acpy2 && o.imm.getLsbD 9, ftz := z.ftz, fpc := z.fpctl
    cred := if o.imm.getLsbD 4 then some (bitsNat o.imm 3 0) else none, pc := c.pc, depth := t.depth, trap := c.trap
    super := c.super, dst := .empty, src := .empty, box := (0, 0, 0, 0), lanes := c.parts, done := [], railed := []
    fault := none, flags := 0 }

/-- A string after an engine operation of a class has left its counter: CWAITs of it whose condition now holds go on (R285). -/
def leavesCwait (s : State) (sid : Nat) (x : Lane) : Lane :=
  match x.park with
  | .cwait cls n => if s.engCount sid cls ≤ n then { x with park := .none } else x
  | _ => x

/-- What a copy instruction does with a shape and an operator (R247, R248, R278): it waits while its string's stores are not all
accepted or its counter is full; an operand out of its range or an unfit shape is BOUNDS; a fault of the scratchpad side or
of a global element traps; else one operation joins the counter and nothing else changes. `own` holds where the
instruction gets so far. -/
def CopyStarts (i : Instr) (o : Operands) (kind : EngKind) (shape : Str → Nat × Nat × Int) (op : Str → Nat) (ok : Str → Bool)
    (own : Troop → Prop) : Prop :=
  let e := fun (s : State) (c : Cur) (z : Str) (t : Troop) =>
    copyOp s c z t o kind (shape z).1 (shape z).2.1 (shape z).2.2 (op z)
  let waits := fun (s : State) (c : Cur) => s.storesPending c.sid s.nextId || s.engCount c.sid kind.cls == 63
  let fits := fun (s : State) (c : Cur) (z : Str) (t : Troop) =>
    (z.sreg o.d.toNat).toNat < 2 ^ 24 ∧ (z.sreg o.a.toNat).toNat < 2 ^ 32 ∧ ok z = true ∧
      ((e s c z t).cvt = true → copyCvtOk (e s c z t).record o.ty (e s c z t).dir = true)
  Completes i (fun _ c _ _ => c.parts = 0) (fun s _ _ _ => s) ∧
  (∀ s c z t, Issues s i c z t → t.overflow = false → c.parts ≠ 0 → own t → waits s c = true → Held s c i) ∧
  (∀ s c z t, Issues s i c z t → t.overflow = false → c.parts ≠ 0 → own t → waits s c = false → fits s c z t →
    (e s c z t).startFault t = none → (e s c z t).count ≠ 0 ∨ s.olderEng (e s c z t) = true →
    exec i s = .next { s with engs := s.engs ++ [e s c z t], nextId := s.nextId + 1 }) ∧
  (∀ s c z t, Issues s i c z t → t.overflow = false → c.parts ≠ 0 → own t → waits s c = false → fits s c z t →
    (e s c z t).startFault t = none → (e s c z t).count = 0 → s.olderEng (e s c z t) = false → (e s c z t).cred = none →
    (∀ f ∈ s.engs, f.id ≠ s.nextId) → (∀ f ∈ s.pendFlags, f.1 ≠ s.nextId) →
    ∃ z', exec i s = .next ({ s with nextId := s.nextId + 1 }.updStr c.sid fun _ => z') ∧ z' = { z with lanes := z'.lanes } ∧
      Lanes z z' fun _ x => leavesCwait s c.sid x) ∧
  Traps i (fun s c z t => c.parts ≠ 0 ∧ own t ∧ waits s c = false ∧ ¬ fits s c z t) .bounds ∧
  ∀ f, Traps i (fun s c z t => c.parts ≠ 0 ∧ own t ∧ waits s c = false ∧ fits s c z t ∧ (e s c z t).startFault t = some f) f

/-- A matrix operation that its quarter runs ends: its results are written to the lanes that have not exited, its flags reach FPFLAGS
and the quarter goes on (R140, R142). -/
def MatWrites (op : MatOp) : Prop :=
  ∀ s core q bad1 bad2 z t, (s.quarter core q).run = some op → s.str? op.sid = some z → s.troop? z.tid = some t → op.tid = t.tid →
    Room z t op.regs.length → op.chk && bad1 = false → op.flags &&& op.enabled = 0 → (op.writes.map (·.1)).Nodup →
    (∀ e ∈ op.writes, e.1 / 32 ∈ op.regs) →
    ∃ z', exec (.matrixOpComplete core q bad1 bad2) s =
        .next (((s.putQuarter { s.quarter core q with run := none }).updStr op.sid fun _ => z').settleQuarters core) ∧
      z' = { z with v := z'.v, bag := z'.bag, fpflags := z.fpflags ||| op.flags.setWidth 32 } ∧ (t.depth = 0 → z'.bag = z.bag) ∧
      (∀ e ∈ op.writes, Cells.get 0 z'.v e.1 = if (z.lane (e.1 % 32)).exited then Cells.get 0 z.v e.1 else e.2) ∧
      ∀ k, (∀ e ∈ op.writes, e.1 ≠ k) → Cells.get 0 z'.v k = Cells.get 0 z.v k

/-- The operation of a tile instruction leaves its counter, in the order of its class, once its items and the cells that it demanded are
done and its writes are performed; before that it stands (R167, R247, R249). -/
def TileEnds (e : EngOp) : Prop :=
  ∀ s b z t, s.eng? e.id = some b → b.sid = e.sid → b.kind = e.kind → e.kind.cls = 1 → s.str? e.sid = some z → s.troop? z.tid = some t →
    let finished := s.olderEng b = false ∧ s.engWritesDone b = true ∧ s.demandsEnded t b = true ∧
      ∀ k < b.tileCount (s.srcDesc t b).kcols, k ∈ b.done
    (finished → exec (.tileOpRetire e.id) s = .next ((s.retireEng b).freeNodes.settleOverflow t.tid)) ∧
    (¬ finished → exec (.tileOpRetire e.id) s = .next s)

/-! ### Tile registers -/

/-- The instruction completes and gives a tile register of its string a value; the nodes left are some of those there were (R169). -/
def SetsTile (i : Instr) (d : Byte) (pre : State → Cur → Str → Troop → Prop) (val : Cur → Str → TileVal) : Prop :=
  Completes i (fun _ c _ _ => c.parts = 0) (fun s _ _ _ => s) ∧
  ∀ s c z t, Issues s i c z t → t.overflow = false → c.parts ≠ 0 → pre s c z t →
    ∃ z' ns, exec i s = .next ({ s with nodes := ns }.updStr c.sid fun _ => z') ∧ (∀ x ∈ ns, x ∈ s.nodes) ∧
      z' = { z with t := z'.t, tiles := z'.tiles } ∧ (t.depth = 0 → z'.tiles = z.tiles) ∧
      ∀ n, z'.treg n = if n = d.toNat then val c z else z.treg n

/-- The instruction appends a node (R158 to R163): with its inputs fit and its quota not full, the node takes the lowest free
entry of its core and D names it; unfit inputs trap; a full quota with no spill area traps (R173). -/
def Appends (i : Instr) (d : Byte) (node : State → Cur → Str → Troop → Option Node) : Prop :=
  Completes i (fun _ c _ _ => c.parts = 0) (fun s _ _ _ => s) ∧
  (∀ s c z t x n, Issues s i c z t → t.overflow = false → c.parts ≠ 0 → node s c z t = some x →
    (s.nodes.filter (·.tid == t.tid)).length < t.stq → n < 256 → (∀ y ∈ s.nodes, y.core = x.core → y.n ≠ n) →
    (∀ m < n, ∃ y ∈ s.nodes, y.core = x.core ∧ y.n = m) →
    ∃ z' ns, exec i s = .next ({ s with nodes := ns, nextId := s.nextId + 1 }.updStr c.sid fun _ => z') ∧
      { x with n := n, seq := s.nextId } ∈ ns ∧ (∀ y ∈ ns, y ∈ s.nodes ∨ y = { x with n := n, seq := s.nextId }) ∧
      z' = { z with t := z'.t, tiles := z'.tiles } ∧ (t.depth = 0 → z'.tiles = z.tiles) ∧
      ∀ m, z'.treg m = if m = d.toNat then .node n else z.treg m) ∧
  Traps i (fun s c z t => c.parts ≠ 0 ∧ node s c z t = none) .tileShape ∧
  Traps i (fun s c z t => c.parts ≠ 0 ∧ node s c z t ≠ none ∧ t.stq ≤ (s.nodes.filter (·.tid == t.tid)).length ∧
    (t.stq = 0 ∨ t.stSpill.size = 0)) .stableOverflow

/-! ### Recovery -/

/-- What the end of a troop by an error leaves (R397, R328): the troop has ended with its cause and holds nothing; its strings, its nodes,
its work in flight and its bytes in the buffers are gone; its launch counts one troop less and keeps its first cause. Another troop's string
may go on from a barrier that the two share. Memory, caches and writes on their way stay. -/
def Stopped (s u : State) (t : Troop) (cause : Cause) : Prop :=
  let own := fun (sid : Nat) => ∃ z ∈ s.strs, z.tid = t.tid ∧ z.sid = sid
  u.troop? t.tid = some { t with st := .ended (some cause), blocks := [], arrivals := [], words := [], scratch := [], tandem := none,
                                 joining := none, overflow := false, failing := none, fails := [], rcPending := [] } ∧
  (∀ z ∈ u.strs, z.tid ≠ t.tid) ∧
  (∀ z ∈ s.strs, z.tid ≠ t.tid → ∃ y ∈ u.strs, y = { z with lanes := y.lanes, s := y.s, bag := y.bag }) ∧
  (∀ x ∈ u.nodes, x.tid ≠ t.tid) ∧ (∀ a, a ∈ u.accs ↔ a ∈ s.accs ∧ ¬ own a.sid) ∧ (∀ o, o ∈ u.ops ↔ o ∈ s.ops ∧ o.tid ≠ t.tid) ∧
  (∀ e, e ∈ u.engs ↔ e ∈ s.engs ∧ ¬ own e.sid) ∧ (∀ e, e ∈ u.rail ↔ e ∈ s.rail ∧ e.tid ≠ t.tid) ∧
  (∀ l ∈ u.lines, (∀ sid, own sid → l.space ≠ .str sid) ∧ l.space ≠ .trp t.tid ∧
    (∀ c, l.space = .clu c → l.epoch = 0 → l.held = false → ∀ i < 64, l.mask.getLsbD i = true → (i, .trp t.tid) ∉ l.comm) ∧
    (∀ c, l.space = .clu c → l.epoch ≠ 0 ∨ l.held = true → l.owner ≠ .trp t.tid)) ∧
  u.launches = updFirst (·.id == t.launch) (fun l => { l with live := l.live - 1, cause := if l.cause.isSome then l.cause else some cause })
    s.launches ∧
  u.mem = s.mem ∧ u.llc = s.llc ∧ u.l1 = s.l1 ∧ u.l2 = s.l2 ∧ u.writes = s.writes

/-- What the recorded prior values of depth j and deeper give a register back: those of the smallest depth (R423). -/
def oldVals (z : Str) (j : Nat) (k : BagKey) : Option (List Nat) := ((oldest j z.bag).find? (·.key == k)).map (·.vals)

/-- A string after its depths j and deeper have been rolled back (R176, R419, R421, R423): each recorded register holds its old value
and every other its value; FPFLAGS stays; no lane is parked, in trap mode, in a predicate block or yielded; late faults of those depths
are gone, and so are their records. -/
def Restored (z y : Str) (j : Nat) : Prop :=
  let old := oldVals z j
  (∀ n l, l < 32 → y.vreg n l = match old (.v n) with | some xs => BitVec.ofNat 32 (xs.getD l 0) | none => z.vreg n l) ∧
  (∀ n, y.sreg n = match old (.s n) with | some xs => BitVec.ofNat 64 (xs.headD 0) | none => z.sreg n) ∧
  (∀ n, Cells.get 0 y.p n = match old (.p n) with | some xs => BitVec.ofNat 32 (xs.headD 0) | none => Cells.get 0 z.p n) ∧
  (∀ n, y.breg n = match old (.b n) with | some xs => BitVec.ofNat 256 (xs.headD 0) | none => z.breg n) ∧
  (∀ n, y.treg n = match z.tiles.find? (fun e => e.n == n && decide (j ≤ e.tag) &&
      z.tiles.all fun f => f.n != n || decide (f.tag < j) || decide (e.tag ≤ f.tag)) with | some e => e.val | none => z.treg n) ∧
  y.fpctl = (match old .fpctl with | some xs => BitVec.ofNat 32 (xs.headD 0) | none => z.fpctl) ∧
  y.strctl = (match old .strctl with | some xs => BitVec.ofNat 32 (xs.headD 0) | none => z.strctl) ∧
  y.trapBase = (match old .trapBase with | some xs => BitVec.ofNat 64 (xs.headD 0) | none => z.trapBase) ∧
  y.bag.map (fun e => { e with spill := none }) = (z.bag.filter (·.tag < j)).map (fun e => { e with spill := none }) ∧
  y.tiles = z.tiles.filter (·.tag < j) ∧ y.lateq = z.lateq.filter (·.depth < j) ∧
  y.fetchFaults = [] ∧ y.pref = none ∧ y.retPc = 0 ∧
  y.lanes = z.lanes.map (fun l => { l with trap := false, block := none, park := .none, settle := none, wait := 0, yielded := false }) ∧
  y = { z with v := y.v, s := y.s, p := y.p, b := y.b, t := y.t, fpctl := y.fpctl, strctl := y.strctl, trapBase := y.trapBase
               bag := y.bag, tiles := y.tiles, lateq := y.lateq, fetchFaults := y.fetchFaults, pref := y.pref, retPc := y.retPc
               lanes := y.lanes }

/-- One string of each id, and one recorded value for each register, tile register and word of a troop and depth; what starts strings and
what records keeps it so (R421). -/
def RecordedOnce (s : State) (t : Troop) (j : Nat) : Prop :=
  (s.strs.map (·.sid)).Nodup ∧ (∀ z ∈ s.strsOf t.tid, ((oldest j z.bag).map (·.key)).Nodup ∧ (z.tiles.map fun e => (e.n, e.tag)).Nodup) ∧
  ((oldestWords j t.words).map (·.word)).Nodup

/-- A rollback of a troop to depth j − 1 (R215, R222, R419): its strings are restored, its recorded scratchpad words hold their old
values, its buffers have no copy of a failed depth and what those covered is uncovered, and no access, operation or engine operation of a
failed depth is left; memory is as it was. -/
def RolledBack (s u : State) (t : Troop) (j : Nat) : Prop :=
  let own := fun (sid : Nat) => ∃ z ∈ s.strs, z.tid = t.tid ∧ z.sid = sid
  (∀ z ∈ s.strsOf t.tid, ∃ y ∈ u.strs, Restored z y j) ∧
  (∃ t', u.troop? t.tid = some t' ∧ t'.arrivals = [] ∧ t'.joining = none ∧ t'.overflow = false ∧ t'.failing = none ∧
    t'.blocks = t.blocks ∧ (∀ e ∈ t'.words, e.tag < j) ∧
    ∀ a, t'.scratchByte a = match (oldestWords j t.words).find? (·.word == a / 4) with
      | some e => BitVec.ofNat 8 (e.val >>> (8 * (a % 4)))
      | none => t.scratchByte a) ∧
  (∀ l, l ∈ u.lines ↔ ∃ m ∈ s.lines, ¬(s.ofTroop t m = true ∧ j ≤ m.epoch) ∧
    l = if s.ofTroop t m = true ∧ j ≤ m.covered then { m with covered := 0 } else m) ∧
  (∀ a, a ∈ u.accs ↔ a ∈ s.accs ∧ ¬(own a.sid ∧ j ≤ a.depth)) ∧ (∀ e, e ∈ u.engs ↔ e ∈ s.engs ∧ ¬(own e.sid ∧ j ≤ e.depth)) ∧
  (∀ o, o ∈ u.ops ↔ o ∈ s.ops ∧ ¬(o.tid = t.tid ∧ j ≤ o.depth)) ∧
  u.mem = s.mem ∧ u.llc = s.llc ∧ u.l1 = s.l1 ∧ u.l2 = s.l2

/-- Of the failures that a clock has found, the one that takes effect: of the outermost depth, and there of the lowest FKIND (R418). -/
def Leads (fs : List Failure) (f : Failure) : Prop :=
  ∃ before after, fs = before ++ f :: after ∧ (∀ g ∈ before, 8 * f.depth + f.kind < 8 * g.depth + g.kind) ∧
    ∀ g ∈ after, 8 * f.depth + f.kind ≤ 8 * g.depth + g.kind

/-- What the failures of a troop's alternates come to as the clock ends (R418 to R420, R425): each string records FKIND and FCAUSE, the
work of the failed depths is cancelled and undone, and then every lane that has not exited goes on with the next alternate, or the block
closes, with RECOVERY_EXHAUSTED at depth 1 and the failure of the enclosing block at a deeper one. Stated for a troop in no tandem and of no
redundant pair, with nothing to force before it and nothing to read back. -/
def FailureEnds (s : State) : Prop :=
  ∀ t f b s', s.troop? t.tid = some t → t.tandem = none → t.outr = none → t.failing = none → Leads t.fails f → 0 < f.depth →
    t.blocks[f.depth - 1]? = some b →
    let noted := fun (z : Str) => { z with fkind := f.kind, fcause := if f.kind = 7 then z.fcause else f.cause }
    let marked := ({ s with strs := updAll (·.tid == t.tid) noted s.strs } : State).updTroop t.tid fun t => { t with fails := [] }
    marked.rollbackForce t.tid f.depth s.nextId = (s', true) →
    let u := s'.rollback t.tid f.depth
    (f.final = false → b.alt + 1 < b.alts.length →
      s.takeFail t = (u.updTroop t.tid fun t => { t with blocks := t.blocks.take (f.depth - 1) ++
        [{ b with alt := b.alt + 1, inTest := false, draining := none, count := 0 }] }).moveTroop t.tid (b.alts.getD (b.alt + 1) 0)) ∧
    (f.final = true ∨ b.alts.length ≤ b.alt + 1 →
      (f.depth = 1 → s.takeFail t = (u.closeBlock t.tid 1).exhaust t.tid (b.alts.getD 0 0 - 20)) ∧
      (f.depth ≠ 1 → ∀ v, (u.closeBlock t.tid f.depth).troop? t.tid = some v → s.takeFail t =
        State.failBlock 4 (u.closeBlock t.tid f.depth) v { depth := f.depth - 1, kind := 7, cause := f.cause, each := true } false))

/-! ### The saddlebag -/

/-- The prior value of a register as the saddlebag records it (R421). -/
def prior (z : Str) : BagKey → List Nat
  | .v n => (List.range 32).map fun l => (z.vreg n l).toNat
  | .s n => [(z.sreg n).toNat]
  | .p n => [(Cells.get 0 z.p n).toNat]
  | .b n => [(z.breg n).toNat]
  | .fpctl => [z.fpctl.toNat]
  | .strctl => [z.strctl.toNat]
  | .trapBase => [z.trapBase.toNat]

/-- The string and the troop after the first write of a register in the epoch of depth k (R421, R422): a register that this epoch has
recorded is not recorded again; else its prior value joins the saddlebag, or, when that is full, the recovery spill area, where its 192
bytes stand at the allocation point and are to be written; with no room there either the troop is marked. -/
def Records (z z' : Str) (t t' : Troop) (k : Nat) (key : BagKey) : Prop :=
  let known := ∃ e ∈ z.bag, e.key = key ∧ e.tag = k
  let held := (z.bag.filter fun e => !e.spilled).length
  let room := t.rcSpill.shut = false ∧ t.rcSpill.used + 192 ≤ t.rcSpill.size
  let at0 := t.rcSpill.base + t.rcSpill.used
  let bytes := z.sid :: k :: key.code :: prior z key
  (known → z'.bag = z.bag ∧ t' = t) ∧
  (¬ known → held < t.bagRows → z'.bag = z.bag ++ [{ key := key, tag := k, vals := prior z key }] ∧ t' = t) ∧
  (¬ known → t.bagRows ≤ held → room →
    z'.bag = z.bag ++ [{ key := key, tag := k, vals := prior z key, spill := some (at0, bytes) }] ∧
    t' = { t with rcSpill := { t.rcSpill with used := t.rcSpill.used + 192 }, rcPending := t.rcPending ++ [(at0, 192, bytes)] }) ∧
  (¬ known → t.bagRows ≤ held → ¬ room → z'.bag = z.bag ∧ t' = { t with overflow := true })

/-- The failure that a saddlebag without room is: of the whole block (R422). -/
def overflowed (t : Troop) : Failure := { depth := t.depth, kind := 4, cause := 0x24, final := true }

/-- An instruction that writes one register in a recovery block: the register is recorded and takes its value, also when there is no room
left, in which case the block has failed with SADDLEBAG_OVERFLOW besides (R421, R422). `wrote` says what the write leaves in the string. -/
def WritesInBlock (i : Instr) (key : BagKey) (pre : Cur → Str → Troop → Prop) (wrote : Cur → Str → Str → Prop) : Prop :=
  ∀ s c z t, Issues s i c z t → t.overflow = false → t.failing = none → t.fails = [] → t.depth ≠ 0 → c.parts ≠ 0 → pre c z t →
    ∃ u z' t1 t', exec i s = .next u ∧ u.str? c.sid = some z' ∧ u.troop? t.tid = some t' ∧ Records z z' t t1 t.depth key ∧
      t' = (if t1.overflow then { t1 with fails := [overflowed t] } else t1) ∧ wrote c z z' ∧ u.mem = s.mem

/-- The write of a scratchpad word in a recovery block: its prior value is recorded at its first write in the epoch, in the troop's
saddlebag of 1,024 words or in 8 bytes of the recovery spill area, of which eight fill a unit (R421, R422). -/
def RecordsWord (t t' : Troop) (w : Nat) : Prop :=
  let known := t.depth = 0 ∨ ∃ e ∈ t.words, e.word = w ∧ e.tag = t.depth
  let held := (t.words.filter fun e => !e.spilled).length
  let a := t.rcSpill
  let spills := fun (at0 : Nat) (b : Area) =>
    t' = { t with words := t.words ++ [{ word := w, tag := t.depth, val := t.scratchWord w, spill := some (at0, [w, t.depth, t.scratchWord w]) }]
                  rcSpill := b, rcPending := t.rcPending ++ [(at0, 8, [w, t.depth, t.scratchWord w])] }
  (known → t' = t) ∧
  (¬ known → held < 1024 → t' = { t with words := t.words ++ [{ word := w, tag := t.depth, val := t.scratchWord w }] }) ∧
  (¬ known → 1024 ≤ held → a.shut = false → 0 < a.fill → a.fill < 8 → spills (a.base + a.unit + 8 * a.fill) { a with fill := a.fill + 1 }) ∧
  (¬ known → 1024 ≤ held → a.shut = false → a.fill = 0 ∨ 8 ≤ a.fill → a.used + 64 ≤ a.size →
    spills (a.base + a.used) { a with used := a.used + 64, unit := a.used, fill := 1 }) ∧
  (¬ known → 1024 ≤ held → a.shut = true ∨ ((a.fill = 0 ∨ 8 ≤ a.fill) ∧ a.size < a.used + 64) → t' = { t with overflow := true })

/-- No cache holds the atomic authority of a line. -/
def NoAuthority (s : State) : Prop := (∀ c ∈ s.l1, c.auth = false) ∧ ∀ c ∈ s.l2, c.auth = false

/-- A reset of a paddock (R305): no troop, string, buffer line, access, operation, hitched request, record, range or queue of it is left;
each of its launches is to complete as cancelled; its registers say so, its landing zones are closed, and its status counts a reset. The
troops, strings and launches of other paddocks stay. -/
def Resets (s u : State) (p : Paddock) : Prop :=
  let tids := (s.troops.filter (·.pad == p.n)).map (·.tid)
  let sids := (s.strs.filter fun z => tids.contains z.tid).map (·.sid)
  u.troops = s.troops.filter (·.pad != p.n) ∧ u.strs = s.strs.filter (fun z => !tids.contains z.tid) ∧
  (∀ l ∈ u.lines, (∀ i ∈ sids, l.space ≠ .str i) ∧ (∀ i ∈ tids, l.space ≠ .trp i) ∧ ∀ k ∈ p.clusters, l.space ≠ .clu k) ∧
  (∀ a ∈ u.accs, a.sid ∉ sids) ∧ (∀ o ∈ u.ops, o.tid ∉ tids) ∧ (∀ e ∈ u.engs, e.sid ∉ sids) ∧ (∀ x ∈ u.nodes, x.tid ∉ tids) ∧
  (∀ e ∈ u.rail, e.pad ≠ p.n) ∧ (∀ q ∈ u.queues, q.pad ≠ p.n) ∧ (∀ r ∈ u.ranges, r.pad ≠ p.n) ∧ (∀ j ∈ u.jobs, j.pad ≠ p.n) ∧
  (∀ m ∈ u.mangers, ∀ k ∈ p.clusters, m.core / 8 ≠ k) ∧ (∀ c ∈ u.l1, ∀ k ∈ p.clusters, c.place / 8 ≠ k) ∧
  (∀ n ∈ u.notices, n.src = 0 → n.pad ≠ p.n) ∧
  u.launches = s.launches.filter (·.pad != p.n) ++ (s.launches.filter (·.pad == p.n)).map (fun l =>
    { l with cancelled := true, stage := 7, live := 0, job := none }) ∧
  (∃ q, u.pad? p.n = some q ∧ q.st = .reset ∧ q.busy = false ∧ q.result = 0 ∧ q.marked = [] ∧ q.trapBase = 0 ∧ q.fqBase = 0 ∧
    q.inval = none ∧ (∀ z ∈ q.zones, z.2.enable = false) ∧ q.csbData.resets = min 255 (p.csbData.resets + 1) ∧
    q.intStat = p.intStat ||| 4#5) ∧
  (∀ k ∈ p.clusters, ∀ i < 8, Cells.get 0 u.coreBase (8 * k + i) = s.clock) ∧ u.contexts = s.contexts

/-- A resumption of a context on the clusters `g` and the cores `f` (R203, R242, R307): its strings, with their ages at 0, its troops,
buffers, work, ranges, jobs and launches are in the machine again on their new places, with what it held; a line that was translated is
translated again; read copies of its new cores are gone; its context has left its slot. -/
def Restores (s u : State) (x : Context) (g f : Nat → Nat) : Prop :=
  u.strs = s.strs ++ x.strs.map (fun z => { z with core := f z.core, age := 0, issued := false }) ∧
  u.troops = s.troops ++ x.troops.map (fun t => { t with core := f t.core }) ∧
  u.tandems = s.tandems ++ x.tandems ∧ u.bars = s.bars ++ x.bars ∧
  u.lines = s.lines ++ x.lines.map (fun l => match l.space with | .clu c => { l with space := .clu (g c) } | _ => l) ∧
  u.accs = s.accs ++ x.accs.map (fun a => { a with lines := a.lines.map fun l =>
    match l.st with | .ready .. => { l with st := .fresh, sure := false } | _ => l }) ∧
  u.ops = s.ops ++ x.ops.map (fun o => { o with cores := o.cores.map f }) ∧ u.pendJ = s.pendJ ++ x.pendJ ∧
  u.engs = s.engs ++ x.engs.map (fun e =>
    { e with tree := e.tree.map fun y => { y with core := f y.core }, work := e.work.map fun y => { y with core := f y.core } }) ∧
  u.nodes = s.nodes ++ x.nodes.map (fun y => { y with core := f y.core }) ∧ u.ranges = s.ranges ++ x.ranges ∧
  u.partials = s.partials ++ x.partials ∧ (∃ ms, u.mangers = ms ++ x.mangers.map fun m => { m with core := f m.core }) ∧
  u.rings = s.rings ++ x.rings.map (fun r => { r with core := f r.core }) ∧
  (∃ js, u.jobs = s.jobs ++ js ∧ js.map (fun j => (j.id, j.cancelCores)) = x.jobs.map fun j => (j.id, j.cancelCores.map f)) ∧
  u.launches = s.launches ++ x.launches.map (fun l => { l with cores := l.cores.map f }) ∧ u.contexts = s.contexts.erase x ∧
  (∀ k ∈ x.cores, (∀ c ∈ u.l1, c.place ≠ f k) ∧
    ∀ c ∈ u.l2, c.place = dieOf (f k) → onDevice c.line = true ∧ homeDie c.line = dieOf (f k)) ∧ u.mem = s.mem ∧ u.pads = s.pads

/-- CFLUSH's effect on the lines that `p` names (R244, R401): no cache holds them any more, and what their homes held is in memory;
other lines, buffers and partial lines stay. Where an L2 holds the authority of a line, its written bytes go home first. -/
def Flushes (s : State) (p : Nat → Bool) : Prop :=
  let u := s.flushLines p
  ((∀ c ∈ s.l1 ++ s.l2, c.auth = true → p c.line = false) →
    u = { s with l1 := s.l1.filter (!p ·.line), l2 := s.l2.filter (!p ·.line), llc := s.llc.filter (!p ·.line), mem := u.mem
                 poison := u.poison, upsets := u.upsets } ∧
    (∀ a, homeByte u a = homeByte s a) ∧ (∀ a, p (a / 64) = true → Cells.get 0 u.mem a = homeByte s a) ∧
    ∀ a, p (a / 64) = false → Cells.get 0 u.mem a = Cells.get 0 s.mem a) ∧
  (s.writes = [] → (∀ c ∈ u.l1, p c.line = false) ∧ (∀ c ∈ u.l2, p c.line = false) ∧ ∀ c ∈ u.llc, p c.line = false) ∧
  ∀ line c, holder s.l1 line = none → holder s.l2 line = some c → s.writes = [] → s.peerDown (64 * line) = false →
    (s.llcLine line ≠ none ∨ (s.poison.contains line = false ∧ Cells.get 0 s.upsets line = 0)) →
    (∀ a, homeByte (s.returnAuth line) a = if a / 64 = line ∧ c.dirty.getLsbD (a % 64) = true then lineByte c.data (a % 64)
      else homeByte s a) ∧ holder (s.returnAuth line).l2 line = none

/-! ### The whole machine -/

/-- A settle marker holds no lane longer than what it waits for: something that it waits for is still out (R36). -/
def MarkersHold (s : State) : Prop :=
  ∀ z ∈ s.strs, ∀ l ∈ z.lanes, ∀ m, l.settle = some m → s.settledLane z m = false

/-- An operand record with the fields that the one-word form leaves at their implied values (R49). -/
def plain (len : Len) (fn : BitVec 6) (d a : Byte) (ty : Ty) : Operands :=
  { len := len, settle := false, fn := fn, d := d, a := a, b := 0, c := 0, ty := ty, rm := .rne, sat := false, nega := false
    negb := false, negc := false, absa := false, spec := false, level := .str, imm := 0, lit := 0 }

end Sys2Proof.Claims
end

