-- ==== Sys2Proof/Certificates/Slice0/Obligations.lean ====
section
/-! DEFINITION. The statements for the provers. Each docstring names the rules of spec/ that the statement formalises; the terms
are those of Sys2Proof/Safety.lean. -/

open Sys2Proof Sys2Proof.Machine Sys2Proof.Claims

/-! ### Results of the lane instructions -/

/-- R98, R99: the integer arithmetic instructions write the exact result, reduced to the type, for every participant, and change
nothing else. IDIV and IREM trap when SPEC asks for the trap and a participant's divisor is zero. -/
def Obligations.IntegerArithmetic : Prop :=
  (∀ o, IntResult (.iadd o) o.ty o.d fun _ z l => wrInt o.ty o.sat (intA z o l + intB z o l)) ∧
  (∀ o, IntResult (.isub o) o.ty o.d fun _ z l => wrInt o.ty o.sat (intA z o l - intB z o l)) ∧
  (∀ o, o.fn = 0 → IntResult (.imul o) o.ty o.d fun _ z l => wrInt o.ty o.sat (intA z o l * intB z o l)) ∧
  (∀ o, o.fn = 1 → IntResult (.imul o) o.ty o.d fun _ z l => wrInt o.ty o.sat (intA z o l * intB z o l / 2 ^ o.ty.width)) ∧
  (∀ o, o.fn = 2 → IntResult (.imul o) .b64 o.d fun _ z l => wrapNat 64 (intA z o l * intB z o l)) ∧
  (∀ o, IntResult (.imad o) o.ty o.d fun _ z l => wrInt o.ty o.sat (intA z o l * intB3 z o l + intC z o l)) ∧
  (∀ o, IntResult (.imin o) o.ty o.d fun _ z l => wrInt o.ty o.sat (min (intA z o l) (intB z o l))) ∧
  (∀ o, IntResult (.imax o) o.ty o.d fun _ z l => wrInt o.ty o.sat (max (intA z o l) (intB z o l))) ∧
  (∀ o, IntResult (.iabs o) o.ty o.d fun _ z l => wrInt o.ty o.sat |intA z o l|) ∧
  (∀ o, IntResult (.iabsExt o) o.ty o.d fun _ z l => wrInt o.ty o.sat |intA z o l|) ∧
  (∀ o, VResult (.idiv o) 2 (fun c z _ => zeroDivisor c z o = false) (fun _ _ _ => 0) fun _ z _ n l =>
    oneDest o.ty o.d.toNat (if intB z o l = 0 then 2 ^ 32 - 1 else wrInt o.ty o.sat ((intA z o l).tdiv (intB z o l))) n) ∧
  (∀ o, VResult (.irem o) 2 (fun c z _ => zeroDivisor c z o = false) (fun _ _ _ => 0) fun _ z _ n l =>
    oneDest o.ty o.d.toNat (wrInt o.ty false (if intB z o l = 0 then intA z o l else (intA z o l).tmod (intB z o l))) n) ∧
  (∀ o, Traps (.idiv o) (fun _ c z _ => zeroDivisor c z o = true) .intDivideZero) ∧
  (∀ o, Traps (.irem o) (fun _ c z _ => zeroDivisor c z o = true) .intDivideZero)

/-- R100 to R102: the bit instructions write their result for every participant, and change nothing else. -/
def Obligations.BitInstructions : Prop :=
  (∀ o, IntResult (.and o) o.ty o.d fun _ z l => (z.src o false o.ty o.a l &&& z.src o true o.ty o.b l) % 2 ^ o.ty.width) ∧
  (∀ o, IntResult (.or o) o.ty o.d fun _ z l => (z.src o false o.ty o.a l ||| z.src o true o.ty o.b l) % 2 ^ o.ty.width) ∧
  (∀ o, IntResult (.xor o) o.ty o.d fun _ z l => (z.src o false o.ty o.a l ^^^ z.src o true o.ty o.b l) % 2 ^ o.ty.width) ∧
  (∀ o, IntResult (.shl o) o.ty o.d fun _ z l =>
    (z.src o false o.ty o.a l <<< z.src o true .b32 o.b l) % 2 ^ o.ty.width) ∧
  (∀ o, IntResult (.shr o) o.ty o.d fun _ z l =>
    (z.src o false o.ty o.a l % 2 ^ o.ty.width) >>> z.src o true .b32 o.b l) ∧
  (∀ o, IntResult (.sar o) o.ty o.d fun _ z l => sarBits o.ty.width (z.src o false o.ty o.a l) (z.src o true .b32 o.b l)) ∧
  (∀ o, IntResult (.rot o) o.ty o.d fun _ z l =>
    rotBits o.ty.width (z.src o false o.ty o.a l) (z.src o true .b32 o.b l) % 2 ^ o.ty.width) ∧
  (∀ o, IntResult (.bfx o) o.ty o.d fun _ z l =>
    bfxBits o.ty (z.src o false o.ty o.a l) (z.src o false .b32 o.b l) (z.src o true .b32 o.c l)) ∧
  (∀ o, IntResult (.bfi o) o.ty o.d fun _ z l =>
    bfiBits o.ty.width (z.vval o.ty o.d.toNat l) (z.src o false o.ty o.a l) (z.src o false .b32 o.b l) (z.src o true .b32 o.c l)) ∧
  (∀ o, IntResult (.popc o) .b32 o.d fun _ z l => popBits o.ty.width (z.src o true o.ty o.a l)) ∧
  (∀ o, IntResult (.popcExt o) .b32 o.d fun _ z l => popBits o.ty.width (z.src o true o.ty o.a l)) ∧
  (∀ o, IntResult (.clz o) .b32 o.d fun _ z l => clzBits o.ty.width (z.src o true o.ty o.a l)) ∧
  (∀ o, IntResult (.clzExt o) .b32 o.d fun _ z l => clzBits o.ty.width (z.src o true o.ty o.a l)) ∧
  (∀ o, IntResult (.ctz o) .b32 o.d fun _ z l => ctzBits o.ty.width (z.src o true o.ty o.a l)) ∧
  (∀ o, IntResult (.ctzExt o) .b32 o.d fun _ z l => ctzBits o.ty.width (z.src o true o.ty o.a l)) ∧
  (∀ o, IntResult (.brev o) o.ty o.d fun _ z l => revBits o.ty.width (z.src o true o.ty o.a l)) ∧
  (∀ o, IntResult (.brevExt o) o.ty o.d fun _ z l => revBits o.ty.width (z.src o true o.ty o.a l))

/-- R104, R106 to R108: moves, selection, and the two address instructions, which trap when a participant's address leaves
the canonical range. -/
def Obligations.MovesAndAddresses : Prop :=
  (∀ o, IntResult (.movi o) .b32 o.d fun _ _ _ => (o.imm.signExtend 32).toNat) ∧
  (∀ o, IntResult (.mov o) o.ty o.d fun _ z l => z.src o true o.ty o.a l) ∧
  (∀ o, IntResult (.movExt o) o.ty o.d fun _ z l => z.src o true o.ty o.a l) ∧
  (∀ o, IntResult (.isel o) o.ty o.d fun _ z l =>
    if z.preg o.c.toNat l then z.vval o.ty o.a.toNat l else z.vval o.ty o.b.toNat l) ∧
  (∀ o, IntResult (.stov o) (if o.spec then .b64 else .b32) o.d fun _ z _ => (z.sreg o.a.toNat).toNat) ∧
  (∀ o, IntResult (.stovExt o) (if o.spec then .b64 else .b32) o.d fun _ z _ => (z.sreg o.a.toNat).toNat) ∧
  (∀ o, VResult (.adda o) 2
    (fun c z _ => ∀ l ∈ c.lanes, -(2 ^ 55 : Nat) ≤ addaSum z o l ∧ addaSum z o l < (2 ^ 55 : Nat)) (fun _ _ _ => 0)
    fun _ z _ n l => oneDest .b64 o.d.toNat (wrapNat 64 (addaSum z o l)) n) ∧
  (∀ o, VResult (.lea o) 2 (fun c z _ => ∀ l ∈ c.lanes, spanOk (leaAddr z o l) (recSize (z.breg o.b.toNat))) (fun _ _ _ => 0)
    fun _ z _ n l => oneDest .b64 o.d.toNat (dwordOf (BitVec.ofInt 56 (leaAddr z o l))).toNat n) ∧
  (∀ o, Traps (.adda o) (fun _ c z _ => ∃ l ∈ c.lanes, addaSum z o l < -(2 ^ 55 : Nat) ∨ (2 ^ 55 : Nat) ≤ addaSum z o l)
    .noncanonical) ∧
  (∀ o, Traps (.lea o) (fun _ c z _ => ∃ l ∈ c.lanes, spanOk (leaAddr z o l) (recSize (z.breg o.b.toNat)) = false) .noncanonical)

/-- R84, R103, R105, R111, R118: the instructions that write a predicate register; FSETP traps on an enabled flag; p7 reads as
true. -/
def Obligations.PredicateResults : Prop :=
  (∀ o, PResult (.isetp o) o.d (fun _ _ => 0) fun _ z l => condInt o.fn.toNat (intA z o l) (intB z o l)) ∧
  (∀ o, PResult (.pand o) o.d (fun _ _ => 0) fun _ z l => z.preg o.a.toNat l && z.preg o.b.toNat l) ∧
  (∀ o, PResult (.por o) o.d (fun _ _ => 0) fun _ z l => z.preg o.a.toNat l || z.preg o.b.toNat l) ∧
  (∀ o, PResult (.pxor o) o.d (fun _ _ => 0) fun _ z l => z.preg o.a.toNat l ^^ z.preg o.b.toNat l) ∧
  (∀ o, PResult (.pnot o) o.d (fun _ _ => 0) fun _ z l => !z.preg o.a.toNat l) ∧
  (∀ o, PResult (.pnotExt o) o.d (fun _ _ => 0) fun _ z l => !z.preg o.a.toNat l) ∧
  (∀ o, PResult (.elect o) o.d (fun _ _ => 0) fun c _ l => ∀ k < l, c.parts.getLsbD k = false) ∧
  (∀ o, PResult (.fsetp o) o.d
    (fun c z => orAll (c.lanes.map fun l => (condNum o.fn.toNat (z.fa o o.ty l 0) (z.fb o o.ty l 0)).2))
    fun _ z l => (condNum o.fn.toNat (z.fa o o.ty l 0) (z.fb o o.ty l 0)).1) ∧
  (∀ o, FpTraps (.fsetp o) (fun _ _ _ => True) fun c z _ =>
    orAll (c.lanes.map fun l => (condNum o.fn.toNat (z.fa o o.ty l 0) (z.fb o o.ty l 0)).2)) ∧
  ∀ (z : Str) l, z.preg 7 l = true

/-- R108, R109: VTOS and the string-uniform instructions write one scalar register, once for the issue. -/
def Obligations.ScalarResults : Prop :=
  let a := fun (z : Str) (o : Operands) => o.ty.intVal (z.ssrc o false o.a).toNat
  let b := fun (z : Str) (o : Operands) => o.ty.intVal (z.ssrc o true o.b).toNat
  let any := fun (_ : State) (_ : Cur) (_ : Str) (_ : Troop) => True
  (∀ o, SResult (.vtos o) o.d any fun _ c z _ =>
    let l := c.lanes.headD 0
    if o.spec then z.vpair o.a.toNat l else (z.vreg o.a.toNat l).setWidth 64) ∧
  (∀ o, SResult (.vtosExt o) o.d any fun _ c z _ =>
    let l := c.lanes.headD 0
    if o.spec then z.vpair o.a.toNat l else (z.vreg o.a.toNat l).setWidth 64) ∧
  (∀ o, SResult (.sadd o) o.d any fun _ _ z _ => BitVec.ofNat 64 (o.ty.reduce o.sat (a z o + b z o))) ∧
  (∀ o, SResult (.ssub o) o.d any fun _ _ z _ => BitVec.ofNat 64 (o.ty.reduce o.sat (a z o - b z o))) ∧
  (∀ o, SResult (.smul o) o.d any fun _ _ z _ => BitVec.ofNat 64 (o.ty.reduce o.sat (a z o * b z o))) ∧
  (∀ o, SResult (.sand o) o.d any fun _ _ z _ => z.ssrc o false o.a &&& z.ssrc o true o.b) ∧
  (∀ o, SResult (.sor o) o.d any fun _ _ z _ => z.ssrc o false o.a ||| z.ssrc o true o.b) ∧
  (∀ o, SResult (.sshl o) o.d any fun _ _ z _ => z.ssrc o false o.a <<< (z.ssrc o true o.b).toNat) ∧
  (∀ o, SResult (.sshr o) o.d any fun _ _ z _ =>
    if o.ty.isSigned then (z.ssrc o false o.a).sshiftRight (z.ssrc o true o.b).toNat
    else z.ssrc o false o.a >>> (z.ssrc o true o.b).toNat) ∧
  (∀ o, SResult (.scmp o) o.d any fun _ _ z _ => if condInt o.c.toNat (a z o) (b z o) then 1 else 0)

/-- R110 to R112, R91: the exchanges between lanes, and the integer reductions and scans.
Model's choices: log entry 14. -/
def Obligations.LaneExchange : Prop :=
  (∀ o, IntResult (.shfl o) o.ty o.d fun _ z l =>
    z.vval o.ty o.a.toNat (shflLane o.fn.toNat l (z.src o true .b32 o.b l))) ∧
  (∀ o, o.fn = 0 → IntResult (.vote o) .b32 o.d fun c z _ => if ∀ l ∈ c.lanes, z.vreg o.a.toNat l ≠ 0 then 1 else 0) ∧
  (∀ o, o.fn = 1 → IntResult (.vote o) .b32 o.d fun c z _ => if ∃ l ∈ c.lanes, z.vreg o.a.toNat l ≠ 0 then 1 else 0) ∧
  (∀ o, o.fn = 2 → IntResult (.vote o) .b32 o.d fun c z _ =>
    (maskOf (c.lanes.filter fun l => z.vreg o.a.toNat l != 0)).toNat) ∧
  (∀ o, IntResult (.voteExt o) .b32 o.d fun c z _ => voteVal c z o) ∧
  (∀ o, IntResult (.matchLanes o) .b32 o.d fun c z l =>
    (maskOf (c.lanes.filter fun j => z.vval o.ty o.a.toNat j == z.vval o.ty o.a.toNat l)).toNat) ∧
  (∀ o, IntResult (.matchLanesExt o) .b32 o.d fun c z l =>
    (maskOf (c.lanes.filter fun j => z.vval o.ty o.a.toNat j == z.vval o.ty o.a.toNat l)).toNat) ∧
  (∀ o, o.ty ≠ .f32 → IntResult (.lred o) o.ty o.d fun c z _ => intReduce z o c.lanes) ∧
  (∀ o, o.ty ≠ .f32 → IntResult (.lscan o) o.ty o.d fun c z l => intReduce z o (c.lanes.filter (· ≤ l)))

/-- R84, R90, R91: LRED.f32 reduces in the order of the tree, lanes outside the bundle giving the identity of the operator; LSCAN.f32
folds the participants in lane order. Both OR the flags of their steps, and trap on an enabled one (R84).
Model's choices: log entry 14. -/
def Obligations.FloatReductions : Prop :=
  (∀ o, o.ty = .f32 →
    let tree := fun (c : Cur) (z : Str) => treeReduce o.fn.toNat z.ftz [16, 8, 4, 2, 1]
      ((List.range 32).map fun l => if c.parts.getLsbD l then z.f32In o l else f32Ident o.fn.toNat) 0
    FlagResult (.lred o) 2 (fun _ _ _ => True) (fun c z _ => if c.parts = 0 then 0 else (tree c z).2)
      fun c z _ n _ => oneDest .f32 o.d.toNat (Ty.f32.encode .rne z.ftz (tree c z).1).1 n) ∧
  (∀ o, o.ty = .f32 →
    FlagResult (.lscan o) 2 (fun _ _ _ => True) (fun c z _ => (f32Scan o.fn.toNat z.ftz (z.f32In o) none c.lanes).2)
      fun c z _ n l =>
        match (f32Scan o.fn.toNat z.ftz (z.f32In o) none c.lanes).1.find? (·.1 == l) with
        | some (_, x) => oneDest .f32 o.d.toNat (scanBits z o c.lanes.head? l x) n
        | none => none)

/-- R84, R116 to R120, R122: the floating-point instructions round the exact value once, element by element, OR their flags into
FPFLAGS, and change nothing else; with an enabled flag they trap with FP_EXCEPTION and write FPFLAGS alone. -/
def Obligations.FloatArithmetic : Prop :=
  (∀ o, Fp2 (.fadd o) o (FNum.add o.rm)) ∧
  (∀ o, Fp2 (.fsub o) o fun x y => x.add o.rm y.negate) ∧
  (∀ o, Fp2 (.fmul o) o FNum.mul) ∧
  (∀ o, Fp2 (.fdiv o) o FNum.div) ∧
  (∀ o, FpResult (.ffma o) o.ty o.d fun z l e =>
    fpRound o.ty o.rm z.ftz (FNum.fma o.rm (z.fa o o.ty l e) (z.fb3 o o.ty l e) (z.fc o o.ty l e))) ∧
  (∀ o, Fp2 (.fmin o) o fun x y => (x.min y, x.pairFlag y)) ∧
  (∀ o, Fp2 (.fmax o) o fun x y => (x.max y, x.pairFlag y)) ∧
  (∀ o, FpResult (.fscale o) o.ty o.d fun z l e =>
    fpRound o.ty o.rm z.ftz (fscaleVal (toSigned 32 (z.src o true .b32 o.b l)) (z.fa o o.ty l e))) ∧
  (∀ o, Fp1 (.frcp o) o FNum.recip) ∧ (∀ o, Fp1 (.frcpExt o) o FNum.recip) ∧
  (∀ o, Fp1 (.frsq o) o FNum.rsqrt) ∧ (∀ o, Fp1 (.frsqExt o) o FNum.rsqrt) ∧
  (∀ o, Fp1 (.fsqrt o) o FNum.sqrt) ∧ (∀ o, Fp1 (.fsqrtExt o) o FNum.sqrt) ∧
  (∀ o, Fp1 (.fexp2 o) o FNum.exp2) ∧ (∀ o, Fp1 (.fexp2Ext o) o FNum.exp2) ∧
  (∀ o, Fp1 (.flog2 o) o FNum.log2) ∧ (∀ o, Fp1 (.flog2Ext o) o FNum.log2) ∧
  (∀ o, Fp1 (.fsinp o) o FNum.sinpi) ∧ (∀ o, Fp1 (.fsinpExt o) o FNum.sinpi) ∧
  (∀ o, Fp1 (.fcosp o) o FNum.cospi) ∧ (∀ o, Fp1 (.fcospExt o) o FNum.cospi) ∧
  (∀ o, Fp1 (.frnd o) o (FNum.roundIntegral o.rm)) ∧ (∀ o, Fp1 (.frndExt o) o (FNum.roundIntegral o.rm))

/-- R84, R121, R123, R124: FCLASS, FFRX and CFMA; the last two trap on an enabled flag.
Model's choices: log entry 137. -/
def Obligations.FloatFields : Prop :=
  (∀ o, IntResult (.fclass o) .b32 o.d fun _ z l =>
    classOf o.ty.fmt (signMod o.ty.width (elemBits o.ty (z.vval o.ty o.a.toNat l) 0) o.absa o.nega)) ∧
  (∀ o, IntResult (.fclassExt o) .b32 o.d fun _ z l =>
    classOf o.ty.fmt (signMod o.ty.width (elemBits o.ty (z.vval o.ty o.a.toNat l) 0) o.absa o.nega)) ∧
  (∀ o, FlagResult (.ffrx o) 2 (fun _ _ _ => True) (fun c z _ => orAll (c.lanes.map fun l => (ffrxVal o.ty (z.fa o o.ty l 0)).2.2))
    fun _ z _ n l => oneDest .b64 o.d.toNat
      ((ffrxVal o.ty (z.fa o o.ty l 0)).1 + (ffrxVal o.ty (z.fa o o.ty l 0)).2.1 * 2 ^ 32) n) ∧
  (∀ o, FlagResult (.ffrxExt o) 2 (fun _ _ _ => True)
    (fun c z _ => orAll (c.lanes.map fun l => (ffrxVal o.ty (z.fa o o.ty l 0)).2.2))
    fun _ z _ n l => oneDest .b64 o.d.toNat
      ((ffrxVal o.ty (z.fa o o.ty l 0)).1 + (ffrxVal o.ty (z.fa o o.ty l 0)).2.1 * 2 ^ 32) n) ∧
  (∀ o,
    let part := fun (z : Str) (l : Nat) =>
      let ar := cpart z o.a l 0 o.nega
      let ai := cpart z o.a l 1 o.nega
      let br := cpart z o.b l 0 o.negb
      let bi := cpart z o.b l 1 (o.negb != o.spec)
      (fpRound .f32 o.rm z.ftz (mulMulAdd o.rm (ar.mul br) ((ai.mul bi).1.negate, (ai.mul bi).2) (cpart z o.c l 0 o.negc)),
        fpRound .f32 o.rm z.ftz (mulMulAdd o.rm (ar.mul bi) (ai.mul br) (cpart z o.c l 1 o.negc)))
    FlagResult (.cfma o) 2 (fun _ _ _ => True) (fun c z _ => orAll (c.lanes.map fun l => (part z l).1.2 ||| (part z l).2.2))
      fun _ z _ n l => oneDest .b64 o.d.toNat ((part z l).1.1 + (part z l).2.1 * 2 ^ 32) n)

/-- R84, R125 to R128: the conversions and packings between number formats; each traps on an enabled flag. -/
def Obligations.Conversions : Prop :=
  (∀ o, FpResult (.cvt o) o.ty o.d fun z l e =>
    cvtVal o.ty (srcTyOf o) o.rm z.ftz (z.vval (srcTyOf o) (if e = 0 then o.a.toNat else o.b.toNat) l)) ∧
  (∀ o,
    let v := fun (z : Str) (l : Nat) => cvtiVal o.ty (srcTyOf o) o.rm o.sat z.ftz (z.vval (srcTyOf o) o.a.toNat l)
    FlagResult (.cvti o) 2 (fun _ _ _ => True) (fun c z _ => orAll (c.lanes.map fun l => (v z l).2))
      fun _ z _ n l => oneDest o.ty o.d.toNat (v z l).1 n) ∧
  (∀ o,
    let v := fun (z : Str) (l : Nat) => (List.range (packCount o.ty)).map fun i =>
      packVal o.ty (srcTyOf o) o.sat z.ftz (z.vreg (o.a.toNat + i) l).toNat
    FlagResult (.pack o) 2 (fun _ _ _ => True) (fun c z _ => orAll (c.lanes.map fun l => orAll ((v z l).map (·.2))))
      fun _ z _ n l => oneDest .b32 o.d.toNat ((v z l).foldr (fun e x => e.1 + x * 2 ^ o.ty.width) 0) n) ∧
  (∀ o,
    let v := fun (z : Str) (l : Nat) => (List.range (unpkCount (srcTyOf o))).map fun i =>
      unpkVal o.ty (srcTyOf o) z.ftz (z.vreg o.a.toNat l).toNat i
    FlagResult (.unpk o) (unpkCount (srcTyOf o)) (fun _ _ _ => True)
      (fun c z _ => orAll (c.lanes.map fun l => orAll ((v z l).map (·.2))))
      fun _ z _ n l => rangeDest o.d.toNat ((v z l).map (·.1)) n)

/-- R84, R129, R130: QNT writes the patterns of a block of 32 values and one byte of a scale register; DQNT writes the 32 values of
a block. With SPEC both complete when the smoothing reads meet no fault. Both trap on an enabled flag. -/
def Obligations.BlockQuantisation : Prop :=
  (∀ o,
    let ys := fun (z : Str) (t : Troop) (l : Nat) => (List.range 32).map fun i =>
      if o.spec then smoothDiv z.ftz (Ty.f32.decode z.ftz (z.vreg (o.a.toNat + i) l).toNat) (smoothEntry t z o l i)
      else (Ty.f32.decode z.ftz (z.vreg (o.a.toNat + i) l).toNat, 0)
    let q := fun (z : Str) (t : Troop) (l : Nat) => quantBlock o.ty.width ((ys z t l).map (·.1))
    FlagResult (.qnt o) 33 (fun c z t => smoothFault c z t o = none)
      (fun c z t => orAll (c.lanes.map fun l => orAll ((ys z t l).map (·.2)) ||| (q z t l).2.2))
      fun _ z t n l =>
        if n = o.scaleReg then some (putByteIn (z.vreg o.scaleReg l) (bitsNat o.imm 9 8) (q z t l).1)
        else rangeDest o.d.toNat (denseRegs o.ty.width (tapRegs o.ty) (q z t l).2.1) n) ∧
  (∀ o,
    let v := fun (z : Str) (t : Troop) (l : Nat) =>
      let e := bitsNat (z.vreg o.scaleReg l) (8 * bitsNat o.imm 9 8 + 7) (8 * bitsNat o.imm 9 8)
      let x := (List.range (tapRegs (srcTyOf o))).foldr (fun i x => (z.vreg (o.a.toNat + i) l).toNat + x * 2 ^ 32) 0
      (List.range 32).map fun i =>
        let y := tapScaled (srcTyOf o) z.ftz ((x >>> ((srcTyOf o).width * i)) % 2 ^ (srcTyOf o).width) e
        if y.isNan then (Ty.f32.fmt.nanBits, flagNV)
        else fpRound .f32 o.rm z.ftz (if o.spec then y.mul (smoothEntry t z o l i) else (y, 0))
    FlagResult (.dqnt o) 32 (fun c z t => smoothFault c z t o = none)
      (fun c z t => orAll (c.lanes.map fun l => orAll ((v z t l).map (·.2))))
      fun _ z t n l => rangeDest o.d.toNat ((v z t l).map (·.1)) n)

/-! ### Control flow -/

/-- R46, R311, with the hints of R16 and R18: both forms of BRA.
Model's choices: log entry 118. -/
def Obligations.Branches : Prop :=
  (∀ o, BranchResult (.bra o) o.cond o.pinv o.psel o.hint o.off.toInt) ∧
  (∀ o, BranchResult (.braLong o) o.cond o.pinv o.psel o.hint o.off.toInt)

/-- R312, R313: JMPI, RET and CALL. CALL writes the address after it to its link pair, and traps when its target is outside the
address space. -/
def Obligations.JumpsAndCalls : Prop :=
  (∀ o, JumpResult (.jmpi o) o.a) ∧ (∀ o, JumpResult (.ret o) o.a) ∧
  (∀ o,
    let target := fun (c : Cur) => (c.pc.toNat : Int) + 4 * (if o.len.hasLit then o.lit.toInt else o.imm.toInt)
    let inside := fun (c : Cur) => 0 ≤ target c ∧ target c ≤ 2 ^ 56 - 4
    Completes (.call o) (fun _ c _ _ => c.parts = 0) (fun s _ _ _ => s) ∧
    (∀ s c z t, Issues s (.call o) c z t → Room z t 2 → c.parts ≠ 0 → inside c →
      ∃ z', exec (.call o) s = .next (s.updStr c.sid fun _ => z') ∧
        z' = { z with v := z'.v, bag := z'.bag, lanes := z'.lanes } ∧ (t.depth = 0 → z'.bag = z.bag) ∧
        (∀ n l, l < 32 → z'.vreg n l = if c.parts.getLsbD l then
          (oneDest .b64 o.d.toNat (dwordOf c.next).toNat n).getD (z.vreg n l) else z.vreg n l) ∧
        Lanes z z' fun l x => if c.parts.getLsbD l then goTo (BitVec.ofInt 56 (target c)) x else x) ∧
    Traps (.call o) (fun _ c _ _ => c.parts ≠ 0 ∧ ¬ inside c) .noncanonical)

/-- R315 to R318: NOP does nothing, PBLK gives every participant a block (and nothing in trap mode), YLD marks its bundle yielded
and clears the preferred PC.
Model's choices: log entries 30, 31. -/
def Obligations.BlocksAndYields : Prop :=
  (∀ o, Completes (.nop o) (fun _ _ _ _ => True) fun s _ _ _ => s) ∧
  (∀ o, MovesLanes (.pblk o) (fun _ _ _ _ => True) fun c z l x =>
    if c.parts.getLsbD l && !c.trap then
      { x with block := some { bit := z.preg o.psel.toNat l, pattern := o.pattern, cnt := o.cnt.toNat + 1, pos := 0 } }
    else x) ∧
  (∀ o s c z t, Issues s (.yld o) c z t → t.overflow = false →
    ∃ z', exec (.yld o) s = .next ({ s with cur := some { c with split := some none } }.updStr c.sid fun _ => z') ∧
      z' = { z with lanes := z'.lanes } ∧ Lanes z z' fun l x => if c.bundle.getLsbD l then { x with yielded := true } else x)

/-- R37, R316: the lanes of an EXIT exit, at depth 0, and leave trap mode and their predicate block; lanes whose trap was deferred go on when no
lane is left in it. When the last lanes exit with a late fault undelivered, that is a second error (R390); else the string's barrier and the
collective that the troop waits at count the exited lanes (R323, R409). Nothing else changes where these conclude nothing. Inside a recovery
block EXIT traps (R415).
Model's choices: log entry 118. -/
def Obligations.Exits : Prop :=
  (∀ o s c z t, Issues s (.exit o) c z t → t.overflow = false → t.depth = 0 → z.lateq = [] → t.arrivals = [] →
    (∃ l < 32, (z.lane l).exited = false ∧ c.bundle.getLsbD l = false ∧
      ∀ a ∈ (s.bar (.str c.sid)).arrs, a.lanes.getLsbD l = false) →
    ∃ z', exec (.exit o) s = .next (s.updStr c.sid fun _ => z') ∧ z' = { z with lanes := z'.lanes } ∧
      Lanes z z' fun l x =>
        let y : Lane := if c.bundle.getLsbD l then { x with exited := true, trap := false, block := none } else x
        if (∀ k < z.lanes.length, (z.lane k).trap = true → c.bundle.getLsbD k = true) ∧ y.park = .deferred then
          { y with park := .none } else y) ∧
  (∀ o s c z t, Issues s (.exit o) c z t → t.depth = 0 →
    ∃ z', z' = { z with lanes := z'.lanes } ∧
      (Lanes z z' fun l x =>
        let y : Lane := if c.bundle.getLsbD l then { x with exited := true, trap := false, block := none } else x
        if (∀ k < z.lanes.length, (z.lane k).trap = true → c.bundle.getLsbD k = true) ∧ y.park = .deferred then
          { y with park := .none } else y) ∧
      let u := s.updStr c.sid fun _ => z'
      ((∀ l ∈ z'.lanes, l.exited = true) ∧ z.lateq ≠ [] → exec (.exit o) s = .next ((u.secondError z').settleOverflow t.tid)) ∧
      ((∃ l ∈ z'.lanes, l.exited = false) ∨ z.lateq = [] →
        exec (.exit o) s = .next (((u.checkBar (.str c.sid)).advance t.tid).settleOverflow t.tid))) ∧
  (∀ o, Traps (.exit o) (fun _ _ _ t => t.depth ≠ 0) .recoveryEscape)

/-! ### Traps and their return -/

/-- R58, R316, R391, R396: TRAP, BKPT and SCALL raise TRAP_INSTR, which no recovery block takes. An instruction whose words are
illegal, or which is barred inside a predicate block, and words that decode to no instruction, raise ILLEGAL_INSTRUCTION;
the bundle enters its handler. -/
def Obligations.PreciseTraps : Prop :=
  (∀ o, Traps (.trap o) (fun _ _ _ _ => True) .trapInstr) ∧ (∀ o, Traps (.bkpt o) (fun _ _ _ _ => True) .trapInstr) ∧
  (∀ o, Traps (.scall o) (fun _ _ _ _ => True) .trapInstr) ∧
  (∀ i s c z t, (encodeWords i ≠ []) → IllegalAt s i c z t → Delivers c z t .illegalInstruction →
    ∃ z', exec i s = .next (s.updStr c.sid fun _ => z') ∧ Entered z z' c .illegalInstruction) ∧
  (∀ s c z t, s.cur = some c → s.str? c.sid = some z → s.troop? z.tid = some t → Delivers c z t .illegalInstruction →
    ∃ z', exec .illegalInstruction s = .next (s.updStr c.sid fun _ => z') ∧ Entered z z' c .illegalInstruction)

/-- R395: TRET ends trap mode for its bundle, at the return PC, and lanes whose trap was deferred go on when no lane is left in
trap mode. Outside trap mode it is illegal (R393). -/
def Obligations.TrapReturns : Prop :=
  (∀ o, MovesLanes (.tret o) (fun _ c _ _ => c.trap = true) fun c z l x =>
    let y : Lane := if c.bundle.getLsbD l then { x with trap := false, pc := z.retPc } else x
    if (∀ k < z.lanes.length, (z.lane k).trap = true → c.bundle.getLsbD k = true) ∧ y.park = .deferred then
      { y with park := .none } else y) ∧
  (∀ o, Traps (.tret o) (fun _ c _ _ => c.trap = false) .illegalInstruction)

/-- R390, R391, R397, R398, R417: the oldest late fault of a string leaves its queue and goes to the chosen group, whose instruction does not
issue: the trap PC is the fault's and the return PC the group's. It waits while a lane is in trap mode. With no handler the troop ends, by
DOUBLE_FAULT unless the fault is an exhaustion. One of an instruction issued inside a recovery block that is still open, whose cause
recovery takes, fails the alternate of the shallower of the two depths instead. -/
def Obligations.LateFaultsDeliver : Prop :=
  (∀ s c z t f fs, s.cur = some c → s.str? c.sid = some z → s.troop? z.tid = some t → z.lateq = f :: fs →
    z.lanes.any (·.trap) = false → z.trapBase ≠ 0 → t.depth = 0 ∨ f.depth = 0 ∨ f.cause.routes = false →
    ∃ z', exec .lateFaultDeliver s = .next (s.updStr c.sid fun _ => z') ∧
      z' = { z with lanes := z'.lanes, lateq := fs, trapCause := BitVec.ofNat 32 f.cause.code, trapPc := dwordOf f.pc
                    trapNodePc := dwordOf f.nodePc, retPc := c.pc } ∧
      Lanes z z' fun l x => if c.bundle.getLsbD l then
        { x with trap := true, pc := addr56 z.trapBase, park := .none, settle := none } else x) ∧
  (∀ s c z t f fs, s.cur = some c → s.str? c.sid = some z → s.troop? z.tid = some t → z.lateq = f :: fs →
    z.lanes.any (·.trap) = false →
    let s' := s.updStr c.sid fun _ => { z with lateq := fs }
    (z.trapBase = 0 → t.depth = 0 ∨ f.depth = 0 ∨ f.cause.routes = false → exec .lateFaultDeliver s =
      .next (s'.endTroop t.tid (if f.cause = .recoveryExhausted then .recoveryExhausted else .doubleFault))) ∧
    (t.depth ≠ 0 → f.depth ≠ 0 → f.cause.routes = true → t.failing = none →
      (⟨min f.depth t.depth, 3, f.cause.code, false, false⟩ : Failure) ∉ t.fails → exec .lateFaultDeliver s =
        .next (s'.updTroop t.tid fun _ => { t with fails := t.fails ++
          [{ depth := min f.depth t.depth, kind := 3, cause := f.cause.code }] }))) ∧
  (∀ c : Cause, c.routes = false ↔ c = .trapInstr ∨ c = .recoveryEscape ∨ c = .recoveryDepth) ∧
  (∀ s c z, s.cur = some c → s.str? c.sid = some z → z.lateq = [] ∨ z.lanes.any (·.trap) = true →
    exec .lateFaultDeliver s = .next s)

/-- R176, R388, R391, R397, R417 to R423, R425: a trap raised while another lane of the string is in trap mode is deferred and changes nothing
else; one raised in trap mode at depth 0 ends the troop by DOUBLE_FAULT, and at a greater depth fails the alternate; one with no handler
ends the troop, whose state and work go. A failure of an alternate takes effect as the clock ends, the one of the outermost depth and
there of the lowest FKIND: the depths from there on are rolled back, registers, scratchpad words and buffers, and the next alternate
begins or the block is exhausted. What is restored is what the saddlebag recorded at the first write of each epoch, in its own rows, in the
recovery spill area when those are full, and with no room there either the block fails with SADDLEBAG_OVERFLOW; the write itself
stands in each case. The record is stated of the one operation that every write of a register makes first, and of an instruction of each
class of registers. What a failure ends with is stated for a troop in no tandem and of no redundant pair, with nothing to force or read back
before it, and the rollback where each register and word has one record for a depth.
Model's choices: log entries 12, 108, 160. -/
def Obligations.TrapsInTrapMode : Prop :=
  (∀ (s : State) c z cause, s.str? c.sid = some z → c.trap = false → z.lanes.any (·.trap) = true →
    s.raise c cause = { s with cur := some { c with verdict := .deferred } }) ∧
  (∀ (s : State) c z t cause, s.str? c.sid = some z → s.troop? z.tid = some t → c.trap = true → t.depth = 0 →
    s.raise c cause = s.endTroop t.tid .doubleFault) ∧
  (∀ (s : State) c z t cause, s.str? c.sid = some z → s.troop? z.tid = some t → c.trap = true → t.depth ≠ 0 →
    s.raise c cause = s.fail t.tid t.depth 3 0x40) ∧
  (∀ (s : State) c z t cause, s.str? c.sid = some z → s.troop? z.tid = some t → c.trap = false →
    z.lanes.any (·.trap) = false → t.depth ≠ 0 → cause.routes = true → s.raise c cause = s.fail t.tid t.depth 3 cause.code) ∧
  (∀ (s : State) c z t cause, s.str? c.sid = some z → s.troop? z.tid = some t → c.trap = false →
    z.lanes.any (·.trap) = false → z.trapBase = 0 → t.depth = 0 ∨ cause.routes = false →
    s.raise c cause = s.endTroop t.tid (if cause = .recoveryExhausted then .recoveryExhausted else .doubleFault)) ∧
  (∀ o s c z t, Issues s (.trap o) c z t → t.overflow = false → c.trap = false → z.lanes.any (·.trap) = false → z.trapBase = 0 →
    t.ended = false → t.outr = none → ∃ u, exec (.trap o) s = .next u ∧ Stopped s u t .doubleFault) ∧
  (∀ (s : State) t cause, s.troop? t.tid = some t → t.ended = false → t.outr = none → Stopped s (s.endTroop t.tid cause) t cause) ∧
  (∀ (s : State) t o cause, s.troop? t.tid = some t → t.outr = some o →
    s.endTroop t.tid cause = (let u := s.stopTroop t.tid (some cause)
      if o.role = .tieBreak then u else u.stopTroop o.mate (some cause))) ∧
  (∀ (s : State) t depth kind cause, s.troop? t.tid = some t →
    let f : Failure := { depth := depth, kind := kind, cause := cause }
    s.fail t.tid depth kind cause = s.updTroop t.tid fun _ =>
      if f ∈ t.fails ∨ (∃ g, t.failing = some g ∧ g.depth ≤ depth) then t else { t with fails := t.fails ++ [f] }) ∧
  (∀ (s : State), ∃ v : State, s.tick = v.takeFails.expire ∧ v.clock = s.clock + 1 ∧
    v.troops.map (fun t => (t.tid, t.fails)) = s.troops.map fun t => (t.tid, t.fails)) ∧
  (∀ (s : State) t, s.troops.filter (fun t => !t.fails.isEmpty) = [t] → s.troop? t.tid = some t → s.takeFails = s.takeFail t) ∧
  (∀ s, FailureEnds s) ∧
  (∀ (s : State) t j, s.troop? t.tid = some t → t.outr = none → 0 < j → RecordedOnce s t j → RolledBack s (s.rollback t.tid j) t j) ∧
  (∀ o : ImmOps, WritesInBlock (.movi o) (.v o.d.toNat) (fun _ _ _ => True) fun c z z' =>
    z' = { z with v := z'.v, bag := z'.bag } ∧ ∀ n l, l < 32 → z'.vreg n l =
      if n = o.d.toNat ∧ c.parts.getLsbD l then o.imm.signExtend 32 else z.vreg n l) ∧
  (∀ o, WritesInBlock (.sand o) (.s o.d.toNat) (fun _ _ _ => True) fun _ z z' =>
    z' = { z with s := z'.s, bag := z'.bag } ∧
      ∀ n, z'.sreg n = if n = o.d.toNat then z.ssrc o false o.a &&& z.ssrc o true o.b else z.sreg n) ∧
  (∀ o, o.d ≠ 7 → WritesInBlock (.elect o) (.p o.d.toNat) (fun _ _ _ => True) fun c z z' =>
    z' = { z with p := z'.p, bag := z'.bag } ∧ ∀ n l, l < 32 → z'.preg n l =
      if n = o.d.toNat ∧ n ≠ 7 ∧ c.parts.getLsbD l then decide (∀ k < l, c.parts.getLsbD k = false) else z.preg n l) ∧
  (∀ o, o.fn = 0x10 → WritesInBlock (.swrite o) .fpctl (fun _ _ _ => True) fun _ z z' =>
    z' = { z with fpctl := z'.fpctl, bag := z'.bag }) ∧
  (∀ o, o.fn = 0x12 → WritesInBlock (.swrite o) .strctl (fun _ _ _ => True) fun _ z z' =>
    z' = { z with strctl := z'.strctl, lanes := z'.lanes, bag := z'.bag }) ∧
  (∀ (s : State) sid d z t key, s.str? sid = some z → s.troop? z.tid = some t →
    let recorded := s.record sid d key fun y => prior y key
    (min d t.depth = 0 → recorded = s) ∧
    (min d t.depth ≠ 0 → ∃ bag t1, Records z { z with bag := bag } t t1 (min d t.depth) key ∧
      recorded = (s.updStr sid fun _ => { z with bag := bag }).updTroop z.tid fun _ => t1)) ∧
  (∀ (t : Troop) a b, ∃ t1, RecordsWord t t1 (a / 4) ∧ t.putScratch [(a, b)] = { t1 with scratch := Cells.set 0 t1.scratch a b }) ∧
  ∀ (t : Troop) x xs, t.putScratch (x :: xs) = (t.putScratch [x]).putScratch xs

/-! ### Special registers -/

/-- R24, R30, R131, R320, R425: SREAD writes a scalar register, or a vector register of every participant (the lane number for register 0);
it waits for the flags of the string's matrix operations when it reads FPFLAGS. That CORE_CYCLES counts the model's own clocks, from the last
reset of the core's paddock on, is the model's choice and no rule's.
Model's choices: log entries 109, 117. -/
def Obligations.SpecialReads : Prop :=
  let free := fun (s : State) (z : Str) (o : Operands) => s.flagsWait z.sid o.fn.toNat = false
  let reads := fun (i : Instr) (o : Operands) =>
    (o.spec = true → SResult i o.d (fun s _ z _ => free s z o) fun s c z t => s.special c z t o.fn.toNat) ∧
    (o.spec = false → ∀ s c z t, Issues s i c z t → Room z t 2 → free s z o →
      ∃ z', exec i s = .next (s.updStr c.sid fun _ => z') ∧ onlyV z z' t 0 ∧
        ∀ n l, l < 32 → z'.vreg n l = if c.parts.getLsbD l then
          (oneDest (match specialReg o.fn.toNat with | some (_, 64, _) => .b64 | _ => .b32) o.d.toNat
            (if o.fn = 0 then l else (s.special c z t o.fn.toNat).toNat) n).getD (z.vreg n l) else z.vreg n l) ∧
    ∀ s c z t, Issues s i c z t → t.overflow = false → c.parts ≠ 0 → s.flagsWait z.sid o.fn.toNat = true → Held s c i
  (∀ o, reads (.sread o) o) ∧ (∀ o, reads (.sreadExt o) o) ∧
  (∀ (s : State) c z t, s.special c z t 0x01 = BitVec.ofNat 64 z.idx ∧ s.special c z t 0x10 = z.fpctl.setWidth 64 ∧
    s.special c z t 0x11 = z.fpflags.setWidth 64 ∧ s.special c z t 0x12 = z.strctl.setWidth 64 ∧
    s.special c z t 0x13 = c.bundle.setWidth 64 ∧ s.special c z t 0x14 = BitVec.ofNat 64 t.depth ∧
    s.special c z t 0x16 = BitVec.ofNat 64 (s.clock - Cells.get 0 s.coreBase z.core) ∧ s.special c z t 0x18 = z.trapBase ∧
    s.special c z t 0x19 = z.trapCause.setWidth 64 ∧ s.special c z t 0x1A = z.trapPc ∧ s.special c z t 0x1B = z.trapNodePc) ∧
  (∀ (s : State) c z t l, s.launchOf t = some l →
    let x := max 1 (l.bits 1 23 0)
    let y := max 1 (l.bits 2 23 0)
    s.special c z t 0x02 = BitVec.ofNat 64 (t.linear % x) ∧ s.special c z t 0x03 = BitVec.ofNat 64 (t.linear / x % y) ∧
    s.special c z t 0x04 = BitVec.ofNat 64 (t.linear / x / y) ∧ s.special c z t 0x05 = BitVec.ofNat 64 x ∧
    s.special c z t 0x06 = BitVec.ofNat 64 y ∧ s.special c z t 0x07 = BitVec.ofNat 64 (max 1 (l.bits 3 23 0))) ∧
  ∀ (s : State) c z t,
    s.special c z t 0x08 = (if z.idx < t.prod then 0 else 1) ∧ s.special c z t 0x09 = BitVec.ofNat 64 z.core ∧
    s.special c z t 0x0A = BitVec.ofNat 64 (z.core / 8) ∧ s.special c z t 0x0B = BitVec.ofNat 64 (z.core / 64) ∧
    s.special c z t 0x0C = BitVec.ofNat 64 z.slice ∧
    let base := t.conflicts * 2 ^ 16 + z.fcause * 2 ^ 8 + z.fkind * 2 ^ 5 + (if z.aborted then 1 else 0)
    (t.blocks = [] → s.special c z t 0x15 = BitVec.ofNat 64 base) ∧
    ∀ bs b, t.blocks = bs ++ [b] → s.special c z t 0x15 = BitVec.ofNat 64 (base + (if b.inTest then 16 else 0) + 2 * b.alt)

/-- R31 to R33, R321, R392, R400: SWRITE writes FPCTL, FPFLAGS, STRCTL or TRAPBASE from the lowest participant or from a scalar
register. TRAPBASE needs supervisor privilege and a canonical aligned value; code of a privileged launch outside trap mode
writes its paddock's TRAPBASE too.
Model's choices: log entry 29. -/
def Obligations.SpecialWrites : Prop :=
  let value := fun (o : Operands) (c : Cur) (z : Str) =>
    let l := c.lanes.headD 0
    if o.spec then z.sreg o.a.toNat
    else if o.fn = 0x18 then z.vpair o.a.toNat l else (z.vreg o.a.toNat l).setWidth 64
  let writes := fun (i : Instr) (o : Operands) =>
    Completes i (fun _ c _ _ => c.parts = 0) (fun s _ _ _ => s) ∧
    (∀ s c z t, Issues s i c z t → Room z t 1 → c.parts ≠ 0 →
      let x := value o c z
      let w : Word := x.setWidth 32
      let keeps := fun (z' : Str) => t.depth = 0 → z'.bag = z.bag
      (o.fn = 0x10 → ∃ z', exec i s = .next (s.updStr c.sid fun _ => z') ∧
        z' = { z with fpctl := w &&& 0x3F#32, bag := z'.bag } ∧ keeps z') ∧
      (o.fn = 0x11 → s.matPending z.sid = false → exec i s = .next (s.updStr c.sid fun _ => { z with fpflags := w &&& 0x1F#32 })) ∧
      (o.fn = 0x11 → s.matPending z.sid = true → Held s c i) ∧
      (o.fn = 0x12 → ∃ z', exec i s = .next (s.updStr c.sid fun _ => z') ∧
        z' = { z with strctl := z'.strctl, lanes := z'.lanes, bag := z'.bag } ∧ keeps z' ∧
        bitsNat z'.strctl 31 16 = bitsNat w 31 16 ∧ bitsNat z'.strctl 15 7 = 0 ∧ z'.strctl.getLsbD 6 = w.getLsbD 6 ∧
        z'.strctl.getLsbD 5 = z.strctl.getLsbD 5 ∧
        z'.strctl.getLsbD 4 = w.getLsbD 4 ∧ bitsNat z'.strctl 3 0 = (if bitsNat w 3 0 = 0 then 11 else bitsNat w 3 0) ∧
        Lanes z z' fun _ y => if w.getLsbD 4 then y else { y with wait := 0 }) ∧
      (o.fn = 0x18 → c.trap = true ∨ t.super = true → canonical x = true → x.toNat % 4 = 0 →
        ∃ z', exec i s = .next (if t.super && !c.trap then
            (s.updStr c.sid fun _ => z').updPad t.pad fun p => { p with trapBase := x }
          else s.updStr c.sid fun _ => z') ∧ z' = { z with trapBase := x, bag := z'.bag } ∧ keeps z')) ∧
    Traps i (fun _ c _ t => c.parts ≠ 0 ∧ o.fn = 0x18 ∧ t.super = false) .privileged ∧
    Traps i (fun _ c z t => c.parts ≠ 0 ∧ o.fn = 0x18 ∧ t.super = true ∧ canonical (value o c z) = false) .noncanonical ∧
    Traps i (fun _ c z t => c.parts ≠ 0 ∧ o.fn = 0x18 ∧ t.super = true ∧ canonical (value o c z) = true ∧
      (value o c z).toNat % 4 ≠ 0) .misaligned
  (∀ o, writes (.swrite o) o) ∧ (∀ o, writes (.swriteExt o) o)

/-! ### Accesses -/

/-- R34, R186, R204, R206, R208, R233, R244, R257 to R260, R262, R270, R276: LD, ATOM, ACAS, AFADD and RADD complete. Each puts one
access in flight, and nothing else changes yet; a translated line of a load is then read, one of an atomic is performed lane by
lane, and one of a RADD is applied; when every part of a load or an atomic has its value, D is written, for its participants
alone, and the access leaves. An atomic that would escape a recovery block or a redundant troop traps with RECOVERY_ESCAPE, and one
that touches an open commutative range with RANGE_STORE, as does a RADD that is not wholly inside an open range of its type.
That an atomic out of its record's range adds nothing to OOB_DROPS, and that a range receives a RADD as it issues, are the
model's choices and no rule's.
Model's choices: log entries 37, 40, 104, 129. -/
def Obligations.AccessesStart : Prop :=
  let ok := fun (o : Operands) (s : State) (_ : Cur) (_ : Str) (t : Troop) (a : Access) =>
    (∀ p, t.protect = some p → o.level.code ≤ p.code) ∧ OutsideRanges s t a.elems
  let loads := fun (a : Access) => LineReads a ∧ Returns a
  let modifies := fun (a : Access) => LineModifies a ∧ Returns a
  (∀ o, Joins (.ld o) o (fun _ _ _ _ _ => True) (fun c _ t rs =>
    accessOf c t .ld 0 o.ty o.level o.d.toNat (elemsOf (o.ty.width / 8) (fun _ => 0) (fun _ => 0) rs)) loads) ∧
  (∀ o, Joins (.atom o) o (ok o) (fun c z t rs => accessOf c t .atom o.fn.toNat o.ty o.level o.d.toNat
    (elemsOf (o.ty.width / 8) (fun l => z.vval o.ty o.c.toNat l) (fun _ => 0) rs)) modifies) ∧
  (∀ o, Joins (.acas o) o (ok o) (fun c z t rs => accessOf c t .acas o.fn.toNat o.ty o.level o.d.toNat
    (elemsOf (o.ty.width / 8) (fun l => z.vval o.ty o.c.toNat l) (fun l => z.vval o.ty o.d.toNat l) rs)) modifies) ∧
  (∀ o, Joins (.afadd o) o (ok o) (fun c z t rs => accessOf c t .afadd o.fn.toNat o.ty o.level o.d.toNat
    (elemsOf (o.ty.width / 8) (fun l => z.vval o.ty o.c.toNat l) (fun _ => 0) rs)) modifies) ∧
  (∀ o s c z t rs, Issues s (.radd o) c z t → t.overflow = false → c.parts ≠ 0 → t.protect = none →
    recAddrs z o (o.ty.width / 8) c.lanes = .ok rs →
    let es := elemsOf (o.ty.width / 8) (fun l => z.vval o.ty o.d.toNat l) (fun _ => 0) rs
    let live := es.filter (·.w != 0)
    (∀ e ∈ live, ∃ r, s.inOpenRange t e.va e.w = some r ∧ r.base ≤ e.va ∧ e.va + e.w ≤ r.base + r.len ∧ r.st = .isOpen ∧
      r.ty = o.ty) →
    let s' := s.countOob t.pad (es.length - live.length)
    let a := accessOf c t .radd 0 o.ty .trp 0 live
    exec (.radd o) s = .next (if live = [] then s' else joined s' a) ∧ Accepts { a with id := s.nextId }) ∧
  (∀ o, Completes (.radd o) (fun _ c _ _ => c.parts = 0) fun s _ _ _ => s) ∧
  (∀ o, Traps (.radd o) (fun _ c _ t => c.parts ≠ 0 ∧ t.protect ≠ none) .recoveryEscape) ∧
  (∀ o, ∀ i ∈ [Instr.atom o, .acas o, .afadd o],
    Traps i (fun _ c z t => c.parts ≠ 0 ∧ (∃ rs, recAddrs z o (o.ty.width / 8) c.lanes = .ok rs) ∧
      ∃ p, t.protect = some p ∧ p.code < o.level.code) .recoveryEscape ∧
    Traps i (fun s c z t => c.parts ≠ 0 ∧ (∀ p, t.protect = some p → o.level.code ≤ p.code) ∧
      ∃ rs, recAddrs z o (o.ty.width / 8) c.lanes = .ok rs ∧
        ¬ OutsideRanges s t (elemsOf (o.ty.width / 8) (fun _ => 0) (fun _ => 0) rs)) .rangeStore) ∧
  (∀ o, Traps (.radd o) (fun s c z t => c.parts ≠ 0 ∧ t.protect = none ∧ ∃ rs, recAddrs z o (o.ty.width / 8) c.lanes = .ok rs ∧
    ∃ e ∈ elemsOf (o.ty.width / 8) (fun _ => 0) (fun _ => 0) rs, e.w ≠ 0 ∧
      ∀ r, s.inOpenRange t e.va e.w = some r → ¬ (r.st = .isOpen ∧ r.base ≤ e.va ∧ e.va + e.w ≤ r.base + r.len ∧ r.ty = o.ty))
    .rangeStore) ∧
  ∀ o f, Traps (.radd o) (fun _ c z t => c.parts ≠ 0 ∧ t.protect = none ∧ recAddrs z o (o.ty.width / 8) c.lanes = .error f) f

/-- R265, R322: BRLD parks its bundle on one access of 32 bytes, at an aligned canonical address, and traps at any other; WAITV parks
its participants on one access that is read again and again.
Model's choices: log entry 142. -/
def Obligations.ParkedAccesses : Prop :=
  (∀ o s c z t, Issues s (.brld o) c z t → t.overflow = false → c.parts ≠ 0 →
    let a : Int := (addr56 (z.sreg o.a.toNat)).toNat + o.imm.toInt
    canonical (z.sreg o.a.toNat) = true → spanOk a 32 = true → a.toNat % 32 = 0 →
    ∃ z', exec (.brld o) s = .next ((joined s { accessOf c t .brld 0 .b32 .str o.d.toNat
        [{ lane := 0, va := a.toNat, w := 32, data := 0, data2 := 0, val := none }] with wasPref := z.pref == some c.pc }).updStr
        c.sid fun _ => z') ∧
      z' = { z with lanes := z'.lanes } ∧ Lanes z z' fun l x => if c.bundle.getLsbD l then { x with park := .brld s.nextId } else x) ∧
  (∀ o, Completes (.brld o) (fun _ c _ _ => c.parts = 0) fun s _ _ _ => s) ∧
  (∀ o, let at_ := fun (z : Str) => ((addr56 (z.sreg o.a.toNat)).toNat : Int) + o.imm.toInt
    let good := fun (z : Str) => canonical (z.sreg o.a.toNat) = true ∧ spanOk (at_ z) 32 = true
    Traps (.brld o) (fun _ c z _ => c.parts ≠ 0 ∧ ¬ good z) .noncanonical ∧
    Traps (.brld o) (fun _ c z _ => c.parts ≠ 0 ∧ good z ∧ (at_ z).toNat % 32 ≠ 0) .misaligned) ∧
  (∀ o s c z t rs, Issues s (.waitv o) c z t → t.overflow = false → c.parts ≠ 0 →
    recAddrs z o (o.ty.width / 8) c.lanes = .ok rs →
    let es := (elemsOf (o.ty.width / 8) (fun l => z.vval o.ty o.c.toNat l) (fun _ => 0) rs).map fun e => { e with val := none }
    ∃ z', exec (.waitv o) s =
        .next ((joined s (accessOf c t .waitv o.fn.toNat o.ty o.level 0 es)).updStr c.sid fun _ => z') ∧
      z' = { z with lanes := z'.lanes } ∧ Lanes z z' fun l x => if c.parts.getLsbD l then { x with park := .waitv s.nextId } else x) ∧
  (∀ o, Completes (.waitv o) (fun _ c _ _ => c.parts = 0) fun s _ _ _ => s) ∧
  (∀ o f, Traps (.waitv o) (fun _ c z _ => recAddrs z o (o.ty.width / 8) c.lanes = .error f) f)

/-- R185, R204, R205, R217 to R219, R257, R261: ST completes. At die level or wider it puts an access in flight, whose lines leave for their
homes as they are translated; below it, its lines are translated and checked before any is written, for room and, under the policy that
a conflict faults, for a conflict; then they enter the buffer of their level, and the check's fault traps. Lanes out of range are dropped
and counted.
Model's choices: log entries 35, 36, 124, 129. -/
def Obligations.StoresStart : Prop :=
  ∀ o s c z t rs, Issues s (.st o) c z t → t.overflow = false → c.parts ≠ 0 → recAddrs z o (o.ty.width / 8) c.lanes = .ok rs →
    let es := elemsOf (o.ty.width / 8) (fun l => z.vval o.ty o.d.toNat l % 2 ^ (8 * (o.ty.width / 8))) (fun _ => 0) rs
    let live := es.filter (·.w != 0)
    let lvl := if o.spec then o.level else recLevel (z.breg o.b.toNat)
    let a := accessOf c t .st 0 o.ty lvl 0 live
    let dropped := es.length - live.length
    OutsideRanges s t live →
    (live = [] → exec (.st o) s = .next (s.countOob t.pad dropped)) ∧
    (live ≠ [] → (t.demote lvl).buffered = false → exec (.st o) s = .next ((joined s a).countOob t.pad dropped) ∧
      Accepts { a with id := s.nextId }) ∧
    (live ≠ [] → (t.demote lvl).buffered = true → ∀ s' xs, s.storeLines t c.super a.lines = (s', xs) →
      (∀ b ∈ s.accs, b.sid = c.sid → ∀ l ∈ b.lines, l.st.hitched = false) →
      let checked := s'.storeCheck z t a s'.projected xs
      let b := { a with id := s'.nextId, strict := z.conflictFaults }
      (checked = none → exec (.st o) s = .next (((((joined (s'.countOob t.pad dropped) { a with strict := z.conflictFaults }).placeLines t
          { a with id := s'.nextId } 0 xs).settleStore s'.nextId)).settleOverflow t.tid) ∧ Accepts b) ∧
      ∀ f, checked = some f → exec (.st o) s = .next ((s'.raise c f).settleOverflow t.tid))

/-- R34, R37, R259, R262: when every part of an access has a value or a refused line, its results are written to D of the lanes
that have a value and have not exited, it leaves, and its first fault joins the late queue. BRLD writes its record and lets
its bundle go on. -/
def Obligations.ResultsReturn : Prop :=
  (∀ a, a.kind ∈ [.ld, .atom, .acas, .afadd] → Returns a) ∧
  (∀ s acc a e x z t, s.acc? acc = some a → a.kind = .brld → a.elems = [e] → e.val = some x → a.fault = none →
    recordOk (BitVec.ofNat 256 x) = true → s.str? a.sid = some z → s.troop? z.tid = some t → Room z t 1 →
    ∃ z', exec (.registerResultReturn acc) s =
        .next ({ s with accs := s.accs.filter (·.id != acc) }.updStr a.sid fun _ => z') ∧
      z' = { z with b := z'.b, bag := z'.bag, lanes := z'.lanes } ∧ (t.depth = 0 → z'.bag = z.bag) ∧
      (∀ n, z'.breg n = if n = a.dst then BitVec.ofNat 256 x else z.breg n) ∧
      Lanes z z' fun _ y => if y.park = .brld acc then { y with park := .none } else y) ∧
  (∀ s acc a, s.acc? acc = some a → a.returned = false → exec (.registerResultReturn acc) s = .next s)

/-- R206, R233: a load takes each byte from its string's, troop's and cluster's buffer, then from the string's own writes on their
way to their L2 slice (for a LAUNCH, to their home), and only then from the line that its path gave.
Model's choices: log entry 23. -/
def Obligations.LoadsReadBuffersFirst : Prop :=
  (∀ (s : State) sid t lane line mask d fresh i, i < 64 → lineByte (s.assemble sid t lane line mask d fresh) i =
    if mask.getLsbD i then
      (s.bufferedByte sid t (64 * line + i)).getD ((s.forwarded sid lane line i fresh).getD (lineByte d i))
    else lineByte d i) ∧
  (∀ (s : State) sid t pa, s.bufferedByte sid t pa =
    ((s.bufByte t (.str sid) pa).or ((s.bufByte t (.trp t.tid) pa).or (s.bufByte t (.clu (clusterOf t.core)) pa))))

/-- R186, R206, R208, R260, R262, R270, R359: a line request walks and is answered; the translated line of a load is then read, and that
of an atomic performed, in the same event or as soon as it may be, and each of its parts has its value.
Model's choices: log entries 101, 102. -/
def Obligations.LinesAreAnswered : Prop :=
  (∀ s acc line a z t l s' pa pol part, s.acc? acc = some a → s.str? a.sid = some z → s.troop? z.tid = some t →
    a.lines[line]? = some l → l.st = .fresh → (∀ b ∈ s.earlier a, ∀ x ∈ b.lines, x.va = l.va → x.st.hitched = false) →
    s.haltedCore t.core = false →
    ({ s with nextId := s.nextId + 1 } : State).translate (some t.core) t.pad t.secure a.super a.kind.access (l.va / 64 * 64) =
      (s', .ok pa pol part) →
    let u := s'.setLine acc line (.ready (pa / 64) pol part)
    (a.kind = .st ∨ a.kind = .radd → exec (.pageWalkComplete acc line) s = .next u) ∧
    (a.kind ∈ [.ld, .brld, .atom, .acas, .afadd] → exec (.pageWalkComplete acc line) s = exec (.pageWalkComplete acc line) u)) ∧
  (∀ s acc line a z t l s' f, s.acc? acc = some a → s.str? a.sid = some z → s.troop? z.tid = some t →
    a.lines[line]? = some l → l.st = .fresh → (∀ b ∈ s.earlier a, ∀ x ∈ b.lines, x.va = l.va → x.st.hitched = false) →
    s.haltedCore t.core = false →
    ({ s with nextId := s.nextId + 1 } : State).translate (some t.core) t.pad t.secure a.super a.kind.access (l.va / 64 * 64) =
      (s', .refused f) →
    exec (.pageWalkComplete acc line) s = .next (s'.updAcc acc (·.refuse line f))) ∧
  (∀ a, a.kind = .ld → LineReads a) ∧ ∀ a, a.kind ∈ [.atom, .acas, .afadd] → LineModifies a

/-- R204, R205, R217 to R219, R276: a translated line of a store enters the buffer of its level, or leaves for its home at die level
or wider; a line of a RADD is applied to the core's partial line, or refused where no range takes it any more; a fault of the buffer
refuses the line. A conflict is counted once for its store, as its line enters; under the policy that it faults the instruction's checks
have found none, and one of a line that was hitched refuses it. Of the bytes of one store the highest lane's stand, through whichever
virtual line. Stated where no node's input is overwritten (R175).
Model's choices: log entries 35, 36, 40, 124. -/
def Obligations.StoresAreAccepted : Prop := ∀ a, a.kind = .st ∨ a.kind = .radd → Accepts a

/-- R204, R212, R232, R239: a write on its way reaches first the L2 slice of its die, and no byte at any home changes; then its
home, where its bytes take their values and no other byte of memory changes. Stated where no cache holds the line's atomic
authority and DRAM has no error there; a write into host memory waits for its core's older ones.
Model's choices: log entries 22, 125, 162. -/
def Obligations.HomeWritesArrive : Prop :=
  ∀ s wid w, s.writes.find? (·.wid == wid) = some w → holder s.l1 w.line = none → holder s.l2 w.line = none →
    s.poison.contains w.line = false → Cells.get 0 s.upsets w.line = 0 → s.peerDown (64 * w.line) = false →
    (∀ x ∈ s.writes.takeWhile (·.wid != wid), x.line ≠ w.line) →
    (hostLine w.line = true → ∀ x ∈ s.writes, x.core = w.core → hostLine x.line = true →
      wid ≤ x.wid ∧ x ∉ s.writes.takeWhile (·.wid != wid)) →
    ∃ u, exec (.homeWriteArrival wid) s = .next u ∧ u.strs = s.strs ∧ u.troops = s.troops ∧ u.lines = s.lines ∧
      (w.atL2 = false → u.writes = s.writes.erase w ++ [{ w with atL2 := true }] ∧ u.mem = s.mem ∧ u.llc = s.llc) ∧
      (w.atL2 = true → u.writes = s.writes.erase w ∧ ∀ a, homeByte u a =
        if a / 64 = w.line ∧ w.mask.getLsbD (a % 64) = true then lineByte w.data (a % 64) else homeByte s a)

/-- R189 to R191, R234, R246, R263, R271: the scratchpad instructions. LDS writes registers; STS and ATOMS wait for the earlier loads of their
lanes, and then write the bytes of their places, and ATOMS the old values to D; a bad selector, misalignment or a byte outside the scratchpad
traps.
Model's choices: log entries 104, 114, 143. -/
def Obligations.ScratchpadAccesses : Prop :=
  let w := fun (o : Operands) => if o.spec then 16 else o.ty.width / 8
  let places := fun (c : Cur) (z : Str) (t : Troop) (o : Operands) (w : Nat) => c.lanes.map fun l => (l, (scrOf t z o w l).places)
  let fault := fun (c : Cur) (z : Str) (t : Troop) (o : Operands) (w : Nat) => scrFault (c.lanes.map (scrOf t z o w))
  let roomy := fun (t : Troop) (n : Nat) => t.overflow = false ∧
    (t.depth = 0 ∨ (t.words.filter fun e => !e.spilled).length + n ≤ 1024)
  (∀ o, o.spec = true → VResult (.lds o) 4 (fun c z t => fault c z t o 16 = none) (fun _ _ _ => 0) fun _ z t n l =>
    rangeDest o.d.toNat ((List.range 4).map fun i => t.readScratch (((scrOf t z o 16 l).places.drop (4 * i)).take 4)) n) ∧
  (∀ o, o.spec = false → VResult (.lds o) 2 (fun c z t => fault c z t o (o.ty.width / 8) = none) (fun _ _ _ => 0)
    fun _ z t n l => oneDest o.ty o.d.toNat (o.ty.regBits (t.readScratch (scrOf t z o (o.ty.width / 8) l).places)) n) ∧
  (∀ o f, Traps (.lds o) (fun _ c z t => fault c z t o (w o) = some f) f) ∧
  let waits := fun (s : State) (c : Cur) => s.loadsDone c.sid s.nextId c.parts = false
  (∀ o s c z t, Issues s (.sts o) c z t → t.overflow = false → fault c z t o (w o) = none → waits s c → Held s c (.sts o)) ∧
  (∀ o s c z t, Issues s (.atoms o) c z t → t.overflow = false → fault c z t o (o.ty.width / 8) = none → waits s c →
    Held s c (.atoms o)) ∧
  (∀ o s c z t, Issues s (.sts o) c z t → fault c z t o (w o) = none → NothingForced s c t → ¬ waits s c →
    let es := (places c z t o (w o)).flatMap fun r => r.2.zip (bytesOf (w o) (stsVal z o r.1))
    roomy t es.length →
    ∃ t', exec (.sts o) s = .next (s.updTroop t.tid fun _ => t') ∧ t' = { t with scratch := t'.scratch, words := t'.words } ∧
      ∀ a, t'.scratchByte a = scrWrite t.scratchByte es a) ∧
  (∀ o f, Traps (.sts o) (fun _ c z t => fault c z t o (w o) = some f) f) ∧
  (∀ o s c z t, Issues s (.atoms o) c z t → fault c z t o (o.ty.width / 8) = none → NothingForced s c t → ¬ waits s c →
    let rs := (places c z t o (o.ty.width / 8)).map fun r => (r.1, r.2, z.vval o.ty o.c.toNat r.1)
    let run := atomsRun o t.scratchByte rs
    roomy t ((rs.map fun r => r.2.1.length).sum) → Room z t 2 →
    ∃ z' t', exec (.atoms o) s = .next ((s.updTroop t.tid fun _ => t').updStr c.sid fun _ => z') ∧
      t' = { t with scratch := t'.scratch, words := t'.words } ∧ (∀ a, t'.scratchByte a = run.1 a) ∧ onlyV z z' t 0 ∧
      (∀ r ∈ run.2, ∀ n, z'.vreg n r.1 = (oneDest o.ty o.d.toNat (o.ty.regBits r.2) n).getD (z.vreg n r.1)) ∧
      ∀ l < 32, c.parts.getLsbD l = false → ∀ n, z'.vreg n l = z.vreg n l) ∧
  (∀ o f, Traps (.atoms o) (fun _ c z t => fault c z t o (o.ty.width / 8) = some f) f)

/-- R183, R264, R265, R269: BRMK writes a record that passes R183 and traps with BOUNDS on any other; BRQ and CQRY write a scalar
register; PRFM completes, and, where no cache holds atomic authority and no range has partials, changes no register, no buffer and no
byte of memory.
Model's choices: log entry 53. -/
def Obligations.RecordsAndQueries : Prop :=
  let made := fun (o : Operands) (z : Str) =>
    (z.sreg (o.a.toNat + 3) ++ z.sreg (o.a.toNat + 2) ++ z.sreg (o.a.toNat + 1) ++ z.sreg (o.a.toNat + 0) : Record)
  (∀ o, Completes (.brmk o) (fun _ c _ _ => c.parts = 0) fun s _ _ _ => s) ∧
  (∀ o s c z t, Issues s (.brmk o) c z t → Room z t 1 → c.parts ≠ 0 → recordOk (made o z) = true →
    ∃ z', exec (.brmk o) s = .next (s.updStr c.sid fun _ => z') ∧ z' = { z with b := z'.b, bag := z'.bag } ∧
      (t.depth = 0 → z'.bag = z.bag) ∧ ∀ n, z'.breg n = if n = o.d.toNat then made o z else z.breg n) ∧
  (∀ o, Traps (.brmk o) (fun _ c z _ => c.parts ≠ 0 ∧ recordOk (made o z) = false) .bounds) ∧
  (∀ o, SResult (.brq o) o.d (fun _ _ _ _ => True) fun _ _ z _ =>
    BitVec.ofNat 64 (bitsNat (z.breg o.a.toNat) (64 * o.imm.toNat + 63) (64 * o.imm.toNat))) ∧
  (∀ o, SResult (.cqry o) o.d (fun _ _ _ _ => True) fun s _ z t =>
    BitVec.ofNat 64 (t.depth * 2 ^ 40 + (s.closedRounds t.core).length * 2 ^ 32 + s.queryLevel z t o.level)) ∧
  (∀ o s c z t, Issues s (.prfm o) c z t → t.overflow = false →
    ∃ u, exec (.prfm o) s = .next u ∧ ((∀ x ∈ s.l1 ++ s.l2, x.auth = false) → s.partials = [] →
      u.strs = s.strs ∧ u.troops = s.troops ∧ u.lines = s.lines ∧ u.accs = s.accs ∧ ∀ a, homeByte u a = homeByte s a))

/-! ### Publishing, discarding, acquiring -/

/-- R210, R214, R238, R266 to R268, R272, R273, R401: the instructions that park their bundle on an operation of their own complete: each starts
its operation, whose events have the instruction's effect and then let the bundle go on. COMMIT at string level does nothing. The range
instructions trap inside a recovery block and in a redundant troop; TLBI and CFLUSH need supervisor privilege; CROPEN, CRCLOSE, TLBI, CFLUSH and
CINV trap on an operand out of its range, the first fault in the model's order.
Model's choices: log entries 29, 39, 43. -/
def Obligations.OperationsStart : Prop :=
  let base := fun (z : Str) (o : Operands) => z.sreg o.a.toNat
  let len := fun (z : Str) (o : Operands) => z.sreg o.b.toNat
  (∀ o, StartsOp (.acq o) (fun _ _ _ _ => True) .acq o.level (fun _ _ => 0) (fun c _ => c.parts.toNat) AcqEnds) ∧
  (∀ o, o.level ≠ .str → StartsOp (.commit o) (fun _ _ _ _ => True) .commit o.level (fun _ _ => 0) (fun _ _ => 0) CommitEnds) ∧
  (∀ o, o.level = .str → Completes (.commit o) (fun _ _ _ _ => True) fun s _ _ _ => s) ∧
  (∀ o, StartsOp (.abort o) (fun _ _ _ _ => True) .abort o.level (fun _ _ => 0) (fun _ _ => 0) AbortEnds) ∧
  (∀ o, StartsOp (.cropen o)
    (fun _ _ z t => t.protect = none ∧ canonical (base z o) = true ∧ (addr56 (base z o)).toNat % 64 = 0 ∧
      spanOk (addr56 (base z o)).toNat (len z o).toNat = true ∧ (len z o).toNat % 64 = 0 ∧ 64 ≤ (len z o).toNat ∧
      (len z o).toNat ≤ 2 ^ 32)
    .cropen .str (fun _ z => (addr56 (base z o)).toNat) (fun _ z => (len z o).toNat * 256 + o.ty.code * 4 + o.fn.toNat) CropenEnds) ∧
  (∀ o, Traps (.cropen o) (fun _ c _ t => c.parts ≠ 0 ∧ t.protect ≠ none) .recoveryEscape) ∧
  (∀ o,
    let even := fun (z : Str) => (addr56 (base z o)).toNat % 64 = 0 ∧ (len z o).toNat % 64 = 0
    let inside := fun (z : Str) => canonical (base z o) = true ∧ spanOk (addr56 (base z o)).toNat (len z o).toNat = true
    Traps (.cropen o) (fun _ c z t => c.parts ≠ 0 ∧ t.protect = none ∧ ¬ even z) .misaligned ∧
    Traps (.cropen o) (fun _ c z t => c.parts ≠ 0 ∧ t.protect = none ∧ even z ∧ ¬ inside z) .noncanonical ∧
    Traps (.cropen o) (fun _ c z t => c.parts ≠ 0 ∧ t.protect = none ∧ even z ∧ inside z ∧
      ((len z o).toNat < 64 ∨ 2 ^ 32 < (len z o).toNat)) .bounds) ∧
  (∀ o, StartsOp (.crclose o)
    (fun s _ z t => t.protect = none ∧ canonical (base z o) = true ∧ ∃ r ∈ s.ranges, r.pad = t.pad ∧ r.secure = t.secure ∧
      r.st = .isOpen ∧ r.base = (addr56 (base z o)).toNat)
    .crclose .str (fun _ z => (addr56 (base z o)).toNat) (fun _ _ => 0) CrcloseEnds) ∧
  (∀ o, Traps (.crclose o) (fun _ c _ t => c.parts ≠ 0 ∧ t.protect ≠ none) .recoveryEscape) ∧
  (∀ o, Traps (.crclose o) (fun s c z t => c.parts ≠ 0 ∧ t.protect = none ∧ ∀ r ∈ s.ranges, r.pad = t.pad → r.secure = t.secure →
    r.st = .isOpen → r.base ≠ (addr56 (base z o)).toNat) .bounds) ∧
  (∀ o, Traps (.crclose o) (fun _ c z t => c.parts ≠ 0 ∧ t.protect = none ∧ canonical (base z o) = false) .bounds) ∧
  (∀ o, StartsOp (.tlbi o)
    (fun _ c z _ => c.super = true ∧ (base z o).toNat % 2 ^ 16 = 0 ∧ (base z o).toNat < 2 ^ 56 ∧ (len z o).toNat < 2 ^ 31)
    .tlbi .str (fun _ z => (base z o).toNat / 2 ^ 16) (fun _ z => (len z o).toNat) TlbiEnds) ∧
  (∀ o, Traps (.tlbi o) (fun _ c _ _ => c.parts ≠ 0 ∧ c.super = false) .privileged) ∧
  (∀ o, Traps (.tlbi o) (fun _ c z _ => c.parts ≠ 0 ∧ c.super = true ∧ (base z o).toNat % 2 ^ 16 ≠ 0) .misaligned) ∧
  (∀ o, Traps (.tlbi o) (fun _ c z _ => c.parts ≠ 0 ∧ c.super = true ∧ (base z o).toNat % 2 ^ 16 = 0 ∧
    (2 ^ 56 ≤ (base z o).toNat ∨ 2 ^ 31 ≤ (len z o).toNat)) .bounds) ∧
  (∀ o, StartsOp (.cflush o) (fun _ c z _ => c.super = true ∧ rangeFault (base z o) (len z o) = none)
    .cflush .str (fun _ z => (addr56 (base z o)).toNat) (fun _ z => (len z o).toNat) CflushEnds) ∧
  (∀ o, Traps (.cflush o) (fun _ c _ _ => c.parts ≠ 0 ∧ c.super = false) .privileged) ∧
  (∀ o f, Traps (.cflush o) (fun _ c z _ => c.parts ≠ 0 ∧ c.super = true ∧ rangeFault (base z o) (len z o) = some f) f) ∧
  (∀ o, StartsOp (.cinv o) (fun _ _ z _ => rangeFault (base z o) (len z o) = none)
    .cinv o.level (fun _ z => (addr56 (base z o)).toNat) (fun c z => (len z o).toNat * 2 ^ 32 + c.parts.toNat) CinvEnds) ∧
  (∀ o f, Traps (.cinv o) (fun _ c z _ => c.parts ≠ 0 ∧ rangeFault (base z o) (len z o) = some f) f)

/-- R210 to R216, R238, R240: the operations of the commit hierarchy complete. ACQ waits for the earlier loads of its lanes and
invalidates read copies; COMMIT takes its lines once its stores have been accepted and its atomics performed, at cluster level or below at once and
wider by sending them and waiting for its rounds; ABORT discards once its stores have been accepted. Each then lets its
bundle go on. The combined answer to a core's query confirms its closed rounds whose writes have all arrived at their homes,
and marks those whose writes have arrived at the L2 slices, and those whose writes have arrived at the device's LLC slices.
Model's choices: log entry 22. -/
def Obligations.CommitsAndAborts : Prop :=
  (∀ o, o.kind = .acq → AcqEnds o ∧
    OpEvent (.acqComplete o.id) o (fun s _ _ => s.loadsDone o.sid o.id (BitVec.ofNat 32 o.arg2) = false) fun s _ _ => s) ∧
  (∀ o, o.kind = .commit → o.phase = .waiting → CommitEnds o ∧
    OpEvent (.commitComplete o.id) o (fun s z _ => s.storesPending z.sid o.id = true ∨ s.atomsPending z.sid o.id o.lvl = true)
      fun s _ _ => s) ∧
  (∀ o, o.kind = .abort → AbortEnds o) ∧
  (∀ (s : State) (o : SysOp) z, s.str? o.sid = some z → ∃ z', (s.endOp o).str? o.sid = some z' ∧ z' = { z with lanes := z'.lanes } ∧
    (s.endOp o) = { s with ops := s.ops.filter (·.id != o.id) }.updStr o.sid (fun _ => z') ∧
    Lanes z z' fun _ x => if x.park = .op o.id then { x with park := .none } else x) ∧
  (∀ (s : State) core l p, (s.acquire core l p).mem = s.mem ∧ (s.acquire core l p).lines = s.lines ∧
    (∀ c ∈ (s.acquire core l p).l1, c ∈ s.l1) ∧ (∀ c ∈ s.l1, c.auth = true → c ∈ (s.acquire core l p).l1) ∧
    (2 ≤ l.code → ∀ c ∈ (s.acquire core l p).l1, c.place = core → p c.line = true → c.auth = true)) ∧
  ∀ s core, ∃ u, exec (.roundConfirm core) s = .next u ∧ u = { s with rounds := u.rounds } ∧
    (∀ r ∈ u.rounds, r.core = core → r.closed = true → r.arrHome.length ≠ r.sentHome.length) ∧
    (∀ r ∈ s.rounds, r.core = core → r.closed = true → r.arrHome.length ≠ r.sentHome.length →
      { r with dieOk := r.dieOk || r.atL2, devOk := r.devOk || r.atLlc } ∈ u.rounds ∧
      (r.atL2 = true ↔ r.sentL2.length = r.arrL2.length) ∧
      (r.atLlc = true ↔ (r.sentHome.filter onDevice).length = (r.arrHome.filter onDevice).length)) ∧
    ∀ r ∈ s.rounds, r.core ≠ core → r ∈ u.rounds

/-- R224, R227, R272, R273, R275: a range table receives a declaration into its lowest free slot and opens it at its second event, when no L1 or
L2 is left with a read copy of its lines; an overlap or a full table traps; what a halted core has sent but the table has not received waits. A
close first marks the range, and at its second event gathers every line of it, frees the slot and lets the bundle go on.
Model's choices: log entry 40. -/
def Obligations.RangesOpenAndClose : Prop :=
  (∀ o, o.kind = .cropen → o.phase = .waiting → CropenEnds o) ∧ ∀ o, o.kind = .crclose → o.phase = .waiting → CrcloseEnds o

/-- R244, R368, R401: the system operations. A TLBI removes the translations of its range as it starts, waits for what was
translated before, and then ends, removing what walks have cached since; one that finds another in progress waits. A CFLUSH
flushes the lines of its pages that translate: no cache and no home slice holds them afterwards, authority is returned, and memory holds
what the homes held; a CINV invalidates read copies of them once the earlier loads of its lanes are done.
Model's choices: log entry 159. -/
def Obligations.SystemOperations : Prop :=
  (∀ o, o.kind = .tlbi → o.phase = .waiting → TlbiEnds o) ∧ (∀ o, o.kind = .cflush → CflushEnds o) ∧
  (∀ o, o.kind = .cinv → CinvEnds o) ∧ (∀ s p, Flushes s p) ∧
  (∀ (s : State) pad first cnt op, ∀ e ∈ (s.startInval pad first cnt op).tlb, e ∈ s.tlb ∧
    ¬(e.pad = pad ∧ (cnt = 0 ∨ (e.va < (first + cnt) * 65536 ∧ first * 65536 < e.va + e.size))))

/-! ### Barriers -/

/-- R323 to R329: the barrier instructions. An arrival joins the current phase once for each string; BAR.sync and BARV park their
bundle, BAR.arrive writes the token; the phase then completes if it can. BWAIT parks until its token's phase is over, BEXP
adds expected bytes, BSTAT reads the barrier. A barrier that the string lacks is illegal. -/
def Obligations.BarrierInstructions : Prop :=
  let arrival := fun (s : State) (c : Cur) (z : Str) (t : Troop) (val : Option Dword) =>
    ({ sid := z.sid, tid := z.tid, lanes := c.bundle, depth := t.depth, val := val, before := s.nextId } : BarArr)
  let here := fun (s : State) (c : Cur) (z : Str) (k : BarKey) =>
    k = .str z.sid → ∀ a ∈ (s.bar k).arrs, a.lanes &&& c.bundle = 0
  let meets := fun (s : State) (c : Cur) (z : Str) (t : Troop) (k : BarKey) (val : Option Dword) =>
    (if k ≠ .str z.sid ∧ ∃ a ∈ (s.bar k).arrs, a.sid = z.sid then s
      else s.putBar { s.bar k with arrs := (s.bar k).arrs ++ [arrival s c z t val] }).checkBar k
  let parked := fun (s : State) (c : Cur) (z : Str) (t : Troop) (i : Instr) (k : BarKey) (dst : Option Nat) (val : Option Dword) =>
    ∃ z', exec i s = .next ((meets (s.updStr c.sid fun _ => z') c z t k val).settleOverflow t.tid) ∧
      z' = { z with lanes := z'.lanes } ∧
      Lanes z z' fun l x => if c.bundle.getLsbD l then { x with park := .barrier k (s.bar k).done dst } else x
  (∀ o s c z t k, Issues s (.bar o) c z t → c.parts ≠ 0 → c.bundle ≠ 0 → s.mayArrive o z t = true →
    s.barKey z t o.level o.imm.toNat = some k → here s c z k →
    (o.fn ≠ 1 → parked s c z t (.bar o) k none none) ∧
    (o.fn = 1 → exec (.bar o) s =
      .next ((meets (s.putScalar c z o.d ((s.bar k).done.setWidth 64)) c z t k none).settleOverflow t.tid))) ∧
  (∀ o s c z t k, Issues s (.barv o) c z t → c.parts ≠ 0 → c.bundle ≠ 0 → s.mayArrive o z t = true →
    s.barKey z t o.level o.imm.toNat = some k → here s c z k →
    parked s c z t (.barv o) k (some o.d.toNat) (some (z.sreg o.a.toNat))) ∧
  (∀ o, Completes (.bar o) (fun s c z t => c.parts = 0 ∧ s.mayArrive o z t = true) fun s _ _ _ => s) ∧
  (∀ o, Completes (.barv o) (fun s c z t => c.parts = 0 ∧ s.mayArrive o z t = true) fun s _ _ _ => s) ∧
  (∀ o, Traps (.bar o) (fun s _ z t => s.mayArrive o z t = false) .illegalInstruction) ∧
  (∀ o, Traps (.barv o) (fun s _ z t => s.mayArrive o z t = false) .illegalInstruction) ∧
  (∀ o s c z t k, Issues s (.bwait o) c z t → t.overflow = false → s.barKey z t o.level o.imm.toNat = some k → c.parts ≠ 0 →
    let token : Word := (z.sreg o.a.toNat).setWidth 32
    (tokenDone (s.bar k).done token = true → exec (.bwait o) s = .next s) ∧
    (tokenDone (s.bar k).done token = false → ∃ z', exec (.bwait o) s = .next (s.updStr c.sid fun _ => z') ∧
      z' = { z with lanes := z'.lanes } ∧ Lanes z z' fun l x => if c.bundle.getLsbD l then { x with park := .bwait k token } else x)) ∧
  (∀ o s c z t k, Issues s (.bexp o) c z t → s.barKey z t o.level o.imm.toNat = some k → c.parts ≠ 0 →
    let x := (z.sreg o.a.toNat).toNat
    (s.bar k).exp + x < 2 ^ 32 → exec (.bexp o) s =
      .next (((s.putBar { s.bar k with exps := (s.bar k).exps ++ [(t.tid, t.depth, x)] }).checkBar k).settleOverflow t.tid)) ∧
  (∀ o, Traps (.bexp o) (fun s c z t => ∃ k, s.barKey z t o.level o.imm.toNat = some k ∧ c.parts ≠ 0 ∧
    2 ^ 32 ≤ (s.bar k).exp + (z.sreg o.a.toNat).toNat) .bounds) ∧
  (∀ o, Traps (.bexp o) (fun s _ z t => s.barKey z t o.level o.imm.toNat = none) .illegalInstruction) ∧
  (∀ o, Traps (.bwait o) (fun s _ z t => s.barKey z t o.level o.imm.toNat = none) .illegalInstruction) ∧
  (∀ o, Traps (.bstat o) (fun s _ z t => s.barKey z t o.level o.imm.toNat = none) .illegalInstruction) ∧
  (∀ o k, SResult (.bstat o) o.d (fun s _ z t => s.barKey z t o.level o.imm.toNat = some k) fun s _ _ _ => s.barStat (s.bar k))

/-- R324, R327, R328: a phase completes exactly when every member has arrived (or, with no member, when bytes are expected) and
the expected bytes have been credited. Its number rises by one, the next one starts empty, the lanes parked on it go on, and
so do BWAITs whose token is over; each BARV that waits there puts the phase's sum into its scalar destination (R326). The first part is
stated for a barrier on which no BARV waits, the last where no recovery block is open.
Model's choices: log entry 10. -/
def Obligations.PhasesComplete : Prop :=
  ∀ (s : State) k,
    let b := s.bar k
    let ready := (match s.allArrived b with | some all => all | none => decide (0 < b.exp)) = true ∧ b.exp ≤ b.cr
    (¬ ready → s.checkBar k = s) ∧
    (ready → (∀ z ∈ s.strs, ∀ x ∈ z.lanes, ∀ p d, x.park ≠ .barrier k p (some d)) →
      let gone := fun (p : Park) => match p with
        | .barrier j ph _ => j == k && ph == b.done
        | .bwait j tok => j == k && decide (0 < (b.done + 1 - tok).toInt)
        | _ => false
      ∃ st, s.checkBar k = { s with strs := s.strs.map fun (y : Str) => y.unpark gone }.putBar { key := k, done := b.done + 1, last := st } ∧
        (b.status ≠ 0 → st = b.status) ∧ (b.status = 0 → b.cr ≤ b.exp → (∀ t ∈ s.barTroops k, t.lost = false) → st = 0) ∧
        (b.status = 0 → b.exp < b.cr → st = 3)) ∧
    (ready → (∀ u ∈ s.troops, u.depth = 0) → ∀ sid z, s.str? sid = some z → ∃ z', (s.checkBar k).str? sid = some z' ∧
      z' = { z with s := z'.s, lanes := z'.lanes } ∧
      (∀ n, z'.sreg n = if ∃ x ∈ z.lanes, x.park = .barrier k b.done (some n) then
        BitVec.ofNat 64 ((b.arrs.filterMap (·.val)).map (·.toNat)).sum else z.sreg n) ∧
      Lanes z z' fun _ x => match x.park with
        | .barrier j ph _ => if j = k ∧ ph = b.done then { x with park := .none } else x
        | .bwait j tok => if j = k ∧ 0 < (b.done + 1 - tok).toInt then { x with park := .none } else x
        | _ => x)

/-! ### Engines -/

/-- R278 to R283: ACPY, ACPY2, AGATH, LDTS and ACOLL; ACOLL traps where its combines could not be undone (R287).
Model's choices: log entries 44, 104. -/
def Obligations.CopiesStart : Prop :=
  let c := fun (z : Str) (o : Operands) => z.sreg o.c.toNat
  let any := fun (_ : Troop) => True
  (∀ o, CopyStarts (.acpy o) o .acpy (fun z => (1, (c z o).toNat, 0)) (fun _ => 0) (fun z => decide ((c z o).toNat ≤ 2 ^ 24)) any) ∧
  (∀ o, CopyStarts (.acpy2 o) o .acpy2 (fun z => shapeOf (c z o)) (fun _ => 0) (fun _ => true) any) ∧
  (∀ o, CopyStarts (.agath o) o .agath (fun z => shapeOf (c z o)) (fun _ => 0) (fun _ => true) any) ∧
  (∀ o, CopyStarts (.ldts o) o .ldts (fun z => shapeOf (c z o)) (fun _ => 0)
    (fun z => ldtsOk (z.breg o.b.toNat) (bitsNat (c z o) 31 16) (z.sreg o.a.toNat).toNat (toSigned 32 (bitsNat (c z o) 63 32))) any) ∧
  (∀ o, CopyStarts (.acoll o) o .acoll (fun z => (1, (c z o).toNat % 2 ^ 32, 0)) (fun z => (c z o).toNat / 2 ^ 32)
    (fun z => decide ((c z o).toNat / 2 ^ 32 ≤ 3) && o.ty.width == 8 * recSize (z.breg o.b.toNat)) fun t => t.protect = none) ∧
  (∀ o, Traps (.acoll o) (fun _ c _ t => c.parts ≠ 0 ∧ t.protect ≠ none) .recoveryEscape)

/-- R247, R249, R284, R285: a copy whose items are all done retires in the order of its class once its writes are performed: it
leaves its counter, its flags reach FPFLAGS, its faults are recorded late, and CWAITs whose condition now holds go on. A
CWAIT parks only when its condition does not hold. Stated for a copy that credits no barrier.
Model's choices: log entries 45, 46, 161. -/
def Obligations.CopiesRetire : Prop :=
  (∀ s op e z t, s.eng? op = some e → s.str? e.sid = some z → s.troop? z.tid = some t → e.kind.cls ≠ 1 → s.olderEng e = false →
    s.engWritesDone e = true → (∀ k < e.count, k ∈ e.done) → e.cred = none → (∀ f ∈ s.pendFlags, f.1 ≠ e.id) →
    e.trap = false → (∃ l ∈ z.lanes, l.exited = false) →
    let s' := { s with engs := s.engs.filter (·.id != op) }
    let late := fun (f : Cause) => ({ cause := f, pc := e.pc, nodePc := 0, depth := e.depth } : Late)
    ∃ z', exec (.copyEngineRetire op) s =
        .next ({ s' with writes := if e.fault.isSome then (s.tellWrites op).writes else s.writes }.updStr e.sid fun _ => z') ∧
      z' = { z with lanes := z'.lanes, fpflags := z.fpflags ||| e.flags.setWidth 32, lateq := z'.lateq } ∧
      Lanes z z' (fun _ x => leavesCwait s' e.sid x) ∧
      z'.lateq = z.lateq ++ (if e.kind.cls = 0 ∧ e.flags &&& e.fpc.extractLsb' 1 5 ≠ 0 then [late .fpException] else []) ++
        (match e.fault with | some f => [late f] | none => [])) ∧
  (∀ s op e, s.eng? op = some e → s.olderEng e = true ∨ s.engWritesDone e = false ∨ (∃ k < e.count, k ∉ e.done) →
    exec (.copyEngineRetire op) s = .next s) ∧
  (∀ o, Completes (.cwait o) (fun s c z _ => c.parts = 0 ∨ s.engCount z.sid (bitsNat o.imm 1 0) ≤ bitsNat o.imm 13 8)
    fun s _ _ _ => s) ∧
  (∀ o, MovesLanes (.cwait o) (fun s c z _ => c.parts ≠ 0 ∧ bitsNat o.imm 13 8 < s.engCount z.sid (bitsNat o.imm 1 0))
    fun c _ l x => if c.bundle.getLsbD l then { x with park := .cwait (bitsNat o.imm 1 0) (bitsNat o.imm 13 8) } else x)

/-! ### Matrices -/

/-- R139 to R144, R148: MMA reads its operands at issue and queues its results at its quarter, whose event writes them; MMAJ latches its
operands until the fourth member of its set has issued, which joins the four, and is illegal outside a joint set; both wait
while their slice has two operations queued. MLEASE asks for the lease or gives it up.
Model's choices: log entries 16, 18, 115, 139, 147. -/
def Obligations.MatrixIssue : Prop :=
  let full := fun (s : State) (z : Str) => 2 ≤ s.matQueued z.core z.slice
  (∀ o s c z t, Issues s (.mma o) c z t → t.overflow = false → full s z → Held s c (.mma o)) ∧
  (∀ o s c z t, Issues s (.mma o) c z t → Room z t 16 → ¬ full s z →
    let op : MatOp :=
      { id := s.nextId, sid := z.sid, tid := t.tid, slice := z.slice, pc := c.pc, depth := t.depth, trap := c.trap, units := 1
        chk := z.chksum, writes := if c.parts = 0 then [] else (mmaResults c z o).1
        regs := if c.parts = 0 then [] else (List.range 16).map (o.d.toNat + ·)
        flags := if c.parts = 0 then 0 else (mmaResults c z o).2, enabled := z.enabled, joint := none }
    MatWrites op ∧
    ∃ z', exec (.mma o) s = .next (({ s with nextId := s.nextId + 1 }.updStr c.sid fun _ => z').queueMat z.core op) ∧
      z' = { z with bag := z'.bag } ∧ (t.depth = 0 → z'.bag = z.bag)) ∧
  (∀ o s c z t, Issues s (.mmaj o) c z t → t.overflow = false → z.idx < 4 * t.joint → full s z → Held s c (.mmaj o)) ∧
  (∀ o s c z t, Issues s (.mmaj o) c z t → Room z t 64 → z.idx < 4 * t.joint → ¬ full s z →
    let num := t.mmajCount z.idx
    let row := fun (first n l : Nat) => (List.range n).map fun i => z.vreg (first + i) l
    let sh := matShape o.ty
    let p : PendJ :=
      { id := s.nextId, sid := z.sid, tid := t.tid, set := z.idx / 4, num := num, ty := o.ty, pc := c.pc, depth := t.depth
        trap := c.trap, parts := c.parts, dst := o.d.toNat, spec := o.spec, ftz := z.ftz, enabled := z.enabled
        chk := z.chksum, aRegs := (List.range 32).map (row o.a.toNat sh.2.2.1), bRegs := (List.range 32).map (row o.b.toNat sh.2.2.2)
        sRegs := (List.range 32).map (row o.c.toNat 2), acc := (List.range 32).map (row o.d.toNat 64) }
    let member := fun (q : Nat) => (s.pendJ ++ [p]).find? fun x => x.tid == t.tid && x.num == num && x.set == z.idx / 4 &&
      (match s.str? x.sid with | some y => y.idx == 4 * (z.idx / 4) + q | none => false)
    ∃ z', z' = { z with bag := z'.bag } ∧ (t.depth = 0 → z'.bag = z.bag) ∧
      let u := ({ s with nextId := s.nextId + 1, pendJ := s.pendJ ++ [p] }.updStr c.sid fun _ => z').updTroop t.tid fun t =>
        { t with mmaj := (z.idx, num + 1) :: t.mmaj.filter (·.1 != z.idx) }
      ((∃ q < 4, member q = none) → (∀ y ∈ s.strs, y.tid = t.tid → y.idx / 4 = z.idx / 4 → y.retired = false) →
        exec (.mmaj o) s = .next u) ∧
      ∀ ms, (List.range 4).map member = ms.map some →
        exec (.mmaj o) s = .next ((u.formJoint z.core ms s.nextId).settleOverflow t.tid) ∧
        ∀ op : MatOp, (∃ m ∈ ms, op.id = m.id) → MatWrites op) ∧
  (∀ o, Traps (.mmaj o) (fun _ _ z t => 4 * t.joint ≤ z.idx) .illegalInstruction) ∧
  (∀ o s c z t, Issues s (.mlease o) c z t → t.overflow = false →
    let x := s.quarter z.core (quarterOf z.slice)
    (c.parts = 0 → exec (.mlease o) s = .next s) ∧
    (c.parts ≠ 0 → o.fn = 0 → exec (.mlease o) s = .next ((s.putQuarter (x.request
      { tid := t.tid, acq := true, slice := z.slice, clock := s.clock })).settleQuarters z.core)) ∧
    (c.parts ≠ 0 → o.fn ≠ 0 → x.holder = some t.tid →
      exec (.mlease o) s = .next ((s.putQuarter { x with rel := some s.nextId }).settleQuarters z.core)) ∧
    (c.parts ≠ 0 → o.fn ≠ 0 → x.holder ≠ some t.tid → x.wants t.tid = true → exec (.mlease o) s = .next s) ∧
    (c.parts ≠ 0 → o.fn ≠ 0 → x.holder ≠ some t.tid → x.wants t.tid = false → exec (.mlease o) s =
      .next (s.putQuarter { x with queue := x.queue.filter fun r => !(r.tid == t.tid && r.acq) })))

/-- R140, R142, R149: the operation that a quarter runs ends: its results are written to the lanes that have not exited, its flags
reach FPFLAGS and the quarter goes on. One whose check fails twice writes nothing and faults late, unless its epoch has been rolled
back; the failure is counted either way (R150, R419). -/
def Obligations.MatrixOperationsComplete : Prop :=
  (∀ op, MatWrites op) ∧
  (∀ s core q op z t, (s.quarter core q).run = some op → s.str? op.sid = some z → s.troop? z.tid = some t →
    op.tid = t.tid → t.overflow = false → op.chk = true → op.trap = false →
    (∃ l ∈ z.lanes, l.exited = false) →
    let x := s.quarter core q
    let count := if x.holder = some op.tid then x.count + op.units else x.count
    let s' := (s.putQuarter { x with run := none, count := count }).countErr t.pad fun e => { e with chkFail := inc32 e.chkFail }
    (op.dead = true → exec (.matrixOpComplete core q true true) s = .next (s'.settleQuarters core)) ∧
    (op.dead = false → exec (.matrixOpComplete core q true true) s = .next ((s'.updStr op.sid fun _ => { z with lateq := z.lateq ++
      [{ cause := .uncorrectableMemory, pc := op.pc, nodePc := 0, depth := op.depth }] }).settleQuarters core))) ∧
  (∀ s core q bad1 bad2, (s.quarter core q).run = none → exec (.matrixOpComplete core q bad1 bad2) s = .next s)

/-! ### Tiles -/

/-- R157 to R163, R169, R171, R173: TDEF makes a view of a fit record and layout, TDROP empties a tile register, TSTAT reads one;
TIDX, TMUL, TEW, TRED, TTRN and TQNT append a node over inputs of fit shapes and formats. Unfit ones trap.
Model's choices: log entries 48, 54, 136. -/
def Obligations.TileRegisters : Prop :=
  let d := fun (s : State) (t : Troop) (z : Str) (r : Byte) => s.tdesc t.core (z.treg r.toNat)
  let fit := fun (z : Str) (o : Operands) => tdefOk (z.breg o.a.toNat) o.ty (bitsNat o.imm 17 16) = true
  let float := fun (t : Ty) => t = .f32 ∨ t = .f16 ∨ t = .bf16
  (∀ o, SetsTile (.tdef o) o.d (fun _ _ z _ => fit z o) fun _ z =>
    let b := z.breg o.a.toNat
    let rows := bitsNat o.imm 7 0 + 1
    let cols := bitsNat o.imm 15 8 + 1
    let layout := bitsNat o.imm 17 16
    let tr := o.imm.getLsbD 18
    let st := if o.spec then naturalStrides layout (if tr then cols else rows) (if tr then rows else cols)
      else (toSigned 32 (bitsNat (z.sreg o.c.toNat) 31 0), toSigned 32 (bitsNat (z.sreg o.c.toNat) 63 32))
    .view { fmt := o.ty, rows := rows, cols := cols, scale := if o.ty.isTap then recScaleBase b / 8192 else 0, cstride := st.2
            rstride := st.1, extent := recExtent b, origin := (bitsNat (z.sreg o.b.toNat) 31 0 : Nat), tr := tr
            layout := layout, oob := recOob b == 1, base := recBase b }) ∧
  (∀ o, Traps (.tdef o) (fun _ c z _ => c.parts ≠ 0 ∧ ¬ fit z o) .tileShape) ∧
  (∀ o, SetsTile (.tdrop o) o.a (fun _ _ _ _ => True) fun _ _ => .empty) ∧
  (∀ o, SResult (.tstat o) o.d (fun _ _ _ _ => True) fun s _ z t => BitVec.ofNat 64 (match z.treg o.a.toNat with
    | .empty => 0
    | .view _ => 2 ^ 26
    | .node n => match s.node? t.core n with
      | some x => x.epoch * 2 ^ 40 + x.op.code * 2 ^ 32 + (if x.demanded = [] then 0 else 2 ^ 25) +
          (if x.unforced = [] then 2 ^ 24 else 0) + x.n * 2 ^ 16 + x.status
      | none => 0)) ∧
  (∀ o, Appends (.tidx o) o.d fun s c z t => match d s t z o.a, d s t z o.b with
    | some a, some b => if (b.fmt = .i32 ∨ b.fmt = .n32) ∧ b.cols = 1 then
        some { nodeOf c z t o .gather b.rows a.cols [z.treg o.a.toNat, z.treg o.b.toNat] with out := a.fmt } else none
    | _, _ => none) ∧
  (∀ o, o.spec = false → Appends (.tmul o) o.d fun s c z t => match d s t z o.a, d s t z o.b with
    | some a, some b => if a.fmt = b.fmt ∧ a.cols = b.rows ∧ tmulTypes o.ty a.fmt none = true then
        some (nodeOf c z t o .mul a.rows b.cols [z.treg o.a.toNat, z.treg o.b.toNat]) else none
    | _, _ => none) ∧
  (∀ o, o.spec = true → Appends (.tmul o) o.d fun s c z t => match d s t z o.a, d s t z o.b, d s t z o.c with
    | some a, some b, some x =>
      if a.fmt = b.fmt ∧ a.cols = b.rows ∧ tmulTypes o.ty a.fmt (some x.fmt) = true ∧ x.rows = a.rows ∧ x.cols = b.cols then
        some (nodeOf c z t o .mul a.rows b.cols [z.treg o.a.toNat, z.treg o.b.toNat, z.treg o.c.toNat]) else none
    | _, _, _ => none) ∧
  (∀ o, Appends (.tew o) o.d fun s c z t => match d s t z o.a, d s t z o.b with
    | some a, some b =>
      if sameKind o.ty a.fmt = true ∧ sameKind o.ty b.fmt = true ∧ (b.rows = a.rows ∨ b.rows = 1) ∧
          (b.cols = a.cols ∨ b.cols = 1) then
        some (nodeOf c z t o .ew a.rows a.cols [z.treg o.a.toNat, z.treg o.b.toNat]) else none
    | _, _ => none) ∧
  (∀ o, Appends (.tred o) o.d fun s c z t => match d s t z o.a with
    | some a => if sameKind o.ty a.fmt = true then
        some (if o.imm.getLsbD 0 then { nodeOf c z t o .red a.rows 1 [z.treg o.a.toNat] with axis := true }
          else nodeOf c z t o .red 1 a.cols [z.treg o.a.toNat]) else none
    | none => none) ∧
  (∀ o, Appends (.ttrn o) o.d fun s c z t => match d s t z o.a with
    | some a => if o.ty = a.fmt then
        some { nodeOf c z t o .trn a.cols a.rows [z.treg o.a.toNat] with kcols := !a.kcols } else none
    | none => none) ∧
  (∀ o, Appends (.tqnt o) o.d fun s c z t => match d s t z o.a with
    | some a => if float a.fmt then
        some { nodeOf c z t o .qnt a.rows a.cols [z.treg o.a.toNat] with
               axis := o.imm.getLsbD 0, kcols := !o.imm.getLsbD 0, smen := o.imm.getLsbD 1
               smooth := if o.imm.getLsbD 1 then bitsNat (z.sreg o.b.toNat) 31 0 else 0 } else none
    | none => none)

/-- R164, R165, R167, R170, R247 to R249: TFORCE and TST start an operation that demands the cells of its box, TWALK one of its own;
they wait while their string's stores are not all accepted or the tile counter is full; unfit operands trap. A TFORCE of a
view completes at once; another operation completes when its items and the cells it demanded are done, and leaves its counter.
Model's choices: log entries 49, 138, 144, 146. -/
def Obligations.TileOperations : Prop :=
  let d := fun (s : State) (t : Troop) (z : Str) (r : Byte) => s.tdesc t.core (z.treg r.toNat)
  let starts := fun (i : Instr) => Completes i (fun _ c _ _ => c.parts = 0) (fun s _ _ _ => s) ∧
    ∀ s c z t, Issues s i c z t → t.overflow = false → c.parts ≠ 0 → s.tileHeld c = true → Held s c i
  let started := fun (s : State) (e : EngOp) => { s with engs := s.engs ++ [e], nextId := s.nextId + 1 }
  let demanded := fun (s : State) (t : Troop) (e : EngOp) => match e.src with
    | .node n => (started s e).demand t.core n (boxCells e.box) e.force
    | _ => started s e
  (∀ o, starts (.tforce o)) ∧ (∀ o, starts (.tst o)) ∧ (∀ o, starts (.twalk o)) ∧
  (∀ o s c z t a box n, Issues s (.tforce o) c z t → t.overflow = false → c.parts ≠ 0 → s.tileHeld c = false →
    d s t z o.a = some a → boxOf (z.sreg o.b.toNat) a.rows a.cols = some box → z.treg o.a.toNat = .node n →
    let e := tileOpOf s c z t .tforce .str (.node n) .empty box
    exec (.tforce o) s = .next (demanded s t e) ∧ TileEnds e) ∧
  (∀ o s c z t a box v, Issues s (.tforce o) c z t → t.overflow = false → c.parts ≠ 0 → s.tileHeld c = false →
    d s t z o.a = some a → boxOf (z.sreg o.b.toNat) a.rows a.cols = some box → z.treg o.a.toNat = .view v →
    (∀ e ∈ s.engs, e.id ≠ s.nextId) → (∀ e ∈ s.engs, e.sid = c.sid → e.kind.cls ≠ 1) → (∀ f ∈ s.pendFlags, f.1 ≠ s.nextId) →
    ∃ z', exec (.tforce o) s = .next ({ s with nextId := s.nextId + 1 }.updStr c.sid fun _ => z') ∧ z' = { z with lanes := z'.lanes } ∧
      Lanes z z' fun _ x => leavesCwait s c.sid x) ∧
  (∀ o, Traps (.tforce o) (fun s c z t => c.parts ≠ 0 ∧ s.tileHeld c = false ∧
    ∀ a, d s t z o.a = some a → boxOf (z.sreg o.b.toNat) a.rows a.cols = none) .tileShape) ∧
  (∀ o s c z t a box v, Issues s (.tst o) c z t → t.overflow = false → c.parts ≠ 0 → s.tileHeld c = false →
    d s t z o.a = some a → z.treg o.d.toNat = .view v → a.rows = v.rows → a.cols = v.cols → tstPair v.fmt a.fmt = true →
    boxOf (z.sreg o.b.toNat) a.rows a.cols = some box →
    let e := tileOpOf s c z t .tst o.level (z.treg o.a.toNat) (.view v) box
    exec (.tst o) s = .next (demanded s t e) ∧ TileEnds e) ∧
  (∀ o, Traps (.tst o) (fun s c z t => c.parts ≠ 0 ∧ s.tileHeld c = false ∧ ∀ a v, d s t z o.a = some a → z.treg o.d.toNat = .view v →
    a.rows = v.rows → a.cols = v.cols → tstPair v.fmt a.fmt = true → boxOf (z.sreg o.b.toNat) a.rows a.cols = none) .tileShape) ∧
  (∀ o s c z t a n v, Issues s (.twalk o) c z t → t.overflow = false → c.parts ≠ 0 → s.tileHeld c = false →
    z.treg o.a.toNat = .node n → z.treg o.d.toNat = .view v → d s t z o.a = some a → a.rows = v.rows → a.cols = v.cols →
    tstPair v.fmt a.fmt = true →
    let x := z.sreg o.c.toNat
    let acc := bitsNat x 63 32
    let nodes := s.nodes.filter fun (y : Node) => y.core == t.core
    let leaves := leafCount nodes 257 (.node n) 0
    acc ≤ 7 → bitsNat x 15 0 ≠ 0 → bitsNat x 31 16 ≠ 0 → (acc = 0 ∨ acc = 7 ∨ v.fmt.isInt = true) → leaves ≤ 31 →
    (acc = 7 → t.protect = none) →
    (∀ table, t.walkTable (z.sreg o.b.toNat).toNat (leaves + 1) = .ok table →
      let e := { tileOpOf s c z t .twalk o.level (.node n) (.view v) (0, 0, a.rows, a.cols) with
                 rows := bitsNat x 15 0, cols := bitsNat x 31 16, op := acc, off := (z.sreg o.b.toNat).toNat
                 table := table, tree := walkTree nodes (.node n) }
      exec (.twalk o) s = .next (started s e) ∧ TileEnds e) ∧
    ∀ f, t.walkTable (z.sreg o.b.toNat).toNat (leaves + 1) = .error f → Delivers c z t f →
      ∃ z', exec (.twalk o) s = .next (s.updStr c.sid fun _ => z') ∧ Entered z z' c f) ∧
  (∀ o, Traps (.twalk o) (fun s c z t => c.parts ≠ 0 ∧ s.tileHeld c = false ∧ bitsNat (z.sreg o.c.toNat) 63 32 = 7 ∧
    t.protect ≠ none) .recoveryEscape) ∧
  (∀ o, Traps (.twalk o) (fun s c z t =>
    let x := z.sreg o.c.toNat
    let acc := bitsNat x 63 32
    c.parts ≠ 0 ∧ s.tileHeld c = false ∧ (acc = 7 → t.protect = none) ∧ ∀ n v a, z.treg o.a.toNat = .node n →
      z.treg o.d.toNat = .view v → d s t z o.a = some a → a.rows = v.rows → a.cols = v.cols → tstPair v.fmt a.fmt = true →
      acc ≤ 7 → bitsNat x 15 0 ≠ 0 → bitsNat x 31 16 ≠ 0 → (acc = 0 ∨ acc = 7 ∨ v.fmt.isInt = true) →
      31 < leafCount (s.nodes.filter fun (y : Node) => y.core == t.core) 257 (.node n) 0) .tileShape) ∧
  ∀ e, TileEnds e

/-- R83, R145, R149, R150, R161, R163, R165, R172: a demanded cell whose input cells are computed reads its leaves and is computed, once the
cell store has room: it keeps its value, and its flags wait for the end of the forcing. A cell of a multiply runs on a quarter
that its troop holds, whose time it takes, or asks for one. A cell that lacks an input demands it; one that faults ends its
demand, and its node and the string of the forcing instruction learn the fault. Stated for a node that is no gather.
Model's choices: log entries 20, 21, 52, 107, 120, 157. -/
def Obligations.CellsAreComputed : Prop :=
  ∀ (s : State) core n cell bad1 bad2 (x : Node) (f : Force) (t : Troop), s.node? core n = some x → x.op ≠ .gather →
    x.demanded.find? (·.1 == cell) = some (cell, f) → s.troop? x.tid = some t → s.haltedCore core = false →
    s.cellRailed (.cell core n cell) = false →
    let nodes := s.nodes.filter fun (y : Node) => y.core == core
    let deps := x.cellDeps nodes cell []
    let lacks := fun (e : Nat × Nat) => (nodes.find? fun (y : Node) => y.n == e.1).any fun y => !y.isForced e.2
    let goes := fun (u : State) => exec (.nodeCellCompute core n cell bad1 bad2) s = .next u
    let who := ReqWho.cell core n cell
    let rerun := x.chk && x.op == .mul && bad1
    let runs := fun (s' done : State) =>
      (x.op ≠ .mul → goes (done.freeNodes.settleOverflow t.tid)) ∧
      (x.op = .mul → s'.cellQuarter t who = none → goes ((s'.askQuarter t who).freeNodes.settleOverflow t.tid)) ∧
      (x.op = .mul → ∀ q, s'.cellQuarter t who = some q → done.cellRailed who = false →
        goes ((done.spendQuarter t (done.quarter q.core q.q) who (x.units (descIn nodes (x.slot 0))
          (x.chk && bad1))).freeNodes.settleOverflow t.tid))
    ((∃ e ∈ deps, lacks e = true) → ∃ u, goes u ∧ u = (deps.filter lacks).foldl (fun u e => u.demand core e.1 [e.2] f) s ∧
      u = { s with nodes := u.nodes } ∧ u.nodes.length = s.nodes.length) ∧
    ((∀ e ∈ deps, lacks e = false) → ∀ (s' : State) (r : CellRes), s.cellValue x.sid t nodes x cell [] = (s', .ok r) →
      (rerun && bad2) = false → r.bad = false → r.flags &&& x.enabled = 0 →
      ∀ (s'' : State) w, s'.roomFor 257 t.tid (cellUnits x.out) = (s'', some (.ok w)) →
        let ran := if rerun then (s''.countRerun t.pad).updNode core n fun y => y.fail 1 else s''
        runs s' ((ran.pendFlag f.wait f.sid r.flags).storeCell x cell r deps)) ∧
    ((∀ e ∈ deps, lacks e = false) → ∀ (s' : State) (r : CellRes), s.cellValue x.sid t nodes x cell [] = (s', .ok r) →
      (rerun && bad2) = true →
      runs s' ((s'.countErr t.pad fun e => { e with chkFail := inc32 e.chkFail }).failCell core n cell .uncorrectableMemory 5)) ∧
    ((∀ e ∈ deps, lacks e = false) → ∀ (s' : State) (c : Cause), s.cellValue x.sid t nodes x cell [] = (s', .error (.refused c)) →
      goes (s'.failCell core n cell c (statusOf c)).freeNodes)

/-! ### Tasks -/

/-- R332, R337, R342, R343, R346, R415: the task instructions. SPAWN pushes a record into the manger or to the ring, TAKE parks until a
record comes or the job ends, DONE gives one back, CANCEL, JWAIT and LAUNCH park on an operation, TCHK reads the cancel bit.
Inside a recovery block and in a redundant troop all but TCHK and JWAIT trap; bad operands trap.
That no queue's PRIOMAX bounds the packet of a LAUNCH is the model's choice and no rule's.
Model's choices: log entries 69, 71, 155, 156. -/
def Obligations.TaskInstructions : Prop :=
  let id := fun (z : Str) (o : Operands) => jobId (z.sreg o.a.toNat)
  let escapes := fun (i : Instr) => Traps i (fun _ c _ t => c.parts ≠ 0 ∧ t.protect ≠ none) .recoveryEscape
  let bounded := fun (i : Instr) (o : Operands) => Traps i (fun _ c z t => c.parts ≠ 0 ∧ t.protect = none ∧ id z o = none) .bounds
  let idle := fun (i : Instr) => Completes i (fun _ c _ _ => c.parts = 0) fun s _ _ _ => s
  let taken := fun (z : Str) (o : Operands) => taskOf fun i => z.sreg (o.a.toNat + i)
  let mine := fun (s : State) (z : Str) (t : Troop) (r : TaskRec) (j : Job) =>
    s.job? t.pad r.job = some j ∧ 0 < z.heldOf j.id ∧ z.core ∉ j.cancelCores
  let direct := fun (s : State) (z : Str) (j : Job) => 0 < s.freeEntries z.core ∧
    (s.ring z.core j.pad j.id).head = (s.ring z.core j.pad j.id).tail ∧ ∀ b ∈ s.batches, ¬(b.core = z.core ∧ b.job = j.id)
  (∀ o, idle (.tchk o)) ∧ (∀ o, idle (.spawn o)) ∧ (∀ o, escapes (.spawn o)) ∧
  (∀ o, Traps (.spawn o) (fun _ c z t => c.parts ≠ 0 ∧ t.protect = none ∧ taken z o = none) .bounds) ∧
  (∀ o, SResult (.spawn o) o.d (fun s c z t => c.parts ≠ 0 ∧ t.protect = none ∧ ∃ r, taken z o = some r ∧
    ∀ j, s.job? t.pad r.job = some j → z.heldOf j.id = 0) fun _ _ _ _ => 3) ∧
  (∀ o, SResult (.spawn o) o.d (fun s c z t => c.parts ≠ 0 ∧ t.protect = none ∧ ∃ r j, taken z o = some r ∧
    s.job? t.pad r.job = some j ∧ 0 < z.heldOf j.id ∧ z.core ∈ j.cancelCores) fun _ _ _ _ => 4) ∧
  (∀ o s c z t r j, Issues s (.spawn o) c z t → c.parts ≠ 0 → t.protect = none → taken z o = some r → mine s z t r j →
    direct s z j →
    let m := s.manger z.core
    exec (.spawn o) s = .next ((((s.putManger { m with recs := m.recs ++ [r] }).serveCore z.core).putScalar c z o.d
      0).settleOverflow t.tid)) ∧
  (∀ o s c z t r j s' bs, Issues s (.spawn o) c z t → c.parts ≠ 0 → t.protect = none → taken z o = some r → mine s z t r j →
    ¬ direct s z j →
    let ring := s.ring z.core j.pad j.id
    ring.tail - ring.head + s.unread z.core j.id < j.slots → s.cellRailed (.task z.core j.slot true) = false →
    (∀ x ∈ s.refusals, x.1 ≠ .task z.core j.slot true) →
    s.agentStore j.pad j.secure j.super (j.slotVa z.core ring.tail) r.bytes = (s', .ok bs) →
    exec (.spawn o) s = .next ((((s'.putRing { ring with tail := ring.tail + 1 }).serveCore z.core).putScalar c z o.d
      0).settleOverflow t.tid)) ∧
  (∀ o, Traps (.spawn o) (fun s c z t => c.parts ≠ 0 ∧ t.protect = none ∧ ∃ r j, taken z o = some r ∧ mine s z t r j ∧
    ¬ direct s z j ∧ j.slots ≤ (s.ring z.core j.pad j.id).tail - (s.ring z.core j.pad j.id).head + s.unread z.core j.id) .taskQueue) ∧
  (∀ o, idle (.take o)) ∧ (∀ o, escapes (.take o)) ∧ (∀ o, bounded (.take o) o) ∧
  (∀ o s c z t i st, Issues s (.take o) c z t → Room z t 8 → c.parts ≠ 0 → t.protect = none → id z o = some i →
    (match s.job? t.pad i with
      | none => st = 3
      | some j => st = j.status ∧ (j.terminated = true ∨ z.core ∈ j.cancelCores)) →
    ∃ z', exec (.take o) s = .next (s.updStr c.sid fun _ => z') ∧ onlyS z z' t ∧
      ∀ n, z'.sreg n = if o.d.toNat ≤ n ∧ n < o.d.toNat + 8 then (takeEnd st).getD (n - o.d.toNat) 0 else z.sreg n) ∧
  (∀ o s c z t i j, Issues s (.take o) c z t → c.parts ≠ 0 → t.protect = none → id z o = some i → s.job? t.pad i = some j →
    j.terminated = false → z.core ∉ j.cancelCores → z.heldOf i < 255 →
    exec (.take o) s = .next ((({ s with nextId := s.nextId + 1 }.park z.sid c.bundle (.take i o.d.toNat s.nextId)).serveCore
      z.core).settleOverflow t.tid)) ∧
  (∀ o, Traps (.take o) (fun s c z t => c.parts ≠ 0 ∧ t.protect = none ∧ ∃ i j, id z o = some i ∧ s.job? t.pad i = some j ∧
    j.terminated = false ∧ z.core ∉ j.cancelCores ∧ 255 ≤ z.heldOf i) .taskQueue) ∧
  (∀ o, idle (.done o)) ∧ (∀ o, escapes (.done o)) ∧ (∀ o, bounded (.done o) o) ∧
  (∀ o s c z t i j, Issues s (.done o) c z t → c.parts ≠ 0 → t.protect = none → id z o = some i → s.job? t.pad i = some j →
    0 < z.heldOf i → exec (.done o) s =
      .next ((s.updStr z.sid fun (z : Str) => z.setHeld i (z.heldOf i - 1)).settleJobs.settleOverflow t.tid)) ∧
  (∀ o, Traps (.done o) (fun s c z t => c.parts ≠ 0 ∧ t.protect = none ∧ ∃ i, id z o = some i ∧
    (s.job? t.pad i = none ∨ z.heldOf i = 0)) .taskQueue) ∧
  (∀ o, idle (.cancel o)) ∧ (∀ o, escapes (.cancel o)) ∧ (∀ o, bounded (.cancel o) o) ∧
  (∀ o, Completes (.cancel o) (fun s c z t => c.parts ≠ 0 ∧ t.protect = none ∧ ∃ i, id z o = some i ∧ s.job? t.pad i = none)
    fun s _ _ _ => s) ∧
  (∀ o s c z t i j, Issues s (.cancel o) c z t → t.overflow = false → c.parts ≠ 0 → t.protect = none → id z o = some i →
    s.job? t.pad i = some j → (∀ x ∈ s.ops, x.id ≠ s.nextId) →
    let op : SysOp :=
      { id := s.nextId, sid := c.sid, tid := t.tid, kind := .cancel, lvl := .str, pc := c.pc, next := c.next, mask := c.bundle
        depth := t.depth, trap := c.trap, phase := .waiting, arg := i, arg2 := j.launch, cores := s.jobCores t.pad, fault := none
        blocks := c.blocks, wasPref := z.pref == some c.pc }
    CancelEnds op ∧ ∃ z', exec (.cancel o) s = .next ({ s with ops := s.ops ++ [op], nextId := s.nextId + 1 }.updStr c.sid fun _ => z') ∧
      z' = { z with lanes := z'.lanes } ∧ Lanes z z' fun l x => if c.bundle.getLsbD l then { x with park := .op s.nextId } else x) ∧
  (∀ o, SResult (.tchk o) o.d (fun _ _ z _ => id z o ≠ none) fun s _ z t =>
    match s.job? t.pad (z.sreg o.a.toNat).toNat with
    | some j => if z.core ∈ j.cancelCores then 1 else 0
    | none => 0) ∧
  (∀ o, Traps (.tchk o) (fun _ c z _ => c.parts ≠ 0 ∧ id z o = none) .bounds) ∧
  (∀ o, Traps (.jwait o) (fun _ c z _ => c.parts ≠ 0 ∧ id z o = none) .bounds) ∧
  (∀ o, SResult (.jwait o) o.d (fun s c z t => c.parts ≠ 0 ∧ ∃ i, id z o = some i ∧ s.job? t.pad i = none) fun _ _ _ _ => 3) ∧
  (∀ o j, SResult (.jwait o) o.d (fun s c z t => c.parts ≠ 0 ∧ ∃ i, id z o = some i ∧ s.job? t.pad i = some j ∧ z.heldOf i = 0 ∧
    j.terminated = true) fun _ _ _ _ => BitVec.ofNat 64 j.status) ∧
  (∀ o, StartsOp (.jwait o) (fun s _ z t => ∃ i j, id z o = some i ∧ s.job? t.pad i = some j ∧ z.heldOf i = 0 ∧
    j.terminated = false) .jwait .str (fun _ z => (z.sreg o.a.toNat).toNat) (fun _ _ => o.d.toNat) JwaitEnds) ∧
  (∀ o, Traps (.jwait o) (fun s c z t => c.parts ≠ 0 ∧ ∃ i j, id z o = some i ∧ s.job? t.pad i = some j ∧ 0 < z.heldOf i)
    .taskQueue) ∧
  (∀ o, escapes (.launch o)) ∧
  (∀ o, StartsOp (.launch o) (fun _ _ z t => t.protect = none ∧ canonical (z.sreg o.a.toNat) = true ∧
    (z.sreg o.a.toNat).toNat % 64 = 0) .launch .dev (fun _ z => (addr56 (z.sreg o.a.toNat)).toNat) (fun _ _ => o.d.toNat)
    LaunchEnds) ∧
  (∀ o, Traps (.launch o) (fun _ c z t => c.parts ≠ 0 ∧ t.protect = none ∧ canonical (z.sreg o.a.toNat) = false) .noncanonical) ∧
  (∀ o, Traps (.launch o) (fun _ c z t => c.parts ≠ 0 ∧ t.protect = none ∧ canonical (z.sreg o.a.toNat) = true ∧
    (z.sreg o.a.toNat).toNat % 64 ≠ 0) .misaligned)

/-- R334, R338, R340, R341: a refill batch lands in the manger, a steal takes half of a record that can be split and else a whole one
when another is left, a stolen record lands, or is discarded when its job is cancelled there, a cancel reaches a core, a job becomes
active. The core is served after each.
Model's choices: log entries 66, 68, 132, 153, 154. -/
def Obligations.TaskEvents : Prop :=
  (∀ (s : State) core (p : Paddock) (b : Batch), s.padOf core = some p → s.batches.find? (·.core == core) = some b → b.recs ≠ [] →
    b.left = [] → s.haltedCore core = false → (∀ r ∈ b.recs, ∃ j, s.job? p.n r.job = some j ∧ core ∉ j.cancelCores) →
    let m := s.manger core
    exec (.refillBatchLand core) s =
      .next (({ s with batches := s.batches.erase b }.putManger { m with recs := m.recs ++ b.recs }).serveCore core)) ∧
  (∀ (s : State) thief victim job (p : Paddock) (j : Job) (r : TaskRec) rs, s.padOf thief = some p → s.job? p.n job = some j →
    (s.manger victim).recs.filter (·.job == job) = r :: rs → s.haltedCore thief = false → s.haltedCore victim = false →
    s.idleFor thief j = true → s.coreOf j victim = true →
    let m := s.manger victim
    let half := (r.hi - r.lo) / 2
    let mid := r.lo + (r.hi - r.lo + 1) / 2
    let sent := fun (s' : State) (x : TaskRec) =>
      { s' with steals := s'.steals ++ [{ id := s.nextId, thief := thief, job := job, task := x }] }
    let s' := { s with nextId := s.nextId + 1 }
    (r.noSplit = false → r.grain ≤ half → exec (.stealRequest thief victim job) s = .next (sent
      (s'.putManger { m with recs := updFirst (· == r) (fun (r : TaskRec) => { r with hi := mid }) m.recs }) { r with lo := mid })) ∧
    (r.noSplit = true ∨ half < r.grain → rs ≠ [] → exec (.stealRequest thief victim job) s =
      .next (sent (s'.putManger { m with recs := m.recs.erase r }) r)) ∧
    (r.noSplit = true ∨ half < r.grain → rs = [] → ∃ u, exec (.stealRequest thief victim job) s = .next u ∧
      u.mangers = s.mangers ∧ u.steals = s.steals)) ∧
  (∀ (s : State) sid (x : Steal) (p : Paddock) (j : Job), s.steals.find? (·.id == sid) = some x → s.padOf x.thief = some p →
    s.haltedCore x.thief = false → s.freeEntries x.thief ≠ 0 → s.job? p.n x.task.job = some j → x.thief ∉ j.cancelCores →
    let m := s.manger x.thief
    exec (.stealAnswer sid) s = .next (({ s with steals := s.steals.erase x }.putManger { m with recs := m.recs ++ [x.task] }).serveCore
      x.thief)) ∧
  (∀ (s : State) sid (x : Steal) (p : Paddock), s.steals.find? (·.id == sid) = some x → s.padOf x.thief = some p →
    s.haltedCore x.thief = false → x.task.job = x.job → (∀ j, s.job? p.n x.job = some j → x.thief ∈ j.cancelCores) →
    exec (.stealAnswer sid) s = .next ({ s with steals := s.steals.erase x }.serveCore x.thief)) ∧
  (∀ (s : State) op core (x : SysOp) (t : Troop) (j : Job), s.op? op = some x → x.kind = .cancel → core ∈ x.cores →
    s.troop? x.tid = some t → s.job? t.pad x.arg = some j → j.launch = x.arg2 →
    let left := x.cores.filter (· != core)
    let s' := (s.cancelAt j core).updOp op fun x => { x with cores := left }
    exec (.cancelBitSet op core) s = .next (if left = [] then (s'.endOp x).settleJobs else s'.settleJobs)) ∧
  (∀ (s : State) launch core (l : Launch) (p : Paddock) s' bs (r : TaskRec), s.launch? launch = some l → s.pad? l.pad = some p →
    l.type = 4 → l.stage = 5 → l.job = none → p.st = .running → (s.served p).map (·.id) = some l.id → core ∈ s.padCores p →
    s.freeEntries core ≠ 0 → (∃ b < 12, s.fits l core b ≠ none) →
    let id := l.extWord 0x28 / 65536
    let mine := s.jobs.filter fun (j : Job) => j.pad == p.n
    (∀ j ∈ mine, j.id ≠ id) → mine.length < 8 → s.agentGet l (l.extWord 0x30) 64 = (s', some (.ok bs)) →
    taskOfBytes bs = some r → (s'.resident core) ≠ [] →
    let j : Job := { pad := p.n, slot := freeOf (mine.map (·.slot)) 8, id := id, launch := launch, code := (l.dword 6).toNat
                     ring := l.extWord 0x20, rlog := l.extWord 0x28 % 16, secure := l.world, super := l.kind == 1
                     cancelled := false, cancelCores := [], faulted := false, terminated := false }
    exec (.jobActivate launch core) s = .next ((({ s' with jobs := s'.jobs ++ [j] }.updLaunch launch fun l =>
      { l with job := some id, cores := [core] }).land core p.n { r with job := id }).serveCore core))

/-! ### Recovery -/

/-- R409, R410, R411, R413, R415, R425, R426, R429, R431: a bundle arrives at a collective: its lanes park, its arrivals join those of
the pending one, and the collective then takes its step; while lanes are missing nothing more happens. A mismatch fails the
alternate, and outside blocks is illegal before every other check, for every lane that has arrived too, as is a marker or a decision
that stands outside a block. A collective where it may not stand traps. RSTAT reads and clears, and is illegal in trap mode (R393).
Model's choices: log entries 55, 56, 57, 140. -/
def Obligations.CollectivesGather : Prop :=
  let arrivals := fun (c : Cur) (k : Coll) (arg target : Dword) (limit : Nat) => (lanesOf c.bundle).map fun l =>
    ({ sid := c.sid, lane := l, coll := k, pc := c.pc, next := c.next, arg := arg, target := target, limit := limit } : Arrival)
  let arrives := fun (i : Instr) (k : Coll) (own : State → Cur → Str → Troop → Prop) (arg target : Cur → Str → Dword) (limit : Nat) =>
    (∀ s c z t, Issues s i c z t → t.overflow = false → c.trap = false → own s c z t →
      (∀ a ∈ t.arrivals, t.matchesColl a k c.pc = true) →
      let new := arrivals c k (arg c z) (target c z) limit
      ∃ z', z' = { z with lanes := z'.lanes } ∧ (Lanes z z' fun l x => if c.bundle.getLsbD l then { x with park := .collective } else x) ∧
        let u := (s.updStr c.sid fun _ => z').updTroop t.tid fun t => { t with arrivals := t.arrivals ++ new }
        exec i s = .next ((u.advance t.tid).settleOverflow t.tid) ∧
        (u.collDone { t with arrivals := t.arrivals ++ new } = false → exec i s = .next u)) ∧
    (∀ s c z t, Issues s i c z t → c.trap = false → own s c z t → t.depth ≠ 0 →
      (∃ a ∈ t.arrivals, t.matchesColl a k c.pc = false) →
      exec i s = .next ((s.fail t.tid t.depth 6 0).settleOverflow t.tid)) ∧
    ∀ s c z t, Issues s i c z t → c.trap = true → exec i s = .next (s.raise c .illegalInstruction)
  let mismatched := fun (i : Instr) (k : Coll) => ∀ s c z t, Issues s i c z t → c.trap = false → t.depth = 0 →
    (∃ a ∈ t.arrivals, t.matchesColl a k c.pc = false) →
    exec i s = .next ((s.trapAll c t .illegalInstruction).settleOverflow t.tid)
  let joins := fun (k : Coll) (c : Cur) (t : Troop) => ∀ a ∈ t.arrivals, t.matchesColl a k c.pc = true
  let zero := fun (_ : Cur) (_ : Str) => (0 : Dword)
  let inside := fun (c : Cur) (o : Operands) => 0 ≤ (c.pc.toNat : Int) + 4 * o.lit.toInt ∧ (c.pc.toNat : Int) + 4 * o.lit.toInt ≤ 2 ^ 56 - 4
  let open_ := fun (_ : State) (_ : Cur) (_ : Str) (t : Troop) => t.depth ≠ 0
  let shut := fun (i : Instr) => (∀ s c z t, Issues s i c z t → c.trap = false → t.depth = 0 →
      exec i s = .next ((s.trapAll c t .illegalInstruction).settleOverflow t.tid)) ∧
    Traps i (fun _ c _ t => c.trap = false ∧ t.depth = 0 ∧ t.arrivals = [] ∧ t.joining = none) .illegalInstruction
  (∀ o, arrives (.ensure o) .ensure (fun _ _ _ _ => True) zero (fun c _ => testTarget c.pc o.lit) o.imm.toNat) ∧
  (∀ (c : Cur) (o : Operands), (inside c o → testTarget c.pc o.lit = dwordOf (BitVec.ofInt 56 ((c.pc.toNat : Int) + 4 * o.lit.toInt))) ∧
    (canonical (testTarget c.pc o.lit) = true ↔ inside c o)) ∧
  (∀ o, mismatched (.ensure o) .ensure) ∧ (∀ o, mismatched (.tjoin o) .tjoin) ∧ (∀ o, mismatched (.tleave o) .tleave) ∧
  (∀ o, arrives (.elseby o) .elseby open_ zero zero 0) ∧ (∀ o, shut (.elseby o)) ∧
  (∀ o, arrives (.elseerr o) .elseerr open_ zero zero 0) ∧ (∀ o, shut (.elseerr o)) ∧
  (∀ o, arrives (.accept o) .accept open_ zero zero 0) ∧ (∀ o, shut (.accept o)) ∧
  (∀ o, arrives (.reject o) .reject open_ zero zero 0) ∧ (∀ o, shut (.reject o)) ∧
  (∀ o, arrives (.tjoin o) .tjoin (fun s _ z t => t.depth = 0 ∧ s.maskOk t (z.sreg o.a.toNat) = true ∧
    ∀ a ∈ t.arrivals, a.arg = z.sreg o.a.toNat) (fun _ z => z.sreg o.a.toNat) zero 0) ∧
  (∀ o, Traps (.tjoin o) (fun _ c _ t => c.trap = false ∧ t.depth ≠ 0) .recoveryEscape) ∧
  (∀ o, Traps (.tjoin o) (fun s c z t => c.trap = false ∧ t.depth = 0 ∧ t.arrivals = [] ∧ t.joining = none ∧
    s.maskOk t (z.sreg o.a.toNat) = false ∧ ∀ u ∈ s.troops, u.joining = none) .bounds) ∧
  (∀ o s c z t, Issues s (.tjoin o) c z t → c.trap = false → t.depth = 0 → joins .tjoin c t →
    s.maskOk t (z.sreg o.a.toNat) = false ∨ (∃ a ∈ t.arrivals, a.arg ≠ z.sreg o.a.toNat) →
    exec (.tjoin o) s = .next (((s.trapAll c t .bounds).trapWaiting t (z.sreg o.a.toNat).toNat).settleOverflow t.tid)) ∧
  (∀ o, arrives (.tleave o) .tleave (fun _ _ _ t => t.depth = 0 ∧ t.tandem ≠ none) zero zero 0) ∧
  (∀ o, Traps (.tleave o) (fun _ c _ t => c.trap = false ∧ t.depth ≠ 0) .recoveryEscape) ∧
  (∀ o, Traps (.tleave o) (fun _ c _ t => c.trap = false ∧ t.depth = 0 ∧ joins .tleave c t ∧ t.tandem = none) .bounds) ∧
  (∀ o s c z t, Issues s (.rstat o) c z t → c.trap = true → exec (.rstat o) s = .next (s.raise c .illegalInstruction)) ∧
  (∀ o, Completes (.rstat o) (fun _ c _ _ => c.trap = false ∧ c.parts = 0) fun s _ _ _ => s) ∧
  (∀ o s c z t, Issues s (.rstat o) c z t → Room z t 1 → c.trap = false → c.parts ≠ 0 →
    ∃ z', exec (.rstat o) s = .next ((s.updTroop t.tid fun t => { t with conflicts := 0 }).updStr c.sid fun _ => z') ∧
      z' = { z with s := z'.s, bag := z'.bag, aborted := false, fkind := 0, fcause := 0 } ∧ (t.depth = 0 → z'.bag = z.bag) ∧
      ∀ n, z'.sreg n = if n = o.d.toNat then BitVec.ofNat 64 (t.depth * 2 ^ 40 + s.tmask t * 2 ^ 32 + rcvStat z t) else z.sreg n)

/-- R410 to R414, R416, R417, R423, R429, R430, R431, R435, R436: what a complete collective does, unless its core is halted. ENSURE
opens a block over the alternates that its scan finds; a failed scan, and then a test address outside the address space, traps
outside blocks and inside one fails the alternate; a marker drains and then enters the test; an acceptance decision drains and then accepts or
fails the alternate; in a tandem both wait for every member, open one block in each with equally many alternates, and accept or fail in all
of them; TJOIN forms a tandem and TLEAVE leaves it. A cycle limit fails the alternate. Two copies that wait at
an escaping commit are compared, unless an alternate of one has failed, and a tie-breaking run decides between unequal ones.
Model's choices: log entries 24, 58, 59, 108, 119, 140, 152. -/
def Obligations.CollectivesComplete : Prop :=
  (∀ (s : State) tid (t : Troop) (a : Arrival) as, s.troop? tid = some t → t.failing = none → t.arrivals = a :: as →
    s.collDone t = true → s.haltedCore t.core = false →
    let steps := fun (u : State) => exec (.testDrainComplete tid) s = .next u
    let tested := updAt (fun (b : RBlock) => { b with draining := none, inTest := true }) t.blocks (t.depth - 1)
    (a.coll = .ensure → t.depth = 4 → steps (s.trapArrived t .recoveryDepth)) ∧
    (a.coll = .ensure → t.depth ≠ 4 → t.tandem = none → ∀ (s' : State) alts e, s.scanEnsure t a = (s', .ok alts e) →
      canonical a.target = true → steps ((s'.updTroop tid fun t => { t with blocks := t.blocks ++
        [{ limit := a.limit, count := 0, alts := alts, endPc := e, test := addr56 a.target, spillMark := t.rcSpill.mark
           mmaj := t.mmaj }] }).leaveTo tid (alts.headD 0))) ∧
    (a.coll = .ensure → t.depth ≠ 4 → ∀ (s' : State) (f : Cause), (s.scanEnsure t a = (s', .illegal) ∧ f = .illegalInstruction) ∨
        (s.scanEnsure t a = (s', .refused f)) ∨
        ((∃ alts e, s.scanEnsure t a = (s', .ok alts e)) ∧ canonical a.target = false ∧ f = .noncanonical) →
      (t.depth = 0 → steps (s'.trapArrived t f)) ∧ (t.depth ≠ 0 → steps (s'.fail tid t.depth 3 f.code))) ∧
    (a.coll = .elseby ∨ a.coll = .elseerr → ∀ b, t.blocks.getLast? = some b →
      (b.draining = none → a.pc = b.marker → b.inTest = false → steps (s.startDrain t false a.pc)) ∧
      (b.draining = none → a.pc ≠ b.marker ∨ b.inTest = true → steps (s.fail tid t.depth 6 0)) ∧
      (b.draining ≠ none → s.drained t = false → steps s) ∧
      (b.draining ≠ none → s.drained t = true → ∀ f, s.lateIn t = some f → steps (s.fail tid t.depth 3 f.cause.code)) ∧
      (b.draining ≠ none → s.drained t = true → s.lateIn t = none →
        steps (((s.takeTroopFlags tid).updTroop tid fun t => { t with blocks := tested }).leaveTo tid b.test))) ∧
    (a.coll = .ensure → t.depth ≠ 4 → t.tandem ≠ none → ∀ (s' : State) alts e, s.scanEnsure t a = (s', .ok alts e) →
      canonical a.target = true → ∀ (s'' : State) r, s'.scanAll (s'.members t) = (s'', r) →
      (r = none → steps s'') ∧
      ∀ rs, r = some rs →
        ((∀ x ∈ rs, x.2.2.1.length = alts.length) → steps (rs.foldl (fun s x => (s.updTroop x.1 fun m => { m with blocks := m.blocks ++
          [{ limit := x.2.1.limit, count := 0, alts := x.2.2.1, endPc := x.2.2.2, test := addr56 x.2.1.target
             spillMark := m.rcSpill.mark, mmaj := m.mmaj }] }).leaveTo x.1 (x.2.2.1.headD 0)) s'')) ∧
        ((∃ x ∈ rs, x.2.2.1.length ≠ alts.length) →
          (t.depth = 0 → steps ((s'.members t).foldl (fun s m => s.trapArrived m .illegalInstruction) s'')) ∧
          (t.depth ≠ 0 → steps (s''.noteFail tid { depth := t.depth, kind := 6, cause := 0, each := true })))) ∧
    (a.coll = .accept ∨ a.coll = .reject → t.tandem ≠ none → ∀ b, t.blocks.getLast? = some b → b.inTest = true →
      let ms := s.members t
      let arrived := ∀ m ∈ ms, s.collDone m = true ∧ m.inTest = true ∧ ∀ x ∈ m.arrivals, x.coll = .accept ∨ x.coll = .reject
      (b.draining = none → ¬ arrived → steps s) ∧
      (b.draining = none → arrived → steps (ms.foldl (fun s m => s.startDrain m true ((m.arrivals.head?.map (·.pc)).getD a.pc)) s)) ∧
      (b.draining ≠ none → (∃ m ∈ ms, s.drained m = false) → steps s) ∧
      (b.draining ≠ none → (∀ m ∈ ms, s.drained m = true) →
        (∀ m ns ls, ms = ns ++ m :: ls → (∀ n ∈ ns, ∀ x ∈ n.arrivals, x.coll ≠ .reject) → (∃ x ∈ m.arrivals, x.coll = .reject) →
          steps (s.fail m.tid t.depth 1 0)) ∧
        ((∀ m ∈ ms, ∀ x ∈ m.arrivals, x.coll ≠ .reject) →
          (∀ m ns ls f, ms = ns ++ m :: ls → (∀ n ∈ ns, s.lateIn n = none) → s.lateIn m = some f →
            steps (s.fail m.tid t.depth 3 f.cause.code)) ∧
          ((∀ m ∈ ms, s.lateIn m = none) → (∀ m ∈ ms, m.fails = []) →
            let u := ms.foldl (fun s m => s.takeTroopFlags m.tid) s
            (t.depth ≠ 1 → steps (ms.foldl (fun s m => (s.acceptOne m).leaveColl m.tid) u)) ∧
            (t.depth = 1 → (∀ m ∈ ms, m.outr = none) → steps (u.finishAccept ms a.pc)))))) ∧
    (a.coll = .accept ∨ a.coll = .reject → t.tandem = none → t.fails = [] → ∀ b, t.blocks.getLast? = some b →
      (b.inTest = false → steps (s.fail tid t.depth (if a.coll = .reject then 1 else 6) 0)) ∧
      (b.inTest = true → b.draining = none → (∀ x ∈ t.arrivals, x.coll = .accept ∨ x.coll = .reject) →
        steps (s.startDrain t true a.pc)) ∧
      (b.inTest = true → b.draining ≠ none → s.drained t = false → steps s) ∧
      (b.inTest = true → b.draining ≠ none → s.drained t = true → (∀ x ∈ t.arrivals, x.coll ≠ .reject) → ∀ f, s.lateIn t = some f →
        steps (s.fail tid t.depth 3 f.cause.code)) ∧
      (b.inTest = true → b.draining ≠ none → s.drained t = true → (∃ x ∈ t.arrivals, x.coll = .reject) →
        steps (s.fail tid t.depth 1 0)) ∧
      (b.inTest = true → b.draining ≠ none → s.drained t = true → s.lateIn t = none → (∀ x ∈ t.arrivals, x.coll ≠ .reject) →
        t.depth ≠ 1 → steps (((s.takeTroopFlags tid).acceptOne t).leaveColl tid)) ∧
      (b.inTest = true → b.draining ≠ none → s.drained t = true → s.lateIn t = none → (∀ x ∈ t.arrivals, x.coll ≠ .reject) →
        t.depth = 1 → t.outr = none → steps ((s.takeTroopFlags tid).finishAccept [t] a.pc))) ∧
    (a.coll = .tjoin →
      let s' := s.updTroop tid fun t => { t with joining := some a.arg.toNat }
      let ms := s'.named t a.arg.toNat
      (∀ m ∈ ms, m.ended = false ∧ m.tandem = none ∧ (m.joining = none ∨ m.joining = some a.arg.toNat)) →
        ((∃ m ∈ ms, m.joining = none) → steps s') ∧ ((∀ m ∈ ms, m.joining ≠ none) → steps (s'.formTandem ms a.arg.toNat))) ∧
    (a.coll = .tleave → steps ((s.leaveTandem t).leaveColl tid))) ∧
  (∀ (s : State) tid (t : Troop), s.troop? tid = some t → t.failing = none →
    t.arrivals = [] ∨ s.collDone t = false ∨ s.haltedCore t.core = true → exec (.testDrainComplete tid) s = .next s) ∧
  (∀ (s : State) tid depth (t : Troop) b, s.troop? tid = some t → 0 < depth → t.blocks[depth - 1]? = some b →
    (b.limit ≠ 0 → b.limit ≤ b.count → exec (.cycleLimitExpiry tid depth) s = .next (s.fail tid depth 2 0)) ∧
    (b.limit = 0 ∨ b.count < b.limit → exec (.cycleLimitExpiry tid depth) s = .next s)) ∧
  (∀ (s : State) tid p q po qo, s.pair tid = some (p, q, po, qo) →
    (∀ kp kq x y, po.waiting = some (kp, x) → qo.waiting = some (kq, y) → po.decided = none → po.tie = none →
      p.unwinding = false → q.unwinding = false →
      (kp = kq → x = y → exec (.outriderCompare tid) s = .next (s.compared p q kp kq)) ∧
      (∀ l pad, kp ≠ kq ∨ x ≠ y → s.launchOf p = some l → s.pad? p.pad = some pad →
        exec (.outriderCompare tid) s = .next (if pad.st = .cutting then s else s.startTie l pad p q))) ∧
    (po.waiting = none ∨ qo.waiting = none ∨ p.unwinding = true ∨ q.unwinding = true → exec (.outriderCompare tid) s = .next s) ∧
    (p.unwinding = true ∨ q.unwinding = true → exec (.tieBreakDecide tid) s = .next s) ∧
    (∀ kp kq a b x y k e, po.waiting = some (kp, a) → qo.waiting = some (kq, b) → po.tie = some x → s.troop? x = some y →
      y.ended = false → y.outr.bind (·.waiting) = some (k, e) → p.unwinding = false → q.unwinding = false →
      (k = kp → e = a → exec (.tieBreakDecide tid) s = .next ((s.dropTie p).compared p q kp kq)) ∧
      (¬(k = kp ∧ e = a) → k = kq → e = b → exec (.tieBreakDecide tid) s = .next ((s.dropTie p).compared q p kq kp)) ∧
      (¬(k = kp ∧ e = a) → ¬(k = kq ∧ e = b) → exec (.tieBreakDecide tid) s = .next ((s.dropTie p).unresolved p q kp kq))) ∧
    ∀ kp kq a b x y, po.waiting = some (kp, a) → qo.waiting = some (kq, b) → po.tie = some x → s.troop? x = some y →
      p.unwinding = false → q.unwinding = false →
      (y.ended = true → exec (.tieBreakDecide tid) s = .next ((s.dropTie p).unresolved p q kp kq)) ∧
      (y.ended = false → y.outr.bind (·.waiting) = none → exec (.tieBreakDecide tid) s = .next s))

/-! ### Notices, resolutions, invalidations, registers -/

/-- R322, R361, R363 to R365, R368: the oldest kept notice is posted to the fault queue when it can take it; a resolution frees the entries of
its notice, which ask again or are refused, or, for a peer's notice, is sent to that peer; an invalidation drops translations and ends when what
was translated before is over; OWNCNT takes its snapshot whole or not at all; a write of a root drops what derives from it. A WAITV lane is read
again until its condition holds.
Model's choices: log entries 28, 88, 131. -/
def Obligations.FaultsAreAnswered : Prop :=
  (∀ (s s' : State) pad (p : Paddock) (n : Notice) ns bs, s.pad? pad = some p → s.keptNotices pad = n :: ns → p.fqBase ≠ 0 →
    p.fqFull = false →
    s.agentStore pad false true (p.fqBase.toNat + 32 * (p.fqWr.toNat % 2 ^ (p.fqLog + 6))) (n.words.flatMap (bytesOf 8)) = (s', .ok bs) →
    exec (.faultRecordPost pad) s = .next
      ({ s' with notices := updFirst (· == n) (fun (n : Notice) => { n with posted := true }) s'.notices }.updPad pad fun p =>
        { p with fqWr := p.fqWr + 1, intStat := p.intStat ||| 1#5 })) ∧
  (∀ (s : State) pad (p : Paddock), s.pad? pad = some p → s.keptNotices pad = [] ∨ p.fqBase = 0 ∨ p.fqFull = true →
    exec (.faultRecordPost pad) s = .next s) ∧
  (∀ (s : State) pad (src : BitVec 8) (fid : BitVec 24),
    let sent := fun (n : Notice) => n.isOpen && n.src == srcDev src && (n.die == srcDie src && n.fid == fid.toNat &&
      n.homePad == pad && n.home == 0)
    let hers := fun (e : RailEnt) => e.die == srcDie src && e.fid == fid.toNat
    let freed := fun (n : Notice) => { s with notices := s.notices.erase n, rail := s.rail.filter fun e => !hers e }
    let refused := fun (n : Notice) (c : Cause) =>
      ((s.rail.filter hers).foldl (fun (s : State) e => s.answer e.who e.va (.refused c)) (freed n)).grant
    let replayed := fun (n : Notice) => ((s.rail.filter hers).foldl (fun (s : State) e => s.present e) (freed n)).grant
    let passed := fun (n : Notice) (out : Option Cause) =>
      { s with notices := s.notices.erase n, answers := s.answers ++ [.resolution (srcDev src) (srcDie src) fid.toNat out] }
    let all := fun (a b c : State) => exec (.fresolveReplay pad src fid) s = .next a ∧
      exec (.fresolveRefusePageFault pad src fid) s = .next b ∧ exec (.fresolveRefusePermission pad src fid) s = .next c
    (fid ≠ 0 → ∀ n, s.notices.find? sent = some n →
      (srcDev src = 0 → all (replayed n) (refused n .pageFault) (refused n .permission)) ∧
      (srcDev src ≠ 0 → all (passed n none) (passed n (some .pageFault)) (passed n (some .permission)))) ∧
    (fid = 0 ∨ s.notices.find? sent = none → all s s s)) ∧
  (∀ (s : State) pad (p : Paddock) (cnt : BitVec 31), s.pad? pad = some p →
    (p.inval = none → exec (.invcntWrite pad cnt) s =
      .next ((s.startInval pad (p.invVa.toNat / 65536) cnt.toNat none).postKept pad)) ∧
    (p.inval ≠ none → exec (.invcntWrite pad cnt) s = .next s)) ∧
  (∀ (s : State) pad (p : Paddock) v, s.pad? pad = some p → p.inval = some v → v.op = none →
    (s.invalDone pad v = true → exec (.invalidationComplete pad) s = .next (s.endInval pad v)) ∧
    (s.invalDone pad v = false → exec (.invalidationComplete pad) s = .next s)) ∧
  (∀ (s : State) pad (p : Paddock) (cnt : BitVec 9), s.pad? pad = some p →
    (256 < cnt.toNat → exec (.owncntWrite pad cnt) s = .next s) ∧
    (cnt.toNat ≤ 256 → ∀ (s' : State) bs, s.agentLoad pad false true p.ownBase.toNat (16 * cnt.toNat) = (s', .ok bs) →
      (∀ os, parseOwners (chunks 16 cnt.toNat bs) = some os →
        exec (.owncntWrite pad cnt) s = .next (s'.updPad pad fun p => { p with ownCnt := cnt.toNat, owners := os })) ∧
      (parseOwners (chunks 16 cnt.toNat bs) = none → exec (.owncntWrite pad cnt) s = .next s'))) ∧
  (∀ (s : State) pad secure asRoot val,
    let kept := s.tlb.filter fun (e : TlbEnt) => !(e.pad == pad && e.secure == secure)
    let x : Dword := BitVec.ofNat 64 (bitsNat val 55 13 * 2 ^ 13)
    (secure = true → asRoot = false → exec (.ptrootWrite pad secure asRoot val) s = .next s) ∧
    (secure = true → asRoot = true → exec (.ptrootWrite pad secure asRoot val) s =
      .next { s.updPad pad (fun p => { p with sptRoot := x }) with tlb := kept }) ∧
    (secure = false → exec (.ptrootWrite pad secure asRoot val) s =
      .next { s.updPad pad (fun p => { p with ptRoot := x }) with tlb := kept })) ∧
  (∀ (s : State) pad val,
    exec (.faultQueueRegWrite pad 0x040 val) s = .next ((s.updPad pad fun p => { p with fqBase := keepBits val 55 12 }).postKept pad) ∧
    exec (.faultQueueRegWrite pad 0x048 val) s = .next ((s.updPad pad fun p => { p with fqLog := bitsNat val 3 0 }).postKept pad) ∧
    exec (.faultQueueRegWrite pad 0x054 val) s = .next ((s.updPad pad fun p => { p with fqRd := val.setWidth 32 }).postKept pad)) ∧
  (∀ (s : State) acc lane (a : Access) (z : Str) (t : Troop) (e : Elem), s.acc? acc = some a → a.kind = .waitv →
    s.str? a.sid = some z → s.troop? z.tid = some t → a.elems.find? (fun e => e.lane == lane && e.val.isNone) = some e → s.haltedCore t.core = false →
    (e.w = 0 → exec (.waitvReread acc lane) s = .next (if waitvEnds a.fn 0 e.data then s.waitvLeave a [lane] else s)) ∧
    (e.w ≠ 0 → ∀ l line pol part (s' : State) d,
      let i := a.lines.findIdx fun l => l.holds e
      a.lines[i]? = some l → l.st = .ready line pol part → s.loadMayGo a line [e] = true →
      s.readWaits a.sid (some e.lane) t.core line e.mask = false →
      s.neededLine a.sid t [(some e.lane, e.mask)] l.va line pol part a.fresh = (s', some d) →
      let x := lineVal (s'.assemble a.sid t (some e.lane) line e.mask d) (e.va % 64) e.w
      exec (.waitvReread acc lane) s =
        .next (if waitvEnds a.fn x e.data then s'.waitvLeave a [e.lane] else s'.setLine acc i .fresh)))

/-- R6, R288, R289, R302, R361, R373, R374, R378: a register write reaches the register of its offset and no other: the fields a
register has are kept, and the rest of what is written is lost; a write of SPTROOT below root and of any other offset is ignored. A read
gives what the register holds, and 0 at a write-only or any other offset. Doorbells in range are taken and others counted; a queue is
registered from its descriptor, or refused by QRES; it is unregistered when it is empty or its paddock is halted.
Model's choices: log entries 72, 73, 86, 116. -/
def Obligations.RegistersAndQueues : Prop :=
  (∀ (s : State) (p : Paddock) val, s.pad? p.n = some p → s.ready = true →
    let writes := fun (off : Nat) (u : State) => exec (.registerWrite (some p.n) off val) s = .next u
    let zoned := fun (k : Nat) (f : Zone → Zone) => s.updPad p.n fun p => { p with zones := Cells.set {} p.zones k (f (p.zone k)) }
    writes 0x000 (s.writeCmd p val) ∧
    writes 0x008 (s.updPad p.n fun p => { p with deadline := val.setWidth 32 }) ∧
    writes 0x00C (s.updPad p.n fun p => { p with cutBound := val.setWidth 32 }) ∧
    writes 0x010 (s.updPad p.n fun p => { p with clMask := val.setWidth 32 }) ∧
    writes 0x018 (s.updPad p.n fun p => { p with csb := keepBits val 63 6 }) ∧
    writes 0x020 (s.writeRoot p.n false false val) ∧
    writes 0x030 (s.updPad p.n fun p => { p with ownBase := keepBits val 55 6 }) ∧
    writes 0x038 (s.writeOwnCnt p.n (bitsNat val 8 0)) ∧
    writes 0x058 (s.writeResolve p.n val) ∧
    writes 0x060 (s.updPad p.n fun p => { p with invVa := keepBits val 55 16 }) ∧
    writes 0x068 (s.writeInvCnt p.n (bitsNat val 30 0)) ∧
    writes 0x070 (s.updPad p.n fun p => { p with qDesc := keepBits val 55 6 }) ∧
    (bitsNat val 31 28 = 1 → writes 0x078 (s.registerQueue p.n (bitsNat val 5 0))) ∧
    (bitsNat val 31 28 = 2 → writes 0x078 (s.unregisterQueue p.n (bitsNat val 5 0))) ∧
    (bitsNat val 31 28 ≠ 1 → bitsNat val 31 28 ≠ 2 → writes 0x078 s) ∧
    writes 0x080 (s.updPad p.n fun p => { p with intStat := p.intStat &&& ~~~val.setWidth 5 }) ∧
    writes 0x088 (s.updPad p.n fun p => { p with lzDrops := (val.setWidth 32).toNat }) ∧
    (∀ off, off = 0x004 ∨ off = 0x050 ∨ off = 0x07C → writes off s) ∧
    (∀ off, off = 0x040 ∨ off = 0x048 ∨ off = 0x054 → exec (.registerWrite (some p.n) off val) s = exec (.faultQueueRegWrite p.n off val) s) ∧
    (∀ k < 8, writes (0x100 + 16 * k) (zoned k fun z => { z with base := bitsNat val 55 16 }) ∧
      writes (0x108 + 16 * k) (zoned k fun z =>
        { z with enable := val.getLsbD 34, ordered := val.getLsbD 33, pages := bitsNat val 31 0 })) ∧
    (∀ q < 64, exec (.registerWrite (some p.n) (0x800 + 8 * q) val) s = exec (.doorbellWrite p.n q val) s) ∧
    writes 0x028 s ∧
    ∀ off, off ∉ [0x000, 0x008, 0x00C, 0x010, 0x018, 0x020, 0x030, 0x038, 0x040, 0x048, 0x054, 0x058, 0x060, 0x068, 0x070, 0x078, 0x080,
        0x088] → ¬(0x100 ≤ off ∧ off < 0x180 ∧ off % 8 = 0) → ¬(0x800 ≤ off ∧ off < 0xA00 ∧ off % 8 = 0) → writes off s) ∧
  (∀ (s : State) (p : Paddock) asRoot, s.pad? p.n = some p →
    let reads := fun (off : Nat) (x : Dword) => s.readVf p.n off asRoot = x
    reads 0x004 (BitVec.ofNat 64 (p.result * 256 + if p.busy then 1 else 0)) ∧ reads 0x008 (p.deadline.setWidth 64) ∧
    reads 0x00C (p.cutBound.setWidth 64) ∧ reads 0x010 (p.clMask.setWidth 64) ∧ reads 0x018 p.csb ∧ reads 0x020 p.ptRoot ∧
    reads 0x028 (if asRoot then p.sptRoot else 0) ∧ reads 0x030 p.ownBase ∧ reads 0x038 (BitVec.ofNat 64 p.ownCnt) ∧
    reads 0x040 p.fqBase ∧ reads 0x048 (BitVec.ofNat 64 p.fqLog) ∧ reads 0x050 (p.fqWr.setWidth 64) ∧
    reads 0x054 (p.fqRd.setWidth 64) ∧ reads 0x060 p.invVa ∧ reads 0x068 (if p.inval.isSome then 0x80000000 else 0) ∧
    reads 0x070 p.qDesc ∧ reads 0x07C (BitVec.ofNat 64 p.qRes) ∧ reads 0x080 (p.intStat.setWidth 64) ∧
    reads 0x088 (BitVec.ofNat 64 p.lzDrops) ∧
    (∀ k < 8, reads (0x100 + 16 * k) (BitVec.ofNat 64 ((p.zone k).base * 65536)) ∧ reads (0x108 + 16 * k) (BitVec.ofNat 64
      ((if (p.zone k).enable then 2 ^ 34 else 0) + (if (p.zone k).ordered then 2 ^ 33 else 0) + (p.zone k).pages))) ∧
    ∀ off, off ∉ [0x004, 0x008, 0x00C, 0x010, 0x018, 0x020, 0x028, 0x030, 0x038, 0x040, 0x048, 0x050, 0x054, 0x060, 0x068, 0x070, 0x07C,
        0x080, 0x088] → ¬(0x100 ≤ off ∧ off < 0x180 ∧ off % 8 = 0) → reads off 0) ∧
  (∀ (s : State) n off asRoot, s.pad? n = none → s.readVf n off asRoot = (emptyPage n).readReg off asRoot) ∧
  (∀ (s : State) off, s.readPf0 off = if off = 0 then s.mailbox.cmd
    else if off = 0x00C then BitVec.ofNat 64 ((if s.mailbox.busy then 2 ^ 31 else 0) + s.mailbox.result) else 0) ∧
  (∀ (s : State) n off val, s.pad? n = none ∨ s.ready = false → exec (.registerWrite (some n) off val) s = .next s) ∧
  (∀ (s : State) val,
    exec (.registerWrite none 0x000 val) s = .next { s with mailbox := { s.mailbox with cmd := keepBits val 55 6 } } ∧
    (val = 1 → s.mailbox.busy = false → exec (.registerWrite none 0x008 val) s = .next s.startMailbox) ∧
    (val ≠ 1 ∨ s.mailbox.busy = true → exec (.registerWrite none 0x008 val) s = .next s)) ∧
  (∀ (s : State) pad q val,
    (∀ x, s.queue? pad q = some x → x.rd ≤ val.toNat → val.toNat ≤ x.rd + 2 ^ x.logn → exec (.doorbellWrite pad q val) s =
      .next { s with queues := updFirst (fun y => y.pad == pad && y.qid == q) (fun y => { y with door := val.toNat }) s.queues }) ∧
    ((∀ x, s.queue? pad q = some x → val.toNat < x.rd ∨ x.rd + 2 ^ x.logn < val.toNat) → exec (.doorbellWrite pad q val) s =
      .next (s.countErr pad fun e => { e with doorbellErrs := inc32 e.doorbellErrs }))) ∧
  (∀ (s : State) pad (p : Paddock) (qid : BitVec 6), s.pad? pad = some p →
    (s.queue? pad qid.toNat ≠ none → exec (.queueRegister pad qid) s = .next (s.updPad pad fun p => { p with qRes := 2 })) ∧
    (s.queue? pad qid.toNat = none → ∀ (s' : State) bs, s.agentLoad pad false true p.qDesc.toNat 64 = (s', .ok bs) →
      (parseQueue pad qid.toNat bs = none → exec (.queueRegister pad qid) s = .next (s'.updPad pad fun p => { p with qRes := 1 })) ∧
      (∀ q, parseQueue pad qid.toNat bs = some q → q.kind = 2 →
        exec (.queueRegister pad qid) s = .next (s'.updPad pad fun p => { p with qRes := 4 })) ∧
      ∀ q p', parseQueue pad qid.toNat bs = some q → q.kind ≠ 2 → s'.pad? pad = some p' →
        let s1 := { s' with queues := s'.queues ++ [q] }
        exec (.queueRegister pad qid) s =
          .next ((if p'.st = .saved ∨ p'.st = .reset then s1.setSt pad .running else s1).updPad pad fun p => { p with qRes := 0 })) ∧
    (s.queue? pad qid.toNat = none → exec (.queueUnregister pad qid) s = .next (s.updPad pad fun p => { p with qRes := 3 })) ∧
    (s.queue? pad qid.toNat ≠ none → s.queued pad qid.toNat ≠ [] → p.st ≠ .saved → p.st ≠ .reset →
      exec (.queueUnregister pad qid) s = .next (s.updPad pad fun p => { p with qRes := 5 })) ∧
    (s.queue? pad qid.toNat ≠ none → s.queued pad qid.toNat = [] ∨ p.st = .saved ∨ p.st = .reset →
      exec (.queueUnregister pad qid) s = .next ({ s with queues := s.queues.filter fun (q : Queue) =>
        !(q.pad == pad && q.qid == qid.toNat) }.updPad pad fun p => { p with qRes := 0 })))

/-! ### Packets and troops -/

/-- R289, R292 to R297: the stages of a packet: it starts on the next index of its queue, is read, waits at its barrier bit, is admitted
or rejected, acquires, writes its index; a barrier packet waits for its signals; the troops of a packet are dispatched; a
packet is released once its work is done and completes with its signal.
Model's choices: log entries 61, 63, 64, 65, 78, 79, 135. -/
def Obligations.PacketsProceed : Prop :=
  (∀ (s : State) pad q (p : Paddock), s.pad? pad = some p → p.st = .running ∨ p.st = .draining →
    (∀ l ∈ s.queued pad q, 4 < l.stage) → ∀ x, s.queue? pad q = some x →
    let l : Launch := { id := s.nextId, pad := p.n, qid := x.qid, kind := x.kind, words := [], ext := [], stage := 1, reason := 0
                        cause := none, cancelled := false, started := 0, live := 0, job := none, retagged := false
                        cores := [], rounds := [] }
    (x.rd < x.door → (∀ y ∈ s.queued p.n x.qid, y.dispatched = true) → exec (.packetAdmit pad q) s =
      .next { s with launches := s.launches ++ [l], nextId := s.nextId + 1 }) ∧
    (x.door ≤ x.rd ∨ (∃ y ∈ s.queued p.n x.qid, y.dispatched = false) → exec (.packetAdmit pad q) s = .next s)) ∧
  (∀ (s : State) pad q (p : Paddock) (l : Launch), s.pad? pad = some p → p.st = .running ∨ p.st = .draining →
    (s.queued pad q).find? (fun l => decide (l.stage ≤ 4)) = some l →
    let goes := fun (u : State) => exec (.packetAdmit pad q) s = .next u
    (l.stage = 1 → l.words = [] → ∀ x (s' : State) bs, s.queue? pad q = some x →
      s.agentGet l (x.base + 64 * (x.rd % 2 ^ x.logn)) 64 = (s', some (.ok bs)) →
      goes (s'.updLaunch l.id fun l => { l with words := wordsOfBytes 16 bs })) ∧
    (l.stage = 1 → l.words ≠ [] → l.barrier = true → s.before l ≠ [] → goes s) ∧
    (l.stage = 1 → l.words ≠ [] → l.barrier = false ∨ s.before l = [] → goes (s.updLaunch l.id fun l => { l with stage := 2 })) ∧
    (l.stage = 2 →
      let r := s.admitReason p l (match s.queue? pad q with | some x => x.prioMax | none => 3)
      (r ≠ 0 → goes (s.updLaunch l.id fun l => { l with stage := 4, reason := r })) ∧
      (r = 0 → l.extBytes = none → goes (s.updLaunch l.id fun l => { l with stage := 4, reason := 0x0E })) ∧
      (r = 0 → l.extBytes = some 0 → l.extOk = true → goes (s.updLaunch l.id fun x => { x with ext := l.ext, stage := 3 })) ∧
      (r = 0 → s.queue? pad q ≠ none → ∀ n (s' : State) bs, l.extBytes = some n → n ≠ 0 →
        s.agentGet l (addr56 l.extVa).toNat n = (s', some (.ok bs)) →
        goes (s'.updLaunch l.id fun x => if { l with ext := bs : Launch }.extOk then { x with ext := bs, stage := 3 }
          else { x with stage := 4, reason := 0x0E }))) ∧
    (l.stage = 3 → goes ((s.packetAcquire p l).updLaunch l.id fun l => { l with stage := 4 })) ∧
    (l.stage = 4 → ∀ x (s' : State) bs, s.queue? pad q = some x → s.agentPut l x.rdPtr (x.rd + 1) = (s', some (.ok bs)) →
      let qs := updFirst (fun (y : Queue) => y.pad == x.pad && y.qid == x.qid) (fun y => { y with rd := y.rd + 1 }) s'.queues
      goes ({ s' with queues := qs }.updLaunch l.id fun y => { y with stage := if y.reason = 0 then 5 else 7 }))) ∧
  (∀ (s : State) launch (l : Launch) (st : Nat → State) (bs : Nat → List Byte), s.launch? launch = some l → l.type = 2 → l.stage = 5 →
    l.started = 0 → s.processes l [.running, .draining] = true → st 0 = s →
    let n := l.bits 1 2 0
    let reads := fun (i : Nat) => (st i).agentGet l ((addr56 (l.dword (2 + 2 * i))).toNat / 8 * 8) 8 = (st (i + 1), some (.ok (bs i)))
    let isSet := fun (i : Nat) => (natOfBytes (bs i)).testBit 63 = true
    ((∀ i < n, reads i ∧ isSet i) → exec (.barrierAndSatisfied launch) s =
      .next ((st n).updLaunch launch fun l => { l with started := 1 })) ∧
    ∀ k < n, (∀ i ≤ k, reads i) → (∀ i < k, isSet i) → ¬ isSet k → exec (.barrierAndSatisfied launch) s = .next (st (k + 1))) ∧
  (∀ (s : State) launch places (l : Launch) (p : Paddock) as bs (s1 s2 : State), s.launch? launch = some l → s.pad? l.pad = some p →
    l.stage = 5 → l.hasTroops = true → p.st = .running →
    let s0 := if l.prio = 3 then s.abortScans (s.padCores p) else s
    let prim := places.take l.batch
    let outr := places.drop l.batch
    (s0.served p).map (·.id) = some l.id → prim.length = l.batch → outr.length = (if l.outrider then l.batch else 0) →
    (∀ x ∈ places, x.1 ∈ s.padCores p) → placesOk l.unit (prim.map (·.1)) (outr.map (·.1)) = true →
    (l.type = 4 → l.started = 0 → l.job ≠ none ∧ prim.head?.map (·.1) = l.cores.head?) →
    s0.startAll p l 0 l.started prim = some (as, s1) → s1.startAll p l 1 l.started outr = some (bs, s2) →
    let mate := fun (s : State) (x : Nat × Nat) =>
      (s.updTroop x.1 fun t => { t with outr := t.outr.map fun o => { o with mate := x.2 } }).updTroop x.2 fun t =>
        { t with outr := t.outr.map fun o => { o with mate := x.1 } }
    let s3 := ((as.zip bs).foldl mate s2).updLaunch l.id fun l =>
      { l with started := l.started + prim.length, live := l.live + places.length, cores := (l.cores ++ places.map (·.1)).dedup }
    exec (.troopDispatch launch places) s =
      .next (if l.started + prim.length = l.total then s3.updPad p.n fun p => { p with turn := l.qid } else s3)) ∧
  (∀ (s : State) launch (l : Launch), s.launch? launch = some l →
    let works := fun (sts : List PadSt) => s.processes l sts = true
    (l.stage = 5 → works [.running] → s.stage5Done l = true → (∀ m ∈ s.before l, 6 ≤ m.stage) → exec (.packetRelease launch) s =
      .next ((s.updLaunch launch fun l => { l with stage := 6 }).releaseLines { l with stage := 6 })) ∧
    (l.stage = 5 → ¬ works [.running] ∨ s.stage5Done l = false ∨ (∃ m ∈ s.before l, m.stage < 6) →
      exec (.packetRelease launch) s = .next s) ∧
    (l.stage = 6 → ¬ works [.running, .draining] → exec (.packetRelease launch) s = .next s) ∧
    (l.stage = 6 → works [.running, .draining] → l.retagged = false → exec (.packetRelease launch) s = .next (s.releaseLines l)) ∧
    (l.stage = 6 → l.retagged = true → (∃ r ∈ l.rounds, s.roundsDone r.1 r.2 (l.relLvl.max .die) = false) →
      exec (.packetRelease launch) s = .next s) ∧
    (l.stage = 6 → works [.running, .draining] → l.retagged = true → (∀ r ∈ l.rounds, s.roundsDone r.1 r.2 (l.relLvl.max .die) = true) →
      ∀ (s' : State), s.flushed l = (s', true) →
      exec (.packetRelease launch) s = .next (s'.updLaunch launch fun l => { l with stage := 7 })) ∧
    let ends := l.stage = 7 ∧ works [.running, .draining, .reset] ∧ ∀ m ∈ s.before l, 7 ≤ m.stage
    (ends → l.dword 10 = 0 → exec (.completionSignalWrite launch) s = .next (s.endLaunch l)) ∧
    (ends → l.dword 10 ≠ 0 → ∀ (s' : State) r,
      s.agentPut l l.signal (s.signalValue l) = (s', some r) → exec (.completionSignalWrite launch) s =
        .next (match r with | .refused _ => (s'.agentDrop l.pad).endLaunch l | _ => s'.endLaunch l)) ∧
    (¬ ends → exec (.completionSignalWrite launch) s = .next s))

/-- R38, R39, R144, R213, R219, R367, R415, R431, R436: a string whose lanes have all exited and that has nothing pending commits its
buffer to the troop's, what that has no room for to the final commit level, and retires, but not inside a recovery block; a troop whose
strings have all retired, with no recovery spill write on its way and no hitched request, begins its final commit. On a halted core neither does.
Model's choices: log entries 2, 127, 128. -/
def Obligations.StringsAndTroopsRetire : Prop :=
  (∀ (s : State) sid (z : Str) (t : Troop), s.str? sid = some z → s.troop? z.tid = some t →
    let ready := s.haltedCore t.core = false ∧ z.retired = false ∧ t.depth = 0 ∧ (∀ l ∈ z.lanes, l.exited = true) ∧ s.resultPending sid = false ∧
      s.storesPending sid s.nextId = false
    (ready → (∀ c ∈ s.commitBytes z.sid t .trp, s.inOpenRange t c.va 64 = none) →
      let s' := (s.retireCommit z t).1.carryLeft z t (s.retireCommit z t).2
      exec (.stringRetire sid) s = .next ((((s'.updStr sid fun z => { z with retired := true, held := [] }).failRetiredJoint t
        (z.idx / 4)).checkRetired t).advance t.tid)) ∧
    (ready → (∃ c ∈ s.commitBytes z.sid t .trp, s.inOpenRange t c.va 64 ≠ none) →
      exec (.stringRetire sid) s = .next (s.secondError z)) ∧
    (¬ ready → exec (.stringRetire sid) s = .next s)) ∧
  (∀ (s : State) tid (t : Troop), s.troop? tid = some t →
    let ready := s.haltedCore t.core = false ∧ t.st = .running ∧ (∀ z ∈ s.strsOf tid, z.retired = true) ∧ t.rcPending = [] ∧
      (∀ e ∈ s.rail, e.tid ≠ tid) ∧ (∀ h ∈ s.heldReqs, h.ent.tid ≠ tid) ∧ ∀ e ∈ s.engs, ∀ z ∈ s.strsOf tid, z.sid ≠ e.sid
    (ready → t.tandem = none → t.outr = none →
      let op : SysOp :=
        { id := s.nextId, sid := ((s.strsOf tid).map (·.sid)).headD 0, tid := tid, kind := .lift, lvl := .trp, pc := 0, next := 0
          mask := 0, depth := 0, trap := false, phase := .waiting, arg := 0, arg2 := 1, cores := [], fault := none }
      exec (.troopRetire tid) s = .next ({ s with ops := s.ops ++ [op], nextId := s.nextId + 1 }.updTroop tid fun t =>
        { t with st := .lifting true })) ∧
    (ready → t.tandem = none → ∀ o, t.outr = some o → o.decided = none →
      exec (.troopRetire tid) s = .next (s.parkEscape tid 0 (s.escLines t true))) ∧
    (¬ ready → exec (.troopRetire tid) s = .next s))

/-! ### Pre-emption -/

/-- R302 to R307: DRAIN, CUT, RESUME and RESET with their results, the deadlines, the rein marker, and the end of a cut; what is saved of
a paddock leaves the machine. A reset clears what the paddock has, cancels its launches and leaves other paddocks alone; a resumption puts a
context back on its new places and presents its hitched requests again. The contents of a reset are stated where the caches hold no
authority, no request is held and no status block is named.
That a paddock whose CSB is 0 keeps its counts inside the device is the model's choice and no rule's.
Model's choices: log entries 33, 40, 73, 74, 103, 117, 133, 135. -/
def Obligations.Preemption : Prop :=
  let refuses := fun (s u : State) (n r : Nat) => u = s.updPad n fun p => { p with result := r }
  let halted := fun (p : Paddock) => p.st = .saved ∨ p.st = .reset
  let cuts := fun (s : State) (n slot : Nat) =>
    (s.updPad n fun p => { p with busy := true, slot := slot, marked := [] }).setSt n .cutting
  (∀ (s : State) pad (slot : Byte) (p : Paddock), s.pad? pad = some p → ∃ u, exec (.drain pad slot) s = .next u ∧
    (p.busy = true → refuses s u pad 1) ∧
    (p.busy = false → halted p → refuses s u pad 4) ∧
    (p.busy = false → ¬ halted p → p.slots ≤ slot.toNat → refuses s u pad 2) ∧
    (p.busy = false → ¬ halted p → slot.toNat < p.slots →
      u = ((s.updPad pad fun p => { p with busy := true, slot := slot.toNat }).setSt pad .draining).haltDrained)) ∧
  (∀ (s : State) pad (slot : Byte) (p : Paddock), s.pad? pad = some p → ∃ u, exec (.cut pad slot) s = .next u ∧
    (p.busy = true → p.st ≠ .draining → refuses s u pad 1) ∧
    (p.busy = false → halted p → refuses s u pad 4) ∧
    ((p.busy = false ∧ ¬ halted p) ∨ p.st = .draining → p.slots ≤ slot.toNat → refuses s u pad 2) ∧
    ((p.busy = false ∧ ¬ halted p) ∨ p.st = .draining → slot.toNat < p.slots → u = cuts s pad slot.toNat)) ∧
  (∀ (s : State) pad (slot : Byte) (p : Paddock), s.pad? pad = some p → ∃ u, exec (.resume pad slot) s = .next u ∧
    let granted := (List.range 32).filter fun c => p.clMask.getLsbD c
    let given := ∀ c ∈ granted, c ∈ p.clusters
    let context := s.contexts.find? fun x => x.pad == pad && x.slot == slot.toNat
    (p.busy = true → refuses s u pad 1) ∧
    (p.busy = false → p.st = .running → refuses s u pad 4) ∧
    (p.busy = false → p.st ≠ .running → p.slots ≤ slot.toNat → refuses s u pad 2) ∧
    (p.busy = false → p.st ≠ .running → slot.toNat < p.slots → ¬ given → refuses s u pad 6) ∧
    (p.busy = false → p.st ≠ .running → slot.toNat < p.slots → given → context = none → refuses s u pad 5) ∧
    (p.busy = false → p.st ≠ .running → slot.toNat < p.slots → given → ∀ x, context = some x →
      (s.mapCores x granted = none → refuses s u pad 3) ∧
      ∀ cm km, s.mapCores x granted = some (cm, km) → u = ((((s.abortScans (km.map (·.2))).restore p x (mapped cm)
        (mapped (completeMap km (s.jobCores pad))) (s.jobCores pad)).setSt pad .running).endCmd pad 0))) ∧
  (∀ (s : State) pad (p : Paddock), s.pad? pad = some p →
    exec (.reset pad) s = .next ((s.resetPad p).endCmd pad 0) ∧ exec (.vfFlr pad) s = .next (s.resetPad p) ∧
    (p.st = .cutting → exec (.cutboundExpiry pad) s = .next (s.resetPad p)) ∧
    (p.st ≠ .cutting → exec (.cutboundExpiry pad) s = .next s) ∧
    (p.st = .draining → exec (.drainDeadlineExpiry pad) s = .next (cuts s pad p.slot)) ∧
    (p.st ≠ .draining → exec (.drainDeadlineExpiry pad) s = .next s) ∧
    (p.st ≠ .cutting ∨ s.cutReady p = false → ∀ us, exec (.cutComplete pad us) s = .next s) ∧
    (p.st = .cutting → s.cutReady p = true → p.csb = 0 → ∀ us, exec (.cutComplete pad us) s =
      .next ((s.updPad pad fun p => { p with csbData := { p.csbData with cuts := p.csbData.cuts + 1, lastUs := us } }).saveContext
        p)) ∧
    (p.st = .cutting → s.cutReady p = true → p.csb ≠ 0 → ∀ us (s' : State),
      (s.updPad pad fun p => { p with csbData := { p.csbData with cuts := p.csbData.cuts + 1, lastUs := us } }).putBlock p 0x0C
        (bytesOf 4 us) = (s', true) → exec (.cutComplete pad us) s = .next (s'.saveContext p))) ∧
  (∀ (s : State) core (p : Paddock), s.padOf core = some p →
    (p.st = .cutting → core ∉ p.marked → exec (.reinMarkerArrival core) s =
      .next ((s.updPad p.n fun p => { p with marked := core :: p.marked }).settleQuarters core)) ∧
    (p.st ≠ .cutting ∨ core ∈ p.marked → exec (.reinMarkerArrival core) s = .next s)) ∧
  (∀ (s : State) (p : Paddock) slot, let (x, u) := s.takePad p slot
    (∀ t ∈ u.troops, t.pad ≠ p.n) ∧ (∀ t, t ∈ x.troops ↔ t ∈ s.troops ∧ t.pad = p.n) ∧
    (∀ z ∈ x.strs, z ∉ u.strs) ∧ (∀ z ∈ s.strs, z ∈ x.strs ∨ z ∈ u.strs) ∧
    (∀ l ∈ x.lines, l ∉ u.lines) ∧ (∀ l ∈ s.lines, l ∈ x.lines ∨ l ∈ u.lines) ∧ u.mem = s.mem ∧ u.pads = s.pads) ∧
  (∀ (s : State) (p : Paddock), s.pad? p.n = some p → NoAuthority s → s.heldReqs = [] → (∀ x ∈ s.inbound, x.pad ≠ p.n) → p.csb = 0 →
    (s.strs.map (·.sid)).Nodup → Resets s (s.resetPad p) p) ∧
  ∀ (s : State) (p : Paddock) x g f cores, NoAuthority s → (∀ y ∈ s.partials ++ x.partials, y.slot = true) → ∃ v, Restores s v x g f ∧
    s.restore p x g f cores = x.railed.foldl (fun (s : State) e => s.present
      { e with core := f e.core, die := dieOf (f e.core), who := e.who.move f, fid := 0 }) v

/-! ### The device and its links -/

/-- R358, R379 to R381: inbound PCIe accesses through a landing zone, and the requests of a peer. A write into an ordered zone is
performed as it is received, after what its requester has written before, the lines of another in their own time; a read passes no
write. What is outside the zone, absent or refused is dropped and counted, and a read of it is answered Unsupported Request. A peer
reads and writes the paddock's regions, and its atomics combine there, at the home, to which the authority of their line has returned; a
request outside them is refused.
Model's choices: log entries 90, 91, 92, 149. -/
def Obligations.HostAndPeers : Prop :=
  (∀ (s : State) pad zone off req poisoned data (p : Paddock), s.pad? pad = some p →
    (p.zoneVa zone off data.length = none ∨ poisoned = true →
      exec (.inboundPcieWrite pad zone off req poisoned data) s = .next (s.dropInbound pad)) ∧
    (∀ va (s' : State), p.zoneVa zone off data.length = some va → poisoned = false →
      (s.inboundLines pad req (linePieces va data) = (s', none) →
        exec (.inboundPcieWrite pad zone off req poisoned data) s = .next (s'.dropInbound pad)) ∧
      ∀ xs, s.inboundLines pad req (linePieces va data) = (s', some xs) →
        exec (.inboundPcieWrite pad zone off req poisoned data) s =
          .next (if (p.zone zone).ordered then xs.foldl (fun (s : State) x => s.landInbound x) (s'.landEarlier pad req)
            else { s' with inbound := s'.inbound ++ xs }))) ∧
  (∀ (s : State) pad zone off len (p : Paddock), s.pad? pad = some p →
    (p.zoneVa zone off len = none → exec (.inboundPcieRead pad zone off len) s = .next ((s.dropInbound pad).reply .unsupported)) ∧
    (∀ va (s' : State) r, p.zoneVa zone off len = some va → (s.landAll pad).agentLoad pad false false va len = (s', r) →
      exec (.inboundPcieRead pad zone off len) s = .next (match r with
        | .ok bs => s'.reply (.bytes bs)
        | _ => (s'.dropInbound pad).reply .unsupported))) ∧
  (∀ (s : State) pad zone off len, s.pad? pad = none → exec (.inboundPcieRead pad zone off len) s = .next (s.reply .unsupported)) ∧
  (∀ (s : State) peer pad pa op data (p : Paddock), s.pad? pad = some p → 1 ≤ peer → peer ≤ 31 → peer ∉ s.linkDown →
    let n := peerSize data op
    let answers := fun (u : State) => exec (.peerRequest peer pad pa op data) s = .next u
    (∀ c, peerRefusal p pa.toNat n = some c → answers (s.reply (.refused c))) ∧
    (peerRefusal p pa.toNat n = none → op = .write → answers ((s.writePhys pad pa.toNat data).reply .done)) ∧
    (peerRefusal p pa.toNat n = none → op = .read → ∀ (s' : State) r, s.readPhys pad pa.toNat n = (s', r) →
      answers (s'.reply (match r with | some bs => .bytes bs | none => .refused .uncorrectableMemory))) ∧
    (peerRefusal p pa.toNat n = none → ∀ f, peerCombine data op = some (n, f) →
      let own := (linePieces pa.toNat (List.replicate n 0)).foldl (fun (s : State) x => s.returnAuth (x.1 / 64)) s
      ∀ (s' : State) r, own.readPhys pad pa.toNat n = (s', r) →
        (r = none → answers (s'.reply (.refused .uncorrectableMemory))) ∧
        ∀ bs, r = some bs →
          (f (natOfBytes bs) = none → answers (s'.reply (.bytes bs))) ∧
          ∀ x, f (natOfBytes bs) = some x → answers ((s'.writePhys pad pa.toNat (bytesOf n x)).reply (.bytes bs)))) ∧
  (∀ (s : State) peer, 1 ≤ peer → peer ≤ 31 → peer ∉ s.linkDown →
    exec (.peerLinkLoss peer) s = .next { s with linkDown := peer :: s.linkDown }) ∧
  (∀ (s : State) peer, peer ∈ s.linkDown → ∀ pa, peerOf pa = some peer → s.peerDown pa = true)

/-- R371, R374, R376, R382 to R385, R440, R441, R444, R445: the starts, throttling and thermal trips, the patrol scrubber, the scan test,
and the mailbox commands with their results.
That a cold start leaves DRAM reading 0, and host and peer memory as they were, is the model's choice and no rule's.
Model's choices: log entries 4, 67, 76, 85, 93, 94, 95, 96, 97, 99, 134, 150, 151. -/
def Obligations.DeviceManagement : Prop :=
  let cleared := fun (s : State) => s.mem.filter fun (c : Host.Cell) => Decidable.decide (2 ^ 38 ≤ c.1)
  let runs := fun (s : State) (code : Nat) => s.mailbox.busy = true ∧ bitsNat (s.mailbox.block.headD 0) 7 0 = code
  (∀ (s : State) bad, exec (.coldStart true bad) s = .next { State.reset with
    mem := cleared s, removed := s.removed ++ bad.dedup.filter fun c => Decidable.decide (c < 256) && !s.removed.contains c
    repairs := s.unrepaired, excluded := s.excluded ++ s.unrepaired.filter fun r => !s.excluded.contains r
    repairOverflow := s.repairOverflow, answers := s.answers, nextId := s.nextId, script := s.script }) ∧
  (∀ (s : State) bad, ∃ u, exec (.coldStart false bad) s = .next u ∧ u.ready = false ∧ u.mailbox.result = 0xFF ∧ u.pads = [] ∧
    u.troops = [] ∧ u.mem = cleared s) ∧
  (∀ (s : State) n, exec (.throttle n) s = .next { s with mhz := max 1200 (s.mhz - 100 * n) }) ∧
  (∀ (s : State), exec .thermalTrip s = .next (s.pads.foldl (fun s p => (s.resetPad p).countErr p.n fun e =>
    { e with thermalTrips := min 0xFFFF (e.thermalTrips + 1) }) s)) ∧
  (∀ (s : State), (s.firmwareFail = false → exec .pf0Flr s = .next s.warmStart) ∧
    (s.firmwareFail = true → exec .pf0Flr s = .next s.escalate)) ∧
  (∀ (s : State), .next s.escalate = exec (.coldStart (Config.coldWorks s.nextId) ((List.range 256).filter (Config.bistFails s.nextId)))
    { s with nextId := s.nextId + 1 }) ∧
  (∀ (s : State), runs s 5 → onlyBits s.mailbox.block [0xFF#64] = true →
    exec (.warmStart true) s = .next (s.warmStart.endMailbox 0) ∧
    exec (.warmStart false) s = .next (s.escalate.endMailbox s.escalate.mailbox.result)) ∧
  (∀ (s : State), s.warmStart.pads = [] ∧ s.warmStart.troops = [] ∧ s.warmStart.strs = [] ∧ s.warmStart.lines = [] ∧
    s.warmStart.l1 = [] ∧ s.warmStart.linkDown = [] ∧ s.warmStart.warm = true) ∧
  (∀ (s : State) line, onDevice line = true → line % 2 ^ 30 < 60 * 2 ^ 24 →
    let counted := fun (u : State) (i : Nat) =>
      { u with patrol := Cells.set 0 u.patrol (2 * homeDie line + i) (Cells.get 0 u.patrol (2 * homeDie line + i) + 1) }
    (line ∈ s.poison → exec (.patrolScrub line) s = .next (counted s 1)) ∧
    (line ∉ s.poison → Cells.get 0 s.upsets line = 0 → exec (.patrolScrub line) s = .next s) ∧
    (line ∉ s.poison → Cells.get 0 s.upsets line = 1 → exec (.patrolScrub line) s =
      .next (counted ({ s with upsets := Cells.erase line s.upsets }.noteCorrected line) 0)) ∧
    (line ∉ s.poison → 2 ≤ Cells.get 0 s.upsets line → exec (.patrolScrub line) s =
      .next (counted ({ s with upsets := Cells.erase line s.upsets, poison := line :: s.poison }.listRow line) 1))) ∧
  (∀ (s : State) core,
    (core < 256 → core ∉ s.removed → core ∉ s.scanning → s.idleCore core = true →
      exec (.scanTestStart core) s = .next { s with scanning := core :: s.scanning }) ∧
    (256 ≤ core ∨ core ∈ s.removed ∨ core ∈ s.scanning ∨ s.idleCore core = false → exec (.scanTestStart core) s = .next s) ∧
    (core ∈ s.scanning → (∀ c ∈ s.l1, ¬(c.auth = true ∧ c.place = core)) → (∀ x ∈ s.partials, ¬(x.core = core ∧ x.slot = false)) →
      let u := { s with l1 := s.l1.filter fun (c : CacheLine) => c.place != core, scanning := s.scanning.filter (· != core)
                        mangers := s.mangers.filter fun (m : Manger) => m.core != core }
      exec (.scanTestComplete core true) s = .next u ∧
      ∀ p, s.padOf core = some p → exec (.scanTestComplete core false) s =
        .next ({ u with removed := s.removed ++ [core] }.countErr p.n fun e =>
          { e with coresRemoved := min 0xFFFF (e.coresRemoved + 1) })) ∧
    (core ∉ s.scanning → ∀ b, exec (.scanTestComplete core b) s = .next s)) ∧
  (∀ (s : State), runs s 1 →
    (parseCreate s.mailbox.block = none → exec .paddockCreate s = .next (s.endMailbox 1)) ∧
    ∀ p, parseCreate s.mailbox.block = some p →
      (s.createResult p ≠ 0 → exec .paddockCreate s = .next (s.endMailbox (s.createResult p))) ∧
      (s.createResult p = 0 → exec .paddockCreate s = .next ({ s with pads := s.pads ++ [{ p with outRows := s.excluded }] }.endMailbox 0))) ∧
  (∀ (s : State), runs s 2 → onlyBits s.mailbox.block [0x1FFF#64] = true →
    let n := bitsNat (s.mailbox.block.headD 0) 12 8
    (s.pad? n = none → exec .paddockDestroy s = .next (s.endMailbox 2)) ∧
    ∀ p, s.pad? n = some p →
      (p.st = .saved ∨ p.st = .reset ∨ s.idlePad p.n = true →
        exec .paddockDestroy s = .next (((s.removePad p).zeroRegions p.regions).endMailbox 0)) ∧
      (p.st ≠ .saved → p.st ≠ .reset → s.idlePad p.n = false → exec .paddockDestroy s = .next (s.endMailbox 6))) ∧
  (∀ (s : State) rs, ∀ a, inRegions rs a = true → Cells.get 0 (s.zeroRegions rs).mem a = 0) ∧
  (∀ (s : State), runs s 3 → onlyBits s.mailbox.block [0x3F1FFF#64, 0x00FFFFFFFFFFFFC0#64] = true →
    ∀ p, s.pad? (bitsNat (s.mailbox.block.headD 0) 12 8) = some p →
      (p.secure = false → exec .queueSecure s = .next (s.endMailbox 7)) ∧
      (p.secure = true → ∀ (s' : State) r,
        s.register p.n (bitsNat (s.mailbox.block.headD 0) 21 16) (s.mailbox.block.getD 1 0).toNat true = (s', r) →
        exec .queueSecure s = .next (s'.endMailbox (if r = 0 then 0 else 1)))) ∧
  (∀ (s : State), runs s 4 →
    let all := BitVec.allOnes 64
    onlyBits s.mailbox.block [0xFF#64, all, all, all, all, 0x00FFFFFFFFFFFFC0#64] = true →
    let nonce := ((s.mailbox.block.drop 1).take 4).flatMap fun x => bytesOf 8 x.toNat
    exec .attest s = .next ((s.writePhys 0 (hostPa (s.mailbox.block.getD 5 0).toNat) (s.report nonce)).endMailbox 0)) ∧
  (∀ (s : State), runs s 6 → onlyBits s.mailbox.block [0xFF#64, 0x00FFFFFFFFFFFFC0#64] = true →
    (s.hostFail = false →
      exec .readInfo s = .next ((s.writePhys 0 (hostPa (s.mailbox.block.getD 1 0).toNat) infoBuffer).endMailbox 0)) ∧
    (s.hostFail = true → exec .readInfo s = .next (s.endMailbox 1))) ∧
  ∀ (s : State), s.mailbox.busy = false → ∀ i, i ∈ [Instr.paddockCreate, .paddockDestroy, .queueSecure, .attest, .readInfo,
    .warmStart true, .warmStart false] → exec i s = .next s

/-! ### The whole machine -/

/-- R41 to R47, R49, R50, R57, R58: the words of Examples 2.1 and 2.2 of the manual decode to the instructions that it names, and its
three words that are no instruction are refused, two by the decoder and one by the check of its literal. -/
def Obligations.DecodesWords : Prop :=
  let bytes := fun (ws : List Word) => ws.flatMap wordBytes
  let iadd : Operands := { plain .ext 0 5 3 .i32 with b := 4 }
  decode (bytes [0x000C1481, 0x00040004, 0]) = .ok (.iadd iadd, []) ∧
  decode (bytes [0x000C1485, 0x00040004, 0]) = .ok (.iadd { iadd with settle := true }, []) ∧
  decode (bytes [0x000C1482, 0x64, 0]) = .ok (.iadd { plain .lit 0 5 3 .i32 with lit := 100 }, []) ∧
  decode (bytes [0xFFF41D08]) = .ok (.movi { settle := false, d := 7, imm := BitVec.ofInt 14 (-3) }, []) ∧
  decode (bytes [0xFFFF1008]) =
    .ok (.bra { settle := false, cond := true, pinv := false, psel := 1, hint := .none, off := BitVec.ofInt 15 (-1) }, []) ∧
  decode (bytes [0xFFFF1C08]) =
    .ok (.bra { settle := false, cond := true, pinv := false, psel := 1, hint := .unf, off := BitVec.ofInt 15 (-1) }, []) ∧
  decode (bytes [0x00034C28]) = .ok (.pblk { settle := false, pattern := 3, psel := 2, cnt := 3 }, []) ∧
  decode (bytes [0x00000148]) = .error .reservedOpcode ∧
  decode (bytes [0x000C1480]) = .error .badLength ∧
  decode (bytes [0x000C1482, 0, 1]) = .ok (.iadd { plain .lit 0 5 3 .i32 with lit := 0x100000000 }, []) ∧
  (Instr.iadd { plain .lit 0 5 3 .i32 with lit := 0x100000000 }).wf = false

/-- R43, R35, R16, R36, R315, R316: when the bytes at the chosen group's PC decode to an instruction that the scoreboard does not hold,
a step in which its slice gives the turn runs exec of it on the state that begins its issue; then the preferred PC and the
settle markers take their values. Words that decode to nothing run ILLEGAL_INSTRUCTION. An issue begins with the bundle at
the next instruction, and its record names the bundle, its participants, its PC and the next one.
That the PC wraps after the last word of the space, and the list of the instructions that 16 queued faults hold, are the model's
choices and no rule's.
Model's choices: log entries 1, 81, 82, 108, 148. -/
def Obligations.StepRunsDecoded : Prop :=
  (∀ (s : State) core slice rest sid w (z : Str) (t : Troop) (g : Group) (s1 : State) bs va,
    s.script = .turn core slice :: rest →
    let s0 := { s with script := rest }
    s0.haltedCore core = false →
    (s0.strs.filter fun (x : Str) => x.core == core && x.slice == slice && x.issued).length < 2 →
    s0.waiting core slice = sid :: w → s0.str? sid = some z → s0.troop? z.tid = some t →
    let y := z.dropPref
    y.choose = some g → y.lateq = [] ∨ (∃ l ∈ y.lanes, l.trap = true) → y.fetchFault g = none → t.failing = none →
    s0.fetchInstr t.core t.pad t.secure (State.isSuper t g.trap) g.pc.toNat = (s1, .ok bs, va) →
    let next := g.pc + BitVec.ofNat 56 (4 * wordsOf bs)
    (∀ i tail (s2 u : State) c, decode bs = .ok (i, tail) → s1.scoreboardHolds y i = false →
      i.canFaultLate = false ∨ y.lateq.length < 16 → s1.bagHolds y t = (s2, false) →
      exec i (s2.beginIssue y t g next i.settles) = .next u → u.cur = some c → c.verdict = .go →
      step s = .next ({ u with cur := none }.updStr y.sid fun x =>
        u.markSettle (x.endPref c (y.pref == some g.pc)) g.lanes).afterMove) ∧
    (∀ e (u : State) c, decode bs = .error e → exec .illegalInstruction (s1.beginIssue y t g next false) = .next u →
      u.cur = some c → c.verdict = .go →
      step s = .next ({ u with cur := none }.updStr y.sid fun x =>
        u.markSettle (x.endPref c (y.pref == some g.pc)) g.lanes).afterMove)) ∧
  (∀ (s : State) (z : Str) (t : Troop) (g : Group) next b, s.str? z.sid = some z → z.lanes.length = 32 →
    ∃ c z', (s.beginIssue z t g next b).cur = some c ∧ (s.beginIssue z t g next b).str? z.sid = some z' ∧
      c.sid = z.sid ∧ c.bundle = g.lanes ∧ c.pc = g.pc ∧ c.next = next ∧ c.trap = g.trap ∧ c.super = (g.trap || t.super) ∧
      (∀ l < 32, c.parts.getLsbD l = (g.lanes.getLsbD l && (g.trap || (match (z.lane l).block with
        | some x => x.bit == x.pattern.getLsbD x.pos
        | none => true)))) ∧
      ∀ l < 32, (z'.lane l).pc = if g.lanes.getLsbD l then next else (z.lane l).pc)

/-- R42, R44 to R50: decoding the bytes of a well-formed instruction gives it back, with every operand as it was, and leaves the bytes
after it. -/
def Obligations.DecodesEncoded : Prop :=
  ∀ i, i.wf = true → encodeWords i ≠ [] → ∀ rest, decode (encode i ++ rest) = .ok (i, rest)

/-- R36: every step of the machine answers a next state, whatever state it starts in, and in that state every lane that a settle marker
holds still waits for something.
Model's choices: log entries 1, 110. -/
def Obligations.StepsAnswer : Prop := ∀ s, ∃ t, step s = .next t ∧ MarkersHold t

/-- R382, with the model's choice that DRAM reads 0 after a cold start (log entry 4): right after reset no paddock, launch, troop or
string exists, nothing is in flight or cached, the mailbox is idle, no core has left the map, the clock is 0, and every
byte of memory reads 0; memory is in its canonical form, and no settle marker holds a lane.
Model's choices: log entries 4, 6, 98. -/
def Obligations.ResetState : Prop :=
  let s := State.reset
  s.pads = [] ∧ s.launches = [] ∧ s.troops = [] ∧ s.strs = [] ∧ s.accs = [] ∧ s.ops = [] ∧ s.engs = [] ∧ s.writes = [] ∧ s.l1 = [] ∧
    s.l2 = [] ∧ s.llc = [] ∧ s.tlb = [] ∧ s.rail = [] ∧ s.mailbox.busy = false ∧ s.removed = [] ∧ s.clock = 0 ∧ s.ready = true ∧
    (∀ a, homeByte s a = 0) ∧ Memory.wf s.mem = true ∧ MarkersHold s
end

