-- ==== Sys2Proof/Laws/Cells.lean ====
section
/-! SUPPORT. What the operations of a sparse map and of a list of records do: each reads back what was written, leaves the rest
alone, and keeps the canonical form. -/

namespace Sys2Proof

variable {β : Type}

theorem Cells.get_erase (d : β) (m : Cells β) (k j : Nat) :
    Cells.get d (Cells.erase k m) j = if j = k then d else Cells.get d m j := by
  induction m with
  | nil => simp [Cells.erase, Cells.get]
  | cons e m ih =>
    obtain ⟨k', v⟩ := e
    by_cases h : k' = k
    · simp only [Cells.erase, h, if_true, ih, Cells.get]
      by_cases hj : j = k <;> simp [hj]
      intro h2; exact absurd h2.symm hj
    · simp only [Cells.erase, h, if_false, Cells.get, ih]
      by_cases hj : k' = j
      · subst hj; simp [h]
      · simp [hj]

theorem Cells.get_place (d : β) (k : Nat) (v : β) (m : Cells β) (j : Nat)
    (hk : ∀ e ∈ m, e.1 ≠ k) : Cells.get d (Cells.place k v m) j = if j = k then v else Cells.get d m j := by
  induction m with
  | nil =>
    simp only [Cells.place, Cells.get]
    by_cases hj : k = j <;> simp [hj, eq_comm]
  | cons e m ih =>
    obtain ⟨k', v'⟩ := e
    have hk' : k' ≠ k := hk (k', v') (by simp)
    have ih := ih fun e he => hk e (by simp [he])
    simp only [Cells.place]
    split
    · simp only [Cells.get]
      by_cases hj : k = j
      · simp [hj]
      · have : ¬ j = k := fun h => hj h.symm
        simp [hj, this]
    · simp only [Cells.get, ih]
      by_cases hj : k' = j
      · subst hj; simp [hk']
      · simp [hj]

theorem Cells.not_mem_erase (k : Nat) (m : Cells β) : ∀ e ∈ Cells.erase k m, e.1 ≠ k := by
  induction m with
  | nil => simp [Cells.erase]
  | cons e m ih =>
    obtain ⟨k', v⟩ := e
    simp only [Cells.erase]
    split
    · exact ih
    · rename_i h
      intro e he
      rcases List.mem_cons.1 he with rfl | he
      · exact h
      · exact ih e he

/-- A sparse map reads back what was written, and nothing else changes. -/
theorem Cells.get_set [DecidableEq β] (d : β) (m : Cells β) (k : Nat) (v : β) (j : Nat) :
    Cells.get d (Cells.set d m k v) j = if j = k then v else Cells.get d m j := by
  unfold Cells.set
  split
  · rename_i h; rw [Cells.get_erase, h]
  · rw [Cells.get_place d k v _ j (Cells.not_mem_erase k m), Cells.get_erase]
    by_cases h : j = k <;> simp [h]

/-- After several writes, an untouched key reads as before. -/
theorem Cells.get_setMany_of_not_mem [DecidableEq β] (d : β) (es : List (Nat × β)) (m : Cells β) (j : Nat)
    (h : ∀ e ∈ es, e.1 ≠ j) : Cells.get d (Cells.setMany d m es) j = Cells.get d m j := by
  induction es generalizing m with
  | nil => rfl
  | cons e es ih =>
    obtain ⟨k, v⟩ := e
    rw [Cells.setMany, ih _ fun e he => h e (by simp [he]), Cells.get_set]
    have : k ≠ j := h (k, v) (by simp)
    simp [this.symm]

/-- After writes to distinct keys, a written key reads as its value. -/
theorem Cells.get_setMany_of_mem [DecidableEq β] (d : β) (es : List (Nat × β)) (m : Cells β) (j : Nat) (v : β)
    (h : (j, v) ∈ es) (hd : (es.map (·.1)).Nodup) : Cells.get d (Cells.setMany d m es) j = v := by
  induction es generalizing m with
  | nil => simp at h
  | cons e es ih =>
    obtain ⟨k, w⟩ := e
    rw [List.map_cons, List.nodup_cons] at hd
    rw [Cells.setMany]
    rcases List.mem_cons.1 h with h | h
    · obtain ⟨rfl, rfl⟩ := Prod.mk.inj h
      rw [Cells.get_setMany_of_not_mem _ _ _ _ fun e he hk => hd.1 (List.mem_map.2 ⟨e, he, hk⟩), Cells.get_set]
      simp
    · exact ih _ h hd.2

/-! ### The canonical form -/

theorem Cells.risesFrom_mono [DecidableEq β] (d : β) {a b : Nat} (h : a ≤ b) :
    ∀ m : Cells β, Cells.risesFrom d b m = true → Cells.risesFrom d a m = true
  | [] => fun _ => rfl
  | (k, v) :: m => by
    simp only [Cells.risesFrom, Bool.and_eq_true, decide_eq_true_eq]
    rintro ⟨⟨h1, h2⟩, h3⟩
    exact ⟨⟨by omega, h2⟩, h3⟩

theorem Cells.risesFrom_erase [DecidableEq β] (d : β) (k lo : Nat) (m : Cells β) (h : Cells.risesFrom d lo m = true) :
    Cells.risesFrom d lo (Cells.erase k m) = true := by
  induction m generalizing lo with
  | nil => rfl
  | cons e m ih =>
    obtain ⟨k', v⟩ := e
    simp only [Cells.risesFrom, Bool.and_eq_true, decide_eq_true_eq] at h
    obtain ⟨⟨h1, h2⟩, h3⟩ := h
    simp only [Cells.erase]
    split
    · exact Cells.risesFrom_mono d (by omega) _ (ih (k' + 1) h3)
    · simp only [Cells.risesFrom, Bool.and_eq_true, decide_eq_true_eq]
      exact ⟨⟨h1, h2⟩, ih (k' + 1) h3⟩

theorem Cells.risesFrom_place [DecidableEq β] (d : β) (k : Nat) (v : β) (hv : v ≠ d) (lo : Nat) (hlo : lo ≤ k) (m : Cells β)
    (h : Cells.risesFrom d lo m = true) (hk : ∀ e ∈ m, e.1 ≠ k) : Cells.risesFrom d lo (Cells.place k v m) = true := by
  induction m generalizing lo with
  | nil => simp [Cells.place, Cells.risesFrom, hlo, hv]
  | cons e m ih =>
    obtain ⟨k', v'⟩ := e
    simp only [Cells.risesFrom, Bool.and_eq_true, decide_eq_true_eq] at h
    obtain ⟨⟨h1, h2⟩, h3⟩ := h
    have hne : k' ≠ k := hk (k', v') (by simp)
    simp only [Cells.place]
    split
    · rename_i hlt
      simp only [Cells.risesFrom, Bool.and_eq_true, decide_eq_true_eq]
      exact ⟨⟨hlo, hv⟩, ⟨by omega, h2⟩, h3⟩
    · simp only [Cells.risesFrom, Bool.and_eq_true, decide_eq_true_eq]
      exact ⟨⟨h1, h2⟩, ih (k' + 1) (by omega) h3 fun e he => hk e (by simp [he])⟩

/-- A write keeps the canonical form. -/
theorem Cells.wf_set [DecidableEq β] (d : β) (m : Cells β) (k : Nat) (v : β) (h : Cells.wf d m = true) :
    Cells.wf d (Cells.set d m k v) = true := by
  unfold Cells.wf at *
  unfold Cells.set
  split
  · exact Cells.risesFrom_erase d k 0 m h
  · rename_i hv
    exact Cells.risesFrom_place d k v hv 0 (Nat.zero_le k) _ (Cells.risesFrom_erase d k 0 m h) (Cells.not_mem_erase k m)

theorem Cells.wf_erase [DecidableEq β] (d : β) (m : Cells β) (k : Nat) (h : Cells.wf d m = true) :
    Cells.wf d (Cells.erase k m) = true := Cells.risesFrom_erase d k 0 m h

theorem Cells.wf_setMany [DecidableEq β] (d : β) (es : List (Nat × β)) (m : Cells β) (h : Cells.wf d m = true) :
    Cells.wf d (Cells.setMany d m es) = true := by
  induction es generalizing m with
  | nil => exact h
  | cons e es ih => exact ih _ (Cells.wf_set d m e.1 e.2 h)

/-! ### Lists of records -/

variable {α : Type}

theorem find_updFirst_self (p : α → Bool) (f : α → α) (xs : List α) (x : α) (h : xs.find? p = some x) (hp : p (f x) = true) :
    (updFirst p f xs).find? p = some (f x) := by
  induction xs with
  | nil => simp at h
  | cons y ys ih =>
    by_cases hy : p y = true
    · rw [List.find?_cons_of_pos hy] at h
      obtain rfl := Option.some.inj h
      simp [updFirst, hy, hp]
    · rw [List.find?_cons_of_neg hy] at h
      simp [updFirst, hy, ih h]

theorem updFirst_of_find (p : α → Bool) (f : α → α) (xs : List α) (x : α) (h : xs.find? p = some x) :
    updFirst p f xs = updFirst p (fun _ => f x) xs := by
  induction xs with
  | nil => rfl
  | cons y ys ih =>
    by_cases hy : p y = true
    · rw [List.find?_cons_of_pos hy] at h
      obtain rfl := Option.some.inj h
      simp [updFirst, hy]
    · rw [List.find?_cons_of_neg hy] at h
      simp [updFirst, hy, ih h]

theorem updFirst_updFirst (p : α → Bool) (f g : α → α) (xs : List α) (hf : ∀ x, p x = true → p (f x) = true) :
    updFirst p g (updFirst p f xs) = updFirst p (g ∘ f) xs := by
  induction xs with
  | nil => rfl
  | cons y ys ih =>
    by_cases hy : p y = true
    · simp [updFirst, hy, hf y hy]
    · simp [updFirst, hy, ih]

theorem updFirst_self (p : α → Bool) (xs : List α) (x : α) (h : xs.find? p = some x) : updFirst p (fun _ => x) xs = xs := by
  induction xs with
  | nil => rfl
  | cons y ys ih =>
    by_cases hy : p y = true
    · rw [List.find?_cons_of_pos hy] at h
      obtain rfl := Option.some.inj h
      simp [updFirst, hy]
    · rw [List.find?_cons_of_neg hy] at h
      simp [updFirst, hy, ih h]

/-- A change of the first record of one key leaves the search for another key alone. -/
theorem find_updFirst_ne (p q : α → Bool) (f : α → α) (xs : List α) (h : ∀ x, p x = true → q x = false ∧ q (f x) = false) :
    (updFirst p f xs).find? q = xs.find? q := by
  induction xs with
  | nil => rfl
  | cons y ys ih =>
    by_cases hy : p y = true
    · simp [updFirst, hy, h y hy]
    · simp only [updFirst, hy, Bool.false_eq_true, if_false, List.find?_cons, ih]

end Sys2Proof
end

