-- ==== Sys2Proof/Laws/PerInstr.lean ====
section
/-! SUPPORT. A statement about the syntax of every instruction, one lemma for each constructor: an instruction has the words that its
length says, and one of form BA is the instruction of its `Op` and operands. -/

namespace Sys2Proof.Laws.F

/-- The instruction encodes as many words as its length says (R42), and its form BA, if it has one, gives it back. -/
def Statement (i : Instr) : Prop :=
  (encodeWords i ≠ [] → (encodeWords i).length = i.words) ∧ ∀ op o, i.ba = some (op, o) → op.instr o = i

theorem encodeBa_length (op : Op) (o : Operands) : (encodeBa op o).length = o.len.words := by
  unfold encodeBa
  cases o.len <;> rfl

theorem of_ba (op : Op) (o : Operands) (hb : (op.instr o).ba = some (op, o)) (hw : encodeWords (op.instr o) = encodeBa op o)
    (hn : (op.instr o).words = o.len.words) : Statement (op.instr o) := by
  refine ⟨fun _ => by rw [hw, hn, encodeBa_length], fun op' o' h => ?_⟩
  rw [hb] at h
  obtain ⟨rfl, rfl⟩ := Prod.mk.inj (Option.some.inj h)
  rfl

theorem of_other (i : Instr) (hb : i.ba = none) (hw : encodeWords i ≠ [] → (encodeWords i).length = i.words) : Statement i :=
  ⟨hw, fun op o h => by rw [hb] at h; exact absurd h (by simp)⟩

theorem bra (o : BranchOps) : Statement (.bra o) := of_other _ rfl fun _ => rfl
theorem braLong (o : BranchLongOps) : Statement (.braLong o) := of_other _ rfl fun _ => rfl
theorem pblk (o : BlockOps) : Statement (.pblk o) := of_other _ rfl fun _ => rfl
theorem movi (o : ImmOps) : Statement (.movi o) := of_other _ rfl fun _ => rfl
theorem trap (o : ImmOps) : Statement (.trap o) := of_other _ rfl fun _ => rfl
theorem bkpt (o : ImmOps) : Statement (.bkpt o) := of_other _ rfl fun _ => rfl
theorem scall (o : ImmOps) : Statement (.scall o) := of_other _ rfl fun _ => rfl
theorem nop (o : Operands) : Statement (.nop o) := of_ba .nop o rfl rfl rfl
theorem jmpi (o : Operands) : Statement (.jmpi o) := of_ba .jmpi o rfl rfl rfl
theorem call (o : Operands) : Statement (.call o) := of_ba .call o rfl rfl rfl
theorem ret (o : Operands) : Statement (.ret o) := of_ba .ret o rfl rfl rfl
theorem yld (o : Operands) : Statement (.yld o) := of_ba .yld o rfl rfl rfl
theorem exit (o : Operands) : Statement (.exit o) := of_ba .exit o rfl rfl rfl
theorem tret (o : Operands) : Statement (.tret o) := of_ba .tret o rfl rfl rfl
theorem sread (o : Operands) : Statement (.sread o) := of_ba .sread o rfl rfl rfl
theorem sreadExt (o : Operands) : Statement (.sreadExt o) := of_ba .sreadExt o rfl rfl rfl
theorem swrite (o : Operands) : Statement (.swrite o) := of_ba .swrite o rfl rfl rfl
theorem swriteExt (o : Operands) : Statement (.swriteExt o) := of_ba .swriteExt o rfl rfl rfl
theorem waitv (o : Operands) : Statement (.waitv o) := of_ba .waitv o rfl rfl rfl
theorem tlbi (o : Operands) : Statement (.tlbi o) := of_ba .tlbi o rfl rfl rfl
theorem cflush (o : Operands) : Statement (.cflush o) := of_ba .cflush o rfl rfl rfl
theorem cinv (o : Operands) : Statement (.cinv o) := of_ba .cinv o rfl rfl rfl
theorem iadd (o : Operands) : Statement (.iadd o) := of_ba .iadd o rfl rfl rfl
theorem isub (o : Operands) : Statement (.isub o) := of_ba .isub o rfl rfl rfl
theorem imul (o : Operands) : Statement (.imul o) := of_ba .imul o rfl rfl rfl
theorem imad (o : Operands) : Statement (.imad o) := of_ba .imad o rfl rfl rfl
theorem imin (o : Operands) : Statement (.imin o) := of_ba .imin o rfl rfl rfl
theorem imax (o : Operands) : Statement (.imax o) := of_ba .imax o rfl rfl rfl
theorem iabs (o : Operands) : Statement (.iabs o) := of_ba .iabs o rfl rfl rfl
theorem iabsExt (o : Operands) : Statement (.iabsExt o) := of_ba .iabsExt o rfl rfl rfl
theorem and (o : Operands) : Statement (.and o) := of_ba .and o rfl rfl rfl
theorem or (o : Operands) : Statement (.or o) := of_ba .or o rfl rfl rfl
theorem xor (o : Operands) : Statement (.xor o) := of_ba .xor o rfl rfl rfl
theorem shl (o : Operands) : Statement (.shl o) := of_ba .shl o rfl rfl rfl
theorem shr (o : Operands) : Statement (.shr o) := of_ba .shr o rfl rfl rfl
theorem sar (o : Operands) : Statement (.sar o) := of_ba .sar o rfl rfl rfl
theorem rot (o : Operands) : Statement (.rot o) := of_ba .rot o rfl rfl rfl
theorem bfx (o : Operands) : Statement (.bfx o) := of_ba .bfx o rfl rfl rfl
theorem bfi (o : Operands) : Statement (.bfi o) := of_ba .bfi o rfl rfl rfl
theorem popc (o : Operands) : Statement (.popc o) := of_ba .popc o rfl rfl rfl
theorem popcExt (o : Operands) : Statement (.popcExt o) := of_ba .popcExt o rfl rfl rfl
theorem clz (o : Operands) : Statement (.clz o) := of_ba .clz o rfl rfl rfl
theorem clzExt (o : Operands) : Statement (.clzExt o) := of_ba .clzExt o rfl rfl rfl
theorem ctz (o : Operands) : Statement (.ctz o) := of_ba .ctz o rfl rfl rfl
theorem ctzExt (o : Operands) : Statement (.ctzExt o) := of_ba .ctzExt o rfl rfl rfl
theorem brev (o : Operands) : Statement (.brev o) := of_ba .brev o rfl rfl rfl
theorem brevExt (o : Operands) : Statement (.brevExt o) := of_ba .brevExt o rfl rfl rfl
theorem isetp (o : Operands) : Statement (.isetp o) := of_ba .isetp o rfl rfl rfl
theorem mov (o : Operands) : Statement (.mov o) := of_ba .mov o rfl rfl rfl
theorem movExt (o : Operands) : Statement (.movExt o) := of_ba .movExt o rfl rfl rfl
theorem isel (o : Operands) : Statement (.isel o) := of_ba .isel o rfl rfl rfl
theorem pand (o : Operands) : Statement (.pand o) := of_ba .pand o rfl rfl rfl
theorem por (o : Operands) : Statement (.por o) := of_ba .por o rfl rfl rfl
theorem pxor (o : Operands) : Statement (.pxor o) := of_ba .pxor o rfl rfl rfl
theorem pnot (o : Operands) : Statement (.pnot o) := of_ba .pnot o rfl rfl rfl
theorem pnotExt (o : Operands) : Statement (.pnotExt o) := of_ba .pnotExt o rfl rfl rfl
theorem adda (o : Operands) : Statement (.adda o) := of_ba .adda o rfl rfl rfl
theorem lea (o : Operands) : Statement (.lea o) := of_ba .lea o rfl rfl rfl
theorem vtos (o : Operands) : Statement (.vtos o) := of_ba .vtos o rfl rfl rfl
theorem vtosExt (o : Operands) : Statement (.vtosExt o) := of_ba .vtosExt o rfl rfl rfl
theorem stov (o : Operands) : Statement (.stov o) := of_ba .stov o rfl rfl rfl
theorem stovExt (o : Operands) : Statement (.stovExt o) := of_ba .stovExt o rfl rfl rfl
theorem sadd (o : Operands) : Statement (.sadd o) := of_ba .sadd o rfl rfl rfl
theorem ssub (o : Operands) : Statement (.ssub o) := of_ba .ssub o rfl rfl rfl
theorem sand (o : Operands) : Statement (.sand o) := of_ba .sand o rfl rfl rfl
theorem sor (o : Operands) : Statement (.sor o) := of_ba .sor o rfl rfl rfl
theorem sshl (o : Operands) : Statement (.sshl o) := of_ba .sshl o rfl rfl rfl
theorem sshr (o : Operands) : Statement (.sshr o) := of_ba .sshr o rfl rfl rfl
theorem smul (o : Operands) : Statement (.smul o) := of_ba .smul o rfl rfl rfl
theorem scmp (o : Operands) : Statement (.scmp o) := of_ba .scmp o rfl rfl rfl
theorem idiv (o : Operands) : Statement (.idiv o) := of_ba .idiv o rfl rfl rfl
theorem irem (o : Operands) : Statement (.irem o) := of_ba .irem o rfl rfl rfl
theorem fadd (o : Operands) : Statement (.fadd o) := of_ba .fadd o rfl rfl rfl
theorem fsub (o : Operands) : Statement (.fsub o) := of_ba .fsub o rfl rfl rfl
theorem fmul (o : Operands) : Statement (.fmul o) := of_ba .fmul o rfl rfl rfl
theorem ffma (o : Operands) : Statement (.ffma o) := of_ba .ffma o rfl rfl rfl
theorem fmin (o : Operands) : Statement (.fmin o) := of_ba .fmin o rfl rfl rfl
theorem fmax (o : Operands) : Statement (.fmax o) := of_ba .fmax o rfl rfl rfl
theorem fsetp (o : Operands) : Statement (.fsetp o) := of_ba .fsetp o rfl rfl rfl
theorem frcp (o : Operands) : Statement (.frcp o) := of_ba .frcp o rfl rfl rfl
theorem frcpExt (o : Operands) : Statement (.frcpExt o) := of_ba .frcpExt o rfl rfl rfl
theorem frsq (o : Operands) : Statement (.frsq o) := of_ba .frsq o rfl rfl rfl
theorem frsqExt (o : Operands) : Statement (.frsqExt o) := of_ba .frsqExt o rfl rfl rfl
theorem fsqrt (o : Operands) : Statement (.fsqrt o) := of_ba .fsqrt o rfl rfl rfl
theorem fsqrtExt (o : Operands) : Statement (.fsqrtExt o) := of_ba .fsqrtExt o rfl rfl rfl
theorem fdiv (o : Operands) : Statement (.fdiv o) := of_ba .fdiv o rfl rfl rfl
theorem fexp2 (o : Operands) : Statement (.fexp2 o) := of_ba .fexp2 o rfl rfl rfl
theorem fexp2Ext (o : Operands) : Statement (.fexp2Ext o) := of_ba .fexp2Ext o rfl rfl rfl
theorem flog2 (o : Operands) : Statement (.flog2 o) := of_ba .flog2 o rfl rfl rfl
theorem flog2Ext (o : Operands) : Statement (.flog2Ext o) := of_ba .flog2Ext o rfl rfl rfl
theorem fsinp (o : Operands) : Statement (.fsinp o) := of_ba .fsinp o rfl rfl rfl
theorem fsinpExt (o : Operands) : Statement (.fsinpExt o) := of_ba .fsinpExt o rfl rfl rfl
theorem fcosp (o : Operands) : Statement (.fcosp o) := of_ba .fcosp o rfl rfl rfl
theorem fcospExt (o : Operands) : Statement (.fcospExt o) := of_ba .fcospExt o rfl rfl rfl
theorem frnd (o : Operands) : Statement (.frnd o) := of_ba .frnd o rfl rfl rfl
theorem frndExt (o : Operands) : Statement (.frndExt o) := of_ba .frndExt o rfl rfl rfl
theorem fclass (o : Operands) : Statement (.fclass o) := of_ba .fclass o rfl rfl rfl
theorem fclassExt (o : Operands) : Statement (.fclassExt o) := of_ba .fclassExt o rfl rfl rfl
theorem fscale (o : Operands) : Statement (.fscale o) := of_ba .fscale o rfl rfl rfl
theorem ffrx (o : Operands) : Statement (.ffrx o) := of_ba .ffrx o rfl rfl rfl
theorem ffrxExt (o : Operands) : Statement (.ffrxExt o) := of_ba .ffrxExt o rfl rfl rfl
theorem cvt (o : Operands) : Statement (.cvt o) := of_ba .cvt o rfl rfl rfl
theorem cvti (o : Operands) : Statement (.cvti o) := of_ba .cvti o rfl rfl rfl
theorem qnt (o : Operands) : Statement (.qnt o) := of_ba .qnt o rfl rfl rfl
theorem dqnt (o : Operands) : Statement (.dqnt o) := of_ba .dqnt o rfl rfl rfl
theorem pack (o : Operands) : Statement (.pack o) := of_ba .pack o rfl rfl rfl
theorem unpk (o : Operands) : Statement (.unpk o) := of_ba .unpk o rfl rfl rfl
theorem shfl (o : Operands) : Statement (.shfl o) := of_ba .shfl o rfl rfl rfl
theorem vote (o : Operands) : Statement (.vote o) := of_ba .vote o rfl rfl rfl
theorem voteExt (o : Operands) : Statement (.voteExt o) := of_ba .voteExt o rfl rfl rfl
theorem lred (o : Operands) : Statement (.lred o) := of_ba .lred o rfl rfl rfl
theorem lscan (o : Operands) : Statement (.lscan o) := of_ba .lscan o rfl rfl rfl
theorem matchLanes (o : Operands) : Statement (.matchLanes o) := of_ba .matchLanes o rfl rfl rfl
theorem matchLanesExt (o : Operands) : Statement (.matchLanesExt o) := of_ba .matchLanesExt o rfl rfl rfl
theorem elect (o : Operands) : Statement (.elect o) := of_ba .elect o rfl rfl rfl
theorem cfma (o : Operands) : Statement (.cfma o) := of_ba .cfma o rfl rfl rfl
theorem ld (o : Operands) : Statement (.ld o) := of_ba .ld o rfl rfl rfl
theorem st (o : Operands) : Statement (.st o) := of_ba .st o rfl rfl rfl
theorem lds (o : Operands) : Statement (.lds o) := of_ba .lds o rfl rfl rfl
theorem sts (o : Operands) : Statement (.sts o) := of_ba .sts o rfl rfl rfl
theorem prfm (o : Operands) : Statement (.prfm o) := of_ba .prfm o rfl rfl rfl
theorem brmk (o : Operands) : Statement (.brmk o) := of_ba .brmk o rfl rfl rfl
theorem brld (o : Operands) : Statement (.brld o) := of_ba .brld o rfl rfl rfl
theorem brq (o : Operands) : Statement (.brq o) := of_ba .brq o rfl rfl rfl
theorem acq (o : Operands) : Statement (.acq o) := of_ba .acq o rfl rfl rfl
theorem commit (o : Operands) : Statement (.commit o) := of_ba .commit o rfl rfl rfl
theorem abort (o : Operands) : Statement (.abort o) := of_ba .abort o rfl rfl rfl
theorem cqry (o : Operands) : Statement (.cqry o) := of_ba .cqry o rfl rfl rfl
theorem cropen (o : Operands) : Statement (.cropen o) := of_ba .cropen o rfl rfl rfl
theorem crclose (o : Operands) : Statement (.crclose o) := of_ba .crclose o rfl rfl rfl
theorem radd (o : Operands) : Statement (.radd o) := of_ba .radd o rfl rfl rfl
theorem ldts (o : Operands) : Statement (.ldts o) := of_ba .ldts o rfl rfl rfl
theorem atom (o : Operands) : Statement (.atom o) := of_ba .atom o rfl rfl rfl
theorem acas (o : Operands) : Statement (.acas o) := of_ba .acas o rfl rfl rfl
theorem afadd (o : Operands) : Statement (.afadd o) := of_ba .afadd o rfl rfl rfl
theorem atoms (o : Operands) : Statement (.atoms o) := of_ba .atoms o rfl rfl rfl
theorem bar (o : Operands) : Statement (.bar o) := of_ba .bar o rfl rfl rfl
theorem barv (o : Operands) : Statement (.barv o) := of_ba .barv o rfl rfl rfl
theorem bwait (o : Operands) : Statement (.bwait o) := of_ba .bwait o rfl rfl rfl
theorem bexp (o : Operands) : Statement (.bexp o) := of_ba .bexp o rfl rfl rfl
theorem bstat (o : Operands) : Statement (.bstat o) := of_ba .bstat o rfl rfl rfl
theorem cwait (o : Operands) : Statement (.cwait o) := of_ba .cwait o rfl rfl rfl
theorem acpy (o : Operands) : Statement (.acpy o) := of_ba .acpy o rfl rfl rfl
theorem acpy2 (o : Operands) : Statement (.acpy2 o) := of_ba .acpy2 o rfl rfl rfl
theorem agath (o : Operands) : Statement (.agath o) := of_ba .agath o rfl rfl rfl
theorem acoll (o : Operands) : Statement (.acoll o) := of_ba .acoll o rfl rfl rfl
theorem mma (o : Operands) : Statement (.mma o) := of_ba .mma o rfl rfl rfl
theorem mmaj (o : Operands) : Statement (.mmaj o) := of_ba .mmaj o rfl rfl rfl
theorem mlease (o : Operands) : Statement (.mlease o) := of_ba .mlease o rfl rfl rfl
theorem tdef (o : Operands) : Statement (.tdef o) := of_ba .tdef o rfl rfl rfl
theorem tidx (o : Operands) : Statement (.tidx o) := of_ba .tidx o rfl rfl rfl
theorem tmul (o : Operands) : Statement (.tmul o) := of_ba .tmul o rfl rfl rfl
theorem tew (o : Operands) : Statement (.tew o) := of_ba .tew o rfl rfl rfl
theorem tred (o : Operands) : Statement (.tred o) := of_ba .tred o rfl rfl rfl
theorem ttrn (o : Operands) : Statement (.ttrn o) := of_ba .ttrn o rfl rfl rfl
theorem tqnt (o : Operands) : Statement (.tqnt o) := of_ba .tqnt o rfl rfl rfl
theorem tforce (o : Operands) : Statement (.tforce o) := of_ba .tforce o rfl rfl rfl
theorem tst (o : Operands) : Statement (.tst o) := of_ba .tst o rfl rfl rfl
theorem twalk (o : Operands) : Statement (.twalk o) := of_ba .twalk o rfl rfl rfl
theorem tdrop (o : Operands) : Statement (.tdrop o) := of_ba .tdrop o rfl rfl rfl
theorem tstat (o : Operands) : Statement (.tstat o) := of_ba .tstat o rfl rfl rfl
theorem spawn (o : Operands) : Statement (.spawn o) := of_ba .spawn o rfl rfl rfl
theorem take (o : Operands) : Statement (.take o) := of_ba .take o rfl rfl rfl
theorem done (o : Operands) : Statement (.done o) := of_ba .done o rfl rfl rfl
theorem cancel (o : Operands) : Statement (.cancel o) := of_ba .cancel o rfl rfl rfl
theorem tchk (o : Operands) : Statement (.tchk o) := of_ba .tchk o rfl rfl rfl
theorem launch (o : Operands) : Statement (.launch o) := of_ba .launch o rfl rfl rfl
theorem jwait (o : Operands) : Statement (.jwait o) := of_ba .jwait o rfl rfl rfl
theorem ensure (o : Operands) : Statement (.ensure o) := of_ba .ensure o rfl rfl rfl
theorem elseby (o : Operands) : Statement (.elseby o) := of_ba .elseby o rfl rfl rfl
theorem elseerr (o : Operands) : Statement (.elseerr o) := of_ba .elseerr o rfl rfl rfl
theorem accept (o : Operands) : Statement (.accept o) := of_ba .accept o rfl rfl rfl
theorem reject (o : Operands) : Statement (.reject o) := of_ba .reject o rfl rfl rfl
theorem tjoin (o : Operands) : Statement (.tjoin o) := of_ba .tjoin o rfl rfl rfl
theorem tleave (o : Operands) : Statement (.tleave o) := of_ba .tleave o rfl rfl rfl
theorem rstat (o : Operands) : Statement (.rstat o) := of_ba .rstat o rfl rfl rfl
theorem lateFaultDeliver : Statement (.lateFaultDeliver) := of_other _ rfl fun h => absurd rfl h
theorem registerResultReturn (acc : Nat) : Statement (.registerResultReturn acc) := of_other _ rfl fun h => absurd rfl h
theorem storeAccept (acc line : Nat) : Statement (.storeAccept acc line) := of_other _ rfl fun h => absurd rfl h
theorem commitComplete (op : Nat) : Statement (.commitComplete op) := of_other _ rfl fun h => absurd rfl h
theorem roundConfirm (core : Nat) : Statement (.roundConfirm core) := of_other _ rfl fun h => absurd rfl h
theorem homeWriteArrival (wid : Nat) : Statement (.homeWriteArrival wid) := of_other _ rfl fun h => absurd rfl h
theorem acqComplete (op : Nat) : Statement (.acqComplete op) := of_other _ rfl fun h => absurd rfl h
theorem abortComplete (op : Nat) : Statement (.abortComplete op) := of_other _ rfl fun h => absurd rfl h
theorem rangeDeclarationComplete (op : Nat) : Statement (.rangeDeclarationComplete op) := of_other _ rfl fun h => absurd rfl h
theorem rangeCloseComplete (op : Nat) : Statement (.rangeCloseComplete op) := of_other _ rfl fun h => absurd rfl h
theorem pageWalkComplete (acc line : Nat) : Statement (.pageWalkComplete acc line) := of_other _ rfl fun h => absurd rfl h
theorem faultRecordPost (pad : Nat) : Statement (.faultRecordPost pad) := of_other _ rfl fun h => absurd rfl h
theorem fresolveReplay (pad : Nat) (src : BitVec 8) (fid : BitVec 24) : Statement (.fresolveReplay pad src fid) := of_other _ rfl fun h => absurd rfl h
theorem fresolveRefusePageFault (pad : Nat) (src : BitVec 8) (fid : BitVec 24) : Statement (.fresolveRefusePageFault pad src fid) := of_other _ rfl fun h => absurd rfl h
theorem fresolveRefusePermission (pad : Nat) (src : BitVec 8) (fid : BitVec 24) : Statement (.fresolveRefusePermission pad src fid) := of_other _ rfl fun h => absurd rfl h
theorem invcntWrite (pad : Nat) (cnt : BitVec 31) : Statement (.invcntWrite pad cnt) := of_other _ rfl fun h => absurd rfl h
theorem invalidationComplete (pad : Nat) : Statement (.invalidationComplete pad) := of_other _ rfl fun h => absurd rfl h
theorem owncntWrite (pad : Nat) (cnt : BitVec 9) : Statement (.owncntWrite pad cnt) := of_other _ rfl fun h => absurd rfl h
theorem ptrootWrite (pad : Nat) (secure asRoot : Bool) (val : Dword) : Statement (.ptrootWrite pad secure asRoot val) := of_other _ rfl fun h => absurd rfl h
theorem faultQueueRegWrite (pad : Nat) (off : Nat) (val : Dword) : Statement (.faultQueueRegWrite pad off val) := of_other _ rfl fun h => absurd rfl h
theorem registerWrite (fn : Option Nat) (off : Nat) (val : Dword) : Statement (.registerWrite fn off val) := of_other _ rfl fun h => absurd rfl h
theorem doorbellWrite (pad q : Nat) (val : Dword) : Statement (.doorbellWrite pad q val) := of_other _ rfl fun h => absurd rfl h
theorem queueRegister (pad : Nat) (qid : BitVec 6) : Statement (.queueRegister pad qid) := of_other _ rfl fun h => absurd rfl h
theorem queueUnregister (pad : Nat) (qid : BitVec 6) : Statement (.queueUnregister pad qid) := of_other _ rfl fun h => absurd rfl h
theorem packetAdmit (pad q : Nat) : Statement (.packetAdmit pad q) := of_other _ rfl fun h => absurd rfl h
theorem barrierAndSatisfied (launch : Nat) : Statement (.barrierAndSatisfied launch) := of_other _ rfl fun h => absurd rfl h
theorem jobActivate (launch core : Nat) : Statement (.jobActivate launch core) := of_other _ rfl fun h => absurd rfl h
theorem troopDispatch (launch : Nat) (places : List (Nat × Nat)) : Statement (.troopDispatch launch places) := of_other _ rfl fun h => absurd rfl h
theorem stringRetire (sid : Nat) : Statement (.stringRetire sid) := of_other _ rfl fun h => absurd rfl h
theorem troopRetire (tid : Nat) : Statement (.troopRetire tid) := of_other _ rfl fun h => absurd rfl h
theorem packetRelease (launch : Nat) : Statement (.packetRelease launch) := of_other _ rfl fun h => absurd rfl h
theorem completionSignalWrite (launch : Nat) : Statement (.completionSignalWrite launch) := of_other _ rfl fun h => absurd rfl h
theorem drain (pad : Nat) (slot : Byte) : Statement (.drain pad slot) := of_other _ rfl fun h => absurd rfl h
theorem cut (pad : Nat) (slot : Byte) : Statement (.cut pad slot) := of_other _ rfl fun h => absurd rfl h
theorem resume (pad : Nat) (slot : Byte) : Statement (.resume pad slot) := of_other _ rfl fun h => absurd rfl h
theorem reset (pad : Nat) : Statement (.reset pad) := of_other _ rfl fun h => absurd rfl h
theorem drainDeadlineExpiry (pad : Nat) : Statement (.drainDeadlineExpiry pad) := of_other _ rfl fun h => absurd rfl h
theorem cutboundExpiry (pad : Nat) : Statement (.cutboundExpiry pad) := of_other _ rfl fun h => absurd rfl h
theorem reinMarkerArrival (core : Nat) : Statement (.reinMarkerArrival core) := of_other _ rfl fun h => absurd rfl h
theorem cutComplete (pad us : Nat) : Statement (.cutComplete pad us) := of_other _ rfl fun h => absurd rfl h
theorem nodeCellCompute (core node cell : Nat) (bad1 bad2 : Bool) : Statement (.nodeCellCompute core node cell bad1 bad2) := of_other _ rfl fun h => absurd rfl h
theorem tileOpRetire (op : Nat) : Statement (.tileOpRetire op) := of_other _ rfl fun h => absurd rfl h
theorem copyEngineRetire (op : Nat) : Statement (.copyEngineRetire op) := of_other _ rfl fun h => absurd rfl h
theorem matrixOpComplete (core quarter : Nat) (bad1 bad2 : Bool) : Statement (.matrixOpComplete core quarter bad1 bad2) := of_other _ rfl fun h => absurd rfl h
theorem waitvReread (acc lane : Nat) : Statement (.waitvReread acc lane) := of_other _ rfl fun h => absurd rfl h
theorem cycleLimitExpiry (tid depth : Nat) : Statement (.cycleLimitExpiry tid depth) := of_other _ rfl fun h => absurd rfl h
theorem testDrainComplete (tid : Nat) : Statement (.testDrainComplete tid) := of_other _ rfl fun h => absurd rfl h
theorem outriderCompare (tid : Nat) : Statement (.outriderCompare tid) := of_other _ rfl fun h => absurd rfl h
theorem tieBreakDecide (tid : Nat) : Statement (.tieBreakDecide tid) := of_other _ rfl fun h => absurd rfl h
theorem refillBatchLand (core : Nat) : Statement (.refillBatchLand core) := of_other _ rfl fun h => absurd rfl h
theorem stealRequest (thief victim job : Nat) : Statement (.stealRequest thief victim job) := of_other _ rfl fun h => absurd rfl h
theorem stealAnswer (sid : Nat) : Statement (.stealAnswer sid) := of_other _ rfl fun h => absurd rfl h
theorem systemOpComplete (op : Nat) : Statement (.systemOpComplete op) := of_other _ rfl fun h => absurd rfl h
theorem inboundPcieWrite (pad zone off : Nat) (req : Requester) (poisoned : Bool) (data : List Byte) : Statement (.inboundPcieWrite pad zone off req poisoned data) := of_other _ rfl fun h => absurd rfl h
theorem inboundPcieRead (pad zone off len : Nat) : Statement (.inboundPcieRead pad zone off len) := of_other _ rfl fun h => absurd rfl h
theorem peerRequest (peer pad : Nat) (pa : Addr) (what : PeerOp) (data : List Byte) : Statement (.peerRequest peer pad pa what data) := of_other _ rfl fun h => absurd rfl h
theorem peerLinkLoss (peer : Nat) : Statement (.peerLinkLoss peer) := of_other _ rfl fun h => absurd rfl h
theorem vfFlr (pad : Nat) : Statement (.vfFlr pad) := of_other _ rfl fun h => absurd rfl h
theorem pf0Flr : Statement .pf0Flr := of_other _ rfl fun h => absurd rfl h
theorem coldStart (ok : Bool) (badCores : List Nat) : Statement (.coldStart ok badCores) := of_other _ rfl fun h => absurd rfl h
theorem throttle (steps : Nat) : Statement (.throttle steps) := of_other _ rfl fun h => absurd rfl h
theorem thermalTrip : Statement (.thermalTrip) := of_other _ rfl fun h => absurd rfl h
theorem warmStart (ok : Bool) : Statement (.warmStart ok) := of_other _ rfl fun h => absurd rfl h
theorem patrolScrub (line : Nat) : Statement (.patrolScrub line) := of_other _ rfl fun h => absurd rfl h
theorem scanTestStart (core : Nat) : Statement (.scanTestStart core) := of_other _ rfl fun h => absurd rfl h
theorem scanTestComplete (core : Nat) (pass : Bool) : Statement (.scanTestComplete core pass) := of_other _ rfl fun h => absurd rfl h
theorem cancelBitSet (op core : Nat) : Statement (.cancelBitSet op core) := of_other _ rfl fun h => absurd rfl h
theorem paddockCreate : Statement (.paddockCreate) := of_other _ rfl fun h => absurd rfl h
theorem paddockDestroy : Statement (.paddockDestroy) := of_other _ rfl fun h => absurd rfl h
theorem queueSecure : Statement (.queueSecure) := of_other _ rfl fun h => absurd rfl h
theorem attest : Statement (.attest) := of_other _ rfl fun h => absurd rfl h
theorem readInfo : Statement (.readInfo) := of_other _ rfl fun h => absurd rfl h
theorem illegalInstruction : Statement (.illegalInstruction) := of_other _ rfl fun h => absurd rfl h

end Sys2Proof.Laws.F
end

