-- ==== Sys2Proof/Laws/Encoding.lean ====
section
/-! SUPPORT. What the pieces of the encoding do: words and bytes, the fields of word 0 and word 1, and the opcode map, in which no two
rows overlap. -/

namespace Sys2Proof

/-! ### The opcode map (R57) -/

/-- Every row of the opcode map, with each of its FN values and lengths, selects its own instruction. -/
theorem rows_found : Op.all.all (fun op => op.row.fns.all fun fn => op.row.lens.all fun len =>
    match pickOp op.row.opc fn len with
    | .ok x => x == op
    | .error _ => false) = true := by decide +kernel

theorem Op.mem_all (op : Op) : op ∈ Op.all := by cases op <;> decide +kernel

theorem pickOp_row (op : Op) (fn : Nat) (len : Len) (hf : fn ∈ op.row.fns) (hl : len ∈ op.row.lens) :
    pickOp op.row.opc fn len = .ok op := by
  have h := List.all_eq_true.1 (List.all_eq_true.1 (List.all_eq_true.1 rows_found op op.mem_all) fn hf) len hl
  split at h
  · rename_i x he
    rw [he, eq_of_beq h]
  · exact absurd h (by simp)

/-- No opcode of form BA is one of the other forms', and each fits its seven bits. -/
theorem rows_ba : Op.all.all (fun op => op.row.opc < 128 && op.row.fns.all (· < 64) &&
    !([0x01, 0x05, 0x08, 0x0D, 0x0E, 0x21].contains op.row.opc)) = true := by decide +kernel

/-! ### Words and bytes -/

theorem takeWord_wordBytes (w : Word) (rest : List Byte) : takeWord (wordBytes w ++ rest) = some (w, rest) := by
  simp only [wordBytes, List.cons_append, List.nil_append, takeWord, Option.some.injEq, Prod.mk.injEq, and_true]
  apply BitVec.eq_of_getLsbD_eq
  intro i hi
  simp only [BitVec.getLsbD_append, BitVec.getLsbD_extractLsb']
  interval_cases i <;> simp

theorem takeWords_flatMap (ws : List Word) (rest : List Byte) :
    takeWords ws.length (ws.flatMap wordBytes ++ rest) = some (ws, rest) := by
  induction ws with
  | nil => rfl
  | cons w ws ih => simp only [List.length_cons, takeWords, List.flatMap_cons, List.append_assoc, takeWord_wordBytes, ih]

theorem litOf_extract (x : Dword) : litOf (x.extractLsb' 0 32) (x.extractLsb' 32 32) = x := by
  apply BitVec.eq_of_getLsbD_eq
  intro i hi
  simp only [litOf, BitVec.getLsbD_append, BitVec.getLsbD_extractLsb']
  split
  · simp_all
  · rename_i h
    have : 32 + (i - 32) = i := by omega
    simp [this]
    omega

/-! ### Word 0 of form BA (R41, R44) -/

theorem lenOf_word0 (opc : BitVec 7) (o : Operands) : lenOf (encodeWord0 opc o) = o.len := by
  have : (encodeWord0 opc o).extractLsb' 0 2 = BitVec.ofNat 2 o.len.code := by
    apply BitVec.eq_of_getLsbD_eq
    intro i hi
    simp only [encodeWord0, BitVec.getLsbD_append, BitVec.getLsbD_extractLsb']
    interval_cases i <;> simp
  unfold lenOf
  rw [this]
  cases o.len <;> rfl

theorem opcOf_word0 (opc : BitVec 7) (o : Operands) : opcOf (encodeWord0 opc o) = opc.toNat := by
  have : (encodeWord0 opc o).extractLsb' 3 7 = opc := by
    apply BitVec.eq_of_getLsbD_eq
    intro i hi
    simp only [encodeWord0, BitVec.getLsbD_append, BitVec.getLsbD_extractLsb']
    interval_cases i <;> simp
  unfold opcOf
  rw [this]

theorem settleOf_word0 (opc : BitVec 7) (o : Operands) : settleOf (encodeWord0 opc o) = o.settle := by
  simp only [settleOf, encodeWord0, BitVec.getLsbD_append]
  simp

theorem fnOf_word0 (opc : BitVec 7) (o : Operands) : fnOf (encodeWord0 opc o) = o.fn := by
  apply BitVec.eq_of_getLsbD_eq
  intro i hi
  simp only [fnOf, encodeWord0, BitVec.getLsbD_append, BitVec.getLsbD_extractLsb']
  interval_cases i <;> simp

theorem d_word0 (opc : BitVec 7) (o : Operands) : (encodeWord0 opc o).extractLsb' 10 8 = o.d := by
  apply BitVec.eq_of_getLsbD_eq
  intro i hi
  simp only [encodeWord0, BitVec.getLsbD_append, BitVec.getLsbD_extractLsb']
  interval_cases i <;> simp

theorem a_word0 (opc : BitVec 7) (o : Operands) : (encodeWord0 opc o).extractLsb' 18 8 = o.a := by
  apply BitVec.eq_of_getLsbD_eq
  intro i hi
  simp only [encodeWord0, BitVec.getLsbD_append, BitVec.getLsbD_extractLsb']
  interval_cases i <;> simp

/-! ### Word 1 (R48) -/

theorem b_word1 (o : Operands) : (encodeWord1 o).extractLsb' 0 8 = o.b := by
  apply BitVec.eq_of_getLsbD_eq
  intro i hi
  simp only [encodeWord1, BitVec.getLsbD_append, BitVec.getLsbD_extractLsb']
  interval_cases i <;> simp

theorem c_word1 (o : Operands) : (encodeWord1 o).extractLsb' 8 8 = o.c := by
  apply BitVec.eq_of_getLsbD_eq
  intro i hi
  simp only [encodeWord1, BitVec.getLsbD_append, BitVec.getLsbD_extractLsb']
  interval_cases i <;> simp

theorem ty_word1 (o : Operands) : (encodeWord1 o).extractLsb' 16 5 = BitVec.ofNat 5 o.ty.code := by
  apply BitVec.eq_of_getLsbD_eq
  intro i hi
  simp only [encodeWord1, BitVec.getLsbD_append, BitVec.getLsbD_extractLsb']
  interval_cases i <;> simp

theorem rm_word1 (o : Operands) : (encodeWord1 o).extractLsb' 21 2 = BitVec.ofNat 2 o.rm.code := by
  apply BitVec.eq_of_getLsbD_eq
  intro i hi
  simp only [encodeWord1, BitVec.getLsbD_append, BitVec.getLsbD_extractLsb']
  interval_cases i <;> simp

theorem level_word1 (o : Operands) : (encodeWord1 o).extractLsb' 28 3 = BitVec.ofNat 3 o.level.code := by
  apply BitVec.eq_of_getLsbD_eq
  intro i hi
  simp only [encodeWord1, BitVec.getLsbD_append, BitVec.getLsbD_extractLsb']
  interval_cases i <;> simp

theorem sat_word1 (o : Operands) : (encodeWord1 o).getLsbD 23 = o.sat := by
  simp only [encodeWord1, BitVec.getLsbD_append]
  simp

theorem nega_word1 (o : Operands) : (encodeWord1 o).getLsbD 24 = o.nega := by
  simp only [encodeWord1, BitVec.getLsbD_append]
  simp

theorem negb_word1 (o : Operands) : (encodeWord1 o).getLsbD 25 = o.negb := by
  simp only [encodeWord1, BitVec.getLsbD_append]
  simp

theorem negc_word1 (o : Operands) : (encodeWord1 o).getLsbD 26 = o.negc := by
  simp only [encodeWord1, BitVec.getLsbD_append]
  simp

theorem absa_word1 (o : Operands) : (encodeWord1 o).getLsbD 27 = o.absa := by
  simp only [encodeWord1, BitVec.getLsbD_append]
  simp

theorem spec_word1 (o : Operands) : (encodeWord1 o).getLsbD 31 = o.spec := by
  simp only [encodeWord1, BitVec.getLsbD_append]
  simp

theorem Ty.ofCode_code (t : Ty) : Ty.ofCode (BitVec.ofNat 5 t.code).toNat = some t := by cases t <;> rfl

theorem Level.ofCode_code (l : Level) : Level.ofCode (BitVec.ofNat 3 l.code).toNat = some l := by cases l <;> rfl

theorem Rm.ofCode_code (r : Rm) : Rm.ofCode (BitVec.ofNat 2 r.code).toNat = r := by cases r <;> rfl

theorem Hint.ofCode_code (h : Hint) : Hint.ofCode (BitVec.ofNat 2 h.code).toNat = h := by cases h <;> rfl

end Sys2Proof
end

