-- ==== Sys2Proof/Laws/State.lean ====
section
/-! SUPPORT. What each update of the machine does to each field of the state: one lemma a field and update. -/

namespace Sys2Proof.Machine

variable (s : State)

/-! ### `updStr` -/

@[simp] theorem State.updStr_clock (sid : Nat) (f : Str → Str) : (s.updStr sid f).clock = s.clock := rfl
@[simp] theorem State.updStr_coreBase (sid : Nat) (f : Str → Str) : (s.updStr sid f).coreBase = s.coreBase := rfl
@[simp] theorem State.updStr_cur (sid : Nat) (f : Str → Str) : (s.updStr sid f).cur = s.cur := rfl
@[simp] theorem State.updStr_strs (sid : Nat) (f : Str → Str) : (s.updStr sid f).strs = updFirst (·.sid == sid) f s.strs := rfl
@[simp] theorem State.updStr_troops (sid : Nat) (f : Str → Str) : (s.updStr sid f).troops = s.troops := rfl
@[simp] theorem State.updStr_tandems (sid : Nat) (f : Str → Str) : (s.updStr sid f).tandems = s.tandems := rfl
@[simp] theorem State.updStr_bars (sid : Nat) (f : Str → Str) : (s.updStr sid f).bars = s.bars := rfl
@[simp] theorem State.updStr_lines (sid : Nat) (f : Str → Str) : (s.updStr sid f).lines = s.lines := rfl
@[simp] theorem State.updStr_accs (sid : Nat) (f : Str → Str) : (s.updStr sid f).accs = s.accs := rfl
@[simp] theorem State.updStr_ops (sid : Nat) (f : Str → Str) : (s.updStr sid f).ops = s.ops := rfl
@[simp] theorem State.updStr_engs (sid : Nat) (f : Str → Str) : (s.updStr sid f).engs = s.engs := rfl
@[simp] theorem State.updStr_quarters (sid : Nat) (f : Str → Str) : (s.updStr sid f).quarters = s.quarters := rfl
@[simp] theorem State.updStr_pendJ (sid : Nat) (f : Str → Str) : (s.updStr sid f).pendJ = s.pendJ := rfl
@[simp] theorem State.updStr_jointWait (sid : Nat) (f : Str → Str) : (s.updStr sid f).jointWait = s.jointWait := rfl
@[simp] theorem State.updStr_nodes (sid : Nat) (f : Str → Str) : (s.updStr sid f).nodes = s.nodes := rfl
@[simp] theorem State.updStr_mem (sid : Nat) (f : Str → Str) : (s.updStr sid f).mem = s.mem := rfl
@[simp] theorem State.updStr_llc (sid : Nat) (f : Str → Str) : (s.updStr sid f).llc = s.llc := rfl
@[simp] theorem State.updStr_l1 (sid : Nat) (f : Str → Str) : (s.updStr sid f).l1 = s.l1 := rfl
@[simp] theorem State.updStr_l2 (sid : Nat) (f : Str → Str) : (s.updStr sid f).l2 = s.l2 := rfl
@[simp] theorem State.updStr_partials (sid : Nat) (f : Str → Str) : (s.updStr sid f).partials = s.partials := rfl
@[simp] theorem State.updStr_ranges (sid : Nat) (f : Str → Str) : (s.updStr sid f).ranges = s.ranges := rfl
@[simp] theorem State.updStr_rounds (sid : Nat) (f : Str → Str) : (s.updStr sid f).rounds = s.rounds := rfl
@[simp] theorem State.updStr_writes (sid : Nat) (f : Str → Str) : (s.updStr sid f).writes = s.writes := rfl
@[simp] theorem State.updStr_tlb (sid : Nat) (f : Str → Str) : (s.updStr sid f).tlb = s.tlb := rfl
@[simp] theorem State.updStr_rail (sid : Nat) (f : Str → Str) : (s.updStr sid f).rail = s.rail := rfl
@[simp] theorem State.updStr_heldReqs (sid : Nat) (f : Str → Str) : (s.updStr sid f).heldReqs = s.heldReqs := rfl
@[simp] theorem State.updStr_railWait (sid : Nat) (f : Str → Str) : (s.updStr sid f).railWait = s.railWait := rfl
@[simp] theorem State.updStr_notices (sid : Nat) (f : Str → Str) : (s.updStr sid f).notices = s.notices := rfl
@[simp] theorem State.updStr_refusals (sid : Nat) (f : Str → Str) : (s.updStr sid f).refusals = s.refusals := rfl
@[simp] theorem State.updStr_fids (sid : Nat) (f : Str → Str) : (s.updStr sid f).fids = s.fids := rfl
@[simp] theorem State.updStr_pads (sid : Nat) (f : Str → Str) : (s.updStr sid f).pads = s.pads := rfl
@[simp] theorem State.updStr_queues (sid : Nat) (f : Str → Str) : (s.updStr sid f).queues = s.queues := rfl
@[simp] theorem State.updStr_launches (sid : Nat) (f : Str → Str) : (s.updStr sid f).launches = s.launches := rfl
@[simp] theorem State.updStr_jobs (sid : Nat) (f : Str → Str) : (s.updStr sid f).jobs = s.jobs := rfl
@[simp] theorem State.updStr_mangers (sid : Nat) (f : Str → Str) : (s.updStr sid f).mangers = s.mangers := rfl
@[simp] theorem State.updStr_rings (sid : Nat) (f : Str → Str) : (s.updStr sid f).rings = s.rings := rfl
@[simp] theorem State.updStr_batches (sid : Nat) (f : Str → Str) : (s.updStr sid f).batches = s.batches := rfl
@[simp] theorem State.updStr_steals (sid : Nat) (f : Str → Str) : (s.updStr sid f).steals = s.steals := rfl
@[simp] theorem State.updStr_contexts (sid : Nat) (f : Str → Str) : (s.updStr sid f).contexts = s.contexts := rfl
@[simp] theorem State.updStr_mailbox (sid : Nat) (f : Str → Str) : (s.updStr sid f).mailbox = s.mailbox := rfl
@[simp] theorem State.updStr_partTable (sid : Nat) (f : Str → Str) : (s.updStr sid f).partTable = s.partTable := rfl
@[simp] theorem State.updStr_removed (sid : Nat) (f : Str → Str) : (s.updStr sid f).removed = s.removed := rfl
@[simp] theorem State.updStr_scanning (sid : Nat) (f : Str → Str) : (s.updStr sid f).scanning = s.scanning := rfl
@[simp] theorem State.updStr_pendFlags (sid : Nat) (f : Str → Str) : (s.updStr sid f).pendFlags = s.pendFlags := rfl
@[simp] theorem State.updStr_lastHeld (sid : Nat) (f : Str → Str) : (s.updStr sid f).lastHeld = s.lastHeld := rfl
@[simp] theorem State.updStr_poison (sid : Nat) (f : Str → Str) : (s.updStr sid f).poison = s.poison := rfl
@[simp] theorem State.updStr_upsets (sid : Nat) (f : Str → Str) : (s.updStr sid f).upsets = s.upsets := rfl
@[simp] theorem State.updStr_repairs (sid : Nat) (f : Str → Str) : (s.updStr sid f).repairs = s.repairs := rfl
@[simp] theorem State.updStr_excluded (sid : Nat) (f : Str → Str) : (s.updStr sid f).excluded = s.excluded := rfl
@[simp] theorem State.updStr_ceSeen (sid : Nat) (f : Str → Str) : (s.updStr sid f).ceSeen = s.ceSeen := rfl
@[simp] theorem State.updStr_patrol (sid : Nat) (f : Str → Str) : (s.updStr sid f).patrol = s.patrol := rfl
@[simp] theorem State.updStr_repairOverflow (sid : Nat) (f : Str → Str) : (s.updStr sid f).repairOverflow = s.repairOverflow := rfl
@[simp] theorem State.updStr_linkDown (sid : Nat) (f : Str → Str) : (s.updStr sid f).linkDown = s.linkDown := rfl
@[simp] theorem State.updStr_hostFail (sid : Nat) (f : Str → Str) : (s.updStr sid f).hostFail = s.hostFail := rfl
@[simp] theorem State.updStr_firmwareFail (sid : Nat) (f : Str → Str) : (s.updStr sid f).firmwareFail = s.firmwareFail := rfl
@[simp] theorem State.updStr_inbound (sid : Nat) (f : Str → Str) : (s.updStr sid f).inbound = s.inbound := rfl
@[simp] theorem State.updStr_warm (sid : Nat) (f : Str → Str) : (s.updStr sid f).warm = s.warm := rfl
@[simp] theorem State.updStr_ready (sid : Nat) (f : Str → Str) : (s.updStr sid f).ready = s.ready := rfl
@[simp] theorem State.updStr_mhz (sid : Nat) (f : Str → Str) : (s.updStr sid f).mhz = s.mhz := rfl
@[simp] theorem State.updStr_answers (sid : Nat) (f : Str → Str) : (s.updStr sid f).answers = s.answers := rfl
@[simp] theorem State.updStr_nextId (sid : Nat) (f : Str → Str) : (s.updStr sid f).nextId = s.nextId := rfl
@[simp] theorem State.updStr_script (sid : Nat) (f : Str → Str) : (s.updStr sid f).script = s.script := rfl

/-! ### `updTroop` -/

@[simp] theorem State.updTroop_clock (tid : Nat) (f : Troop → Troop) : (s.updTroop tid f).clock = s.clock := rfl
@[simp] theorem State.updTroop_coreBase (tid : Nat) (f : Troop → Troop) : (s.updTroop tid f).coreBase = s.coreBase := rfl
@[simp] theorem State.updTroop_cur (tid : Nat) (f : Troop → Troop) : (s.updTroop tid f).cur = s.cur := rfl
@[simp] theorem State.updTroop_strs (tid : Nat) (f : Troop → Troop) : (s.updTroop tid f).strs = s.strs := rfl
@[simp] theorem State.updTroop_troops (tid : Nat) (f : Troop → Troop) : (s.updTroop tid f).troops = updFirst (·.tid == tid) f s.troops := rfl
@[simp] theorem State.updTroop_tandems (tid : Nat) (f : Troop → Troop) : (s.updTroop tid f).tandems = s.tandems := rfl
@[simp] theorem State.updTroop_bars (tid : Nat) (f : Troop → Troop) : (s.updTroop tid f).bars = s.bars := rfl
@[simp] theorem State.updTroop_lines (tid : Nat) (f : Troop → Troop) : (s.updTroop tid f).lines = s.lines := rfl
@[simp] theorem State.updTroop_accs (tid : Nat) (f : Troop → Troop) : (s.updTroop tid f).accs = s.accs := rfl
@[simp] theorem State.updTroop_ops (tid : Nat) (f : Troop → Troop) : (s.updTroop tid f).ops = s.ops := rfl
@[simp] theorem State.updTroop_engs (tid : Nat) (f : Troop → Troop) : (s.updTroop tid f).engs = s.engs := rfl
@[simp] theorem State.updTroop_quarters (tid : Nat) (f : Troop → Troop) : (s.updTroop tid f).quarters = s.quarters := rfl
@[simp] theorem State.updTroop_pendJ (tid : Nat) (f : Troop → Troop) : (s.updTroop tid f).pendJ = s.pendJ := rfl
@[simp] theorem State.updTroop_jointWait (tid : Nat) (f : Troop → Troop) : (s.updTroop tid f).jointWait = s.jointWait := rfl
@[simp] theorem State.updTroop_nodes (tid : Nat) (f : Troop → Troop) : (s.updTroop tid f).nodes = s.nodes := rfl
@[simp] theorem State.updTroop_mem (tid : Nat) (f : Troop → Troop) : (s.updTroop tid f).mem = s.mem := rfl
@[simp] theorem State.updTroop_llc (tid : Nat) (f : Troop → Troop) : (s.updTroop tid f).llc = s.llc := rfl
@[simp] theorem State.updTroop_l1 (tid : Nat) (f : Troop → Troop) : (s.updTroop tid f).l1 = s.l1 := rfl
@[simp] theorem State.updTroop_l2 (tid : Nat) (f : Troop → Troop) : (s.updTroop tid f).l2 = s.l2 := rfl
@[simp] theorem State.updTroop_partials (tid : Nat) (f : Troop → Troop) : (s.updTroop tid f).partials = s.partials := rfl
@[simp] theorem State.updTroop_ranges (tid : Nat) (f : Troop → Troop) : (s.updTroop tid f).ranges = s.ranges := rfl
@[simp] theorem State.updTroop_rounds (tid : Nat) (f : Troop → Troop) : (s.updTroop tid f).rounds = s.rounds := rfl
@[simp] theorem State.updTroop_writes (tid : Nat) (f : Troop → Troop) : (s.updTroop tid f).writes = s.writes := rfl
@[simp] theorem State.updTroop_tlb (tid : Nat) (f : Troop → Troop) : (s.updTroop tid f).tlb = s.tlb := rfl
@[simp] theorem State.updTroop_rail (tid : Nat) (f : Troop → Troop) : (s.updTroop tid f).rail = s.rail := rfl
@[simp] theorem State.updTroop_heldReqs (tid : Nat) (f : Troop → Troop) : (s.updTroop tid f).heldReqs = s.heldReqs := rfl
@[simp] theorem State.updTroop_railWait (tid : Nat) (f : Troop → Troop) : (s.updTroop tid f).railWait = s.railWait := rfl
@[simp] theorem State.updTroop_notices (tid : Nat) (f : Troop → Troop) : (s.updTroop tid f).notices = s.notices := rfl
@[simp] theorem State.updTroop_refusals (tid : Nat) (f : Troop → Troop) : (s.updTroop tid f).refusals = s.refusals := rfl
@[simp] theorem State.updTroop_fids (tid : Nat) (f : Troop → Troop) : (s.updTroop tid f).fids = s.fids := rfl
@[simp] theorem State.updTroop_pads (tid : Nat) (f : Troop → Troop) : (s.updTroop tid f).pads = s.pads := rfl
@[simp] theorem State.updTroop_queues (tid : Nat) (f : Troop → Troop) : (s.updTroop tid f).queues = s.queues := rfl
@[simp] theorem State.updTroop_launches (tid : Nat) (f : Troop → Troop) : (s.updTroop tid f).launches = s.launches := rfl
@[simp] theorem State.updTroop_jobs (tid : Nat) (f : Troop → Troop) : (s.updTroop tid f).jobs = s.jobs := rfl
@[simp] theorem State.updTroop_mangers (tid : Nat) (f : Troop → Troop) : (s.updTroop tid f).mangers = s.mangers := rfl
@[simp] theorem State.updTroop_rings (tid : Nat) (f : Troop → Troop) : (s.updTroop tid f).rings = s.rings := rfl
@[simp] theorem State.updTroop_batches (tid : Nat) (f : Troop → Troop) : (s.updTroop tid f).batches = s.batches := rfl
@[simp] theorem State.updTroop_steals (tid : Nat) (f : Troop → Troop) : (s.updTroop tid f).steals = s.steals := rfl
@[simp] theorem State.updTroop_contexts (tid : Nat) (f : Troop → Troop) : (s.updTroop tid f).contexts = s.contexts := rfl
@[simp] theorem State.updTroop_mailbox (tid : Nat) (f : Troop → Troop) : (s.updTroop tid f).mailbox = s.mailbox := rfl
@[simp] theorem State.updTroop_partTable (tid : Nat) (f : Troop → Troop) : (s.updTroop tid f).partTable = s.partTable := rfl
@[simp] theorem State.updTroop_removed (tid : Nat) (f : Troop → Troop) : (s.updTroop tid f).removed = s.removed := rfl
@[simp] theorem State.updTroop_scanning (tid : Nat) (f : Troop → Troop) : (s.updTroop tid f).scanning = s.scanning := rfl
@[simp] theorem State.updTroop_pendFlags (tid : Nat) (f : Troop → Troop) : (s.updTroop tid f).pendFlags = s.pendFlags := rfl
@[simp] theorem State.updTroop_lastHeld (tid : Nat) (f : Troop → Troop) : (s.updTroop tid f).lastHeld = s.lastHeld := rfl
@[simp] theorem State.updTroop_poison (tid : Nat) (f : Troop → Troop) : (s.updTroop tid f).poison = s.poison := rfl
@[simp] theorem State.updTroop_upsets (tid : Nat) (f : Troop → Troop) : (s.updTroop tid f).upsets = s.upsets := rfl
@[simp] theorem State.updTroop_repairs (tid : Nat) (f : Troop → Troop) : (s.updTroop tid f).repairs = s.repairs := rfl
@[simp] theorem State.updTroop_excluded (tid : Nat) (f : Troop → Troop) : (s.updTroop tid f).excluded = s.excluded := rfl
@[simp] theorem State.updTroop_ceSeen (tid : Nat) (f : Troop → Troop) : (s.updTroop tid f).ceSeen = s.ceSeen := rfl
@[simp] theorem State.updTroop_patrol (tid : Nat) (f : Troop → Troop) : (s.updTroop tid f).patrol = s.patrol := rfl
@[simp] theorem State.updTroop_repairOverflow (tid : Nat) (f : Troop → Troop) : (s.updTroop tid f).repairOverflow = s.repairOverflow := rfl
@[simp] theorem State.updTroop_linkDown (tid : Nat) (f : Troop → Troop) : (s.updTroop tid f).linkDown = s.linkDown := rfl
@[simp] theorem State.updTroop_hostFail (tid : Nat) (f : Troop → Troop) : (s.updTroop tid f).hostFail = s.hostFail := rfl
@[simp] theorem State.updTroop_firmwareFail (tid : Nat) (f : Troop → Troop) : (s.updTroop tid f).firmwareFail = s.firmwareFail := rfl
@[simp] theorem State.updTroop_inbound (tid : Nat) (f : Troop → Troop) : (s.updTroop tid f).inbound = s.inbound := rfl
@[simp] theorem State.updTroop_warm (tid : Nat) (f : Troop → Troop) : (s.updTroop tid f).warm = s.warm := rfl
@[simp] theorem State.updTroop_ready (tid : Nat) (f : Troop → Troop) : (s.updTroop tid f).ready = s.ready := rfl
@[simp] theorem State.updTroop_mhz (tid : Nat) (f : Troop → Troop) : (s.updTroop tid f).mhz = s.mhz := rfl
@[simp] theorem State.updTroop_answers (tid : Nat) (f : Troop → Troop) : (s.updTroop tid f).answers = s.answers := rfl
@[simp] theorem State.updTroop_nextId (tid : Nat) (f : Troop → Troop) : (s.updTroop tid f).nextId = s.nextId := rfl
@[simp] theorem State.updTroop_script (tid : Nat) (f : Troop → Troop) : (s.updTroop tid f).script = s.script := rfl

/-! ### `updPad` -/

@[simp] theorem State.updPad_clock (n : Nat) (f : Paddock → Paddock) : (s.updPad n f).clock = s.clock := rfl
@[simp] theorem State.updPad_coreBase (n : Nat) (f : Paddock → Paddock) : (s.updPad n f).coreBase = s.coreBase := rfl
@[simp] theorem State.updPad_cur (n : Nat) (f : Paddock → Paddock) : (s.updPad n f).cur = s.cur := rfl
@[simp] theorem State.updPad_strs (n : Nat) (f : Paddock → Paddock) : (s.updPad n f).strs = s.strs := rfl
@[simp] theorem State.updPad_troops (n : Nat) (f : Paddock → Paddock) : (s.updPad n f).troops = s.troops := rfl
@[simp] theorem State.updPad_tandems (n : Nat) (f : Paddock → Paddock) : (s.updPad n f).tandems = s.tandems := rfl
@[simp] theorem State.updPad_bars (n : Nat) (f : Paddock → Paddock) : (s.updPad n f).bars = s.bars := rfl
@[simp] theorem State.updPad_lines (n : Nat) (f : Paddock → Paddock) : (s.updPad n f).lines = s.lines := rfl
@[simp] theorem State.updPad_accs (n : Nat) (f : Paddock → Paddock) : (s.updPad n f).accs = s.accs := rfl
@[simp] theorem State.updPad_ops (n : Nat) (f : Paddock → Paddock) : (s.updPad n f).ops = s.ops := rfl
@[simp] theorem State.updPad_engs (n : Nat) (f : Paddock → Paddock) : (s.updPad n f).engs = s.engs := rfl
@[simp] theorem State.updPad_quarters (n : Nat) (f : Paddock → Paddock) : (s.updPad n f).quarters = s.quarters := rfl
@[simp] theorem State.updPad_pendJ (n : Nat) (f : Paddock → Paddock) : (s.updPad n f).pendJ = s.pendJ := rfl
@[simp] theorem State.updPad_jointWait (n : Nat) (f : Paddock → Paddock) : (s.updPad n f).jointWait = s.jointWait := rfl
@[simp] theorem State.updPad_nodes (n : Nat) (f : Paddock → Paddock) : (s.updPad n f).nodes = s.nodes := rfl
@[simp] theorem State.updPad_mem (n : Nat) (f : Paddock → Paddock) : (s.updPad n f).mem = s.mem := rfl
@[simp] theorem State.updPad_llc (n : Nat) (f : Paddock → Paddock) : (s.updPad n f).llc = s.llc := rfl
@[simp] theorem State.updPad_l1 (n : Nat) (f : Paddock → Paddock) : (s.updPad n f).l1 = s.l1 := rfl
@[simp] theorem State.updPad_l2 (n : Nat) (f : Paddock → Paddock) : (s.updPad n f).l2 = s.l2 := rfl
@[simp] theorem State.updPad_partials (n : Nat) (f : Paddock → Paddock) : (s.updPad n f).partials = s.partials := rfl
@[simp] theorem State.updPad_ranges (n : Nat) (f : Paddock → Paddock) : (s.updPad n f).ranges = s.ranges := rfl
@[simp] theorem State.updPad_rounds (n : Nat) (f : Paddock → Paddock) : (s.updPad n f).rounds = s.rounds := rfl
@[simp] theorem State.updPad_writes (n : Nat) (f : Paddock → Paddock) : (s.updPad n f).writes = s.writes := rfl
@[simp] theorem State.updPad_tlb (n : Nat) (f : Paddock → Paddock) : (s.updPad n f).tlb = s.tlb := rfl
@[simp] theorem State.updPad_rail (n : Nat) (f : Paddock → Paddock) : (s.updPad n f).rail = s.rail := rfl
@[simp] theorem State.updPad_heldReqs (n : Nat) (f : Paddock → Paddock) : (s.updPad n f).heldReqs = s.heldReqs := rfl
@[simp] theorem State.updPad_railWait (n : Nat) (f : Paddock → Paddock) : (s.updPad n f).railWait = s.railWait := rfl
@[simp] theorem State.updPad_notices (n : Nat) (f : Paddock → Paddock) : (s.updPad n f).notices = s.notices := rfl
@[simp] theorem State.updPad_refusals (n : Nat) (f : Paddock → Paddock) : (s.updPad n f).refusals = s.refusals := rfl
@[simp] theorem State.updPad_fids (n : Nat) (f : Paddock → Paddock) : (s.updPad n f).fids = s.fids := rfl
@[simp] theorem State.updPad_pads (n : Nat) (f : Paddock → Paddock) : (s.updPad n f).pads = updFirst (·.n == n) f s.pads := rfl
@[simp] theorem State.updPad_queues (n : Nat) (f : Paddock → Paddock) : (s.updPad n f).queues = s.queues := rfl
@[simp] theorem State.updPad_launches (n : Nat) (f : Paddock → Paddock) : (s.updPad n f).launches = s.launches := rfl
@[simp] theorem State.updPad_jobs (n : Nat) (f : Paddock → Paddock) : (s.updPad n f).jobs = s.jobs := rfl
@[simp] theorem State.updPad_mangers (n : Nat) (f : Paddock → Paddock) : (s.updPad n f).mangers = s.mangers := rfl
@[simp] theorem State.updPad_rings (n : Nat) (f : Paddock → Paddock) : (s.updPad n f).rings = s.rings := rfl
@[simp] theorem State.updPad_batches (n : Nat) (f : Paddock → Paddock) : (s.updPad n f).batches = s.batches := rfl
@[simp] theorem State.updPad_steals (n : Nat) (f : Paddock → Paddock) : (s.updPad n f).steals = s.steals := rfl
@[simp] theorem State.updPad_contexts (n : Nat) (f : Paddock → Paddock) : (s.updPad n f).contexts = s.contexts := rfl
@[simp] theorem State.updPad_mailbox (n : Nat) (f : Paddock → Paddock) : (s.updPad n f).mailbox = s.mailbox := rfl
@[simp] theorem State.updPad_partTable (n : Nat) (f : Paddock → Paddock) : (s.updPad n f).partTable = s.partTable := rfl
@[simp] theorem State.updPad_removed (n : Nat) (f : Paddock → Paddock) : (s.updPad n f).removed = s.removed := rfl
@[simp] theorem State.updPad_scanning (n : Nat) (f : Paddock → Paddock) : (s.updPad n f).scanning = s.scanning := rfl
@[simp] theorem State.updPad_pendFlags (n : Nat) (f : Paddock → Paddock) : (s.updPad n f).pendFlags = s.pendFlags := rfl
@[simp] theorem State.updPad_lastHeld (n : Nat) (f : Paddock → Paddock) : (s.updPad n f).lastHeld = s.lastHeld := rfl
@[simp] theorem State.updPad_poison (n : Nat) (f : Paddock → Paddock) : (s.updPad n f).poison = s.poison := rfl
@[simp] theorem State.updPad_upsets (n : Nat) (f : Paddock → Paddock) : (s.updPad n f).upsets = s.upsets := rfl
@[simp] theorem State.updPad_repairs (n : Nat) (f : Paddock → Paddock) : (s.updPad n f).repairs = s.repairs := rfl
@[simp] theorem State.updPad_excluded (n : Nat) (f : Paddock → Paddock) : (s.updPad n f).excluded = s.excluded := rfl
@[simp] theorem State.updPad_ceSeen (n : Nat) (f : Paddock → Paddock) : (s.updPad n f).ceSeen = s.ceSeen := rfl
@[simp] theorem State.updPad_patrol (n : Nat) (f : Paddock → Paddock) : (s.updPad n f).patrol = s.patrol := rfl
@[simp] theorem State.updPad_repairOverflow (n : Nat) (f : Paddock → Paddock) : (s.updPad n f).repairOverflow = s.repairOverflow := rfl
@[simp] theorem State.updPad_linkDown (n : Nat) (f : Paddock → Paddock) : (s.updPad n f).linkDown = s.linkDown := rfl
@[simp] theorem State.updPad_hostFail (n : Nat) (f : Paddock → Paddock) : (s.updPad n f).hostFail = s.hostFail := rfl
@[simp] theorem State.updPad_firmwareFail (n : Nat) (f : Paddock → Paddock) : (s.updPad n f).firmwareFail = s.firmwareFail := rfl
@[simp] theorem State.updPad_inbound (n : Nat) (f : Paddock → Paddock) : (s.updPad n f).inbound = s.inbound := rfl
@[simp] theorem State.updPad_warm (n : Nat) (f : Paddock → Paddock) : (s.updPad n f).warm = s.warm := rfl
@[simp] theorem State.updPad_ready (n : Nat) (f : Paddock → Paddock) : (s.updPad n f).ready = s.ready := rfl
@[simp] theorem State.updPad_mhz (n : Nat) (f : Paddock → Paddock) : (s.updPad n f).mhz = s.mhz := rfl
@[simp] theorem State.updPad_answers (n : Nat) (f : Paddock → Paddock) : (s.updPad n f).answers = s.answers := rfl
@[simp] theorem State.updPad_nextId (n : Nat) (f : Paddock → Paddock) : (s.updPad n f).nextId = s.nextId := rfl
@[simp] theorem State.updPad_script (n : Nat) (f : Paddock → Paddock) : (s.updPad n f).script = s.script := rfl

/-! ### `updLaunch` -/

@[simp] theorem State.updLaunch_clock (id : Nat) (f : Launch → Launch) : (s.updLaunch id f).clock = s.clock := rfl
@[simp] theorem State.updLaunch_coreBase (id : Nat) (f : Launch → Launch) : (s.updLaunch id f).coreBase = s.coreBase := rfl
@[simp] theorem State.updLaunch_cur (id : Nat) (f : Launch → Launch) : (s.updLaunch id f).cur = s.cur := rfl
@[simp] theorem State.updLaunch_strs (id : Nat) (f : Launch → Launch) : (s.updLaunch id f).strs = s.strs := rfl
@[simp] theorem State.updLaunch_troops (id : Nat) (f : Launch → Launch) : (s.updLaunch id f).troops = s.troops := rfl
@[simp] theorem State.updLaunch_tandems (id : Nat) (f : Launch → Launch) : (s.updLaunch id f).tandems = s.tandems := rfl
@[simp] theorem State.updLaunch_bars (id : Nat) (f : Launch → Launch) : (s.updLaunch id f).bars = s.bars := rfl
@[simp] theorem State.updLaunch_lines (id : Nat) (f : Launch → Launch) : (s.updLaunch id f).lines = s.lines := rfl
@[simp] theorem State.updLaunch_accs (id : Nat) (f : Launch → Launch) : (s.updLaunch id f).accs = s.accs := rfl
@[simp] theorem State.updLaunch_ops (id : Nat) (f : Launch → Launch) : (s.updLaunch id f).ops = s.ops := rfl
@[simp] theorem State.updLaunch_engs (id : Nat) (f : Launch → Launch) : (s.updLaunch id f).engs = s.engs := rfl
@[simp] theorem State.updLaunch_quarters (id : Nat) (f : Launch → Launch) : (s.updLaunch id f).quarters = s.quarters := rfl
@[simp] theorem State.updLaunch_pendJ (id : Nat) (f : Launch → Launch) : (s.updLaunch id f).pendJ = s.pendJ := rfl
@[simp] theorem State.updLaunch_jointWait (id : Nat) (f : Launch → Launch) : (s.updLaunch id f).jointWait = s.jointWait := rfl
@[simp] theorem State.updLaunch_nodes (id : Nat) (f : Launch → Launch) : (s.updLaunch id f).nodes = s.nodes := rfl
@[simp] theorem State.updLaunch_mem (id : Nat) (f : Launch → Launch) : (s.updLaunch id f).mem = s.mem := rfl
@[simp] theorem State.updLaunch_llc (id : Nat) (f : Launch → Launch) : (s.updLaunch id f).llc = s.llc := rfl
@[simp] theorem State.updLaunch_l1 (id : Nat) (f : Launch → Launch) : (s.updLaunch id f).l1 = s.l1 := rfl
@[simp] theorem State.updLaunch_l2 (id : Nat) (f : Launch → Launch) : (s.updLaunch id f).l2 = s.l2 := rfl
@[simp] theorem State.updLaunch_partials (id : Nat) (f : Launch → Launch) : (s.updLaunch id f).partials = s.partials := rfl
@[simp] theorem State.updLaunch_ranges (id : Nat) (f : Launch → Launch) : (s.updLaunch id f).ranges = s.ranges := rfl
@[simp] theorem State.updLaunch_rounds (id : Nat) (f : Launch → Launch) : (s.updLaunch id f).rounds = s.rounds := rfl
@[simp] theorem State.updLaunch_writes (id : Nat) (f : Launch → Launch) : (s.updLaunch id f).writes = s.writes := rfl
@[simp] theorem State.updLaunch_tlb (id : Nat) (f : Launch → Launch) : (s.updLaunch id f).tlb = s.tlb := rfl
@[simp] theorem State.updLaunch_rail (id : Nat) (f : Launch → Launch) : (s.updLaunch id f).rail = s.rail := rfl
@[simp] theorem State.updLaunch_heldReqs (id : Nat) (f : Launch → Launch) : (s.updLaunch id f).heldReqs = s.heldReqs := rfl
@[simp] theorem State.updLaunch_railWait (id : Nat) (f : Launch → Launch) : (s.updLaunch id f).railWait = s.railWait := rfl
@[simp] theorem State.updLaunch_notices (id : Nat) (f : Launch → Launch) : (s.updLaunch id f).notices = s.notices := rfl
@[simp] theorem State.updLaunch_refusals (id : Nat) (f : Launch → Launch) : (s.updLaunch id f).refusals = s.refusals := rfl
@[simp] theorem State.updLaunch_fids (id : Nat) (f : Launch → Launch) : (s.updLaunch id f).fids = s.fids := rfl
@[simp] theorem State.updLaunch_pads (id : Nat) (f : Launch → Launch) : (s.updLaunch id f).pads = s.pads := rfl
@[simp] theorem State.updLaunch_queues (id : Nat) (f : Launch → Launch) : (s.updLaunch id f).queues = s.queues := rfl
@[simp] theorem State.updLaunch_launches (id : Nat) (f : Launch → Launch) : (s.updLaunch id f).launches = updFirst (·.id == id) f s.launches := rfl
@[simp] theorem State.updLaunch_jobs (id : Nat) (f : Launch → Launch) : (s.updLaunch id f).jobs = s.jobs := rfl
@[simp] theorem State.updLaunch_mangers (id : Nat) (f : Launch → Launch) : (s.updLaunch id f).mangers = s.mangers := rfl
@[simp] theorem State.updLaunch_rings (id : Nat) (f : Launch → Launch) : (s.updLaunch id f).rings = s.rings := rfl
@[simp] theorem State.updLaunch_batches (id : Nat) (f : Launch → Launch) : (s.updLaunch id f).batches = s.batches := rfl
@[simp] theorem State.updLaunch_steals (id : Nat) (f : Launch → Launch) : (s.updLaunch id f).steals = s.steals := rfl
@[simp] theorem State.updLaunch_contexts (id : Nat) (f : Launch → Launch) : (s.updLaunch id f).contexts = s.contexts := rfl
@[simp] theorem State.updLaunch_mailbox (id : Nat) (f : Launch → Launch) : (s.updLaunch id f).mailbox = s.mailbox := rfl
@[simp] theorem State.updLaunch_partTable (id : Nat) (f : Launch → Launch) : (s.updLaunch id f).partTable = s.partTable := rfl
@[simp] theorem State.updLaunch_removed (id : Nat) (f : Launch → Launch) : (s.updLaunch id f).removed = s.removed := rfl
@[simp] theorem State.updLaunch_scanning (id : Nat) (f : Launch → Launch) : (s.updLaunch id f).scanning = s.scanning := rfl
@[simp] theorem State.updLaunch_pendFlags (id : Nat) (f : Launch → Launch) : (s.updLaunch id f).pendFlags = s.pendFlags := rfl
@[simp] theorem State.updLaunch_lastHeld (id : Nat) (f : Launch → Launch) : (s.updLaunch id f).lastHeld = s.lastHeld := rfl
@[simp] theorem State.updLaunch_poison (id : Nat) (f : Launch → Launch) : (s.updLaunch id f).poison = s.poison := rfl
@[simp] theorem State.updLaunch_upsets (id : Nat) (f : Launch → Launch) : (s.updLaunch id f).upsets = s.upsets := rfl
@[simp] theorem State.updLaunch_repairs (id : Nat) (f : Launch → Launch) : (s.updLaunch id f).repairs = s.repairs := rfl
@[simp] theorem State.updLaunch_excluded (id : Nat) (f : Launch → Launch) : (s.updLaunch id f).excluded = s.excluded := rfl
@[simp] theorem State.updLaunch_ceSeen (id : Nat) (f : Launch → Launch) : (s.updLaunch id f).ceSeen = s.ceSeen := rfl
@[simp] theorem State.updLaunch_patrol (id : Nat) (f : Launch → Launch) : (s.updLaunch id f).patrol = s.patrol := rfl
@[simp] theorem State.updLaunch_repairOverflow (id : Nat) (f : Launch → Launch) : (s.updLaunch id f).repairOverflow = s.repairOverflow := rfl
@[simp] theorem State.updLaunch_linkDown (id : Nat) (f : Launch → Launch) : (s.updLaunch id f).linkDown = s.linkDown := rfl
@[simp] theorem State.updLaunch_hostFail (id : Nat) (f : Launch → Launch) : (s.updLaunch id f).hostFail = s.hostFail := rfl
@[simp] theorem State.updLaunch_firmwareFail (id : Nat) (f : Launch → Launch) : (s.updLaunch id f).firmwareFail = s.firmwareFail := rfl
@[simp] theorem State.updLaunch_inbound (id : Nat) (f : Launch → Launch) : (s.updLaunch id f).inbound = s.inbound := rfl
@[simp] theorem State.updLaunch_warm (id : Nat) (f : Launch → Launch) : (s.updLaunch id f).warm = s.warm := rfl
@[simp] theorem State.updLaunch_ready (id : Nat) (f : Launch → Launch) : (s.updLaunch id f).ready = s.ready := rfl
@[simp] theorem State.updLaunch_mhz (id : Nat) (f : Launch → Launch) : (s.updLaunch id f).mhz = s.mhz := rfl
@[simp] theorem State.updLaunch_answers (id : Nat) (f : Launch → Launch) : (s.updLaunch id f).answers = s.answers := rfl
@[simp] theorem State.updLaunch_nextId (id : Nat) (f : Launch → Launch) : (s.updLaunch id f).nextId = s.nextId := rfl
@[simp] theorem State.updLaunch_script (id : Nat) (f : Launch → Launch) : (s.updLaunch id f).script = s.script := rfl

/-! ### `updAcc` -/

@[simp] theorem State.updAcc_clock (id : Nat) (f : Access → Access) : (s.updAcc id f).clock = s.clock := rfl
@[simp] theorem State.updAcc_coreBase (id : Nat) (f : Access → Access) : (s.updAcc id f).coreBase = s.coreBase := rfl
@[simp] theorem State.updAcc_cur (id : Nat) (f : Access → Access) : (s.updAcc id f).cur = s.cur := rfl
@[simp] theorem State.updAcc_strs (id : Nat) (f : Access → Access) : (s.updAcc id f).strs = s.strs := rfl
@[simp] theorem State.updAcc_troops (id : Nat) (f : Access → Access) : (s.updAcc id f).troops = s.troops := rfl
@[simp] theorem State.updAcc_tandems (id : Nat) (f : Access → Access) : (s.updAcc id f).tandems = s.tandems := rfl
@[simp] theorem State.updAcc_bars (id : Nat) (f : Access → Access) : (s.updAcc id f).bars = s.bars := rfl
@[simp] theorem State.updAcc_lines (id : Nat) (f : Access → Access) : (s.updAcc id f).lines = s.lines := rfl
@[simp] theorem State.updAcc_accs (id : Nat) (f : Access → Access) : (s.updAcc id f).accs = updFirst (·.id == id) f s.accs := rfl
@[simp] theorem State.updAcc_ops (id : Nat) (f : Access → Access) : (s.updAcc id f).ops = s.ops := rfl
@[simp] theorem State.updAcc_engs (id : Nat) (f : Access → Access) : (s.updAcc id f).engs = s.engs := rfl
@[simp] theorem State.updAcc_quarters (id : Nat) (f : Access → Access) : (s.updAcc id f).quarters = s.quarters := rfl
@[simp] theorem State.updAcc_pendJ (id : Nat) (f : Access → Access) : (s.updAcc id f).pendJ = s.pendJ := rfl
@[simp] theorem State.updAcc_jointWait (id : Nat) (f : Access → Access) : (s.updAcc id f).jointWait = s.jointWait := rfl
@[simp] theorem State.updAcc_nodes (id : Nat) (f : Access → Access) : (s.updAcc id f).nodes = s.nodes := rfl
@[simp] theorem State.updAcc_mem (id : Nat) (f : Access → Access) : (s.updAcc id f).mem = s.mem := rfl
@[simp] theorem State.updAcc_llc (id : Nat) (f : Access → Access) : (s.updAcc id f).llc = s.llc := rfl
@[simp] theorem State.updAcc_l1 (id : Nat) (f : Access → Access) : (s.updAcc id f).l1 = s.l1 := rfl
@[simp] theorem State.updAcc_l2 (id : Nat) (f : Access → Access) : (s.updAcc id f).l2 = s.l2 := rfl
@[simp] theorem State.updAcc_partials (id : Nat) (f : Access → Access) : (s.updAcc id f).partials = s.partials := rfl
@[simp] theorem State.updAcc_ranges (id : Nat) (f : Access → Access) : (s.updAcc id f).ranges = s.ranges := rfl
@[simp] theorem State.updAcc_rounds (id : Nat) (f : Access → Access) : (s.updAcc id f).rounds = s.rounds := rfl
@[simp] theorem State.updAcc_writes (id : Nat) (f : Access → Access) : (s.updAcc id f).writes = s.writes := rfl
@[simp] theorem State.updAcc_tlb (id : Nat) (f : Access → Access) : (s.updAcc id f).tlb = s.tlb := rfl
@[simp] theorem State.updAcc_rail (id : Nat) (f : Access → Access) : (s.updAcc id f).rail = s.rail := rfl
@[simp] theorem State.updAcc_heldReqs (id : Nat) (f : Access → Access) : (s.updAcc id f).heldReqs = s.heldReqs := rfl
@[simp] theorem State.updAcc_railWait (id : Nat) (f : Access → Access) : (s.updAcc id f).railWait = s.railWait := rfl
@[simp] theorem State.updAcc_notices (id : Nat) (f : Access → Access) : (s.updAcc id f).notices = s.notices := rfl
@[simp] theorem State.updAcc_refusals (id : Nat) (f : Access → Access) : (s.updAcc id f).refusals = s.refusals := rfl
@[simp] theorem State.updAcc_fids (id : Nat) (f : Access → Access) : (s.updAcc id f).fids = s.fids := rfl
@[simp] theorem State.updAcc_pads (id : Nat) (f : Access → Access) : (s.updAcc id f).pads = s.pads := rfl
@[simp] theorem State.updAcc_queues (id : Nat) (f : Access → Access) : (s.updAcc id f).queues = s.queues := rfl
@[simp] theorem State.updAcc_launches (id : Nat) (f : Access → Access) : (s.updAcc id f).launches = s.launches := rfl
@[simp] theorem State.updAcc_jobs (id : Nat) (f : Access → Access) : (s.updAcc id f).jobs = s.jobs := rfl
@[simp] theorem State.updAcc_mangers (id : Nat) (f : Access → Access) : (s.updAcc id f).mangers = s.mangers := rfl
@[simp] theorem State.updAcc_rings (id : Nat) (f : Access → Access) : (s.updAcc id f).rings = s.rings := rfl
@[simp] theorem State.updAcc_batches (id : Nat) (f : Access → Access) : (s.updAcc id f).batches = s.batches := rfl
@[simp] theorem State.updAcc_steals (id : Nat) (f : Access → Access) : (s.updAcc id f).steals = s.steals := rfl
@[simp] theorem State.updAcc_contexts (id : Nat) (f : Access → Access) : (s.updAcc id f).contexts = s.contexts := rfl
@[simp] theorem State.updAcc_mailbox (id : Nat) (f : Access → Access) : (s.updAcc id f).mailbox = s.mailbox := rfl
@[simp] theorem State.updAcc_partTable (id : Nat) (f : Access → Access) : (s.updAcc id f).partTable = s.partTable := rfl
@[simp] theorem State.updAcc_removed (id : Nat) (f : Access → Access) : (s.updAcc id f).removed = s.removed := rfl
@[simp] theorem State.updAcc_scanning (id : Nat) (f : Access → Access) : (s.updAcc id f).scanning = s.scanning := rfl
@[simp] theorem State.updAcc_pendFlags (id : Nat) (f : Access → Access) : (s.updAcc id f).pendFlags = s.pendFlags := rfl
@[simp] theorem State.updAcc_lastHeld (id : Nat) (f : Access → Access) : (s.updAcc id f).lastHeld = s.lastHeld := rfl
@[simp] theorem State.updAcc_poison (id : Nat) (f : Access → Access) : (s.updAcc id f).poison = s.poison := rfl
@[simp] theorem State.updAcc_upsets (id : Nat) (f : Access → Access) : (s.updAcc id f).upsets = s.upsets := rfl
@[simp] theorem State.updAcc_repairs (id : Nat) (f : Access → Access) : (s.updAcc id f).repairs = s.repairs := rfl
@[simp] theorem State.updAcc_excluded (id : Nat) (f : Access → Access) : (s.updAcc id f).excluded = s.excluded := rfl
@[simp] theorem State.updAcc_ceSeen (id : Nat) (f : Access → Access) : (s.updAcc id f).ceSeen = s.ceSeen := rfl
@[simp] theorem State.updAcc_patrol (id : Nat) (f : Access → Access) : (s.updAcc id f).patrol = s.patrol := rfl
@[simp] theorem State.updAcc_repairOverflow (id : Nat) (f : Access → Access) : (s.updAcc id f).repairOverflow = s.repairOverflow := rfl
@[simp] theorem State.updAcc_linkDown (id : Nat) (f : Access → Access) : (s.updAcc id f).linkDown = s.linkDown := rfl
@[simp] theorem State.updAcc_hostFail (id : Nat) (f : Access → Access) : (s.updAcc id f).hostFail = s.hostFail := rfl
@[simp] theorem State.updAcc_firmwareFail (id : Nat) (f : Access → Access) : (s.updAcc id f).firmwareFail = s.firmwareFail := rfl
@[simp] theorem State.updAcc_inbound (id : Nat) (f : Access → Access) : (s.updAcc id f).inbound = s.inbound := rfl
@[simp] theorem State.updAcc_warm (id : Nat) (f : Access → Access) : (s.updAcc id f).warm = s.warm := rfl
@[simp] theorem State.updAcc_ready (id : Nat) (f : Access → Access) : (s.updAcc id f).ready = s.ready := rfl
@[simp] theorem State.updAcc_mhz (id : Nat) (f : Access → Access) : (s.updAcc id f).mhz = s.mhz := rfl
@[simp] theorem State.updAcc_answers (id : Nat) (f : Access → Access) : (s.updAcc id f).answers = s.answers := rfl
@[simp] theorem State.updAcc_nextId (id : Nat) (f : Access → Access) : (s.updAcc id f).nextId = s.nextId := rfl
@[simp] theorem State.updAcc_script (id : Nat) (f : Access → Access) : (s.updAcc id f).script = s.script := rfl

/-! ### `updOp` -/

@[simp] theorem State.updOp_clock (id : Nat) (f : SysOp → SysOp) : (s.updOp id f).clock = s.clock := rfl
@[simp] theorem State.updOp_coreBase (id : Nat) (f : SysOp → SysOp) : (s.updOp id f).coreBase = s.coreBase := rfl
@[simp] theorem State.updOp_cur (id : Nat) (f : SysOp → SysOp) : (s.updOp id f).cur = s.cur := rfl
@[simp] theorem State.updOp_strs (id : Nat) (f : SysOp → SysOp) : (s.updOp id f).strs = s.strs := rfl
@[simp] theorem State.updOp_troops (id : Nat) (f : SysOp → SysOp) : (s.updOp id f).troops = s.troops := rfl
@[simp] theorem State.updOp_tandems (id : Nat) (f : SysOp → SysOp) : (s.updOp id f).tandems = s.tandems := rfl
@[simp] theorem State.updOp_bars (id : Nat) (f : SysOp → SysOp) : (s.updOp id f).bars = s.bars := rfl
@[simp] theorem State.updOp_lines (id : Nat) (f : SysOp → SysOp) : (s.updOp id f).lines = s.lines := rfl
@[simp] theorem State.updOp_accs (id : Nat) (f : SysOp → SysOp) : (s.updOp id f).accs = s.accs := rfl
@[simp] theorem State.updOp_ops (id : Nat) (f : SysOp → SysOp) : (s.updOp id f).ops = updFirst (·.id == id) f s.ops := rfl
@[simp] theorem State.updOp_engs (id : Nat) (f : SysOp → SysOp) : (s.updOp id f).engs = s.engs := rfl
@[simp] theorem State.updOp_quarters (id : Nat) (f : SysOp → SysOp) : (s.updOp id f).quarters = s.quarters := rfl
@[simp] theorem State.updOp_pendJ (id : Nat) (f : SysOp → SysOp) : (s.updOp id f).pendJ = s.pendJ := rfl
@[simp] theorem State.updOp_jointWait (id : Nat) (f : SysOp → SysOp) : (s.updOp id f).jointWait = s.jointWait := rfl
@[simp] theorem State.updOp_nodes (id : Nat) (f : SysOp → SysOp) : (s.updOp id f).nodes = s.nodes := rfl
@[simp] theorem State.updOp_mem (id : Nat) (f : SysOp → SysOp) : (s.updOp id f).mem = s.mem := rfl
@[simp] theorem State.updOp_llc (id : Nat) (f : SysOp → SysOp) : (s.updOp id f).llc = s.llc := rfl
@[simp] theorem State.updOp_l1 (id : Nat) (f : SysOp → SysOp) : (s.updOp id f).l1 = s.l1 := rfl
@[simp] theorem State.updOp_l2 (id : Nat) (f : SysOp → SysOp) : (s.updOp id f).l2 = s.l2 := rfl
@[simp] theorem State.updOp_partials (id : Nat) (f : SysOp → SysOp) : (s.updOp id f).partials = s.partials := rfl
@[simp] theorem State.updOp_ranges (id : Nat) (f : SysOp → SysOp) : (s.updOp id f).ranges = s.ranges := rfl
@[simp] theorem State.updOp_rounds (id : Nat) (f : SysOp → SysOp) : (s.updOp id f).rounds = s.rounds := rfl
@[simp] theorem State.updOp_writes (id : Nat) (f : SysOp → SysOp) : (s.updOp id f).writes = s.writes := rfl
@[simp] theorem State.updOp_tlb (id : Nat) (f : SysOp → SysOp) : (s.updOp id f).tlb = s.tlb := rfl
@[simp] theorem State.updOp_rail (id : Nat) (f : SysOp → SysOp) : (s.updOp id f).rail = s.rail := rfl
@[simp] theorem State.updOp_heldReqs (id : Nat) (f : SysOp → SysOp) : (s.updOp id f).heldReqs = s.heldReqs := rfl
@[simp] theorem State.updOp_railWait (id : Nat) (f : SysOp → SysOp) : (s.updOp id f).railWait = s.railWait := rfl
@[simp] theorem State.updOp_notices (id : Nat) (f : SysOp → SysOp) : (s.updOp id f).notices = s.notices := rfl
@[simp] theorem State.updOp_refusals (id : Nat) (f : SysOp → SysOp) : (s.updOp id f).refusals = s.refusals := rfl
@[simp] theorem State.updOp_fids (id : Nat) (f : SysOp → SysOp) : (s.updOp id f).fids = s.fids := rfl
@[simp] theorem State.updOp_pads (id : Nat) (f : SysOp → SysOp) : (s.updOp id f).pads = s.pads := rfl
@[simp] theorem State.updOp_queues (id : Nat) (f : SysOp → SysOp) : (s.updOp id f).queues = s.queues := rfl
@[simp] theorem State.updOp_launches (id : Nat) (f : SysOp → SysOp) : (s.updOp id f).launches = s.launches := rfl
@[simp] theorem State.updOp_jobs (id : Nat) (f : SysOp → SysOp) : (s.updOp id f).jobs = s.jobs := rfl
@[simp] theorem State.updOp_mangers (id : Nat) (f : SysOp → SysOp) : (s.updOp id f).mangers = s.mangers := rfl
@[simp] theorem State.updOp_rings (id : Nat) (f : SysOp → SysOp) : (s.updOp id f).rings = s.rings := rfl
@[simp] theorem State.updOp_batches (id : Nat) (f : SysOp → SysOp) : (s.updOp id f).batches = s.batches := rfl
@[simp] theorem State.updOp_steals (id : Nat) (f : SysOp → SysOp) : (s.updOp id f).steals = s.steals := rfl
@[simp] theorem State.updOp_contexts (id : Nat) (f : SysOp → SysOp) : (s.updOp id f).contexts = s.contexts := rfl
@[simp] theorem State.updOp_mailbox (id : Nat) (f : SysOp → SysOp) : (s.updOp id f).mailbox = s.mailbox := rfl
@[simp] theorem State.updOp_partTable (id : Nat) (f : SysOp → SysOp) : (s.updOp id f).partTable = s.partTable := rfl
@[simp] theorem State.updOp_removed (id : Nat) (f : SysOp → SysOp) : (s.updOp id f).removed = s.removed := rfl
@[simp] theorem State.updOp_scanning (id : Nat) (f : SysOp → SysOp) : (s.updOp id f).scanning = s.scanning := rfl
@[simp] theorem State.updOp_pendFlags (id : Nat) (f : SysOp → SysOp) : (s.updOp id f).pendFlags = s.pendFlags := rfl
@[simp] theorem State.updOp_lastHeld (id : Nat) (f : SysOp → SysOp) : (s.updOp id f).lastHeld = s.lastHeld := rfl
@[simp] theorem State.updOp_poison (id : Nat) (f : SysOp → SysOp) : (s.updOp id f).poison = s.poison := rfl
@[simp] theorem State.updOp_upsets (id : Nat) (f : SysOp → SysOp) : (s.updOp id f).upsets = s.upsets := rfl
@[simp] theorem State.updOp_repairs (id : Nat) (f : SysOp → SysOp) : (s.updOp id f).repairs = s.repairs := rfl
@[simp] theorem State.updOp_excluded (id : Nat) (f : SysOp → SysOp) : (s.updOp id f).excluded = s.excluded := rfl
@[simp] theorem State.updOp_ceSeen (id : Nat) (f : SysOp → SysOp) : (s.updOp id f).ceSeen = s.ceSeen := rfl
@[simp] theorem State.updOp_patrol (id : Nat) (f : SysOp → SysOp) : (s.updOp id f).patrol = s.patrol := rfl
@[simp] theorem State.updOp_repairOverflow (id : Nat) (f : SysOp → SysOp) : (s.updOp id f).repairOverflow = s.repairOverflow := rfl
@[simp] theorem State.updOp_linkDown (id : Nat) (f : SysOp → SysOp) : (s.updOp id f).linkDown = s.linkDown := rfl
@[simp] theorem State.updOp_hostFail (id : Nat) (f : SysOp → SysOp) : (s.updOp id f).hostFail = s.hostFail := rfl
@[simp] theorem State.updOp_firmwareFail (id : Nat) (f : SysOp → SysOp) : (s.updOp id f).firmwareFail = s.firmwareFail := rfl
@[simp] theorem State.updOp_inbound (id : Nat) (f : SysOp → SysOp) : (s.updOp id f).inbound = s.inbound := rfl
@[simp] theorem State.updOp_warm (id : Nat) (f : SysOp → SysOp) : (s.updOp id f).warm = s.warm := rfl
@[simp] theorem State.updOp_ready (id : Nat) (f : SysOp → SysOp) : (s.updOp id f).ready = s.ready := rfl
@[simp] theorem State.updOp_mhz (id : Nat) (f : SysOp → SysOp) : (s.updOp id f).mhz = s.mhz := rfl
@[simp] theorem State.updOp_answers (id : Nat) (f : SysOp → SysOp) : (s.updOp id f).answers = s.answers := rfl
@[simp] theorem State.updOp_nextId (id : Nat) (f : SysOp → SysOp) : (s.updOp id f).nextId = s.nextId := rfl
@[simp] theorem State.updOp_script (id : Nat) (f : SysOp → SysOp) : (s.updOp id f).script = s.script := rfl

/-! ### `updEng` -/

@[simp] theorem State.updEng_clock (id : Nat) (f : EngOp → EngOp) : (s.updEng id f).clock = s.clock := rfl
@[simp] theorem State.updEng_coreBase (id : Nat) (f : EngOp → EngOp) : (s.updEng id f).coreBase = s.coreBase := rfl
@[simp] theorem State.updEng_cur (id : Nat) (f : EngOp → EngOp) : (s.updEng id f).cur = s.cur := rfl
@[simp] theorem State.updEng_strs (id : Nat) (f : EngOp → EngOp) : (s.updEng id f).strs = s.strs := rfl
@[simp] theorem State.updEng_troops (id : Nat) (f : EngOp → EngOp) : (s.updEng id f).troops = s.troops := rfl
@[simp] theorem State.updEng_tandems (id : Nat) (f : EngOp → EngOp) : (s.updEng id f).tandems = s.tandems := rfl
@[simp] theorem State.updEng_bars (id : Nat) (f : EngOp → EngOp) : (s.updEng id f).bars = s.bars := rfl
@[simp] theorem State.updEng_lines (id : Nat) (f : EngOp → EngOp) : (s.updEng id f).lines = s.lines := rfl
@[simp] theorem State.updEng_accs (id : Nat) (f : EngOp → EngOp) : (s.updEng id f).accs = s.accs := rfl
@[simp] theorem State.updEng_ops (id : Nat) (f : EngOp → EngOp) : (s.updEng id f).ops = s.ops := rfl
@[simp] theorem State.updEng_engs (id : Nat) (f : EngOp → EngOp) : (s.updEng id f).engs = updFirst (·.id == id) f s.engs := rfl
@[simp] theorem State.updEng_quarters (id : Nat) (f : EngOp → EngOp) : (s.updEng id f).quarters = s.quarters := rfl
@[simp] theorem State.updEng_pendJ (id : Nat) (f : EngOp → EngOp) : (s.updEng id f).pendJ = s.pendJ := rfl
@[simp] theorem State.updEng_jointWait (id : Nat) (f : EngOp → EngOp) : (s.updEng id f).jointWait = s.jointWait := rfl
@[simp] theorem State.updEng_nodes (id : Nat) (f : EngOp → EngOp) : (s.updEng id f).nodes = s.nodes := rfl
@[simp] theorem State.updEng_mem (id : Nat) (f : EngOp → EngOp) : (s.updEng id f).mem = s.mem := rfl
@[simp] theorem State.updEng_llc (id : Nat) (f : EngOp → EngOp) : (s.updEng id f).llc = s.llc := rfl
@[simp] theorem State.updEng_l1 (id : Nat) (f : EngOp → EngOp) : (s.updEng id f).l1 = s.l1 := rfl
@[simp] theorem State.updEng_l2 (id : Nat) (f : EngOp → EngOp) : (s.updEng id f).l2 = s.l2 := rfl
@[simp] theorem State.updEng_partials (id : Nat) (f : EngOp → EngOp) : (s.updEng id f).partials = s.partials := rfl
@[simp] theorem State.updEng_ranges (id : Nat) (f : EngOp → EngOp) : (s.updEng id f).ranges = s.ranges := rfl
@[simp] theorem State.updEng_rounds (id : Nat) (f : EngOp → EngOp) : (s.updEng id f).rounds = s.rounds := rfl
@[simp] theorem State.updEng_writes (id : Nat) (f : EngOp → EngOp) : (s.updEng id f).writes = s.writes := rfl
@[simp] theorem State.updEng_tlb (id : Nat) (f : EngOp → EngOp) : (s.updEng id f).tlb = s.tlb := rfl
@[simp] theorem State.updEng_rail (id : Nat) (f : EngOp → EngOp) : (s.updEng id f).rail = s.rail := rfl
@[simp] theorem State.updEng_heldReqs (id : Nat) (f : EngOp → EngOp) : (s.updEng id f).heldReqs = s.heldReqs := rfl
@[simp] theorem State.updEng_railWait (id : Nat) (f : EngOp → EngOp) : (s.updEng id f).railWait = s.railWait := rfl
@[simp] theorem State.updEng_notices (id : Nat) (f : EngOp → EngOp) : (s.updEng id f).notices = s.notices := rfl
@[simp] theorem State.updEng_refusals (id : Nat) (f : EngOp → EngOp) : (s.updEng id f).refusals = s.refusals := rfl
@[simp] theorem State.updEng_fids (id : Nat) (f : EngOp → EngOp) : (s.updEng id f).fids = s.fids := rfl
@[simp] theorem State.updEng_pads (id : Nat) (f : EngOp → EngOp) : (s.updEng id f).pads = s.pads := rfl
@[simp] theorem State.updEng_queues (id : Nat) (f : EngOp → EngOp) : (s.updEng id f).queues = s.queues := rfl
@[simp] theorem State.updEng_launches (id : Nat) (f : EngOp → EngOp) : (s.updEng id f).launches = s.launches := rfl
@[simp] theorem State.updEng_jobs (id : Nat) (f : EngOp → EngOp) : (s.updEng id f).jobs = s.jobs := rfl
@[simp] theorem State.updEng_mangers (id : Nat) (f : EngOp → EngOp) : (s.updEng id f).mangers = s.mangers := rfl
@[simp] theorem State.updEng_rings (id : Nat) (f : EngOp → EngOp) : (s.updEng id f).rings = s.rings := rfl
@[simp] theorem State.updEng_batches (id : Nat) (f : EngOp → EngOp) : (s.updEng id f).batches = s.batches := rfl
@[simp] theorem State.updEng_steals (id : Nat) (f : EngOp → EngOp) : (s.updEng id f).steals = s.steals := rfl
@[simp] theorem State.updEng_contexts (id : Nat) (f : EngOp → EngOp) : (s.updEng id f).contexts = s.contexts := rfl
@[simp] theorem State.updEng_mailbox (id : Nat) (f : EngOp → EngOp) : (s.updEng id f).mailbox = s.mailbox := rfl
@[simp] theorem State.updEng_partTable (id : Nat) (f : EngOp → EngOp) : (s.updEng id f).partTable = s.partTable := rfl
@[simp] theorem State.updEng_removed (id : Nat) (f : EngOp → EngOp) : (s.updEng id f).removed = s.removed := rfl
@[simp] theorem State.updEng_scanning (id : Nat) (f : EngOp → EngOp) : (s.updEng id f).scanning = s.scanning := rfl
@[simp] theorem State.updEng_pendFlags (id : Nat) (f : EngOp → EngOp) : (s.updEng id f).pendFlags = s.pendFlags := rfl
@[simp] theorem State.updEng_lastHeld (id : Nat) (f : EngOp → EngOp) : (s.updEng id f).lastHeld = s.lastHeld := rfl
@[simp] theorem State.updEng_poison (id : Nat) (f : EngOp → EngOp) : (s.updEng id f).poison = s.poison := rfl
@[simp] theorem State.updEng_upsets (id : Nat) (f : EngOp → EngOp) : (s.updEng id f).upsets = s.upsets := rfl
@[simp] theorem State.updEng_repairs (id : Nat) (f : EngOp → EngOp) : (s.updEng id f).repairs = s.repairs := rfl
@[simp] theorem State.updEng_excluded (id : Nat) (f : EngOp → EngOp) : (s.updEng id f).excluded = s.excluded := rfl
@[simp] theorem State.updEng_ceSeen (id : Nat) (f : EngOp → EngOp) : (s.updEng id f).ceSeen = s.ceSeen := rfl
@[simp] theorem State.updEng_patrol (id : Nat) (f : EngOp → EngOp) : (s.updEng id f).patrol = s.patrol := rfl
@[simp] theorem State.updEng_repairOverflow (id : Nat) (f : EngOp → EngOp) : (s.updEng id f).repairOverflow = s.repairOverflow := rfl
@[simp] theorem State.updEng_linkDown (id : Nat) (f : EngOp → EngOp) : (s.updEng id f).linkDown = s.linkDown := rfl
@[simp] theorem State.updEng_hostFail (id : Nat) (f : EngOp → EngOp) : (s.updEng id f).hostFail = s.hostFail := rfl
@[simp] theorem State.updEng_firmwareFail (id : Nat) (f : EngOp → EngOp) : (s.updEng id f).firmwareFail = s.firmwareFail := rfl
@[simp] theorem State.updEng_inbound (id : Nat) (f : EngOp → EngOp) : (s.updEng id f).inbound = s.inbound := rfl
@[simp] theorem State.updEng_warm (id : Nat) (f : EngOp → EngOp) : (s.updEng id f).warm = s.warm := rfl
@[simp] theorem State.updEng_ready (id : Nat) (f : EngOp → EngOp) : (s.updEng id f).ready = s.ready := rfl
@[simp] theorem State.updEng_mhz (id : Nat) (f : EngOp → EngOp) : (s.updEng id f).mhz = s.mhz := rfl
@[simp] theorem State.updEng_answers (id : Nat) (f : EngOp → EngOp) : (s.updEng id f).answers = s.answers := rfl
@[simp] theorem State.updEng_nextId (id : Nat) (f : EngOp → EngOp) : (s.updEng id f).nextId = s.nextId := rfl
@[simp] theorem State.updEng_script (id : Nat) (f : EngOp → EngOp) : (s.updEng id f).script = s.script := rfl

/-! ### `updNode` -/

@[simp] theorem State.updNode_clock (core n : Nat) (f : Node → Node) : (s.updNode core n f).clock = s.clock := rfl
@[simp] theorem State.updNode_coreBase (core n : Nat) (f : Node → Node) : (s.updNode core n f).coreBase = s.coreBase := rfl
@[simp] theorem State.updNode_cur (core n : Nat) (f : Node → Node) : (s.updNode core n f).cur = s.cur := rfl
@[simp] theorem State.updNode_strs (core n : Nat) (f : Node → Node) : (s.updNode core n f).strs = s.strs := rfl
@[simp] theorem State.updNode_troops (core n : Nat) (f : Node → Node) : (s.updNode core n f).troops = s.troops := rfl
@[simp] theorem State.updNode_tandems (core n : Nat) (f : Node → Node) : (s.updNode core n f).tandems = s.tandems := rfl
@[simp] theorem State.updNode_bars (core n : Nat) (f : Node → Node) : (s.updNode core n f).bars = s.bars := rfl
@[simp] theorem State.updNode_lines (core n : Nat) (f : Node → Node) : (s.updNode core n f).lines = s.lines := rfl
@[simp] theorem State.updNode_accs (core n : Nat) (f : Node → Node) : (s.updNode core n f).accs = s.accs := rfl
@[simp] theorem State.updNode_ops (core n : Nat) (f : Node → Node) : (s.updNode core n f).ops = s.ops := rfl
@[simp] theorem State.updNode_engs (core n : Nat) (f : Node → Node) : (s.updNode core n f).engs = s.engs := rfl
@[simp] theorem State.updNode_quarters (core n : Nat) (f : Node → Node) : (s.updNode core n f).quarters = s.quarters := rfl
@[simp] theorem State.updNode_pendJ (core n : Nat) (f : Node → Node) : (s.updNode core n f).pendJ = s.pendJ := rfl
@[simp] theorem State.updNode_jointWait (core n : Nat) (f : Node → Node) : (s.updNode core n f).jointWait = s.jointWait := rfl
@[simp] theorem State.updNode_nodes (core n : Nat) (f : Node → Node) : (s.updNode core n f).nodes = updFirst (fun x => x.core == core && x.n == n) f s.nodes := rfl
@[simp] theorem State.updNode_mem (core n : Nat) (f : Node → Node) : (s.updNode core n f).mem = s.mem := rfl
@[simp] theorem State.updNode_llc (core n : Nat) (f : Node → Node) : (s.updNode core n f).llc = s.llc := rfl
@[simp] theorem State.updNode_l1 (core n : Nat) (f : Node → Node) : (s.updNode core n f).l1 = s.l1 := rfl
@[simp] theorem State.updNode_l2 (core n : Nat) (f : Node → Node) : (s.updNode core n f).l2 = s.l2 := rfl
@[simp] theorem State.updNode_partials (core n : Nat) (f : Node → Node) : (s.updNode core n f).partials = s.partials := rfl
@[simp] theorem State.updNode_ranges (core n : Nat) (f : Node → Node) : (s.updNode core n f).ranges = s.ranges := rfl
@[simp] theorem State.updNode_rounds (core n : Nat) (f : Node → Node) : (s.updNode core n f).rounds = s.rounds := rfl
@[simp] theorem State.updNode_writes (core n : Nat) (f : Node → Node) : (s.updNode core n f).writes = s.writes := rfl
@[simp] theorem State.updNode_tlb (core n : Nat) (f : Node → Node) : (s.updNode core n f).tlb = s.tlb := rfl
@[simp] theorem State.updNode_rail (core n : Nat) (f : Node → Node) : (s.updNode core n f).rail = s.rail := rfl
@[simp] theorem State.updNode_heldReqs (core n : Nat) (f : Node → Node) : (s.updNode core n f).heldReqs = s.heldReqs := rfl
@[simp] theorem State.updNode_railWait (core n : Nat) (f : Node → Node) : (s.updNode core n f).railWait = s.railWait := rfl
@[simp] theorem State.updNode_notices (core n : Nat) (f : Node → Node) : (s.updNode core n f).notices = s.notices := rfl
@[simp] theorem State.updNode_refusals (core n : Nat) (f : Node → Node) : (s.updNode core n f).refusals = s.refusals := rfl
@[simp] theorem State.updNode_fids (core n : Nat) (f : Node → Node) : (s.updNode core n f).fids = s.fids := rfl
@[simp] theorem State.updNode_pads (core n : Nat) (f : Node → Node) : (s.updNode core n f).pads = s.pads := rfl
@[simp] theorem State.updNode_queues (core n : Nat) (f : Node → Node) : (s.updNode core n f).queues = s.queues := rfl
@[simp] theorem State.updNode_launches (core n : Nat) (f : Node → Node) : (s.updNode core n f).launches = s.launches := rfl
@[simp] theorem State.updNode_jobs (core n : Nat) (f : Node → Node) : (s.updNode core n f).jobs = s.jobs := rfl
@[simp] theorem State.updNode_mangers (core n : Nat) (f : Node → Node) : (s.updNode core n f).mangers = s.mangers := rfl
@[simp] theorem State.updNode_rings (core n : Nat) (f : Node → Node) : (s.updNode core n f).rings = s.rings := rfl
@[simp] theorem State.updNode_batches (core n : Nat) (f : Node → Node) : (s.updNode core n f).batches = s.batches := rfl
@[simp] theorem State.updNode_steals (core n : Nat) (f : Node → Node) : (s.updNode core n f).steals = s.steals := rfl
@[simp] theorem State.updNode_contexts (core n : Nat) (f : Node → Node) : (s.updNode core n f).contexts = s.contexts := rfl
@[simp] theorem State.updNode_mailbox (core n : Nat) (f : Node → Node) : (s.updNode core n f).mailbox = s.mailbox := rfl
@[simp] theorem State.updNode_partTable (core n : Nat) (f : Node → Node) : (s.updNode core n f).partTable = s.partTable := rfl
@[simp] theorem State.updNode_removed (core n : Nat) (f : Node → Node) : (s.updNode core n f).removed = s.removed := rfl
@[simp] theorem State.updNode_scanning (core n : Nat) (f : Node → Node) : (s.updNode core n f).scanning = s.scanning := rfl
@[simp] theorem State.updNode_pendFlags (core n : Nat) (f : Node → Node) : (s.updNode core n f).pendFlags = s.pendFlags := rfl
@[simp] theorem State.updNode_lastHeld (core n : Nat) (f : Node → Node) : (s.updNode core n f).lastHeld = s.lastHeld := rfl
@[simp] theorem State.updNode_poison (core n : Nat) (f : Node → Node) : (s.updNode core n f).poison = s.poison := rfl
@[simp] theorem State.updNode_upsets (core n : Nat) (f : Node → Node) : (s.updNode core n f).upsets = s.upsets := rfl
@[simp] theorem State.updNode_repairs (core n : Nat) (f : Node → Node) : (s.updNode core n f).repairs = s.repairs := rfl
@[simp] theorem State.updNode_excluded (core n : Nat) (f : Node → Node) : (s.updNode core n f).excluded = s.excluded := rfl
@[simp] theorem State.updNode_ceSeen (core n : Nat) (f : Node → Node) : (s.updNode core n f).ceSeen = s.ceSeen := rfl
@[simp] theorem State.updNode_patrol (core n : Nat) (f : Node → Node) : (s.updNode core n f).patrol = s.patrol := rfl
@[simp] theorem State.updNode_repairOverflow (core n : Nat) (f : Node → Node) : (s.updNode core n f).repairOverflow = s.repairOverflow := rfl
@[simp] theorem State.updNode_linkDown (core n : Nat) (f : Node → Node) : (s.updNode core n f).linkDown = s.linkDown := rfl
@[simp] theorem State.updNode_hostFail (core n : Nat) (f : Node → Node) : (s.updNode core n f).hostFail = s.hostFail := rfl
@[simp] theorem State.updNode_firmwareFail (core n : Nat) (f : Node → Node) : (s.updNode core n f).firmwareFail = s.firmwareFail := rfl
@[simp] theorem State.updNode_inbound (core n : Nat) (f : Node → Node) : (s.updNode core n f).inbound = s.inbound := rfl
@[simp] theorem State.updNode_warm (core n : Nat) (f : Node → Node) : (s.updNode core n f).warm = s.warm := rfl
@[simp] theorem State.updNode_ready (core n : Nat) (f : Node → Node) : (s.updNode core n f).ready = s.ready := rfl
@[simp] theorem State.updNode_mhz (core n : Nat) (f : Node → Node) : (s.updNode core n f).mhz = s.mhz := rfl
@[simp] theorem State.updNode_answers (core n : Nat) (f : Node → Node) : (s.updNode core n f).answers = s.answers := rfl
@[simp] theorem State.updNode_nextId (core n : Nat) (f : Node → Node) : (s.updNode core n f).nextId = s.nextId := rfl
@[simp] theorem State.updNode_script (core n : Nat) (f : Node → Node) : (s.updNode core n f).script = s.script := rfl

/-! ### `fresh` -/

@[simp] theorem State.fresh_fst : s.fresh.1 = s.nextId := rfl
@[simp] theorem State.fresh_clock : s.fresh.2.clock = s.clock := rfl
@[simp] theorem State.fresh_coreBase : s.fresh.2.coreBase = s.coreBase := rfl
@[simp] theorem State.fresh_cur : s.fresh.2.cur = s.cur := rfl
@[simp] theorem State.fresh_strs : s.fresh.2.strs = s.strs := rfl
@[simp] theorem State.fresh_troops : s.fresh.2.troops = s.troops := rfl
@[simp] theorem State.fresh_tandems : s.fresh.2.tandems = s.tandems := rfl
@[simp] theorem State.fresh_bars : s.fresh.2.bars = s.bars := rfl
@[simp] theorem State.fresh_lines : s.fresh.2.lines = s.lines := rfl
@[simp] theorem State.fresh_accs : s.fresh.2.accs = s.accs := rfl
@[simp] theorem State.fresh_ops : s.fresh.2.ops = s.ops := rfl
@[simp] theorem State.fresh_engs : s.fresh.2.engs = s.engs := rfl
@[simp] theorem State.fresh_quarters : s.fresh.2.quarters = s.quarters := rfl
@[simp] theorem State.fresh_pendJ : s.fresh.2.pendJ = s.pendJ := rfl
@[simp] theorem State.fresh_jointWait : s.fresh.2.jointWait = s.jointWait := rfl
@[simp] theorem State.fresh_nodes : s.fresh.2.nodes = s.nodes := rfl
@[simp] theorem State.fresh_mem : s.fresh.2.mem = s.mem := rfl
@[simp] theorem State.fresh_llc : s.fresh.2.llc = s.llc := rfl
@[simp] theorem State.fresh_l1 : s.fresh.2.l1 = s.l1 := rfl
@[simp] theorem State.fresh_l2 : s.fresh.2.l2 = s.l2 := rfl
@[simp] theorem State.fresh_partials : s.fresh.2.partials = s.partials := rfl
@[simp] theorem State.fresh_ranges : s.fresh.2.ranges = s.ranges := rfl
@[simp] theorem State.fresh_rounds : s.fresh.2.rounds = s.rounds := rfl
@[simp] theorem State.fresh_writes : s.fresh.2.writes = s.writes := rfl
@[simp] theorem State.fresh_tlb : s.fresh.2.tlb = s.tlb := rfl
@[simp] theorem State.fresh_rail : s.fresh.2.rail = s.rail := rfl
@[simp] theorem State.fresh_heldReqs : s.fresh.2.heldReqs = s.heldReqs := rfl
@[simp] theorem State.fresh_railWait : s.fresh.2.railWait = s.railWait := rfl
@[simp] theorem State.fresh_notices : s.fresh.2.notices = s.notices := rfl
@[simp] theorem State.fresh_refusals : s.fresh.2.refusals = s.refusals := rfl
@[simp] theorem State.fresh_fids : s.fresh.2.fids = s.fids := rfl
@[simp] theorem State.fresh_pads : s.fresh.2.pads = s.pads := rfl
@[simp] theorem State.fresh_queues : s.fresh.2.queues = s.queues := rfl
@[simp] theorem State.fresh_launches : s.fresh.2.launches = s.launches := rfl
@[simp] theorem State.fresh_jobs : s.fresh.2.jobs = s.jobs := rfl
@[simp] theorem State.fresh_mangers : s.fresh.2.mangers = s.mangers := rfl
@[simp] theorem State.fresh_rings : s.fresh.2.rings = s.rings := rfl
@[simp] theorem State.fresh_batches : s.fresh.2.batches = s.batches := rfl
@[simp] theorem State.fresh_steals : s.fresh.2.steals = s.steals := rfl
@[simp] theorem State.fresh_contexts : s.fresh.2.contexts = s.contexts := rfl
@[simp] theorem State.fresh_mailbox : s.fresh.2.mailbox = s.mailbox := rfl
@[simp] theorem State.fresh_partTable : s.fresh.2.partTable = s.partTable := rfl
@[simp] theorem State.fresh_removed : s.fresh.2.removed = s.removed := rfl
@[simp] theorem State.fresh_scanning : s.fresh.2.scanning = s.scanning := rfl
@[simp] theorem State.fresh_pendFlags : s.fresh.2.pendFlags = s.pendFlags := rfl
@[simp] theorem State.fresh_lastHeld : s.fresh.2.lastHeld = s.lastHeld := rfl
@[simp] theorem State.fresh_poison : s.fresh.2.poison = s.poison := rfl
@[simp] theorem State.fresh_upsets : s.fresh.2.upsets = s.upsets := rfl
@[simp] theorem State.fresh_repairs : s.fresh.2.repairs = s.repairs := rfl
@[simp] theorem State.fresh_excluded : s.fresh.2.excluded = s.excluded := rfl
@[simp] theorem State.fresh_ceSeen : s.fresh.2.ceSeen = s.ceSeen := rfl
@[simp] theorem State.fresh_patrol : s.fresh.2.patrol = s.patrol := rfl
@[simp] theorem State.fresh_repairOverflow : s.fresh.2.repairOverflow = s.repairOverflow := rfl
@[simp] theorem State.fresh_linkDown : s.fresh.2.linkDown = s.linkDown := rfl
@[simp] theorem State.fresh_hostFail : s.fresh.2.hostFail = s.hostFail := rfl
@[simp] theorem State.fresh_firmwareFail : s.fresh.2.firmwareFail = s.firmwareFail := rfl
@[simp] theorem State.fresh_inbound : s.fresh.2.inbound = s.inbound := rfl
@[simp] theorem State.fresh_warm : s.fresh.2.warm = s.warm := rfl
@[simp] theorem State.fresh_ready : s.fresh.2.ready = s.ready := rfl
@[simp] theorem State.fresh_mhz : s.fresh.2.mhz = s.mhz := rfl
@[simp] theorem State.fresh_answers : s.fresh.2.answers = s.answers := rfl
@[simp] theorem State.fresh_nextId : s.fresh.2.nextId = s.nextId + 1 := rfl
@[simp] theorem State.fresh_script : s.fresh.2.script = s.script := rfl

end Sys2Proof.Machine
end

