-- ==== Sys2Proof/Laws/Issue.lean ====
section
/-! SUPPORT. What the shared operations of an issue do: the checks before an instruction's effect, the saddlebag's record, and the
writes of each register class. -/

namespace Sys2Proof.Machine

open Sys2Proof.Claims

/-! ### Strings and troops -/

theorem State.str_sid {s : State} {sid : Nat} {z : Str} (h : s.str? sid = some z) : z.sid = sid := by
  have := List.find?_some h
  simpa using this

theorem State.troop_tid {s : State} {tid : Nat} {t : Troop} (h : s.troop? tid = some t) : t.tid = tid := by
  have := List.find?_some h
  simpa using this

/-- A string that has been changed is found again. -/
theorem State.str?_updStr {s : State} {sid : Nat} {z : Str} (h : s.str? sid = some z) (f : Str → Str) (hf : (f z).sid = z.sid) :
    (s.updStr sid f).str? sid = some (f z) := by
  refine find_updFirst_self _ f s.strs z h ?_
  simp [hf, State.str_sid h]

@[simp] theorem State.troop?_updStr (s : State) (sid tid : Nat) (f : Str → Str) : (s.updStr sid f).troop? tid = s.troop? tid := rfl

/-- A change of a string depends only on the string that is found. -/
theorem State.updStr_const {s : State} {sid : Nat} {z : Str} (h : s.str? sid = some z) (f : Str → Str) :
    s.updStr sid f = s.updStr sid fun _ => f z := by
  simp only [State.updStr]
  rw [updFirst_of_find _ f _ z h]

/-- Two changes of a string are one. -/
theorem State.updStr_updStr {s : State} {sid : Nat} {z : Str} (h : s.str? sid = some z) (f g : Str → Str)
    (hf : (f z).sid = z.sid) : (s.updStr sid f).updStr sid g = s.updStr sid fun _ => g (f z) := by
  rw [State.updStr_const h f]
  simp only [State.updStr]
  rw [updFirst_updFirst]
  · rfl
  · intro x _; simp [hf, State.str_sid h]

theorem State.updStr_self {s : State} {sid : Nat} {z : Str} (h : s.str? sid = some z) : (s.updStr sid fun _ => z) = s := by
  simp only [State.updStr]
  rw [updFirst_self _ _ z h]

theorem State.depthOf_eq {s : State} {z : Str} {t : Troop} (h : s.troop? z.tid = some t) : s.depthOf z = t.depth := by
  simp [State.depthOf, State.troopOf, h]

/-- Nothing has overflowed, and the end of an instruction changes nothing (R422). -/
theorem State.settleOverflow_self {s : State} {tid : Nat} {t : Troop} (h : s.troop? tid = some t) (ho : t.overflow = false) :
    s.settleOverflow tid = s := by
  simp [State.settleOverflow, h, ho]

/-! ### Issue -/

/-- A legal instruction whose own check passes has its effect. -/
theorem State.issue_next {s : State} {i : Instr} {c : Cur} {z : Str} {t : Troop} (h : Issues s i c z t)
    (chk : Cur → Str → Troop → Bool) (body : Cur → Str → Troop → State) (hc : chk c z t = true) :
    s.issue i chk body = .next ((body c z t).settleOverflow t.tid) := by
  simp [State.issue, h.cur, h.str, h.troop, h.legal, hc]

/-- As `issue_next`, when the effect leaves the troop without an overflow. -/
theorem State.issue_done {s : State} {i : Instr} {c : Cur} {z : Str} {t t' : Troop} (h : Issues s i c z t)
    (chk : Cur → Str → Troop → Bool) (body : Cur → Str → Troop → State) (hc : chk c z t = true)
    (ht : (body c z t).troop? t.tid = some t') (ho : t'.overflow = false) :
    s.issue i chk body = .next (body c z t) := by
  rw [State.issue_next h chk body hc, State.settleOverflow_self ht ho]

/-- An illegal instruction, or one whose own check fails, raises ILLEGAL_INSTRUCTION (R58). -/
theorem State.issue_illegal {s : State} {i : Instr} {c : Cur} {z : Str} {t : Troop} (hc : s.cur = some c)
    (hz : s.str? c.sid = some z) (ht : s.troop? z.tid = some t) (chk : Cur → Str → Troop → Bool)
    (body : Cur → Str → Troop → State) (hl : (Machine.legal i c z && chk c z t) = false) :
    s.issue i chk body = .next (s.raise c .illegalInstruction) := by
  simp [State.issue, hc, hz, ht, hl]

theorem issues_tid {s : State} {i : Instr} {c : Cur} {z : Str} {t : Troop} (h : Issues s i c z t) : s.troop? t.tid = some t := by
  have := State.troop_tid h.troop
  rw [this]; exact h.troop

/-! ### The saddlebag (R421, R422) -/

/-- Room for one register more is room. -/
theorem room_mono {z : Str} {t : Troop} {k : Nat} (h : Room z t (k + 1)) : Room z t k :=
  ⟨h.1, h.2.imp_right Nat.le_of_succ_le⟩

/-- With room for one more register, a record changes only the string's saddlebag, by at most one row; with no block open it
changes nothing. -/
theorem State.record_room {s : State} {sid d : Nat} {key : BagKey} {prior : Str → List Nat} {z : Str} {t : Troop} {k : Nat}
    (hz : s.str? sid = some z) (ht : s.troop? z.tid = some t) (hr : Room z t (k + 1)) :
    ∃ bag, s.record sid d key prior = (s.updStr sid fun _ => { z with bag := bag }) ∧ (t.depth = 0 → bag = z.bag) ∧
      Room { z with bag := bag } t k := by
  obtain ⟨ho, hr⟩ := hr
  have hself : s = s.updStr sid fun _ => { z with bag := z.bag } := (State.updStr_self hz).symm
  have hroom : Room { z with bag := z.bag } t k := ⟨ho, by rcases hr with h | h <;> [exact .inl h; exact .inr (Nat.le_of_succ_le h)]⟩
  simp only [State.record, hz, ht]
  split
  · exact ⟨z.bag, hself, fun _ => rfl, hroom⟩
  · rename_i hc
    have hd : t.depth ≠ 0 := by
      intro h; simp [h] at hc
    have hr : (z.bag.filter fun e => !e.spilled).length + (k + 1) ≤ t.bagRows := by
      rcases hr with h | h
      · exact absurd h hd
      · exact h
    have hlt : (z.bag.filter fun e => !e.spilled).length < t.bagRows := by omega
    rw [if_pos hlt]
    refine ⟨z.bag ++ [{ key := key, tag := min d t.depth, vals := prior z }], ?_, fun h => absurd h hd, ho, .inr ?_⟩
    · rw [State.updStr_const hz]
    · have hk : ({ key := key, tag := min d t.depth, vals := prior z } : BagEnt).spilled = false := rfl
      simp [List.filter_append, hk]
      omega

/-! ### Vector registers -/

/-- A lane keeps its number in a register's place. -/
theorem vreg_place {n m l j : Nat} (hl : l < 32) (hj : j < 32) : 32 * n + l = 32 * m + j ↔ n = m ∧ l = j := by
  constructor
  · intro h
    have : n = m := by omega
    exact ⟨this, by omega⟩
  · rintro ⟨rfl, rfl⟩; rfl

theorem mem_lanesOf {m : Mask} {l : Nat} : l ∈ lanesOf m ↔ l < 32 ∧ m.getLsbD l = true := by
  simp [lanesOf]

/-- A mask that names no lane has no lane set. -/
theorem getLsbD_of_lanesOf_nil {m : Mask} {l : Nat} (h : lanesOf m = []) (hl : l < 32) : m.getLsbD l = false := by
  by_contra hm
  exact absurd (mem_lanesOf.2 ⟨hl, by simpa using hm⟩) (by simp [h])

theorem nodup_lanesOf (m : Mask) : (lanesOf m).Nodup := List.Nodup.filter _ List.nodup_range

/-- What the lanes of a vector register hold after a list of lanes has been written. -/
theorem Str.vreg_putV (z : Str) (d : Nat) (m : Mask) (f : Nat → Word) (n l : Nat) (hl : l < 32) :
    (z.putV d ((lanesOf m).map fun l => (l, f l))).vreg n l = if n = d ∧ m.getLsbD l = true then f l else z.vreg n l := by
  simp only [Str.vreg, Str.putV, List.map_map]
  split
  · rename_i h
    obtain ⟨rfl, hm⟩ := h
    refine Cells.get_setMany_of_mem 0 _ _ _ _ (List.mem_map.2 ⟨l, mem_lanesOf.2 ⟨hl, hm⟩, rfl⟩) ?_
    rw [List.map_map]
    refine List.Nodup.map_on ?_ (nodup_lanesOf m)
    intro a ha b hb hab
    simp only [Function.comp] at hab
    exact ((vreg_place (mem_lanesOf.1 ha).1 (mem_lanesOf.1 hb).1).1 hab).2
  · rename_i h
    refine Cells.get_setMany_of_not_mem 0 _ _ _ ?_
    intro e he hk
    obtain ⟨a, ha, rfl⟩ := List.mem_map.1 he
    obtain ⟨ha32, ham⟩ := mem_lanesOf.1 ha
    simp only [Function.comp] at hk
    obtain ⟨h1, h2⟩ := (vreg_place ha32 hl).1 hk
    subst h1; subst h2
    exact h ⟨rfl, ham⟩

/-- A write of one vector register: only that register's written lanes change, and perhaps the saddlebag. -/
theorem State.writeV_room {s : State} {sid d n : Nat} {m : Mask} {f : Nat → Word} {z : Str} {t : Troop} {k : Nat}
    (hz : s.str? sid = some z) (ht : s.troop? z.tid = some t) (hr : Room z t (k + 1)) :
    ∃ z', s.writeV sid d n ((lanesOf m).map fun l => (l, f l)) = (s.updStr sid fun _ => z') ∧
      z' = { z with v := z'.v, bag := z'.bag } ∧ (t.depth = 0 → z'.bag = z.bag) ∧ Room z' t k ∧
      ∀ r l, l < 32 → z'.vreg r l = if r = n ∧ m.getLsbD l = true then f l else z.vreg r l := by
  by_cases he : lanesOf m = []
  · refine ⟨z, ?_, rfl, fun _ => rfl, room_mono hr, ?_⟩
    · simp [State.writeV, he, State.updStr_self hz]
    · intro r l hl
      simp [getLsbD_of_lanesOf_nil he hl]
  obtain ⟨bag, h1, h2, h3⟩ := State.record_room (d := d) (key := .v n) (prior := (·.vall n)) hz ht hr
  refine ⟨({ z with bag := bag } : Str).putV n ((lanesOf m).map fun l => (l, f l)), ?_, rfl, h2, h3, ?_⟩
  · rw [State.writeV, if_neg (by simpa using he), h1, State.updStr_updStr hz (fun _ => { z with bag := bag })]
    rfl
  · intro r l hl
    rw [Str.vreg_putV _ _ _ _ _ _ hl]
    rfl

/-- A write of an operand: one register or a pair, for the lanes of a mask. -/
theorem State.writeVal_room {s : State} {sid d n : Nat} {m : Mask} {td : Ty} {f : Nat → Nat} {z : Str} {t : Troop}
    (hz : s.str? sid = some z) (ht : s.troop? z.tid = some t) (hr : Room z t 2) :
    ∃ z', s.writeVal sid d td n ((lanesOf m).map fun l => (l, f l)) = (s.updStr sid fun _ => z') ∧
      z' = { z with v := z'.v, bag := z'.bag } ∧ (t.depth = 0 → z'.bag = z.bag) ∧
      ∀ r l, l < 32 → z'.vreg r l = if m.getLsbD l = true then (oneDest td n (f l) r).getD (z.vreg r l) else z.vreg r l := by
  obtain ⟨z1, e1, k1, b1, r1, v1⟩ := State.writeV_room (d := d) (n := n) (m := m) (f := fun l => BitVec.ofNat 32 (f l)) hz ht hr
  simp only [State.writeVal, List.map_map, Function.comp_def]
  rw [e1]
  by_cases hw : td.wide = true
  · rw [if_pos hw]
    have hz1 : (s.updStr sid fun _ => z1).str? sid = some z1 := State.str?_updStr hz (fun _ => z1) (by rw [k1])
    have ht1 : (s.updStr sid fun _ => z1).troop? z1.tid = some t := by rw [k1]; exact ht
    obtain ⟨z2, e2, k2, b2, -, v2⟩ := State.writeV_room (d := d) (n := n + 1) (m := m)
      (f := fun l => BitVec.ofNat 32 (f l >>> 32)) hz1 ht1 r1
    rw [e2, State.updStr_updStr hz (fun _ => z1) _ (by rw [k1])]
    refine ⟨z2, rfl, ?_, fun h => (b2 h).trans (b1 h), ?_⟩
    · rw [k2, k1]
    · intro r l hl
      rw [v2 r l hl, v1 r l hl]
      by_cases hm : m.getLsbD l = true
      · by_cases h1 : r = n + 1
        · subst h1; simp [hm, oneDest, hw, Nat.shiftRight_eq_div_pow]
        · by_cases h2 : r = n
          · subst h2; simp [hm, oneDest]
          · simp [h1, h2, hm, oneDest]
      · simp [hm]
  · rw [if_neg hw]
    refine ⟨z1, rfl, k1, b1, ?_⟩
    intro r l hl
    rw [v1 r l hl]
    by_cases hm : m.getLsbD l = true
    · by_cases h2 : r = n
      · subst h2; simp [hm, oneDest]
      · simp [h2, hm, oneDest, hw]
    · simp [hm]

/-- A write of several registers in a row, for the lanes of a mask. -/
theorem State.writeRange_room {c : Cur} {zr : Str} {d n : Nat} {f : Nat → List Nat} {t : Troop} (k : Nat) :
    ∀ (s : State) (z : Str), s.str? c.sid = some z → s.troop? z.tid = some t → Room z t (n + k) →
    (∀ l ∈ lanesOf c.parts, (f l).length = n) →
    ∃ z', s.writeRange c zr d ((lanesOf c.parts).map fun l => (l, f l)) n = (s.updStr c.sid fun _ => z') ∧
      z' = { z with v := z'.v, bag := z'.bag } ∧ (t.depth = 0 → z'.bag = z.bag) ∧ Room z' t k ∧
      ∀ r l, l < 32 → z'.vreg r l =
        if c.parts.getLsbD l = true then (rangeDest d (f l) r).getD (z.vreg r l) else z.vreg r l := by
  suffices H : ∀ (j k : Nat) (s : State) (z : Str), s.str? c.sid = some z → s.troop? z.tid = some t → Room z t (j + k) →
      ∃ z', ((List.range j).foldl (fun s i => s.writeV c.sid (s.depthOf zr) (d + i)
          (((lanesOf c.parts).map fun l => (l, f l)).map fun r => (r.1, BitVec.ofNat 32 (r.2.getD i 0)))) s) =
            (s.updStr c.sid fun _ => z') ∧
        z' = { z with v := z'.v, bag := z'.bag } ∧ (t.depth = 0 → z'.bag = z.bag) ∧ Room z' t k ∧
        ∀ r l, l < 32 → z'.vreg r l = if c.parts.getLsbD l = true ∧ d ≤ r ∧ r < d + j then
          BitVec.ofNat 32 ((f l).getD (r - d) 0) else z.vreg r l by
    intro s z hz ht hr hlen
    obtain ⟨z', e, kz, b, hr', v⟩ := H n k s z hz ht hr
    refine ⟨z', e, kz, b, hr', ?_⟩
    intro r l hl
    rw [v r l hl]
    by_cases hm : c.parts.getLsbD l = true
    · have hn := hlen l (mem_lanesOf.2 ⟨hl, hm⟩)
      by_cases h1 : d ≤ r
      · by_cases h2 : r < d + n
        · have h3 : r - d < (f l).length := by omega
          simp [hm, h1, h2, rangeDest, List.getElem?_eq_getElem h3]
        · have h3 : ¬ r - d < (f l).length := by omega
          simp [hm, h1, h2, rangeDest, List.getElem?_eq_none (Nat.le_of_not_lt h3)]
      · simp [hm, h1, rangeDest]
    · simp [hm]
  intro j
  induction j with
  | zero =>
    intro k s z hz _ hr
    refine ⟨z, (State.updStr_self hz).symm, rfl, fun _ => rfl, by simpa using hr, ?_⟩
    intro r l _
    rw [if_neg (by omega)]
  | succ j ih =>
    intro k s z hz ht hr
    obtain ⟨z1, e1, k1, b1, r1, v1⟩ := ih (k + 1) s z hz ht (by rw [show j + (k + 1) = j + 1 + k by omega]; exact hr)
    have hz1 : (s.updStr c.sid fun _ => z1).str? c.sid = some z1 := State.str?_updStr hz (fun _ => z1) (by rw [k1])
    have ht1 : (s.updStr c.sid fun _ => z1).troop? z1.tid = some t := by rw [k1]; exact ht
    obtain ⟨z2, e2, k2, b2, r2, v2⟩ := State.writeV_room
      (d := (s.updStr c.sid fun _ => z1).depthOf zr) (n := d + j) (m := c.parts)
      (f := fun l => BitVec.ofNat 32 ((f l).getD j 0)) hz1 ht1 r1
    refine ⟨z2, ?_, by rw [k2, k1], fun h => (b2 h).trans (b1 h), r2, ?_⟩
    · rw [List.range_succ, List.foldl_append, e1]
      simp only [List.foldl_cons, List.foldl_nil, List.map_map, Function.comp_def]
      rw [e2, State.updStr_updStr hz (fun _ => z1) _ (by rw [k1])]
    · intro r l hl
      rw [v2 r l hl, v1 r l hl]
      by_cases hm : c.parts.getLsbD l = true
      · by_cases h1 : r = d + j
        · subst h1; simp [hm]
        · by_cases h2 : d ≤ r <;> by_cases h3 : r < d + j
          · have : r < d + (j + 1) := by omega
            simp [hm, h1, h2, h3, this]
          · have : ¬ r < d + (j + 1) := by omega
            simp [hm, h1, h2, h3, this]
          · simp [hm, h1, h2]
          · omega
      · simp [hm]

/-! ### The other register classes -/

/-- A write of a predicate register; a write of p7 changes nothing (R28). -/
theorem State.writeP_room {s : State} {sid d n : Nat} {m : Mask} {f : Nat → Bool} {z : Str} {t : Troop} {k : Nat}
    (hz : s.str? sid = some z) (ht : s.troop? z.tid = some t) (hr : Room z t (k + 1)) :
    ∃ z', s.writeP sid d n ((lanesOf m).map fun l => (l, f l)) = (s.updStr sid fun _ => z') ∧
      z' = { z with p := z'.p, bag := z'.bag } ∧ (t.depth = 0 → z'.bag = z.bag) ∧
      ∀ r l, l < 32 → z'.preg r l = if r = n ∧ r ≠ 7 ∧ m.getLsbD l = true then f l else z.preg r l := by
  by_cases hn : n = 7
  · refine ⟨z, ?_, rfl, fun _ => rfl, ?_⟩
    · simp [State.writeP, hn, State.updStr_self hz]
    · intro r l _
      rw [if_neg]
      rintro ⟨h1, h2, _⟩; exact h2 (h1.trans hn)
  by_cases he : lanesOf m = []
  · refine ⟨z, ?_, rfl, fun _ => rfl, ?_⟩
    · simp [State.writeP, he, State.updStr_self hz]
    · intro r l hl
      simp [getLsbD_of_lanesOf_nil he hl]
  · obtain ⟨bag, h1, h2, h3⟩ := State.record_room (d := d) (key := .p n)
      (prior := fun z => [(Cells.get 0 z.p n).toNat]) hz ht hr
    refine ⟨{ ({ z with bag := bag } : Str) with p := Cells.set 0 z.p n (((lanesOf m).map fun l => (l, f l)).foldl
        (fun m (l, b) => if b then m ||| (1#32 <<< l) else m &&& ~~~(1#32 <<< l)) (Cells.get 0 z.p n)) }, ?_, rfl, h2, ?_⟩
    · rw [State.writeP, if_neg (by simp [hn, he]), h1, State.updStr_updStr hz (fun _ => { z with bag := bag })]
      rfl
    · intro r l hl
      have bits : ∀ (ls : List Nat) (w : Mask), (∀ x ∈ ls, x < 32) → ((ls.map fun l => (l, f l)).foldl
          (fun m (l, b) => if b then m ||| (1#32 <<< l) else m &&& ~~~(1#32 <<< l)) w).getLsbD l =
            if l ∈ ls then f l else w.getLsbD l := by
        intro ls
        induction ls with
        | nil => intro w _; rfl
        | cons x xs ih =>
          intro w hx
          have hx32 : x < 32 := hx x (by simp)
          rw [List.map_cons, List.foldl_cons, ih _ fun y hy => hx y (by simp [hy])]
          by_cases hmem : l ∈ xs
          · simp [hmem]
          · by_cases hxl : l = x
            · subst hxl
              cases hf : f l <;> simp [hmem, hl]
            · have hs : (1#32 <<< x).getLsbD l = false := by
                rw [BitVec.getLsbD_shiftLeft]
                by_cases hlt : l < x
                · simp [hlt]
                · have : l - x ≠ 0 := by omega
                  simp [this]
              have hs' : (~~~(1#32 <<< x)).getLsbD l = true := by
                rw [BitVec.getLsbD_not, hs]; simp [hl]
              cases hf : f x
              · simp only [Bool.false_eq_true, if_false]
                rw [BitVec.getLsbD_and, hs']
                simp [hmem, hxl]
              · simp only [if_true]
                rw [BitVec.getLsbD_or, hs]
                simp [hmem, hxl]
      have hb := bits (lanesOf m) (Cells.get 0 z.p n) fun x hx => (mem_lanesOf.1 hx).1
      by_cases hrn : r = n
      · subst hrn
        simp only [Str.preg, Cells.get_set, if_true]
        rw [hb]
        have h7 : (r == 7) = false := by simpa using hn
        by_cases hm : m.getLsbD l = true
        · simp [mem_lanesOf, hl, hm, h7, hn]
        · simp [mem_lanesOf, hm]
      · simp [Str.preg, Cells.get_set, hrn]

/-- A write of a scalar register. -/
theorem State.writeS_room {s : State} {sid d n : Nat} {x : Dword} {z : Str} {t : Troop} {k : Nat}
    (hz : s.str? sid = some z) (ht : s.troop? z.tid = some t) (hr : Room z t (k + 1)) :
    ∃ z', s.writeS sid d n x = (s.updStr sid fun _ => z') ∧ z' = { z with s := z'.s, bag := z'.bag } ∧
      (t.depth = 0 → z'.bag = z.bag) ∧ Room z' t k ∧ ∀ r, z'.sreg r = if r = n then x else z.sreg r := by
  obtain ⟨bag, h1, h2, h3⟩ := State.record_room (d := d) (key := .s n) (prior := fun z => [(z.sreg n).toNat]) hz ht hr
  refine ⟨{ ({ z with bag := bag } : Str) with s := Cells.set 0 z.s n x }, ?_, rfl, h2, h3, ?_⟩
  · rw [State.writeS, h1, State.updStr_updStr hz (fun _ => { z with bag := bag }) _ rfl]
  · intro r
    simp only [Str.sreg, Cells.get_set]

/-- Flags change only FPFLAGS (R33). -/
theorem State.orFlags_eq {s : State} {sid : Nat} {f : Flags} {z : Str} (hz : s.str? sid = some z) :
    s.orFlags sid f = s.updStr sid fun _ => { z with fpflags := z.fpflags ||| f.setWidth 32 } :=
  State.updStr_const hz _

@[simp] theorem or_noFlags (x : Word) : x ||| (0 : Flags).setWidth 32 = x := by simp

/-! ### From the effect to the statement -/

/-- An instruction whose effect leaves the machine in a state that differs in its string alone has that effect. -/
theorem exec_of_body {i : Instr} {body : State → Cur → Str → Troop → State}
    (hx : ∀ s, exec i s = s.issue i noCheck (body s)) {s : State} {c : Cur} {z : Str} {t : Troop} (h : Issues s i c z t)
    (ho : t.overflow = false) {z' : Str} (hb : body s c z t = s.updStr c.sid fun _ => z') :
    exec i s = .next (s.updStr c.sid fun _ => z') := by
  rw [hx, State.issue_done (t' := t) h noCheck (body s) rfl (by rw [hb, State.troop?_updStr]; exact issues_tid h) ho, hb]

/-- The end of a floating-point instruction that traps on nothing: the flags, then a write of an operand. -/
theorem VResult.of_flags {i : Instr} {td : Ty} {d : Byte} {pre : Cur → Str → Troop → Prop} {flags : Cur → Str → Troop → Flags}
    {val : Cur → Str → Troop → Nat → Nat} {body : State → Cur → Str → Troop → State}
    (hx : ∀ s, exec i s = s.issue i noCheck (body s))
    (hb : ∀ s c z t, s.str? c.sid = some z → pre c z t → flags c z t &&& z.enabled = 0 →
      body s c z t = (s.orFlags c.sid (flags c z t)).writeVal c.sid ((s.orFlags c.sid (flags c z t)).depthOf z) td d.toNat
        (c.lanes.map fun l => (l, val c z t l))) :
    VResult i 2 pre flags fun c z t n l => oneDest td d.toNat (val c z t l) n := by
  intro s c z t h hr hp hf
  have e := hb s c z t h.str hp hf
  rw [State.orFlags_eq h.str] at e
  have hz1 : (s.updStr c.sid fun _ => { z with fpflags := z.fpflags ||| (flags c z t).setWidth 32 }).str? c.sid =
      some { z with fpflags := z.fpflags ||| (flags c z t).setWidth 32 } :=
    State.str?_updStr h.str (fun _ => { z with fpflags := z.fpflags ||| (flags c z t).setWidth 32 }) rfl
  obtain ⟨z', e1, k1, b1, v1⟩ := State.writeVal_room (n := d.toNat) (td := td) (m := c.parts) (f := val c z t)
    (d := (s.updStr c.sid fun _ => { z with fpflags := z.fpflags ||| (flags c z t).setWidth 32 }).depthOf z)
    hz1 (t := t) h.troop hr
  rw [Cur.lanes, e1, State.updStr_updStr h.str (fun _ => { z with fpflags := z.fpflags ||| (flags c z t).setWidth 32 }) _ rfl] at e
  refine ⟨z', exec_of_body hx h hr.1 e, ⟨?_, b1⟩, v1⟩
  rw [k1]

/-- A write of an operand, without flags. -/
theorem VResult.of_putLanes {i : Instr} {td : Ty} {d : Byte} {pre : Cur → Str → Troop → Prop}
    {val : Cur → Str → Troop → Nat → Nat} {body : State → Cur → Str → Troop → State}
    (hx : ∀ s, exec i s = s.issue i noCheck (body s))
    (hb : ∀ s c z t, pre c z t → body s c z t = s.putLanes c z td d (val c z t)) :
    VResult i 2 pre (fun _ _ _ => 0) fun c z t n l => oneDest td d.toNat (val c z t l) n := by
  refine VResult.of_flags hx ?_
  intro s c z t hz hp _
  have : s.orFlags c.sid (0 : Flags) = s := by
    rw [State.orFlags_eq hz]; simp only [or_noFlags]; exact State.updStr_self hz
  rw [hb s c z t hp, this]
  rfl

theorem IntResult.of {i : Instr} {td : Ty} {d : Byte} {val : Cur → Str → Nat → Nat}
    (hx : ∀ s, exec i s = s.issue i noCheck fun c z _ => s.putLanes c z td d (val c z)) : IntResult i td d val :=
  VResult.of_putLanes (val := fun c z _ => val c z) hx fun _ _ _ _ _ => rfl

theorem PResult.of {i : Instr} {d : Byte} {flags : Cur → Str → Flags} {val : Cur → Str → Nat → Bool}
    {body : State → Cur → Str → Troop → State} (hx : ∀ s, exec i s = s.issue i noCheck (body s))
    (hb : ∀ s c z t, s.str? c.sid = some z → flags c z &&& z.enabled = 0 →
      body s c z t = (s.orFlags c.sid (flags c z)).writeP c.sid ((s.orFlags c.sid (flags c z)).depthOf z) d.toNat
        (c.lanes.map fun l => (l, val c z l))) : PResult i d flags val := by
  intro s c z t h hr hf
  have e := hb s c z t h.str hf
  rw [State.orFlags_eq h.str] at e
  have hz1 : (s.updStr c.sid fun _ => { z with fpflags := z.fpflags ||| (flags c z).setWidth 32 }).str? c.sid =
      some { z with fpflags := z.fpflags ||| (flags c z).setWidth 32 } :=
    State.str?_updStr h.str (fun _ => { z with fpflags := z.fpflags ||| (flags c z).setWidth 32 }) rfl
  obtain ⟨z', e1, k1, b1, v1⟩ := State.writeP_room (n := d.toNat) (m := c.parts) (f := val c z)
    (d := (s.updStr c.sid fun _ => { z with fpflags := z.fpflags ||| (flags c z).setWidth 32 }).depthOf z)
    hz1 (t := t) (k := 0) h.troop hr
  rw [Cur.lanes, e1, State.updStr_updStr h.str (fun _ => { z with fpflags := z.fpflags ||| (flags c z).setWidth 32 }) _ rfl] at e
  refine ⟨z', exec_of_body hx h hr.1 e, ⟨?_, b1⟩, v1⟩
  rw [k1]

theorem PResult.of_putPreds {i : Instr} {d : Byte} {val : Cur → Str → Nat → Bool}
    (hx : ∀ s, exec i s = s.issue i noCheck fun c z _ => s.putPreds c z d (val c z)) : PResult i d (fun _ _ => 0) val := by
  refine PResult.of hx ?_
  intro s c z t hz _
  have : s.orFlags c.sid (0 : Flags) = s := by
    rw [State.orFlags_eq hz]; simp only [or_noFlags]; exact State.updStr_self hz
  rw [this]
  rfl

theorem SResult.of {i : Instr} {d : Byte} {pre : State → Cur → Str → Troop → Prop} {val : State → Cur → Str → Troop → Dword}
    {body : State → Cur → Str → Troop → State} (hx : ∀ s, exec i s = s.issue i noCheck (body s))
    (hb : ∀ s c z t, s.troop? z.tid = some t → pre s c z t → body s c z t = s.putScalar c z d (val s c z t)) :
    SResult i d pre val := by
  intro s c z t h hr hp
  have e := hb s c z t h.troop hp
  by_cases hc : c.parts = 0
  · refine ⟨z, exec_of_body hx h hr.1 ?_, ⟨rfl, fun _ => rfl⟩, ?_⟩
    · rw [e, State.putScalar, if_pos hc]; exact (State.updStr_self h.str).symm
    · simp [hc]
  · obtain ⟨z', e1, k1, b1, -, v1⟩ := State.writeS_room (k := 0) (n := d.toNat) (x := val s c z t) (d := s.depthOf z)
      h.str h.troop hr
    refine ⟨z', exec_of_body hx h hr.1 ?_, ⟨k1, b1⟩, ?_⟩
    · rw [e, State.putScalar, if_neg hc, e1]
    · intro n; rw [v1]; simp only [ne_eq, hc, not_false_eq_true, and_true]

end Sys2Proof.Machine
end

