-- ==== Sys2Proof/Laws/Memory.lean ====
section
/-! SUPPORT. What the operations of memory do: they keep its canonical form, and a line's write changes the bytes that its mask names and
no other. -/

namespace Sys2Proof.Machine

/-! ### The canonical form -/

theorem setMemLine_wf (m : List Host.Cell) (line : Nat) (mask : Dword) (d : BitVec 512) (h : Memory.wf m = true) :
    Memory.wf (setMemLine m line mask d) = true := Cells.wf_setMany 0 _ m h

/-- Bytes of a canonical memory that are taken out leave it canonical. -/
theorem risesFrom_filter {β : Type} [DecidableEq β] (d : β) (p : Nat × β → Bool) (m : Cells β) (lo : Nat)
    (h : Cells.risesFrom d lo m = true) : Cells.risesFrom d lo (m.filter p) = true := by
  induction m generalizing lo with
  | nil => rfl
  | cons e m ih =>
    obtain ⟨k, v⟩ := e
    simp only [Cells.risesFrom, Bool.and_eq_true, decide_eq_true_eq] at h
    obtain ⟨⟨h1, h2⟩, h3⟩ := h
    rw [List.filter_cons]
    split
    · simp only [Cells.risesFrom, Bool.and_eq_true, decide_eq_true_eq]
      exact ⟨⟨h1, h2⟩, ih (k + 1) h3⟩
    · exact Cells.risesFrom_mono d (by omega) _ (ih (k + 1) h3)

theorem memFilter_wf (m : List Host.Cell) (p : Host.Cell → Bool) (h : Memory.wf m = true) : Memory.wf (m.filter p) = true :=
  risesFrom_filter 0 p m 0 h

theorem reset_wf : Memory.wf State.reset.mem = true := rfl

/-! ### A read of DRAM changes no byte -/

@[simp] theorem State.countErr_mem (s : State) (pad : Nat) (f : ErrCounters → ErrCounters) : (s.countErr pad f).mem = s.mem := rfl

@[simp] theorem State.listRow_mem (s : State) (line : Nat) : (s.listRow line).mem = s.mem := by
  unfold State.listRow
  dsimp only
  split
  · rfl
  · split <;> rfl

@[simp] theorem State.noteCorrected_mem (s : State) (line : Nat) : (s.noteCorrected line).mem = s.mem := by
  unfold State.noteCorrected
  dsimp only
  split
  · exact State.listRow_mem _ _
  · rfl

theorem State.readDram_mem (s : State) (pad line : Nat) : (s.readDram pad line).1.mem = s.mem := by
  unfold State.readDram
  split
  · rfl
  · split <;> simp

/-! ### The operations of the LLC keep the form -/

theorem State.dropLlc_wf (s : State) (line : Nat) (h : Memory.wf s.mem = true) : Memory.wf (s.dropLlc line).mem = true := by
  unfold State.dropLlc
  split
  · dsimp only
    split
    · exact setMemLine_wf _ _ _ _ h
    · exact h
  · exact h

theorem State.llcWay_wf (s : State) (line : Nat) (m : Half) (h : Memory.wf s.mem = true) :
    Memory.wf (s.llcWay line m).1.mem = true := by
  unfold State.llcWay
  dsimp only
  split
  · exact h
  · split
    · exact h
    · exact s.dropLlc_wf _ h
    · exact h

theorem State.llcWay_eq_wf (s s' : State) (line : Nat) (m : Half) (w : Option Nat) (e : s.llcWay line m = (s', w))
    (h : Memory.wf s.mem = true) : Memory.wf s'.mem = true := by
  have := s.llcWay_wf line m h
  rwa [e] at this

/-- A line allocated in the LLC may send another one back to DRAM; memory stays canonical. -/
theorem State.allocLlc_wf (s : State) (pad line pol part : Nat) (d : BitVec 512) (h : Memory.wf s.mem = true) :
    Memory.wf (s.allocLlc pad line pol part d).mem = true := by
  unfold State.allocLlc
  split
  · exact h
  · split
    · split
      · rename_i s' w e
        exact (show Memory.wf s'.mem = true from s.llcWay_eq_wf s' line _ _ e h)
      · rename_i s' e
        exact s.llcWay_eq_wf s' line _ _ e h
    · exact h

theorem State.readHome_wf (s : State) (pad line pol part : Nat) (h : Memory.wf s.mem = true) :
    Memory.wf (s.readHome pad line pol part).1.mem = true := by
  unfold State.readHome
  split
  · exact h
  split
  · exact h
  · have := s.readDram_mem pad line
    split
    · rename_i s' d he
      rw [he] at this
      exact s'.allocLlc_wf pad line pol part d (this ▸ h)
    · rename_i s' he
      rw [he] at this
      exact this ▸ h

/-! ### Writes keep the form -/

theorem State.writeHome_wf (s : State) (pad line pol part : Nat) (mask : Dword) (d : BitVec 512) (h : Memory.wf s.mem = true) :
    Memory.wf (s.writeHome pad line pol part mask d).1.mem = true := by
  unfold State.writeHome
  split
  · exact h
  split
  · exact h
  · split
    · exact State.allocLlc_wf _ pad line pol part d (setMemLine_wf s.mem line mask d h)
    · have := s.readDram_mem pad line
      split
      · rename_i s' old he
        rw [he] at this
        exact State.allocLlc_wf _ pad line pol part _ (setMemLine_wf s'.mem line mask d (this ▸ h))
      · rename_i s' he
        rw [he] at this
        exact this ▸ h

theorem State.zeroRegions_wf (s : State) (rs : List Region) (h : Memory.wf s.mem = true) : Memory.wf (s.zeroRegions rs).mem = true :=
  memFilter_wf _ _ h

theorem State.coldOk_wf (s : State) (bad : List Nat) (h : Memory.wf s.mem = true) : Memory.wf (s.coldOk bad).mem = true :=
  memFilter_wf _ _ h

theorem State.coldFail_wf (s : State) (h : Memory.wf s.mem = true) : Memory.wf s.coldFail.mem = true := memFilter_wf _ _ h

theorem State.withFetchWord_wf (s : State) (nbits w : Nat) (h : Memory.wf s.mem = true) :
    Memory.wf (s.withFetchWord nbits w).mem = true := Cells.wf_setMany 0 _ _ h

/-! ### What a write of a line changes -/

/-- A write of a line leaves every byte of another line alone. -/
theorem setMemLine_other (m : List Host.Cell) (line : Nat) (mask : Dword) (d : BitVec 512) (a : Nat) (h : a / 64 ≠ line) :
    Cells.get 0 (setMemLine m line mask d) a = Cells.get 0 m a := by
  apply Cells.get_setMany_of_not_mem
  intro e he
  simp only [List.mem_map] at he
  obtain ⟨i, hi, rfl⟩ := he
  have : i < 64 := by
    simp only [maskBytes, List.mem_filter, List.mem_range] at hi
    exact hi.1
  simp only
  omega

/-- A byte of the line that the mask does not name stays. -/
theorem setMemLine_unmasked (m : List Host.Cell) (line : Nat) (mask : Dword) (d : BitVec 512) (i : Nat)
    (hm : mask.getLsbD i = false) : Cells.get 0 (setMemLine m line mask d) (64 * line + i) = Cells.get 0 m (64 * line + i) := by
  apply Cells.get_setMany_of_not_mem
  intro e he
  simp only [List.mem_map] at he
  obtain ⟨j, hj, rfl⟩ := he
  simp only [maskBytes, List.mem_filter] at hj
  intro h
  have : j = i := by simp only at h; omega
  rw [this, hm] at hj
  exact absurd hj.2 (by simp)

/-- A byte of the line that the mask names takes its value. -/
theorem setMemLine_masked (m : List Host.Cell) (line : Nat) (mask : Dword) (d : BitVec 512) (i : Nat) (hi : i < 64)
    (hm : mask.getLsbD i = true) : Cells.get 0 (setMemLine m line mask d) (64 * line + i) = lineByte d i := by
  apply Cells.get_setMany_of_mem
  · exact List.mem_map.2 ⟨i, by simp [maskBytes, List.mem_filter, hi, hm], rfl⟩
  · rw [List.map_map]
    apply List.Nodup.map (f := fun i => 64 * line + i)
    · intro a b h; simpa using h
    · exact (List.nodup_range).filter _

end Sys2Proof.Machine
end

