-- ==== Sys2Proof/Laws/Traps.lean ====
section
/-! SUPPORT. What the shared operations of control do: a change of some lanes, a precise trap that is delivered, an operation that parks
its bundle, and the return from a trap. -/

namespace Sys2Proof.Machine

open Sys2Proof.Claims

/-! ### Lanes -/

theorem mapLanesFrom_getD (m : Mask) (f : Lane → Lane) (xs : List Lane) (k l : Nat) (h : l < xs.length) :
    (mapLanesFrom m f k xs).getD l {} = if m.getLsbD (k + l) then f (xs.getD l {}) else xs.getD l {} := by
  induction xs generalizing k l with
  | nil => simp at h
  | cons x xs ih =>
    cases l with
    | zero => simp [mapLanesFrom]
    | succ l =>
      simp only [mapLanesFrom, List.getD_cons_succ]
      rw [ih (k + 1) l (by simpa using h)]
      have : k + 1 + l = k + (l + 1) := by omega
      rw [this]

@[simp] theorem mapLanesFrom_length (m : Mask) (f : Lane → Lane) (xs : List Lane) (k : Nat) :
    (mapLanesFrom m f k xs).length = xs.length := by
  induction xs generalizing k with
  | nil => rfl
  | cons x xs ih => simp [mapLanesFrom, ih]

/-- A change of the lanes of a mask changes those lanes and no other. -/
theorem Str.lane_mapLanes (z : Str) (m : Mask) (f : Lane → Lane) (l : Nat) (h : l < z.lanes.length) :
    (z.mapLanes m f).lane l = if m.getLsbD l then f (z.lane l) else z.lane l := by
  have := mapLanesFrom_getD m f z.lanes 0 l h
  rw [Nat.zero_add] at this
  exact this

theorem Str.lanes_mapLanes (z : Str) (m : Mask) (f : Lane → Lane) :
    Lanes z (z.mapLanes m f) fun l x => if m.getLsbD l then f x else x :=
  ⟨mapLanesFrom_length m f z.lanes 0, fun l h => z.lane_mapLanes m f l h⟩

/-- An instruction that moves lanes and does nothing else. -/
theorem MovesLanes.of {i : Instr} {pre : State → Cur → Str → Troop → Prop} {m : Cur → Str → Mask} {f : Cur → Str → Lane → Lane}
    {body : State → Cur → Str → Troop → State} (hx : ∀ s, exec i s = s.issue i noCheck (body s))
    (hb : ∀ s c z t, s.str? c.sid = some z → pre s c z t → body s c z t = s.updStr c.sid fun z => z.mapLanes (m c z) (f c z)) :
    MovesLanes i pre fun c z l x => if (m c z).getLsbD l then f c z x else x := by
  intro s c z t h ho hp
  have e := hb s c z t h.str hp
  rw [State.updStr_const h.str] at e
  exact ⟨_, exec_of_body hx h ho e, rfl, z.lanes_mapLanes (m c z) (f c z)⟩

/-! ### Traps (R388, R391) -/

/-- A trap that is delivered changes the string as an entry to the handler does. -/
theorem State.raise_delivers {s : State} {c : Cur} {z : Str} {t : Troop} {cause : Cause} (hz : s.str? c.sid = some z)
    (ht : s.troop? z.tid = some t) (hd : Delivers c z t cause) :
    ∃ z', s.raise c cause = s.updStr c.sid (fun _ => z') ∧ Entered z z' c cause := by
  obtain ⟨h1, h2, h3, h4⟩ := hd
  have hk : s.depthOf z = t.depth := State.depthOf_eq ht
  have hr : (Decidable.decide (0 < s.depthOf z) && Decidable.decide (0 < s.depthOf z) && cause.routes) = false := by
    rcases h4 with h | h
    · simp [hk, h]
    · simp [h]
  have hs : z.sid = c.sid := State.str_sid hz
  refine ⟨{ z.mapLanes c.bundle (fun l => { l with trap := true, pc := addr56 z.trapBase, park := .none, settle := none }) with
            trapCause := BitVec.ofNat 32 cause.code, trapPc := dwordOf c.pc, trapNodePc := dwordOf 0, retPc := c.next }, ?_, ?_⟩
  · simp only [State.raise, hz, h1, h2, Bool.false_eq_true, if_false]
    unfold State.route
    dsimp only
    rw [hr]
    simp only [Bool.false_eq_true, if_false]
    unfold State.deliver
    rw [hs, hz]
    simp only [h3, if_false]
    exact State.updStr_const hz _
  · exact ⟨rfl, mapLanesFrom_length _ _ _ _, fun l hl => z.lane_mapLanes _ _ l hl⟩

/-- An instruction whose effect is to raise a cause traps. -/
theorem Traps.of {i : Instr} {pre : State → Cur → Str → Troop → Prop} {cause : Cause} {body : State → Cur → Str → Troop → State}
    (hx : ∀ s, exec i s = s.issue i noCheck (body s))
    (hb : ∀ s c z t, Issues s i c z t → pre s c z t → body s c z t = s.raise c cause) : Traps i pre cause := by
  intro s c z t h ho hd hp
  obtain ⟨z', e, k⟩ := State.raise_delivers h.str h.troop hd
  exact ⟨z', exec_of_body hx h ho ((hb s c z t h hp).trans e), k⟩

/-- A floating-point instruction whose end is `fpEnd` traps on an enabled flag (R84). -/
theorem FpTraps.of {i : Instr} {pre : Cur → Str → Troop → Prop} {flags : Cur → Str → Troop → Flags}
    {body : State → Cur → Str → Troop → State} (hx : ∀ s, exec i s = s.issue i noCheck (body s))
    (hb : ∀ s c z t, s.str? c.sid = some z → pre c z t → ∃ wr, body s c z t = s.fpEnd c z (flags c z t) wr) :
    FpTraps i pre flags := by
  refine ⟨?_, ?_⟩
  · intro s c z t h ho hd hp hf
    obtain ⟨w, e⟩ := hb s c z t h.str hp
    have hdef : c.defers z = false := by simp [Cur.defers, hd.1, hd.2.1]
    rw [State.fpEnd, if_neg hf, hdef, State.orFlags_eq h.str] at e
    simp only [Bool.false_eq_true, if_false] at e
    have hz1 : (s.updStr c.sid fun _ => { z with fpflags := z.fpflags ||| (flags c z t).setWidth 32 }).str? c.sid =
        some { z with fpflags := z.fpflags ||| (flags c z t).setWidth 32 } :=
      State.str?_updStr h.str (fun _ => { z with fpflags := z.fpflags ||| (flags c z t).setWidth 32 }) rfl
    obtain ⟨z', e1, k⟩ := State.raise_delivers (t := t) (cause := .fpException) hz1 (by
      rw [State.troop?_updStr]; exact h.troop) hd
    rw [e1, State.updStr_updStr h.str (fun _ => { z with fpflags := z.fpflags ||| (flags c z t).setWidth 32 }) _ rfl] at e
    exact ⟨z', exec_of_body hx h ho e, k⟩
  · intro s c z t h ho hc ht hp hf
    obtain ⟨w, e⟩ := hb s c z t h.str hp
    have hdef : c.defers z = true := by simp only [Cur.defers, hc, ht]; rfl
    have hr : s.raise c .fpException = { s with cur := some { c with verdict := .deferred } } := by
      simp only [State.raise, h.str, ht]
      rw [hc]
      rfl
    rw [State.fpEnd, if_neg hf, hdef, if_pos rfl, hr] at e
    have hk : (body s c z t).troop? t.tid = s.troop? t.tid := by rw [e]; rfl
    rw [hx, State.issue_done (t' := t) h noCheck (body s) rfl (hk.trans (issues_tid h)) ho, e]

/-- An element-wise floating-point instruction: its results, and its trap. -/
theorem FpResult.of {i : Instr} {td : Ty} {d : Byte} {val : Str → Nat → Nat → Nat × Flags}
    (hx : ∀ s, exec i s = s.issue i noCheck fun c z _ => s.fpLanes c z td d (val z)) : FpResult i td d val := by
  refine ⟨VResult.of_flags (val := fun _ z _ l => packElems td (td.elems.map fun e => (val z l e).1)) hx ?_, FpTraps.of hx ?_⟩
  · intro s c z t _ _ hf
    simp only [State.fpLanes, State.fpEnd, List.map_map, Function.comp_def]
    rw [if_pos hf]
  · intro s c z t _ _
    refine ⟨fun s => s.writeVal c.sid (s.depthOf z) td d.toNat
      ((c.lanes.map fun l => (l, td.elems.map (val z l))).map fun r => (r.1, packElems td (r.2.map (·.1)))), ?_⟩
    simp only [State.fpLanes, List.map_map, Function.comp_def]

/-- An instruction whose own check fails, or that is illegal, traps. -/
theorem raise_illegal {s : State} {i : Instr} {c : Cur} {z : Str} {t : Troop} {chk : Cur → Str → Troop → Bool}
    {body : Cur → Str → Troop → State} (hx : exec i s = s.issue i chk body) (hc : s.cur = some c) (hz : s.str? c.sid = some z)
    (ht : s.troop? z.tid = some t) (hd : Delivers c z t .illegalInstruction) (hl : (Machine.legal i c z && chk c z t) = false) :
    ∃ z', exec i s = .next (s.updStr c.sid fun _ => z') ∧ Entered z z' c .illegalInstruction := by
  obtain ⟨z', e, k⟩ := State.raise_delivers hz ht hd
  exact ⟨z', by rw [hx, State.issue_illegal hc hz ht chk body hl, e], k⟩

/-! ### Operations that park their bundle -/

/-- A parked operation joins those of the machine under the next id, and its bundle parks on it. -/
theorem State.startOp_eq {s : State} {c : Cur} {z : Str} (t : Troop) (hz : s.str? c.sid = some z) (kind : SysKind) (lvl : Level)
    (arg arg2 : Nat) :
    let op : SysOp :=
      { id := s.nextId, sid := c.sid, tid := t.tid, kind := kind, lvl := lvl, pc := c.pc, next := c.next, mask := c.bundle
        depth := t.depth, trap := c.trap, phase := .waiting, arg := arg, arg2 := arg2, cores := [], fault := none
        blocks := c.blocks, wasPref := z.pref == some c.pc }
    s.startOp c t kind lvl arg arg2 = { s with ops := s.ops ++ [op], nextId := s.nextId + 1 }.updStr c.sid fun _ =>
      z.mapLanes c.bundle fun x => { x with park := .op s.nextId } := by
  intro op
  have e : s.fresh.2.str? c.sid = some z := hz
  simp only [State.startOp, e]
  exact State.updStr_const (s := { s with ops := s.ops ++ [op], nextId := s.nextId + 1 }) (z := z) hz
    fun z => z.mapLanes c.bundle fun x => { x with park := .op s.nextId }

/-- The operation's record is the only one to go, and the lanes parked on it go on. -/
theorem State.endOp_eq {s : State} {op : SysOp} {z : Str} (hz : s.str? op.sid = some z) :
    s.endOp op = { s with ops := s.ops.filter (·.id != op.id) }.updStr op.sid fun _ => z.unpark (· == Park.op op.id) :=
  State.updStr_const (s := { s with ops := s.ops.filter (·.id != op.id) }) (z := z) hz _

/-- A trap return sends the lanes of its bundle to the return PC and leaves memory and the other strings alone (R395). -/
theorem State.trapReturn_eq {s : State} {sid : Nat} {z : Str} (hz : s.str? sid = some z) (g : Mask) :
    s.trapReturn sid g =
      s.updStr sid fun _ => (z.mapLanes g fun l => { l with trap := false, pc := z.retPc }).endTrapMode :=
  State.updStr_const hz _

end Sys2Proof.Machine
end

