-- ==== Sys2Proof/Tests/Slice0.lean ====
section
/-! SUPPORT. The model's own tests: words written out from the tables of R41 to R57 decode to the instructions they stand for, each check of
R58 refuses an ill-formed term, some single steps whose results the manual's examples give, and for each statement about the machine a
state that meets its hypotheses. -/

namespace Sys2Proof.Tests

set_option Elab.async false

open Sys2Proof Sys2Proof.Machine Sys2Proof.Claims

/-! ### Decoding -/

/-- Word 0 of opcodes 0x00 to 0x0F with D = 4 and A = 6, from the tables of R57. -/
def wordsControl : List (Word × (Operands → Instr) × Ty) :=
  [(0x00181000, .nop, .b32), (0x00181010, .jmpi, .b32), (0x00181019, .call, .f32), (0x00181020, .ret, .b32),
   (0x00181030, .yld, .b32), (0x00181038, .exit, .b32), (0x00181048, .tret, .b32), (0x58181050, .sread, .b32),
   (0x58181051, .sreadExt, .f32), (0x60181058, .swrite, .b32), (0x60181059, .swriteExt, .f32), (0x04181061, .waitv, .f32),
   (0x00181079, .tlbi, .f32), (0x04181079, .cflush, .f32), (0x08181079, .cinv, .f32)]

/-- Word 0 of opcodes 0x10 to 0x28 with D = 4 and A = 6, from the tables of R57. -/
def wordsInteger0 : List (Word × (Operands → Instr) × Ty) :=
  [(0x00181081, .iadd, .f32), (0x00181089, .isub, .f32), (0x00181099, .imad, .f32), (0x08181091, .imul, .f32),
   (0x001810A1, .imin, .f32), (0x041810A1, .imax, .f32), (0x081810A0, .iabs, .i32), (0x081810A1, .iabsExt, .f32),
   (0x001810A9, .and, .f32), (0x001810B1, .or, .f32), (0x001810B9, .xor, .f32), (0x001810C1, .shl, .f32),
   (0x001810C9, .shr, .f32), (0x001810D1, .sar, .f32), (0x001810D9, .rot, .f32), (0x001810E1, .bfx, .f32),
   (0x001810E9, .bfi, .f32), (0x001810F0, .popc, .b32), (0x041810F0, .clz, .b32), (0x081810F0, .ctz, .b32),
   (0x0C1810F0, .brev, .b32), (0x001810F1, .popcExt, .f32), (0x041810F1, .clzExt, .f32), (0x081810F1, .ctzExt, .f32),
   (0x0C1810F1, .brevExt, .f32), (0x141810F9, .isetp, .f32), (0x00181100, .mov, .b32), (0x00181101, .movExt, .f32),
   (0x00181111, .isel, .f32), (0x00181119, .pand, .f32)]

/-- Word 0 of opcodes 0x10 to 0x28 with D = 4 and A = 6, from the tables of R57. -/
def wordsInteger1 : List (Word × (Operands → Instr) × Ty) :=
  [(0x04181119, .por, .f32), (0x08181119, .pxor, .f32), (0x0C181118, .pnot, .b32), (0x0C181119, .pnotExt, .f32),
   (0x00181121, .adda, .f32), (0x00181129, .lea, .f32), (0x00181130, .vtos, .b32), (0x04181130, .stov, .b32),
   (0x00181131, .vtosExt, .f32), (0x04181131, .stovExt, .f32), (0x00181139, .sadd, .f32), (0x04181139, .ssub, .f32),
   (0x08181139, .sand, .f32), (0x0C181139, .sor, .f32), (0x10181139, .sshl, .f32), (0x14181139, .sshr, .f32),
   (0x18181139, .smul, .f32), (0x1C181139, .scmp, .f32), (0x00181141, .idiv, .f32), (0x04181141, .irem, .f32)]

/-- Word 0 of opcodes 0x30 to 0x4C with D = 4 and A = 6, from the tables of R57. -/
def wordsFloat0 : List (Word × (Operands → Instr) × Ty) :=
  [(0x00181181, .fadd, .f32), (0x00181189, .fsub, .f32), (0x00181191, .fmul, .f32), (0x00181199, .ffma, .f32),
   (0x001811A1, .fmin, .f32), (0x001811A9, .fmax, .f32), (0x1C1811B1, .fsetp, .f32), (0x001811B8, .frcp, .f32),
   (0x001811B9, .frcpExt, .f32), (0x001811C0, .frsq, .f32), (0x001811C1, .frsqExt, .f32), (0x001811C8, .fsqrt, .f32),
   (0x001811C9, .fsqrtExt, .f32), (0x001811D1, .fdiv, .f32), (0x001811D8, .fexp2, .f32), (0x041811D8, .flog2, .f32),
   (0x081811D8, .fsinp, .f32), (0x0C1811D8, .fcosp, .f32), (0x001811D9, .fexp2Ext, .f32), (0x041811D9, .flog2Ext, .f32),
   (0x081811D9, .fsinpExt, .f32), (0x0C1811D9, .fcospExt, .f32), (0x001811E0, .frnd, .f32), (0x001811E1, .frndExt, .f32),
   (0x001811E8, .fclass, .f32), (0x001811E9, .fclassExt, .f32), (0x001811F1, .fscale, .f32), (0x001811F8, .ffrx, .f32),
   (0x001811F9, .ffrxExt, .f32), (0x00181201, .cvt, .f32)]

/-- Word 0 of opcodes 0x30 to 0x4C with D = 4 and A = 6, from the tables of R57. -/
def wordsFloat1 : List (Word × (Operands → Instr) × Ty) :=
  [(0x00181209, .cvti, .f32), (0x00181211, .qnt, .f32), (0x00181219, .dqnt, .f32), (0x00181221, .pack, .f32),
   (0x00181229, .unpk, .f32), (0x0C181231, .shfl, .f32), (0x08181238, .vote, .b32), (0x08181239, .voteExt, .f32),
   (0x14181241, .lred, .f32), (0x14181249, .lscan, .f32), (0x00181250, .matchLanes, .b32),
   (0x00181251, .matchLanesExt, .f32), (0x00181258, .elect, .b32), (0x00181261, .cfma, .f32)]

/-- Word 0 of opcodes 0x50 to 0x6D with D = 4 and A = 6, from the tables of R57. -/
def wordsMemory : List (Word × (Operands → Instr) × Ty) :=
  [(0x00181281, .ld, .f32), (0x00181289, .st, .f32), (0x00181291, .lds, .f32), (0x00181299, .sts, .f32),
   (0x001812A1, .prfm, .f32), (0x001812A9, .brmk, .f32), (0x001812B1, .brld, .f32), (0x001812B9, .brq, .f32),
   (0x001812C1, .acq, .f32), (0x001812C9, .commit, .f32), (0x001812D1, .abort, .f32), (0x001812D9, .cqry, .f32),
   (0x081812E1, .cropen, .f32), (0x001812E9, .crclose, .f32), (0x001812F1, .radd, .f32), (0x001812F9, .ldts, .f32),
   (0x18181301, .atom, .f32), (0x00181309, .acas, .f32), (0x00181311, .afadd, .f32), (0x18181319, .atoms, .f32),
   (0x04181321, .bar, .f32), (0x00181329, .barv, .f32), (0x00181331, .bwait, .f32), (0x00181339, .bexp, .f32),
   (0x00181341, .bstat, .f32), (0x00181349, .cwait, .f32), (0x00181351, .acpy, .f32), (0x00181359, .acpy2, .f32),
   (0x00181361, .agath, .f32), (0x00181369, .acoll, .f32)]

/-- Word 0 of opcodes 0x70 to 0x7F with D = 4 and A = 6, from the tables of R57. -/
def wordsMatrix : List (Word × (Operands → Instr) × Ty) :=
  [(0x00181381, .mma, .f32), (0x00181389, .mmaj, .f32), (0x04181391, .mlease, .f32), (0x00181399, .tdef, .f32),
   (0x001813A1, .tidx, .f32), (0x001813A9, .tmul, .f32), (0x101813B1, .tew, .f32), (0x081813B9, .tred, .f32),
   (0x001813C1, .ttrn, .f32), (0x001813C9, .tqnt, .f32), (0x001813D1, .tforce, .f32), (0x001813D9, .tst, .f32),
   (0x001813E1, .twalk, .f32), (0x001813E9, .tdrop, .f32), (0x041813E9, .tstat, .f32), (0x001813F1, .spawn, .f32),
   (0x041813F1, .take, .f32), (0x081813F1, .done, .f32), (0x0C1813F1, .cancel, .f32), (0x101813F1, .tchk, .f32),
   (0x141813F1, .launch, .f32), (0x181813F1, .jwait, .f32), (0x001813FB, .ensure, .f32), (0x041813F8, .elseby, .b32),
   (0x081813F8, .elseerr, .b32), (0x0C1813F8, .accept, .b32), (0x101813F8, .reject, .b32), (0x141813F9, .tjoin, .f32),
   (0x181813F8, .tleave, .b32), (0x1C1813F8, .rstat, .b32)]

/-- The operands of such a word: those of the extended form come from a word 1 of TYPE f32, B = 8, C = 10, RM = rtz and NEGB, and from
the IMM32 0x20; a literal is 7. -/
def operandsOf (w0 : Word) (dflt : Ty) : Operands :=
  let o : Operands := { plain (lenOf w0) (fnOf w0) 4 6 dflt with settle := false }
  match lenOf w0 with
  | .one => o
  | .lit => { o with lit := 7 }
  | .ext => { o with b := 8, c := 10, ty := .f32, rm := .rtz, negb := true, imm := 0x20 }
  | .extLit => { o with b := 8, c := 10, ty := .f32, rm := .rtz, negb := true, imm := 0x20, lit := 7 }

/-- Every word of a table decodes, with its other words, to its instruction and leaves the byte after it. -/
def readsAll (ws : List (Word × (Operands → Instr) × Ty)) : Bool :=
  ws.all fun e =>
    let rest : List Word := match lenOf e.1 with
      | .one => []
      | .lit => [7, 0]
      | .ext => [0x022C0A08, 0x20]
      | .extLit => [0x022C0A08, 0x20, 7, 0]
    match decode ((e.1 :: rest).flatMap wordBytes ++ [0xAA]) with
    | .ok (i, [0xAA]) => i == e.2.1 (operandsOf e.1 e.2.2)
    | _ => false

theorem test_decode_wordsControl : readsAll wordsControl = true := by decide +kernel
theorem test_decode_wordsInteger0 : readsAll wordsInteger0 = true := by decide +kernel
theorem test_decode_wordsInteger1 : readsAll wordsInteger1 = true := by decide +kernel
theorem test_decode_wordsFloat0 : readsAll wordsFloat0 = true := by decide +kernel
theorem test_decode_wordsFloat1 : readsAll wordsFloat1 = true := by decide +kernel
theorem test_decode_wordsMemory : readsAll wordsMemory = true := by decide +kernel
theorem test_decode_wordsMatrix : readsAll wordsMatrix = true := by decide +kernel

/-- R46: OFF15 = −2, COND, PINV, PSEL 5, HINT unl, OPC 0x01, LEN 00. -/
theorem test_decode_bra : decode (wordBytes (0x7FFE#15 ++ 1#1 ++ 1#1 ++ 5#3 ++ 2#2 ++ 0x01#7 ++ 0#1 ++ 0#2)) =
    .ok (.bra { settle := false, cond := true, pinv := true, psel := 5, hint := .unl, off := 0x7FFE }, []) := rfl

/-- R46: the same with LEN 10 and SETTLE; its offset is the literal. -/
theorem test_decode_braLong :
    decode (([0#15 ++ 1#1 ++ 0#1 ++ 5#3 ++ 1#2 ++ 0x01#7 ++ 1#1 ++ 2#2, 0x00000010, 0xFFFFFFFF] : List Word).flatMap wordBytes) =
    .ok (.braLong { settle := true, cond := true, pinv := false, psel := 5, hint := .lk, off := 0xFFFFFFFF00000010 }, []) := rfl

/-- R47: PATTERN 0b101, PSEL 2, COUNT − 1 = 2, OPC 0x05. -/
theorem test_decode_pblk : decode (wordBytes (0#8 ++ 5#8 ++ 2#3 ++ 2#3 ++ 0x05#7 ++ 0#1 ++ 0#2)) =
    .ok (.pblk { settle := false, pattern := 5, psel := 2, cnt := 2 }, []) := rfl

/-- R45: IMM14 = 0x155, D = 9, and the opcodes of TRAP, BKPT, SCALL and MOVI. -/
theorem test_decode_imm : ([0x08#7, 0x0D#7, 0x0E#7, 0x21#7].map fun opc =>
      match decode (wordBytes (0x155#14 ++ 9#8 ++ opc ++ 1#1 ++ 0#2)) with | .ok (i, []) => some i | _ => none) =
    [some (.trap { settle := true, d := 9, imm := 0x155 }), some (.bkpt { settle := true, d := 9, imm := 0x155 }),
      some (.scall { settle := true, d := 9, imm := 0x155 }), some (.movi { settle := true, d := 9, imm := 0x155 })] := rfl

/-- R42, R50: LEN 11 holds the extended words and then the literal: IMAD (FN 0, A = 6, D = 4, OPC 0x13) with B = 8, TYPE i64. -/
theorem test_decode_literal :
    decode (([0#6 ++ 6#8 ++ 4#8 ++ 0x13#7 ++ 0#1 ++ 3#2, 0#1 ++ 0#3 ++ 0#5 ++ 0#2 ++ 5#5 ++ 0#8 ++ 8#8, 0, 5, 1] :
      List Word).flatMap wordBytes) = .ok (.imad { plain .extLit 0 4 6 .i64 with b := 8, lit := 0x100000005 }, []) := rfl

/-! ### Words that decode to no instruction (R58) -/

theorem test_refuse_short : decode [0x81, 0x14] = .error .short := rfl
theorem test_refuse_opcode : decode (wordBytes (0#22 ++ 0x6E#7 ++ 0#1 ++ 0#2)) = .error .reservedOpcode := rfl
theorem test_refuse_fn : decode (wordBytes (4#6 ++ 0#16 ++ 0x1E#7 ++ 0#1 ++ 0#2)) = .error .unassignedFn := rfl
theorem test_refuse_length : decode (wordBytes (0#22 ++ 0x10#7 ++ 0#1 ++ 0#2)) = .error .badLength := rfl
theorem test_refuse_type :
    decode (([0#22 ++ 0x10#7 ++ 0#1 ++ 1#2, 0#11 ++ 0x15#5 ++ 0#16, 0] : List Word).flatMap wordBytes) = .error .badType := rfl
theorem test_refuse_level :
    decode (([0#22 ++ 0x58#7 ++ 0#1 ++ 1#2, 0#1 ++ 6#3 ++ 0#28, 0] : List Word).flatMap wordBytes) = .error .badLevel := rfl
theorem test_refuse_reserved : decode (wordBytes (1#8 ++ 0#14 ++ 0x05#7 ++ 0#1 ++ 0#2)) = .error .reservedBits := rfl

/-! ### Ill-formed terms: one for each check (R29, R46 to R58) -/

/-- A well-formed IADD, which each of the next terms changes in one field. -/
def iaddOps : Operands := { plain .ext 0 4 6 .i32 with b := 8 }

theorem test_wf_iadd : (Instr.iadd iaddOps).wf = true := by decide
theorem test_wf_length : (Instr.iadd { iaddOps with len := .one }).wf = false := by decide
theorem test_wf_fn : (Instr.iadd { iaddOps with fn := 1 }).wf = false := by decide
theorem test_wf_type : (Instr.iadd { iaddOps with ty := .f32 }).wf = false := by decide
theorem test_wf_rm : (Instr.iadd { iaddOps with rm := .rup }).wf = false := by decide
theorem test_wf_neg : (Instr.iadd { iaddOps with nega := true }).wf = false := by decide
theorem test_wf_abs : (Instr.iadd { iaddOps with absa := true }).wf = false := by decide
theorem test_wf_spec : (Instr.iadd { iaddOps with spec := true }).wf = false := by decide
theorem test_wf_level : (Instr.iadd { iaddOps with level := .dev }).wf = false := by decide
theorem test_wf_imm : (Instr.iadd { iaddOps with imm := 1 }).wf = false := by decide
theorem test_wf_unused : (Instr.iadd { iaddOps with c := 1 }).wf = false := by decide
theorem test_wf_pair : (Instr.iadd { iaddOps with ty := .i64, d := 5 }).wf = false := by decide
theorem test_wf_sat : (Instr.and { iaddOps with ty := .b32, sat := true }).wf = false := by decide
theorem test_wf_literal : (Instr.iadd { plain .lit 0 4 6 .i32 with lit := 0x100000000 }).wf = false := by decide
theorem test_wf_implied : (Instr.mov { plain .one 0 4 6 .i32 with b := 0 }).wf = false := by decide
theorem test_wf_scalar : (Instr.sand { plain .ext 2 64 6 .i64 with b := 8 }).wf = false := by decide
theorem test_wf_predicate : (Instr.elect { plain .one 0 8 0 .b32 with b := 0 }).wf = false := by decide
theorem test_wf_record : (Instr.ld { plain .ext 0 4 6 .b32 with b := 16 }).wf = false := by decide
theorem test_wf_tile : (Instr.tdrop { plain .ext 0 0 16 .b32 with b := 0 }).wf = false := by decide
theorem test_wf_branch :
    (Instr.bra { settle := false, cond := false, pinv := false, psel := 1, hint := .none, off := 0 }).wf = false := by decide
theorem test_wf_branch_long :
    (Instr.braLong { settle := false, cond := false, pinv := false, psel := 0, hint := .lk, off := 0 }).wf = false := by decide
theorem test_wf_pattern : (Instr.pblk { settle := false, pattern := 4, psel := 0, cnt := 1 }).wf = false := by decide
theorem test_wf_trap : (Instr.trap { settle := false, d := 1, imm := 0 }).wf = false := by decide
/-- R29: registers from the string's budget up are illegal, which depends on the string. -/
theorem test_wf_budget : (Instr.iadd { iaddOps with d := 64 }).budgetOk 64 = false := by decide

/-! ### States -/

/-- A string of 32 lanes with a handler, whose registers hold what is given for lane 0, in rising order of the registers. -/
def str0 (v : List (Nat × Word)) : Str :=
  { sid := 2, tid := 1, idx := 0, core := 0, slice := 0, slot := 0, budget := 256, lanes := List.replicate 32 { pc := 0x1000 }
    v := v.map fun e => (32 * e.1, e.2), trapBase := 0x8000 }

def z0 : Str := str0 []

def t0 : Troop :=
  { tid := 1, launch := 3, pad := 0, secure := false, super := false, linear := 0, core := 0, slot := 0, nstr := 1, prod := 0
    joint := 0, prio := 0, lease := 0, finLvl := .dev, scratchSize := 16384, bufQ := 64, stq := 8, bagRows := 4 }

/-- Lane 0 of the string is the bundle, and takes part. -/
def c0 : Cur := { sid := 2, bundle := 1, parts := 1, pc := 0x1000, next := 0x100C, trap := false, super := false }

/-- A state in which an instruction of one string of one troop is being executed. -/
def machine (c : Cur) (z : Str) (t : Troop) (u : State) : State := { u with cur := some c, strs := [z], troops := [t], nextId := 9 }

def s0 : State := machine c0 z0 t0 {}

theorem issues {i : Instr} {c : Cur} {z : Str} {t : Troop} {u : State} (hl : legal i c z = true) (hz : z.sid = c.sid)
    (ht : t.tid = z.tid) : Issues (machine c z t u) i c z t :=
  ⟨rfl, by simp [State.str?, machine, hz], by simp [State.troop?, machine, ht], hl⟩

theorem delivers (cause : Cause) : Delivers c0 z0 t0 cause := ⟨rfl, rfl, by decide, .inl rfl⟩

theorem room (v : List (Nat × Word)) (k : Nat) : Room (str0 v) t0 k := ⟨rfl, .inl rfl⟩

/-- The operands of an extended form. -/
def opnd (fn : BitVec 6) (d a b : Byte) (ty : Ty) : Operands := { plain .ext fn d a ty with b := b }

/-! ### Single steps with results from the manual's examples -/

/-- Register `n` of lane 0, and FPFLAGS, after an instruction. -/
def after (i : Instr) (v : List (Nat × Word)) (n : Nat) : Option (Word × Word) :=
  match exec i (machine c0 (str0 v) t0 {}) with
  | .next s => (s.str? 2).map fun z => (z.vreg n 0, z.fpflags)
  | _ => none

/-- Example 4.1. -/
theorem test_iadd_i8 : after (.iadd (opnd 0 4 6 8 .i8)) [(6, 0x70), (8, 0x20)] 4 = some (0xFFFFFF90, 0) := by decide +kernel
theorem test_iadd_i8_sat :
    after (.iadd { opnd 0 4 6 8 .i8 with sat := true }) [(6, 0x70), (8, 0x20)] 4 = some (0x7F, 0) := by decide +kernel
theorem test_imul_hi_n32 :
    after (.imul (opnd 1 4 6 8 .n32)) [(6, 0xFFFFFFFF), (8, 0xFFFFFFFF)] 4 = some (0xFFFFFFFE, 0) := by decide +kernel
theorem test_imul_hi_i32 : after (.imul (opnd 1 4 6 8 .i32)) [(6, 0xFFFFFFFF), (8, 0xFFFFFFFF)] 4 = some (0, 0) := by decide +kernel
theorem test_idiv : after (.idiv (opnd 0 4 6 8 .i32)) [(6, 7), (8, 0xFFFFFFFE)] 4 = some (0xFFFFFFFD, 0) := by decide +kernel
theorem test_irem : after (.irem (opnd 1 4 6 8 .i32)) [(6, 7), (8, 0xFFFFFFFE)] 4 = some (1, 0) := by decide +kernel
theorem test_idiv_zero : after (.idiv (opnd 0 4 6 8 .i32)) [(6, 7)] 4 = some (0xFFFFFFFF, 0) := by decide +kernel
theorem test_idiv_sat :
    after (.idiv { opnd 0 4 6 8 .i32 with sat := true }) [(6, 0x80000000), (8, 0xFFFFFFFF)] 4 = some (0x7FFFFFFF, 0) := by
  decide +kernel
theorem test_bfx :
    after (.bfx { opnd 0 4 6 8 .i32 with c := 10 }) [(6, 0xF50), (8, 4), (10, 8)] 4 = some (0xFFFFFFF5, 0) := by decide +kernel
theorem test_shr : after (.shr (opnd 0 4 6 8 .b32)) [(6, 0x80000001), (8, 40)] 4 = some (0, 0) := by decide +kernel
theorem test_rot : after (.rot (opnd 0 4 6 8 .b32)) [(6, 0x80000001), (8, 36)] 4 = some (0x18, 0) := by decide +kernel

/-- Example 5.1: FPFLAGS holds NV, DZ, OF, UF and NX from bit 0 up (R33). -/
theorem test_fadd_overflow : after (.fadd (opnd 0 4 6 8 .f16)) [(6, 0x7BFF), (8, 0x4C00)] 4 = some (0x7C00, 0x14) := by decide +kernel
theorem test_fadd_rtz :
    after (.fadd { opnd 0 4 6 8 .f16 with rm := .rtz }) [(6, 0x7BFF), (8, 0x4C00)] 4 = some (0x7BFF, 0x10) := by decide +kernel
theorem test_ffma :
    after (.ffma { opnd 0 4 6 8 .f32 with c := 10 }) [(6, 0x3F800001), (8, 0x3F800001), (10, 0xBF800002)] 4 =
      some (0x28800000, 0) := by decide +kernel
theorem test_fdiv_zero : after (.fdiv (opnd 0 4 6 8 .f32)) [(6, 0x3F800000)] 4 = some (0x7F800000, 2) := by decide +kernel
theorem test_fmin_signalling :
    after (.fmin (opnd 0 4 6 8 .f32)) [(6, 0x7F800001), (8, 0x40000000)] 4 = some (0x40000000, 1) := by decide +kernel

/-- Example 5.2. -/
theorem test_cvt_bf16 : after (.cvt { opnd 0 4 6 0 .bf16 with c := 12 }) [(6, 0x3F808000)] 4 = some (0x3F80, 0x10) := by decide +kernel
theorem test_cvti : after (.cvti { opnd 0 4 6 0 .i32 with c := 12, rm := .rdn }) [(6, 0xC0200000)] 4 = some (0xFFFFFFFD, 0x10) := by
  decide +kernel

/-! ### States that meet the hypotheses of the statements -/

theorem issueAll {c : Cur} {z : Str} {t : Troop} {u : State} (hz : z.sid = c.sid) (ht : t.tid = z.tid) (is : List Instr)
    (h : is.all (fun i => legal i c z) = true) : ∀ i ∈ is, Issues (machine c z t u) i c z t :=
  fun i hi => issues (List.all_eq_true.1 h i hi) hz ht

/-- Operands of the shapes that most instructions share. -/
def oi : Operands := opnd 0 4 6 8 .i32
def ol : Operands := opnd 0 4 6 8 .i64
def ob : Operands := opnd 0 4 6 8 .b32
def of : Operands := opnd 0 4 6 8 .f32
def one (fn : BitVec 6) (d a : Byte) (ty : Ty) : Operands := plain .one fn d a ty
def fnOp (o : Operands) (fn : BitVec 6) : Operands := { o with fn := fn }
def un (fn : BitVec 6) (ty : Ty) : Operands := opnd fn 4 6 0 ty
def zt (o : Operands) : Operands := { o with spec := true }

/-- IDIV and IREM: no zero divisor, with the trap asked for or not, and a zero divisor with it asked for. -/
theorem witness_IntegerArithmetic :
    (∀ i ∈ [Instr.iadd oi, .isub oi, .imul oi, .imul (fnOp oi 1), .imul (fnOp oi 2), .imad oi, .imin oi, .imax (fnOp oi 1),
      .iabs (one 2 4 6 .i32), .iabsExt (un 2 .i32), .idiv oi, .irem (fnOp oi 1), .idiv (zt oi), .irem (zt (fnOp oi 1))],
      Issues s0 i c0 z0 t0) ∧ Room z0 t0 2 ∧ zeroDivisor c0 z0 oi = false ∧ zeroDivisor c0 (str0 [(8, 1)]) (zt oi) = false ∧
    Issues (machine c0 (str0 [(8, 1)]) t0 {}) (.idiv (zt oi)) c0 (str0 [(8, 1)]) t0 ∧ zeroDivisor c0 z0 (zt oi) = true ∧
    Delivers c0 z0 t0 .intDivideZero :=
  ⟨issueAll rfl rfl _ (by decide), room [] 2, by decide, by decide, issues (by decide) rfl rfl, by decide, delivers _⟩

theorem witness_BitInstructions :
    (∀ i ∈ [Instr.and ob, .or ob, .xor ob, .shl ob, .shr ob, .sar ob, .rot ob, .bfx ob, .bfi ob, .popc (one 0 4 6 .b32),
      .popcExt (un 0 .b32), .clz (one 1 4 6 .b32), .clzExt (un 1 .b32), .ctz (one 2 4 6 .b32), .ctzExt (un 2 .b32),
      .brev (one 3 4 6 .b32), .brevExt (un 3 .b32)], Issues s0 i c0 z0 t0) ∧ Room z0 t0 2 :=
  ⟨issueAll rfl rfl _ (by decide), room [] 2⟩

/-- A record at 0x2000 with stride 4, extent 16 and elements of 4 bytes. -/
def rec4 : Record := 0x2000 + 4 <<< 64 + 16 <<< 96 + 2 <<< 128

def zRec (v : List (Nat × Word)) : Str := { str0 v with b := [(8, rec4)] }

/-- ADDA at 2^55 − 1, at 2^55, at −2^55 and below it; LEA at the first byte of the space and below it. -/
theorem witness_MovesAndAddresses :
    (∀ i ∈ [Instr.movi { settle := false, d := 4, imm := 0x3FFF }, .mov (one 0 4 6 .b32), .movExt (un 0 .b32), .isel ob,
      .stov (one 1 4 6 .b32), .stovExt (un 1 .b32), .adda ol, .lea ob], Issues s0 i c0 z0 t0) ∧
    Room z0 t0 2 ∧
    Delivers c0 z0 t0 .noncanonical ∧
    addaSum (str0 [(6, 0xFFFFFFFF), (7, 0x007FFFFF)]) ol 0 = 2 ^ 55 - 1 ∧
    addaSum (str0 [(7, 0x00800000)]) ol 0 = 2 ^ 55 ∧
    addaSum (str0 [(7, 0xFF800000)]) ol 0 = -2 ^ 55 ∧
    addaSum (str0 [(7, 0xFF800000), (8, 0xFFFFFFFF)]) ol 0 = -2 ^ 55 - 1 ∧
    spanOk (leaAddr { str0 [] with b := [(8, 4 <<< 64)] } ob 0) 1 = true ∧
    spanOk (leaAddr { str0 [] with b := [(8, 4 <<< 64)] } { ob with imm := 0xFFFFFFFF } 0) 1 = false :=
  ⟨issueAll rfl rfl _ (by decide), room [] 2, delivers _, by decide +kernel⟩

theorem witness_PredicateResults :
    (∀ i ∈ [Instr.isetp oi, .pand (opnd 0 4 6 2 .b32), .por (opnd 1 4 6 2 .b32), .pxor (opnd 2 7 6 2 .b32), .pnot (one 3 4 6 .b32),
      .pnotExt (un 3 .b32), .elect (one 0 4 0 .b32), .fsetp of], Issues s0 i c0 z0 t0) ∧ Room z0 t0 1 ∧
    (condNum of.fn.toNat (z0.fa of .f32 0 0) (z0.fb of .f32 0 0)).2 &&& z0.enabled = 0 :=
  ⟨issueAll rfl rfl _ (by decide), room [] 1, by decide⟩

theorem witness_ScalarResults :
    (∀ i ∈ [Instr.vtos (one 0 4 6 .b32), .vtosExt (un 0 .b32), .sadd ol, .ssub (fnOp ol 1), .sand (fnOp ol 2), .sor (fnOp ol 3),
      .sshl (fnOp ol 4), .sshr (fnOp ol 5), .smul (fnOp ol 6), .scmp (fnOp ol 7)], Issues s0 i c0 z0 t0) ∧ Room z0 t0 1 :=
  ⟨issueAll rfl rfl _ (by decide), room [] 1⟩

theorem witness_LaneExchange :
    (∀ i ∈ [Instr.shfl ob, .vote (one 0 4 6 .b32), .vote (one 1 4 6 .b32), .vote (one 2 4 6 .b32), .voteExt (un 2 .b32),
      .matchLanes (one 0 4 6 .b32), .matchLanesExt (un 0 .b32), .lred (un 5 .i32), .lscan (un 0 .i32)], Issues s0 i c0 z0 t0) ∧
    Room z0 t0 2 := ⟨issueAll rfl rfl _ (by decide), room [] 2⟩

theorem witness_FloatReductions :
    (∀ i ∈ [Instr.lred (un 2 .f32), .lscan (un 2 .f32)], Issues s0 i c0 z0 t0) ∧ Room z0 t0 2 ∧ z0.enabled = 0 :=
  ⟨issueAll rfl rfl _ (by decide), room [] 2, by decide⟩

theorem witness_FloatArithmetic :
    (∀ i ∈ [Instr.fadd of, .fsub of, .fmul of, .fdiv of, .ffma of, .fmin of, .fmax of, .fscale of, .frcp (one 0 4 6 .f32),
      .frcpExt (un 0 .f32), .frsq (one 0 4 6 .f32), .frsqExt (un 0 .f32), .fsqrt (one 0 4 6 .f32), .fsqrtExt (un 0 .f32),
      .fexp2 (one 0 4 6 .f32), .fexp2Ext (un 0 .f32), .flog2 (one 1 4 6 .f32), .flog2Ext (un 1 .f32), .fsinp (one 2 4 6 .f32),
      .fsinpExt (un 2 .f32), .fcosp (one 3 4 6 .f32), .fcospExt (un 3 .f32), .frnd (one 0 4 6 .f32), .frndExt (un 0 .f32)],
      Issues s0 i c0 z0 t0) ∧ Room z0 t0 2 ∧ z0.enabled = 0 := ⟨issueAll rfl rfl _ (by decide), room [] 2, by decide⟩

theorem witness_FloatFields :
    (∀ i ∈ [Instr.fclass (one 0 4 6 .f32), .fclassExt (un 0 .f32), .ffrx (one 0 4 6 .f32), .ffrxExt (un 0 .f32),
      .cfma (opnd 0 4 6 8 .cf32)], Issues s0 i c0 z0 t0) ∧ Room z0 t0 2 ∧ z0.enabled = 0 :=
  ⟨issueAll rfl rfl _ (by decide), room [] 2, by decide⟩

def cvtOps (ty : Ty) (c : Byte) : Operands := { un 0 ty with c := c }

theorem witness_Conversions :
    (∀ i ∈ [Instr.cvt (cvtOps .f32 10), .cvti (cvtOps .i32 10), .pack (cvtOps .tap8 10), .unpk (cvtOps .b32 19)],
      Issues s0 i c0 z0 t0) ∧ Room z0 t0 2 ∧ Room z0 t0 (unpkCount (srcTyOf (cvtOps .b32 19))) ∧ z0.enabled = 0 :=
  ⟨issueAll rfl rfl _ (by decide), room [] 2, room [] _, by decide⟩

/-- QNT and DQNT, with the smoothing vector at 0 and without it. -/
def qntOps (spec : Bool) : Operands := { opnd 0 0 32 0 .tap8 with c := 12, imm := 20, spec := spec }
def dqntOps (spec : Bool) : Operands := { opnd 0 0 32 0 .f32 with c := 16, imm := 20, spec := spec }

theorem witness_BlockQuantisation :
    (∀ i ∈ [Instr.qnt (qntOps false), .qnt (qntOps true), .dqnt (dqntOps false), .dqnt (dqntOps true)], Issues s0 i c0 z0 t0) ∧
    Room z0 t0 33 ∧ Room z0 t0 32 ∧ smoothFault c0 z0 t0 (qntOps false) = none ∧ smoothFault c0 z0 t0 (qntOps true) = none ∧
    smoothFault c0 z0 t0 (dqntOps true) = none ∧ z0.enabled = 0 :=
  ⟨issueAll rfl rfl _ (by decide), room [] 33, room [] 32, by decide +kernel, by decide +kernel, by decide +kernel, by decide⟩

/-! ### Control flow and traps -/

def braOps (cond : Bool) (hint : Hint) (off : BitVec 15) : BranchOps :=
  { settle := false, cond := cond, pinv := false, psel := if cond then 1 else 0, hint := hint, off := off }
def braLongOps (cond : Bool) (hint : Hint) (off : Dword) : BranchLongOps :=
  { settle := false, cond := cond, pinv := false, psel := if cond then 1 else 0, hint := hint, off := off }

/-- Lanes 0 and 1 take part, and p1 is true in lane 0. -/
def c2 : Cur := { c0 with bundle := 3, parts := 3 }
def zP : Str := { str0 [] with p := [(1, 1)] }

/-- A branch that nobody takes, one to the first word of the space, one below it, and one that splits, with each hint. -/
theorem witness_Branches :
    (∀ i ∈ [Instr.bra (braOps true .none 1), .bra (braOps false .none 0x7C00), .bra (braOps false .none 0x7BFF),
      .braLong (braLongOps true .none 1), .braLong (braLongOps false .none 0xFFFFFFFFFFFFFC00),
      .braLong (braLongOps false .none 0xFFFFFFFFFFFFFBFF)], Issues s0 i c0 z0 t0) ∧
    (∀ i ∈ [Instr.bra (braOps true .lk 1), .bra (braOps true .unl 1), .bra (braOps true .unf 1), .braLong (braLongOps true .unf 1)],
      Issues (machine c2 zP t0 {}) i c2 zP t0) ∧
    takes true false 1 c0 z0 = 0 ∧ takes false false 0 c0 z0 ≠ 0 ∧ takes true false 1 c2 zP ≠ 0 ∧
    takes true false 1 c2 zP ≠ c2.parts ∧ (c0.pc.toNat : Int) + 4 * (0x7C00#15).toInt = 0 ∧
    (c0.pc.toNat : Int) + 4 * (0x7BFF#15).toInt < 0 ∧ (c0.pc.toNat : Int) + 4 * (0xFFFFFFFFFFFFFC00#64).toInt = 0 ∧
    Delivers c0 z0 t0 .noncanonical :=
  ⟨issueAll rfl rfl _ (by decide), issueAll rfl rfl _ (by decide), by decide, by decide, by decide, by decide, by decide, by decide,
    by decide, delivers _⟩

/-- JMPI to the last word of the lower half, to a noncanonical address and to a misaligned one; CALL to word 0 and below it. -/
theorem witness_JumpsAndCalls :
    (∀ i ∈ [Instr.jmpi (one 0 0 6 .b32), .ret (one 0 0 6 .b32), .call { un 0 .b32 with a := 0, imm := 0xFFFFFC00 },
      .call { un 0 .b32 with a := 0, imm := 0xFFFFFBFF }], Issues s0 i c0 z0 t0) ∧
    (canonical ((str0 [(6, 0xFFFFFFFC), (7, 0x007FFFFF)]).vpair 6 0) = true ∧
      ((str0 [(6, 0xFFFFFFFC), (7, 0x007FFFFF)]).vpair 6 0).toNat % 4 = 0) ∧
    canonical ((str0 [(7, 0x00800000)]).vpair 6 0) = false ∧
    (canonical ((str0 [(6, 2)]).vpair 6 0) = true ∧ ((str0 [(6, 2)]).vpair 6 0).toNat % 4 ≠ 0) ∧
    (c0.pc.toNat : Int) + 4 * (0xFFFFFC00#32).toInt = 0 ∧ (c0.pc.toNat : Int) + 4 * (0xFFFFFBFF#32).toInt < 0 ∧
    Room z0 t0 2 ∧ Delivers c0 z0 t0 .noncanonical ∧ Delivers c0 z0 t0 .misaligned :=
  ⟨issueAll rfl rfl _ (by decide), by decide, by decide, by decide, by decide, by decide, room [] 2, delivers _, delivers _⟩

theorem witness_BlocksAndYields :
    ∀ i ∈ [Instr.nop (one 0 0 0 .b32), .pblk { settle := false, pattern := 3, psel := 2, cnt := 3 }, .yld (one 0 0 0 .b32)],
      Issues s0 i c0 z0 t0 := issueAll rfl rfl _ (by decide)

/-- A troop with an open recovery block. -/
def block : RBlock := { limit := 0, count := 0, alts := [0x2000, 0x3000], endPc := 0x4000, test := 0x5000 }
def tBlk : Troop := { t0 with blocks := [block] }

/-- EXIT of lane 0 leaves lane 1; inside a block it traps, by a cause that runs the handler. -/
theorem witness_Exits :
    Issues s0 (.exit (one 0 0 0 .b32)) c0 z0 t0 ∧ t0.depth = 0 ∧ z0.lateq = [] ∧ t0.arrivals = [] ∧
    ((z0.lane 1).exited = false ∧ c0.bundle.getLsbD 1 = false ∧ (s0.bar (.str 2)).arrs = []) ∧
    Issues (machine c0 z0 tBlk {}) (.exit (one 0 0 0 .b32)) c0 z0 tBlk ∧ tBlk.depth ≠ 0 ∧ Delivers c0 z0 tBlk .recoveryEscape :=
  ⟨issues (by decide) rfl rfl, rfl, rfl, rfl, by decide, issues (by decide) rfl rfl, by decide, rfl, rfl, by decide, .inr rfl⟩

/-- An illegal instruction: a BRA inside a predicate block. -/
theorem witness_PreciseTraps :
    (∀ i ∈ [Instr.trap { settle := false, d := 0, imm := 5 }, .bkpt { settle := false, d := 0, imm := 5 },
      .scall { settle := false, d := 0, imm := 5 }], Issues s0 i c0 z0 t0) ∧
    legal (.bra (braOps false .none 0)) { c0 with covered := true } z0 = false ∧ encodeWords (.bra (braOps false .none 0)) ≠ [] ∧
    Delivers c0 z0 t0 .trapInstr ∧ Delivers c0 z0 t0 .illegalInstruction :=
  ⟨issueAll rfl rfl _ (by decide), by decide, by decide, delivers _, delivers _⟩

/-- The bundle is lane 0, in trap mode. -/
def cT : Cur := { c0 with trap := true, super := true }
def zT : Str := { str0 [] with lanes := { pc := 0x8000, trap := true } :: List.replicate 31 { pc := 0x1000 } }

theorem witness_TrapReturns :
    Issues (machine cT zT t0 {}) (.tret (one 0 0 0 .b32)) cT zT t0 ∧ cT.trap = true ∧
    Issues s0 (.tret (one 0 0 0 .b32)) c0 z0 t0 ∧ Delivers c0 z0 t0 .illegalInstruction :=
  ⟨issues (by decide) rfl rfl, rfl, issues (by decide) rfl rfl, delivers _⟩

def late : Late := { cause := .pageFault, pc := 0x900, nodePc := 0, depth := 0 }
def zL : Str := { str0 [] with lateq := [late] }

/-- A fault to deliver, outside a block and inside one, and an empty queue. -/
theorem witness_LateFaultsDeliver :
    ((machine c0 zL t0 {}).cur = some c0 ∧ (machine c0 zL t0 {}).str? 2 = some zL ∧ (machine c0 zL t0 {}).troop? 1 = some t0) ∧
    zL.lateq = late :: [] ∧ zL.lanes.any (·.trap) = false ∧ zL.trapBase ≠ 0 ∧ t0.depth = 0 ∧ (tBlk.depth ≠ 0 ∧ late.depth = 0) ∧
    z0.lateq = [] ∧ zT.lanes.any (·.trap) = true :=
  ⟨⟨rfl, rfl, rfl⟩, rfl, by decide, by decide, rfl, by decide, rfl, by decide⟩

/-- A trap beside a lane in trap mode, in trap mode at depth 0 and inside a block, and one that fails the alternate. -/
theorem witness_TrapsInTrapMode :
    ((machine c0 zT t0 {}).str? 2 = some zT ∧ c0.trap = false ∧ zT.lanes.any (·.trap) = true) ∧
    ((machine cT zT t0 {}).troop? 1 = some t0 ∧ cT.trap = true ∧ t0.depth = 0) ∧
    ((machine cT zT tBlk {}).troop? 1 = some tBlk ∧ tBlk.depth ≠ 0) ∧
    (z0.lanes.any (·.trap) = false ∧ Cause.bounds.routes = true) :=
  ⟨⟨rfl, rfl, by decide⟩, ⟨rfl, rfl, rfl⟩, ⟨rfl, by decide⟩, by decide, rfl⟩

/-! ### Special registers -/

/-- A matrix operation of the string is queued. -/
def matOp : MatOp :=
  { id := 5, sid := 2, tid := 1, slice := 0, pc := 0x900, depth := 0, trap := false, units := 1, chk := true
    writes := [(32 * 4, 7)], regs := [4], flags := 0x10, enabled := 0, joint := none }
def quarter : Quarter := { core := 0, q := 0, holder := some 1, run := some matOp }

theorem witness_SpecialReads :
    (∀ i ∈ [Instr.sread (one 0 4 0 .b32), .sread (one 0x16 4 0 .b32), .sreadExt { un 0x11 .b32 with a := 0 },
      .sreadExt (zt { un 0x11 .b32 with a := 0 })], Issues s0 i c0 z0 t0) ∧ Room z0 t0 2 ∧ s0.flagsWait 2 0x11 = false ∧
    (machine c0 z0 t0 { quarters := [quarter] }).flagsWait 2 0x11 = true :=
  ⟨issueAll rfl rfl _ (by decide), room [] 2, by decide, by decide⟩

def tSup : Troop := { t0 with super := true }
def swOps (n : BitVec 6) : Operands := one n 0 6 .b32
def swExt (n : BitVec 6) : Operands := { un n .b32 with d := 0 }

/-- Each writable register, each condition of TRAPBASE: privilege, a canonical aligned value, and the three traps. -/
theorem witness_SpecialWrites :
    (∀ i ∈ [Instr.swrite (swOps 0x10), .swrite (swOps 0x11), .swrite (swOps 0x12), .swrite (swOps 0x18), .swriteExt (swExt 0x10),
      .swriteExt (zt (swExt 0x18))], Issues s0 i c0 z0 t0) ∧ Room z0 t0 1 ∧ s0.matPending 2 = false ∧
    (machine c0 z0 t0 { quarters := [quarter] }).matPending 2 = true ∧ tSup.super = true ∧ t0.super = false ∧
    (canonical ((str0 [(6, 0xFFFFFFFC), (7, 0x007FFFFF)]).vpair 6 0) = true ∧
      ((str0 [(6, 0xFFFFFFFC), (7, 0x007FFFFF)]).vpair 6 0).toNat % 4 = 0) ∧
    canonical ((str0 [(7, 0x00800000)]).vpair 6 0) = false ∧ ((str0 [(6, 2)]).vpair 6 0).toNat % 4 ≠ 0 ∧
    Delivers c0 z0 tSup .noncanonical :=
  ⟨issueAll rfl rfl _ (by decide), room [] 1, by decide, by decide, rfl, rfl, by decide, by decide, by decide, rfl, rfl, by decide, .inl rfl⟩

/-! ### Accesses -/

/-- A machine with the launch, its paddock and an identity map in the TLB of core 0. -/
def mu : State :=
  { pads := [fetchPad], launches := [fetchLaunch 3]
    tlb := [{ core := 0, pad := 0, secure := false, va := 0, size := 2 ^ 36, leaf := 0x5F, lvl := 1 }] }

def range (st : RangeSt) : Range :=
  { pad := 0, secure := false, slot := 0, base := 0x2000, len := 64, ty := .i32, op := 0, st := st }

/-- The first element of the record, and one past its end. -/
theorem witness_AccessesStart :
    (∀ i ∈ [Instr.ld ob, .atom { oi with c := 10 }, .acas { ob with c := 10 }, .afadd { of with c := 10 }],
      Issues (machine c0 (zRec []) t0 mu) i c0 (zRec []) t0) ∧
    recAddrs (zRec []) ob 4 c0.lanes = .ok [(0, .at 0x2000)] ∧ recAddrs (zRec [(6, 16)]) ob 4 c0.lanes = .error .bounds ∧
    t0.protect = none ∧ OutsideRanges (machine c0 (zRec []) t0 mu) t0 (elemsOf 4 (fun _ => 0) (fun _ => 0) [(0, .at 0x2000)]) ∧
    (Issues (machine c0 (zRec []) t0 { mu with ranges := [range .isOpen] }) (.radd oi) c0 (zRec []) t0 ∧
      (machine c0 (zRec []) t0 { mu with ranges := [range .isOpen] }).inOpenRange t0 0x2000 4 = some (range .isOpen)) ∧
    (Issues (machine c0 (zRec []) tBlk mu) (.atom { oi with c := 10, level := .dev }) c0 (zRec []) tBlk ∧
      tBlk.protect = some .trp) ∧ Delivers c0 z0 tBlk .recoveryEscape ∧ Delivers c0 z0 t0 .bounds :=
  ⟨issueAll rfl rfl _ (by decide), by decide +kernel, by decide +kernel, rfl, fun _ _ _ => rfl,
    ⟨issues (by decide) rfl rfl, by decide +kernel⟩, ⟨issues (by decide) rfl rfl, rfl⟩, ⟨rfl, rfl, by decide, .inr rfl⟩, delivers _⟩

def zS (ss : List (Nat × Dword)) : Str := { str0 [] with s := ss }

theorem witness_ParkedAccesses :
    (Issues (machine c0 (zS [(6, 0x2000)]) t0 mu) (.brld { un 0 .b32 with b := 0 }) c0 (zS [(6, 0x2000)]) t0 ∧
      canonical ((zS [(6, 0x2000)]).sreg 6) = true ∧ spanOk 0x2000 32 = true) ∧
    canonical ((zS [(6, 0x0080000000000000)]).sreg 6) = false ∧ Delivers c0 z0 t0 .noncanonical ∧
    (Issues (machine c0 (zRec []) t0 mu) (.waitv { ob with d := 0, c := 10 }) c0 (zRec []) t0 ∧
      recAddrs (zRec []) { ob with d := 0, c := 10 } 4 c0.lanes = .ok [(0, .at 0x2000)]) ∧
    recAddrs (zRec [(6, 16)]) { ob with d := 0, c := 10 } 4 c0.lanes = .error .bounds :=
  ⟨⟨issues (by decide) rfl rfl, by decide +kernel, by decide +kernel⟩, by decide +kernel, delivers _,
    ⟨issues (by decide) rfl rfl, by decide +kernel⟩, by decide +kernel⟩

/-- A record that drops what is out of range (OOB 1). -/
def zOob : Str := { str0 [(6, 16)] with b := [(8, rec4 + 1 <<< 147)] }
def stDev : Operands := { ob with spec := true, level := .dev }

def stTrp : Operands := { ob with spec := true, level := .trp }

/-- A line of the troop buffer that holds another string's byte, and a troop buffer without a line. -/
def bufLine : BufLine :=
  { space := .str 2, line := 128, va := 0x2000, mask := 0xF, data := 5, epoch := 0, covered := 0, asks := [], written := 0xF, removed := 0
    owner := .str 2, comm := [], pol := 0, part := 0, held := false }
def theirs : BufLine := { bufLine with space := .trp 1, comm := [(0, .str 4)] }
def tNone : Troop := { t0 with bufQ := 0 }

/-- The check of a store of a word at troop level. -/
def storesInto (z : Str) (t : Troop) (ls : List BufLine) : Option Cause :=
  let a := accessOf c0 t .st 0 .b32 .trp 0 (elemsOf 4 (fun _ => 0) (fun _ => 0) [(0, .at 0x2000)])
  let r := (machine c0 z t { mu with lines := ls }).storeLines t false a.lines
  r.1.storeCheck z t a r.1.projected r.2

theorem witness_StoresStart :
    (Issues (machine c0 zOob t0 mu) (.st ob) c0 zOob t0 ∧ recAddrs zOob ob 4 c0.lanes = .ok [(0, .out)]) ∧
    (Issues (machine c0 (zRec []) t0 mu) (.st stDev) c0 (zRec []) t0 ∧
      recAddrs (zRec []) stDev 4 c0.lanes = .ok [(0, .at 0x2000)] ∧ (t0.demote .dev).buffered = false) ∧
    (Issues (machine c0 (zRec []) t0 mu) (.st ob) c0 (zRec []) t0 ∧ (t0.demote (recLevel rec4)).buffered = true ∧
      let es := elemsOf 4 (fun _ => 0) (fun _ => 0) [(0, .at 0x2000)]
      let a := accessOf c0 t0 .st 0 .b32 .str 0 es
      let r := (machine c0 (zRec []) t0 mu).storeLines t0 false a.lines
      es ≠ [] ∧ OutsideRanges (machine c0 (zRec []) t0 mu) t0 es ∧ (machine c0 (zRec []) t0 mu).accs = [] ∧
        r.1.storeCheck (zRec []) t0 a r.1.projected r.2 = none) ∧
    (Issues (machine c0 (zRec []) t0 { mu with lines := [theirs] }) (.st stTrp) c0 (zRec []) t0 ∧ (t0.demote .trp).buffered = true ∧
      storesInto (zRec []) t0 [theirs] = none ∧ storesInto { zRec [] with strctl := 0x20 } t0 [theirs] = some .siblingConflict) ∧
    (Issues (machine c0 (zRec []) tNone mu) (.st stTrp) c0 (zRec []) tNone ∧ storesInto (zRec []) tNone [] = some .commitOverflow) :=
  ⟨⟨issues (by decide) rfl rfl, by decide +kernel⟩, ⟨issues (by decide) rfl rfl, by decide +kernel, by decide⟩,
    ⟨issues (by decide) rfl rfl, by decide, by decide, fun _ _ _ => rfl, rfl, by decide +kernel⟩,
    ⟨issues (by decide) rfl rfl, by decide, by decide +kernel, by decide +kernel⟩, issues (by decide) rfl rfl, by decide +kernel⟩

/-- An access of one lane to the word at 0x2000, at some point of its way. -/
def word (val : Option Nat) : Elem := { lane := 0, va := 0x2000, w := 4, data := 5, data2 := 0, val := val }
def acc (kind : AccKind) (lvl : Level) (st : LineSt) (val : Option Nat) : Access :=
  { id := 7, sid := 2, kind := kind, fn := 0, ty := .b32, lvl := lvl, pc := 0x900, next := 0x904, depth := 0, trap := false
    super := false, dst := 4, lines := [{ va := 0x2000, st := st }], elems := [word val], bundle := 1 }
def withAcc (a : Access) (t : Troop) : State := machine c0 z0 t { mu with accs := [a] }
def brldAcc : Access := { acc .brld .str .done (some 0) with elems := [{ word (some 0) with w := 32 }] }
def faulted : Access := { acc .ld .str .done (some 3) with fault := some .pageFault }

theorem witness_ResultsReturn :
    ((acc .ld .str .done (some 3)).returned = true ∧ (withAcc (acc .ld .str .done (some 3)) t0).acc? 7 = some (acc .ld .str .done (some 3)) ∧
      Room z0 t0 2 ∧ (withAcc (acc .ld .str .done (some 3)) t0).pendFlags = [] ∧ (acc .ld .str .done (some 3)).fault = none) ∧
    (faulted.returned = true ∧ faulted.fault = some .pageFault ∧ faulted.trap = false ∧ (z0.lane 0).exited = false) ∧
    ((withAcc brldAcc t0).acc? 7 = some brldAcc ∧ recordOk (BitVec.ofNat 256 0) = true ∧ Room z0 t0 1) ∧
    (acc .ld .str .fresh none).returned = false :=
  ⟨⟨by decide, rfl, room [] 2, rfl, rfl⟩, by decide, ⟨rfl, by decide +kernel, room [] 1⟩, by decide⟩

def atomAcc : Access := acc .atom .trp (.ready 128 0 0) none

/-- A walk that gives a line, one that is refused (no paddock), and a line to read; a store, an atomic authority aside, is alike. -/
theorem witness_LinesAreAnswered :
    ((withAcc (acc .st .str .fresh none) t0).acc? 7 = some (acc .st .str .fresh none) ∧
      (withAcc (acc .st .str .fresh none) t0).earlier (acc .st .str .fresh none) = [] ∧
      (({ withAcc (acc .st .str .fresh none) t0 with nextId := 10 } : State).translate (some 0) 0 false false .write 0x2000).2 =
        .ok 0x2000 0 0) ∧
    (({ withAcc (acc .st .str .fresh none) t0 with nextId := 10, pads := [] } : State).translate (some 0) 0 false false .write
      0x2000).2 = .refused .permission ∧
    ((withAcc (acc .ld .str (.ready 128 0 0) none) t0).loadMayGo (acc .ld .str (.ready 128 0 0) none) 128 [word none] = true ∧
      (withAcc (acc .ld .str (.ready 128 0 0) none) t0).readWaits 2 (some 0) 0 128 (word none).mask = false ∧
      ((withAcc (acc .ld .str (.ready 128 0 0) none) t0).neededLine 2 t0 [(some 0, (word none).mask)] 0x2000 128 0 0
        (acc .ld .str (.ready 128 0 0) none).fresh).2 ≠ none) ∧
    Onward (acc .ld .str (.ready 128 0 0) none) (acc .ld .str (.ready 128 0 0) none) ∧
    (atomAcc.turns { va := 0x2000, st := .ready 128 0 0 } 128 = [word none] ∧ (withAcc atomAcc t0).hostWaits 0 (authPlace 0 .trp 0) 128 = false ∧
      (withAcc atomAcc t0).storeMayGo atomAcc 128 [word none] = true ∧ (withAcc atomAcc t0).atomWaits t0 2 128 (word none).mask = false ∧
      ((withAcc atomAcc t0).atomLanes t0 atomAcc 0x2000 128 0 0 [word none]).2 = ([(0, 0)], none)) :=
  ⟨⟨rfl, by decide, by decide +kernel⟩, by decide +kernel, ⟨by decide +kernel, by decide +kernel, by decide +kernel⟩, ⟨rfl, rfl⟩,
    by decide +kernel, by decide +kernel, by decide +kernel, by decide +kernel, by decide +kernel⟩

def accepts (r : Except Cause State) : Bool := match r with | .ok _ => true | .error _ => false

/-- What a line of a store does to the buffer of a level: whether it has room, and whether it conflicts. -/
def enters (t : Troop) (ls : List BufLine) (lvl : Level) : Bool × Bool :=
  let s : State := { withAcc (acc .st lvl (.ready 128 0 0) none) t with lines := ls }
  let is := (storeBytes [word none]).map (·.1)
  let sp := bufSpace 2 t (t.demote lvl)
  (s.projected.bufFits 2 t lvl 128 is, s.entersOver t sp 128 is (committerFor 2 t sp))
def zFault : Str := { z0 with strctl := 0x20 }

/-- A RADD, a store at die level, one into the string buffer, and one for which the troop buffer has no line. -/
theorem witness_StoresAreAccepted :
    (∀ a ∈ [acc .radd .trp (.ready 128 0 0) none, acc .st .dev (.ready 128 0 0) none, acc .st .str (.ready 128 0 0) none,
      acc .st .trp (.ready 128 0 0) none], (withAcc a t0).storeMayGo a 128 (a.on { va := 0x2000, st := .ready 128 0 0 }) = true ∧
        (withAcc a t0).acc? 7 = some a ∧ (withAcc a t0).nodes = []) ∧
    (acc .st .trp (.ready 128 0 0) none).topBytes { va := 0x2000, st := .ready 128 0 0 } 128 ≠ [] ∧
    (withAcc (acc .radd .trp (.ready 128 0 0) none) t0).takesRadd t0 .b32 (word none) = false ∧
    (t0.demote .dev).buffered = false ∧ (t0.demote .str).buffered = true ∧
    enters t0 [] .str = (true, false) ∧ enters t0 [theirs] .trp = (true, true) ∧ enters tNone [] .trp = (false, false) ∧
    (zFault.conflictFaults = true ∧ z0.conflictFaults = false) :=
  ⟨by decide +kernel, by decide +kernel, by decide +kernel, by decide, by decide, by decide +kernel, by decide +kernel, by decide +kernel,
    by decide, by decide⟩

def write (atL2 : Bool) : HomeWrite :=
  { wid := 7, core := 0, rnd := 0, sid := 2, line := 128, mask := 0xF, data := 5, lvl := .dev, atL2 := atL2, lanes := [], op := 0
    pc := 0x900, trap := false, depth := 0, pol := 0, part := 0, pad := 0 }

/-- A write on its way to the L2 slice, and one on its way from there to its home. -/
theorem witness_HomeWritesArrive : ∀ b ∈ [true, false],
    let s : State := { machine c0 z0 t0 mu with writes := [write b] }
    s.writes.find? (·.wid == 7) = some (write b) ∧ holder s.l1 128 = none ∧ holder s.l2 128 = none ∧ s.poison.contains 128 = false ∧
      Cells.get 0 s.upsets 128 = 0 ∧ s.peerDown (64 * 128) = false ∧ hostLine 128 = false ∧ s.writes.takeWhile (·.wid != 7) = [] := by decide +kernel

def scr (fn : BitVec 6) (ty : Ty) : Operands := opnd fn 4 6 0 ty

/-- LDS and STS of a word and of 16 bytes, and ATOMS, at the last place of the scratchpad that each reaches, and past it. -/
theorem witness_ScratchpadAccesses :
    (∀ i ∈ [Instr.lds (zt (scr 0 .b32)), .lds (scr 0 .b32), .sts (zt (scr 0 .b32)), .sts (scr 0 .b32), .atoms { scr 0 .i32 with c := 10 }],
      Issues s0 i c0 z0 t0) ∧
    Room z0 t0 4 ∧
    NothingForced s0 c0 t0 ∧
    Delivers c0 z0 t0 .bounds ∧
    scrFault (c0.lanes.map (scrOf t0 (str0 [(6, 16380)]) (scr 0 .b32) 4)) = none ∧
    scrFault (c0.lanes.map (scrOf t0 (str0 [(6, 16384)]) (scr 0 .b32) 4)) = some .bounds ∧
    scrFault (c0.lanes.map (scrOf t0 (str0 [(6, 16382)]) (scr 0 .b32) 4)) = some .misaligned ∧
    scrFault (c0.lanes.map (scrOf t0 (str0 [(6, 16368)]) (zt (scr 0 .b32)) 16)) = none ∧
    scrFault (c0.lanes.map (scrOf t0 (str0 [(6, 16380)]) (scr 0 .i32) 4)) = none ∧
    s0.loadsDone 2 9 1 = true ∧
    (withAcc (acc .ld .str .fresh none) t0).loadsDone 2 9 1 = false :=
  ⟨issueAll rfl rfl _ (by decide), room [] 4, ⟨by decide, by decide⟩, delivers _, by decide +kernel⟩

/-- A record that passes R183, and one with OOB 2. -/
theorem witness_RecordsAndQueries :
    (∀ i ∈ [Instr.brmk (opnd 0 4 8 0 .b32), .brq (opnd 0 4 6 0 .b32), .cqry { un 0 .b32 with a := 0 },
      .prfm { ob with d := 0, level := .trp }], Issues s0 i c0 z0 t0) ∧ Room z0 t0 1 ∧ recordOk 0 = true ∧
    recordOk ((zS [(10, 0x100000)]).sreg 11 ++ (zS [(10, 0x100000)]).sreg 10 ++ (zS [(10, 0x100000)]).sreg 9 ++
      (zS [(10, 0x100000)]).sreg 8) = false ∧ Delivers c0 z0 t0 .bounds :=
  ⟨issueAll rfl rfl _ (by decide), room [] 1, by decide, by decide, delivers _⟩


/-! ### Operations that park their bundle -/

def sop (lvl : Level) : Operands := { opnd 0 0 0 0 .b32 with level := lvl }
def sx (b : Byte) (fn : BitVec 6) (ty : Ty) : Operands := { opnd fn 0 6 b ty with d := 0 }

def cS : Cur := { c0 with super := true }

/-- Ranges of one line, of 2^32 bytes and up to the last byte of the space; TLBI of the whole context and past its last page. -/
theorem witness_OperationsStart :
    (∀ i ∈ [Instr.acq (sop .dev), .commit (sop .dev), .commit (sop .str), .abort (sop .str), .abort (sop .trp), .cropen (sx 8 0 .f32),
      .crclose (sx 0 0 .b32), .tlbi (sx 8 0 .b32), .cflush (sx 8 1 .b32), .cinv { sx 8 2 .b32 with level := .dev }],
      Issues s0 i c0 z0 t0) ∧ z0.sid = c0.sid ∧ t0.overflow = false ∧ c0.parts ≠ 0 ∧ t0.protect = none ∧ tBlk.protect ≠ none ∧
    (∀ e ∈ [(0, 64), (0, 2 ^ 32), (2 ^ 55 - 64, 64)], canonical e.1 = true ∧ (addr56 e.1).toNat % 64 = 0 ∧
      spanOk (addr56 e.1).toNat e.2 = true ∧ e.2 % 64 = 0 ∧ 64 ≤ e.2 ∧ e.2 ≤ 2 ^ 32) ∧
    (Issues (machine cS z0 t0 {}) (.tlbi (sx 8 0 .b32)) cS z0 t0 ∧ cS.super = true ∧ (z0.sreg 6).toNat % 2 ^ 16 = 0 ∧
      (z0.sreg 6).toNat < 2 ^ 56 ∧ (z0.sreg 8).toNat < 2 ^ 31) ∧
    (Issues (machine cS z0 t0 {}) (.cflush (sx 8 1 .b32)) cS z0 t0 ∧ rangeFault (z0.sreg 6) (z0.sreg 8) ≠ none ∧
      rangeFault 0 64 = none) ∧ c0.super = false ∧
    (∃ r ∈ [range .isOpen], r.pad = t0.pad ∧ r.secure = t0.secure ∧ r.st = .isOpen ∧ r.base = 0x2000) ∧
    (∀ r ∈ [range .isOpen], r.base ≠ (addr56 (z0.sreg 6)).toNat) ∧ Delivers c0 z0 t0 .privileged ∧ Delivers c0 z0 tBlk .recoveryEscape :=
  ⟨issueAll rfl rfl _ (by decide), rfl, rfl, by decide, rfl, by decide, by decide +kernel,
    ⟨issues (by decide) rfl rfl, rfl, by decide, by decide, by decide⟩,
    ⟨issues (by decide) rfl rfl, by decide +kernel, by decide +kernel⟩, rfl, by decide, by decide, delivers _,
    rfl, rfl, by decide, .inr rfl⟩

def sysOp (kind : SysKind) (lvl : Level) (phase : Phase) (arg arg2 : Nat) : SysOp :=
  { id := 6, sid := 2, tid := 1, kind := kind, lvl := lvl, pc := 0x900, next := 0x904, mask := 1, depth := 0, trap := false
    phase := phase, arg := arg, arg2 := arg2, cores := [], fault := none }

def withOp (o : SysOp) : State := machine c0 z0 t0 { mu with ops := [o] }

/-- The state has the operation, its string and its troop. -/
def opFound (s : State) (o : SysOp) : Bool :=
  s.op? 6 == some o && (s.str? o.sid).isSome && ((s.str? o.sid).bind fun z => s.troop? z.tid).isSome

theorem witness_CommitsAndAborts :
    (∀ o ∈ [sysOp .acq .dev .waiting 0 1, sysOp .commit .trp .waiting 0 0, sysOp .commit .dev .waiting 0 0, sysOp .commit .dev .sent 0 0,
      sysOp .abort .str .waiting 0 0], opFound (withOp o) o = true ∧ (withOp o).haltedCore t0.core = false ∧
        (withOp o).storesPending 2 o.id = false ∧ (withOp o).loadsDone 2 o.id 1 = true ∧ (withOp o).nodes = [] ∧
        (withOp o).accs = [] ∧ (withOp o).pendFlags = [] ∧ (withOp o).atomsPending 2 o.id o.lvl = false ∧
        (withOp o).heldReqs = [] ∧ (withOp o).rail = [] ∧ (withOp o).railWait = []) ∧
    ((machine c0 z0 t0 { mu with accs := [{ acc .atom .trp .fresh none with id := 5 }] }).atomsPending 2 6 .trp = true) ∧
    (let s : State := { withOp (sysOp .commit .dev .waiting 0 0) with lines := [bufLine], ranges := [range .isOpen] };
      ∃ x ∈ s.commitBytes 2 t0 .dev, s.inOpenRange t0 x.va 64 ≠ none) ∧
    ((machine c0 z0 t0 { mu with accs := [{ acc .ld .str .fresh none with id := 5 }] }).loadsDone 2 6 1 = false) ∧
    ((machine c0 z0 t0 { mu with accs := [{ acc .st .str .fresh none with id := 5 }] }).storesPending 2 6 = true) ∧
    (t0.demote .trp).buffered = true ∧ (t0.demote .dev).buffered = false ∧
    accepts ((withOp (sysOp .commit .trp .waiting 0 0)).commitInto z0 t0 .trp false) = true ∧
    ((withOp (sysOp .commit .dev .waiting 0 0)).closedRounds 0).length < 8 ∧
    (∀ x ∈ (withOp (sysOp .commit .dev .waiting 0 0)).commitBytes 2 t0 .dev,
      (withOp (sysOp .commit .dev .waiting 0 0)).inOpenRange t0 x.va 64 = none) ∧
    (withOp (sysOp .commit .dev .sent 0 0)).roundsDone 0 0 .dev = true := by decide +kernel

/-- A declaration that fits, one that overlaps an open range, one that finds the table full, and the second event of each. -/
theorem witness_RangesOpenAndClose :
    (opFound (withOp (sysOp .cropen .str .waiting 0x2000 (64 * 256))) (sysOp .cropen .str .waiting 0x2000 (64 * 256)) = true ∧
      (withOp (sysOp .cropen .str .waiting 0x2000 (64 * 256))).freeSlot t0 = some 0 ∧ mu.haltedCore t0.core = false ∧
      ({ mu with pads := [{ fetchPad with st := .cutting, marked := [0] }] } : State).haltedCore t0.core = true ∧
      (withOp (sysOp .cropen .str .waiting 0x2000 (64 * 256))).rangeClash t0 0x2000 64 = false) ∧
    (machine c0 z0 t0 { mu with ranges := [range .isOpen] }).rangeClash t0 0x2000 64 = true ∧
    (machine c0 z0 t0 { mu with ranges := [range .isOpen] }).rangeClash t0 0x2040 64 = false ∧
    (machine c0 z0 t0 { mu with ranges := (List.range 16).map fun i => { range .isOpen with slot := i } }).freeSlot t0 = none ∧
    opFound (withOp (sysOp .cropen .str .sent 0x2000 0)) (sysOp .cropen .str .sent 0x2000 0) = true ∧
    (∀ st ∈ [RangeSt.isOpen, .closing], range st ∈ [range st] ∧ (range st).pad = t0.pad ∧ (range st).secure = t0.secure ∧
      (range st).base = 0x2000 ∧ (∀ x ∈ [range st], x = range st) ∧
      opFound { withOp (sysOp .crclose .str .waiting 0x2000 0) with ranges := [range st] } (sysOp .crclose .str .waiting 0x2000 0) = true ∧
      opFound { withOp (sysOp .crclose .str .sent 0x2000 0) with ranges := [range st] } (sysOp .crclose .str .sent 0x2000 0) = true ∧
      ({ withOp (sysOp .crclose .str .sent 0x2000 0) with ranges := [range st] } : State).raddsDone t0 (range st) = true) := by
  decide +kernel

def inval (op : Option Nat) : Inval := { first := 0, cnt := 0, before := 5, op := op }

theorem witness_SystemOperations :
    (opFound (withOp (sysOp .tlbi .str .waiting 0 0)) (sysOp .tlbi .str .waiting 0 0) = true ∧
      ((withOp (sysOp .tlbi .str .waiting 0 0)).pad? t0.pad).bind (·.inval) = none) ∧
    (∀ o ∈ [sysOp .cflush .str .waiting 0x2000 64, sysOp .cinv .dev .waiting 0x2000 (64 * 2 ^ 32 + 1)], opFound (withOp o) o = true ∧
      (withOp o).loadsDone 2 o.id (BitVec.ofNat 32 o.arg2) = true) ∧
    (let o := sysOp .cinv .dev .waiting 0x2000 (64 * 2 ^ 32 + 1);
      (machine c0 z0 t0 { mu with accs := [{ acc .ld .str .fresh none with id := 5 }] }).loadsDone 2 o.id (BitVec.ofNat 32 o.arg2) = false) ∧
    (opFound (withOp (sysOp .tlbi .str .sent 0 0)) (sysOp .tlbi .str .sent 0 0) = true ∧
      let s : State := { withOp (sysOp .tlbi .str .sent 0 0) with pads := [{ fetchPad with inval := some (inval (some 6)) }] }
      (s.pad? t0.pad).bind (·.inval) = some (inval (some 6)) ∧ s.invalDone t0.pad (inval (some 6)) = true ∧
      ({ s with accs := [{ acc .ld .str (.ready 128 0 0) none with id := 4 }] } : State).invalDone t0.pad (inval (some 6)) = false) := by
  decide +kernel

/-! ### Barriers -/

def barOp (fn : BitVec 6) (d a : Byte) (lvl : Level) : Operands := { opnd fn d a 0 .b32 with level := lvl }
def sb : State := machine c0 z0 t0 mu

theorem witness_BarrierInstructions :
    (∀ i ∈ [Instr.bar (barOp 0 0 0 .str), .bar (barOp 0 0 0 .trp), .bar (barOp 1 4 0 .str), .barv (barOp 0 4 6 .trp), .bwait (barOp 0 0 6 .trp),
      .bexp (barOp 0 0 6 .trp), .bstat (barOp 0 4 0 .trp), .bar (barOp 0 0 0 .clu)], Issues sb i c0 z0 t0) ∧
    Delivers c0 z0 t0 .illegalInstruction ∧
    c0.bundle ≠ 0 ∧
    sb.mayArrive (barOp 0 0 0 .str) z0 t0 = true ∧
    sb.mayArrive (barOp 0 0 0 .trp) z0 t0 = true ∧
    sb.barKey z0 t0 .str 0 = some (.str 2) ∧
    sb.barKey z0 t0 .trp 0 = some (.trp 1 0) ∧
    sb.barKey z0 t0 .clu 0 = none ∧
    sb.mayArrive (barOp 0 0 0 .clu) z0 t0 = false ∧
    (∀ a ∈ (sb.bar (.str 2)).arrs, a.lanes &&& c0.bundle = 0) ∧
    tokenDone 1 0 = true ∧
    tokenDone 0 0 = false ∧
    (sb.bar (.trp 1 0)).exp + (2 ^ 32 - 1) < 2 ^ 32 ∧
    2 ^ 32 ≤ (sb.bar (.trp 1 0)).exp + 2 ^ 32 :=
  ⟨issueAll rfl rfl _ (by decide), delivers _, by decide +kernel⟩

/-- A phase that the one string has reached, one that it has not, and one whose credited bytes are too many. -/
def barr (arrs : List BarArr) (cr : Nat) : Barrier := { key := .trp 1 0, arrs := arrs, cr := cr }
def arr : BarArr := { sid := 2, tid := 1, lanes := 1, depth := 0, val := none, before := 5 }
def barReady (s : State) (k : BarKey) : Bool :=
  (match s.allArrived (s.bar k) with | some all => all | none => decide (0 < (s.bar k).exp)) && decide ((s.bar k).exp ≤ (s.bar k).cr)

theorem witness_PhasesComplete :
    barReady (machine c0 z0 t0 { mu with bars := [barr [arr] 0] }) (.trp 1 0) = true ∧
    barReady (machine c0 z0 t0 { mu with bars := [barr [arr] 5] }) (.trp 1 0) = true ∧
    barReady (machine c0 z0 t0 mu) (.trp 1 0) = false ∧
    (∀ z ∈ (machine c0 z0 t0 { mu with bars := [barr [arr] 0] }).strs, ∀ x ∈ z.lanes, x.park = .none) := by decide +kernel

/-! ### Engines -/

/-- A copy of `n` elements at scratchpad offset 0, with the record at b8. -/
def zC (n : Dword) (v : List (Nat × Dword)) : Str := { zRec [] with s := (10, n) :: v }
def cop (ty : Ty) : Operands := { opnd 0 4 6 8 ty with c := 10 }

/-- An operation of the class of copies in flight. -/
def engOp (id : Nat) (cred : Option Nat) (done : List Nat) : EngOp :=
  { copyOp {} c0 (zC 1 []) t0 (cop .b32) .acpy 1 1 0 0 with id := id, cred := cred, done := done }

/-- No element with an older copy and without one, one element, an offset past the scratchpad and one past the counter's, a full
class, stores that are not accepted. -/
theorem witness_CopiesStart :
    (∀ i ∈ [Instr.acpy (cop .b32), .acpy2 (cop .b32), .agath (cop .b32), .ldts (cop .b32), .acoll { cop .f32 with level := .dev }],
      Issues (machine c0 (zC 1 []) t0 {}) i c0 (zC 1 []) t0) ∧
    Delivers c0 z0 t0 .bounds ∧
    Delivers c0 z0 tBlk .recoveryEscape ∧
    (s0.storesPending 2 9 || s0.engCount 2 0 == 63) = false ∧
    ((machine c0 z0 t0 { engs := (List.range 63).map fun i => engOp i none [] }).engCount 2 0 == 63) = true ∧
    (machine c0 z0 t0 { mu with accs := [{ acc .st .str .fresh none with id := 5 }] }).storesPending 2 9 = true ∧
    (((zC 1 [(4, 2 ^ 24 - 1), (6, 2 ^ 32 - 1)]).sreg 4).toNat < 2 ^ 24 ∧ ((zC 1 [(4, 0), (6, 2 ^ 32 - 1)]).sreg 6).toNat < 2 ^ 32) ∧
    ¬ ((zC 1 [(4, 2 ^ 24)]).sreg 4).toNat < 2 ^ 24 ∧
    (copyOp s0 c0 (zC 1 []) t0 (cop .b32) .acpy 1 1 0 0).startFault t0 = none ∧
    (copyOp s0 c0 (zC 1 []) t0 (cop .b32) .acpy 1 1 0 0).count = 1 ∧
    (copyOp s0 c0 (zC 0 []) t0 (cop .b32) .acpy 1 0 0 0).startFault t0 = none ∧
    (copyOp s0 c0 (zC 0 []) t0 (cop .b32) .acpy 1 0 0 0).count = 0 ∧
    s0.olderEng (copyOp s0 c0 (zC 0 []) t0 (cop .b32) .acpy 1 0 0 0) = false ∧
    (copyOp s0 c0 (zC 1 [(4, 16384)]) t0 (cop .b32) .acpy 1 1 0 0).startFault t0 ≠ none ∧
    shapeOf 0x10001 = (1, 1, 0) ∧
    ldtsOk (1 <<< 64 + 16 <<< 131 + 5 <<< 248) 32 0 0 = true ∧
    (cop .f32).ty.width = 8 * recSize rec4 ∧
    t0.protect = none ∧
    tBlk.protect ≠ none :=
  ⟨issueAll rfl rfl _ (by decide), delivers _, ⟨rfl, rfl, by decide, .inr rfl⟩, by decide +kernel⟩

def withEngs (es : List EngOp) : State := machine c0 z0 t0 { mu with engs := es }

theorem witness_CopiesRetire :
    ((withEngs [engOp 7 none [0]]).eng? 7 = some (engOp 7 none [0]) ∧ (engOp 7 none [0]).kind.cls ≠ 1 ∧
      (withEngs [engOp 7 none [0]]).olderEng (engOp 7 none [0]) = false ∧
      (withEngs [engOp 7 none [0]]).engWritesDone (engOp 7 none [0]) = true ∧
      (∀ k < (engOp 7 none [0]).count, k ∈ (engOp 7 none [0]).done) ∧ (withEngs [engOp 7 none [0]]).pendFlags = [] ∧
      (engOp 7 none [0]).trap = false ∧ (z0.lane 0).exited = false) ∧
    ((withEngs [engOp 6 none [], engOp 7 none [0]]).eng? 7 = some (engOp 7 none [0]) ∧
      (withEngs [engOp 6 none [], engOp 7 none [0]]).olderEng (engOp 7 none [0]) = true ∧
      (withEngs [engOp 6 none [], engOp 7 none [0]]).eng? 6 = some (engOp 6 none []) ∧ 0 < (engOp 6 none []).count ∧
      0 ∉ (engOp 6 none []).done) ∧
    Issues s0 (.cwait (opnd 0 0 0 0 .b32)) c0 z0 t0 ∧ s0.engCount 2 0 ≤ 0 ∧ (withEngs [engOp 7 none []]).engCount 2 0 > 0 :=
  ⟨by decide +kernel, by decide +kernel, issues (by decide) rfl rfl, by decide +kernel, by decide +kernel⟩

/-! ### Matrices and tiles -/

def mma : Operands := { opnd 0 4 6 8 .f16 with c := 0 }
def fullQuarter : Quarter := { quarter with ops := [{ matOp with id := 6 }, { matOp with id := 8 }] }
def tJ : Troop := { t0 with joint := 1 }
def zQ (idx : Nat) : Str := { z0 with idx := idx }

/-- Three members of a joint set whose MMAJs wait for the fourth, which is string 2. -/
def pendJ (sid : Nat) : PendJ :=
  { id := sid, sid := sid, tid := 1, set := 0, num := 0, ty := .f16, pc := 0x1000, depth := 0, trap := false, parts := 1, dst := 4, spec := false
    ftz := false, enabled := 0, chk := false, aRegs := [], bRegs := [], sRegs := [], acc := [] }
def sJoint (n : Nat) : State :=
  { machine c0 (zQ 3) tJ { pendJ := (List.range n).map fun i => pendJ (10 + i) } with
    strs := zQ 3 :: (List.range 3).map fun i => { zQ i with sid := 10 + i, slice := 3 * i } }
def member (s : State) (q : Nat) : Option Nat :=
  ((s.pendJ ++ [pendJ 2]).find? fun x => x.tid == 1 && x.num == 0 && x.set == 0 &&
    (match s.str? x.sid with | some y => y.idx == q | none => false)).map (·.sid)

/-- A free slice and one with two operations queued; the last member of a joint set and the first string past it. -/
theorem witness_MatrixIssue :
    Issues s0 (.mma mma) c0 z0 t0 ∧ Room z0 t0 64 ∧ s0.matQueued 0 0 = 0 ∧
    (machine c0 z0 t0 { quarters := [fullQuarter] }).matQueued 0 0 = 2 ∧
    (Issues (machine c0 (zQ 3) tJ {}) (.mmaj mma) c0 (zQ 3) tJ ∧ (zQ 3).idx < 4 * tJ.joint ∧ (zQ 3).idx ≠ 4 * ((zQ 3).idx / 4) + 0) ∧
    (Issues (sJoint 3) (.mmaj mma) c0 (zQ 3) tJ ∧ (List.range 4).map (member (sJoint 3)) = [some 10, some 11, some 12, some 2] ∧
      member (sJoint 2) 2 = none ∧ (∀ y ∈ (sJoint 2).strs, y.retired = false)) ∧
    4 * tJ.joint ≤ (zQ 4).idx ∧ Delivers c0 z0 t0 .illegalInstruction ∧
    (∀ i ∈ [Instr.mlease { opnd 0 0 0 0 .b32 with d := 0 }, .mlease { opnd 1 0 0 0 .b32 with d := 0 }], Issues s0 i c0 z0 t0) ∧
    (s0.quarter 0 0).holder ≠ some 1 ∧ (machine c0 z0 t0 { quarters := [quarter] }).quarter 0 0 = quarter ∧ quarter.holder = some t0.tid :=
  ⟨issues (by decide) rfl rfl, room [] 64, by decide, by decide, ⟨issues (by decide) rfl rfl, by decide, by decide⟩,
    ⟨⟨rfl, rfl, rfl, by decide⟩, by decide +kernel, by decide +kernel, by decide⟩, by decide, delivers _,
    issueAll rfl rfl _ (by decide), by decide, by decide, rfl⟩

/-- The results of the operation that a quarter runs, a check that fails once and one that fails twice, and a quarter at rest. -/
theorem witness_MatrixOperationsComplete :
    (let s := machine c0 z0 t0 { quarters := [quarter] };
      (s.quarter 0 0).run = some matOp ∧ s.str? matOp.sid = some z0 ∧ s.troop? z0.tid = some t0 ∧
        matOp.tid = t0.tid ∧ (matOp.chk && false) = false ∧ matOp.flags &&& matOp.enabled = 0 ∧ (matOp.writes.map (·.1)).Nodup ∧
        (∀ e ∈ matOp.writes, e.1 / 32 ∈ matOp.regs) ∧ matOp.chk = true ∧ matOp.trap = false ∧ (z0.lane 0).exited = false ∧
        t0.overflow = false) ∧ Room z0 t0 matOp.regs.length ∧ (s0.quarter 0 0).run = none :=
  ⟨⟨rfl, rfl, rfl, rfl, rfl, by decide, by decide, by decide, rfl, rfl, rfl, rfl⟩, room [] _, rfl⟩

def view (fmt : Ty) (rows cols : Nat) : View :=
  { fmt := fmt, rows := rows, cols := cols, scale := 0, cstride := 1, rstride := cols, extent := 256, origin := 0, tr := false
    layout := 0, oob := false, base := 0x2000 }

/-- t6 and t8 are f16 arrays, t5 a column of indexes, t4 an f32 array, t7 names stable entry 0; b6 is a record of words. -/
def zTile : Str := { str0 [] with
  b := [(6, 4 <<< 64 + 16 <<< 96 + 2 <<< 128)]
  t := [(4, .view (view .f32 16 16)), (5, .view (view .i32 16 1)), (6, .view (view .f16 16 16)), (7, .node 0), (8, .view (view .f16 16 16))] }

def node0 : Node :=
  { nodeOf c0 zTile t0 (opnd 0 4 6 8 .f32) .mul 16 16 [.view (view .f16 16 16), .view (view .f16 16 16)] with seq := 3 }

def sTile : State := machine c0 zTile t0 { mu with nodes := [node0] }

def tq (ty : Ty) : Operands := opnd 0 7 6 0 ty

theorem witness_TileRegisters :
    (∀ i ∈ [Instr.tdef (opnd 0 4 6 8 .f32), .tdrop (opnd 0 0 6 0 .b32), .tstat (opnd 1 4 6 0 .b32), .tidx (opnd 0 7 6 5 .b32),
      .tmul (opnd 0 7 6 8 .f32), .tmul { opnd 0 7 6 8 .f32 with c := 4, spec := true }, .tew (opnd 0 7 6 8 .f32), .tred (tq .f32),
      .ttrn (tq .f16), .tqnt (tq .tap8)], Issues sTile i c0 zTile t0) ∧ Room zTile t0 1 ∧
    tdefOk (zTile.breg 6) .f32 0 = true ∧ tdefOk (zTile.breg 4) .f32 0 = false ∧
    (sTile.tdesc 0 (zTile.treg 6)).map (fun a => (a.fmt, a.rows, a.cols)) = some (.f16, 16, 16) ∧
    (sTile.tdesc 0 (zTile.treg 5)).map (fun a => (a.fmt, a.rows, a.cols)) = some (.i32, 16, 1) ∧
    (sTile.tdesc 0 (zTile.treg 4)).map (fun a => (a.fmt, a.rows, a.cols)) = some (.f32, 16, 16) ∧
    (sTile.tdesc 0 (zTile.treg 9)).isNone = true ∧ tmulTypes .f32 .f16 none = true ∧ tmulTypes .f32 .f16 (some .f32) = true ∧
    sameKind .f32 .f16 = true ∧ (sTile.nodes.filter (·.tid == t0.tid)).length = 1 ∧ t0.stq = 8 ∧
    (∀ y ∈ sTile.nodes, y.core = 0 → y.n ≠ 1) ∧ (∀ m < 1, ∃ y ∈ sTile.nodes, y.core = 0 ∧ y.n = m) ∧
    Delivers c0 zTile t0 .tileShape ∧ t0.stSpill.size = 0 ∧ (sTile.nodes.filter (·.tid == t0.tid)).length = { t0 with stq := 1 }.stq :=
  ⟨issueAll rfl rfl _ (by decide), ⟨rfl, .inl rfl⟩, by decide +kernel, by decide +kernel, by decide +kernel, by decide +kernel,
    by decide +kernel, by decide +kernel, rfl, rfl, rfl, by decide +kernel, rfl, by decide +kernel, by decide +kernel,
    ⟨rfl, rfl, by decide, .inl rfl⟩, rfl, by decide +kernel⟩

/-- A TST and a TWALK of entry 0 into an f32 array, a TFORCE of it and of a view, the last box that fits and the first that does not. -/
def tileOp (kind : EngKind) (own : List Nat) : EngOp :=
  { tileOpOf sTile c0 zTile t0 kind .str (.node 0) (.view (view .f32 16 16)) (0, 0, 16, 16) with id := 7, done := own }

def zW : Str := { zTile with s := [(10, 0x10001)] }

/-- The fault of a walk table of three entries at an offset, if it has one. -/
def walks (off : Nat) : Option Cause := match t0.walkTable off 3 with | .ok _ => none | .error f => some f

theorem witness_TileOperations :
    (∀ i ∈ [Instr.tforce (opnd 0 0 7 8 .b32), .tforce (opnd 0 0 6 8 .b32), .tst (opnd 0 4 7 8 .b32),
      .twalk { opnd 0 4 7 8 .b32 with c := 10 }], Issues (machine c0 zW t0 { mu with nodes := [node0] }) i c0 zW t0) ∧
    Delivers c0 zTile t0 .tileShape ∧
    Delivers c0 zTile tBlk .recoveryEscape ∧
    sTile.tileHeld c0 = false ∧
    (machine c0 z0 t0 { engs := (List.range 63).map fun i => { tileOp .tforce [] with id := i } }).tileHeld c0 = true ∧
    (sTile.tdesc 0 (zW.treg 7)).map (fun a => (a.fmt, a.rows, a.cols)) = some (.f32, 16, 16) ∧
    zW.treg 7 = .node 0 ∧
    zW.treg 4 = .view (view .f32 16 16) ∧
    tstPair .f32 .f32 = true ∧
    boxOf (zW.sreg 8) 16 16 = some (0, 0, 16, 16) ∧
    boxOf 0x0001000F000F0001 16 16 = some (1, 15, 15, 1) ∧
    boxOf 0x0001000F000F0002 16 16 = none ∧
    sTile.engs = [] ∧
    sTile.pendFlags = [] ∧
    bitsNat (zW.sreg 10) 63 32 = 0 ∧
    leafCount (sTile.nodes.filter fun y => y.core == t0.core) 257 (.node 0) 0 = 2 ∧
    (zW.sreg 8).toNat + 8 * 3 ≤ t0.scratchSize ∧
    (∀ off ∈ [0, 16384 - 24], walks off = none) ∧
    walks 2 = some .misaligned ∧
    walks (16384 - 20) = some .bounds ∧
    bitsNat (0x700010001 : Dword) 63 32 = 7 ∧
    tBlk.protect ≠ none ∧
    (let s : State := { sTile with engs := [tileOp .tforce []] };
      s.eng? 7 = some (tileOp .tforce []) ∧ (tileOp .tforce []).kind.cls = 1 ∧ s.olderEng (tileOp .tforce []) = false ∧
        s.engWritesDone (tileOp .tforce []) = true ∧ s.demandsEnded t0 (tileOp .tforce []) = true ∧
        (tileOp .tforce []).tileCount true = 0) ∧
    (let s : State := { sTile with engs := [tileOp .twalk []] };
      s.eng? 7 = some (tileOp .twalk []) ∧ 0 < (tileOp .twalk []).tileCount (s.srcDesc t0 (tileOp .twalk [])).kcols) :=
  ⟨issueAll rfl rfl _ (by decide), ⟨rfl, rfl, by decide, .inl rfl⟩, ⟨rfl, rfl, by decide, .inr rfl⟩, by decide +kernel⟩

/-- Entry 0, demanded; entry 1 reads entry 0, whose cell is not computed; a paddock that is gone refuses the leaf. -/
def force : Force := { sid := 2, pc := 0x900, depth := 0, trap := false, wait := 7 }
def node1 : Node := { node0 with n := 1, op := .trn, slots := [.node 0], demanded := [(0, force)] }

/-- A unary node over one element, so that its cell costs little to compute. -/
def small : Node :=
  { node0 with op := .ew, fn := 8, rows := 1, cols := 1, slots := [.view (view .f32 1 1), .view (view .f32 1 1)], demanded := [(0, force)] }

def cellOk (s : State) (x : Node) : Bool :=
  match (s.cellValue x.sid t0 s.nodes x 0 []).2 with
  | .ok r => !r.bad && r.flags &&& x.enabled == 0
  | .error _ => false

def cellRefused (s : State) (x : Node) : Bool :=
  match (s.cellValue x.sid t0 s.nodes x 0 []).2 with
  | .error (.refused _) => true
  | _ => false

/-- A product of two arrays of one element, on a quarter that its troop holds or without one. -/
def product : Node := { small with op := .mul }
def roomy (s : State) (x : Node) : Bool := match (s.roomFor 257 1 (cellUnits x.out)).2 with | some (.ok _) => true | _ => false

theorem witness_CellsAreComputed :
    (let s : State := { sTile with nodes := [small] };
      s.node? 0 0 = some small ∧ small.op ≠ .gather ∧ small.demanded.find? (·.1 == 0) = some (0, force) ∧ s.troop? small.tid = some t0 ∧
        s.haltedCore 0 = false ∧ s.cellRailed (.cell 0 0 0) = false ∧ small.cellDeps s.nodes 0 [] = [] ∧ cellOk s small = true) ∧
    (let s : State := { sTile with nodes := [node0, node1] };
      s.node? 0 1 = some node1 ∧ (0, 0) ∈ node1.cellDeps s.nodes 0 [] ∧ node0.isForced 0 = false) ∧
    (let s : State := { sTile with nodes := [small], pads := [] }; cellRefused s small = true) ∧
    (let s : State := { sTile with nodes := [product], quarters := [{ core := 0, q := 0, holder := some 1 }] };
      s.node? 0 0 = some product ∧ cellOk s product = true ∧ roomy s product = true ∧
        (s.cellQuarter { t0 with lease := 64 } (.cell 0 0 0)).isSome = true ∧ s.cellRailed (.cell 0 0 0) = false) ∧
    sTile.cellQuarter t0 (.cell 0 0 0) = none ∧ { product with chk := true }.chk = true :=
  ⟨by decide +kernel, by decide +kernel, by decide +kernel, by decide +kernel, by decide +kernel, rfl⟩

/-! ### Tasks -/

def task (fn : BitVec 6) (d : Byte) : Operands := opnd fn d 6 0 .b32

/-- The record at S6 has job 3, the range 0 to 8 and the grain 4; S6 alone names job 3. -/
def zTask : Str := { str0 [] with s := [(7, 3), (9, 8), (10, 4)] }
def zJob (held : List (Nat × Nat)) : Str := { str0 [] with s := [(6, 3)], held := held }
def rec3 : TaskRec := { codeOff := 0, noSplit := false, job := 3, lo := 0, hi := 8, grain := 4, args := [0, 0, 0] }
def job3 : Job :=
  { pad := 0, slot := 0, id := 3, launch := 3, code := 0x1000, ring := 0x40000, rlog := 0, secure := false, super := false
    cancelled := false, cancelCores := [], faulted := false, terminated := false }

/-- A state with a page table that maps the first 64 GiB, and a job. -/
def mj (j : Job) : State := { mu with mem := Cells.setMany 0 [] (fetchCells 0 0), jobs := [j] }

def agentOk (r : State × AgentRes) : Bool := match r.2 with | .ok _ => true | _ => false

/-- No job, a job with no record held and with one, a cancelled core, a full ring, a job that has terminated, 255 records held. -/
theorem witness_TaskInstructions :
    (∀ i ∈ [Instr.spawn (task 0 4), .take (task 1 8), .done (task 2 0), .cancel (task 3 0), .tchk (task 4 4), .launch (task 5 4),
      .jwait (task 6 4)], Issues (machine c0 (zJob []) t0 (mj job3)) i c0 (zJob []) t0) ∧ Room (zJob []) t0 8 ∧
    t0.protect = none ∧ tBlk.protect ≠ none ∧ jobId 3 = some 3 ∧ jobId 0xFFFF = some 0xFFFF ∧ jobId 0x10000 = none ∧
    taskOf (fun i => zTask.sreg (6 + i)) = some rec3 ∧ taskOf (fun i => (zJob []).sreg (6 + i)) = none ∧
    (Issues (machine c0 { zTask with held := [(3, 1)] } t0 (mj job3)) (.spawn (task 0 4)) c0 { zTask with held := [(3, 1)] } t0 ∧
      (machine c0 zTask t0 (mj job3)).job? 0 3 = some job3 ∧ 0 < (zJob [(3, 1)]).heldOf 3 ∧ 0 ∉ job3.cancelCores) ∧
    (0 < (machine c0 zTask t0 (mj job3)).freeEntries 0 ∧
      ((machine c0 zTask t0 (mj job3)).ring 0 0 3).head = ((machine c0 zTask t0 (mj job3)).ring 0 0 3).tail ∧
      (machine c0 zTask t0 (mj job3)).batches = []) ∧
    (let s : State := { machine c0 zTask t0 (mj job3) with rings := [{ core := 0, pad := 0, job := 3, head := 0, tail := 7 }] };
      (s.ring 0 0 3).head ≠ (s.ring 0 0 3).tail ∧ (s.ring 0 0 3).tail - (s.ring 0 0 3).head ≠ job3.slots ∧
        s.cellRailed (.task 0 0 true) = false ∧ s.refusals = [] ∧
        agentOk (s.agentStore 0 false false (job3.slotVa 0 7) rec3.bytes) = true) ∧
    job3.slots = 8 ∧ (∀ i ∈ [0, 255], (zJob [(3, i)]).heldOf 3 = i) ∧ ({ job3 with terminated := true } : Job).status = 0 ∧
    (machine c0 (zJob []) t0 mu).job? 0 3 = none ∧ (canonical ((zJob []).sreg 8) = true ∧ ((zJob []).sreg 8).toNat % 64 = 0) ∧
    ((zJob []).sreg 6).toNat % 64 ≠ 0 ∧ canonical 0x0080000000000000 = false ∧ (mj job3).ops = [] ∧ Delivers c0 z0 t0 .taskQueue :=
  ⟨issueAll rfl rfl _ (by decide), ⟨rfl, .inl rfl⟩, rfl, by decide, by decide, by decide, by decide, by decide +kernel,
    by decide +kernel, ⟨issues (by decide) rfl rfl, rfl, by decide, by decide⟩, ⟨by decide, rfl, rfl⟩, by decide +kernel, rfl,
    by decide, rfl, rfl, by decide, by decide, by decide, rfl, delivers _⟩

/-- A job that ends with a JWAIT of it parked, a LAUNCH whose packet is read and passes its checks, and a full device-side queue. -/
def cancelled : SysOp := sysOp .cancel .str .waiting 3 3
def cancelOp : SysOp := { cancelled with cores := [0, 1] }
def launchOp : SysOp := sysOp .launch .dev .waiting 0x20000 4
def mPkt (ws : List Word) : State :=
  let bytes := (ws.flatMap fun w => bytesOf 4 w.toNat).zipIdx.map fun (b, i) => (0x20000 + i, b)
  { machine c0 z0 t0 { mj job3 with ops := [launchOp] } with mem := Cells.setMany 0 (mj job3).mem bytes }
def packet (s : State) : Option (List Word) :=
  match (s.readVirt 2 t0 false 0x20000 6 allBytes).2 with
  | .ok d => some (wordsOfBytes 16 (lineSlice d 0 64))
  | _ => none

theorem witness_TaskOperations :
    (let o := sysOp .jwait .str .waiting 3 4;
      (withOp o).ops = [o] ∧ (withOp o).troop? o.tid = some t0 ∧ job3.pad = t0.pad ∧ job3.id = o.arg ∧
        ∀ y ∈ (withOp o).strs, ∀ l ∈ y.lanes, l.park = .none) ∧
    (let ws := (fetchLaunch 3).words; let s := mPkt ws; let l := s.packetOf t0 ws;
      opFound s launchOp = true ∧ s.pad? t0.pad = some fetchPad ∧ s.haltedCore 0 = false ∧ s.cellRailed (.op 6) = false ∧ s.refusals = [] ∧
        launchOp.words = [] ∧ launchOp.arg % 64 = 0 ∧ packet s = some ws ∧ s.admitReason fetchPad l 3 = 0 ∧ l.extBytes = some 0 ∧
        l.extOk = true ∧ l.world = false ∧ l.prio ≤ t0.prio ∧ l.type ≠ 4 ∧ s.deviceQueued 0 = 0 ∧
        ({ s with launches := (List.range 64).map fun i => { l with id := i } } : State).deviceQueued 0 = 64) ∧
    (let ws := 9 :: (fetchLaunch 3).words.drop 1; let s := mPkt ws;
      packet s = some ws ∧ s.admitReason fetchPad (s.packetOf t0 ws) 3 ≠ 0) ∧
    (let s : State := { machine c0 z0 t0 (mj job3) with ops := [{ cancelled with cores := [1] }] };
      s.op? 6 = some { cancelled with cores := [1] } ∧ s.job? t0.pad cancelled.arg = some job3 ∧ job3.launch = cancelled.arg2) := by
  decide +kernel

/-- The string's TAKE waits on core 0, and core 1 holds a record; an odd grain that does not split. -/
def zTake : Str := { str0 [] with lanes := { pc := 0x1000, park := .take 3 8 5 } :: List.replicate 31 { pc := 0x1000 } }


/-- A launch of a job, whose initial record is at 0x20000. -/
def launchJob : Launch :=
  { fetchLaunch 4 with
    words := [4, 1, 1, 1, 0x02000001, 1, 0x10000, 0, 0, 0, 0, 0, 0, 0, 0x01000000, 0]
    ext := List.replicate 0x20 0 ++ bytesOf 8 0x40000 ++ bytesOf 8 0x30000 ++ bytesOf 8 0x20000, started := 0, live := 0 }
def mAct : State :=
  { mu with mem := Cells.setMany 0 [] (fetchCells 0 0 ++ [(0x20008, 3), (0x20018, 8), (0x20020, 4)]), launches := [launchJob] }

theorem witness_TaskEvents :
    (let s : State := { mj job3 with batches := [{ core := 0, job := 3, recs := [rec3], reserved := 1 }] };
      (s.padOf 0).isSome = true ∧ s.batches.find? (·.core == 0) = some { core := 0, job := 3, recs := [rec3], reserved := 1 } ∧
        s.job? 0 rec3.job = some job3 ∧ 0 ∉ job3.cancelCores) ∧
    (let s : State := { machine c0 zTake t0 (mj job3) with mangers := [{ core := 1, recs := [rec3], turn := 0 }] };
      (s.padOf 0).isSome = true ∧ (s.manger 1).recs.filter (·.job == 3) = rec3 :: [] ∧ s.haltedCore 0 = false ∧ s.haltedCore 1 = false ∧
        s.idleFor 0 job3 = true ∧ s.coreOf job3 1 = true ∧ rec3.grain ≤ (rec3.hi - rec3.lo) / 2 ∧
        ({ rec3 with hi := 7 }.hi - rec3.lo) / 2 < rec3.grain) ∧
    (let s : State := { mj job3 with steals := [{ id := 5, thief := 0, job := 3, task := rec3 }] };
      s.steals.find? (·.id == 5) = some { id := 5, thief := 0, job := 3, task := rec3 } ∧ s.freeEntries 0 ≠ 0) ∧
    (let s : State := { machine c0 z0 t0 (mj job3) with ops := [cancelOp] };
      s.op? 6 = some cancelOp ∧ 0 ∈ cancelOp.cores ∧ s.troop? cancelOp.tid = some t0 ∧ s.job? t0.pad cancelOp.arg = some job3 ∧ job3.launch = cancelOp.arg2) ∧
    (let s := machine c0 z0 t0 mAct;
      s.launch? 4 = some launchJob ∧ launchJob.type = 4 ∧ launchJob.stage = 5 ∧ launchJob.job = none ∧
        (s.pad? 0).map (fun p => (p.st, (s.served p).map (·.id), s.padCores p)) = some (.running, some 4, [0, 1, 2, 3, 4, 5, 6, 7]) ∧
        s.freeEntries 0 ≠ 0 ∧ s.fits launchJob 0 0 ≠ none ∧ launchJob.extWord 0x28 / 65536 = 3 ∧ s.jobs = [] ∧
        (match (s.agentGet launchJob (launchJob.extWord 0x30) 64).2 with
          | some (.ok bs) => taskOfBytes bs == some rec3
          | _ => false) = true ∧ (s.resident 0) ≠ []) :=
  ⟨by decide +kernel, by decide +kernel, by decide +kernel, by decide +kernel, by decide +kernel⟩

/-! ### Recovery -/

def ensureOps (lit : Dword) : Operands := { plain .extLit 0 0 0 .b32 with lit := lit }
def arrival (coll : Coll) (lane : Nat) (arg : Dword) : Arrival :=
  { sid := 2, lane := lane, coll := coll, pc := 0x1000, next := 0x1004, arg := arg, target := 0x5000, limit := 0 }
def withArr (t : Troop) (as : List Arrival) : Troop := { t with arrivals := as }
def tTan : Troop := { t0 with tandem := some 0 }

/-- Nobody has arrived, one lane of another instruction has, in a block and outside one; ENSURE at either end of the space. -/
theorem witness_CollectivesGather :
    (∀ i ∈ [Instr.ensure (ensureOps 1), .elseby (one 1 0 0 .b32), .elseerr (one 2 0 0 .b32), .accept (one 3 0 0 .b32),
      .reject (one 4 0 0 .b32), .tjoin (opnd 5 0 6 0 .b32), .tleave (one 6 0 0 .b32), .rstat (one 7 4 0 .b32)], Issues s0 i c0 z0 t0) ∧
    (Issues (machine c0 z0 tBlk {}) (.elseby (one 1 0 0 .b32)) c0 z0 tBlk ∧ tBlk.depth ≠ 0 ∧ tBlk.arrivals = []) ∧
    Room z0 t0 1 ∧
    Delivers c0 z0 t0 .illegalInstruction ∧
    Delivers c0 z0 t0 .bounds ∧
    Delivers c0 z0 tBlk .recoveryEscape ∧
    (∀ t ∈ [t0, tBlk], ∃ a ∈ (withArr t [arrival .reject 1 0]).arrivals, (withArr t [arrival .reject 1 0]).matchesColl a .tleave 0x1000 = false) ∧
    (∀ a ∈ (withArr tBlk [arrival .accept 1 0]).arrivals, (withArr tBlk [arrival .accept 1 0]).matchesColl a .accept c0.pc = true) ∧
    c0.trap = false ∧
    cT.trap = true ∧
    (c0.pc.toNat : Int) + 4 * (0xFFFFFFFFFFFFFC00#64).toInt = 0 ∧
    (c0.pc.toNat : Int) + 4 * (0xFFFFFFFFFFFFFBFF#64).toInt < 0 ∧
    (c0.pc.toNat : Int) + 4 * (0x3FFFFFFFFFFBFF#64).toInt = 2 ^ 56 - 4 ∧
    (∀ a ∈ (withArr t0 [arrival .tjoin 1 5]).arrivals, (withArr t0 [arrival .tjoin 1 5]).matchesColl a .tjoin c0.pc = true ∧
      a.arg ≠ z0.sreg 6) ∧
    (t0.depth = 0 ∧ tTan.depth = 0 ∧ tTan.tandem ≠ none) ∧
    (machine c0 z0 t0 mu).maskOk t0 1 = false ∧
    (let l : Launch := { fetchLaunch 3 with words := [1, 2, 1, 1, 0x02000001, 1, 0x10000, 0, 0, 0, 0, 0, 0, 0, 0x01000002, 0] };
      (machine c0 z0 t0 { mu with launches := [l] }).maskOk t0 3 = true) ∧
    t0.arrivals = [] ∧
    t0.joining = none :=
  ⟨issueAll rfl rfl _ (by decide), ⟨issues (by decide) rfl rfl, by decide, rfl⟩, room [] 1, delivers _, delivers _, ⟨rfl, rfl, by decide, .inr rfl⟩, by decide +kernel⟩

/-- A string with one lane that runs, so that one arrival completes a collective. -/
def zOne : Str := { str0 [] with lanes := { pc := 0x1004, park := .collective } :: List.replicate 31 { pc := 0, exited := true } }
def withColl (t : Troop) : State := machine c0 zOne t { mj job3 with jobs := [] }

/-- A block at depth 1 in and out of its test, draining or not, with a late fault of its depth and without. -/
def tIn (b : RBlock) (coll : Coll) : Troop := { t0 with blocks := [b], arrivals := [arrival coll 0 3] }
def marked : RBlock := { block with alts := [0x2000], endPc := 0x1000 }

def alone (t : Troop) (coll : Coll) : Bool :=
  (withColl t).troop? 1 == some t && t.arrivals == [arrival coll 0 3] && (withColl t).collDone t

def primary : Troop := { t0 with outr := some { role := .primary, mate := 5, waiting := some (1, 7) } }
def outrider (sig : Nat) : Troop := { t0 with tid := 5, outr := some { role := .outrider, mate := 1, waiting := some (1, sig) } }
def copies (sig : Nat) : State := { machine c0 z0 t0 mu with troops := [primary, outrider sig] }
def tie (sig : Nat) (st : TroopSt) : Troop :=
  { t0 with tid := 6, st := st, outr := some { role := .tieBreak, mate := 1, waiting := if sig = 0 then none else some (1, sig) } }
def ties (sig : Nat) (st : TroopSt) : State :=
  { machine c0 z0 t0 mu with troops := [{ primary with outr := primary.outr.map fun o => { o with tie := some 6 } }, outrider 8, tie sig st] }

def pairOf (s : State) : Option (Nat × Nat × Option (Nat × Nat) × Option (Nat × Nat)) :=
  (s.pair 1).map fun x => (x.1.tid, x.2.1.tid, x.2.2.1.waiting, x.2.2.2.waiting)

/-- The instruction after the ENSURE: an alternate and the end, or more alternates than a block has. -/
def scanned (n : Nat) : ScanRes :=
  let code := (List.replicate n (encode (.elseby (one 1 0 0 .b32)))).flatten ++ encode (.elseerr (one 2 0 0 .b32))
  let mem := Cells.setMany 0 (withColl t0).mem (code.zipIdx.map fun (b, i) => (0x1014 + i, b))
  (({ withColl t0 with mem := mem } : State).scanEnsure t0 (arrival .ensure 0 3)).2

theorem witness_CollectivesComplete :
    scanned 1 = .ok [0x1014, 0x1018] 0x1018 ∧ scanned 8 = .illegal ∧
    (alone (withArr t0 [arrival .ensure 0 3]) .ensure = true ∧ t0.depth ≠ 4 ∧
      alone { withArr t0 [arrival .ensure 0 3] with blocks := List.replicate 4 block } .ensure = true) ∧
    (∀ b ∈ [marked, { marked with inTest := true }, { marked with draining := some false }, { marked with inTest := true, draining := some true }],
      ∀ k ∈ [Coll.elseby, .elseerr, .accept, .reject], alone (tIn b k) k = true ∧ (tIn b k).blocks.getLast? = some b ∧
        (tIn b k).tandem = none ∧ (tIn b k).outr = none ∧ (tIn b k).depth = 1 ∧ (withColl (tIn b k)).drained (tIn b k) = true ∧
        (withColl (tIn b k)).lateIn (tIn b k) = none) ∧
    ((machine c0 { zOne with lateq := [{ late with depth := 1 }] } (tIn marked .elseby) mu).lateIn (tIn marked .elseby)).isSome = true ∧
    ({ withColl (tIn marked .elseby) with accs := [{ acc .st .str .fresh none with id := 5, depth := 1 }] } : State).drained
      (tIn marked .elseby) = false ∧
    alone (withArr t0 [arrival .tjoin 0 3]) .tjoin = true ∧ alone (withArr tTan [arrival .tleave 0 3]) .tleave = true ∧
    ((withColl t0).troop? 1 = some t0 ∧ t0.arrivals = []) ∧
    (tBlk.blocks[1 - 1]? = some block ∧ block.limit = 0 ∧ ({ block with limit := 5, count := 5 } : RBlock).limit ≤ 5) ∧
    (∀ sig ∈ [7, 8], (pairOf (copies sig) == some (1, 5, some (1, 7), some (1, sig))) = true ∧ ((copies sig).launchOf primary).isSome = true ∧
      ((copies sig).pad? 0).isSome = true) ∧
    (∀ sig ∈ [0, 7, 8, 9], ∀ st ∈ [TroopSt.running, .ended none],
      ((ties sig st).pair 1).map (fun x => x.2.2.1.tie) = some (some 6) ∧ (ties sig st).troop? 6 = some (tie sig st)) := by decide +kernel

/-! ### Notices, registers, packets -/

def notice : Notice :=
  { die := 0, fid := 5, pad := 0, secure := false, super := false, va := 0x50000, lvl := 3, home := 0, homePad := 0, kinds := 1
    posted := false, isOpen := true }
def mm : State := { mj job3 with jobs := [], notices := [notice] }
def padF : Paddock := { fetchPad with fqBase := 0x30000 }
def waitAcc : Access := acc .waitv .str (.ready 128 0 0) none
def answered (s : State) (e : Elem) (st : LineSt) : Bool :=
  (s.acc? 7).any fun a => a.elems.find? (fun x => x.lane == 0 && x.val.isNone) == some e && (a.lines.map (·.st)) == [st]

/-- A notice that is kept, one that names it and one that does not, owners of 0 and 1 entries, and the three kinds of WAITV lane. -/
theorem witness_FaultsAreAnswered :
    ({ mm with pads := [padF] } : State).keptNotices 0 = notice :: [] ∧ padF.fqBase ≠ 0 ∧ padF.fqFull = false ∧
    agentOk (({ mm with pads := [padF] } : State).agentStore 0 false true (padF.fqBase.toNat + 32 * (padF.fqWr.toNat % 2 ^ (padF.fqLog + 6)))
      (notice.words.flatMap (bytesOf 8))) = true ∧
    fetchPad.fqBase = 0 ∧ ({ padF with fqWr := 64 } : Paddock).fqFull = true ∧
    (∀ src ∈ [(0 : BitVec 8), 4], let n : Notice := { notice with src := srcDev src };
      n.isOpen && n.src == srcDev src && (n.die == srcDie src && n.fid == (5#24).toNat && n.homePad == 0 && n.home == 0)) ∧ srcDev 4 ≠ 0 ∧
    (notice.fid == (6#24).toNat) = false ∧ mm.pad? 0 = some fetchPad ∧ fetchPad.inval = none ∧
    ({ fetchPad with inval := some (inval none) } : Paddock).inval ≠ none ∧ mm.invalDone 0 (inval none) = true ∧
    agentOk (mm.agentLoad 0 false true 0 (16 * 1)) = true ∧
    parseOwners (chunks 16 1 (bytesOf 8 (2 ^ 26) ++ bytesOf 8 1)) = some [⟨2 ^ 26, 1, 0, 0⟩] ∧
    parseOwners (chunks 16 1 (List.replicate 16 0)) = none ∧ parseOwners (chunks 16 0 []) = some [] ∧
    answered (withAcc { waitAcc with elems := [{ word none with w := 0 }], lines := [] } t0) { word none with w := 0 } .fresh = false ∧
    answered (withAcc waitAcc t0) (word none) (.ready 128 0 0) = true ∧ (withAcc waitAcc t0).loadMayGo waitAcc 128 [word none] = true ∧
    (withAcc waitAcc t0).readWaits 2 (some 0) 0 128 (word none).mask = false ∧
    ((withAcc waitAcc t0).neededLine 2 t0 [(some 0, (word none).mask)] 0x2000 128 0 0 waitAcc.fresh).2 ≠ none := by decide +kernel

def queue0 : Queue := { pad := 0, qid := 0, kind := 0, prioMax := 3, logn := 6, base := 0x60000, rdPtr := 0x70000, rd := 3, door := 4 }

/-- A good descriptor, one of a secure queue and one whose reserved bytes are not zero. -/
def descr (c : Nat) : List Byte := bytesOf 8 0x60000 ++ bytesOf 8 0x70000 ++ bytesOf 4 c ++ List.replicate 44 0

/-- The first and the last doorbell values of a queue, and those beside them. -/
theorem witness_RegistersAndQueues :
    mm.pad? fetchPad.n = some fetchPad ∧ mm.ready = true ∧ mm.pad? 1 = none ∧ mm.mailbox.busy = false ∧
    bitsNat (0x10000000#64) 31 28 = 1 ∧ bitsNat (0x20000000#64) 31 28 = 2 ∧
    ({ mm with queues := [queue0] } : State).queue? 0 0 = some queue0 ∧ queue0.rd ≤ 3 ∧ 67 ≤ queue0.rd + 2 ^ queue0.logn ∧
    queue0.rd + 2 ^ queue0.logn < 68 ∧ 2 < queue0.rd ∧ mm.queue? 0 0 = none ∧
    agentOk (mm.agentLoad 0 false true fetchPad.qDesc.toNat 64) = true ∧
    (parseQueue 0 0 (descr 0x30)).map (·.kind) = some 0 ∧ (parseQueue 0 0 (descr 0x80)).map (·.kind) = some 2 ∧
    parseQueue 0 0 (descr 0x100) = none ∧ ({ mm with queues := [queue0] } : State).queued 0 0 ≠ [] ∧
    ({ mm with queues := [queue0], launches := [] } : State).queued 0 0 = [] ∧ fetchPad.st = .running := by decide +kernel

def pkt (stage : Nat) (words : List Word) : Launch := { fetchLaunch 4 with stage := stage, words := words, started := 0, live := 0 }
def pktWords : List Word := (fetchLaunch 4).words
def withPkt (l : Launch) : State := { mm with queues := [queue0], launches := [l], troops := [], strs := [] }
def gets (r : State × Option AgentRes) : Bool := match r.2 with | some (.ok _) => true | _ => false
def waitWords : List Word := [2, 1, 0x20000, 0, 0, 0, 0, 0, 0, 0, 0, 0, 0, 0, 0, 0]
def withSig (b : Byte) (l : Launch) : State := { withPkt l with mem := Cells.setMany 0 mm.mem [(0x20007, b)] }
def sigSet (b : Byte) : Bool :=
  match ((withSig b (pkt 5 waitWords)).agentGet (pkt 5 waitWords) ((addr56 ((pkt 5 waitWords).dword 2)).toNat / 8 * 8) 8).2 with
  | some (.ok bs) => (natOfBytes bs).testBit 63
  | _ => false

/-- Each stage of a packet, with and without an earlier one, an admitted packet and a rejected one, a signal set and clear. -/
theorem witness_PacketsProceed :
    ((∀ l ∈ ({ mm with queues := [queue0], launches := [] } : State).queued 0 0, 4 < l.stage) ∧
      ({ mm with queues := [queue0], launches := [] } : State).queue? 0 0 = some queue0 ∧ queue0.rd < queue0.door ∧
      (fetchLaunch 3).dispatched = true ∧ (pkt 5 pktWords).dispatched = false) ∧
    (∀ l ∈ [pkt 1 [], pkt 1 pktWords, pkt 2 pktWords, pkt 3 pktWords, pkt 4 pktWords],
      ((withPkt l).queued 0 0).find? (fun l => decide (l.stage ≤ 4)) = some l ∧ (withPkt l).before l = [] ∧
        gets ((withPkt l).agentGet l (queue0.base + 64 * (queue0.rd % 2 ^ queue0.logn)) 64) = true ∧
        gets ((withPkt l).agentPut l queue0.rdPtr (queue0.rd + 1)) = true) ∧
    (pkt 1 (0x4000 :: pktWords)).barrier = true ∧ (pkt 1 pktWords).barrier = false ∧
    ({ withPkt (pkt 1 pktWords) with launches := [fetchLaunch 3, pkt 1 pktWords] } : State).before (pkt 1 pktWords) ≠ [] ∧
    (withPkt (pkt 2 pktWords)).admitReason fetchPad (pkt 2 pktWords) 3 = 0 ∧ (pkt 2 pktWords).extBytes = some 0 ∧
    (pkt 2 pktWords).extOk = true ∧ (withPkt (pkt 2 (9 :: pktWords))).admitReason fetchPad (pkt 2 (9 :: pktWords)) 3 ≠ 0 ∧
    (pkt 2 [1, 1, 1, 1, 0x02000001, 1, 0x10000, 0, 0, 0, 0, 0, 0x20000, 0, 0x01000000, 0]).extBytes = some 64 ∧
    (pkt 2 [1, 1, 1, 1, 0x02000001, 1, 0x10000, 0, 0, 0, 0, 0, 0x20004, 0, 0x01000000, 0]).extBytes = none ∧
    gets ((withPkt (pkt 2 pktWords)).agentGet (pkt 2 pktWords) 0x20000 64) = true ∧
    (pkt 5 waitWords).type = 2 ∧ (pkt 5 waitWords).bits 1 2 0 = 1 ∧ sigSet 0x80 = true ∧ sigSet 0x7F = false := by decide +kernel

def lDisp : Launch := pkt 5 pktWords
def lOut : Launch := pkt 5 (0x80001 :: pktWords.drop 1)
def padTwo : Paddock := { fetchPad with clusters := [0, 1] }

/-- One troop on core 0, a redundant one on two clusters, a packet whose work is done and one that has still to start. -/
theorem witness_PacketsEnd :
    ((withPkt lDisp).launch? 4 = some lDisp ∧ lDisp.hasTroops = true ∧ lDisp.batch = 1 ∧ lDisp.prio = 0 ∧ lDisp.outrider = false ∧
      ((withPkt lDisp).served fetchPad).map (·.id) = some 4 ∧ 0 ∈ (withPkt lDisp).padCores fetchPad ∧ placesOk lDisp.unit [0] [] = true ∧
      ((withPkt lDisp).startAll fetchPad lDisp 0 0 [(0, 0)]).isSome = true) ∧
    (lOut.outrider = true ∧ lOut.batch = 1 ∧ placesOk lOut.unit [0] [8] = true ∧
      (match ({ withPkt lOut with pads := [padTwo] } : State).startAll padTwo lOut 0 0 [(0, 0)] with
        | some (_, s) => (s.startAll padTwo lOut 1 0 [(8, 0)]).isSome
        | none => false) = true) ∧
    ((withPkt { lDisp with started := 1 }).stage5Done { lDisp with started := 1 } = true ∧ (withPkt lDisp).stage5Done lDisp = false) ∧
    ((withPkt (pkt 6 pktWords)).launch? 4 = some (pkt 6 pktWords) ∧ ((withPkt (pkt 6 pktWords)).flushed (pkt 6 pktWords)).2 = true ∧
      (pkt 6 pktWords).retagged = false ∧ (withPkt (pkt 6 pktWords)).roundsDone 0 0 .die = true) ∧
    ((withPkt (pkt 7 pktWords)).before (pkt 7 pktWords) = [] ∧ (pkt 7 pktWords).dword 10 = 0) ∧
    ((withPkt lDisp).processes lDisp [.running] = true ∧ (withPkt lDisp).processes lDisp [.reset] = false ∧
      ({ withPkt lDisp with pads := [{ fetchPad with st := .draining }] } : State).processes lDisp [.running] = false) ∧
    (let l := pkt 7 [1, 1, 1, 1, 0x02000001, 1, 0x10000, 0, 0, 0, 0x20000, 0, 0, 0, 0x01000000, 0];
      l.dword 10 ≠ 0 ∧ gets ((withPkt l).agentPut l l.signal ((withPkt l).signalValue l)) = true) := by decide +kernel

/-- A string whose lanes have all exited, one of whose lines its troop's buffer has no room for, and a troop with its copy. -/
def zDone : Str := { str0 [] with lanes := List.replicate 32 { pc := 0, exited := true } }
def tCopy : Troop := { t0 with outr := some { role := .primary, mate := 5 } }

theorem witness_StringsAndTroopsRetire :
    ((machine c0 zDone t0 mu).str? 2 = some zDone ∧ (machine c0 zDone t0 mu).troop? zDone.tid = some t0 ∧ zDone.retired = false ∧
      (∀ l ∈ zDone.lanes, l.exited = true) ∧ (machine c0 zDone t0 mu).resultPending 2 = false ∧
      (machine c0 zDone t0 mu).storesPending 2 9 = false) ∧
    (machine c0 zDone t0 mu).haltedCore 0 = false ∧
    (let s := machine c0 zDone t0 { mu with lines := [bufLine], ranges := [range .isOpen] };
      ∃ c ∈ s.commitBytes 2 t0 .trp, s.inOpenRange t0 c.va 64 ≠ none) ∧
    ((machine c0 zDone t0 { mu with lines := [bufLine] }).retireCommit zDone t0).2 = [] ∧
    ((machine c0 zDone tNone { mu with lines := [bufLine] }).retireCommit zDone tNone).2 ≠ [] ∧
    (z0.lane 0).exited = false ∧
    (∀ t ∈ [t0, tCopy], (machine c0 { zDone with retired := true } t mu).troop? 1 = some t ∧ t.st = .running ∧
      (∀ z ∈ (machine c0 { zDone with retired := true } t mu).strsOf 1, z.retired = true) ∧
      (machine c0 { zDone with retired := true } t mu).engs = [] ∧ t.tandem = none) ∧
    t0.outr = none ∧ (tCopy.outr.bind (·.decided)) = none := by decide +kernel

/-! ### Pre-emption, the device, the whole machine -/

def padSt (st : PadSt) (busy : Bool) : Paddock := { fetchPad with st := st, busy := busy, clMask := 1 }
def withPad (p : Paddock) : State := { mm with pads := [p] }
def ctx : Context := ((machine c0 z0 t0 mm).takePad fetchPad 0).1
def padBlock : Paddock := { padSt .cutting true with csb := 0x30000, marked := [0, 1, 2, 3, 4, 5, 6, 7] }

/-- Slots 0 and 1 of one, each state busy or not, clusters granted and not, a context there and not, a core of the map gone. -/
theorem witness_Preemption :
    (∀ st ∈ [PadSt.running, .draining, .cutting, .saved, .reset], ∀ b ∈ [true, false],
      (withPad (padSt st b)).pad? 0 = some (padSt st b) ∧ (padSt st b).slots = 1) ∧
    (∀ c ∈ (List.range 32).filter (fun c => (padSt .saved false).clMask.getLsbD c), c ∈ (padSt .saved false).clusters) ∧
    (∃ c ∈ (List.range 32).filter (fun c => ({ padSt .saved false with clMask := 2 } : Paddock).clMask.getLsbD c),
      c ∉ (padSt .saved false).clusters) ∧
    (withPad (padSt .saved false)).contexts = [] ∧ (ctx.pad == 0 && ctx.slot == 0) = true ∧
    ({ withPad (padSt .saved false) with contexts := [ctx] } : State).mapCores ctx [0] = some ([(0, 0)], [(0, 0)]) ∧
    ({ withPad (padSt .saved false) with contexts := [ctx], removed := [0, 1, 2, 3, 4, 5, 6, 7] } : State).mapCores ctx [0] = none ∧
    (withPad (padSt .cutting true)).cutReady (padSt .cutting true) = false ∧
    (withPad { padBlock with csb := 0 }).cutReady { padBlock with csb := 0 } = true ∧ (withPad padBlock).cutReady padBlock = true ∧
    (((withPad padBlock).updPad 0 fun p => { p with csbData := { p.csbData with cuts := p.csbData.cuts + 1, lastUs := 5 } }).putBlock padBlock
      0x0C (bytesOf 4 5)).2 = true ∧
    ((withPad (padSt .cutting true)).padOf 0).map (·.marked) = some [] ∧ ((withPad padBlock).padOf 0).map (·.marked) = some padBlock.marked := by
  decide +kernel

def padZone : Paddock := { fetchPad with zones := [(0, { base := 2, enable := true, ordered := false, pages := 1 })] }

/-- The last byte of a zone and the first past it, a mapped page and one that is not, the last byte of a region and the first past it. -/
theorem witness_HostAndPeers :
    (withPad padZone).pad? 0 = some padZone ∧ padZone.zoneVa 0 65535 1 = some 0x2FFFF ∧ padZone.zoneVa 0 65535 2 = none ∧
    padZone.zoneVa 1 0 1 = none ∧
    ((withPad padZone).inboundLines 0 { id := 0 } (linePieces 0x2FFFF [7])).2.map (fun xs => xs.map fun x => (x.pa, x.bytes)) = some [(0x2FFFF, [7])] ∧
    (({ withPad padZone with mem := [] } : State).inboundLines 0 { id := 0 } (linePieces 0x2FFFF [7])).2 = none ∧
    agentOk (((withPad padZone).landAll 0).agentLoad 0 false false 0x2FFFF 1) = true ∧ (padZone.zone 0).ordered = false ∧
    ({ padZone with zones := [(0, { base := 2, enable := true, ordered := true, pages := 1 })] }.zone 0).ordered = true ∧
    agentOk (({ withPad padZone with mem := [] } : State).agentLoad 0 false false 0x2FFFF 1) = false ∧ mm.pad? 1 = none ∧
    1 ∉ mm.linkDown ∧ 31 ∉ mm.linkDown ∧ peerRefusal fetchPad (2 ^ 30 - 4) 4 = none ∧ peerRefusal fetchPad (2 ^ 30 - 4) 5 = some .permission ∧
    peerRefusal { fetchPad with regions := [⟨0, 1, true⟩] } 0 4 = some .world ∧
    (mm.readPhys 0 (2 ^ 30 - 4) 4).2 = some [0, 0, 0, 0] ∧ (({ mm with poison := [0] } : State).readPhys 0 0 4).2 = none ∧
    peerOf (5 * 2 ^ 50) = some 5 ∧ 5 ∈ ({ mm with linkDown := [5] } : State).linkDown := by decide +kernel

def box (block : List Dword) (s : State) : State := { s with mailbox := { cmd := 0, block := block ++ List.replicate (8 - block.length) 0, busy := true } }
def createBlock (n : Dword) : List Dword := [0x11000001 + n <<< 8, 2, 1, 0x0101]
def created (n : Nat) : Paddock :=
  { n := n, clusters := [1], regions := [⟨1, 1, false⟩], grants := 1, peers := 0, slots := 1, secure := false }
def running (s : State) (code : Nat) : Bool := s.mailbox.busy && bitsNat (s.mailbox.block.headD 0) 7 0 == code

/-- Each mailbox command, well formed and malformed; a paddock's place taken and, where the silicon leaves it the memory, free. -/
theorem witness_MailboxCommands :
    running (box (createBlock 5) mm) 1 = true ∧ parseCreate (box (createBlock 5) mm).mailbox.block = some (created 5) ∧
    parseCreate (box [1] mm).mailbox.block = none ∧ mm.createResult (created 0) = 2 ∧
    (running (box [0x0002] mm) 2 = true ∧ onlyBits (box [0x0002] mm).mailbox.block [0x1FFF#64] = true ∧ mm.pad? 0 = some fetchPad ∧
      mm.pad? (bitsNat (0x0502#64) 12 8) = none ∧ ({ mm with launches := [] } : State).idlePad 0 = true ∧
      (machine c0 z0 t0 mm).idlePad 0 = false) ∧
    (running (box [3, 0x20000] mm) 3 = true ∧ onlyBits (box [3, 0x20000] mm).mailbox.block [0x3F1FFF#64, 0x00FFFFFFFFFFFFC0#64] = true ∧
      fetchPad.secure = false ∧ (withPad { fetchPad with secure := true }).pad? 0 = some { fetchPad with secure := true }) ∧
    running (box [4, 1, 2, 3, 4, 0x20000] mm) 4 = true ∧ onlyBits (box [4, 1, 2, 3, 4, 0x20000] mm).mailbox.block
      [0xFF#64, .allOnes 64, .allOnes 64, .allOnes 64, .allOnes 64, 0x00FFFFFFFFFFFFC0#64] = true ∧
    running (box [5] mm) 5 = true ∧ onlyBits (box [5] mm).mailbox.block [0xFF#64] = true ∧
    running (box [6, 0x20000] mm) 6 = true ∧ onlyBits (box [6, 0x20000] mm).mailbox.block [0xFF#64, 0x00FFFFFFFFFFFFC0#64] = true ∧
    (box [6, 0x20000] mm).hostFail = false ∧ (box [6, 0x20000] { mm with hostFail := true }).hostFail = true ∧
    mm.mailbox.busy = false := by decide +kernel

theorem witness_PaddockIsCreated (hk : Config.keptGiB 1 = false) (hf : Config.firmwareGiB 0 % 60 ≠ 1) (hs : ∀ d, 40 ≤ Config.shadowMiB false d) :
    mm.createResult (created 5) = 0 := by
  have h1 : mm.regionsOk (created 5).regions = true := by
    have h : (created 5).regions.flatMap Region.gibs = [1] := by decide
    simp only [State.regionsOk, h, List.all_cons, List.all_nil, gibOk, hk]
    have h' : (1 % 64 != Config.firmwareGiB (1 / 64) % 60) = true := bne_iff_ne.2 fun e => hf e.symm
    rw [h']
    decide +kernel
  have h2 : mm.shadowOk (created 5) = true := by
    have h : ∀ d ∈ List.range 4, (created 5).shadow d +
        sum ((mm.pads.filter fun (x : Paddock) => x.secure == (created 5).secure).map (·.shadow d)) ≤ 40 := by decide +kernel
    exact List.all_eq_true.2 fun d hd => decide_eq_true (Nat.le_trans (h d hd) (hs d))
  rw [State.createResult, if_neg (by decide +kernel), if_neg (by decide +kernel), if_neg (by simp [h1]), if_neg (by simp [h2]),
    if_neg (by decide +kernel)]

/-- A line that is poisoned, sound, struck once and struck twice; the last line of a die that is backed and the first that is not;
a core that runs, one that is idle, one under test and one past the last. -/
theorem witness_DeviceManagement :
    onDevice (60 * 2 ^ 24 - 1) = true ∧ (60 * 2 ^ 24 - 1) % 2 ^ 30 < 60 * 2 ^ 24 ∧ ¬ (60 * 2 ^ 24) % 2 ^ 30 < 60 * 2 ^ 24 ∧
    (∀ k ∈ [0, 1, 2], Cells.get 0 ({ mm with upsets := Cells.set 0 [] 9 k } : State).upsets 9 = k) ∧ 9 ∉ mm.poison ∧
    9 ∈ ({ mm with poison := [9] } : State).poison ∧ 255 ∉ mm.removed ∧ 255 ∉ mm.scanning ∧ mm.idleCore 255 = true ∧
    (machine c0 z0 t0 mm).idleCore 0 = false ∧ 7 ∈ ({ mm with scanning := [7] } : State).scanning ∧ mm.l1 = [] ∧
    (mm.padOf 7).isSome = true := by decide +kernel

/-! ### More clauses of the statements, at the boundaries of their conditions -/

/-- Signalling NaNs in v6 to v9, a scale byte of NaN in v20, and every flag enabled, with no lane in trap mode and with one (R33, R84). -/
def zFp : Str := { str0 ((20, 0xFFFFFFFF) :: [6, 7, 8, 9].map fun n => (n, 0x7FA07D00)) with fpctl := 0x3E }
def zFpT : Str := { zFp with lanes := {} :: { pc := 0x8000, trap := true } :: List.replicate 30 {} }

/-- The cause of the trap that an instruction takes, and FPFLAGS. -/
def trapped (i : Instr) (z : Str) : Option (Word × Word) :=
  match exec i (machine c0 z t0 {}) with
  | .next s => (s.str? 2).map fun z => (z.trapCause, z.fpflags)
  | _ => none

def raising : List Instr :=
  [.fsetp of, .lred (un 0 .f32), .lscan (un 0 .f32), .fadd of, .fsub of, .fmul of, .fdiv of, .ffma of, .fmin of, .fmax of, .fscale of,
    .frcpExt (un 0 .f32), .frsqExt (un 0 .f32), .fsqrtExt (un 0 .f32), .frnd (one 0 4 6 .f32), .ffrx (one 0 4 6 .f32), .ffrxExt (un 0 .f32),
    .cfma (opnd 0 4 6 8 .cf32), .cvt (cvtOps .f16 12), .cvti (cvtOps .i32 12), .pack (cvtOps .tap8 12), .unpk (cvtOps .f32 14),
    .qnt { qntOps false with a := 6 }, .dqnt (dqntOps false), .frcp (one 0 4 6 .f32), .frsq (one 0 4 6 .f32), .fsqrt (one 0 4 6 .f32),
    .fexp2 (one 0 4 6 .f32), .fexp2Ext (un 0 .f32), .flog2 (one 1 4 6 .f32), .flog2Ext (un 1 .f32), .fsinp (one 2 4 6 .f32),
    .fsinpExt (un 2 .f32), .fcosp (one 3 4 6 .f32), .fcospExt (un 3 .f32), .frndExt (un 0 .f32)]

/-- An enabled flag that each raises: NV. -/
theorem witness_FpTraps :
    (∀ i ∈ raising, Issues (machine c0 zFp t0 {}) i c0 zFp t0) ∧ Delivers c0 zFp t0 .fpException ∧
    (∀ i ∈ raising, trapped i zFp = some (BitVec.ofNat 32 Cause.fpException.code, 1)) ∧
    (∀ i ∈ raising, Issues (machine c0 zFpT t0 {}) i c0 zFpT t0) ∧ zFpT.lanes.any (·.trap) = true :=
  ⟨issueAll rfl rfl _ (by decide), ⟨rfl, rfl, by decide, .inl rfl⟩, by decide +kernel, issueAll rfl rfl _ (by decide), by decide⟩

/-- Atomics in an open range, a RADD of another type and one outside the range, ACAS and AFADD inside a recovery block. -/
theorem witness_AtomicsAndRanges :
    (let u : State := { mu with ranges := [range .isOpen] };
      (∀ i ∈ [Instr.atom { oi with c := 10 }, .acas { ob with c := 10 }, .afadd { of with c := 10 }, .radd of],
        Issues (machine c0 (zRec []) t0 u) i c0 (zRec []) t0) ∧
      ∃ e ∈ elemsOf 4 (fun _ => 0) (fun _ => 0) [(0, .at 0x2000)], e.w ≠ 0 ∧
        (machine c0 (zRec []) t0 u).inOpenRange t0 e.va e.w = some (range .isOpen) ∧ (range .isOpen).ty ≠ of.ty) ∧
    (Issues (machine c0 (zRec []) t0 mu) (.radd oi) c0 (zRec []) t0 ∧ (machine c0 (zRec []) t0 mu).inOpenRange t0 0x2000 4 = none) ∧
    (Issues (machine c0 (zRec [(6, 16)]) t0 mu) (.radd oi) c0 (zRec [(6, 16)]) t0 ∧
      recAddrs (zRec [(6, 16)]) oi 4 c0.lanes = .error .bounds) ∧
    (∀ i ∈ [Instr.acas { ob with c := 10, level := .dev }, .afadd { of with c := 10, level := .dev }],
      Issues (machine c0 (zRec []) tBlk mu) i c0 (zRec []) tBlk) ∧ Level.trp.code < Level.dev.code ∧ Delivers c0 z0 t0 .rangeStore :=
  ⟨⟨issueAll rfl rfl _ (by decide), by decide +kernel⟩, ⟨issues (by decide) rfl rfl, by decide +kernel⟩,
    ⟨issues (by decide) rfl rfl, by decide +kernel⟩, issueAll rfl rfl _ (by decide), by decide, delivers _⟩

/-- BRLD of a place that is no multiple of 32, and of one past the end of the space. -/
theorem witness_BrldTraps :
    Issues (machine c0 (zS [(6, 0x2010)]) t0 mu) (.brld { un 0 .b32 with b := 0 }) c0 (zS [(6, 0x2010)]) t0 ∧
    (canonical 0x2010 = true ∧ spanOk 0x2010 32 = true ∧ 0x2010 % 32 ≠ 0) ∧
    (canonical 0x007FFFFFFFFFFFF0 = true ∧ spanOk 0x7FFFFFFFFFFFF0 32 = false) ∧ Delivers c0 z0 t0 .misaligned :=
  ⟨issues (by decide) rfl rfl, by decide +kernel, by decide +kernel, delivers _⟩

/-- A fresh line of a load and of an atomic that walks, an atomic of a halted core. -/
theorem witness_LinesWalk :
    (∀ k ∈ [AccKind.ld, .brld, .atom, .acas, .afadd], let a := acc k .trp .fresh none; let s := withAcc a t0;
      s.acc? 7 = some a ∧ s.earlier a = [] ∧ s.haltedCore t0.core = false ∧
        (({ s with nextId := 10 } : State).translate (some 0) 0 false false k.access 0x2000).2 = .ok 0x2000 0 0) ∧
    ({ mu with pads := [{ fetchPad with st := .cutting, marked := [0] }] } : State).haltedCore t0.core = true := by decide +kernel

/-- The operands of CROPEN, CRCLOSE, TLBI and CFLUSH that trap, at the first values that each clause takes. -/
theorem witness_OperationTraps :
    ((addr56 0x20).toNat % 64 ≠ 0 ∧ (addr56 0x40).toNat % 64 = 0 ∧ (32#64).toNat % 64 ≠ 0 ∧ (64#64).toNat % 64 = 0) ∧
    (let b : Dword := 0x0080000000000000; canonical b = false ∧ (addr56 b).toNat % 64 = 0) ∧
    (canonical 0x40 = true ∧ spanOk 0x40 0 = true ∧ spanOk 0x40 (2 ^ 32 + 64) = true ∧ (0 : Nat) < 64 ∧ 2 ^ 32 < 2 ^ 32 + 64) ∧
    (∀ o ∈ [Instr.cropen (sx 8 0 .f32), .crclose (sx 0 0 .b32)], Issues s0 o c0 z0 t0) ∧
    Issues (machine cS (zS [(6, 0xFFFF)]) t0 {}) (.tlbi (sx 8 0 .b32)) cS (zS [(6, 0xFFFF)]) t0 ∧
    Issues (machine cS (zS [(8, 0x80000000)]) t0 {}) (.tlbi (sx 8 0 .b32)) cS (zS [(8, 0x80000000)]) t0 ∧
    Issues (machine cS (zS [(6, 0x100000000000000)]) t0 {}) (.tlbi (sx 8 0 .b32)) cS (zS [(6, 0x100000000000000)]) t0 ∧
    (∀ v ∈ [[(6, 1), (8, 64)], [(6, 0x0080000000000000), (8, 64)]], rangeFault ((zS v).sreg 6) ((zS v).sreg 8) ≠ none) ∧
    Delivers cS z0 t0 .misaligned ∧ Delivers cS z0 t0 .bounds ∧ Delivers c0 z0 t0 .noncanonical :=
  ⟨by decide +kernel, by decide +kernel, by decide +kernel, issueAll rfl rfl _ (by decide), issues (by decide) rfl rfl,
    issues (by decide) rfl rfl, issues (by decide) rfl rfl, by decide +kernel, delivers _, delivers _, delivers _⟩

/-- BWAIT and BSTAT at cluster level, where the troop has no barrier; a BARV that waits for the phase that its string ends. -/
def zBarv : Str := { str0 [] with lanes := { pc := 0x1004, park := .barrier (.trp 1 0) 0 (some 4) } :: List.replicate 31 { pc := 0x1000 } }

theorem witness_BarrierClauses :
    (∀ i ∈ [Instr.bwait (barOp 0 0 6 .clu), .bstat (barOp 0 4 0 .clu)], Issues sb i c0 z0 t0) ∧ sb.barKey z0 t0 .clu 0 = none ∧
    (let s := machine c0 zBarv t0 { mu with bars := [barr [{ arr with val := some 5 }] 0] };
      barReady s (.trp 1 0) = true ∧ (∀ u ∈ s.troops, u.depth = 0) ∧ s.str? 2 = some zBarv ∧
        (zBarv.lane 0).park = .barrier (.trp 1 0) (s.bar (.trp 1 0)).done (some 4)) :=
  ⟨issueAll rfl rfl _ (by decide), by decide +kernel⟩

/-- The last lane exits, with a late fault and without. -/
def zLast (q : List Late) : Str := { str0 [] with lateq := q, lanes := { pc := 0x1000 } :: List.replicate 31 { pc := 0, exited := true } }

theorem witness_LastLaneExits :
    Issues (machine c0 (zLast []) t0 mu) (.exit (one 0 0 0 .b32)) c0 (zLast []) t0 ∧
    Issues (machine c0 (zLast [late]) t0 mu) (.exit (one 0 0 0 .b32)) c0 (zLast [late]) t0 ∧ t0.depth = 0 ∧
    ∀ q ∈ [[], [late]], ∀ l ∈ ((zLast q).mapLanes 1 fun x => { x with exited := true }).lanes, l.exited = true :=
  ⟨issues (by decide) rfl rfl, issues (by decide) rfl rfl, rfl, by decide⟩

/-- The check of an operation whose epoch has been rolled back fails twice. -/
theorem witness_DeadOperation :
    let op : MatOp := { matOp with dead := true }
    ((machine c0 z0 t0 { quarters := [{ quarter with run := some op }] }).quarter 0 0).run = some op ∧ op.chk = true ∧
      (machine c0 z0 t0 { quarters := [{ quarter with run := some op }] }).str? op.sid = some z0 := by decide +kernel

/-- A walk over 32 leaves, and one whose source is a view. -/
def doubling (n : Nat) : Node :=
  { node0 with n := n, slots := if n = 0 then node0.slots else [.node (n - 1), .node (n - 1)] }

theorem witness_WalkTraps :
    leafCount ((List.range 4).map doubling) 257 (.node 3) 0 = 16 ∧ leafCount ((List.range 5).map doubling) 257 (.node 4) 0 = 32 ∧
    (∀ n, zW.treg 6 ≠ .node n) ∧ Issues (machine c0 zW t0 mu) (.twalk { opnd 0 4 6 8 .b32 with c := 10 }) c0 zW t0 ∧
    (machine c0 zW t0 mu).tileHeld c0 = false ∧ Delivers c0 zW t0 .tileShape :=
  ⟨by decide +kernel, by decide +kernel, fun _ h => (by cases h), issues (by decide) rfl rfl, by decide +kernel, rfl, rfl, by decide, .inl rfl⟩

/-- A cell that lacks its one input, and one that lacks none. -/
theorem witness_MissingInputs :
    let lacks := fun (ns : List Node) (e : Nat × Nat) => (ns.find? fun (y : Node) => y.n == e.1).any fun y => !y.isForced e.2
    lacks [node0, node1] (0, 0) = true ∧ lacks [node0] (1, 0) = false := by decide +kernel

/-- A stolen record of a job that is cancelled at the thief; a ring with room and one that a batch not yet read fills. -/
theorem witness_CancelledSteal :
    (let j : Job := { job3 with cancelCores := [0] }; let s : State := { mj j with steals := [{ id := 5, thief := 0, job := 3, task := rec3 }] };
      s.steals.find? (·.id == 5) = some { id := 5, thief := 0, job := 3, task := rec3 } ∧ (s.padOf 0).map (·.n) = some 0 ∧
        s.haltedCore 0 = false ∧ s.job? 0 3 = some j ∧ 0 ∈ j.cancelCores) ∧
    (let s : State := { machine c0 zTask t0 (mj job3) with rings := [{ core := 0, pad := 0, job := 3, head := 0, tail := 7 }] };
      (s.ring 0 0 3).tail - (s.ring 0 0 3).head + s.unread 0 3 < job3.slots ∧
        job3.slots ≤ ({ s with batches := [{ core := 0, job := 3, recs := [], reserved := 1, left := [0] }] } : State).unread 0 3 + 7) := by
  decide +kernel

/-- The test address of an ENSURE at either end of the space and past it. -/
theorem witness_TestTargets :
    canonical (testTarget 0x1000 0xFFFFFFFFFFFFFC00) = true ∧ canonical (testTarget 0x1000 0x3FFFFFFFFFFBFF) = true ∧
    canonical (testTarget 0x1000 0xFFFFFFFFFFFFFBFF) = false ∧ canonical (testTarget 0x1000 0x3FFFFFFFFFFC00) = false := by decide +kernel

/-- A collective of a halted core; a test address outside the space; a scan that the paddock's absence refuses. -/
theorem witness_CollectiveEnds :
    (withColl t0).haltedCore t0.core = false ∧ canonical (arrival .ensure 0 3).target = true ∧
    canonical { arrival .ensure 0 3 with target := testTarget 0x1000 0xFFFFFFFFFFFFFBFF }.target = false ∧
    (match (({ withColl t0 with pads := [] } : State).scanEnsure t0 (arrival .ensure 0 3)).2 with | .refused _ => true | _ => false) = true ∧
    (tIn marked .ensure).depth = 1 ∧ ((mu.updPad 0 fun p => { p with st := .cutting, marked := [0] }).haltedCore t0.core) = true := by
  decide +kernel

/-- A troop with no recovery spill on its way, and one with. -/
theorem witness_TroopsRetire :
    t0.depth = 0 ∧ t0.rcPending = [] ∧ (machine c0 { zDone with retired := true } t0 mu).cellRailed (.bag 1) = false := by decide +kernel

/-- The operations of a peer, at the last place that they reach. -/
theorem witness_PeerOperations :
    peerSize [1, 2, 3, 4] .write = 4 ∧ peerSize [1, 0, 0, 0] (.atom 0 .i32) = 4 ∧ peerSize (List.replicate 16 0) (.acas .b64) = 8 ∧
    ((peerCombine [1, 0, 0, 0] (.atom 0 .i32)).bind fun x => x.2 5) = some 6 ∧
    ((peerCombine [5, 0, 0, 0, 7, 0, 0, 0] (.acas .b32)).map fun x => (x.2 5, x.2 6)) = some (some 7, none) ∧
    (mm.readPhys 0 (2 ^ 30 - 8) 8).2 = some (List.replicate 8 0) := by decide +kernel

/-- A copy with a fault retires; a core under test without partial lines. -/
theorem witness_FaultyCopies :
    ({ engOp 7 none [0] with fault := some .pageFault } : EngOp).fault.isSome = true ∧ mm.partials = [] := by decide

/-- A turn of the script runs what the bytes at the PC decode to: an instruction, or ILLEGAL_INSTRUCTION where they decode to none. -/
def runsAt (w : Nat) (ok : Bool) : Bool :=
  let s := State.reset.withFetchWord 32 w
  match s.script with
  | .turn core slice :: rest =>
    let s0 := { s with script := rest }
    match s0.waiting core slice with
    | sid :: _ =>
      match s0.str? sid with
      | some z =>
        match s0.troop? z.tid with
        | some t =>
          let y := z.dropPref
          match y.choose with
          | some g =>
            !s0.haltedCore core && decide ((s0.strs.filter fun x => x.core == core && x.slice == slice && x.issued).length < 2) &&
              y.lateq.isEmpty && (y.fetchFault g).isNone && t.failing.isNone &&
              (match s0.fetchInstr t.core t.pad t.secure (State.isSuper t g.trap) g.pc.toNat with
              | (s1, .ok bs, _) =>
                let next := g.pc + BitVec.ofNat 56 (4 * wordsOf bs)
                let goes := fun (u : Host.Outcome State Fault Refusal) => match u with
                  | .next u => (match u.cur with | some c => c.verdict == .go | none => false)
                  | _ => false
                match decode bs with
                | .ok (i, _) => ok && !s1.scoreboardHolds y i && decide (y.lateq.length < 16) && !(s1.bagHolds y t).2 &&
                    goes (exec i ((s1.bagHolds y t).1.beginIssue y t g next i.settles))
                | .error _ => !ok && goes (exec .illegalInstruction (s1.beginIssue y t g next false))
              | _ => false)
          | none => false
        | none => false
      | none => false
    | [] => false
  | _ => false

theorem witness_StepRunsDecoded :
    runsAt 0xFFF41D08 true = true ∧ runsAt 0x00000148 false = true ∧ z0.lanes.length = 32 ∧ s0.str? z0.sid = some z0 :=
  ⟨by decide +kernel, by decide +kernel, rfl, rfl⟩

theorem witness_DecodesEncoded : (Instr.iadd oi).wf = true ∧ encodeWords (.iadd oi) ≠ [] := ⟨by decide, by decide⟩

theorem witness_LoadsReadBuffersFirst : 63 < 64 ∧ (1 <<< 63 : Dword).getLsbD 63 = true ∧ (1 <<< 63 : Dword).getLsbD 62 = false := by decide

/-- A late fault of a troop with no handler, and one of depth 1 while an alternate runs, with none and with another failure already found. -/
theorem witness_LateFaultsWithoutHandler :
    (let z := { zL with trapBase := 0 };
      (machine c0 z t0 {}).str? c0.sid = some z ∧ z.lateq = late :: [] ∧ z.trapBase = 0 ∧ z.lanes.any (·.trap) = false ∧ t0.depth = 0 ∧
        (tBlk.depth ≠ 0 ∧ late.depth = 0) ∧ Cause.recoveryEscape.routes = false) ∧
    (let f := { late with depth := 1 };
      f.cause.routes = true ∧ f.depth ≠ 0 ∧ tBlk.failing = none ∧ ∀ fs ∈ [[], [{ depth := 1, kind := 2, cause := 0 }]],
        (⟨min f.depth tBlk.depth, 3, f.cause.code, false, false⟩ : Failure) ∉ fs) := by decide

/-- A trap with no handler outside a block, of a troop alone and of a redundant one. -/
theorem witness_TroopsEndByTrap :
    (let z : Str := { z0 with trapBase := 0 };
      Issues (machine c0 z t0 mu) (.trap { settle := false, d := 0, imm := 5 }) c0 z t0 ∧ z.trapBase = 0 ∧ c0.trap = false ∧
        z.lanes.any (·.trap) = false ∧ t0.overflow = false ∧ t0.ended = false ∧ t0.outr = none) ∧
    ((machine c0 z0 tCopy mu).troop? tCopy.tid = some tCopy ∧ tCopy.outr ≠ none) :=
  ⟨⟨issues (by decide) rfl rfl, rfl, rfl, by decide, rfl, rfl, rfl⟩, rfl, by decide⟩

/-! A troop with two blocks open, of which the clock has found failures. -/

def tFail (bs : List RBlock) (fs : List Failure) : Troop := { t0 with blocks := bs, fails := fs }
def fDeep : Failure := { depth := 2, kind := 1, cause := 0 }
def fTwo : Failure := { depth := 1, kind := 6, cause := 0 }
def fTop : Failure := { depth := 1, kind := 3, cause := 8 }

/-- The state as its rollback begins, when nothing has to be forced or read back. -/
def forced (t : Troop) (f : Failure) : Bool :=
  let s := machine c0 z0 t {};
  let noted := fun (z : Str) => { z with fkind := f.kind, fcause := if f.kind = 7 then z.fcause else f.cause };
  let marked := ({ s with strs := updAll (·.tid == t.tid) noted s.strs } : State).updTroop t.tid fun t => { t with fails := [] };
  (marked.rollbackForce t.tid f.depth s.nextId).2

/-- Failures of two depths and of one, the next alternate and none left, of the outermost block and of an inner one. -/
theorem witness_AlternatesFail :
    Leads [fDeep, fTwo, fTop, fTop] fTop ∧ Leads [fTop] fTop ∧
    (let t := tFail [block, block] [fDeep, fTwo, fTop];
      (machine c0 z0 t {}).troop? t.tid = some t ∧ t.failing = none ∧ 0 < fTop.depth ∧ t.blocks[fTop.depth - 1]? = some block ∧
        forced t fTop = true ∧ fTop.final = false ∧ block.alt + 1 < block.alts.length ∧
        (machine c0 z0 t {}).troops.filter (fun t => !t.fails.isEmpty) = [t]) ∧
    (let b := { block with alt := 1 };
      forced (tFail [b] [fTop]) fTop = true ∧ b.alts.length ≤ b.alt + 1 ∧ (overflowed (tFail [b] [])).final = true ∧
        forced (tFail [block, b] [fDeep]) fDeep = true ∧ fDeep.depth ≠ 1) :=
  ⟨⟨[fDeep, fTwo], [fTop], rfl, by decide, by decide⟩, ⟨[], [], rfl, by simp, by simp⟩, by decide +kernel, by decide +kernel⟩

/-- A troop whose two strings and whose words have recorded at two depths. -/
theorem witness_RolledBack :
    let z : Str := { z0 with
      bag := [{ key := .s 3, tag := 1, vals := [7] }, { key := .s 3, tag := 2, vals := [8] }, { key := .v 3, tag := 2, vals := [] }]
      tiles := [{ n := 2, tag := 1, val := .empty }, { n := 2, tag := 2, val := .empty }] }
    let t : Troop := { tBlk with words := [{ word := 5, tag := 1, val := 6 }, { word := 5, tag := 2, val := 9 }] };
    let s : State := { machine c0 z t {} with strs := [z, { z0 with sid := 4 }] };
    s.troop? t.tid = some t ∧ t.outr = none ∧ RecordedOnce s t 1 := by
  refine ⟨rfl, rfl, by decide, by decide, by decide⟩

/-- What the saddlebag holds as a register is written: nothing, the register, as many rows as there are less one, and all of them, with a
unit left in the recovery spill area, none, and a page of it refused. -/
def bagZ (n : Nat) : Str := { z0 with bag := (List.range n).map fun k => { key := .s (10 + k), tag := 1, vals := [0] } }
def bagT (size : Nat) (shut : Bool) : Troop := { tBlk with rcSpill := { base := 0x9000, size := size, used := 0, shut := shut } }

theorem witness_RegistersAreRecorded :
    (∀ i ∈ [Instr.movi { settle := false, d := 4, imm := 1 }, .sand { fnOp ol 2 with d := 4 }, .elect (one 0 4 0 .b32),
      .swrite (swOps 0x10), .swrite (swOps 0x12)], Issues (machine c0 z0 tBlk {}) i c0 z0 tBlk) ∧
    tBlk.overflow = false ∧ tBlk.failing = none ∧ tBlk.fails = [] ∧ tBlk.depth ≠ 0 ∧ c0.parts ≠ 0 ∧ (4 : Byte) ≠ 7 ∧
    (∃ e ∈ (bagZ 1).bag, e.key = .s 10 ∧ e.tag = 1) ∧ (¬ ∃ e ∈ (bagZ 4).bag, e.key = .s 4 ∧ e.tag = 1) ∧
    ((bagZ 3).bag.filter fun e => !e.spilled).length < t0.bagRows ∧ t0.bagRows ≤ ((bagZ 4).bag.filter fun e => !e.spilled).length ∧
    ((bagT 192 false).rcSpill.shut = false ∧ (bagT 192 false).rcSpill.used + 192 ≤ (bagT 192 false).rcSpill.size) ∧
    ¬ (bagT 191 false).rcSpill.used + 192 ≤ (bagT 191 false).rcSpill.size ∧ (bagT 192 true).rcSpill.shut = true ∧
    ((machine c0 z0 tBlk {}).str? 2 = some z0 ∧ (machine c0 z0 tBlk {}).troop? z0.tid = some tBlk ∧ min 1 tBlk.depth ≠ 0 ∧
      min 0 tBlk.depth = 0) :=
  ⟨issueAll rfl rfl _ (by decide), rfl, rfl, rfl, by decide, by decide, by decide, by decide, by decide, by decide, by decide,
    by decide, by decide, rfl, rfl, rfl, by decide⟩

/-- A word written outside a block, one recorded, the last that the saddlebag takes and the first that it does not; a unit that has no
entry, one, seven and all eight, with another unit left and none. -/
theorem witness_WordsAreRecorded :
    let ws := fun (n : Nat) => (List.range n).map fun k => ({ word := k, tag := 1, val := 0 } : WordEnt);
    t0.depth = 0 ∧ (∃ e ∈ ws 1, e.word = 0 ∧ e.tag = tBlk.depth) ∧ (∀ e ∈ ws 1024, e.word ≠ 1024) ∧
    ((ws 1023).filter fun e => !e.spilled).length < 1024 ∧ 1024 ≤ ((ws 1024).filter fun e => !e.spilled).length ∧
    (∀ k ∈ [1, 7], 0 < k ∧ k < 8) ∧ (∀ k ∈ [0, 8], k = 0 ∨ 8 ≤ k) ∧ 0 + 64 ≤ (bagT 64 false).rcSpill.size ∧
    (bagT 63 false).rcSpill.size < 0 + 64 := by decide +kernel

theorem witness_SpecialValues :
    ((machine c0 z0 t0 mu).launchOf t0).isSome = true ∧ t0.blocks = [] ∧ tBlk.blocks = [] ++ [block] := by decide

/-- Lines of no authority, and a line whose authority an L2 holds with a byte that its home lacks. -/
theorem witness_LinesAreFlushed :
    let c : CacheLine := { place := 0, line := 5, data := 9, auth := true, dirty := 1 };
    let s : State := { mu with l2 := [c] };
    (∀ c ∈ mu.l1 ++ mu.l2, c.auth = true → (fun n => n == 5) c.line = false) ∧ s.writes = [] ∧ holder s.l1 5 = none ∧
    holder s.l2 5 = some c ∧ s.peerDown (64 * 5) = false ∧ s.poison.contains 5 = false ∧ Cells.get 0 s.upsets 5 = 0 := by decide +kernel

theorem witness_RstatInTrapMode : Issues (machine cT zT t0 {}) (.rstat (one 7 4 0 .b32)) cT zT t0 ∧ cT.trap = true :=
  ⟨issues (by decide) rfl rfl, rfl⟩

/-! A tandem of two troops, both at a collective or one of them. -/

def tandemOf (a b : Troop) : State :=
  let code := encode (.elseby (one 1 0 0 .b32)) ++ encode (.elseerr (one 2 0 0 .b32));
  { withColl a with
    troops := [a, { b with tid := 6 }], tandems := [{ id := 0, mask := 3, tids := [1, 6] }]
    mem := Cells.setMany 0 (withColl a).mem (code.zipIdx.map fun (b, i) => (0x1014 + i, b)) }
def tEns (pc : Addr) : Troop := withArr tTan [{ arrival .ensure 0 3 with pc := pc }]
def scans (s : State) (t : Troop) : Option (List Nat) := (s.scanAll (s.members t)).2.map fun rs => rs.map fun x => x.2.2.1.length
def tTest (bs : List RBlock) (d : Option Bool) (as : List Arrival) : Troop :=
  { tTan with blocks := bs ++ [{ marked with inTest := true, draining := d }], arrivals := as }
def arrived (s : State) (t : Troop) : Bool :=
  (s.members t).all fun m => s.collDone m && m.inTest && m.arrivals.all fun x => x.coll == .accept || x.coll == .reject

/-- Blocks of equally many alternates and of others, a member that has not arrived, and each end of a drained test: accepted at depth 1 and
deeper, rejected by one member, a late fault. -/
theorem witness_TandemsDecide :
    scans (tandemOf (tEns 0x1000) (tEns 0x1000)) (tEns 0x1000) = some [2, 2] ∧
    scans (tandemOf (tEns 0x1000) (tEns 0x1004)) (tEns 0x1000) = some [2, 1] ∧
    scans (tandemOf (tEns 0x1000) tTan) (tEns 0x1000) = none ∧ (tEns 0x1000).depth = 0 ∧ (tEns 0x1000).tandem ≠ none ∧
    (let a := [arrival .accept 0 3]; let r := [arrival .reject 0 3];
      arrived (tandemOf (tTest [] none a) (tTest [] none a)) (tTest [] none a) = true ∧
      arrived (tandemOf (tTest [] none a) (tTest [] none [])) (tTest [] none a) = false ∧
      ∀ bs ∈ [[], [block]], ∀ as ∈ [a, r], let t := tTest bs (some true) a; let s := tandemOf t (tTest bs (some true) as);
        s.troop? 1 = some t ∧ t.tandem ≠ none ∧ (t.blocks.getLast?.map (·.inTest)) = some true ∧ s.collDone t = true ∧
        (∀ m ∈ s.members t, s.drained m = true ∧ s.lateIn m = none ∧ m.fails = [] ∧ m.outr = none) ∧ t.depth = bs.length + 1) ∧
    (let t := tTest [] (some true) [arrival .accept 0 3];
      (({ tandemOf t t with strs := [{ zOne with lateq := [{ late with depth := 1 }] }] } : State).lateIn t).isSome = true ∧
        ({ tandemOf t t with accs := [{ acc .st .str .fresh none with id := 5, depth := 1 }] } : State).drained t = false) := by
  decide +kernel

/-- A pair of whose copies one has failed an alternate. -/
theorem witness_UnwindingPairs :
    (primary.unwinding = false ∧ { primary with fails := [fTop] }.unwinding = true) ∧
    (({ copies 7 with troops := [{ primary with fails := [fTop] }, outrider 7] } : State).pair 1).map (fun x => x.1.unwinding) = some true := by
  decide

/-- A paddock to reset, a context to resume, in a machine whose caches hold no authority. -/
theorem witness_ResetsAndRestores :
    NoAuthority mm ∧ mm.heldReqs = [] ∧ mm.inbound = [] ∧ fetchPad.csb = 0 ∧ (mm.strs.map (·.sid)).Nodup ∧
    ∀ y ∈ mm.partials ++ ctx.partials, y.slot = true := by
  refine ⟨⟨?_, ?_⟩, rfl, rfl, rfl, by decide, by decide⟩ <;> exact fun _ h => (by cases h)

/-! A LAUNCH of a job, whose extension and initial record are in memory. -/

def pktJob : List Word := [4, 1, 1, 1, 0x02000001, 1, 0x10000, 0, 0, 0, 0, 0, 0x20040, 0, 0x01000000, 0]
def extJob (task : Nat) : List Byte := List.replicate 0x20 0 ++ bytesOf 8 0x40000 ++ bytesOf 8 0x30000 ++ bytesOf 8 task ++ List.replicate 8 0
def mExt (js : List Job) : State :=
  let s := mPkt pktJob;
  let cells := (extJob 0x20080).zipIdx.map fun (b, i) => (0x20040 + i, b);
  { s with jobs := js, mem := Cells.setMany 0 s.mem (cells ++ [(0x20088, 3), (0x20098, 8), (0x200A0, 4)]) }
def lExt (task : Nat) : Launch := { (mExt []).packetOf t0 pktJob with ext := extJob task }
def extRead (s : State) : Option (List Byte) :=
  match (s.readLinesOf 2 t0 false ((List.range 64).map fun i => ((addr56 (lExt 0).extVa).toNat + i) / 64 * 64).dedup).2 with
  | .ok (some bs) => some (bs.take 64)
  | _ => none
def taskRead (va : Nat) : Option TaskRec :=
  match ((mExt []).readVirt 2 t0 false va 6 allBytes).2 with
  | .ok d => taskOfBytes (lineSlice d 0 64)
  | _ => none

/-- An extension that is read, good and bad, one that the packet lacks; a job's number that is free and one that is taken; a record and
bytes that are none; a priority above the launching troop's. -/
theorem witness_LaunchExtensions :
    (mExt []).admitReason fetchPad (lExt 0) 3 = 0 ∧ (lExt 0).extBytes = some 64 ∧ extRead (mExt []) = some (extJob 0x20080) ∧
    (lExt 0x20080).extOk = true ∧ (lExt 0x20081).extOk = false ∧ (lExt 0x20080).type = 4 ∧ (lExt 0x20080).world = false ∧
    (lExt 0x20080).prio ≤ t0.prio ∧ (lExt 0x20080).extWord 0x30 % 64 = 0 ∧ (lExt 0x20080).extWord 0x28 / 65536 = job3.id ∧
    taskRead 0x20080 = some rec3 ∧ taskRead 0x20100 = none ∧
    ((mExt []).packetOf t0 (pktJob.set 12 0)).extBytes = none ∧
    (let l := (mExt []).packetOf t0 (0x10001 :: (fetchLaunch 3).words.drop 1);
      (mExt []).admitReason fetchPad l 3 = 0 ∧ l.extBytes = some 0 ∧ l.extOk = true ∧ t0.prio < l.prio) := by decide +kernel

/-- The oldest write of its core into host memory, ahead of its younger one. -/
theorem witness_HostWritesArrive :
    let w : HomeWrite := { write false with line := 2 ^ 40 }; let x : HomeWrite := { write false with wid := 8, line := 2 ^ 40 + 1 };
    hostLine w.line = true ∧ hostLine x.line = true ∧ ∀ y ∈ [w, x], 7 ≤ y.wid ∧ y ∉ [w, x].takeWhile (·.wid != 7) := by decide +kernel

/-- Registers of a page and places of it that hold none; a page with no paddock. -/
theorem witness_RegisterOffsets :
    mm.pad? fetchPad.n = some fetchPad ∧ mm.pad? 1 = none ∧ bitsNat (0x30000000#64) 31 28 ≠ 1 ∧ bitsNat (0x30000000#64) 31 28 ≠ 2 ∧
    (∀ off ∈ [0x014, 0x0FC, 0x104, 0x180, 0x7F8, 0xA00], ¬(0x100 ≤ off ∧ off < 0x180 ∧ off % 8 = 0) ∧
      ¬(0x800 ≤ off ∧ off < 0xA00 ∧ off % 8 = 0)) := by decide

end Sys2Proof.Tests
end

section
/-! PROOFS. The registers of a paddock's page and of PF0's, doorbells, and the registration of queues (O50). First what a write and a
read do at each kind of offset, then what an operation on a queue does in each of its cases. -/

namespace Sys2Proof.Machine

/-! ### The page of a paddock -/

/-- The offsets of a page at which a register stands that software writes, without the landing zones and the doorbells. -/
def writableOffs : List Nat :=
  [0x000, 0x008, 0x00C, 0x010, 0x018, 0x020, 0x030, 0x038, 0x040, 0x048, 0x054, 0x058, 0x060, 0x068, 0x070, 0x078, 0x080, 0x088]

/-- The offsets of a page at which a register stands that software reads, without the landing zones. -/
def readableOffs : List Nat :=
  [0x004, 0x008, 0x00C, 0x010, 0x018, 0x020, 0x028, 0x030, 0x038, 0x040, 0x048, 0x050, 0x054, 0x060, 0x068, 0x070, 0x07C, 0x080, 0x088]

/-- The offset of a landing-zone register (R378). -/
def IsZoneOff (off : Nat) : Prop := 0x100 ≤ off ∧ off < 0x180 ∧ off % 8 = 0

/-- The offset of a doorbell (R373). -/
def IsDoorbellOff (off : Nat) : Prop := 0x800 ≤ off ∧ off < 0xA00 ∧ off % 8 = 0

/-- A change of one landing zone. -/
def Paddock.updZone (p : Paddock) (k : Nat) (f : Zone → Zone) : Paddock :=
  { p with zones := Cells.set {} p.zones k (f (p.zone k)) }

theorem not_mem_writableOffs {off : Nat} (h : 0x100 ≤ off) : off ∉ writableOffs := by
  simp only [writableOffs, List.mem_cons, List.not_mem_nil, or_false]; omega

theorem not_mem_readableOffs {off : Nat} (h : 0x100 ≤ off) : off ∉ readableOffs := by
  simp only [readableOffs, List.mem_cons, List.not_mem_nil, or_false]; omega

section
variable (s : State) (p : Paddock) (val : Dword) {off : Nat}

/-- Off the single registers only the zones and the doorbells are left. -/
theorem State.writeVf_of_not_mem (h : off ∉ writableOffs) : s.writeVf p off val =
    if 0x100 ≤ off && off < 0x180 && off % 8 == 0 then
      s.updPad p.n fun q => q.updZone ((off - 0x100) / 16) fun z => z.write (off % 16 == 8) val
    else if 0x800 ≤ off && off < 0xA00 && off % 8 == 0 then s.ringDoorbell p.n ((off - 0x800) / 8) val
    else s := by
  unfold State.writeVf
  split
  case h_19 => rfl
  all_goals exact absurd (by decide) h

theorem State.writeVf_zone (h : IsZoneOff off) : s.writeVf p off val =
    s.updPad p.n fun q => q.updZone ((off - 0x100) / 16) fun z => z.write (off % 16 == 8) val := by
  obtain ⟨hlo, hhi, hmod⟩ := h
  simp [s.writeVf_of_not_mem p val (not_mem_writableOffs hlo), hlo, hhi, hmod]

theorem State.writeVf_zoneBase {k : Nat} (hk : k < 8) : s.writeVf p (0x100 + 16 * k) val =
    s.updPad p.n fun q => q.updZone k fun z => { z with base := bitsNat val 55 16 } := by
  rw [s.writeVf_zone p val ⟨by omega, by omega, by omega⟩]
  simp [Zone.write]

theorem State.writeVf_zoneSize {k : Nat} (hk : k < 8) : s.writeVf p (0x108 + 16 * k) val = s.updPad p.n fun q => q.updZone k fun z =>
    { z with enable := val.getLsbD 34, ordered := val.getLsbD 33, pages := bitsNat val 31 0 } := by
  have hsecond : (0x108 + 16 * k) % 16 = 8 := by omega
  have hzone : (0x108 + 16 * k - 0x100) / 16 = k := by omega
  rw [s.writeVf_zone p val ⟨by omega, by omega, by omega⟩, hzone]
  simp [Zone.write, hsecond]

theorem State.writeVf_doorbell (h : IsDoorbellOff off) : s.writeVf p off val = s.ringDoorbell p.n ((off - 0x800) / 8) val := by
  obtain ⟨hlo, hhi, hmod⟩ := h
  have hzone : ¬off < 0x180 := by omega
  have hpage : 0x100 ≤ off := by omega
  simp [s.writeVf_of_not_mem p val (not_mem_writableOffs hpage), hzone, hlo, hhi, hmod]

theorem State.writeVf_other (h : off ∉ writableOffs) (hz : ¬IsZoneOff off) (hd : ¬IsDoorbellOff off) : s.writeVf p off val = s := by
  rw [s.writeVf_of_not_mem p val h, if_neg (by simpa [IsZoneOff, and_assoc] using hz), if_neg (by simpa [IsDoorbellOff, and_assoc] using hd)]

end

section
variable (p : Paddock) (asRoot : Bool) {off : Nat}

/-- Off the single registers only the zones are left. -/
theorem Paddock.readReg_of_not_mem (h : off ∉ readableOffs) : p.readReg off asRoot =
    if 0x100 ≤ off && off < 0x180 && off % 8 == 0 then
      if off % 16 == 8 then BitVec.ofNat 64 ((if (p.zone ((off - 0x100) / 16)).enable then 2 ^ 34 else 0) +
        (if (p.zone ((off - 0x100) / 16)).ordered then 2 ^ 33 else 0) + (p.zone ((off - 0x100) / 16)).pages)
      else BitVec.ofNat 64 ((p.zone ((off - 0x100) / 16)).base * 65536)
    else 0 := by
  unfold Paddock.readReg
  split
  case h_20 => rfl
  all_goals exact absurd (by decide) h

theorem Paddock.readReg_zoneBase {k : Nat} (hk : k < 8) :
    p.readReg (0x100 + 16 * k) asRoot = BitVec.ofNat 64 ((p.zone k).base * 65536) := by
  have hhi : 0x100 + 16 * k < 0x180 := by omega
  have hmod : (0x100 + 16 * k) % 8 = 0 := by omega
  simp [p.readReg_of_not_mem asRoot (not_mem_readableOffs (Nat.le_add_right 0x100 (16 * k))), hhi, hmod]

theorem Paddock.readReg_zoneSize {k : Nat} (hk : k < 8) : p.readReg (0x108 + 16 * k) asRoot = BitVec.ofNat 64
    ((if (p.zone k).enable then 2 ^ 34 else 0) + (if (p.zone k).ordered then 2 ^ 33 else 0) + (p.zone k).pages) := by
  have hlo : 0x100 ≤ 0x108 + 16 * k := by omega
  have hhi : 0x108 + 16 * k < 0x180 := by omega
  have hmod : (0x108 + 16 * k) % 8 = 0 := by omega
  have hsecond : (0x108 + 16 * k) % 16 = 8 := by omega
  have hzone : (0x108 + 16 * k - 0x100) / 16 = k := by omega
  simp [p.readReg_of_not_mem asRoot (not_mem_readableOffs hlo), hlo, hhi, hmod, hsecond, hzone]

theorem Paddock.readReg_other (h : off ∉ readableOffs) (hz : ¬IsZoneOff off) : p.readReg off asRoot = 0 := by
  rw [p.readReg_of_not_mem asRoot h, if_neg (by simpa [IsZoneOff, and_assoc] using hz)]

end

theorem State.readVf_of_pad {s : State} {n : Nat} {p : Paddock} (hp : s.pad? n = some p) (off : Nat) (asRoot : Bool) :
    s.readVf n off asRoot = p.readReg off asRoot := by simp [State.readVf, hp]

theorem State.readVf_of_none {s : State} {n : Nat} (hp : s.pad? n = none) (off : Nat) (asRoot : Bool) :
    s.readVf n off asRoot = (emptyPage n).readReg off asRoot := by simp [State.readVf, hp]

/-! ### A register write -/

/-- QOP holds neither operation of R373: `simp` finds in the hypotheses that the code is that of no arm. -/
theorem State.writeVf_queueOp_ignored (s : State) (p : Paddock) {val : Dword} (_ : bitsNat val 31 28 ≠ 1)
    (_ : bitsNat val 31 28 ≠ 2) : s.writeVf p 0x078 val = s := by
  simp [State.writeVf]

theorem exec_registerWrite_page {s : State} {n : Nat} {p : Paddock} (hp : s.pad? n = some p) (hr : s.ready = true) (off : Nat)
    (val : Dword) : exec (.registerWrite (some n) off val) s = .next (s.writeVf p off val) := by
  change execRegisterWrite (some n) off val s = _
  simp [execRegisterWrite, hp, hr]

/-- Log entry 116 and R382: a page without a paddock, or before a start has succeeded, takes no write. -/
theorem exec_registerWrite_ignored {s : State} {n : Nat} (h : s.pad? n = none ∨ s.ready = false) (off : Nat) (val : Dword) :
    exec (.registerWrite (some n) off val) s = .next s := by
  change execRegisterWrite (some n) off val s = _
  cases hp : s.pad? n with
  | none => simp [execRegisterWrite, hp]
  | some p =>
    have hr : s.ready = false := by simpa [hp] using h
    simp [execRegisterWrite, hp, hr]

theorem exec_registerWrite_pf0 (s : State) (off : Nat) (val : Dword) :
    exec (.registerWrite none off val) s = .next (s.writePf0 off val) := rfl

theorem State.writePf0_start {s : State} (hb : s.mailbox.busy = false) : s.writePf0 0x008 1 = s.startMailbox := by
  simp [State.writePf0, hb]

theorem State.writePf0_noStart {s : State} {val : Dword} (h : val ≠ 1 ∨ s.mailbox.busy = true) : s.writePf0 0x008 val = s := by
  rcases h with hv | hb
  · simp only [State.writePf0, hv, decide_false, Bool.false_and, Bool.false_eq_true, if_false]
  · simp [State.writePf0, hb]

theorem State.readPf0_eq (s : State) (off : Nat) : s.readPf0 off = if off = 0 then s.mailbox.cmd
    else if off = 0x00C then BitVec.ofNat 64 ((if s.mailbox.busy then 2 ^ 31 else 0) + s.mailbox.result) else 0 := by
  unfold State.readPf0
  split
  · rfl
  · rfl
  next h0 hC => rw [if_neg h0, if_neg hC]

/-! ### Doorbells -/

theorem State.ringDoorbell_taken {s : State} {pad q : Nat} {val : Dword} {x : Queue} (hq : s.queue? pad q = some x)
    (hlo : x.rd ≤ val.toNat) (hhi : val.toNat ≤ x.rd + 2 ^ x.logn) : s.ringDoorbell pad q val =
      { s with queues := updFirst (fun y => y.pad == pad && y.qid == q) (fun y => { y with door := val.toNat }) s.queues } := by
  simp [State.ringDoorbell, hq, Nat.not_lt.mpr hlo, Nat.not_lt.mpr hhi]

theorem State.ringDoorbell_counted {s : State} {pad q : Nat} {val : Dword}
    (h : ∀ x, s.queue? pad q = some x → val.toNat < x.rd ∨ x.rd + 2 ^ x.logn < val.toNat) :
    s.ringDoorbell pad q val = s.countErr pad fun e => { e with doorbellErrs := inc32 e.doorbellErrs } := by
  cases hq : s.queue? pad q with
  | none => simp [State.ringDoorbell, hq]
  | some x => simp [State.ringDoorbell, hq, h x hq]

/-! ### Registration -/

section
variable {s s' : State} {pad qid desc : Nat} {bs : List Byte}

theorem State.register_taken (hq : s.queue? pad qid ≠ none) (secure : Bool) : s.register pad qid desc secure = (s, 2) := by
  simp [State.register, Option.isSome_iff_ne_none.mpr hq]

theorem State.register_malformed (hq : s.queue? pad qid = none) (hload : s.agentLoad pad false true desc 64 = (s', .ok bs))
    (hparse : parseQueue pad qid bs = none) : s.register pad qid desc false = (s', 1) := by
  simp [State.register, hq, hload, hparse]

theorem State.register_secure {q : Queue} (hq : s.queue? pad qid = none)
    (hload : s.agentLoad pad false true desc 64 = (s', .ok bs)) (hparse : parseQueue pad qid bs = some q) (hkind : q.kind = 2) :
    s.register pad qid desc false = (s', 4) := by
  simp [State.register, hq, hload, hparse, hkind]

/-- A first queue sets a saved or a reset paddock running. -/
theorem State.register_added {q : Queue} {p' : Paddock} (hq : s.queue? pad qid = none)
    (hload : s.agentLoad pad false true desc 64 = (s', .ok bs)) (hparse : parseQueue pad qid bs = some q) (hkind : q.kind ≠ 2)
    (hp' : s'.pad? pad = some p') : s.register pad qid desc false =
      (if p'.st = .saved ∨ p'.st = .reset then State.setSt { s' with queues := s'.queues ++ [q] } pad .running
        else { s' with queues := s'.queues ++ [q] }, 0) := by
  have hp1 : State.pad? { s' with queues := s'.queues ++ [q] } pad = some p' := hp'
  simp [State.register, hq, hload, hparse, hkind, hp1]

end

/-- The result of a registration goes to QRES. -/
theorem exec_queueRegister_of_register {s u : State} {pad r : Nat} {p : Paddock} {qid : BitVec 6} (hp : s.pad? pad = some p)
    (hreg : s.register pad qid.toNat p.qDesc.toNat false = (u, r)) :
    exec (.queueRegister pad qid) s = .next (u.updPad pad fun p => { p with qRes := r }) := by
  change execQueueRegister pad qid s = _
  simp [execQueueRegister, State.registerQueue, hp, hreg]

section
variable {s : State} {pad qid : Nat} {p : Paddock}

theorem State.unregisterQueue_absent (hp : s.pad? pad = some p) (hq : s.queue? pad qid = none) :
    s.unregisterQueue pad qid = s.updPad pad fun p => { p with qRes := 3 } := by
  simp [State.unregisterQueue, hp, hq]

theorem State.unregisterQueue_busy (hp : s.pad? pad = some p) (hq : s.queue? pad qid ≠ none) (hne : s.queued pad qid ≠ [])
    (hsaved : p.st ≠ .saved) (hreset : p.st ≠ .reset) :
    s.unregisterQueue pad qid = s.updPad pad fun p => { p with qRes := 5 } := by
  simp [State.unregisterQueue, hp, hq, hne, hsaved, hreset]

/-- An empty queue goes, and every queue of a halted paddock. -/
theorem State.unregisterQueue_removed (hp : s.pad? pad = some p) (hq : s.queue? pad qid ≠ none)
    (h : s.queued pad qid = [] ∨ p.st = .saved ∨ p.st = .reset) : s.unregisterQueue pad qid =
      State.updPad { s with queues := s.queues.filter fun q => !(q.pad == pad && q.qid == qid) } pad fun p => { p with qRes := 0 } := by
  rcases h with h | h | h
  all_goals simp [State.unregisterQueue, hp, hq, h]

end

/-! ### The obligation -/

/-- Settles O50: the page's registers from `writeVf` and `readReg` at each kind of offset, the queues from the cases of an operation. -/
theorem registersAndQueues : Obligations.RegistersAndQueues := by
  unfold Obligations.RegistersAndQueues
  refine ⟨fun s p val hp hr => ?writes, fun s p asRoot hp => ?reads, fun _ _ off asRoot hp => State.readVf_of_none hp off asRoot,
    State.readPf0_eq, fun _ _ off val h => exec_registerWrite_ignored h off val, fun s val => ?mailbox, fun s pad q val => ?doorbells,
    fun s pad p qid hp => ?queues⟩
  case writes =>
    simp only [exec_registerWrite_page hp hr, Host.Outcome.next.injEq]
    refine ⟨rfl, rfl, rfl, rfl, rfl, rfl, rfl, rfl, rfl, rfl, rfl, rfl, fun h => ?_, fun h => ?_, fun h1 h2 => ?_, rfl, rfl, ?_, ?_,
      fun k hk => ⟨s.writeVf_zoneBase p val hk, s.writeVf_zoneSize p val hk⟩, fun q hq => ?_, rfl,
      fun off h hz hd => s.writeVf_other p val h hz hd⟩
    · simp [State.writeVf, h]
    · simp [State.writeVf, h]
    · exact s.writeVf_queueOp_ignored p h1 h2
    · rintro off (rfl | rfl | rfl) <;> rfl
    · rintro off (rfl | rfl | rfl) <;> rfl
    · rw [s.writeVf_doorbell p val (off := 0x800 + 8 * q) ⟨by omega, by omega, by omega⟩, show (0x800 + 8 * q - 0x800) / 8 = q by omega]
      rfl
  case reads =>
    simp only [State.readVf_of_pad hp]
    exact ⟨rfl, rfl, rfl, rfl, rfl, rfl, rfl, rfl, rfl, rfl, rfl, rfl, rfl, rfl, rfl, rfl, rfl, rfl, rfl,
      fun k hk => ⟨p.readReg_zoneBase asRoot hk, p.readReg_zoneSize asRoot hk⟩, fun off => p.readReg_other asRoot⟩
  case mailbox =>
    simp only [exec_registerWrite_pf0, Host.Outcome.next.injEq]
    exact ⟨rfl, fun hv hb => hv ▸ State.writePf0_start hb, State.writePf0_noStart⟩
  case doorbells =>
    exact ⟨fun _ hq hlo hhi => congrArg Host.Outcome.next (State.ringDoorbell_taken hq hlo hhi),
      fun h => congrArg Host.Outcome.next (State.ringDoorbell_counted h)⟩
  case queues =>
    refine ⟨fun hq => exec_queueRegister_of_register hp (State.register_taken hq false), fun hq s' bs hload => ⟨fun hparse => ?_,
      fun q hparse hkind => ?_, fun q p' hparse hkind hp' => ?_⟩, fun hq => ?_, fun hq hne hsaved hreset => ?_, fun hq h => ?_⟩
    · exact exec_queueRegister_of_register hp (State.register_malformed hq hload hparse)
    · exact exec_queueRegister_of_register hp (State.register_secure hq hload hparse hkind)
    · exact exec_queueRegister_of_register hp (State.register_added hq hload hparse hkind hp')
    · exact congrArg Host.Outcome.next (State.unregisterQueue_absent hp hq)
    · exact congrArg Host.Outcome.next (State.unregisterQueue_busy hp hq hne hsaved hreset)
    · exact congrArg Host.Outcome.next (State.unregisterQueue_removed hp hq h)

end Sys2Proof.Machine
end

section
/-! PROOFS. Every step answers a next state, and no settle marker outlives what it waits for (O59). First that each meaning answers, then
each move and the step; last that the release after a step keeps exactly the markers that still hold. -/

namespace Sys2Proof.Machine

open Sys2Proof.Claims

/-! ### What answers a next state -/

/-- The outcome is a next state: neither a fault nor a refusal. -/
def Answers (o : Out) : Prop := ∃ t, o = .next t

/-- An attempt to issue that ran something has answered a next state. -/
def Try.Answered : Try → Prop
  | .idle _ => True
  | .ran o => Answers o

theorem answers_next (s : State) : Answers (.next s) := ⟨s, rfl⟩

theorem State.issue_answers (s : State) (i : Instr) (chk : Cur → Str → Troop → Bool) (body : Cur → Str → Troop → State) :
    Answers (s.issue i chk body) := by
  unfold State.issue
  repeat' split
  all_goals exact answers_next _

/-- The meaning of an instruction is one issue; that of an event is a next state, or a case distinction with one at each end. -/
theorem exec_answers (i : Instr) (s : State) : Answers (exec i s) := by
  cases i
  case roundConfirm | homeWriteArrival | faultRecordPost | faultQueueRegWrite | fresolveReplay | fresolveRefusePageFault |
      fresolveRefusePermission | invcntWrite | ptrootWrite | owncntWrite | queueRegister | queueUnregister | doorbellWrite |
      paddockCreate | paddockDestroy | queueSecure | attest | readInfo | coldStart | warmStart | pf0Flr | throttle | thermalTrip |
      peerLinkLoss | scanTestStart => exact answers_next _
  case illegalInstruction | lateFaultDeliver | matrixOpComplete | nodeCellCompute | tileOpRetire | copyEngineRetire | pageWalkComplete |
      registerResultReturn | storeAccept | waitvReread | acqComplete | commitComplete | abortComplete | rangeDeclarationComplete |
      rangeCloseComplete | cancelBitSet | systemOpComplete | testDrainComplete | cycleLimitExpiry | stringRetire | troopRetire |
      outriderCompare | tieBreakDecide | packetAdmit | barrierAndSatisfied | troopDispatch | packetRelease | completionSignalWrite |
      jobActivate | refillBatchLand | stealRequest | stealAnswer | drain | cut | resume | reset | drainDeadlineExpiry | cutboundExpiry |
      reinMarkerArrival | cutComplete | invalidationComplete | vfFlr | registerWrite | inboundPcieWrite | inboundPcieRead | peerRequest |
      patrolScrub | scanTestComplete =>
    simp only [exec, execIllegalInstruction, execLateFaultDeliver, execMatrixOpComplete, execNodeCellCompute, execTileOpRetire,
      execCopyEngineRetire, execPageWalkComplete, execRegisterResultReturn, execStoreAccept, execWaitvReread, execAcqComplete,
      execCommitComplete, execAbortComplete, execRangeDeclarationComplete, execRangeCloseComplete, execCancelBitSet,
      execSystemOpComplete, execTestDrainComplete, execCycleLimitExpiry, execStringRetire, execTroopRetire, execOutriderCompare,
      execTieBreakDecide, execPacketAdmit, execBarrierAndSatisfied, execTroopDispatch, execPacketRelease, execCompletionSignalWrite,
      execJobActivate, execRefillBatchLand, execStealRequest, execStealAnswer, execDrain, execCut, execResume, execReset,
      execDrainDeadlineExpiry, execCutboundExpiry, execReinMarkerArrival, execCutComplete, execInvalidationComplete, execVfFlr,
      execRegisterWrite, execInboundPcieWrite, execInboundPcieRead, execPeerRequest, execPatrolScrub, execScanTestComplete]
    repeat' split
    all_goals exact answers_next _
  all_goals exact State.issue_answers _ _ _ _

/-! ### An attempt to issue -/

theorem State.endIssue_answered (s : State) (z : Str) (g : Group) {o : Out} (h : Answers o) : (s.endIssue z g o).Answered := by
  obtain ⟨t, rfl⟩ := h
  unfold State.endIssue
  dsimp only
  split
  · split
    · exact trivial
    · exact trivial
    · exact answers_next _
  · exact answers_next _

theorem State.fetchTrap_answered (s : State) (z : Str) (t : Troop) (g : Group) (c : Cause) : (s.fetchTrap z t g c).Answered := by
  unfold State.fetchTrap
  refine State.endIssue_answered _ _ _ ?_
  split <;> exact answers_next _

theorem State.issueInstr_answered (s : State) (z : Str) (t : Troop) (g : Group) (next : Addr) (i : Instr) :
    (s.issueInstr z t g next i).Answered := by
  unfold State.issueInstr
  split
  · exact trivial
  · split
    · exact trivial
    · exact State.endIssue_answered _ _ _ (exec_answers _ _)

theorem State.issueTurn_answered (s : State) (z : Str) (t : Troop) (g : Group) : (s.issueTurn z t g).Answered := by
  unfold State.issueTurn
  split
  · exact State.fetchTrap_answered ..
  · unfold State.issueTurn.go
    split
    · split
      · exact State.issueInstr_answered ..
      · exact State.endIssue_answered _ _ _ (exec_answers _ _)
    · exact State.fetchTrap_answered ..
    · exact trivial

theorem State.attempt_answered (s : State) (z : Str) (t : Troop) : (s.attempt z t).Answered := by
  unfold State.attempt
  dsimp only
  split
  · exact trivial
  · split
    · exact State.endIssue_answered _ _ _ (exec_answers _ _)
    · exact State.issueTurn_answered ..

/-! ### A move and a step -/

theorem State.turnOf_answers (s : State) (sids : List Nat) : Answers (s.turnOf sids) := by
  induction sids generalizing s with
  | nil => exact answers_next s
  | cons sid rest ih =>
    unfold State.turnOf
    split
    · exact ih s
    next z _ =>
      split
      · exact ih s
      next t _ =>
        have h := s.attempt_answered z t
        split
        next o ho => rw [ho] at h; exact h
        · exact ih _

theorem State.turn_answers (s : State) (core slice : Nat) : Answers (s.turn core slice) := by
  unfold State.turn
  split
  · exact answers_next s
  · exact s.turnOf_answers _

theorem State.perform_answers (s : State) (m : Move) : Answers (s.perform m) := by
  cases m
  case turn core slice => exact s.turn_answers core slice
  case event i => exact exec_answers i s
  all_goals exact answers_next _

theorem State.firstChange_answers (s : State) {o : Out} (ms : List Move) (h : s.firstChange ms = some o) : Answers o := by
  induction ms with
  | nil => cases h
  | cons m ms ih =>
    obtain ⟨t, ht⟩ := s.perform_answers m
    rw [State.firstChange, ht] at h
    dsimp only at h
    split at h
    · exact ih h
    · cases h; exact answers_next t

theorem State.idleMove_answers (s : State) : Answers s.idleMove := by
  unfold State.idleMove
  split
  · exact s.firstChange_answers _ ‹_›
  · split
    · exact s.firstChange_answers _ ‹_›
    · exact answers_next _

/-- A step is a move and what follows every move by itself. -/
theorem step_afterMove (s : State) : ∃ u : State, step s = .next u.afterMove := by
  cases hs : s.script with
  | nil =>
    obtain ⟨u, hu⟩ := s.idleMove_answers
    exact ⟨u, by simp only [step, State.advance1, hs, hu]⟩
  | cons m rest =>
    obtain ⟨u, hu⟩ := State.perform_answers { s with script := rest } m
    exact ⟨u, by simp only [step, State.advance1, hs, hu]⟩

/-! ### Settle markers (R36) -/

@[simp] theorem State.settleLane_park (s : State) (z : Str) (l : Lane) : (s.settleLane z l).park = l.park := rfl

/-- What a string's registers wait for does not depend on the settle markers of its lanes. -/
theorem State.results_settleLanes (s t : State) (z : Str) :
    s.results { z with lanes := z.lanes.map (t.settleLane z) } = s.results z := by
  simp only [State.results, List.filterMap_map, Function.comp_def, State.settleLane_park]

theorem State.settledLane_releaseSettled (s : State) (z : Str) (m : Nat × List Nat) :
    s.releaseSettled.settledLane { z with lanes := z.lanes.map (s.settleLane z) } m = s.settledLane z m := by
  have h : s.releaseSettled.results { z with lanes := z.lanes.map (s.settleLane z) } = s.results z := s.results_settleLanes s z
  simp only [State.settledLane, h]
  rfl

/-- A marker that the release leaves in place still waits. -/
theorem State.settleLane_settle {s : State} {z : Str} {l : Lane} {m : Nat × List Nat} (h : (s.settleLane z l).settle = some m) :
    s.settledLane z m = false := by
  simp only [State.settleLane, Option.bind_eq_some_iff, Option.ite_none_left_eq_some, Option.some.injEq] at h
  obtain ⟨m0, -, hm, rfl⟩ := h
  simpa using hm

theorem releaseSettled_markersHold (s : State) : MarkersHold s.releaseSettled := by
  intro z' hz' l hl m hm
  obtain ⟨z, hz, rfl⟩ := List.mem_map.mp hz'
  split at hl
  next hany =>
    obtain ⟨l0, -, rfl⟩ := List.mem_map.mp hl
    rw [if_pos hany, State.settledLane_releaseSettled]
    exact State.settleLane_settle hm
  next hany =>
    refine absurd (List.any_eq_true.mpr ⟨l, hl, ?_⟩) hany
    rw [hm]; rfl

/-- Settles O59: each move answers, and a step ends with the release of the settle markers. -/
theorem stepsAnswer : Obligations.StepsAnswer := by
  intro s
  obtain ⟨u, hu⟩ := step_afterMove s
  exact ⟨_, hu, releaseSettled_markersHold _⟩

end Sys2Proof.Machine
end

section
/-! PROOFS. What the results of a global access leave in the registers, and how it ends (O25). First writes of registers
for a list of lanes, then the end of an access in small steps, then the event that takes them. -/

namespace Sys2Proof.Machine

open Sys2Proof.Claims

/-! ### Writes for a list of lanes -/

theorem Str.vreg_putV_of_mem (z : Str) {n : Nat} {vals : List (Nat × Word)} (hn : (vals.map (·.1)).Nodup) {e : Nat × Word}
    (he : e ∈ vals) : (z.putV n vals).vreg n e.1 = e.2 := by
  refine Cells.get_setMany_of_mem 0 _ _ _ _ (List.mem_map_of_mem he) ?_
  have hplaces := hn.map (f := (32 * n + ·)) fun _ _ h => Nat.add_left_cancel h
  rwa [List.map_map] at hplaces ⊢

theorem Str.vreg_putV_of_not_mem (z : Str) {n r l : Nat} {vals : List (Nat × Word)} (h32 : ∀ e ∈ vals, e.1 < 32) (hl : l < 32)
    (hno : ∀ e ∈ vals, ¬(n = r ∧ e.1 = l)) : (z.putV n vals).vreg r l = z.vreg r l := by
  refine Cells.get_setMany_of_not_mem 0 _ _ _ ?_
  rw [List.forall_mem_map]
  exact fun e he hk => hno e he ((vreg_place (h32 e he) hl).1 hk)

/-- A write of one vector register for lanes that are named once each: those take their values, and no other lane changes. -/
theorem State.writeV_each {s : State} {sid d n : Nat} {vals : List (Nat × Nat)} (f : Nat → Word) {z : Str} {t : Troop} {k : Nat}
    (hz : s.str? sid = some z) (ht : s.troop? z.tid = some t) (hr : Room z t (k + 1)) (hn : (vals.map (·.1)).Nodup)
    (h32 : ∀ e ∈ vals, e.1 < 32) :
    ∃ z', s.writeV sid d n (vals.map fun e => (e.1, f e.2)) = (s.updStr sid fun _ => z') ∧
      z' = { z with v := z'.v, bag := z'.bag } ∧ (t.depth = 0 → z'.bag = z.bag) ∧ Room z' t k ∧
      (∀ e ∈ vals, ∀ r, z'.vreg r e.1 = if r = n then f e.2 else z.vreg r e.1) ∧
      ∀ l < 32, (∀ e ∈ vals, e.1 ≠ l) → ∀ r, z'.vreg r l = z.vreg r l := by
  by_cases he : vals = []
  · subst he
    exact ⟨z, by simp [State.writeV, State.updStr_self hz], rfl, fun _ => rfl, room_mono hr, by simp, fun _ _ _ _ => rfl⟩
  obtain ⟨bag, h1, h2, h3⟩ := State.record_room (d := d) (key := .v n) (prior := (·.vall n)) hz ht hr
  have hn' : ((vals.map fun e => (e.1, f e.2)).map (·.1)).Nodup := by rwa [List.map_map]
  have h32' : ∀ e ∈ vals.map fun e => (e.1, f e.2), e.1 < 32 := by rwa [List.forall_mem_map]
  refine ⟨({ z with bag := bag } : Str).putV n (vals.map fun e => (e.1, f e.2)), ?_, rfl, h2, h3, fun e he r => ?_,
    fun l hl hno r => Str.vreg_putV_of_not_mem _ h32' hl ?_⟩
  · rw [State.writeV, if_neg (by simpa using he), h1, State.updStr_updStr hz (fun _ => { z with bag := bag })]
    rfl
  · split
    next hrn => exact hrn ▸ Str.vreg_putV_of_mem _ hn' (List.mem_map_of_mem he)
    next hrn => exact Str.vreg_putV_of_not_mem _ h32' (h32 e he) fun _ _ h => hrn h.1.symm
  · rw [List.forall_mem_map]
    exact fun e he h => hno e he h.2

/-- A write of an operand, one register or a pair, for lanes that are named once each. -/
theorem State.writeVal_each {s : State} {sid d n : Nat} {td : Ty} {vals : List (Nat × Nat)} {z : Str} {t : Troop}
    (hz : s.str? sid = some z) (ht : s.troop? z.tid = some t) (hr : Room z t 2) (hn : (vals.map (·.1)).Nodup)
    (h32 : ∀ e ∈ vals, e.1 < 32) :
    ∃ z', s.writeVal sid d td n vals = (s.updStr sid fun _ => z') ∧ z' = { z with v := z'.v, bag := z'.bag } ∧
      (t.depth = 0 → z'.bag = z.bag) ∧ (∀ e ∈ vals, ∀ r, z'.vreg r e.1 = (oneDest td n e.2 r).getD (z.vreg r e.1)) ∧
      ∀ l < 32, (∀ e ∈ vals, e.1 ≠ l) → ∀ r, z'.vreg r l = z.vreg r l := by
  obtain ⟨z1, e1, k1, b1, r1, v1, o1⟩ := State.writeV_each (d := d) (n := n) (BitVec.ofNat 32) hz ht hr hn h32
  simp only [State.writeVal]
  rw [e1]
  by_cases hw : td.wide = true
  · rw [if_pos hw]
    have hz1 : (s.updStr sid fun _ => z1).str? sid = some z1 := State.str?_updStr hz (fun _ => z1) (by rw [k1])
    have ht1 : (s.updStr sid fun _ => z1).troop? z1.tid = some t := by rw [k1]; exact ht
    obtain ⟨z2, e2, k2, b2, -, v2, o2⟩ := State.writeV_each (d := d) (n := n + 1) (fun x => BitVec.ofNat 32 (x >>> 32)) hz1 ht1 r1
      hn h32
    rw [e2, State.updStr_updStr hz (fun _ => z1) _ (by rw [k1])]
    refine ⟨z2, rfl, by rw [k2, k1], fun h => (b2 h).trans (b1 h), ?_, fun l hl hno r => (o2 l hl hno r).trans (o1 l hl hno r)⟩
    intro e he r
    rw [v2 e he, v1 e he]
    by_cases hlow : r = n
    · simp [oneDest, hlow]
    · by_cases hhigh : r = n + 1
      · simp [oneDest, hhigh, hw, Nat.shiftRight_eq_div_pow]
      · simp [oneDest, hlow, hhigh]
  · rw [if_neg hw]
    refine ⟨z1, rfl, k1, b1, fun e he r => ?_, o1⟩
    rw [v1 e he]
    by_cases hlow : r = n
    · simp [oneDest, hlow]
    · simp [oneDest, hlow, hw]

/-! ### Other registers, and lanes one by one -/

/-- A write of a buffer record. -/
theorem State.writeB_room {s : State} {sid d n : Nat} {x : Record} {z : Str} {t : Troop} {k : Nat}
    (hz : s.str? sid = some z) (ht : s.troop? z.tid = some t) (hr : Room z t (k + 1)) :
    ∃ z', s.writeB sid d n x = (s.updStr sid fun _ => z') ∧ z' = { z with b := z'.b, bag := z'.bag } ∧
      (t.depth = 0 → z'.bag = z.bag) ∧ ∀ r, z'.breg r = if r = n then x else z.breg r := by
  obtain ⟨bag, h1, h2, -⟩ := State.record_room (d := d) (key := .b n) (prior := fun z => [(z.breg n).toNat]) hz ht hr
  refine ⟨{ ({ z with bag := bag } : Str) with b := Cells.set 0 z.b n x }, ?_, rfl, h2, fun r => ?_⟩
  · rw [State.writeB, h1, State.updStr_updStr hz (fun _ => { z with bag := bag }) _ rfl]
  · simp only [Str.breg, Cells.get_set]

/-- A change of the lanes does not depend on the rest of the string. -/
theorem lanes_congr {y z z' : Str} {f : Nat → Lane → Lane} (h : y.lanes = z.lanes) (hl : Lanes y z' f) : Lanes z z' f := by
  simpa only [Lanes, Str.lane, h] using hl

theorem Str.lane_map (z : Str) (f : Lane → Lane) {l : Nat} (hl : l < z.lanes.length) :
    ({ z with lanes := z.lanes.map f } : Str).lane l = f (z.lane l) := by
  simp [Str.lane, hl]

theorem Str.lanes_map (z : Str) (f : Lane → Lane) : Lanes z { z with lanes := z.lanes.map f } fun _ x => f x :=
  ⟨List.length_map _, fun _ hl => z.lane_map f hl⟩

/-- The lanes that park for a reason go on, and no other lane changes. -/
theorem Str.lanes_unpark (z : Str) (p : Park) : Lanes z (z.unpark (· == p)) fun _ x =>
    if x.park = p then { x with park := .none } else x := by
  simpa only [Str.unpark, beq_iff_eq] using z.lanes_map fun x => if x.park = p then { x with park := .none } else x

/-! ### Small steps at the end of an access -/

theorem State.settleFor_self {s : State} {sid : Nat} {z : Str} {t : Troop} (hz : s.str? sid = some z) (ht : s.troop? z.tid = some t)
    (ho : t.overflow = false) : s.settleFor sid = s := by
  simp only [State.settleFor, hz]
  exact State.settleOverflow_self ht ho

/-- An operation that has forced nothing has no flags to deliver. -/
theorem State.takeFlags_self {s : State} {wait : Nat} (h : ∀ f ∈ s.pendFlags, f.1 ≠ wait) : s.takeFlags wait = s := by
  have hmine : s.pendFlags.filter (·.1 == wait) = [] := by simpa [List.filter_eq_nil_iff] using h
  have hrest : s.pendFlags.filter (·.1 != wait) = s.pendFlags := by simpa [List.filter_eq_self] using h
  simp only [State.takeFlags, hmine, hrest, List.foldl_nil]

/-- A fault of an instruction outside trap mode joins the queue of a string that still has lanes (R389). -/
theorem State.lateFault_queued {s : State} {sid : Nat} {z : Str} (hz : s.str? sid = some z) (hl : ∃ l ∈ z.lanes, l.exited = false)
    (cause : Cause) (pc nodePc : Addr) (d : Nat) : s.lateFault sid cause pc nodePc d false =
      s.updStr sid fun _ => { z with lateq := z.lateq ++ [{ cause := cause, pc := pc, nodePc := nodePc, depth := d }] } := by
  have hall : z.lanes.all (·.exited) = false := by simpa [List.all_eq_false] using hl
  simp only [State.lateFault, hz, hall, Bool.false_eq_true, if_false]
  exact State.updStr_const hz _

/-! ### Results (R34, R37, R259, R262) -/

/-- The value that a part of an access gives its lane, if that has one to take. -/
def State.resultVal (s : State) (a : Access) (e : Elem) : Option (Nat × Nat) :=
  if s.exitedLane a.sid e.lane then none else e.val.map fun v => (e.lane, a.ty.regBits v)

/-- The values that an access writes, by lane. -/
def State.resultVals (s : State) (a : Access) : List (Nat × Nat) := a.elems.filterMap (s.resultVal a)

theorem State.resultVal_eq_some {s : State} {a : Access} {z : Str} (hz : s.str? a.sid = some z) {e : Elem} {r : Nat × Nat} :
    s.resultVal a e = some r ↔ (z.lane e.lane).exited = false ∧ ∃ x, e.val = some x ∧ (e.lane, a.ty.regBits x) = r := by
  simp only [State.resultVal, State.exitedLane, hz, Option.ite_none_left_eq_some, Option.map_eq_some_iff, Bool.not_eq_true]

theorem State.mem_resultVals {s : State} {a : Access} {z : Str} (hz : s.str? a.sid = some z) {r : Nat × Nat} :
    r ∈ s.resultVals a ↔ ∃ e ∈ a.elems, (z.lane e.lane).exited = false ∧ ∃ x, e.val = some x ∧ (e.lane, a.ty.regBits x) = r := by
  simp only [State.resultVals, List.mem_filterMap, State.resultVal_eq_some hz]

theorem State.nodup_resultVals {s : State} {a : Access} {z : Str} (hz : s.str? a.sid = some z)
    (h : (a.elems.map (·.lane)).Nodup) : ((s.resultVals a).map (·.1)).Nodup := by
  rw [List.Nodup, List.pairwise_map] at h ⊢
  rw [State.resultVals, List.pairwise_filterMap]
  refine h.imp fun hne r hr q hq => ?_
  obtain ⟨-, x, -, rfl⟩ := (State.resultVal_eq_some hz).1 hr
  obtain ⟨-, y, -, rfl⟩ := (State.resultVal_eq_some hz).1 hq
  exact hne

/-- The results of an access reach D of the lanes that have a value and have not exited, and no other lane changes. -/
theorem State.writeResults_room {s : State} {a : Access} {z : Str} {t : Troop} (hz : s.str? a.sid = some z)
    (ht : s.troop? z.tid = some t) (hr : Room z t 2) (hn : (a.elems.map (·.lane)).Nodup) (h32 : ∀ e ∈ a.elems, e.lane < 32) :
    ∃ z', s.writeResults a = (s.updStr a.sid fun _ => z') ∧ z' = { z with v := z'.v, bag := z'.bag } ∧
      (t.depth = 0 → z'.bag = z.bag) ∧
      (∀ e ∈ a.elems, ∀ x, e.val = some x → (z.lane e.lane).exited = false →
        ∀ n, z'.vreg n e.lane = (oneDest a.ty a.dst (a.ty.regBits x) n).getD (z.vreg n e.lane)) ∧
      ∀ l < 32, (∀ e ∈ a.elems, e.lane = l → e.val = none ∨ (z.lane l).exited = true) → ∀ n, z'.vreg n l = z.vreg n l := by
  have hlt : ∀ r ∈ s.resultVals a, r.1 < 32 := by
    intro r hr
    obtain ⟨e, he, -, x, -, rfl⟩ := (State.mem_resultVals hz).1 hr
    exact h32 e he
  obtain ⟨z', e1, k1, b1, v1, o1⟩ := State.writeVal_each (d := a.depth) (n := a.dst) (td := a.ty) hz ht hr (State.nodup_resultVals hz hn) hlt
  refine ⟨z', e1, k1, b1, fun e he x hx hex => v1 _ ((State.mem_resultVals hz).2 ⟨e, he, hex, x, hx, rfl⟩), fun l hl hno => o1 l hl ?_⟩
  rintro r hr rfl
  obtain ⟨e, he, hex, x, hx, rfl⟩ := (State.mem_resultVals hz).1 hr
  rcases hno e he rfl with h | h
  · simp [hx] at h
  · simp [hex] at h

/-! ### What the events of an access leave alone -/

section
variable {a b : Access} (h : Onward a b)
include h

theorem onward_id : b.id = a.id := by rw [h.1]
theorem onward_sid : b.sid = a.sid := by rw [h.1]
theorem onward_kind : b.kind = a.kind := by rw [h.1]
theorem onward_ty : b.ty = a.ty := by rw [h.1]
theorem onward_lvl : b.lvl = a.lvl := by rw [h.1]
theorem onward_dst : b.dst = a.dst := by rw [h.1]
theorem onward_pc : b.pc = a.pc := by rw [h.1]
theorem onward_depth : b.depth = a.depth := by rw [h.1]
theorem onward_trap : b.trap = a.trap := by rw [h.1]

end

/-- The kinds of access that write vector registers as they return. -/
def resultKinds : List AccKind := [.ld, .atom, .acas, .afadd]

theorem exec_registerResultReturn_results {s : State} {id : Nat} {b : Access} (hb : s.acc? id = some b) (hret : b.returned = true)
    (hk : b.kind ∈ resultKinds) :
    exec (.registerResultReturn id) s = .next (((s.writeResults b).endAccess b).settleFor b.sid) := by
  change execRegisterResultReturn id s = _
  simp only [resultKinds, List.mem_cons, List.not_mem_nil, or_false] at hk
  rcases hk with hk | hk | hk | hk
  all_goals simp [execRegisterResultReturn, hb, hret, hk]

theorem exec_registerResultReturn_pending {s : State} {id : Nat} {b : Access} (hb : s.acc? id = some b) (hret : b.returned = false) :
    exec (.registerResultReturn id) s = .next s := by
  change execRegisterResultReturn id s = _
  simp [execRegisterResultReturn, hb, hret]

/-- The late queue of a string after an access has left: its first fault has joined (R262). -/
def Access.lateAfter (a : Access) (q : List Late) : List Late :=
  match a.fault with
  | some f => q ++ [{ cause := f, pc := a.pc, nodePc := 0, depth := a.depth }]
  | none => q

/-- The machine without the record of an access. -/
def State.dropAcc (s : State) (id : Nat) : State := { s with accs := s.accs.filter (·.id != id) }

/-- The machine without an access that has left, but for its string: where it has a fault, its writes on their way record no other. -/
def State.without (s : State) (a : Access) : State :=
  { s.dropAcc a.id with writes := if a.fault.isSome then (s.tellWrites a.id).writes else s.writes }

theorem State.endAccess_of_none (s : State) {a : Access} (hflags : ∀ f ∈ s.pendFlags, f.1 ≠ a.id) (hf : a.fault = none) :
    s.endAccess a = s.dropAcc a.id := by
  simp only [State.endAccess, hf]
  exact State.takeFlags_self (s := s.dropAcc a.id) hflags

theorem State.endAccess_of_some (s : State) {a : Access} {c : Cause} (hflags : ∀ f ∈ s.pendFlags, f.1 ≠ a.id)
    (hf : a.fault = some c) :
    s.endAccess a = ((s.dropAcc a.id).lateFault a.sid c a.pc 0 a.depth a.trap).tellWrites a.id := by
  simp only [State.endAccess, hf]
  exact congrArg (fun u : State => (u.lateFault a.sid c a.pc 0 a.depth a.trap).tellWrites a.id)
    (State.takeFlags_self (s := s.dropAcc a.id) hflags)

/-- An access ends whose results have changed its string alone. -/
theorem State.endAccess_updStr {s : State} {b : Access} {z y : Str} (hz : s.str? b.sid = some z) (hy : y.sid = z.sid)
    (hflags : ∀ f ∈ s.pendFlags, f.1 ≠ b.id) (hfault : b.fault = none ∨ (b.trap = false ∧ ∃ l ∈ y.lanes, l.exited = false)) :
    (s.updStr b.sid fun _ => y).endAccess b = (s.without b).updStr b.sid fun _ => { y with lateq := b.lateAfter y.lateq } := by
  cases hf : b.fault with
  | none =>
    rw [State.endAccess_of_none (s.updStr b.sid fun _ => y) hflags hf]
    simp only [Access.lateAfter, State.without, hf]
    rfl
  | some f =>
    obtain ⟨htrap, hlane⟩ := hfault.resolve_left (by simp [hf])
    have hz0 : (s.dropAcc b.id).str? b.sid = some z := hz
    have hz1 : ((s.updStr b.sid fun _ => y).dropAcc b.id).str? b.sid = some y := State.str?_updStr hz0 (fun _ => y) hy
    have htwice := State.updStr_updStr hz0 (fun _ => y)
      (fun _ => { y with lateq := y.lateq ++ [{ cause := f, pc := b.pc, nodePc := 0, depth := b.depth }] }) hy
    rw [State.endAccess_of_some (s.updStr b.sid fun _ => y) hflags hf, htrap, State.lateFault_queued hz1 hlane]
    simp only [Access.lateAfter, State.without, hf]
    exact congrArg (State.tellWrites · b.id) htwice

/-- An access with results returns them (R34, R37, R259, R262). -/
theorem returns_of_kind {a : Access} (hk : a.kind ∈ resultKinds) : Returns a := by
  intro s b z t hb ho hret hz ht hr hn h32 hflags hfault
  rw [← onward_sid ho] at hz ⊢
  rw [← onward_id ho] at hb hflags ⊢
  rw [← onward_trap ho] at hfault
  rw [← onward_ty ho, ← onward_dst ho, ← onward_pc ho, ← onward_depth ho]
  obtain ⟨y, e1, k1, b1, v1, o1⟩ := State.writeResults_room hz ht hr hn h32
  have hyl : y.lanes = z.lanes := by rw [k1]
  have hyq : y.lateq = z.lateq := by rw [k1]
  have hend := State.endAccess_updStr (y := y) hz (by rw [k1]) hflags (by rw [hyl]; exact hfault)
  have hz1 : ((s.without b).updStr b.sid fun _ => { y with lateq := b.lateAfter y.lateq }).str? b.sid =
      some { y with lateq := b.lateAfter y.lateq } := State.str?_updStr (z := z) hz (fun _ => _) (by rw [k1])
  refine ⟨{ y with lateq := b.lateAfter y.lateq }, ?_, ?_, b1, ?_, fun e he n => ?_, fun l hl hno n => ?_⟩
  · rw [exec_registerResultReturn_results hb hret (by rw [onward_kind ho]; exact hk), e1, hend,
      State.settleFor_self hz1 (t := t) (by rw [k1]; exact ht) hr.1]
    rfl
  · rw [k1]
  · rw [hyq]; rfl
  · have hsame : e.val = none ∨ (z.lane e.lane).exited = true → y.vreg n e.lane = z.vreg n e.lane := fun h =>
      o1 e.lane (h32 e he) (fun f hf hfe => (List.inj_on_of_nodup_map hn hf he hfe) ▸ h) n
    cases hv : e.val with
    | none => exact hsame (.inl hv)
    | some x =>
      cases hex : (z.lane e.lane).exited with
      | true => exact hsame (.inr hex)
      | false => exact v1 e he x hv hex n
  · exact o1 l hl (fun e he hel => absurd hel (hno e he)) n

/-! ### BRLD (R265) -/

theorem exec_registerResultReturn_brld {s : State} {id : Nat} {b : Access} (hb : s.acc? id = some b) (hret : b.returned = true)
    (hk : b.kind = .brld) : exec (.registerResultReturn id) s = .next ((s.endBrld b).settleFor b.sid) := by
  change execRegisterResultReturn id s = _
  simp [execRegisterResultReturn, hb, hret, hk]

/-- The bytes of a BRLD form a record: it is written, and the bundle goes on. -/
theorem State.endBrld_ok {s : State} {a : Access} {e : Elem} {x : Nat} (he : a.elems = [e]) (hx : e.val = some x)
    (hf : a.fault = none) (hok : recordOk (BitVec.ofNat 256 x) = true) :
    s.endBrld a = ((s.dropAcc a.id).writeB a.sid a.depth a.dst (BitVec.ofNat 256 x)).unparkAll a.sid (.brld a.id) := by
  simp [State.endBrld, he, hx, hf, hok, State.dropAcc]

/-- Settles O25: an access of each kind with results by `returns_of_kind`, and BRLD by the write of a record. -/
theorem resultsReturn : Obligations.ResultsReturn := by
  refine ⟨fun a hk => returns_of_kind hk, fun s acc a e x z t ha hk he hx hf hok hz ht hr => ?_,
    fun s acc a ha hret => exec_registerResultReturn_pending ha hret⟩
  have hid : a.id = acc := by simpa using List.find?_some ha
  subst hid
  have hret : a.returned = true := by simp [Access.returned, he, Access.elemDone, hx]
  have hz0 : (s.dropAcc a.id).str? a.sid = some z := hz
  obtain ⟨y, e1, k1, b1, v1⟩ := State.writeB_room (d := a.depth) (n := a.dst) (x := BitVec.ofNat 256 x) hz0 ht hr
  have hy : y.sid = z.sid := by rw [k1]
  have hend : s.endBrld a = (s.dropAcc a.id).updStr a.sid fun _ => y.unpark (· == .brld a.id) := by
    rw [State.endBrld_ok he hx hf hok, e1]
    exact State.updStr_updStr hz0 (fun _ => y) _ hy
  have hz1 : ((s.dropAcc a.id).updStr a.sid fun _ => y.unpark (· == .brld a.id)).str? a.sid = some (y.unpark (· == .brld a.id)) :=
    State.str?_updStr hz0 (fun _ => y.unpark (· == .brld a.id)) hy
  have hyl : y.lanes = z.lanes := by rw [k1]
  refine ⟨y.unpark (· == .brld a.id), ?_, ?_, b1, v1, ?_⟩
  · rw [exec_registerResultReturn_brld ha hret hk, hend,
      State.settleFor_self hz1 (t := t) (by rw [show (y.unpark (· == .brld a.id)).tid = z.tid by rw [k1]; rfl]; exact ht) hr.1]
    rfl
  · rw [k1]; rfl
  · exact lanes_congr hyl (y.lanes_unpark (.brld a.id))
end Sys2Proof.Machine
end

section
/-! PROOFS. EXIT: what it leaves of its lanes, and what its string and its troop conclude from it (O15). -/

namespace Sys2Proof.Machine

open Sys2Proof.Claims

/-! ### The end of trap mode (R394) -/

theorem Str.any_lanes (z : Str) (p : Lane → Bool) : z.lanes.any p = true ↔ ∃ l < z.lanes.length, p (z.lane l) = true := by
  rw [List.any_eq_true]
  constructor
  · rintro ⟨x, hx, hp⟩
    obtain ⟨l, hl, rfl⟩ := List.getElem_of_mem hx
    exact ⟨l, hl, by simpa [Str.lane, hl] using hp⟩
  · rintro ⟨l, hl, hp⟩
    exact ⟨z.lanes[l], List.getElem_mem hl, by simpa [Str.lane, hl] using hp⟩

/-- A lane is left in trap mode when one that the change leaves alone was in it. -/
theorem Str.any_trap_mapLanes (z : Str) (m : Mask) {f : Lane → Lane} (hf : ∀ x, (f x).trap = false) :
    (z.mapLanes m f).lanes.any (·.trap) = false ↔ ∀ k < z.lanes.length, (z.lane k).trap = true → m.getLsbD k = true := by
  rw [Bool.eq_false_iff, ne_eq, Str.any_lanes, (z.lanes_mapLanes m f).1]
  push Not
  refine forall₂_congr fun k hk => ?_
  rw [z.lane_mapLanes m f k hk]
  cases hm : m.getLsbD k <;> simp [hf]

theorem Str.lane_unpark (z : Str) (p : Park → Bool) {l : Nat} (h : l < z.lanes.length) :
    (z.unpark p).lane l = if p (z.lane l).park then { z.lane l with park := .none } else z.lane l := by
  simp [Str.unpark, Str.lane, h]

/-- Lanes leave trap mode: the deferred lanes go on when no lane is left in it (R388, R394). -/
theorem Str.lanes_endTrapMode (z : Str) (m : Mask) {f : Lane → Lane} (hf : ∀ x, (f x).trap = false) :
    Lanes z (z.mapLanes m f).endTrapMode fun l x =>
      let y := if m.getLsbD l then f x else x
      if (∀ k < z.lanes.length, (z.lane k).trap = true → m.getLsbD k = true) ∧ y.park = .deferred then
        { y with park := .none } else y := by
  have hlen := (z.lanes_mapLanes m f).1
  have hiff := z.any_trap_mapLanes m hf
  cases ht : (z.mapLanes m f).lanes.any (·.trap) with
  | true =>
    have hno := mt hiff.2 (by simp [ht])
    simp only [Str.endTrapMode, ht, if_true]
    exact ⟨hlen, fun l hl => (z.lane_mapLanes m f l hl).trans (if_neg fun h => hno h.1).symm⟩
  | false =>
    have hyes := hiff.1 ht
    simp only [Str.endTrapMode, ht, Bool.false_eq_true, if_false]
    refine ⟨by simpa [Str.unpark] using hlen, fun l hl => ?_⟩
    rw [Str.lane_unpark _ _ (by rwa [hlen]), z.lane_mapLanes m f l hl]
    simp only [beq_iff_eq, and_iff_right hyes]

theorem Str.endTrapMode_eq (z : Str) : z.endTrapMode = { z with lanes := z.endTrapMode.lanes } := by
  unfold Str.endTrapMode
  split <;> rfl

/-! ### What the string concludes (R323, R409) -/

theorem State.bar_key (s : State) (k : BarKey) : (s.bar k).key = k := by
  cases h : s.bars.find? (·.key == k) with
  | none => simp [State.bar, h]
  | some b => simpa [State.bar, h] using List.find?_some h

/-- A lane that no mask of a list names is in none of them together. -/
theorem getLsbD_foldl_or {α : Type} (xs : List α) (g : α → Mask) (m : Mask) {l : Nat} (hm : m.getLsbD l = false)
    (h : ∀ a ∈ xs, (g a).getLsbD l = false) : (xs.foldl (fun m a => m ||| g a) m).getLsbD l = false := by
  induction xs generalizing m with
  | nil => exact hm
  | cons a xs ih => exact ih _ (by simp [hm, h a (by simp)]) fun b hb => h b (by simp [hb])

/-- The phase of a string's barrier stays open while one lane has neither exited nor arrived. -/
theorem State.checkBar_str_open {s : State} {sid l : Nat} {z : Str} (hz : s.str? sid = some z) (hl : l < 32)
    (hx : (z.lane l).exited = false) (ha : ∀ a ∈ (s.bar (.str sid)).arrs, a.lanes.getLsbD l = false) :
    s.checkBar (.str sid) = s := by
  have harr := getLsbD_foldl_or ((s.bar (.str sid)).arrs.filter s.arrived) (·.lanes) 0 (l := l) (by simp)
    fun a h => ha a (List.mem_filter.1 h).1
  have hall : s.allArrived (s.bar (.str sid)) = some false := by
    rw [State.allArrived, State.bar_key]
    simp only [hz, Option.some.injEq]
    rw [List.all_eq_false]
    exact ⟨l, List.mem_range.2 hl, by simp only [harr, hx]; simp⟩
  simp [State.checkBar, hall]

theorem State.advance_idle {s : State} {tid : Nat} {t : Troop} (ht : s.troop? tid = some t) (ha : t.arrivals = []) :
    s.advance tid = s := by
  simp [State.advance, ht, ha]

/-! ### EXIT -/

/-- What becomes of a lane that exits (R37). -/
def exitLane (x : Lane) : Lane := { x with exited := true, trap := false, block := none }

/-- The string after the lanes of a mask have exited. -/
def Str.afterExit (z : Str) (g : Mask) : Str := (z.mapLanes g exitLane).endTrapMode

theorem Str.afterExit_eq (z : Str) (g : Mask) : z.afterExit g = { z with lanes := (z.afterExit g).lanes } :=
  (z.mapLanes g exitLane).endTrapMode_eq

theorem Str.afterExit_lanes (z : Str) (g : Mask) : Lanes z (z.afterExit g) fun l x =>
    let y : Lane := if g.getLsbD l then { x with exited := true, trap := false, block := none } else x
    if (∀ k < z.lanes.length, (z.lane k).trap = true → g.getLsbD k = true) ∧ y.park = .deferred then
      { y with park := .none } else y :=
  z.lanes_endTrapMode g (f := exitLane) fun _ => rfl

/-- A lane that is not of the bundle has exited after it as before. -/
theorem Str.afterExit_exited (z : Str) {g : Mask} {l : Nat} (hg : g.getLsbD l = false) :
    ((z.afterExit g).lane l).exited = (z.lane l).exited := by
  obtain ⟨hlen, hlane⟩ := z.afterExit_lanes g
  by_cases h : l < z.lanes.length
  · rw [hlane l h]
    simp only [hg, Bool.false_eq_true, if_false]
    split <;> rfl
  · simp [Str.lane, hlen, h]

theorem State.exitLanes_eq {s : State} {c : Cur} {t : Troop} {z : Str} (hz : s.str? c.sid = some z) :
    s.exitLanes c t =
      if (∀ l ∈ (z.afterExit c.bundle).lanes, l.exited = true) ∧ z.lateq ≠ [] then
        (s.updStr c.sid fun _ => z.afterExit c.bundle).secondError (z.afterExit c.bundle)
      else ((s.updStr c.sid fun _ => z.afterExit c.bundle).checkBar (.str c.sid)).advance t.tid := by
  have hsid : (z.afterExit c.bundle).sid = z.sid := by rw [z.afterExit_eq]
  have hq : (z.afterExit c.bundle).lateq = z.lateq := by rw [z.afterExit_eq]
  have he : (s.updStr c.sid fun z => (z.mapLanes c.bundle fun l => { l with exited := true, trap := false, block := none }).endTrapMode)
      = s.updStr c.sid fun _ => z.afterExit c.bundle := State.updStr_const hz _
  rw [State.exitLanes, he]
  simp only [State.str?_updStr hz (fun _ => z.afterExit c.bundle) hsid]
  simp only [hq, Bool.and_eq_true, List.all_eq_true, Bool.not_eq_true', List.isEmpty_eq_false_iff]

theorem exec_exit {o : Operands} {s : State} {c : Cur} {z : Str} {t : Troop} (h : Issues s (.exit o) c z t) (hd : t.depth = 0) :
    exec (.exit o) s = .next ((s.exitLanes c t).settleOverflow t.tid) := by
  refine (State.issue_next h noCheck (fun c _ t => if t.depth != 0 then s.raise c .recoveryEscape else s.exitLanes c t) rfl).trans ?_
  simp [hd]

/-- Settles O15, by what `exitLanes` leaves of the string and the two ends it can have. -/
theorem exits : Obligations.Exits := by
  refine ⟨?_, ?_, fun o => Traps.of (fun _ => rfl) fun s c z t _ ht => if_pos (bne_iff_ne.2 ht)⟩
  · rintro o s c z t h ho hd hq ha ⟨l, hl, hx, hb, harr⟩
    have hsid : (z.afterExit c.bundle).sid = z.sid := by rw [z.afterExit_eq]
    have ht : (s.updStr c.sid fun _ => z.afterExit c.bundle).troop? t.tid = some t := (State.troop?_updStr ..).trans (issues_tid h)
    refine ⟨z.afterExit c.bundle, ?_, z.afterExit_eq _, z.afterExit_lanes _⟩
    rw [exec_exit h hd, State.exitLanes_eq h.str, if_neg fun k => k.2 hq,
      State.checkBar_str_open (l := l) (State.str?_updStr h.str _ hsid) hl ((z.afterExit_exited hb).trans hx) harr,
      State.advance_idle ht ha, State.settleOverflow_self ht ho]
  · intro o s c z t h hd
    refine ⟨z.afterExit c.bundle, z.afterExit_eq _, z.afterExit_lanes _, fun k => ?_, fun k => ?_⟩
    · rw [exec_exit h hd, State.exitLanes_eq h.str, if_pos k]
    · have hno : ¬((∀ l ∈ (z.afterExit c.bundle).lanes, l.exited = true) ∧ z.lateq ≠ []) := by
        rintro ⟨hall, hq⟩
        obtain ⟨l, hl, hf⟩ := k.resolve_right hq
        simp [hall l hl] at hf
      rw [exec_exit h hd, State.exitLanes_eq h.str, if_neg hno]

end Sys2Proof.Machine
end

section
/-! PROOFS. SREAD: the value of each special register, and where an instruction puts it (O20). -/

namespace Sys2Proof.Machine

open Sys2Proof.Claims

/-- An instruction whose effect is to hold does not issue in this clock (R35). -/
theorem held_of_body {i : Instr} {body : State → Cur → Str → Troop → State} (hx : ∀ s, exec i s = s.issue i noCheck (body s))
    {s : State} {c : Cur} {z : Str} {t : Troop} (h : Issues s i c z t) (ho : t.overflow = false) (hb : body s c z t = s.hold) :
    Held s c i := by
  rw [Held, hx, State.issue_done (t' := t) h noCheck (body s) rfl (hb ▸ issues_tid (s := s) h) ho, hb, State.hold, h.cur]

/-- The type that a read of a special register writes to a vector register (R320). -/
def specialTy (n : Nat) : Ty := match specialReg n with | some (_, 64, _) => .b64 | _ => .b32

section
variable {s : State} {c : Cur} {z : Str} {t : Troop} {o : Operands}

theorem State.sread_scalar (hs : o.spec = true) (hw : s.flagsWait z.sid o.fn.toNat = false) :
    s.sread c z t o = s.putScalar c z o.d (s.special c z t o.fn.toNat) := by
  by_cases hc : c.parts = 0 <;> simp only [State.sread, State.putScalar, hs, hw, hc, Bool.false_eq_true, if_true, if_false]

theorem State.sread_vector (hs : o.spec = false) (hw : s.flagsWait z.sid o.fn.toNat = false) (hc : c.parts ≠ 0) :
    s.sread c z t o = s.putLanes c z (specialTy o.fn.toNat) o.d
      fun l => if o.fn = 0 then l else (s.special c z t o.fn.toNat).toNat := by
  have h0 : o.fn.toNat = 0 ↔ o.fn = 0 := BitVec.toNat_inj (y := 0)
  simp only [State.sread, hs, hw, hc, h0, if_false, Bool.false_eq_true]
  rfl

theorem State.sread_idle (hc : c.parts = 0) : s.sread c z t o = s := if_pos hc

theorem State.sread_wait (hc : c.parts ≠ 0) (hw : s.flagsWait z.sid o.fn.toNat = true) : s.sread c z t o = s.hold := by
  simp only [State.sread, hc, hw, if_true, if_false]

section
variable {i : Instr} (hx : ∀ s, exec i s = s.issue i noCheck fun c z t => s.sread c z t o)
include hx

theorem sread_writes_scalar (hs : o.spec = true) :
    SResult i o.d (fun s _ z _ => s.flagsWait z.sid o.fn.toNat = false) fun s c z t => s.special c z t o.fn.toNat :=
  SResult.of hx fun _ _ _ _ _ hw => State.sread_scalar hs hw

theorem sread_held (h : Issues s i c z t) (ho : t.overflow = false) (hc : c.parts ≠ 0)
    (hw : s.flagsWait z.sid o.fn.toNat = true) : Held s c i :=
  held_of_body hx h ho (State.sread_wait hc hw)

theorem sread_writes_lanes (hs : o.spec = false) (h : Issues s i c z t) (hr : Room z t 2) (hw : s.flagsWait z.sid o.fn.toNat = false) :
    ∃ z', exec i s = .next (s.updStr c.sid fun _ => z') ∧ onlyV z z' t 0 ∧
      ∀ n l, l < 32 → z'.vreg n l = if c.parts.getLsbD l then
        (oneDest (specialTy o.fn.toNat) o.d.toNat
          (if o.fn = 0 then l else (s.special c z t o.fn.toNat).toNat) n).getD (z.vreg n l) else z.vreg n l := by
  by_cases hc : c.parts = 0
  · have hself : s.sread c z t o = s.updStr c.sid fun _ => z := (State.sread_idle hc).trans (State.updStr_self h.str).symm
    refine ⟨z, exec_of_body hx h hr.1 hself, ⟨by rw [or_noFlags], fun _ => rfl⟩, fun n l _ => ?_⟩
    simp [hc]
  · obtain ⟨z', e, k, b, v⟩ := State.writeVal_room (d := s.depthOf z) (n := o.d.toNat) (m := c.parts) (td := specialTy o.fn.toNat)
      (f := fun l => if o.fn = 0 then l else (s.special c z t o.fn.toNat).toNat) h.str h.troop hr
    exact ⟨z', exec_of_body hx h hr.1 ((State.sread_vector hs hw hc).trans e), ⟨by rw [or_noFlags]; exact k, b⟩, v⟩

end
end

/-! ### The values (R24, R30, R425) -/

section
variable (s : State) (c : Cur) (z : Str) {t : Troop}

theorem coords_of_launch {l : Launch} (h : s.launchOf t = some l) :
    s.coords t = (t.linear % max 1 (l.bits 1 23 0), t.linear / max 1 (l.bits 1 23 0) % max 1 (l.bits 2 23 0),
      t.linear / max 1 (l.bits 1 23 0) / max 1 (l.bits 2 23 0)) := by
  simp only [State.coords, h, Launch.gridX, Launch.gridY]

theorem special_role : s.special c z t 0x08 = if z.idx < t.prod then 0 else 1 := by
  simp only [State.special, Troop.role]
  by_cases h : t.prod = 0
  · simp [h]
  · by_cases hi : z.idx < t.prod <;> simp [h, hi]

theorem rcvStat_of_nil (h : t.blocks = []) :
    rcvStat z t = t.conflicts * 2 ^ 16 + z.fcause * 2 ^ 8 + z.fkind * 2 ^ 5 + if z.aborted then 1 else 0 := by
  simp [rcvStat, h]

theorem rcvStat_of_concat {bs : List RBlock} {b : RBlock} (h : t.blocks = bs ++ [b]) :
    rcvStat z t = t.conflicts * 2 ^ 16 + z.fcause * 2 ^ 8 + z.fkind * 2 ^ 5 + (if z.aborted then 1 else 0) +
      (if b.inTest then 16 else 0) + 2 * b.alt := by
  simp only [rcvStat, h, List.getLast?_concat]
  omega

end

/-- Settles O20: both forms of SREAD by the lemmas on `sread`, the values by the table of R30. -/
theorem specialReads : Obligations.SpecialReads := by
  refine ⟨fun o => ⟨sread_writes_scalar fun _ => rfl, fun hs _ _ _ _ => sread_writes_lanes (fun _ => rfl) hs,
      fun _ _ _ _ => sread_held fun _ => rfl⟩,
    fun o => ⟨sread_writes_scalar fun _ => rfl, fun hs _ _ _ _ => sread_writes_lanes (fun _ => rfl) hs,
      fun _ _ _ _ => sread_held fun _ => rfl⟩,
    fun _ _ _ _ => ⟨rfl, rfl, rfl, rfl, rfl, rfl, rfl, rfl, rfl, rfl, rfl⟩, fun s c z t l h => ?_, fun s c z t => ?_⟩
  · refine ⟨?_, ?_, ?_, ?_, ?_, ?_⟩ <;> simp only [State.special, coords_of_launch s h, h] <;> rfl
  · refine ⟨special_role s c z, rfl, rfl, rfl, rfl, fun h => ?_, fun bs b h => ?_⟩
    · exact congrArg (BitVec.ofNat 64) (rcvStat_of_nil z h)
    · exact congrArg (BitVec.ofNat 64) (rcvStat_of_concat z h)

end Sys2Proof.Machine
end

section
/-! PROOFS. SWRITE: the value it takes, its checks, and what each special register then holds (O21). -/

namespace Sys2Proof.Machine

open Sys2Proof.Claims

/-! ### STRCTL (R31) -/

theorem bitsNat_congr {x y : Word} {hi lo : Nat} (h : ∀ i, lo ≤ i → i ≤ hi → x.getLsbD i = y.getLsbD i) :
    bitsNat x hi lo = bitsNat y hi lo := by
  have hxy : x.extractLsb' lo (hi + 1 - lo) = y.extractLsb' lo (hi + 1 - lo) := by
    ext i hlt
    rw [BitVec.getElem_extractLsb', BitVec.getElem_extractLsb', h _ (by omega) (by omega)]
  simpa only [bitsNat, BitVec.extractLsb'_toNat] using congrArg BitVec.toNat hxy

theorem bitsNat_nibble (x : Word) : bitsNat x 3 0 = (x &&& 15#32).toNat := by
  rw [BitVec.toNat_and]
  exact (Nat.and_two_pow_sub_one_eq_mod x.toNat 4).symm

/-- The low nibble that a write of STRCTL stores: 11 for 0. -/
def strctlNibble (x : Word) : Word := if x &&& 15#32 = 0 then 11 else x &&& 15#32

/-- What a write of STRCTL stores at each place. -/
theorem strctlWrite_bit (old x : Word) {i : Nat} (hi : i < 32) : (strctlWrite old x).getLsbD i =
    if 16 ≤ i ∨ i = 4 ∨ i = 6 then x.getLsbD i else if i = 5 then old.getLsbD i
    else if i < 4 then (strctlNibble x).getLsbD i else false := by
  have hx : ∀ i < 32, (0xFFFF0050#32).getLsbD i = decide (16 ≤ i ∨ i = 4 ∨ i = 6) := by decide
  have ho : ∀ i < 32, (0x20#32).getLsbD i = decide (i = 5) := by decide
  have hn : (strctlNibble x).getLsbD i = ((strctlNibble x).getLsbD i && decide (i < 4)) := by
    have hlow : ∀ i < 32, 4 ≤ i → (15#32).getLsbD i = false ∧ (11#32).getLsbD i = false := by decide
    by_cases h4 : i < 4
    · simp [h4]
    · obtain ⟨h15, h11⟩ := hlow i hi (by omega)
      unfold strctlNibble
      split <;> simp [h4, h15, h11]
  have hbits : (strctlWrite old x).getLsbD i = ((x.getLsbD i && decide (16 ≤ i ∨ i = 4 ∨ i = 6)) || (old.getLsbD i && decide (i = 5)) ||
      (strctlNibble x).getLsbD i) := by
    rw [← hx i hi, ← ho i hi, ← BitVec.getLsbD_and, ← BitVec.getLsbD_and, ← BitVec.getLsbD_or, ← BitVec.getLsbD_or]
    rfl
  rw [hbits, hn]
  by_cases h1 : 16 ≤ i ∨ i = 4 ∨ i = 6
  · have h4 : ¬ i < 4 := by omega
    have h5 : ¬ i = 5 := by omega
    simp only [h1, h4, h5, decide_true, decide_false, Bool.and_true, Bool.and_false, Bool.or_false, if_true]
  · by_cases h5 : i = 5
    · simp [h5]
    · by_cases h4 : i < 4 <;> simp [h1, h5, h4]

/-- The fields of STRCTL after a write of it. -/
theorem strctlWrite_fields (old x : Word) :
    bitsNat (strctlWrite old x) 31 16 = bitsNat x 31 16 ∧ bitsNat (strctlWrite old x) 15 7 = 0 ∧
    (strctlWrite old x).getLsbD 6 = x.getLsbD 6 ∧ (strctlWrite old x).getLsbD 5 = old.getLsbD 5 ∧
    (strctlWrite old x).getLsbD 4 = x.getLsbD 4 ∧
    bitsNat (strctlWrite old x) 3 0 = if bitsNat x 3 0 = 0 then 11 else bitsNat x 3 0 := by
  refine ⟨bitsNat_congr fun i h1 h2 => ?_, ?_, strctlWrite_bit old x (by decide), strctlWrite_bit old x (by decide),
    strctlWrite_bit old x (by decide), ?_⟩
  · rw [strctlWrite_bit old x (by omega), if_pos (.inl h1)]
  · refine (bitsNat_congr (y := 0) fun i h1 h2 => ?_).trans rfl
    rw [strctlWrite_bit old x (by omega), if_neg (by omega), if_neg (by omega), if_neg (by omega)]
    simp
  · have hlow : bitsNat (strctlWrite old x) 3 0 = bitsNat (strctlNibble x) 3 0 := bitsNat_congr fun i _ h2 => by
      rw [strctlWrite_bit old x (by omega), if_neg (by omega), if_neg (by omega), if_pos (by omega)]
    have hz : x &&& 15#32 = 0 ↔ bitsNat x 3 0 = 0 := by rw [bitsNat_nibble, BitVec.toNat_eq]; rfl
    rw [hlow, strctlNibble]
    simp only [hz]
    split
    · rfl
    · rw [bitsNat_nibble, bitsNat_nibble, BitVec.and_assoc, BitVec.and_self]

/-! ### A write of a special register (R31 to R33, R321, R400) -/

section
variable {s : State} {c : Cur} {z : Str} {t : Troop} (hz : s.str? c.sid = some z) (ht : s.troop? z.tid = some t) (hr : Room z t 1)
  (x : Dword)
include hz ht hr

theorem State.putSpecial_fpctl : ∃ z', s.putSpecial c t 0x10 x = (s.updStr c.sid fun _ => z') ∧
    z' = { z with fpctl := x.setWidth 32 &&& 0x3F#32, bag := z'.bag } ∧ (t.depth = 0 → z'.bag = z.bag) := by
  obtain ⟨bag, h1, h2, -⟩ := State.record_room (d := t.depth) (key := .fpctl) (prior := fun z => [z.fpctl.toNat]) hz ht hr
  refine ⟨{ z with fpctl := x.setWidth 32 &&& 0x3F#32, bag := bag }, ?_, rfl, h2⟩
  simp only [State.putSpecial, State.recordSpecial, h1]
  exact State.updStr_updStr hz (fun _ => { z with bag := bag }) _ rfl

theorem State.putSpecial_strctl : ∃ z', s.putSpecial c t 0x12 x = (s.updStr c.sid fun _ => z') ∧
    z' = { z with strctl := z'.strctl, lanes := z'.lanes, bag := z'.bag } ∧ (t.depth = 0 → z'.bag = z.bag) ∧
    z'.strctl = strctlWrite z.strctl (x.setWidth 32) ∧
    Lanes z z' fun _ y => if (x.setWidth 32).getLsbD 4 then y else { y with wait := 0 } := by
  obtain ⟨bag, h1, h2, -⟩ := State.record_room (d := t.depth) (key := .strctl) (prior := fun z => [z.strctl.toNat]) hz ht hr
  refine ⟨{ z with
      strctl := strctlWrite z.strctl (x.setWidth 32)
      lanes := if (x.setWidth 32).getLsbD 4 then z.lanes else z.lanes.map fun l => { l with wait := 0 }
      bag := bag }, ?_, rfl, h2, rfl, ?_⟩
  · simp only [State.putSpecial, State.recordSpecial, h1]
    exact State.updStr_updStr hz (fun _ => { z with bag := bag }) _ rfl
  · cases (x.setWidth 32).getLsbD 4 with
    | true => exact ⟨rfl, fun _ _ => rfl⟩
    | false => exact z.lanes_map fun l => { l with wait := 0 }

theorem State.putSpecial_trapBase : ∃ z', s.putSpecial c t 0x18 x =
      (if t.super && !c.trap then (s.updStr c.sid fun _ => z').updPad t.pad fun p => { p with trapBase := x }
        else s.updStr c.sid fun _ => z') ∧
    z' = { z with trapBase := x, bag := z'.bag } ∧ (t.depth = 0 → z'.bag = z.bag) := by
  obtain ⟨bag, h1, h2, -⟩ := State.record_room (d := t.depth) (key := .trapBase) (prior := fun z => [z.trapBase.toNat]) hz ht hr
  refine ⟨{ z with trapBase := x, bag := bag }, ?_, rfl, h2⟩
  have h3 : ((s.updStr c.sid fun _ => { z with bag := bag }).updStr c.sid fun z => { z with trapBase := x }) =
      s.updStr c.sid fun _ => { z with trapBase := x, bag := bag } :=
    State.updStr_updStr hz (fun _ => { z with bag := bag }) (fun z => { z with trapBase := x }) rfl
  simp only [State.putSpecial, State.recordSpecial, h1, h3]

end

/-! ### The value and the checks -/

/-- The value that SWRITE takes for a register that software writes (R321). -/
def swriteValue (o : Operands) (c : Cur) (z : Str) : Dword :=
  if o.spec then z.sreg o.a.toNat
  else if o.fn = 0x18 then z.vpair o.a.toNat (c.lanes.headD 0) else (z.vreg o.a.toNat (c.lanes.headD 0)).setWidth 64

theorem lanes_eq_cons {c : Cur} (h : c.parts ≠ 0) : ∃ ls, c.lanes = c.lanes.headD 0 :: ls := by
  cases hl : c.lanes with
  | cons l ls => exact ⟨ls, rfl⟩
  | nil => exact absurd (BitVec.eq_of_getLsbD_eq fun l hi => by rw [getLsbD_of_lanesOf_nil hl hi]; simp) h

section
variable {s : State} {c : Cur} {z : Str} {t : Troop} {o : Operands}

theorem State.swrite_idle (h : c.parts = 0) : s.swrite c z t o = s := by
  have hl : c.lanes = [] := by rw [Cur.lanes, h]; decide
  simp only [State.swrite, hl]

/-- SWRITE of TRAPBASE with a participant: its checks in their order, then the write. -/
theorem State.swrite_trapBase_eq (h : c.parts ≠ 0) (hn : o.fn = 0x18) : s.swrite c z t o =
    if State.isSuper t c.trap = false then s.raise c .privileged
    else if canonical (swriteValue o c z) = false then s.raise c .noncanonical
    else if (swriteValue o c z).toNat % 4 ≠ 0 then s.raise c .misaligned
    else s.putSpecial c t 0x18 (swriteValue o c z) := by
  obtain ⟨ls, hl⟩ := lanes_eq_cons h
  have hfn : o.fn.toNat = 0x18 := by rw [hn]; rfl
  rw [State.swrite, hl]
  simp only [swriteValue, State.flagsWait, hfn, eq_true hn, specialReg, if_true, Bool.and_eq_true, Bool.not_eq_true', decide_eq_true_eq,
    bne_iff_ne, ne_eq, beq_iff_eq, true_and, Nat.reduceEqDiff, false_and, if_false]

/-- SWRITE of any other register that software writes: the wait of FPFLAGS, then the write. -/
theorem State.swrite_status_eq (h : c.parts ≠ 0) (hn : o.fn ∈ [0x10, 0x11, 0x12]) : s.swrite c z t o =
    if o.fn.toNat = 0x11 ∧ s.matPending z.sid = true then s.hold else s.putSpecial c t o.fn.toNat (swriteValue o c z) := by
  obtain ⟨ls, hl⟩ := lanes_eq_cons h
  simp only [List.mem_cons, List.not_mem_nil, or_false] at hn
  have hfn : o.fn.toNat ≠ 0x18 ∧ o.fn ≠ 0x18 ∧ specialReg o.fn.toNat = some (false, 32, true) := by
    rcases hn with hn | hn | hn <;> rw [hn] <;> decide
  rw [State.swrite, hl]
  simp only [swriteValue, State.flagsWait, hfn, Bool.and_eq_true, decide_eq_true_eq, beq_iff_eq, false_and, Bool.false_eq_true,
    if_false]

end

/-! ### SWRITE in its two forms -/

section
variable {i : Instr} {o : Operands} (hx : ∀ s, exec i s = s.issue i noCheck fun c z t => s.swrite c z t o)
include hx

theorem swrite_traps_privileged :
    Traps i (fun _ c _ t => c.parts ≠ 0 ∧ o.fn = 0x18 ∧ t.super = false) .privileged := by
  rintro s c z t h ho hd ⟨hc, hn, ht⟩
  obtain ⟨z', e, k⟩ := State.raise_delivers h.str h.troop hd
  refine ⟨z', exec_of_body hx h ho (.trans ?_ e), k⟩
  rw [State.swrite_trapBase_eq hc hn, if_pos (by simp [State.isSuper, hd.1, ht])]

theorem swrite_traps_noncanonical :
    Traps i (fun _ c z t => c.parts ≠ 0 ∧ o.fn = 0x18 ∧ t.super = true ∧ canonical (swriteValue o c z) = false) .noncanonical :=
  Traps.of hx fun s c z t _ ⟨hc, hn, ht, hv⟩ => by
    rw [State.swrite_trapBase_eq hc hn, if_neg (by simp [State.isSuper, ht]), if_pos hv]

theorem swrite_traps_misaligned :
    Traps i (fun _ c z t => c.parts ≠ 0 ∧ o.fn = 0x18 ∧ t.super = true ∧ canonical (swriteValue o c z) = true ∧
      (swriteValue o c z).toNat % 4 ≠ 0) .misaligned :=
  Traps.of hx fun s c z t _ ⟨hc, hn, ht, hv, ha⟩ => by
    rw [State.swrite_trapBase_eq hc hn, if_neg (by simp [State.isSuper, ht]), if_neg (by simp [hv]), if_pos ha]

theorem swrite_completes_idle : Completes i (fun _ c _ _ => c.parts = 0) fun s _ _ _ => s := by
  intro s c z t h ho hc
  rw [hx, State.issue_next h noCheck _ rfl, State.swrite_idle hc, State.settleOverflow_self (issues_tid h) ho]

variable {s : State} {c : Cur} {z : Str} {t : Troop} (h : Issues s i c z t) (hr : Room z t 1) (hc : c.parts ≠ 0)
include h hr hc

theorem swrite_fpctl (hn : o.fn = 0x10) : ∃ z', exec i s = .next (s.updStr c.sid fun _ => z') ∧
    z' = { z with fpctl := (swriteValue o c z).setWidth 32 &&& 0x3F#32, bag := z'.bag } ∧ (t.depth = 0 → z'.bag = z.bag) := by
  obtain ⟨z', e, k⟩ := State.putSpecial_fpctl h.str h.troop hr (swriteValue o c z)
  have hfn : o.fn.toNat = 0x10 := by rw [hn]; rfl
  refine ⟨z', exec_of_body hx h hr.1 (.trans ?_ e), k⟩
  rw [State.swrite_status_eq hc (by simp [hn]), hfn, if_neg (by simp)]

theorem swrite_fpflags (hn : o.fn = 0x11) (hm : s.matPending z.sid = false) : exec i s =
    .next (s.updStr c.sid fun _ => { z with fpflags := (swriteValue o c z).setWidth 32 &&& 0x1F#32 }) := by
  have hfn : o.fn.toNat = 0x11 := by rw [hn]; rfl
  refine exec_of_body hx h hr.1 ?_
  rw [State.swrite_status_eq hc (by simp [hn]), hfn, if_neg (by simp [hm])]
  exact State.updStr_const h.str _

theorem swrite_fpflags_held (hn : o.fn = 0x11) (hm : s.matPending z.sid = true) : Held s c i := by
  have hfn : o.fn.toNat = 0x11 := by rw [hn]; rfl
  refine held_of_body hx h hr.1 ?_
  rw [State.swrite_status_eq hc (by simp [hn]), if_pos ⟨hfn, hm⟩]

theorem swrite_strctl (hn : o.fn = 0x12) : ∃ z', exec i s = .next (s.updStr c.sid fun _ => z') ∧
    z' = { z with strctl := z'.strctl, lanes := z'.lanes, bag := z'.bag } ∧ (t.depth = 0 → z'.bag = z.bag) ∧
    bitsNat z'.strctl 31 16 = bitsNat ((swriteValue o c z).setWidth 32 : Word) 31 16 ∧ bitsNat z'.strctl 15 7 = 0 ∧
    z'.strctl.getLsbD 6 = ((swriteValue o c z).setWidth 32 : Word).getLsbD 6 ∧ z'.strctl.getLsbD 5 = z.strctl.getLsbD 5 ∧
    z'.strctl.getLsbD 4 = ((swriteValue o c z).setWidth 32 : Word).getLsbD 4 ∧
    bitsNat z'.strctl 3 0 = (if bitsNat ((swriteValue o c z).setWidth 32 : Word) 3 0 = 0 then 11
      else bitsNat ((swriteValue o c z).setWidth 32 : Word) 3 0) ∧
    Lanes z z' fun _ y => if ((swriteValue o c z).setWidth 32 : Word).getLsbD 4 then y else { y with wait := 0 } := by
  obtain ⟨z', e, k, b, hw, hl⟩ := State.putSpecial_strctl h.str h.troop hr (swriteValue o c z)
  have hfn : o.fn.toNat = 0x12 := by rw [hn]; rfl
  obtain ⟨f1, f2, f3, f4, f5, f6⟩ := strctlWrite_fields z.strctl ((swriteValue o c z).setWidth 32)
  rw [← hw] at f1 f2 f3 f4 f5 f6
  refine ⟨z', exec_of_body hx h hr.1 (.trans ?_ e), k, b, f1, f2, f3, f4, f5, f6, hl⟩
  rw [State.swrite_status_eq hc (by simp [hn]), hfn, if_neg (by simp)]

theorem swrite_trapBase (hn : o.fn = 0x18) (hs : c.trap = true ∨ t.super = true) (hv : canonical (swriteValue o c z) = true)
    (ha : (swriteValue o c z).toNat % 4 = 0) : ∃ z', exec i s = .next (if t.super && !c.trap then
        (s.updStr c.sid fun _ => z').updPad t.pad fun p => { p with trapBase := swriteValue o c z }
      else s.updStr c.sid fun _ => z') ∧
    z' = { z with trapBase := swriteValue o c z, bag := z'.bag } ∧ (t.depth = 0 → z'.bag = z.bag) := by
  obtain ⟨z', e, k⟩ := State.putSpecial_trapBase h.str h.troop hr (swriteValue o c z)
  have hbody : s.swrite c z t o = s.putSpecial c t 0x18 (swriteValue o c z) := by
    rw [State.swrite_trapBase_eq hc hn, if_neg (by rcases hs with hs | hs <;> simp [State.isSuper, hs]),
      if_neg (by simp [hv]), if_neg (by simp [ha])]
  have ht := issues_tid h
  have htid : (s.swrite c z t o).troop? t.tid = some t := by
    rw [hbody, e]
    split <;> exact ht
  refine ⟨z', ?_, k⟩
  rw [hx, State.issue_done h noCheck _ rfl htid hr.1, hbody, e]

end

/-- Settles O21: both forms of SWRITE, one register at a time, and the checks of TRAPBASE in their order. -/
theorem specialWrites : Obligations.SpecialWrites := by
  refine ⟨fun o => ?_, fun o => ?_⟩
  all_goals
    refine ⟨swrite_completes_idle fun _ => rfl, fun s c z t h hr hc => ⟨?_, ?_, ?_, ?_, ?_⟩,
      swrite_traps_privileged fun _ => rfl, swrite_traps_noncanonical fun _ => rfl, swrite_traps_misaligned fun _ => rfl⟩
    · exact swrite_fpctl (fun _ => rfl) h hr hc
    · exact swrite_fpflags (fun _ => rfl) h hr hc
    · exact swrite_fpflags_held (fun _ => rfl) h hr hc
    · exact swrite_strctl (fun _ => rfl) h hr hc
    · exact swrite_trapBase (fun _ => rfl) h hr hc

end Sys2Proof.Machine
end

section
/-! PROOFS. Retirement: a string into its troop, and a troop into its final commit (O52). -/

namespace Sys2Proof.Machine

open Sys2Proof.Claims

/-! ### Strings (R38, R219) -/

/-- The string has nothing left to wait for, on a core that runs, outside any recovery block. -/
def State.stringReady (s : State) (sid : Nat) (z : Str) (t : Troop) : Prop :=
  s.haltedCore t.core = false ∧ z.retired = false ∧ t.depth = 0 ∧ (∀ l ∈ z.lanes, l.exited = true) ∧ s.resultPending sid = false ∧
    s.storesPending sid s.nextId = false

/-- A line of the string that would be committed lies in an open commutative range. -/
def State.rangeInWay (s : State) (z : Str) (t : Troop) : Prop := ∃ c ∈ s.commitBytes z.sid t .trp, s.inOpenRange t c.va 64 ≠ none

/-- The state after the string has committed its buffer, what the troop's has no room for included. -/
def State.bufferRetired (s : State) (z : Str) (t : Troop) : State :=
  (s.retireCommit z t).1.carryLeft z t (s.retireCommit z t).2

theorem State.retireBuffer_blocked {s : State} {z : Str} {t : Troop} (h : s.rangeInWay z t) : s.retireBuffer z t = none := by
  obtain ⟨c, hc, hr⟩ := h
  exact if_pos (List.any_eq_true.2 ⟨c, hc, Option.isSome_iff_ne_none.2 hr⟩)

theorem State.retireBuffer_free {s : State} {z : Str} {t : Troop} (h : ¬ s.rangeInWay z t) :
    s.retireBuffer z t = some (s.bufferRetired z t) := by
  refine if_neg fun ha => h ?_
  obtain ⟨c, hc, hr⟩ := List.any_eq_true.1 ha
  exact ⟨c, hc, Option.isSome_iff_ne_none.1 hr⟩

/-- What keeps a string from retiring. -/
theorem stringReady_iff {s : State} {sid : Nat} {z : Str} {t : Troop} :
    (s.haltedCore t.core || z.retired || t.depth != 0 || !z.lanes.all (·.exited) || s.resultPending sid ||
      s.storesPending sid s.nextId) = false ↔ s.stringReady sid z t := by
  simp [State.stringReady, and_assoc]

section
variable {s : State} {sid : Nat} {z : Str} {t : Troop} (hz : s.str? sid = some z) (ht : s.troop? z.tid = some t)
include hz ht

theorem exec_stringRetire_notReady (h : ¬ s.stringReady sid z t) : exec (.stringRetire sid) s = .next s := by
  have hg := mt stringReady_iff.1 h
  rw [Bool.not_eq_false] at hg
  change execStringRetire sid s = _
  simp only [execStringRetire, hz, State.troopOf, ht, hg, if_true]

theorem exec_stringRetire_blocked (h : s.stringReady sid z t) (hr : s.rangeInWay z t) :
    exec (.stringRetire sid) s = .next (s.secondError z) := by
  change execStringRetire sid s = _
  simp only [execStringRetire, hz, State.troopOf, ht, stringReady_iff.2 h, Bool.false_eq_true, if_false, State.retireBuffer_blocked hr]

theorem exec_stringRetire_free (h : s.stringReady sid z t) (hr : ¬ s.rangeInWay z t) : exec (.stringRetire sid) s =
    .next (((((s.bufferRetired z t).updStr sid fun z => { z with retired := true, held := [] }).failRetiredJoint t
      (z.idx / 4)).checkRetired t).advance t.tid) := by
  change execStringRetire sid s = _
  simp only [execStringRetire, hz, State.troopOf, ht, stringReady_iff.2 h, Bool.false_eq_true, if_false, State.retireBuffer_free hr]

end

/-! ### Troops (R39) -/

/-- The troop has nothing left to run and no request on its way, on a core that runs. -/
def State.troopReady (s : State) (tid : Nat) (t : Troop) : Prop :=
  s.haltedCore t.core = false ∧ t.st = .running ∧ (∀ z ∈ s.strsOf tid, z.retired = true) ∧ t.rcPending = [] ∧
    (∀ e ∈ s.rail, e.tid ≠ tid) ∧ (∀ h ∈ s.heldReqs, h.ent.tid ≠ tid) ∧ ∀ e ∈ s.engs, ∀ z ∈ s.strsOf tid, z.sid ≠ e.sid

/-- What keeps a troop from retiring. -/
theorem troopReady_iff {s : State} {tid : Nat} {t : Troop} :
    (s.haltedCore t.core || t.st != .running || !(s.strsOf tid).all (·.retired) || !t.rcPending.isEmpty || s.troopRailed tid ||
      s.engs.any fun e => (s.strsOf tid).any (·.sid == e.sid)) = false ↔ s.troopReady tid t := by
  simp [State.troopReady, State.troopRailed, and_assoc]

/-- The operation of a troop's final commit. -/
def State.finalLift (s : State) (tid : Nat) : SysOp :=
  { id := s.nextId, sid := ((s.strsOf tid).map (·.sid)).headD 0, tid := tid, kind := .lift, lvl := .trp, pc := 0, next := 0
    mask := 0, depth := 0, trap := false, phase := .waiting, arg := 0, arg2 := 1, cores := [], fault := none }

section
variable {s : State} {tid : Nat} {t : Troop} (ht : s.troop? tid = some t)
include ht

theorem exec_troopRetire_notReady (h : ¬ s.troopReady tid t) : exec (.troopRetire tid) s = .next s := by
  have hg := mt troopReady_iff.1 h
  rw [Bool.not_eq_false] at hg
  change execTroopRetire tid s = _
  simp only [execTroopRetire, ht, hg, if_true]

theorem exec_troopRetire_ready (h : s.troopReady tid t) : exec (.troopRetire tid) s = .next (s.retireTroop t) := by
  change execTroopRetire tid s = _
  simp only [execTroopRetire, ht, troopReady_iff.2 h, Bool.false_eq_true, if_false]

theorem State.retireTroop_single (hm : t.tandem = none) (ho : t.outr = none) : s.retireTroop t =
    ({ s with ops := s.ops ++ [s.finalLift tid], nextId := s.nextId + 1 }.updTroop tid fun t => { t with st := .lifting true }) := by
  have hs : s.fresh.2.troop? tid = some t := ht
  have htid := State.troop_tid ht
  simp only [State.retireTroop, State.leaveTandem, hm, htid, ht, ho, State.startLift, hs]
  rfl

theorem State.retireTroop_copy (hm : t.tandem = none) {o : Outr} (ho : t.outr = some o) (hd : o.decided = none) :
    s.retireTroop t = s.parkEscape tid 0 (s.escLines t true) := by
  have htid := State.troop_tid ht
  simp only [State.retireTroop, State.leaveTandem, hm, htid, ht, ho, hd]

end

/-- Settles O52, by what keeps a string or a troop from retiring and what each does when nothing does. -/
theorem stringsAndTroopsRetire : Obligations.StringsAndTroopsRetire := by
  refine ⟨fun s sid z t hz ht => ⟨fun h hf => ?_, fun h hr => exec_stringRetire_blocked hz ht h hr,
      fun h => exec_stringRetire_notReady hz ht h⟩,
    fun s tid t ht => ⟨fun h hm ho => ?_, fun h hm o ho hd => ?_, fun h => exec_troopRetire_notReady ht h⟩⟩
  · exact exec_stringRetire_free hz ht h fun ⟨c, hc, hr⟩ => hr (hf c hc)
  · exact (exec_troopRetire_ready ht h).trans (congrArg _ (State.retireTroop_single ht hm ho))
  · exact (exec_troopRetire_ready ht h).trans (congrArg _ (State.retireTroop_copy ht hm ho hd))

end Sys2Proof.Machine
end

section
/-! PROOFS. A load whose access is gone when its line has been read (O22). Reading a line of host memory whose authority stands in the die's
L2 lands the die's older writes into host memory; one that its home refuses, and that was issued in trap mode, is a second error and ends
the troop of the load. The access leaves with its troop, and the results go to the next access that has its id: `performLoad` reads the
bytes for the string of that access, the statement for the string of the one that is gone. -/

namespace Sys2Proof.Machine

open Sys2Proof.Claims

namespace LostLoad

/-! ### The load that issues -/

/-- String 2 of troop 1. Its record b8 gives 16 elements of 4 bytes from 0x2000 on. -/
def str : Str :=
  { sid := 2, tid := 1, idx := 0, core := 0, slice := 0, slot := 0, budget := 256, lanes := [{}]
    b := [(8, 0x2000 + 4 <<< 64 + 16 <<< 96 + 2 <<< 128)] }

def troop : Troop :=
  { tid := 1, launch := 3, pad := 0, secure := false, super := false, linear := 0, core := 0, slot := 0, nstr := 1, prod := 0
    joint := 0, prio := 0, lease := 0, finLvl := .dev, scratchSize := 0, bufQ := 64, stq := 0, bagRows := 0 }

/-- Lane 0 takes part. -/
def cur : Cur := { sid := 2, bundle := 1, parts := 1, pc := 0x1000, next := 0x1008, trap := false, super := false }

/-- LD of a word into v4, from the element of b8 that v6 names. -/
def ops : Operands := { plain .ext 0 4 6 .b32 with b := 8 }

def atIssue : State := { cur := some cur, strs := [str], troops := [troop], nextId := 9 }

theorem issues : Issues atIssue (.ld ops) cur str troop := ⟨rfl, rfl, rfl, by decide⟩

theorem recAddrs_ops : recAddrs str ops (ops.ty.width / 8) cur.lanes = .ok [(0, .at 0x2000)] := by decide +kernel

/-- The access that the LD puts in flight. -/
def issued : Access :=
  { accessOf cur troop .ld 0 ops.ty ops.level ops.d.toNat (elemsOf (ops.ty.width / 8) (fun _ => 0) (fun _ => 0) [(0, .at 0x2000)]) with
    id := 9 }

/-! ### The state in which its line is read -/

/-- The line of the load, translated to line 2^49, of host memory, with policy 4. -/
def request : LineReq := { va := 0x2000, st := .ready (2 ^ 49) 4 0 }

def pending : Access := { issued with lines := [request] }

/-- An access of string 5 under the same id. -/
def namesake : Access := { pending with sid := 5 }

/-- Byte 0 of the line, as string 5 has stored it. -/
def stored : BufLine :=
  { space := .str 5, line := 2 ^ 49, va := 0x2000, mask := 1, data := 1, epoch := 0, covered := 0, asks := [], written := 1, removed := 0
    owner := .str 5, comm := [], pol := 4, part := 0, held := false }

/-- A write of one byte of the next line, which string 2 has sent in trap mode. -/
def refused : HomeWrite :=
  { wid := 0, core := 0, rnd := 0, sid := 2, line := 2 ^ 49 + 1, mask := 1, data := 0, lvl := .dev, atL2 := true, lanes := [], op := 0
    pc := 0, depth := 0, pol := 4, part := 0, pad := 0, trap := true }

/-- The L2 of die 0 holds the authority of the line, and the home of the write is poisoned. -/
def atRead : State :=
  { strs := [str], troops := [troop], accs := [pending, namesake], lines := [stored], writes := [refused], poison := [2 ^ 49 + 1]
    l2 := [{ place := 0, line := 2 ^ 49, data := 0, auth := true, dirty := 0 }] }

/-- What reading the line leaves, and its bytes. -/
def lineRead : State × Option (BitVec 512) :=
  atRead.neededLine 2 troop ((pending.on request).map fun e => (some e.lane, e.mask)) request.va (2 ^ 49) 4 0 pending.fresh

theorem lineRead_isSome : lineRead.2.isSome = true := by decide +kernel

/-- The values of the parts of the accesses in flight. -/
def values (s : State) : List (List (Option Nat)) := s.accs.map fun a => a.elems.map (·.val)

def valuesAfter : Out → List (List (Option Nat))
  | .next s => values s
  | _ => []

/-- The model gives the access the byte of string 5. -/
theorem values_of_exec : valuesAfter (exec (.pageWalkComplete 9 0) atRead) = [[some 1]] := by decide +kernel

/-- What the part of the load is to take: the bytes that lane 0 of string 2 sees. -/
def seen (d : BitVec 512) (e : Elem) : Elem :=
  if request.holds e then { e with val := some (lineVal (lineRead.1.assemble 2 troop (some e.lane) (2 ^ 49) e.mask d) (e.va % 64) e.w) }
  else e

/-- The statement gives it the byte of string 2. -/
theorem values_of_statement : values ((lineRead.1.updAcc 9 fun b => { b with elems := b.elems.map (seen (lineRead.2.getD 0)) }).setLine 9 0
    .done) = [[some 0]] := by decide +kernel

/-- The events of the load do not do what `LineReads` says. -/
theorem not_lineReads : ¬ LineReads issued := by
  intro h
  obtain ⟨d, hd⟩ := Option.isSome_iff_exists.1 lineRead_isSome
  have hread : lineRead = (lineRead.1, some d) := Prod.mk.eta.symm.trans (congrArg (Prod.mk lineRead.1) hd)
  have hstep := h atRead pending 0 str troop request (2 ^ 49) 4 0 lineRead.1 d rfl ⟨rfl, rfl⟩ rfl rfl rfl rfl rfl (by decide +kernel)
    (by decide +kernel) hread
  have hvals := values_of_statement
  rw [hd, Option.getD_some] at hvals
  have hsame := (values_of_exec.symm.trans (congrArg valuesAfter hstep)).trans hvals
  exact absurd hsame (by decide)

end LostLoad

/-- Refutes O22: the rest of a load, `LineReads`, fails for an access whose troop ends as its line is read. -/
theorem not_accessesStart : ¬ Obligations.AccessesStart := by
  rintro ⟨hld, -⟩
  obtain ⟨hjoins, -⟩ := hld LostLoad.ops
  obtain ⟨-, hreads, -⟩ := hjoins _ _ _ _ _ LostLoad.issues rfl LostLoad.recAddrs_ops (by decide) trivial
  exact LostLoad.not_lineReads hreads

end Sys2Proof.Machine
end

section
/-! PROOFS. The decoder reads back what the encoder writes (O58), and the words of the manual's examples (O56). First the fields of
the forms that are not BA, then form BA, then the decoder over words and bytes. -/

namespace Sys2Proof

/-! ### The forms of instruction (R44 to R47) -/

theorem Op.encodeWords_instr (op : Op) (o : Operands) : encodeWords (op.instr o) = encodeBa op o := by cases op <;> rfl

theorem Op.wf_instr (op : Op) (o : Operands) : (op.instr o).wf = op.wf o := by cases op <;> rfl

theorem Instr.eq_instr_of_ba {i : Instr} {op : Op} {o : Operands} (h : i.ba = some (op, o)) : i = op.instr o := by
  cases i <;> cases h <;> rfl

/-- The instructions that have words, by form: those with a word 0 of their own, and form BA. -/
inductive Instr.Coded : Instr → Prop
  | bra (o : BranchOps) : Coded (.bra o)
  | braLong (o : BranchLongOps) : Coded (.braLong o)
  | pblk (o : BlockOps) : Coded (.pblk o)
  | trap (o : ImmOps) : Coded (.trap o)
  | bkpt (o : ImmOps) : Coded (.bkpt o)
  | scall (o : ImmOps) : Coded (.scall o)
  | movi (o : ImmOps) : Coded (.movi o)
  | ba (op : Op) (o : Operands) : Coded (op.instr o)

theorem Instr.coded {i : Instr} (h : encodeWords i ≠ []) : i.Coded := by
  unfold encodeWords at h
  split at h
  · exact .bra _
  · exact .braLong _
  · exact .pblk _
  · exact .trap _
  · exact .bkpt _
  · exact .scall _
  · exact .movi _
  · split at h
    next op o hb => exact Instr.eq_instr_of_ba hb ▸ .ba op o
    · exact absurd rfl h

/-! ### The other forms (R45 to R47) -/

theorem Len.ofCode_code (l : Len) : Len.ofCode (BitVec.ofNat 2 l.code).toNat = l := by cases l <;> rfl

theorem fields_imm (opc : BitVec 7) (o : ImmOps) :
    let w := encodeImm opc o
    w.extractLsb' 0 2 = 0 ∧ opcOf w = opc.toNat ∧ settleOf w = o.settle ∧ w.extractLsb' 10 8 = o.d ∧
      w.extractLsb' 18 14 = o.imm := by
  simp only [opcOf, settleOf, encodeImm, BitVec.getLsbD_append, BitVec.extractLsb'_append_eq_ite]
  simp

theorem lenOf_imm (opc : BitVec 7) (o : ImmOps) : lenOf (encodeImm opc o) = .one := by
  rw [lenOf, (fields_imm opc o).1]
  rfl

theorem decodeImm_imm (opc : BitVec 7) (o : ImmOps) (mk : ImmOps → Instr) : decodeImm (encodeImm opc o) mk = .ok (mk o) := by
  obtain ⟨-, -, hs, hd, hi⟩ := fields_imm opc o
  simp only [decodeImm, lenOf_imm, hs, hd, hi]

section
variable (off : BitVec 15) (cond pinv : Bool) (psel : BitVec 3) (hint : Hint) (settle : Bool) (len : Len)

theorem fields_branch :
    let w := encodeBranch off cond pinv psel hint settle len
    w.extractLsb' 0 2 = BitVec.ofNat 2 len.code ∧ opcOf w = 0x01 ∧ settleOf w = settle ∧ w.getLsbD 16 = cond ∧
      w.getLsbD 15 = pinv ∧ w.extractLsb' 12 3 = psel ∧ w.extractLsb' 10 2 = BitVec.ofNat 2 hint.code ∧
      w.extractLsb' 17 15 = off := by
  simp only [opcOf, settleOf, encodeBranch, BitVec.getLsbD_append, BitVec.extractLsb'_append_eq_ite]
  simp

theorem lenOf_branch : lenOf (encodeBranch off cond pinv psel hint settle len) = len := by
  rw [lenOf, (fields_branch ..).1, Len.ofCode_code]

end

theorem decodeBranch_short (o : BranchOps) :
    decodeBranch (encodeBranch o.off o.cond o.pinv o.psel o.hint o.settle .one) [] = .ok (.bra o) := by
  obtain ⟨-, -, hs, hc, hv, hp, hh, ho⟩ := fields_branch o.off o.cond o.pinv o.psel o.hint o.settle .one
  simp only [decodeBranch, lenOf_branch, hs, hc, hv, hp, hh, ho, Hint.ofCode_code]

theorem decodeBranch_long (o : BranchLongOps) :
    decodeBranch (encodeBranch 0 o.cond o.pinv o.psel o.hint o.settle .lit) [o.off.extractLsb' 0 32, o.off.extractLsb' 32 32] =
      .ok (.braLong o) := by
  obtain ⟨-, -, hs, hc, hv, hp, hh, ho⟩ := fields_branch 0 o.cond o.pinv o.psel o.hint o.settle .lit
  simp only [decodeBranch, lenOf_branch, hs, hc, hv, hp, hh, ho, Hint.ofCode_code, litOf_extract]
  exact if_pos rfl

theorem fields_block {o : BlockOps} {w : Word} (h : encodeWords (.pblk o) = [w]) :
    lenOf w = .one ∧ opcOf w = 0x05 ∧ settleOf w = o.settle ∧ w.extractLsb' 24 8 = 0#8 ∧ w.extractLsb' 16 8 = o.pattern ∧
      w.extractLsb' 13 3 = o.psel ∧ w.extractLsb' 10 3 = o.cnt := by
  cases h
  simp only [lenOf, opcOf, settleOf, BitVec.getLsbD_append, BitVec.extractLsb'_append_eq_ite]
  simp [Len.ofCode]

theorem decodeBlock_block {o : BlockOps} {w : Word} (h : encodeWords (.pblk o) = [w]) : decodeBlock w = .ok (.pblk o) := by
  obtain ⟨hl, -, hs, hz, hp, hq, hc⟩ := fields_block h
  simp only [decodeBlock, hl, hs, hz, hp, hq, hc, if_true]

/-! ### Form BA (R44, R48 to R50) -/

/-- What a well-formed instruction of form BA has in the fields that its words leave out. -/
theorem Op.wf_fields {op : Op} {o : Operands} (h : op.wf o = true) :
    o.fn.toNat ∈ op.row.fns ∧ o.len ∈ op.row.lens ∧ o.implied op.row.dflt = true ∧ (o.len.hasLit = false → o.lit = 0) := by
  simp only [Op.wf, Bool.and_eq_true, List.contains_iff_mem] at h
  have hlit : (op.shape o).litOk o = true := by tauto
  refine ⟨by tauto, by tauto, by tauto, fun hl => ?_⟩
  simpa [Shape.litOk, hl] using hlit

theorem Op.opc_ba (op : Op) : op.row.opc < 128 ∧ op.row.opc ∉ [0x01, 0x05, 0x08, 0x0D, 0x0E, 0x21] := by
  have h := List.all_eq_true.1 rows_ba op op.mem_all
  simp only [Bool.and_eq_true, decide_eq_true_eq, Bool.not_eq_true', List.contains_eq_mem, decide_eq_false_iff_not] at h
  exact ⟨h.1.1, h.2⟩

theorem Op.opcOf_encodeWord0 (op : Op) (o : Operands) : opcOf (encodeWord0 (BitVec.ofNat 7 op.row.opc) o) = op.row.opc := by
  rw [opcOf_word0, BitVec.toNat_ofNat, Nat.mod_eq_of_lt op.opc_ba.1]

section
variable (opc : BitVec 7) {o : Operands} {len : Len} {lit : Dword} (hlen : o.len = len) (hlit : o.lit = lit)
include hlen hlit

theorem shortOperands_word0 {dflt : Ty} (hx : len.hasExt = false) (h : o.implied dflt = true) :
    shortOperands (encodeWord0 opc o) len dflt lit = o := by
  subst hlen hlit
  simp only [Operands.implied, hx, Bool.false_or, Bool.and_eq_true, beq_iff_eq, Bool.not_eq_true'] at h
  simp only [shortOperands, settleOf_word0, fnOf_word0, d_word0, a_word0]
  cases o
  simp_all

theorem extOperands_words : extOperands (encodeWord0 opc o) (encodeWord1 o) o.imm len lit = .ok o := by
  simp only [extOperands, ty_word1, level_word1, Ty.ofCode_code, Level.ofCode_code, settleOf_word0, fnOf_word0, d_word0, a_word0,
    b_word1, c_word1, rm_word1, Rm.ofCode_code, sat_word1, nega_word1, negb_word1, negc_word1, absa_word1, spec_word1, ← hlen,
    ← hlit]

end

/-- The words after word 0 (R42). -/
def Operands.moreWords (o : Operands) : List Word :=
  (if o.len.hasExt then [encodeWord1 o, o.imm] else []) ++
    if o.len.hasLit then [o.lit.extractLsb' 0 32, o.lit.extractLsb' 32 32] else []

theorem encodeBa_eq (op : Op) (o : Operands) : encodeBa op o = encodeWord0 (BitVec.ofNat 7 op.row.opc) o :: o.moreWords := by
  unfold encodeBa Operands.moreWords
  cases o.len <;> rfl

theorem Operands.length_moreWords (o : Operands) : o.moreWords.length = o.len.words - 1 := by
  unfold Operands.moreWords
  cases o.len <;> rfl

theorem decodeBa_moreWords {op : Op} {o : Operands} (h : op.wf o = true) :
    decodeBa (encodeWord0 (BitVec.ofNat 7 op.row.opc) o) o.moreWords = .ok (op.instr o) := by
  obtain ⟨hf, hl, hi, hz⟩ := Op.wf_fields h
  have hlit := (litOf_extract o.lit).symm
  simp only [decodeBa, op.opcOf_encodeWord0, fnOf_word0, lenOf_word0, pickOp_row op _ _ hf hl, Operands.moreWords]
  cases hlen : o.len with
  | one => exact congrArg (fun o => Except.ok (op.instr o)) (shortOperands_word0 _ hlen (hz (by rw [hlen]; rfl)) rfl hi)
  | lit => exact congrArg (fun o => Except.ok (op.instr o)) (shortOperands_word0 _ hlen hlit rfl hi)
  | ext => exact congrArg (Except.map op.instr) (extOperands_words _ hlen (hz (by rw [hlen]; rfl)))
  | extLit => exact congrArg (Except.map op.instr) (extOperands_words _ hlen hlit)

/-! ### The decoder -/

theorem decodeWords_ba {w0 : Word} (ws : List Word) (h : opcOf w0 ∉ [0x01, 0x05, 0x08, 0x0D, 0x0E, 0x21]) :
    decodeWords w0 ws = decodeBa w0 ws := by
  unfold decodeWords
  split <;> simp_all

theorem decode_words {w0 : Word} {ws : List Word} {i : Instr} (hn : ws.length = (lenOf w0).words - 1)
    (hd : decodeWords w0 ws = .ok i) (rest : List Byte) : decode ((w0 :: ws).flatMap wordBytes ++ rest) = .ok (i, rest) := by
  simp only [decode, List.flatMap_cons, List.append_assoc, takeWord_wordBytes, ← hn, takeWords_flatMap, hd, Except.map]

theorem decode_imm {opc : BitVec 7} {mk : ImmOps → Instr} {o : ImmOps} (he : encodeWords (mk o) = [encodeImm opc o])
    (hk : ∀ w, opcOf w = opc.toNat → decodeWords w [] = decodeImm w mk) (rest : List Byte) :
    decode (encode (mk o) ++ rest) = .ok (mk o, rest) := by
  rw [encode, he]
  exact decode_words (by rw [lenOf_imm]; rfl) ((hk _ (fields_imm opc o).2.1).trans (decodeImm_imm opc o mk)) rest

/-- Settles O58, form by form: the fields of word 0 name the form, its length gives the words that follow, and each field reads
back. -/
theorem decodesEncoded : Obligations.DecodesEncoded := by
  intro i hwf hne rest
  cases Instr.coded hne with
  | bra o =>
    refine decode_words (by rw [lenOf_branch]; rfl) ?_ rest
    simp only [decodeWords, (fields_branch ..).2.1, decodeBranch_short]
  | braLong o =>
    refine decode_words (by rw [lenOf_branch]; rfl) ?_ rest
    simp only [decodeWords, (fields_branch ..).2.1, decodeBranch_long]
  | pblk o =>
    obtain ⟨hl, ho, -⟩ := fields_block (o := o) rfl
    refine decode_words (by rw [hl]; rfl) ?_ rest
    simp only [decodeWords, ho]
    exact decodeBlock_block rfl
  | trap o => exact decode_imm rfl (fun w h => by rw [decodeWords, h]; rfl) rest
  | bkpt o => exact decode_imm rfl (fun w h => by rw [decodeWords, h]; rfl) rest
  | scall o => exact decode_imm rfl (fun w h => by rw [decodeWords, h]; rfl) rest
  | movi o => exact decode_imm rfl (fun w h => by rw [decodeWords, h]; rfl) rest
  | ba op o =>
    rw [Op.wf_instr] at hwf
    have hopc := op.opcOf_encodeWord0 o
    rw [encode, Op.encodeWords_instr, encodeBa_eq]
    refine decode_words (by rw [o.length_moreWords, lenOf_word0]) ?_ rest
    rw [decodeWords_ba _ (by rw [hopc]; exact op.opc_ba.2), decodeBa_moreWords hwf]

/-- Settles O56: the decoder and the check of the literal are run on the words. -/
theorem decodesWords : Obligations.DecodesWords := by
  unfold Obligations.DecodesWords
  decide +kernel

end Sys2Proof
end

section
/-! PROOFS. BRA: its target, what it leaves of the issue record and of the string, and its trap (O12). -/

namespace Sys2Proof.Machine

open Sys2Proof.Claims

/-! ### The target, and what a branch leaves -/

theorem branchTarget_inside {pc : Addr} {off : Int}
    (h : 0 ≤ (pc.toNat : Int) + 4 * off ∧ (pc.toNat : Int) + 4 * off ≤ 2 ^ 56 - 4) :
    branchTarget pc off = some (BitVec.ofInt 56 (pc.toNat + 4 * off)) := by
  have hp : BitVec.ofNat 56 ((pc.toNat : Int) + 4 * off).toNat = BitVec.ofInt 56 (pc.toNat + 4 * off) := by
    rw [← BitVec.ofInt_natCast, Int.toNat_of_nonneg h.1]
  simp only [branchTarget, Bool.and_eq_true, decide_eq_true_eq, if_pos h, hp]

theorem branchTarget_outside {pc : Addr} {off : Int}
    (h : ¬(0 ≤ (pc.toNat : Int) + 4 * off ∧ (pc.toNat : Int) + 4 * off ≤ 2 ^ 56 - 4)) :
    branchTarget pc off = none := by
  simp only [branchTarget, Bool.and_eq_true, decide_eq_true_eq, if_neg h]

/-- The issue record after the lanes of `m` have branched to `p` (R16). -/
def Cur.afterBranch (c : Cur) (m : Mask) (hint : Hint) (p : Addr) : Cur :=
  if m = c.parts then c else match hint with
    | .lk => { c with split := some (some p) }
    | .unl => { c with split := some (some c.next) }
    | _ => c

/-- The string after the lanes of `m`, of `parts` that take part, have branched to `p` (R18, R311). -/
def Str.afterBranch (z : Str) (m parts : Mask) (hint : Hint) (p : Addr) : Str :=
  if m ≠ parts ∧ hint = .unf then (z.mapLanes m (goTo p)).countUnf else z.mapLanes m (goTo p)

theorem Str.afterBranch_eq (z : Str) (m parts : Mask) (hint : Hint) (p : Addr) :
    let z' := z.afterBranch m parts hint p
    z' = { z with lanes := z'.lanes, strctl := z'.strctl } ∧ (z'.strctl = if m ≠ parts ∧ hint = .unf then
      (z.strctl &&& 0xFFFF#32) ||| (BitVec.ofNat 32 (min 0xFFFF (bitsNat z.strctl 31 16 + 1)) <<< 16) else z.strctl) := by
  unfold Str.afterBranch
  split <;> exact ⟨rfl, rfl⟩

theorem Str.afterBranch_lanes (z : Str) (m parts : Mask) (hint : Hint) (p : Addr) :
    Lanes z (z.afterBranch m parts hint p) fun l x => if m.getLsbD l then goTo p x else x := by
  have h := z.lanes_mapLanes m (goTo p)
  unfold Str.afterBranch
  split <;> exact h

section
variable {s : State} {c : Cur} {z : Str} {cond pinv : Bool} {psel : BitVec 3} {hint : Hint} {off : Int}

theorem State.branch_none (h : takes cond pinv psel c z = 0) : s.branch c z cond pinv psel hint off = s := if_pos h

theorem State.branch_outside (h : takes cond pinv psel c z ≠ 0) (ho : branchTarget c.pc off = none) :
    s.branch c z cond pinv psel hint off = s.raise c .noncanonical := by
  unfold takes at h
  simp only [State.branch, if_neg h, ho]

theorem State.branch_inside {p : Addr} (hc : s.cur = some c) (hz : s.str? c.sid = some z) (h : takes cond pinv psel c z ≠ 0)
    (hp : branchTarget c.pc off = some p) :
    let m := takes cond pinv psel c z
    s.branch c z cond pinv psel hint off =
      { s with cur := some (c.afterBranch m hint p) }.updStr c.sid fun _ => z.afterBranch m c.parts hint p := by
  intro m
  have hmove : s.moveLanes c.sid m p = s.updStr c.sid fun _ => z.mapLanes m (goTo p) := State.updStr_const hz _
  have hcur : { s with cur := some c } = s := by rw [← hc]
  have hunf : (s.moveLanes c.sid m p).updStr c.sid Str.countUnf = s.updStr c.sid fun _ => (z.mapLanes m (goTo p)).countUnf :=
    State.updStr_updStr hz (fun z => z.mapLanes m (goTo p)) Str.countUnf rfl
  have hsplit (q : Option Addr) : (s.moveLanes c.sid m p).setSplit q =
      { s with cur := some { c with split := some q } }.updStr c.sid fun _ => z.mapLanes m (goTo p) := by
    rw [hmove, State.setSplit, State.updStr, hc]
    rfl
  have hm : maskOf (c.lanes.filter fun l => !cond || (z.preg psel.toNat l != pinv)) = m := rfl
  have h : m ≠ 0 := h
  simp only [State.branch, hm, if_neg h, hp, Cur.afterBranch, Str.afterBranch]
  clear_value m
  by_cases hall : m = c.parts
  · rw [if_pos (by simp [hall]), if_pos hall, if_neg fun k => k.1 hall, hcur, hmove]
  · have hboth : (m != 0 && m != c.parts) = true := Bool.and_eq_true_iff.2 ⟨bne_iff_ne.2 h, bne_iff_ne.2 hall⟩
    rw [if_neg (by rw [hboth]; decide), if_neg hall]
    cases hint with
    | none => rw [if_neg (by simp), hmove, hcur]
    | lk => rw [if_neg (by simp), hsplit]
    | unl => rw [if_neg (by simp)]; exact hsplit _
    | unf => rw [if_pos ⟨hall, rfl⟩, hunf, hcur]

end

/-- Both forms of BRA do what `State.branch` does. -/
theorem branchResult {i : Instr} {cond pinv : Bool} {psel : BitVec 3} {hint : Hint} {off : Int}
    (hx : ∀ s, exec i s = s.issue i noCheck fun c z _ => s.branch c z cond pinv psel hint off) :
    BranchResult i cond pinv psel hint off := by
  refine ⟨?_, ?_, Traps.of hx fun s c z t _ h => State.branch_outside h.1 (branchTarget_outside h.2)⟩
  · intro s c z t h ho hn
    have hs : s.branch c z cond pinv psel hint off = s := State.branch_none hn
    rw [hx, State.issue_done (t' := t) h noCheck _ rfl (by rw [hs]; exact issues_tid h) ho, hs]
  · intro s c z t h ho hn hin
    have hb := State.branch_inside (hint := hint) h.cur h.str hn (branchTarget_inside hin)
    obtain ⟨hrest, hctl⟩ := z.afterBranch_eq (takes cond pinv psel c z) c.parts hint (BitVec.ofInt 56 (c.pc.toNat + 4 * off))
    refine ⟨_, ?_, hrest, hctl, z.afterBranch_lanes ..⟩
    exact ((hx s).trans (State.issue_done h noCheck _ rfl (by rw [hb]; exact issues_tid (s := s) h) ho)).trans
      (congrArg Host.Outcome.next hb)

/-- Settles O12: both forms by what a branch leaves of its issue record and of its string. -/
theorem branches : Obligations.Branches :=
  ⟨fun _ => branchResult fun _ => rfl, fun _ => branchResult fun _ => rfl⟩

end Sys2Proof.Machine
end

section
/-! PROOFS. Precise traps: those of TRAP, BKPT and SCALL, and ILLEGAL_INSTRUCTION (O16). -/

namespace Sys2Proof.Machine

open Sys2Proof.Claims

theorem exec_instr_eq_issue (op : Op) (o : Operands) (s : State) :
    ∃ chk body, exec (op.instr o) s = s.issue (op.instr o) chk body := by
  cases op <;> exact ⟨_, _, rfl⟩

/-- The meaning of every instruction that has words is one issue. -/
theorem exec_eq_issue {i : Instr} (h : encodeWords i ≠ []) (s : State) : ∃ chk body, exec i s = s.issue i chk body := by
  cases Instr.coded h
  case ba op o => exact exec_instr_eq_issue op o s
  all_goals exact ⟨_, _, rfl⟩

theorem traps_of_raise {i : Instr} {cause : Cause} (hx : ∀ s, exec i s = s.issue i noCheck fun c _ _ => s.raise c cause) :
    Traps i (fun _ _ _ _ => True) cause :=
  Traps.of hx fun _ _ _ _ _ _ => rfl

theorem exec_illegalInstruction {s : State} {c : Cur} (hc : s.cur = some c) :
    exec .illegalInstruction s = .next (s.raise c .illegalInstruction) := by
  change execIllegalInstruction s = _
  rw [execIllegalInstruction, hc]

/-- Settles O16: the deliberate traps raise their cause, an illegal instruction fails the checks of its issue, and words that decode to
nothing raise theirs at once. -/
theorem preciseTraps : Obligations.PreciseTraps := by
  refine ⟨fun _ => traps_of_raise fun _ => rfl, fun _ => traps_of_raise fun _ => rfl, fun _ => traps_of_raise fun _ => rfl, ?_, ?_⟩
  · intro i s c z t hw h hd
    obtain ⟨chk, body, hx⟩ := exec_eq_issue hw s
    exact raise_illegal hx h.cur h.str h.troop hd (by rw [h.illegal, Bool.false_and])
  · intro s c z t hc hz ht hd
    obtain ⟨z', hr, he⟩ := State.raise_delivers hz ht hd
    exact ⟨z', by rw [exec_illegalInstruction hc, hr], he⟩

end Sys2Proof.Machine
end

section
/-! PROOFS. A step whose move is a turn runs what the bytes at the PC decode to (O57): first each layer of a turn on the path to `exec`,
then the record and the string with which an issue begins. -/

namespace Sys2Proof.Machine

/-! ### A turn that issues (R16, R36, R43, R299) -/

theorem State.endIssue_go {s u : State} {z : Str} {g : Group} {c : Cur} (hc : u.cur = some c) (hv : c.verdict = .go) :
    s.endIssue z g (.next u) = .ran (.next ({ u with cur := none }.updStr z.sid fun x =>
      u.markSettle (x.endPref c (z.pref == some g.pc)) g.lanes)) := by
  simp only [State.endIssue, hc, hv]

theorem State.issueInstr_free {s s2 : State} {z : Str} {t : Troop} {g : Group} {next : Addr} {i : Instr}
    (hsb : s.scoreboardHolds z i = false) (hq : i.canFaultLate = false ∨ z.lateq.length < 16) (hb : s.bagHolds z t = (s2, false)) :
    s.issueInstr z t g next i = s2.endIssue z g (exec i (s2.beginIssue z t g next i.settles)) := by
  have hlate : (i.canFaultLate && decide (16 ≤ z.lateq.length)) = false := by
    rcases hq with h | h
    · simp [h]
    · simp [Nat.not_le.2 h]
  simp only [State.issueInstr, hsb, hlate, hb, Bool.or_self, Bool.false_eq_true, if_false]

section
variable {s s1 : State} {z : Str} {t : Troop} {g : Group} {bs : List Byte} {va : Nat} (hff : z.fetchFault g = none)
  (hf : s.fetchInstr t.core t.pad t.secure (State.isSuper t g.trap) g.pc.toNat = (s1, .ok bs, va))
include hff hf

theorem State.issueTurn_decoded {i : Instr} {tail : List Byte} (hd : decode bs = .ok (i, tail)) :
    s.issueTurn z t g = s1.issueInstr z t g (g.pc + BitVec.ofNat 56 (4 * wordsOf bs)) i := by
  simp only [State.issueTurn, hff, State.issueTurn.go, hf, hd]

theorem State.issueTurn_undecoded {e : DecodeError} (hd : decode bs = .error e) :
    s.issueTurn z t g = s1.endIssue z g
      (exec .illegalInstruction (s1.beginIssue z t g (g.pc + BitVec.ofNat 56 (4 * wordsOf bs)) false)) := by
  simp only [State.issueTurn, hff, State.issueTurn.go, hf, hd]

end

/-- With no late fault to deliver, the chosen group's instruction is tried (R390). -/
theorem State.attempt_chosen {s : State} {z : Str} {t : Troop} {g : Group} (hg : z.dropPref.choose = some g)
    (hl : z.dropPref.lateq = [] ∨ ∃ l ∈ z.dropPref.lanes, l.trap = true) (ht : t.failing = none) :
    s.attempt z t = s.issueTurn z.dropPref t g := by
  have hlate : (!z.dropPref.lateq.isEmpty && !z.dropPref.lanes.any (·.trap)) = false := by
    rcases hl with h | h
    · simp [h]
    · simp [List.any_eq_true.2 h]
  simp only [State.attempt, ht, hg, hlate, Option.isSome_none, Bool.false_eq_true, if_false]

/-- A slice gives its turn to the first string that waits, when that one issues (R299). -/
theorem State.turn_ran {s : State} {core slice sid : Nat} {w : List Nat} {z : Str} {t : Troop} {o : Out}
    (hh : s.haltedCore core = false) (hn : (s.strs.filter fun x => x.core == core && x.slice == slice && x.issued).length < 2)
    (hw : s.waiting core slice = sid :: w) (hz : s.str? sid = some z) (ht : s.troop? z.tid = some t) (ha : s.attempt z t = .ran o) :
    s.turn core slice = o := by
  simp only [State.turn, hh, hw, State.turnOf, hz, ht, ha, decide_eq_false (Nat.not_le.2 hn), Bool.or_self, Bool.false_eq_true,
    if_false]

theorem step_turn {s u : State} {core slice : Nat} {rest : List Move} (hs : s.script = .turn core slice :: rest)
    (h : { s with script := rest }.turn core slice = .next u) : step s = .next u.afterMove := by
  simp only [step, State.advance1, hs, State.perform, h]

/-! ### The start of an issue (R15, R43, R315) -/

theorem getLsbD_maskOf (ls : List Nat) {l : Nat} (hl : l < 32) : (maskOf ls).getLsbD l = decide (l ∈ ls) := by
  suffices H : ∀ m : Mask, (ls.foldl (fun m l => m ||| (1#32 <<< l)) m).getLsbD l = (m.getLsbD l || decide (l ∈ ls)) by
    simpa [maskOf] using H 0
  induction ls with
  | nil => simp
  | cons x xs ih =>
    intro m
    have hbit : (1#32 <<< x).getLsbD l = decide (l = x) := by
      rw [← BitVec.twoPow_eq, BitVec.getLsbD_twoPow]
      simpa [eq_comm] using fun h : l = x => h ▸ hl
    rw [List.foldl_cons, ih, BitVec.getLsbD_or, hbit]
    simp [Bool.or_assoc]

theorem Str.getLsbD_lanesWhere (z : Str) (p : Lane → Bool) {l : Nat} (hl : l < 32) :
    (z.lanesWhere p).getLsbD l = p (z.lane l) := by
  rw [Str.lanesWhere, getLsbD_maskOf _ hl]
  simp [hl]

theorem map_pc_mapLanesFrom (m : Mask) {f : Lane → Lane} (hf : ∀ x, (f x).pc = x.pc) (k : Nat) (xs : List Lane) :
    (mapLanesFrom m f k xs).map (·.pc) = xs.map (·.pc) := by
  induction xs generalizing k with
  | nil => rfl
  | cons x xs ih => cases hm : m.getLsbD k <;> simp [mapLanesFrom, hm, hf, ih]

/-- The start of an issue changes the choice state of lanes and leaves them where they are. -/
theorem Str.startIssue_pcs (z : Str) (g : Group) : (z.startIssue g).lanes.map (·.pc) = z.lanes.map (·.pc) := by
  simp only [Str.startIssue, Str.mapLanes, apply_ite Str.lanes, apply_ite (List.map Lane.pc), map_pc_mapLanesFrom, List.map_map,
    Function.comp_def, apply_ite Lane.pc, ite_self, implies_true]

theorem Str.startIssue_length (z : Str) (g : Group) : (z.startIssue g).lanes.length = z.lanes.length := by
  simpa using congrArg List.length (z.startIssue_pcs g)

theorem Str.lane_pc (z : Str) (l : Nat) : (z.lane l).pc = (z.lanes.map (·.pc)).getD l 0 :=
  (List.getD_map _ _ Lane.pc).symm

theorem Str.startIssue_pc (z : Str) (g : Group) (l : Nat) : ((z.startIssue g).lane l).pc = (z.lane l).pc := by
  rw [Str.lane_pc, z.startIssue_pcs, ← Str.lane_pc]

theorem Str.startIssue_sid (z : Str) (g : Group) : (z.startIssue g).sid = z.sid := by
  simp only [Str.startIssue, Str.mapLanes, apply_ite Str.sid, ite_self]

/-- Settles O57: the path of a turn from the script to `exec`, and the record with which an issue begins. -/
theorem stepRunsDecoded : Obligations.StepRunsDecoded := by
  refine ⟨?_, ?_⟩
  · intro s core slice rest sid w z t g s1 bs va hs s0 hh hn hw hz ht y hg hl hff hfail hf next
    have hatt : s0.attempt z t = s0.issueTurn y t g := State.attempt_chosen hg hl hfail
    refine ⟨fun i tail s2 u c hd hsb hq hb hx hc hv => step_turn hs (State.turn_ran hh hn hw hz ht ?_),
      fun e u c hd hx hc hv => step_turn hs (State.turn_ran hh hn hw hz ht ?_)⟩
    · rw [hatt, State.issueTurn_decoded hff hf hd, State.issueInstr_free hsb hq hb, hx, State.endIssue_go hc hv]
    · rw [hatt, State.issueTurn_undecoded hff hf hd, hx, State.endIssue_go hc hv]
  · intro s z t g next b hz hlen
    refine ⟨_, _, rfl, State.str?_updStr hz _ (z.startIssue_sid g), rfl, rfl, rfl, rfl, rfl, rfl, fun l hl => ?_,
      fun l hl => ?_⟩
    · have hparts : (if g.trap then g.lanes else g.lanes &&& z.lanesWhere Lane.takesPart).getLsbD l =
          (g.lanes.getLsbD l && (g.trap || (z.lane l).takesPart)) := by
        cases g.trap <;> simp [z.getLsbD_lanesWhere _ hl]
      exact hparts
    · rw [Str.lane_mapLanes _ _ _ _ (by rw [z.startIssue_length, hlen]; exact hl)]
      cases g.lanes.getLsbD l
      · exact z.startIssue_pc g l
      · rfl

end Sys2Proof.Machine
end

section
/-! PROOFS. The floating-point instructions of a lane: their results with their flags, and the trap of an enabled flag (O7 to O11). Each ends
in `State.fpEnd`, whose write is one of an operand, of registers in a row, or of a block and its scale byte. -/

namespace Sys2Proof.Machine

open Sys2Proof.Claims

/-! ### Writes that change vector registers alone -/

/-- With room for `k` records the operation `wr` writes `after` for the participants of `c`, and of the machine nothing else changes but the
saddlebag of an open block. -/
def WritesV (c : Cur) (t : Troop) (k : Nat) (wr : State → State) (after : Nat → Nat → Option Word) : Prop :=
  ∀ s z, s.str? c.sid = some z → s.troop? z.tid = some t → Room z t k →
    ∃ z', wr s = (s.updStr c.sid fun _ => z') ∧ z' = { z with v := z'.v, bag := z'.bag } ∧ (t.depth = 0 → z'.bag = z.bag) ∧
      ∀ n l, l < 32 → z'.vreg n l = if c.parts.getLsbD l then (after n l).getD (z.vreg n l) else z.vreg n l

theorem writesV_writeVal (c : Cur) (z : Str) (t : Troop) (td : Ty) (d : Nat) (f : Nat → Nat) :
    WritesV c t 2 (fun s => s.writeVal c.sid (s.depthOf z) td d (c.lanes.map fun l => (l, f l)))
      fun n l => oneDest td d (f l) n :=
  fun _ _ hz ht hr => State.writeVal_room hz ht hr

theorem writesV_writeRange (c : Cur) (z : Str) (t : Troop) (d k : Nat) (f : Nat → List Nat) (hf : ∀ l ∈ c.lanes, (f l).length = k) :
    WritesV c t k (fun s => s.writeRange c z d (c.lanes.map fun l => (l, f l)) k) fun n l => rangeDest d (f l) n := by
  intro s y hy ht hr
  obtain ⟨z', e, kept, bag, -, v⟩ := State.writeRange_room (zr := z) (d := d) (f := f) 0 s y hy ht hr hf
  exact ⟨z', e, kept, bag, v⟩

/-- A block of registers in a row, then one register more, which may be among them. -/
theorem writesV_range_then_one (c : Cur) (z : Str) (t : Troop) (d k g : Nat) (f : Nat → List Nat) (b : Nat → Word)
    (hf : ∀ l ∈ c.lanes, (f l).length = k) :
    WritesV c t (k + 1) (fun s => (s.writeRange c z d (c.lanes.map fun l => (l, f l)) k).writeV c.sid (s.depthOf z) g
        (c.lanes.map fun l => (l, b l)))
      fun n l => if n = g then some (b l) else rangeDest d (f l) n := by
  intro s y hy ht hr
  obtain ⟨y1, e1, kept1, bag1, room1, v1⟩ := State.writeRange_room (zr := z) (d := d) (f := f) 1 s y hy ht hr hf
  have hy1 : (s.updStr c.sid fun _ => y1).str? c.sid = some y1 := State.str?_updStr hy (fun _ => y1) (by rw [kept1])
  have ht1 : (s.updStr c.sid fun _ => y1).troop? y1.tid = some t := by rw [kept1]; exact ht
  obtain ⟨y2, e2, kept2, bag2, -, v2⟩ := State.writeV_room (d := s.depthOf z) (n := g) (m := c.parts) (f := b) hy1 ht1 room1
  refine ⟨y2, ?_, by rw [kept2, kept1], fun h => (bag2 h).trans (bag1 h), fun n l hl => ?_⟩
  · simp only [Cur.lanes]
    rw [e1, e2, State.updStr_updStr hy (fun _ => y1) _ (by rw [kept1])]
  · rw [v2 n l hl, v1 n l hl]
    by_cases hn : n = g <;> by_cases hm : c.parts.getLsbD l = true <;> simp [hn, hm]

theorem WritesV.mono {c : Cur} {t : Troop} {j k : Nat} {wr : State → State} {after : Nat → Nat → Option Word}
    (h : WritesV c t j wr after) (hjk : j ≤ k) : WritesV c t k wr after :=
  fun s z hz ht hr => h s z hz ht ⟨hr.1, hr.2.imp_right fun hk => by omega⟩

theorem WritesV.congr {c : Cur} {t : Troop} {k : Nat} {wr : State → State} {after after' : Nat → Nat → Option Word}
    (h : WritesV c t k wr after) (e : ∀ n, ∀ l ∈ c.lanes, after n l = after' n l) : WritesV c t k wr after' := by
  intro s z hz ht hr
  obtain ⟨z', hwr, kept, bag, v⟩ := h s z hz ht hr
  refine ⟨z', hwr, kept, bag, fun n l hl => ?_⟩
  rw [v n l hl]
  split
  · rename_i hm
    rw [e n l (mem_lanesOf.2 ⟨hl, hm⟩)]
  · rfl

section
variable {i : Instr} {pre : Cur → Str → Troop → Prop} {flags : Cur → Str → Troop → Flags} {body : State → Cur → Str → Troop → State}

/-- An instruction that ends in `fpEnd` has its results and flags, or traps on an enabled flag (R83, R84). -/
theorem FlagResult.of_fpEnd {k : Nat} {after : Cur → Str → Troop → Nat → Nat → Option Word} (wr : Cur → Str → Troop → State → State)
    (hx : ∀ s, exec i s = s.issue i noCheck (body s))
    (hb : ∀ s c z t, pre c z t → body s c z t = s.fpEnd c z (flags c z t) (wr c z t))
    (hw : ∀ c z t, WritesV c t k (wr c z t) (after c z t)) : FlagResult i k pre flags after := by
  refine ⟨fun s c z t h hr hp hf => ?_, FpTraps.of hx fun s c z t _ hp => ⟨wr c z t, hb s c z t hp⟩⟩
  let y : Str := { z with fpflags := z.fpflags ||| (flags c z t).setWidth 32 }
  have hy : (s.updStr c.sid fun _ => y).str? c.sid = some y := State.str?_updStr h.str (fun _ => y) rfl
  obtain ⟨z', e, kept, bag, v⟩ := hw c z t _ y hy h.troop hr
  have done : body s c z t = s.updStr c.sid fun _ => z' := by
    rw [hb s c z t hp, State.fpEnd, if_pos hf, State.orFlags_eq h.str, e, State.updStr_updStr h.str (fun _ => y) _ rfl]
  exact ⟨z', exec_of_body hx h hr.1 done, ⟨kept, bag⟩, v⟩

/-- As `of_fpEnd`, when the write is one of an operand. -/
theorem FlagResult.of_writeVal {td : Ty} {d : Byte} {val : Cur → Str → Nat → Nat} (hx : ∀ s, exec i s = s.issue i noCheck (body s))
    (hb : ∀ s c z t, pre c z t → body s c z t = s.fpEnd c z (flags c z t) fun s =>
      s.writeVal c.sid (s.depthOf z) td d.toNat (c.lanes.map fun l => (l, val c z l))) :
    FlagResult i 2 pre flags fun c z _ n l => oneDest td d.toNat (val c z l) n :=
  FlagResult.of_fpEnd _ hx hb fun c z t => writesV_writeVal c z t td d.toNat (val c z)

/-- As `of_fpEnd`, when the write is one of `k` registers in a row. -/
theorem FlagResult.of_writeRange {d : Byte} {k : Nat} {vals : Str → Troop → Nat → List Nat}
    (hx : ∀ s, exec i s = s.issue i noCheck (body s)) (hk : ∀ z t l, (vals z t l).length = k)
    (hb : ∀ s c z t, pre c z t → body s c z t = s.fpEnd c z (flags c z t) fun s =>
      s.writeRange c z d.toNat (c.lanes.map fun l => (l, vals z t l)) k) :
    FlagResult i k pre flags fun _ z t n l => rangeDest d.toNat (vals z t l) n :=
  FlagResult.of_fpEnd _ hx hb fun c z t => writesV_writeRange c z t d.toNat k (vals z t) fun l _ => hk z t l

end

/-! ### Arithmetic, element by element (R116 to R122) -/

theorem Fp1.of {i : Instr} {o : Operands} {f : FNum → FNum × Flags}
    (hx : ∀ s, exec i s = s.issue i noCheck fun c z _ => s.fp1 c z o f) : Fp1 i o f :=
  FpResult.of hx

theorem Fp2.of {i : Instr} {o : Operands} {f : FNum → FNum → FNum × Flags}
    (hx : ∀ s, exec i s = s.issue i noCheck fun c z _ => s.fp2 c z o f) : Fp2 i o f :=
  FpResult.of hx

/-- Settles O8: each instruction is a function of one, two or three sources that is rounded once for each element. -/
theorem floatArithmetic : Obligations.FloatArithmetic := by
  unfold Obligations.FloatArithmetic
  exact ⟨fun _ => Fp2.of fun _ => rfl, fun _ => Fp2.of fun _ => rfl, fun _ => Fp2.of fun _ => rfl, fun _ => Fp2.of fun _ => rfl,
    fun _ => FpResult.of fun _ => rfl, fun _ => Fp2.of fun _ => rfl, fun _ => Fp2.of fun _ => rfl, fun _ => FpResult.of fun _ => rfl,
    fun _ => Fp1.of fun _ => rfl, fun _ => Fp1.of fun _ => rfl,
    fun _ => Fp1.of fun _ => rfl, fun _ => Fp1.of fun _ => rfl,
    fun _ => Fp1.of fun _ => rfl, fun _ => Fp1.of fun _ => rfl,
    fun _ => Fp1.of fun _ => rfl, fun _ => Fp1.of fun _ => rfl,
    fun _ => Fp1.of fun _ => rfl, fun _ => Fp1.of fun _ => rfl,
    fun _ => Fp1.of fun _ => rfl, fun _ => Fp1.of fun _ => rfl,
    fun _ => Fp1.of fun _ => rfl, fun _ => Fp1.of fun _ => rfl,
    fun _ => Fp1.of fun _ => rfl, fun _ => Fp1.of fun _ => rfl⟩

/-! ### Classes, fields and complex products (R121, R123, R124) -/

theorem State.ffrxLanes_eq (s : State) (c : Cur) (z : Str) (o : Operands) :
    s.ffrxLanes c z o = s.fpEnd c z (orAll (c.lanes.map fun l => (ffrxVal o.ty (z.fa o o.ty l 0)).2.2)) fun s =>
      s.writeVal c.sid (s.depthOf z) .b64 o.d.toNat (c.lanes.map fun l =>
        (l, (ffrxVal o.ty (z.fa o o.ty l 0)).1 + (ffrxVal o.ty (z.fa o o.ty l 0)).2.1 * 2 ^ 32)) := by
  simp only [State.ffrxLanes, List.map_map, Function.comp_def]

/-- Settles O9: FCLASS writes with no flag, FFRX and CFMA end with flags and the write of a pair. -/
theorem floatFields : Obligations.FloatFields := by
  unfold Obligations.FloatFields
  refine ⟨fun _ => IntResult.of fun _ => rfl, fun _ => IntResult.of fun _ => rfl, fun o => ?_, fun o => ?_, fun o => ?_⟩
  · exact FlagResult.of_writeVal (fun _ => rfl) fun s c z _ _ => s.ffrxLanes_eq c z o
  · exact FlagResult.of_writeVal (fun _ => rfl) fun s c z _ _ => s.ffrxLanes_eq c z o
  · refine FlagResult.of_writeVal (fun _ => rfl) fun s c z _ _ => ?_
    simp only [List.map_map, Function.comp_def]

/-! ### Conversions (R125 to R128) -/

/-- Settles O10: CVT converts element by element, CVTI and PACK write one operand, UNPK registers in a row. -/
theorem conversions : Obligations.Conversions := by
  unfold Obligations.Conversions
  refine ⟨fun o => FpResult.of fun _ => rfl, fun o => ?_, fun o => ?_, fun o => ?_⟩
  · refine FlagResult.of_writeVal (fun _ => rfl) fun s c z _ _ => ?_
    simp only [List.map_map, Function.comp_def]
  · refine FlagResult.of_writeVal (fun _ => rfl) fun s c z _ _ => ?_
    simp only [List.map_map, Function.comp_def]
  · refine FlagResult.of_writeRange (fun _ => rfl) (fun z _ l => by simp) fun s c z _ _ => ?_
    simp only [List.map_map, Function.comp_def]

/-! ### Reductions and scans (R90, R91) -/

theorem f32Scan_lanes (fn : Nat) (ftz : Bool) (val : Nat → FNum) (r : Option FNum) (ls : List Nat) :
    (f32Scan fn ftz val r ls).1.map (·.1) = ls := by
  induction ls generalizing r with
  | nil => cases r <;> rfl
  | cons l ls ih => cases r <;> simp [f32Scan, ih]

/-- A function of the entries of a keyed list, as one of its keys: each key finds its own entry, since no two are equal. -/
theorem map_keyed_eq_find {α β : Type} (d : β) (g : Nat → α → β) (rs : List (Nat × α)) (h : (rs.map (·.1)).Nodup) :
    rs.map (fun r => (r.1, g r.1 r.2)) =
      (rs.map (·.1)).map fun l => (l, ((rs.find? (·.1 == l)).map fun r => g l r.2).getD d) := by
  rw [List.map_map]
  refine List.map_congr_left fun r hr => ?_
  have found : rs.find? (·.1 == r.1) = some r := by
    induction rs with
    | nil => simp at hr
    | cons x xs ih =>
      rw [List.map_cons, List.nodup_cons] at h
      rcases List.mem_cons.1 hr with rfl | hr
      · simp
      · have hne : x.1 ≠ r.1 := fun e => h.1 (e ▸ List.mem_map_of_mem hr)
        simpa [hne] using ih h.2 hr
  simp [found]

/-- The scan's result for lane `l`, as the bits that its write delivers. -/
def scanOf (c : Cur) (z : Str) (o : Operands) (l : Nat) : Nat :=
  (((f32Scan o.fn.toNat z.ftz (z.f32In o) none c.lanes).1.find? (·.1 == l)).map fun r => scanBits z o c.lanes.head? l r.2).getD 0

/-- Settles O7: LRED ends with the flags and the root of the tree, LSCAN with those of the scan, each lane its own result. -/
theorem floatReductions : Obligations.FloatReductions := by
  unfold Obligations.FloatReductions
  refine ⟨fun o ho => ?_, fun o ho => ?_⟩
  · refine FlagResult.of_writeVal (fun _ => rfl) fun s c z _ _ => ?_
    simp only [ho, if_true]
    rfl
  · refine FlagResult.of_fpEnd (fun c z t s => s.writeVal c.sid (s.depthOf z) .f32 o.d.toNat (c.lanes.map fun l => (l, scanOf c z o l)))
      (fun _ => rfl) (fun s c z t _ => ?_) fun c z t => (writesV_writeVal c z t .f32 o.d.toNat (scanOf c z o)).congr fun n l hl => ?_
    · have keys := f32Scan_lanes o.fn.toNat z.ftz (z.f32In o) none c.lanes
      have rows := map_keyed_eq_find 0 (scanBits z o c.lanes.head?) (f32Scan o.fn.toNat z.ftz (z.f32In o) none c.lanes).1
        (by rw [keys]; exact nodup_lanesOf c.parts)
      rw [keys] at rows
      simp only [ho, if_true, rows]
      rfl
    · have hk : l ∈ (f32Scan o.fn.toNat z.ftz (z.f32In o) none c.lanes).1.map (·.1) := by rwa [f32Scan_lanes]
      obtain ⟨r, hr, rfl⟩ := List.mem_map.1 hk
      obtain ⟨x, hx⟩ := Option.isSome_iff_exists.1 (List.find?_isSome (p := (·.1 == r.1)).2 ⟨r, hr, beq_self_eq_true r.1⟩)
      simp [scanOf, hx]

/-! ### Blocks of 32 elements (R129, R130) -/

theorem length_denseRegs (w n : Nat) (qs : List Nat) : (denseRegs w n qs).length = n := by
  simp [denseRegs]

theorem tapRegs_le (t : Ty) : tapRegs t ≤ 8 := by
  unfold tapRegs
  split <;> omega

/-- Settles O11: QNT ends with the write of a block and of its scale byte, DQNT with that of 32 registers. -/
theorem blockQuantisation : Obligations.BlockQuantisation := by
  unfold Obligations.BlockQuantisation
  refine ⟨fun o => ?_, fun o => ?_⟩
  · refine FlagResult.of_fpEnd _ (fun _ => rfl) (fun s c z t hp => ?_) fun c z t => (writesV_range_then_one c z t o.d.toNat
      (tapRegs o.ty) o.scaleReg _ _ fun l _ => length_denseRegs o.ty.width (tapRegs o.ty) _).mono (by have := tapRegs_le o.ty; omega)
    simp only [hp, List.map_map, Function.comp_def]
  · refine FlagResult.of_writeRange (fun _ => rfl) (fun z t l => by simp) fun s c z t hp => ?_
    simp only [hp, List.map_map, Function.comp_def]

end Sys2Proof.Machine
end

section
/-! PROOFS. NODE_CELL_COMPUTE (O44): what a demand leaves unchanged, and how the event goes for a node that is no gather: it demands what its
cell lacks, or the cell's value comes with its end, or what refuses a leaf read fails the cell. -/

namespace Sys2Proof.Machine

open Sys2Proof.Claims

/-! ### A demand changes the nodes of the machine alone (R165) -/

theorem length_updFirst {α : Type} (p : α → Bool) (f : α → α) (xs : List α) : (updFirst p f xs).length = xs.length := by
  induction xs with
  | nil => rfl
  | cons x xs ih =>
    rw [updFirst]
    split <;> simp [ih]

/-- The states that differ from `s` at most in what their nodes, as many as those of `s`, hold. -/
def SameButNodes (s u : State) : Prop := u = { s with nodes := u.nodes } ∧ u.nodes.length = s.nodes.length

theorem SameButNodes.refl (s : State) : SameButNodes s s := ⟨rfl, rfl⟩

theorem SameButNodes.trans {s u w : State} (h : SameButNodes s u) (k : SameButNodes u w) : SameButNodes s w :=
  ⟨by rw [k.1, h.1], k.2.trans h.2⟩

theorem SameButNodes.updNode (s : State) (core n : Nat) (f : Node → Node) : SameButNodes s (s.updNode core n f) :=
  ⟨rfl, length_updFirst _ f s.nodes⟩

theorem SameButNodes.foldl {α : Type} {g : State → α → State} (hg : ∀ s a, SameButNodes s (g s a)) (xs : List α) (s : State) :
    SameButNodes s (xs.foldl g s) := by
  induction xs generalizing s with
  | nil => exact .refl s
  | cons x xs ih => exact (hg s x).trans (ih (g s x))

theorem SameButNodes.demandCell (fuel : Nat) (s : State) (core n cell : Nat) (f : Force) :
    SameButNodes s (s.demandCell fuel core n cell f) := by
  induction fuel generalizing s n cell with
  | zero => exact .refl s
  | succ fuel ih =>
    rw [State.demandCell]
    split
    · exact .refl s
    · split
      · exact .refl s
      · exact (SameButNodes.updNode s core n _).trans (.foldl (α := Nat × Nat) (fun s d => ih s d.1 d.2) _ _)

theorem SameButNodes.demand (s : State) (core n : Nat) (cells : List Nat) (f : Force) : SameButNodes s (s.demand core n cells f) :=
  .foldl (fun s c => .demandCell 257 s core n c f) cells s

/-! ### The event -/

/-- A cell of a node that is no gather is demanded, its core runs, and no page of it waits at the rail. -/
structure CellDue (s : State) (core n cell : Nat) (x : Node) (f : Force) (t : Troop) : Prop where
  node : s.node? core n = some x
  op : x.op ≠ .gather
  demanded : x.demanded.find? (·.1 == cell) = some (cell, f)
  troop : s.troop? x.tid = some t
  running : s.haltedCore core = false
  free : s.cellRailed (.cell core n cell) = false

/-- The node cell is an input that is not computed. -/
def lacksCell (nodes : List Node) (e : Nat × Nat) : Bool := (nodes.find? fun y => y.n == e.1).any fun y => !y.isForced e.2

/-- The inputs that the cell of node `x` lacks (R165). -/
def lackedCells (s : State) (core cell : Nat) (x : Node) : List (Nat × Nat) :=
  (x.cellDeps (s.nodes.filter (·.core == core)) cell []).filter (lacksCell (s.nodes.filter (·.core == core)))

section
variable {s : State} {core n cell : Nat} {bad1 bad2 : Bool} {x : Node} {f : Force} {t : Troop}

theorem CellDue.core_eq (h : CellDue s core n cell x f t) : x.core = core ∧ x.n = n := by
  simpa using List.find?_some h.node

/-- The event for a node that is no gather: what it lacks is demanded, else its value is computed or refused (R165). -/
theorem exec_nodeCell_due (h : CellDue s core n cell x f t) :
    exec (.nodeCellCompute core n cell bad1 bad2) s = .next (
      if lackedCells s core cell x = [] then
        match s.cellValue x.sid t (s.nodes.filter (·.core == core)) x cell [] with
        | (u, .error r) => u.cellStops t x cell f r
        | (u, .ok r) => ((u.runCell t x (s.nodes.filter (·.core == core)) (.cell core n cell) bad1 fun u =>
            u.endCell t x cell f bad1 bad2 (x.cellDeps (s.nodes.filter (·.core == core)) cell []) r).freeNodes.settleOverflow t.tid)
      else (lackedCells s core cell x).foldl (fun u e => u.demand core e.1 [e.2] f) s) := by
  have hop : (x.op == .gather) = false := by simpa using h.op
  simp only [exec, execNodeCellCompute, h.node, h.demanded, h.troop, h.running, h.free, Option.map_some, State.indexRows, hop,
    Bool.false_and, Bool.or_false, Bool.false_eq_true, if_false]
  beta_reduce
  rw [List.filter_congr (q := lacksCell (s.nodes.filter (·.core == core))) (l := x.cellDeps (s.nodes.filter (·.core == core)) cell [])]
  · change (if (lackedCells s core cell x != []) = true then _ else if (lackedCells s core cell x != []) = true then _ else _) = _
    by_cases hl : lackedCells s core cell x = []
    · simp only [hl, bne_self_eq_false, Bool.false_eq_true, if_false, if_true]
      cases s.cellValue x.sid t (s.nodes.filter (·.core == core)) x cell [] with
      | mk u v => cases v <;> rfl
    · rw [if_pos (by simpa using hl), if_neg hl]
      rfl
  · intro d _
    unfold lacksCell
    cases (s.nodes.filter (·.core == core)).find? (·.n == d.1) <;> rfl

theorem exec_nodeCell_lacking (h : CellDue s core n cell x f t) (hl : lackedCells s core cell x ≠ []) :
    exec (.nodeCellCompute core n cell bad1 bad2) s =
      .next ((lackedCells s core cell x).foldl (fun u e => u.demand core e.1 [e.2] f) s) := by
  rw [exec_nodeCell_due h, if_neg hl]

theorem exec_nodeCell_refused {u : State} {e : SpanRes} (h : CellDue s core n cell x f t) (hl : lackedCells s core cell x = [])
    (hv : s.cellValue x.sid t (s.nodes.filter (·.core == core)) x cell [] = (u, .error e)) :
    exec (.nodeCellCompute core n cell bad1 bad2) s = .next (u.cellStops t x cell f e) := by
  rw [exec_nodeCell_due h, if_pos hl, hv]

theorem exec_nodeCell_computed {u : State} {r : CellRes} (h : CellDue s core n cell x f t) (hl : lackedCells s core cell x = [])
    (hv : s.cellValue x.sid t (s.nodes.filter (·.core == core)) x cell [] = (u, .ok r)) :
    exec (.nodeCellCompute core n cell bad1 bad2) s =
      .next ((u.runCell t x (s.nodes.filter (·.core == core)) (.cell core n cell) bad1 fun u =>
        u.endCell t x cell f bad1 bad2 (x.cellDeps (s.nodes.filter (·.core == core)) cell []) r).freeNodes.settleOverflow t.tid) := by
  rw [exec_nodeCell_due h, if_pos hl, hv]

end

/-! ### How a computed cell ends (R145, R149, R161) -/

section
variable {s u : State} {t : Troop} {x : Node} {cell : Nat} {f : Force} {bad1 bad2 : Bool} {deps : List (Nat × Nat)} {r : CellRes}

/-- Its checks pass and it has room: it keeps its value, its rerun is counted, and its flags wait. -/
theorem State.endCell_kept {w : Nat} (hchk : (x.chk && x.op == .mul && bad1 && bad2) = false) (hr : r.bad = false)
    (hf : r.flags &&& x.enabled = 0) (hroom : s.roomFor 257 t.tid (cellUnits x.out) = (u, some (.ok w))) :
    s.endCell t x cell f bad1 bad2 deps r =
      (u.cellRan t.pad x f (x.chk && x.op == .mul && bad1) r.flags).storeCell x cell r deps := by
  simp [State.endCell, State.closeCell, hchk, hr, hf, hroom]

/-- Its rerun differs too: the failure is counted, and the cell learns it (R150). -/
theorem State.endCell_badCheck (hchk : (x.chk && x.op == .mul && bad1 && bad2) = true) :
    s.endCell t x cell f bad1 bad2 deps r =
      (s.countErr t.pad fun e => { e with chkFail := inc32 e.chkFail }).failCell x.core x.n cell .uncorrectableMemory 5 := by
  simp [State.endCell, State.closeCell, hchk]

variable {nodes : List Node} {who : ReqWho} {run : State → State}

theorem State.runCell_no_mul (h : x.op ≠ .mul) : s.runCell t x nodes who bad1 run = run s := by
  simp [State.runCell, h]

theorem State.runCell_asks (h : x.op = .mul) (hq : s.cellQuarter t who = none) :
    s.runCell t x nodes who bad1 run = s.askQuarter t who := by
  simp [State.runCell, h, hq]

theorem State.runCell_spends {q : Quarter} (h : x.op = .mul) (hq : s.cellQuarter t who = some q)
    (hfree : (run s).cellRailed who = false) :
    s.runCell t x nodes who bad1 run =
      (run s).spendQuarter t ((run s).quarter q.core q.q) who (x.units (descIn nodes (x.slot 0)) (x.chk && bad1)) := by
  simp [State.runCell, h, hq, hfree]

end

/-- Settles O44, by the three ways of the event: what it lacks, the value with its two ends, and a refused read. -/
theorem cellsAreComputed : Obligations.CellsAreComputed := by
  unfold Obligations.CellsAreComputed
  intro s core n cell bad1 bad2 x f t hn hop hd ht hh hc nodes deps lacks goes who rerun runs
  have due : CellDue s core n cell x f t := ⟨hn, hop, hd, ht, hh, hc⟩
  obtain ⟨hcore, hnum⟩ := due.core_eq
  have none_lacked : (∀ e ∈ deps, lacks e = false) → lackedCells s core cell x = [] := fun h =>
    List.filter_eq_nil_iff.2 fun e he => by rw [show lacksCell nodes e = false from h e he]; exact Bool.false_ne_true
  have runs_to : ∀ {u : State} {r : CellRes}, (∀ e ∈ deps, lacks e = false) →
      s.cellValue x.sid t nodes x cell [] = (u, .ok r) → runs u (u.endCell t x cell f bad1 bad2 deps r) := by
    intro u r hl hv
    have ran := exec_nodeCell_computed (bad1 := bad1) (bad2 := bad2) due (none_lacked hl) hv
    refine ⟨fun h => ?_, fun h hq => ?_, fun h q hq hfree => ?_⟩
    · rwa [State.runCell_no_mul h] at ran
    · rwa [State.runCell_asks h hq] at ran
    · rwa [State.runCell_spends h hq hfree] at ran
  refine ⟨fun ⟨e, he, hlack⟩ => ?_, fun hl u r hv hchk hbad hflags s' w hroom => ?_, fun hl u r hv hchk => ?_, fun hl u c hv => ?_⟩
  · have some_lacked : lackedCells s core cell x ≠ [] := fun h => List.filter_eq_nil_iff.1 h e he hlack
    have ⟨same, len⟩ : SameButNodes s ((lackedCells s core cell x).foldl (fun u e => u.demand core e.1 [e.2] f) s) :=
      .foldl (α := Nat × Nat) (fun u e => .demand u core e.1 [e.2] f) _ s
    exact ⟨_, exec_nodeCell_lacking due some_lacked, rfl, same, len⟩
  · have ended := runs_to hl hv
    rw [State.endCell_kept hchk hbad hflags hroom] at ended
    rwa [State.cellRan, hcore, hnum] at ended
  · have ended := runs_to hl hv
    rwa [State.endCell_badCheck hchk, hcore, hnum] at ended
  · have stopped := exec_nodeCell_refused (bad1 := bad1) (bad2 := bad2) due (none_lacked hl) hv
    rwa [State.cellStops, hcore, hnum] at stopped

end Sys2Proof.Machine
end

section
/-! PROOFS. The integer, address and lane instructions (O1 to O6): their results for the participants, the two traps of a condition of
their operands, and the registers of the other classes that they write. -/

namespace Sys2Proof.Machine

open Sys2Proof.Claims

/-! ### Results that agree on the participants (R95) -/

section
variable {i : Instr} {pre : Cur → Str → Troop → Prop} {td : Ty} {d : Byte}

theorem VResult.congr {k : Nat} {flags : Cur → Str → Troop → Flags} {after after' : Cur → Str → Troop → Nat → Nat → Option Word}
    (h : VResult i k pre flags after) (e : ∀ c z t n l, after c z t n l = after' c z t n l) : VResult i k pre flags after' := by
  obtain rfl : after = after' := by
    funext c z t n l
    exact e c z t n l
  exact h

/-- As `IntResult.of`, for a value that equals the one written. -/
theorem IntResult.of_eq {val val' : Cur → Str → Nat → Nat}
    (hx : ∀ s, exec i s = s.issue i noCheck fun c z _ => s.putLanes c z td d (val c z)) (e : ∀ c z l, val c z l = val' c z l) :
    IntResult i td d val' :=
  VResult.congr (IntResult.of hx) fun c z _ n l => congrArg (oneDest td d.toNat · n) (e c z l)

theorem PResult.congr {flags : Cur → Str → Flags} {val val' : Cur → Str → Nat → Bool} (h : PResult i d flags val)
    (e : ∀ c z, ∀ l ∈ c.lanes, val c z l = val' c z l) : PResult i d flags val' := by
  intro s c z t hi hr hf
  obtain ⟨z', hx, only, p⟩ := h s c z t hi hr hf
  refine ⟨z', hx, only, fun n l hl => ?_⟩
  rw [p n l hl]
  split
  · next hm => rw [e c z l (mem_lanesOf.2 ⟨hl, hm.2.2⟩)]
  · rfl

/-! ### Instructions that trap on their operands (R99, R106, R107) -/

variable {bad : Cur → Str → Bool} {cause : Cause} {val : Cur → Str → Nat → Nat}

/-- While the operands are good, an instruction that checks them writes its lanes. -/
theorem VResult.of_checked
    (hx : ∀ s, exec i s = s.issue i noCheck fun c z _ => if bad c z then s.raise c cause else s.putLanes c z td d (val c z))
    (good : ∀ c z t, pre c z t → bad c z = false) :
    VResult i 2 pre (fun _ _ _ => 0) fun c z _ n l => oneDest td d.toNat (val c z l) n :=
  VResult.of_putLanes (val := fun c z _ => val c z) hx fun _ c z t hp => if_neg (by simp [good c z t hp])

theorem Traps.of_checked {pre : State → Cur → Str → Troop → Prop}
    (hx : ∀ s, exec i s = s.issue i noCheck fun c z _ => if bad c z then s.raise c cause else s.putLanes c z td d (val c z))
    (fails : ∀ s c z t, pre s c z t → bad c z = true) : Traps i pre cause :=
  Traps.of hx fun s c z t _ hp => if_pos (fails s c z t hp)

end

/-! ### Integer arithmetic (R98, R99) -/

section
variable {o : Operands} (s : State)

theorem exec_imul_lo (h : o.fn = 0) : exec (.imul o) s = s.issue (.imul o) noCheck fun c z _ => s.int2 c z o (· * ·) := by
  change execImul o s = _
  rw [execImul, h]
  rfl

theorem exec_imul_hi (h : o.fn = 1) :
    exec (.imul o) s = s.issue (.imul o) noCheck fun c z _ => s.int2 c z o fun a b => a * b / (2 ^ o.ty.width : Nat) := by
  change execImul o s = _
  rw [execImul, h]
  rfl

theorem exec_imul_wide (h : o.fn = 2) : exec (.imul o) s = s.issue (.imul o) noCheck fun c z _ =>
    s.putLanes c z .b64 o.d fun l => wrapNat 64 (intA z o l * intB z o l) := by
  change execImul o s = _
  rw [execImul, h]
  rfl

end

theorem IntResult.of_intAbs {i : Instr} {o : Operands} (hx : ∀ s, exec i s = s.issue i noCheck fun c z _ => s.intAbs c z o) :
    IntResult i o.ty o.d fun _ z l => wrInt o.ty o.sat |intA z o l| :=
  IntResult.of_eq hx fun _ z l => congrArg (wrInt o.ty o.sat) (Int.abs_eq_natAbs (intA z o l)).symm

/-- Settles O1: each instruction writes a function of exact integers, and a division checks its divisors first. -/
theorem integerArithmetic : Obligations.IntegerArithmetic := by
  unfold Obligations.IntegerArithmetic
  refine ⟨fun _ => IntResult.of fun _ => rfl, fun _ => IntResult.of fun _ => rfl, fun o hlo => ?_, fun o hhi => ?_, fun o hwide => ?_,
    fun _ => IntResult.of fun _ => rfl, fun _ => IntResult.of fun _ => rfl, fun _ => IntResult.of fun _ => rfl,
    fun _ => IntResult.of_intAbs fun _ => rfl, fun _ => IntResult.of_intAbs fun _ => rfl,
    fun o => ?_, fun o => ?_, fun o => ?_, fun o => ?_⟩
  · exact IntResult.of fun s => exec_imul_lo s hlo
  · exact IntResult.of_eq (fun s => exec_imul_hi s hhi) fun _ _ _ => by rw [Nat.cast_pow]; rfl
  · exact IntResult.of fun s => exec_imul_wide s hwide
  · exact VResult.of_checked (fun _ => rfl) fun _ _ _ h => h
  · exact VResult.of_checked (fun _ => rfl) fun _ _ _ h => h
  · exact Traps.of_checked (fun _ => rfl) fun _ _ _ _ h => h
  · exact Traps.of_checked (fun _ => rfl) fun _ _ _ _ h => h

/-! ### Bits and fields (R100 to R102) -/

theorem shlBits_mod (w a n : Nat) : shlBits w a n % 2 ^ w = (a <<< n) % 2 ^ w := by
  rw [shlBits]
  split
  · next h => rw [Nat.zero_mod, Nat.shiftLeft_eq, Nat.mod_eq_zero_of_dvd (Dvd.dvd.mul_left (pow_dvd_pow 2 h) a)]
  · exact Nat.mod_mod _ _

theorem shrBits_mod (w a n : Nat) : shrBits w a n % 2 ^ w = (a % 2 ^ w) >>> n := by
  have small : a % 2 ^ w < 2 ^ w := Nat.mod_lt _ (Nat.two_pow_pos w)
  rw [shrBits]
  split
  · next h => rw [Nat.zero_mod, Nat.shiftRight_eq_zero _ _ (small.trans_le (Nat.pow_le_pow_right two_pos h))]
  · exact Nat.mod_eq_of_lt ((Nat.shiftRight_le _ _).trans_lt small)

theorem wrapNat_lt (w : Nat) (x : Int) : wrapNat w x < 2 ^ w := by
  have pos : (0 : Int) < (2 ^ w : Nat) := by exact_mod_cast Nat.two_pow_pos w
  have := Int.emod_lt_of_pos x pos
  have := Int.emod_nonneg x pos.ne'
  rw [wrapNat]
  omega

theorem sarBits_mod (w a n : Nat) : sarBits w a n % 2 ^ w = sarBits w a n := Nat.mod_eq_of_lt (wrapNat_lt w _)

/-- Settles O2: each instruction writes a function of raw bits; for the shifts that function is what the rule says of any amount. -/
theorem bitInstructions : Obligations.BitInstructions := by
  unfold Obligations.BitInstructions
  refine ⟨fun _ => IntResult.of fun _ => rfl, fun _ => IntResult.of fun _ => rfl, fun _ => IntResult.of fun _ => rfl,
    fun o => ?_, fun o => ?_, fun o => ?_, fun _ => IntResult.of fun _ => rfl,
    fun _ => IntResult.of fun _ => rfl, fun _ => IntResult.of fun _ => rfl,
    fun _ => IntResult.of fun _ => rfl, fun _ => IntResult.of fun _ => rfl,
    fun _ => IntResult.of fun _ => rfl, fun _ => IntResult.of fun _ => rfl,
    fun _ => IntResult.of fun _ => rfl, fun _ => IntResult.of fun _ => rfl,
    fun _ => IntResult.of fun _ => rfl, fun _ => IntResult.of fun _ => rfl⟩
  · exact IntResult.of_eq (fun _ => rfl) fun _ _ _ => shlBits_mod _ _ _
  · exact IntResult.of_eq (fun _ => rfl) fun _ _ _ => shrBits_mod _ _ _
  · exact IntResult.of_eq (fun _ => rfl) fun _ _ _ => sarBits_mod _ _ _

/-! ### Moves and addresses (R104, R106 to R108) -/

/-- A register takes the low 32 bits of a value, so that a narrow destination does not see the rest. -/
theorem oneDest_narrow_mod {td : Ty} (h : td.wide = false) (d x n : Nat) : oneDest td d (x % 2 ^ 32) n = oneDest td d x n := by
  have low : BitVec.ofNat 32 (x % 2 ^ 32) = BitVec.ofNat 32 x :=
    BitVec.eq_of_toNat_eq (by simp only [BitVec.toNat_ofNat, Nat.mod_mod])
  simp only [oneDest, h, Bool.false_and, low, Bool.false_eq_true, if_false]

theorem IntResult.of_stovLanes {i : Instr} {o : Operands} (hx : ∀ s, exec i s = s.issue i noCheck fun c z _ => s.stovLanes c z o) :
    IntResult i (if o.spec then .b64 else .b32) o.d fun _ z _ => (z.sreg o.a.toNat).toNat := by
  refine VResult.congr (IntResult.of hx) fun c z t n l => ?_
  cases hs : o.spec with
  | true => rfl
  | false => exact oneDest_narrow_mod rfl _ _ _

/-- Settles O3: the moves write a source as it is, and the two address instructions check every address first. -/
theorem movesAndAddresses : Obligations.MovesAndAddresses := by
  unfold Obligations.MovesAndAddresses
  refine ⟨fun _ => IntResult.of fun _ => rfl, fun _ => IntResult.of fun _ => rfl, fun _ => IntResult.of fun _ => rfl,
    fun _ => IntResult.of fun _ => rfl, fun _ => IntResult.of_stovLanes fun _ => rfl, fun _ => IntResult.of_stovLanes fun _ => rfl,
    fun o => ?_, fun o => ?_, fun o => ?_, fun o => ?_⟩
  · refine VResult.of_checked (fun _ => rfl) fun c z _ h => ?_
    simpa [List.any_eq_false] using h
  · refine VResult.of_checked (fun _ => rfl) fun c z _ h => ?_
    simpa [List.any_eq_false] using h
  · refine Traps.of_checked (fun _ => rfl) fun _ c z _ h => ?_
    simpa [List.any_eq_true] using h
  · refine Traps.of_checked (fun _ => rfl) fun _ c z _ h => ?_
    simpa [List.any_eq_true] using h

/-! ### Predicate registers (R103, R105, R111, R118) -/

/-- The first participant is the one below which no lane takes part. -/
theorem Cur.lanes_head?_beq (c : Cur) {l : Nat} (hl : l ∈ c.lanes) :
    (c.lanes.head? == some l) = decide (∀ k < l, c.parts.getLsbD k = false) := by
  obtain ⟨h32, hm⟩ := mem_lanesOf.1 hl
  rw [Bool.eq_iff_iff, beq_iff_eq, decide_eq_true_iff, Cur.lanes, lanesOf, List.head?_filter, List.find?_range_eq_some]
  simp [h32, hm]

theorem exec_fsetp (o : Operands) (s : State) : exec (.fsetp o) s = s.issue (.fsetp o) noCheck fun c z _ =>
    s.fpEnd c z (orAll (c.lanes.map fun l => (condNum o.fn.toNat (z.fa o o.ty l 0) (z.fb o o.ty l 0)).2)) fun s =>
      s.writeP c.sid (s.depthOf z) o.d.toNat
        (c.lanes.map fun l => (l, (condNum o.fn.toNat (z.fa o o.ty l 0) (z.fb o o.ty l 0)).1)) := by
  change execFsetp o s = _
  simp only [execFsetp, List.map_map, Function.comp_def]

/-- Settles O4: each instruction writes one predicate, FSETP after its flags. -/
theorem predicateResults : Obligations.PredicateResults := by
  unfold Obligations.PredicateResults
  refine ⟨fun _ => PResult.of_putPreds fun _ => rfl, fun _ => PResult.of_putPreds fun _ => rfl,
    fun _ => PResult.of_putPreds fun _ => rfl, fun _ => PResult.of_putPreds fun _ => rfl,
    fun _ => PResult.of_putPreds fun _ => rfl, fun _ => PResult.of_putPreds fun _ => rfl,
    fun o => ?_, fun o => ?_, fun o => ?_, fun z l => rfl⟩
  · exact PResult.congr (PResult.of_putPreds fun _ => rfl) fun c _ _ hl => c.lanes_head?_beq hl
  · exact PResult.of (exec_fsetp o) fun _ _ _ _ _ hf => if_pos hf
  · exact FpTraps.of (exec_fsetp o) fun _ _ _ _ _ _ => ⟨_, rfl⟩

/-! ### Scalar registers (R108, R109) -/

theorem shiftLeft_min_width {w : Nat} (x : BitVec w) (n : Nat) : x <<< min w n = x <<< n := by
  rcases le_total n w with h | h
  · rw [min_eq_right h]
  · rw [min_eq_left h, BitVec.shiftLeft_eq_zero le_rfl, BitVec.shiftLeft_eq_zero h]

theorem ushiftRight_min_width {w : Nat} (x : BitVec w) (n : Nat) : x >>> min w n = x >>> n := by
  rcases le_total n w with h | h
  · rw [min_eq_right h]
  · rw [min_eq_left h, BitVec.ushiftRight_eq_zero le_rfl, BitVec.ushiftRight_eq_zero h]

theorem sshiftRight_min_width {w : Nat} (x : BitVec w) (n : Nat) : x.sshiftRight (min w n) = x.sshiftRight n := by
  rcases le_total n w with h | h
  · rw [min_eq_right h]
  · refine BitVec.eq_of_getLsbD_eq fun k hk => ?_
    have past : ¬ w + k < w := by omega
    have past' : ¬ n + k < w := by omega
    simp only [BitVec.getLsbD_sshiftRight, min_eq_left h, past, past', if_false]

theorem State.vtosLanes_eq (s : State) (c : Cur) (z : Str) (o : Operands) : s.vtosLanes c z o = s.putScalar c z o.d
    (if o.spec then z.vpair o.a.toNat (c.lanes.headD 0) else (z.vreg o.a.toNat (c.lanes.headD 0)).setWidth 64) := by
  by_cases h : c.parts = 0
  · have hl : c.lanes = [] := by rw [Cur.lanes, h]; decide
    rw [State.vtosLanes, hl, State.putScalar, if_pos h]
  · obtain ⟨ls, hl⟩ := lanes_eq_cons h
    rw [State.vtosLanes, hl]
    rfl

/-- Settles O5: each instruction writes one scalar register when there is a participant; a shift past the width is one by the width. -/
theorem scalarResults : Obligations.ScalarResults := by
  unfold Obligations.ScalarResults
  refine ⟨fun o => ?_, fun o => ?_,
    fun _ => SResult.of (fun _ => rfl) fun _ _ _ _ _ _ => rfl, fun _ => SResult.of (fun _ => rfl) fun _ _ _ _ _ _ => rfl,
    fun _ => SResult.of (fun _ => rfl) fun _ _ _ _ _ _ => rfl, fun _ => SResult.of (fun _ => rfl) fun _ _ _ _ _ _ => rfl,
    fun _ => SResult.of (fun _ => rfl) fun _ _ _ _ _ _ => rfl, fun o => ?_, fun o => ?_,
    fun _ => SResult.of (fun _ => rfl) fun _ _ _ _ _ _ => rfl⟩
  · exact SResult.of (fun _ => rfl) fun s c z _ _ _ => s.vtosLanes_eq c z o
  · exact SResult.of (fun _ => rfl) fun s c z _ _ _ => s.vtosLanes_eq c z o
  · exact SResult.of (fun _ => rfl) fun s c z _ _ _ => congrArg (s.putScalar c z o.d) (shiftLeft_min_width _ _)
  · refine SResult.of (fun _ => rfl) fun s c z _ _ _ => congrArg (s.putScalar c z o.d) ?_
    rw [sshiftRight_min_width, ushiftRight_min_width]

/-! ### Votes (R111) -/

theorem getLsbD_ballot (c : Cur) (z : Str) (o : Operands) {l : Nat} (hl : l < 32) :
    (ballot c z o).getLsbD l = (c.parts.getLsbD l && z.vreg o.a.toNat l != 0) := by
  rw [ballot, getLsbD_maskOf _ hl, Bool.eq_iff_iff, decide_eq_true_iff, List.mem_filter, Cur.lanes, mem_lanesOf, Bool.and_eq_true]
  simp [hl]

theorem ballot_eq_parts (c : Cur) (z : Str) (o : Operands) : ballot c z o = c.parts ↔ ∀ l ∈ c.lanes, z.vreg o.a.toNat l ≠ 0 := by
  constructor
  · intro h l hl
    obtain ⟨h32, hm⟩ := mem_lanesOf.1 hl
    have := getLsbD_ballot c z o h32
    rw [h, hm] at this
    simpa using this.symm
  · intro h
    refine BitVec.eq_of_getLsbD_eq fun l hl => ?_
    rw [getLsbD_ballot c z o hl]
    cases hm : c.parts.getLsbD l with
    | false => rfl
    | true => simpa using h l (mem_lanesOf.2 ⟨hl, hm⟩)

theorem ballot_ne_zero (c : Cur) (z : Str) (o : Operands) : ballot c z o ≠ 0 ↔ ∃ l ∈ c.lanes, z.vreg o.a.toNat l ≠ 0 := by
  rw [← not_iff_not, not_not, not_exists]
  constructor
  · rintro h l ⟨hl, hv⟩
    obtain ⟨h32, hm⟩ := mem_lanesOf.1 hl
    have := getLsbD_ballot c z o h32
    rw [h, hm] at this
    exact hv (by simpa using this)
  · intro h
    refine BitVec.eq_of_getLsbD_eq fun l hl => ?_
    rw [getLsbD_ballot c z o hl]
    cases hm : c.parts.getLsbD l with
    | false => simp
    | true => simpa using fun hv => h l ⟨mem_lanesOf.2 ⟨hl, hm⟩, hv⟩

section
variable {o : Operands} (c : Cur) (z : Str)

theorem voteVal_all (h : o.fn = 0) : voteVal c z o = if ∀ l ∈ c.lanes, z.vreg o.a.toNat l ≠ 0 then 1 else 0 := by
  rw [voteVal, h]
  exact if_congr (ballot_eq_parts c z o) rfl rfl

theorem voteVal_any (h : o.fn = 1) : voteVal c z o = if ∃ l ∈ c.lanes, z.vreg o.a.toNat l ≠ 0 then 1 else 0 := by
  rw [voteVal, h]
  change (if ballot c z o = 0 then 0 else 1) = _
  rw [← ite_not]
  exact if_congr (ballot_ne_zero c z o) rfl rfl

theorem voteVal_ballot (h : o.fn = 2) : voteVal c z o = (ballot c z o).toNat := by
  rw [voteVal, h]
  rfl

end

/-! ### Reductions and scans (R91, R112) -/

section
variable {o : Operands} (h : o.ty ≠ .f32) (s : State)
include h

theorem exec_lred_int : exec (.lred o) s = s.issue (.lred o) noCheck fun c z _ =>
    s.putLanes c z o.ty o.d fun _ => intReduce z o c.lanes := by
  change execLred o s = _
  simp only [execLred, if_neg h]

theorem exec_lscan_int : exec (.lscan o) s = s.issue (.lscan o) noCheck fun c z _ =>
    s.putLanes c z o.ty o.d fun l => intReduce z o (c.lanes.filter (· ≤ l)) := by
  change execLscan o s = _
  simp only [execLscan, if_neg h]

end

/-- Settles O6: each exchange writes its lanes, a vote by what its ballot holds, a reduction or scan by the branch for integers. -/
theorem laneExchange : Obligations.LaneExchange := by
  unfold Obligations.LaneExchange
  refine ⟨fun _ => IntResult.of fun _ => rfl, fun o hall => ?_, fun o hany => ?_, fun o hballot => ?_,
    fun _ => IntResult.of fun _ => rfl, fun _ => IntResult.of fun _ => rfl, fun _ => IntResult.of fun _ => rfl,
    fun o hty => ?_, fun o hty => ?_⟩
  · exact IntResult.of_eq (fun _ => rfl) fun c z _ => voteVal_all c z hall
  · exact IntResult.of_eq (fun _ => rfl) fun c z _ => voteVal_any c z hany
  · exact IntResult.of_eq (fun _ => rfl) fun c z _ => voteVal_ballot c z hballot
  · exact IntResult.of fun s => exec_lred_int hty s
  · exact IntResult.of fun s => exec_lscan_int hty s

end Sys2Proof.Machine
end

section
/-! PROOFS. What a matrix operation leaves as it ends (O41): first what the quarters leave alone, then the registers that its results
reach, then the end of an operation that passes its check and of one that fails it twice. -/

namespace Sys2Proof.Machine

open Sys2Proof.Claims

/-! ### The quarters leave the troops alone (R142 to R148) -/

@[simp] theorem State.putQuarter_troops (s : State) (x : Quarter) : (s.putQuarter x).troops = s.troops := rfl

theorem State.foldl_troops {α : Type} {g : State → α → State} (hg : ∀ s a, (g s a).troops = s.troops) (xs : List α) (s : State) :
    (xs.foldl g s).troops = s.troops := by
  induction xs generalizing s with
  | nil => rfl
  | cons a xs ih => rw [List.foldl_cons, ih, hg]

@[simp] theorem State.settleOne_troops (s : State) (core q n : Nat) : (s.settleOne core q n).troops = s.troops := by
  induction n generalizing s with
  | zero => rfl
  | succ n ih => rw [State.settleOne, ih, State.putQuarter_troops]

@[simp] theorem State.advanceJoint_troops (s : State) (core q : Nat) : (s.advanceJoint core q).troops = s.troops := by
  simp only [State.advanceJoint]
  split <;> rfl

@[simp] theorem State.startJoint_troops (s : State) (core : Nat) : (s.startJoint core).troops = s.troops := by
  unfold State.startJoint
  split
  · split
    · exact State.foldl_troops (fun s q => s.putQuarter_troops (s.quarter core q).start) _ _
    · rfl
  · rfl

@[simp] theorem State.quarterRound_troops (s : State) (core : Nat) : (s.quarterRound core).troops = s.troops := by
  rw [State.quarterRound, State.startJoint_troops, State.foldl_troops (fun s q => s.advanceJoint_troops core q)]
  refine State.foldl_troops (fun s q => ?_) _ _
  rw [State.settleOne_troops, State.putQuarter_troops]

@[simp] theorem State.settleQuarters_troops (s : State) (core : Nat) : (s.settleQuarters core).troops = s.troops :=
  State.foldl_troops (fun s _ => s.quarterRound_troops core) _ _

@[simp] theorem State.queueMat_troops (s : State) (core : Nat) (op : MatOp) : (s.queueMat core op).troops = s.troops :=
  State.settleQuarters_troops _ core

theorem State.troop?_own {s : State} {tid : Nat} {t : Troop} (h : s.troop? tid = some t) : s.troop? t.tid = some t := by
  rw [State.troop_tid h]
  exact h

/-- What keeps the troops keeps what is found of them. -/
theorem State.troop?_of_troops {s u : State} {tid : Nat} {t : Troop} (h : u.troops = s.troops) (ht : s.troop? tid = some t) :
    u.troop? tid = some t := by
  rw [State.troop?, h]
  exact ht

/-! ### Results of a matrix operation (R37, R140) -/

/-- A write of any lanes of one vector register, with room for its record. -/
theorem State.writeV_putV {s : State} {sid d n : Nat} {vals : List (Nat × Word)} {z : Str} {t : Troop} {k : Nat}
    (hz : s.str? sid = some z) (ht : s.troop? z.tid = some t) (hr : Room z t (k + 1)) :
    ∃ bag, s.writeV sid d n vals = (s.updStr sid fun _ => ({ z with bag := bag } : Str).putV n vals) ∧ (t.depth = 0 → bag = z.bag) ∧
      Room { z with bag := bag } t k := by
  by_cases he : vals = []
  · subst he
    exact ⟨z.bag, (State.updStr_self hz).symm, fun _ => rfl, room_mono hr⟩
  · obtain ⟨bag, h1, h2, h3⟩ := State.record_room (d := d) (key := .v n) (prior := (·.vall n)) hz ht hr
    refine ⟨bag, ?_, h2, h3⟩
    rw [State.writeV, if_neg (by simpa using he), h1, State.updStr_updStr hz (fun _ => { z with bag := bag }) _ rfl]

/-- The results of an operation that register `r` takes: those of its lanes that have not exited. -/
def MatOp.valsOf (op : MatOp) (z : Str) (r : Nat) : List (Nat × Word) :=
  op.writes.filterMap fun (k, x) => if k / 32 = r && !(z.lane (k % 32)).exited then some (k % 32, x) else none

/-- At their register's places the results that it takes are those that the operation lists. -/
theorem MatOp.places_valsOf (op : MatOp) (z : Str) (r : Nat) : (op.valsOf z r).map (fun (l, x) => (32 * r + l, x)) =
    op.writes.filter fun e => e.1 / 32 = r && !(z.lane (e.1 % 32)).exited := by
  rw [MatOp.valsOf, List.map_filterMap, ← List.filterMap_eq_filter]
  refine List.filterMap_congr fun e _ => ?_
  obtain ⟨k, x⟩ := e
  by_cases h : (decide (k / 32 = r) && !(z.lane (k % 32)).exited) = true
  · have hk : 32 * r + k % 32 = k := by
      obtain ⟨hr, -⟩ := Bool.and_eq_true_iff.1 h
      have := of_decide_eq_true hr
      omega
    simp [Option.guard, h, hk]
  · simp [Option.guard, h]

/-- The string `z'` is `z` after the registers `rs` have taken the results of an operation. -/
structure MatOp.Reaches (op : MatOp) (rs : List Nat) (t : Troop) (z z' : Str) : Prop where
  only : z' = { z with v := z'.v, bag := z'.bag }
  bag : t.depth = 0 → z'.bag = z.bag
  taken : ∀ e ∈ op.writes, Cells.get 0 z'.v e.1 =
    if e.1 / 32 ∈ rs ∧ (z.lane (e.1 % 32)).exited = false then e.2 else Cells.get 0 z.v e.1
  kept : ∀ k, (∀ e ∈ op.writes, e.1 ≠ k) → Cells.get 0 z'.v k = Cells.get 0 z.v k

theorem MatOp.reaches_nil (op : MatOp) (t : Troop) (z : Str) : op.Reaches [] t z z :=
  ⟨rfl, fun _ => rfl, by simp, fun _ _ => rfl⟩

theorem MatOp.reaches_putV {op : MatOp} {t : Troop} {z : Str} {bag : List BagEnt} (hn : (op.writes.map (·.1)).Nodup) (r : Nat)
    (hb : t.depth = 0 → bag = z.bag) : op.Reaches [r] t z (({ z with bag := bag } : Str).putV r (op.valsOf z r)) := by
  refine ⟨rfl, hb, fun e he => ?_, fun k hk => ?_⟩ <;> rw [Str.putV, MatOp.places_valsOf]
  · split
    next h =>
      refine Cells.get_setMany_of_mem 0 _ _ _ _ (List.mem_filter.2 ⟨he, ?_⟩) (hn.sublist (List.filter_sublist.map _))
      simpa using h
    next h =>
      refine Cells.get_setMany_of_not_mem 0 _ _ _ fun e' he' hk => h ?_
      rw [← hk]
      simpa using (List.mem_filter.1 he').2
  · exact Cells.get_setMany_of_not_mem 0 _ _ _ fun e he => hk e (List.mem_filter.1 he).1

theorem MatOp.Reaches.cons {op : MatOp} {r : Nat} {rs : List Nat} {t : Troop} {z z1 z' : Str} (h : op.Reaches [r] t z z1)
    (h' : op.Reaches rs t z1 z') : op.Reaches (r :: rs) t z z' := by
  refine ⟨by rw [h'.only, h.only], fun hd => (h'.bag hd).trans (h.bag hd), fun e he => ?_,
    fun k hk => (h'.kept k hk).trans (h.kept k hk)⟩
  have hl : z1.lane = z.lane := by rw [h.only]; rfl
  rw [h'.taken e he, h.taken e he, hl]
  by_cases hrs : e.1 / 32 ∈ rs ∧ (z.lane (e.1 % 32)).exited = false
  · rw [if_pos hrs, if_pos ⟨List.mem_cons_of_mem r hrs.1, hrs.2⟩]
  · rw [if_neg hrs]
    refine if_congr ?_ rfl rfl
    rw [List.mem_singleton, List.mem_cons]
    tauto

/-- The registers of an operation take its results one after another. -/
theorem State.writeRegs_room {op : MatOp} {t : Troop} (hn : (op.writes.map (·.1)).Nodup) (rs : List Nat) :
    ∀ {s : State} {z : Str}, s.str? op.sid = some z → s.troop? z.tid = some t → Room z t rs.length →
    ∃ z', rs.foldl (fun s r => s.writeV op.sid op.depth r (op.writes.filterMap fun (k, x) =>
      if k / 32 = r && !s.exitedLane op.sid (k % 32) then some (k % 32, x) else none)) s = (s.updStr op.sid fun _ => z') ∧
      op.Reaches rs t z z' := by
  induction rs with
  | nil => exact fun hz _ _ => ⟨_, (State.updStr_self hz).symm, op.reaches_nil t _⟩
  | cons r rs ih =>
    intro s z hz ht hr
    have hvals : (op.writes.filterMap fun (k, x) =>
        if k / 32 = r && !s.exitedLane op.sid (k % 32) then some (k % 32, x) else none) = op.valsOf z r := by
      simp only [MatOp.valsOf, State.exitedLane, hz]
    obtain ⟨bag, e1, hb, hr1⟩ := State.writeV_putV (d := op.depth) (n := r) (vals := op.valsOf z r) hz ht hr
    have hz1 := State.str?_updStr hz (fun _ => ({ z with bag := bag } : Str).putV r (op.valsOf z r)) rfl
    obtain ⟨z', e2, h2⟩ := ih hz1 ht hr1
    refine ⟨z', ?_, (MatOp.reaches_putV hn r hb).cons h2⟩
    rw [List.foldl_cons, hvals, e1, e2, State.updStr_updStr hz (fun _ => ({ z with bag := bag } : Str).putV r (op.valsOf z r)) _ rfl]

/-! ### The end of an operation (R142, R149, R150) -/

section
variable {s : State} {core q : Nat} {op : MatOp}

theorem exec_matrixOpComplete_idle (h : (s.quarter core q).run = none) (bad1 bad2 : Bool) :
    exec (.matrixOpComplete core q bad1 bad2) s = .next s := by
  change execMatrixOpComplete core q bad1 bad2 s = _
  simp only [execMatrixOpComplete, h]

/-- An operation whose check passes, or that is not checked, writes its results. -/
theorem exec_matrixOpComplete_passes (h : (s.quarter core q).run = some op) {bad1 bad2 : Bool} (hc : (op.chk && bad1) = false) :
    exec (.matrixOpComplete core q bad1 bad2) s =
      .next ((((s.putQuarter { s.quarter core q with run := none }).writeMat op).settleOverflow op.tid).settleQuarters core) := by
  change execMatrixOpComplete core q bad1 bad2 s = _
  simp only [execMatrixOpComplete, h, hc, Bool.false_and, Bool.false_eq_true, if_false]

/-- The state after both checks of an operation of paddock `pad` have failed: its quarter is free, and the failure is counted. -/
def State.afterFailedCheck (s : State) (core q : Nat) (op : MatOp) (pad : Nat) : State :=
  let x := s.quarter core q
  (s.putQuarter { x with run := none, count := if x.holder = some op.tid then x.count + op.units else x.count }).countErr pad
    fun e => { e with chkFail := inc32 e.chkFail }

/-- An operation whose check fails twice writes nothing, and faults late unless its epoch has been rolled back. -/
theorem exec_matrixOpComplete_fails {t : Troop} (h : (s.quarter core q).run = some op) (ht : s.troop? op.tid = some t)
    (hc : op.chk = true) :
    exec (.matrixOpComplete core q true true) s = .next (((if op.dead then s.afterFailedCheck core q op t.pad
      else (s.afterFailedCheck core q op t.pad).lateFault op.sid .uncorrectableMemory op.pc 0 op.depth op.trap).settleOverflow
        op.tid).settleQuarters core) := by
  change execMatrixOpComplete core q true true s = _
  simp only [execMatrixOpComplete, h, ht, hc, State.afterFailedCheck, Bool.and_true, Bool.true_and, Bool.not_true, Bool.and_false,
    Bool.false_eq_true, if_true, if_false, beq_iff_eq]

end

/-- The results of an operation that raises no enabled flag reach its registers, and its flags FPFLAGS. -/
theorem State.writeMat_room {s : State} {op : MatOp} {z : Str} {t : Troop} (hz : s.str? op.sid = some z)
    (ht : s.troop? z.tid = some t) (hr : Room z t op.regs.length) (hf : op.flags &&& op.enabled = 0)
    (hn : (op.writes.map (·.1)).Nodup) : ∃ z', op.Reaches op.regs t z z' ∧
      s.writeMat op = s.updStr op.sid fun _ => { z' with fpflags := z.fpflags ||| op.flags.setWidth 32 } := by
  obtain ⟨z', e, h⟩ := State.writeRegs_room hn op.regs hz ht hr
  have hsid : z'.sid = z.sid := by rw [h.only]
  have hfp : z'.fpflags = z.fpflags := by rw [h.only]
  refine ⟨z', h, ?_⟩
  rw [State.writeMat, e, State.orFlags_eq (State.str?_updStr hz (fun _ => z') hsid), if_pos hf,
    State.updStr_updStr hz (fun _ => z') _ hsid, hfp]

/-- Every operation that ends with its check passed writes its results and its flags. `MatWrites` asks for `op.chk && (bad1 = false)`, a
checked operation; the lemmas above serve one that is not checked as well. -/
theorem matWrites (op : MatOp) : MatWrites op := by
  intro s core q bad1 bad2 z t hrun hz ht htid hroom hchk hflags hnodup hregs
  have hpass : (op.chk && bad1) = false := by
    obtain ⟨-, hbad⟩ := Bool.and_eq_true_iff.1 hchk
    rw [of_decide_eq_true hbad, Bool.and_false]
  obtain ⟨z', h, e⟩ := State.writeMat_room (s := s.putQuarter { s.quarter core q with run := none }) hz ht hroom hflags hnodup
  refine ⟨{ z' with fpflags := z.fpflags ||| op.flags.setWidth 32 }, ?_, congrArg (fun y : Str =>
    { y with fpflags := z.fpflags ||| op.flags.setWidth 32 }) h.only, h.bag, fun e he => ?_, h.kept⟩
  · rw [exec_matrixOpComplete_passes hrun hpass, e, State.settleOverflow_self (t := t) _ hroom.1]
    exact htid ▸ State.troop?_own ht
  · rw [h.taken e he]
    cases hx : (z.lane (e.1 % 32)).exited <;> simp [hregs e he]

/-- Settles O41, by the end of an operation that passes, of one that fails twice, and of none. -/
theorem matrixOperationsComplete : Obligations.MatrixOperationsComplete := by
  refine ⟨matWrites, ?_, fun s core q bad1 bad2 h => exec_matrixOpComplete_idle h bad1 bad2⟩
  intro s core q op z t hrun hz ht htid hover hchk htrap hlive x count s'
  have ht' : s'.troop? op.tid = some t := htid ▸ State.troop?_own ht
  have hx : exec (.matrixOpComplete core q true true) s = .next (((if op.dead then s' else
      s'.lateFault op.sid .uncorrectableMemory op.pc 0 op.depth op.trap).settleOverflow op.tid).settleQuarters core) :=
    exec_matrixOpComplete_fails hrun ht' hchk
  refine ⟨fun hdead => ?_, fun hdead => ?_⟩
  · rw [hx, if_pos hdead, State.settleOverflow_self ht' hover]
  · rw [hx, if_neg (by simp [hdead]), htrap, State.lateFault_queued (s := s') hz hlive, State.settleOverflow_self _ hover]
    exact ht'

end Sys2Proof.Machine
end

section
/-! PROOFS. MMA, MMAJ and MLEASE at issue (O40): the registers that a destination range records, the operation that an MMA queues, the
member that an MMAJ latches and what joins its set, and the requests of MLEASE. -/

namespace Sys2Proof.Machine

open Sys2Proof.Claims

/-! ### An issue that leaves the troops alone -/

section
variable {s u : State} {i : Instr} {c : Cur} {z : Str} {t : Troop} {chk : Cur → Str → Troop → Bool}
  {body : Cur → Str → Troop → State}

theorem exec_of_effect (hx : exec i s = s.issue i chk body) (h : Issues s i c z t) (ho : t.overflow = false) (hc : chk c z t = true)
    (hb : body c z t = u) (hu : u.troops = s.troops) : exec i s = .next u := by
  subst hb
  rw [hx, State.issue_done h chk body hc (State.troop?_of_troops hu (issues_tid h)) ho]

theorem held_of_effect (hx : exec i s = s.issue i chk body) (h : Issues s i c z t) (ho : t.overflow = false) (hc : chk c z t = true)
    (hb : body c z t = s.hold) : Held s c i := by
  rw [State.hold, h.cur] at hb
  exact exec_of_effect hx h ho hc hb rfl

end

/-! ### The saddlebag takes a destination range (R152) -/

theorem State.recordRange_room {s : State} {sid d first : Nat} {z : Str} {t : Troop} (hz : s.str? sid = some z)
    (ht : s.troop? z.tid = some t) (n : Nat) : ∀ k, Room z t (k + n) →
    ∃ bag, s.recordRange sid d first n = (s.updStr sid fun _ => { z with bag := bag }) ∧ (t.depth = 0 → bag = z.bag) ∧
      Room { z with bag := bag } t k := by
  induction n with
  | zero => exact fun k hr => ⟨z.bag, (State.updStr_self hz).symm, fun _ => rfl, hr⟩
  | succ n ih =>
    intro k hr
    obtain ⟨bag, e1, b1, r1⟩ := ih (k + 1) (by rwa [Nat.succ_add_eq_add_succ])
    have hz1 : (s.updStr sid fun _ => { z with bag := bag }).str? sid = some { z with bag := bag } :=
      State.str?_updStr hz (fun _ => { z with bag := bag }) rfl
    obtain ⟨bag', e2, b2, r2⟩ := State.record_room (d := d) (key := .v (first + n)) (prior := (·.vall (first + n))) hz1 ht r1
    refine ⟨bag', ?_, fun hd => (b2 hd).trans (b1 hd), r2⟩
    rw [State.recordRange] at e1
    rw [State.recordRange, List.range_succ, List.foldl_append, e1, List.foldl_cons, List.foldl_nil, e2,
      State.updStr_updStr hz (fun _ => { z with bag := bag }) _ rfl]

/-- An issue with a participant records its destination range, one without records nothing (R141, R152). -/
theorem State.recordIssue_room {s : State} {c : Cur} {z : Str} {t : Troop} {n : Nat} (hz : s.str? c.sid = some z)
    (ht : s.troop? z.tid = some t) (hr : Room z t n) (d : Nat) :
    ∃ z', (if c.parts = 0 then s else s.recordRange z.sid t.depth d n) = (s.updStr c.sid fun _ => z') ∧
      z' = { z with bag := z'.bag } ∧ (t.depth = 0 → z'.bag = z.bag) := by
  split
  · exact ⟨z, (State.updStr_self hz).symm, rfl, fun _ => rfl⟩
  · obtain ⟨bag, e, hb, -⟩ := State.recordRange_room (d := t.depth) (first := d) hz ht n 0 (by rwa [Nat.zero_add])
    exact ⟨{ z with bag := bag }, (congrArg (s.recordRange · t.depth d n) (State.str_sid hz)).trans e, rfl, hb⟩

/-! ### MMA (R139 to R142) -/

/-- The operation that an MMA queues: with no participant it reads and writes nothing (R141). -/
def mmaOp (c : Cur) (z : Str) (t : Troop) (o : Operands) (id : Nat) : MatOp :=
  { matOpOf c z t id 1 with
    writes := if c.parts = 0 then [] else (mmaResults c z o).1
    regs := if c.parts = 0 then [] else (List.range 16).map (o.d.toNat + ·)
    flags := if c.parts = 0 then 0 else (mmaResults c z o).2 }

/-- With room at its slice an MMA records its destination and queues its operation. -/
theorem exec_mma_queues {s : State} {c : Cur} {z : Str} {t : Troop} {o : Operands} (h : Issues s (.mma o) c z t) (hr : Room z t 16)
    (hq : ¬ 2 ≤ s.matQueued z.core z.slice) :
    ∃ z', exec (.mma o) s =
        .next (({ s with nextId := s.nextId + 1 }.updStr c.sid fun _ => z').queueMat z.core (mmaOp c z t o s.nextId)) ∧
      z' = { z with bag := z'.bag } ∧ (t.depth = 0 → z'.bag = z.bag) := by
  obtain ⟨z', e, hz', hb⟩ := State.recordIssue_room (s := s.fresh.2) h.str h.troop hr o.d.toNat
  refine ⟨z', exec_of_effect rfl h hr.1 rfl ((if_neg hq).trans ?_) (State.queueMat_troops _ _ _), hz', hb⟩
  change _ = (s.fresh.2.updStr c.sid fun _ => z').queueMat z.core (mmaOp c z t o s.nextId)
  rw [← e, mmaOp]
  by_cases hp : c.parts = 0
  · simp only [if_pos hp]
    rfl
  · simp only [if_neg hp]
    rfl

/-! ### MMAJ (R143, R144) -/

/-- The member that an MMAJ latches. -/
def pendOf (c : Cur) (z : Str) (t : Troop) (o : Operands) (id : Nat) : PendJ :=
  let row := fun (first n l : Nat) => (List.range n).map fun i => z.vreg (first + i) l
  let sh := matShape o.ty
  { id := id, sid := z.sid, tid := t.tid, set := z.idx / 4, num := t.mmajCount z.idx, ty := o.ty, pc := c.pc, depth := t.depth
    trap := c.trap, parts := c.parts, dst := o.d.toNat, spec := o.spec, ftz := z.ftz, enabled := z.enabled, chk := z.chksum
    aRegs := (List.range 32).map (row o.a.toNat sh.2.2.1), bRegs := (List.range 32).map (row o.b.toNat sh.2.2.2)
    sRegs := (List.range 32).map (row o.c.toNat 2), acc := (List.range 32).map (row o.d.toNat 64) }

/-- The string is that of index `i` in its troop. -/
def State.hasIdx (s : State) (sid i : Nat) : Bool := match s.str? sid with | some y => y.idx == i | none => false

/-- The latched MMAJ of string `q` of the joint set, of the same number as the one that string `z` issues. -/
def State.memberOf (s : State) (z : Str) (t : Troop) (q : Nat) : Option PendJ :=
  s.pendJ.find? fun x => x.tid == t.tid && x.num == t.mmajCount z.idx && x.set == z.idx / 4 &&
    s.hasIdx x.sid (4 * (z.idx / 4) + q)

/-- An MMAJ is latched and counted. -/
def State.latch (s : State) (c : Cur) (z : Str) (t : Troop) (o : Operands) (id : Nat) : State :=
  { s with pendJ := s.pendJ ++ [pendOf c z t o id] }.updTroop t.tid fun x =>
    { x with mmaj := (z.idx, t.mmajCount z.idx + 1) :: x.mmaj.filter (·.1 != z.idx) }

/-- What follows once an MMAJ of string `z` is latched: its set joins when it is complete. -/
def State.joinSet (s : State) (z : Str) (t : Troop) (id : Nat) : State :=
  let ms := (List.range 4).filterMap (s.memberOf z t)
  if ms.length = 4 then s.formJoint z.core ms id else s.failRetiredJoint t (z.idx / 4)

theorem exec_mmaj_eq {s : State} {c : Cur} {z : Str} {t : Troop} {o : Operands} (h : Issues s (.mmaj o) c z t)
    (hj : z.idx < 4 * t.joint) (hq : ¬ 2 ≤ s.matQueued z.core z.slice) : exec (.mmaj o) s =
      .next ((((if c.parts = 0 then s.fresh.2 else s.fresh.2.recordRange z.sid t.depth o.d.toNat 64).latch c z t o s.nextId).joinSet
        z t s.nextId).settleOverflow t.tid) := by
  change execMmaj o s = _
  rw [execMmaj, State.issue_next h _ _ (decide_eq_true hj), if_neg hq]
  rfl

section
variable {s : State} {z : Str} {t : Troop} (n : Nat)

theorem State.joinSet_complete {ms : List PendJ} (hm : (List.range 4).map (s.memberOf z t) = ms.map some) :
    s.joinSet z t n = s.formJoint z.core ms n := by
  have hms : (List.range 4).filterMap (s.memberOf z t) = ms := by
    simpa only [List.filterMap_map, Function.id_comp, Function.comp_def, id, List.filterMap_some] using congrArg (List.filterMap id) hm
  have hlen : ms.length = 4 := by simpa using (congrArg List.length hm).symm
  rw [State.joinSet, hms, if_pos hlen]

/-- An MMAJ whose set is not complete waits, while no member has retired. -/
theorem State.joinSet_waits (hm : ∃ q < 4, s.memberOf z t q = none)
    (hr : ∀ y ∈ s.strs, y.tid = t.tid → y.idx / 4 = z.idx / 4 → y.retired = false) : s.joinSet z t n = s := by
  have hlen : ((List.range 4).filterMap (s.memberOf z t)).length < 4 := by
    obtain ⟨q, hq, hnone⟩ := hm
    exact List.length_filterMap_lt_length_iff_exists.2 ⟨q, List.mem_range.2 hq, hnone⟩
  have hret : (s.strsOf t.tid).any (fun y => y.idx / 4 == z.idx / 4 && y.retired) = false := by
    simp only [State.strsOf, List.any_eq_false, List.mem_filter, Bool.and_eq_true, beq_iff_eq, not_and, Bool.not_eq_true, and_imp]
    exact hr
  rw [State.joinSet, if_neg hlen.ne, State.failRetiredJoint, hret, if_neg Bool.false_ne_true]

end

theorem State.hasIdx_updStr {s : State} {sid : Nat} {y y' : Str} (hy : s.str? sid = some y) (hsid : y'.sid = y.sid)
    (hidx : y'.idx = y.idx) (n i : Nat) : (s.updStr sid fun _ => y').hasIdx n i = s.hasIdx n i := by
  by_cases hn : n = sid
  · subst hn
    simp only [State.hasIdx, State.str?_updStr hy (fun _ => y') hsid, hy, hidx]
  · have hother : (s.updStr sid fun _ => y').str? n = s.str? n := by
      refine find_updFirst_ne _ _ _ _ fun x hx => ?_
      rw [hsid, State.str_sid hy, beq_iff_eq.1 hx]
      simp [Ne.symm hn]
    simp only [State.hasIdx, hother]

theorem State.memberOf_updStr {s : State} {sid : Nat} {y y' : Str} (hy : s.str? sid = some y) (hsid : y'.sid = y.sid)
    (hidx : y'.idx = y.idx) (z : Str) (t : Troop) : (s.updStr sid fun _ => y').memberOf z t = s.memberOf z t := by
  funext q
  simp only [State.memberOf, State.hasIdx_updStr hy hsid hidx, State.updStr_pendJ]

theorem mem_updFirst_const {α : Type} {p : α → Bool} {a x : α} {xs : List α} (h : x ∈ updFirst p (fun _ => a) xs) : x = a ∨ x ∈ xs := by
  induction xs with
  | nil => exact absurd h List.not_mem_nil
  | cons y ys ih =>
    rw [updFirst] at h
    split at h <;> rcases List.mem_cons.1 h with h | h
    · exact .inl h
    · exact .inr (List.mem_cons_of_mem y h)
    · exact .inr (h ▸ List.mem_cons_self)
    · exact (ih h).imp_right (List.mem_cons_of_mem y)

theorem State.troop?_latch {s : State} {t : Troop} (ht : s.troop? t.tid = some t) (c : Cur) (z : Str) (o : Operands) (id : Nat) :
    (s.latch c z t o id).troop? t.tid =
      some { t with mmaj := (z.idx, t.mmajCount z.idx + 1) :: t.mmaj.filter (·.1 != z.idx) } :=
  find_updFirst_self _ _ _ _ ht (beq_self_eq_true t.tid)

/-- With room at its slice an MMAJ of a joint set is latched; then its set waits for the others, or joins. -/
theorem exec_mmaj_latches {s : State} {c : Cur} {z : Str} {t : Troop} {o : Operands} (h : Issues s (.mmaj o) c z t)
    (hr : Room z t 64) (hj : z.idx < 4 * t.joint) (hq : ¬ 2 ≤ s.matQueued z.core z.slice) :
    let member := { s with pendJ := s.pendJ ++ [pendOf c z t o s.nextId] }.memberOf z t
    ∃ z', z' = { z with bag := z'.bag } ∧ (t.depth = 0 → z'.bag = z.bag) ∧
      let u := (s.fresh.2.updStr c.sid fun _ => z').latch c z t o s.nextId
      ((∃ q < 4, member q = none) → (∀ y ∈ s.strs, y.tid = t.tid → y.idx / 4 = z.idx / 4 → y.retired = false) →
        exec (.mmaj o) s = .next u) ∧
      ∀ ms, (List.range 4).map member = ms.map some →
        exec (.mmaj o) s = .next ((u.formJoint z.core ms s.nextId).settleOverflow t.tid) := by
  intro member
  obtain ⟨z', e, hz', hb⟩ := State.recordIssue_room (s := s.fresh.2) h.str h.troop hr o.d.toNat
  refine ⟨z', hz', hb, ?_⟩
  intro u
  have hx := exec_mmaj_eq h hj hq
  rw [e] at hx
  have hmem : u.memberOf z t = member :=
    State.memberOf_updStr (s := { s with pendJ := s.pendJ ++ [pendOf c z t o s.nextId] }) h.str (by rw [hz']) (by rw [hz']) z t
  refine ⟨fun hnone hret => ?_, fun ms hms => ?_⟩
  · have htroop : (s.fresh.2.updStr c.sid fun _ => z').troop? t.tid = some t := issues_tid (s := s) h
    have hret' : ∀ y ∈ u.strs, y.tid = t.tid → y.idx / 4 = z.idx / 4 → y.retired = false := by
      intro y hy htid hset
      rcases mem_updFirst_const hy with rfl | hy
      · rw [hz']
        exact hret z (List.mem_of_find?_eq_some h.str) (State.troop_tid h.troop).symm rfl
      · exact hret y hy htid hset
    rw [hx, State.joinSet_waits s.nextId (hmem ▸ hnone) hret',
      State.settleOverflow_self (s := u) (State.troop?_latch htroop ..) hr.1]
  · rw [hx, State.joinSet_complete s.nextId (hmem ▸ hms)]

/-! ### MLEASE (R148) -/

section
variable {s : State} {c : Cur} {z : Str} {t : Troop} {o : Operands} (h : Issues s (.mlease o) c z t) (ho : t.overflow = false)
include h ho

theorem exec_mlease_idle (hp : c.parts = 0) : exec (.mlease o) s = .next s :=
  exec_of_effect rfl h ho rfl (if_pos hp) rfl

theorem exec_mlease_acq (hp : c.parts ≠ 0) (hf : o.fn = 0) : exec (.mlease o) s =
    .next ((s.putQuarter ((s.quarter z.core (quarterOf z.slice)).request
      { tid := t.tid, acq := true, slice := z.slice, clock := s.clock })).settleQuarters z.core) :=
  exec_of_effect rfl h ho rfl ((if_neg hp).trans (if_pos hf)) (State.settleQuarters_troops _ _)

theorem exec_mlease_rel_holder (hp : c.parts ≠ 0) (hf : o.fn ≠ 0) (hh : (s.quarter z.core (quarterOf z.slice)).holder = some t.tid) :
    exec (.mlease o) s =
      .next ((s.putQuarter { s.quarter z.core (quarterOf z.slice) with rel := some s.nextId }).settleQuarters z.core) :=
  exec_of_effect rfl h ho rfl ((if_neg hp).trans ((if_neg hf).trans (if_pos hh))) (State.settleQuarters_troops _ _)

theorem exec_mlease_rel_wants (hp : c.parts ≠ 0) (hf : o.fn ≠ 0) (hh : (s.quarter z.core (quarterOf z.slice)).holder ≠ some t.tid)
    (hw : (s.quarter z.core (quarterOf z.slice)).wants t.tid = true) : exec (.mlease o) s = .next s :=
  exec_of_effect rfl h ho rfl ((if_neg hp).trans ((if_neg hf).trans ((if_neg hh).trans (if_pos hw)))) rfl

theorem exec_mlease_rel_withdraws (hp : c.parts ≠ 0) (hf : o.fn ≠ 0)
    (hh : (s.quarter z.core (quarterOf z.slice)).holder ≠ some t.tid)
    (hw : (s.quarter z.core (quarterOf z.slice)).wants t.tid = false) : exec (.mlease o) s =
      .next (s.putQuarter { s.quarter z.core (quarterOf z.slice) with
        queue := (s.quarter z.core (quarterOf z.slice)).queue.filter fun r => !(r.tid == t.tid && r.acq) }) :=
  exec_of_effect rfl h ho rfl ((if_neg hp).trans ((if_neg hf).trans ((if_neg hh).trans (if_neg (by simp [hw]))))) rfl

end

/-- Settles O40: MMA and MMAJ wait, queue and latch by the lemmas of each, and MLEASE by its cases. -/
theorem matrixIssue : Obligations.MatrixIssue := by
  refine ⟨?_, ?_, ?_, ?_, ?_, ?_⟩
  · exact fun o s c z t h ho hq => held_of_effect rfl h ho rfl (if_pos hq)
  · intro o s c z t h hr hq op
    exact ⟨matWrites op, exec_mma_queues h hr hq⟩
  · exact fun o s c z t h ho hj hq => held_of_effect rfl h ho (decide_eq_true hj) (if_pos hq)
  · intro o s c z t h hr hj hq num row sh p member
    obtain ⟨z', hz', hb, hwaits, hforms⟩ := exec_mmaj_latches h hr hj hq
    exact ⟨z', hz', hb, hwaits, fun ms hms => ⟨hforms ms hms, fun op _ => matWrites op⟩⟩
  · intro o s c z t h ho hd hj
    exact raise_illegal rfl h.cur h.str h.troop hd (by rw [decide_eq_false (Nat.not_lt.2 hj), Bool.and_false])
  · intro o s c z t h ho x
    exact ⟨exec_mlease_idle h ho, exec_mlease_acq h ho, exec_mlease_rel_holder h ho, exec_mlease_rel_wants h ho,
      exec_mlease_rel_withdraws h ho⟩

end Sys2Proof.Machine
end

section
/-! PROOFS. The answers to the lines of an access (O27), of which the reading of a load's line fails as in O22. -/

namespace Sys2Proof.Machine

/-- Refutes O27: `LineReads` fails for the load of `LostLoad`, whose troop ends as its line is read, so that the access that has its id
afterwards takes the bytes that its own string sees. -/
theorem not_linesAreAnswered : ¬ Obligations.LinesAreAnswered := fun h => LostLoad.not_lineReads (h.2.2.1 _ rfl)

end Sys2Proof.Machine
end

section
/-! PROOFS. LDS, STS and ATOMS (O30): what a write of scratchpad bytes leaves of the troop while its saddlebag has room, and the lanes of an
ATOMS one after the other. -/

namespace Sys2Proof.Machine

open Sys2Proof.Claims

/-! ### A change of a troop -/

section
variable {s : State} {tid : Nat} {t : Troop} (h : s.troop? tid = some t)
include h

theorem State.updTroop_const (f : Troop → Troop) : s.updTroop tid f = s.updTroop tid fun _ => f t := by
  simp only [State.updTroop]
  rw [updFirst_of_find _ f _ t h]

theorem State.updTroop_self : (s.updTroop tid fun _ => t) = s := by
  simp only [State.updTroop]
  rw [updFirst_self _ _ t h]

theorem State.troop?_updTroop (f : Troop → Troop) (hf : (f t).tid = t.tid) : (s.updTroop tid f).troop? tid = some (f t) :=
  find_updFirst_self _ f s.troops t h (by simp [hf, State.troop_tid h])

theorem State.updTroop_updTroop (f g : Troop → Troop) (hf : (f t).tid = t.tid) :
    (s.updTroop tid f).updTroop tid g = s.updTroop tid fun _ => g (f t) := by
  rw [State.updTroop_const h f]
  simp only [State.updTroop]
  rw [updFirst_updFirst]
  · rfl
  · intro x _
    simp [hf, State.troop_tid h]

end

/-! ### Bytes of the scratchpad (R246, R421) -/

/-- The troop's saddlebag has room for `n` more words, or no block is open. -/
def WordRoom (t : Troop) (n : Nat) : Prop :=
  t.overflow = false ∧ (t.depth = 0 ∨ (t.words.filter fun e => !e.spilled).length + n ≤ 1024)

/-- The troop `u` is `t` but for its scratchpad and the words recorded of it. -/
def SameButScratch (t u : Troop) : Prop := u = { t with scratch := u.scratch, words := u.words }

theorem SameButScratch.trans {t u v : Troop} (h : SameButScratch t u) (k : SameButScratch u v) : SameButScratch t v := by
  rw [SameButScratch, k, h]

theorem scrWrite_nil (m : Nat → Byte) : scrWrite m [] = m := rfl

/-- The first write is under the others. -/
theorem scrWrite_cons (m : Nat → Byte) (e : Nat × Byte) (es : List (Nat × Byte)) :
    scrWrite m (e :: es) = scrWrite (fun a => if a = e.1 then e.2 else m a) es := by
  funext a
  simp only [scrWrite, List.reverse_cons, List.find?_append]
  cases es.reverse.find? (·.1 == a) with
  | some x => rfl
  | none =>
    by_cases ha : a = e.1
    · simp [ha]
    · simp [ha, Ne.symm ha]

/-- With room for one more word, a record changes the recorded words alone. -/
theorem Troop.recordWord_room {t : Troop} {n : Nat} (h : WordRoom t (n + 1)) (w : Nat) :
    ∃ words, t.recordWord w = { t with words := words } ∧ WordRoom { t with words := words } n := by
  obtain ⟨ho, hr⟩ := h
  unfold Troop.recordWord
  split
  · exact ⟨t.words, rfl, ho, hr.imp_right Nat.le_of_succ_le⟩
  next hnew =>
    have hd : t.depth ≠ 0 := fun hd => hnew (by simp [hd])
    have hroom := hr.resolve_left hd
    rw [if_pos (by omega)]
    refine ⟨_, rfl, ho, .inr ?_⟩
    have hnot : ({ word := w, tag := t.depth, val := t.scratchWord w } : WordEnt).spilled = false := rfl
    simp only [List.filter_append, List.filter_cons, hnot, List.filter_nil, List.length_append]
    simp only [Bool.not_false, if_true, List.length_cons, List.length_nil]
    omega

/-- With room for a word of each byte, a write of bytes leaves them in their places and changes nothing else but the recorded words. -/
theorem Troop.putScratch_room (es : List (Nat × Byte)) : ∀ {t : Troop} {n : Nat}, WordRoom t (es.length + n) →
    SameButScratch t (t.putScratch es) ∧ WordRoom (t.putScratch es) n ∧ (t.putScratch es).scratchByte = scrWrite t.scratchByte es := by
  induction es with
  | nil => exact fun {t n} h => ⟨rfl, by rwa [List.length_nil, Nat.zero_add] at h, rfl⟩
  | cons e es ih =>
    intro t n h
    obtain ⟨words, hrec, hroom⟩ := Troop.recordWord_room (n := es.length + n) (by rwa [List.length_cons, Nat.succ_add] at h) (e.1 / 4)
    obtain ⟨same, room, bytes⟩ := ih (t := { t with words := words, scratch := Cells.set 0 t.scratch e.1 e.2 }) hroom
    have hput : t.putScratch (e :: es) = Troop.putScratch { t with words := words, scratch := Cells.set 0 t.scratch e.1 e.2 } es := by
      rw [Troop.putScratch, hrec]
    have hbyte : (fun a => if a = e.1 then e.2 else t.scratchByte a) =
        ({ t with words := words, scratch := Cells.set 0 t.scratch e.1 e.2 } : Troop).scratchByte := by
      funext a
      simp only [Troop.scratchByte, Cells.get_set]
    rw [hput, scrWrite_cons, hbyte]
    exact ⟨SameButScratch.trans (u := { t with words := words, scratch := Cells.set 0 t.scratch e.1 e.2 }) rfl same, room, bytes⟩

/-! ### The checks before a write (R234, R175) -/

/-- With no node of the troop to force, a write may go on. -/
theorem State.guard_free {s : State} {tid : Nat} (h : ∀ x ∈ s.nodes, x.tid ≠ tid) (box : Node → List (Int × Int)) (f : Force)
    (ranges : List (Int × Int)) : s.guard tid box f ranges = (s, true) := by
  have hno : s.nodesOver tid box ranges = [] := by
    rw [State.nodesOver, List.filter_eq_nil_iff]
    intro x hx
    simp [h x hx]
  simp [State.guard, hno]

section
variable {s : State} {c : Cur} {t : Troop} {places : List Nat} {go : State → State}

theorem State.checkedScratch_waits (h : s.loadsDone c.sid s.nextId c.parts = false) : s.checkedScratch c t places go = s.hold := by
  simp [State.checkedScratch, h]

theorem State.checkedScratch_goes (h : s.loadsDone c.sid s.nextId c.parts = true) (hn : NothingForced s c t) :
    s.checkedScratch c t places go = go s := by
  obtain ⟨hnodes, hflags⟩ := hn
  have hmap : (s.nodes.map fun (x : Node) => { x with forcers := x.forcers.filter (· != c.sid) }) = s.nodes := by
    refine (List.map_congr_left fun x hx => ?_).trans (List.map_id _)
    have hkept : x.forcers.filter (· != c.sid) = x.forcers := List.filter_eq_self.2 fun n hn => by
      rw [bne_iff_ne]
      rintro rfl
      have hfree := (hnodes x hx).2
      simp [hn] at hfree
    rw [hkept]
    rfl
  simp only [State.checkedScratch, h, State.guardScratch, State.guard_free fun x hx => (hnodes x hx).1, hmap, Bool.not_true,
    Bool.false_eq_true, if_false]
  exact congrArg go (State.takeFlags_self hflags)

/-- With no participant the write is of nothing. -/
theorem State.scratch_goes (h : s.loadsDone c.sid s.nextId c.parts = true) (hn : NothingForced s c t) (h0 : c.parts = 0 → go s = s) :
    (if c.parts = 0 then s else s.checkedScratch c t places go) = go s := by
  split
  next hc => exact (h0 hc).symm
  next => exact State.checkedScratch_goes h hn

theorem parts_ne_zero_of_waits (h : s.loadsDone c.sid s.nextId c.parts = false) : c.parts ≠ 0 := by
  intro hc
  simp [State.loadsDone, hc] at h

end

/-! ### LDS (R263) -/

/-- An instruction whose effect is a write of vector registers alone. -/
theorem VResult.of_writes {i : Instr} {k : Nat} {pre : Cur → Str → Troop → Prop} {after : Cur → Str → Troop → Nat → Nat → Option Word}
    {body : State → Cur → Str → Troop → State} (wr : Cur → Str → Troop → State → State)
    (hx : ∀ s, exec i s = s.issue i noCheck (body s)) (hb : ∀ s c z t, pre c z t → body s c z t = wr c z t s)
    (hw : ∀ c z t, WritesV c t k (wr c z t) (after c z t)) : VResult i k pre (fun _ _ _ => 0) after := by
  intro s c z t h hr hp _
  obtain ⟨z', e, kept, bag, v⟩ := hw c z t s z h.str h.troop hr
  exact ⟨z', exec_of_body hx h hr.1 ((hb s c z t hp).trans e), ⟨by rw [or_noFlags]; exact kept, bag⟩, v⟩

/-- The bytes that a scratchpad instruction accesses for each lane. -/
def scrWidth (o : Operands) : Nat := if o.spec then 16 else o.ty.width / 8

/-- The fault of a scratchpad instruction (R191). -/
def lanesFault (c : Cur) (z : Str) (t : Troop) (o : Operands) (w : Nat) : Option Cause := scrFault (c.lanes.map (scrOf t z o w))

/-- Each lane with the places that it accesses. -/
def lanesPlaces (c : Cur) (z : Str) (t : Troop) (o : Operands) (w : Nat) : List (Nat × List Nat) :=
  c.lanes.map fun l => (l, (scrOf t z o w l).places)

theorem exec_lds (o : Operands) (s : State) : exec (.lds o) s = s.issue (.lds o) noCheck fun c z t =>
    match lanesFault c z t o (scrWidth o) with
    | some f => s.raise c f
    | none =>
      if o.spec then s.writeRange c z o.d.toNat (c.lanes.map fun l => (l, (List.range 4).map fun i =>
        t.readScratch (((scrOf t z o (scrWidth o) l).places.drop (4 * i)).take 4))) 4
      else s.writeVal c.sid t.depth o.ty o.d.toNat (c.lanes.map fun l =>
        (l, o.ty.regBits (t.readScratch (scrOf t z o (scrWidth o) l).places))) := by
  change execLds o s = _
  simp only [execLds, List.map_map, Function.comp_def]
  rfl

/-- What the STS of a bundle writes: the bytes of each lane in their places. -/
def stsBytes (c : Cur) (z : Str) (t : Troop) (o : Operands) : List (Nat × Byte) :=
  (lanesPlaces c z t o (scrWidth o)).flatMap fun r => r.2.zip (bytesOf (scrWidth o) (stsVal z o r.1))

theorem exec_sts (o : Operands) (s : State) : exec (.sts o) s = s.issue (.sts o) noCheck fun c z t =>
    match lanesFault c z t o (scrWidth o) with
    | some f => s.raise c f
    | none =>
      if c.parts = 0 then s
      else s.checkedScratch c t ((lanesPlaces c z t o (scrWidth o)).flatMap (·.2)) fun s => s.writeScratch t.tid (stsBytes c z t o) := by
  change execSts o s = _
  simp only [execSts, stsBytes, lanesPlaces, List.map_map, List.flatMap_map, Function.comp_def]
  rfl

/-- The operands of the lanes of an ATOMS, with their places. -/
def atomsArgs (c : Cur) (z : Str) (t : Troop) (o : Operands) : List (Nat × List Nat × Nat) :=
  (lanesPlaces c z t o (o.ty.width / 8)).map fun r => (r.1, r.2, z.vval o.ty o.c.toNat r.1)

/-- What the ATOMS of a bundle does to the scratchpad and to D. -/
def State.actScratch (s : State) (c : Cur) (z : Str) (t : Troop) (o : Operands) : State :=
  let r := s.atomsLanes t.tid o (o.ty.width / 8) (atomsArgs c z t o)
  r.1.writeVal c.sid t.depth o.ty o.d.toNat (r.2.map fun r => (r.1, o.ty.regBits r.2))

theorem exec_atoms (o : Operands) (s : State) : exec (.atoms o) s = s.issue (.atoms o) noCheck fun c z t =>
    match lanesFault c z t o (o.ty.width / 8) with
    | some f => s.raise c f
    | none =>
      if c.parts = 0 then s
      else s.checkedScratch c t ((lanesPlaces c z t o (o.ty.width / 8)).flatMap (·.2)) fun s => s.actScratch c z t o := by
  change execAtoms o s = _
  simp only [execAtoms, State.actScratch, atomsArgs, lanesPlaces, List.flatMap_map, List.map_map, Function.comp_def]
  rfl

/-- LDS reads the scratchpad at issue and writes one operand of each lane, or four registers. -/
theorem lds_reads_range {o : Operands} (hs : o.spec = true) : VResult (.lds o) 4 (fun c z t => lanesFault c z t o 16 = none)
    (fun _ _ _ => 0) fun _ z t n l => rangeDest o.d.toNat
      ((List.range 4).map fun i => t.readScratch (((scrOf t z o 16 l).places.drop (4 * i)).take 4)) n := by
  have hw : scrWidth o = 16 := if_pos hs
  refine VResult.of_writes _ (exec_lds o) (fun s c z t hf => ?_) fun c z t =>
    writesV_writeRange c z t o.d.toNat 4 _ fun l _ => List.length_map _
  simp only [hw, hf, hs, if_true]

theorem lds_reads_one {o : Operands} (hs : o.spec = false) :
    VResult (.lds o) 2 (fun c z t => lanesFault c z t o (o.ty.width / 8) = none) (fun _ _ _ => 0) fun _ z t n l =>
      oneDest o.ty o.d.toNat (o.ty.regBits (t.readScratch (scrOf t z o (o.ty.width / 8) l).places)) n := by
  have hw : scrWidth o = o.ty.width / 8 := if_neg (by simp [hs])
  refine VResult.of_writes _ (exec_lds o) (fun s c z t hf => ?_) fun c z t s y hy ht hr =>
    State.writeVal_room (d := t.depth) (m := c.parts) hy ht hr
  simp only [hw, hf, hs, Bool.false_eq_true, if_false]
  rfl

/-! ### STS (R246) -/

theorem WordRoom.mono {t : Troop} {m n : Nat} (h : WordRoom t n) (hmn : m ≤ n) : WordRoom t m :=
  ⟨h.1, h.2.imp_right fun hr => by omega⟩

theorem State.writeScratch_eq {s : State} {t : Troop} (h : s.troop? t.tid = some t) (es : List (Nat × Byte)) :
    s.writeScratch t.tid es = s.updTroop t.tid fun _ => t.putScratch es :=
  State.updTroop_const h _

/-- With no participant there is no place. -/
theorem lanesPlaces_idle {c : Cur} (h : c.parts = 0) (z : Str) (t : Troop) (o : Operands) (w : Nat) : lanesPlaces c z t o w = [] := by
  have hl : c.lanes = [] := by rw [Cur.lanes, h]; decide
  rw [lanesPlaces, hl]; rfl

section
variable {s : State} {c : Cur} {z : Str} {t : Troop} {o : Operands}

theorem exec_sts_writes (h : Issues s (.sts o) c z t) (hf : lanesFault c z t o (scrWidth o) = none) (hn : NothingForced s c t)
    (hd : s.loadsDone c.sid s.nextId c.parts = true) (hr : WordRoom t (stsBytes c z t o).length) :
    exec (.sts o) s = .next (s.updTroop t.tid fun _ => t.putScratch (stsBytes c z t o)) := by
  have ht := issues_tid h
  obtain ⟨same, room, -⟩ := Troop.putScratch_room (n := 0) _ hr
  rw [exec_sts]
  refine (State.issue_next h noCheck _ rfl).trans (congrArg _ ?_)
  simp only [hf]
  rw [State.scratch_goes hd hn, State.writeScratch_eq ht]
  · exact State.settleOverflow_self (State.troop?_updTroop ht _ (by rw [same])) room.1
  · intro hc
    have hnone : stsBytes c z t o = [] := by rw [stsBytes, lanesPlaces_idle hc]; rfl
    rw [State.writeScratch_eq ht, hnone]
    exact State.updTroop_self ht

end

/-! ### ATOMS (R271) -/

/-- The bytes that one lane of an ATOMS writes. -/
def atomsBytes (o : Operands) (old : Nat) (ps : List Nat) (x : Nat) : List (Nat × Byte) :=
  match atomNew .atom o.fn.toNat o.ty old x 0 with
  | some y => ps.zip (bytesOf (o.ty.width / 8) y)
  | none => []

theorem length_atomsBytes_le (o : Operands) (old : Nat) (ps : List Nat) (x : Nat) : (atomsBytes o old ps x).length ≤ ps.length := by
  unfold atomsBytes
  split
  · rw [List.length_zip]
    exact Nat.min_le_left ..
  · exact Nat.zero_le _

theorem atomsRun_cons (o : Operands) (m : Nat → Byte) (l : Nat) (ps : List Nat) (x : Nat) (rs : List (Nat × List Nat × Nat)) :
    atomsRun o m ((l, ps, x) :: rs) =
      let r := atomsRun o (scrWrite m (atomsBytes o (scrRead m ps) ps x)) rs
      (r.1, (l, scrRead m ps) :: r.2) := by
  simp only [atomsRun, atomsBytes]
  cases atomNew .atom o.fn.toNat o.ty (scrRead m ps) x 0 <;> rfl

theorem State.atomsLanes_cons {s : State} {t : Troop} (h : s.troop? t.tid = some t) (o : Operands) (l : Nat) (ps : List Nat) (x : Nat)
    (rs : List (Nat × List Nat × Nat)) : s.atomsLanes t.tid o (o.ty.width / 8) ((l, ps, x) :: rs) =
      let r := (s.updTroop t.tid fun _ => t.putScratch (atomsBytes o (t.readScratch ps) ps x)).atomsLanes t.tid o (o.ty.width / 8) rs
      (r.1, (l, t.readScratch ps) :: r.2) := by
  simp only [State.atomsLanes, atomsBytes, h]
  cases atomNew .atom o.fn.toNat o.ty (t.readScratch ps) x 0 with
  | some y =>
    dsimp only
    rw [State.writeScratch_eq h]
  | none =>
    dsimp only
    rw [show t.putScratch [] = t from rfl, State.updTroop_self h]

/-- The lanes of an ATOMS act on the bytes of the scratchpad one after the other. -/
theorem State.atomsLanes_room (o : Operands) (rs : List (Nat × List Nat × Nat)) : ∀ {s : State} {t : Troop} {n : Nat},
    s.troop? t.tid = some t → WordRoom t ((rs.map fun r => r.2.1.length).sum + n) →
    ∃ t', s.atomsLanes t.tid o (o.ty.width / 8) rs = (s.updTroop t.tid fun _ => t', (atomsRun o t.scratchByte rs).2) ∧
      SameButScratch t t' ∧ WordRoom t' n ∧ t'.scratchByte = (atomsRun o t.scratchByte rs).1 := by
  induction rs with
  | nil => exact fun {s t n} ht hr => ⟨t, by rw [State.updTroop_self ht]; rfl, rfl, by simpa using hr, rfl⟩
  | cons r rs ih =>
    obtain ⟨l, ps, x⟩ := r
    intro s t n ht hr
    have hlen := length_atomsBytes_le o (t.readScratch ps) ps x
    obtain ⟨same, room, bytes⟩ := Troop.putScratch_room (t := t) (atomsBytes o (t.readScratch ps) ps x)
      (n := (rs.map fun r => r.2.1.length).sum + n) (hr.mono (by simp only [List.map_cons, List.sum_cons]; omega))
    generalize hu : t.putScratch (atomsBytes o (t.readScratch ps) ps x) = u at same room bytes
    have htid : u.tid = t.tid := by rw [same]
    have hu1 : (s.updTroop t.tid fun _ => u).troop? u.tid = some u := by
      rw [htid]; exact State.troop?_updTroop ht (fun _ => u) htid
    obtain ⟨t', run, same', room', bytes'⟩ := ih hu1 room
    have hread : t.readScratch ps = scrRead t.scratchByte ps := rfl
    rw [bytes, hread] at run bytes'
    refine ⟨t', ?_, same.trans same', room', by rw [atomsRun_cons]; exact bytes'⟩
    rw [htid, State.updTroop_updTroop ht (fun _ => u) _ htid] at run
    rw [State.atomsLanes_cons ht, hu, atomsRun_cons]
    simp only [run, hread]

/-- Each lane of an ATOMS has one old value. -/
theorem atomsRun_lanes (o : Operands) (rs : List (Nat × List Nat × Nat)) (m : Nat → Byte) :
    (atomsRun o m rs).2.map (·.1) = rs.map (·.1) := by
  induction rs generalizing m with
  | nil => rfl
  | cons r rs ih =>
    obtain ⟨l, ps, x⟩ := r
    rw [atomsRun_cons]
    exact congrArg (l :: ·) (ih _)

theorem atomsArgs_lanes (c : Cur) (z : Str) (t : Troop) (o : Operands) : (atomsArgs c z t o).map (·.1) = c.lanes := by
  simp [atomsArgs, lanesPlaces, Function.comp_def]

section
variable {s : State} {c : Cur} {z : Str} {t : Troop} {o : Operands}

theorem State.actScratch_idle (h : c.parts = 0) : s.actScratch c z t o = s := by
  have hnone : atomsArgs c z t o = [] := by rw [atomsArgs, lanesPlaces_idle h]; rfl
  simp [State.actScratch, hnone, State.atomsLanes, State.writeVal, State.writeV]

theorem State.actScratch_room (hz : s.str? c.sid = some z) (ht : s.troop? z.tid = some t)
    (hw : WordRoom t ((atomsArgs c z t o).map fun r => r.2.1.length).sum) (hr : Room z t 2) :
    let run := atomsRun o t.scratchByte (atomsArgs c z t o)
    ∃ z' t', s.actScratch c z t o = ((s.updTroop t.tid fun _ => t').updStr c.sid fun _ => z') ∧
      SameButScratch t t' ∧ t'.overflow = false ∧ t'.scratchByte = run.1 ∧ onlyV z z' t 0 ∧
      (∀ r ∈ run.2, ∀ n, z'.vreg n r.1 = (oneDest o.ty o.d.toNat (o.ty.regBits r.2) n).getD (z.vreg n r.1)) ∧
      ∀ l < 32, c.parts.getLsbD l = false → ∀ n, z'.vreg n l = z.vreg n l := by
  intro run
  have htz := State.troop_tid ht
  obtain ⟨t', hrun, same, room, bytes⟩ := State.atomsLanes_room o (atomsArgs c z t o) (n := 0) (State.troop?_own ht) hw
  have htid : t'.tid = t.tid := by rw [same]
  have hvals : (run.2.map fun r => (r.1, o.ty.regBits r.2)).map (·.1) = lanesOf c.parts := by
    rw [List.map_map]
    exact (atomsRun_lanes ..).trans (atomsArgs_lanes ..)
  have hmem : ∀ e ∈ run.2.map fun r => (r.1, o.ty.regBits r.2), e.1 < 32 ∧ c.parts.getLsbD e.1 = true := by
    intro e he
    rw [← mem_lanesOf, ← hvals]
    exact List.mem_map_of_mem he
  have ht1 : (s.updTroop t.tid fun _ => t').troop? z.tid = some t' := by
    rw [← htz]
    exact State.troop?_updTroop (State.troop?_own ht) (fun _ => t') htid
  obtain ⟨z', hwrite, kept, bag, vals, others⟩ := State.writeVal_each (s := s.updTroop t.tid fun _ => t') (d := t.depth)
    (n := o.d.toNat) (td := o.ty) hz ht1 (by rw [same]; exact ⟨hr.1, hr.2⟩) (by rw [hvals]; exact nodup_lanesOf _)
    fun e he => (hmem e he).1
  refine ⟨z', t', ?_, same, room.1, bytes, ⟨by rw [or_noFlags]; exact kept, fun h0 => bag (by rw [same]; exact h0)⟩,
    fun r hr => vals _ (List.mem_map_of_mem (f := fun r : Nat × Nat => (r.1, o.ty.regBits r.2)) hr),
    fun l hl hm => others l hl fun e he hel => ?_⟩
  · rw [State.actScratch, hrun]
    exact hwrite
  · have hin := (hmem e he).2
    rw [hel, hm] at hin
    exact Bool.false_ne_true hin

theorem exec_atoms_acts (h : Issues s (.atoms o) c z t) (hf : lanesFault c z t o (o.ty.width / 8) = none) (hn : NothingForced s c t)
    (hd : s.loadsDone c.sid s.nextId c.parts = true) (ho : ∃ t', (s.actScratch c z t o).troop? t.tid = some t' ∧ t'.overflow = false) :
    exec (.atoms o) s = .next (s.actScratch c z t o) := by
  obtain ⟨t', ht', ho'⟩ := ho
  rw [exec_atoms]
  refine (State.issue_next h noCheck _ rfl).trans (congrArg _ ?_)
  simp only [hf]
  rw [State.scratch_goes hd hn State.actScratch_idle]
  exact State.settleOverflow_self ht' ho'

end

/-- Settles O30: LDS by its write of registers, STS and ATOMS by what they leave of the scratchpad, and the faults before each. -/
theorem scratchpadAccesses : Obligations.ScratchpadAccesses := by
  refine ⟨fun o hs => lds_reads_range hs, fun o hs => lds_reads_one hs, fun o f => ?_, ?_, ?_, ?_, fun o f => ?_, ?_, fun o f => ?_⟩
  · exact Traps.of (exec_lds o) fun s c z t _ hf => by
      simp only [show lanesFault c z t o (scrWidth o) = some f from hf]
  · intro o s c z t h ho hf hw
    refine held_of_body (exec_sts o) h ho ?_
    simp only [show lanesFault c z t o (scrWidth o) = none from hf, if_neg (parts_ne_zero_of_waits hw), State.checkedScratch_waits hw]
  · intro o s c z t h ho hf hw
    refine held_of_body (exec_atoms o) h ho ?_
    simp only [show lanesFault c z t o (o.ty.width / 8) = none from hf, if_neg (parts_ne_zero_of_waits hw),
      State.checkedScratch_waits hw]
  · intro o s c z t h hf hn hw es hr
    have hr : WordRoom t (stsBytes c z t o).length := hr
    obtain ⟨same, -, bytes⟩ := Troop.putScratch_room (n := 0) _ hr
    exact ⟨_, exec_sts_writes h hf hn (eq_true_of_ne_false hw) hr, same, congrFun bytes⟩
  · exact Traps.of (exec_sts o) fun s c z t _ hf => by
      simp only [show lanesFault c z t o (scrWidth o) = some f from hf]
  · intro o s c z t h hf hn hw rs run hwr hr
    obtain ⟨z', t', acts, same, ho, bytes, kept, vals, others⟩ := State.actScratch_room (o := o) h.str h.troop hwr hr
    have ht : (s.actScratch c z t o).troop? t.tid = some t' := by
      rw [acts]
      exact State.troop?_updTroop (issues_tid h) (fun _ => t') (by rw [same])
    exact ⟨z', t', acts ▸ exec_atoms_acts h hf hn (eq_true_of_ne_false hw) ⟨t', ht, ho⟩, same, congrFun bytes, kept, vals, others⟩
  · exact Traps.of (exec_atoms o) fun s c z t _ hf => by
      simp only [show lanesFault c z t o (o.ty.width / 8) = some f from hf]

end Sys2Proof.Machine
end

section
/-! SUPPORT. What a walk of the page tables keeps, what a read of DRAM changes, and that a line which the LLC lets go or takes leaves every
byte at home as it was. -/

namespace Sys2Proof.Machine

open Sys2Proof.Claims

/-! ### A translation (R356 to R359) -/

section
variable {R : State → State → Prop} (refl : ∀ s, R s s) (trans : ∀ {s u v}, R s u → R u v → R s v)
include refl trans

/-- What every read of a table keeps, a walk keeps. -/
theorem State.walk_keeps (read : ∀ s pad pa n, R s (State.agentRead s pad pa n).1) (fuel : Nat) : ∀ (s : State) (p : Paddock)
    (table va lvl : Nat), R s (State.walk fuel s p table va lvl).1 := by
  induction fuel with
  | zero => exact fun s _ _ _ _ => refl s
  | succ fuel ih =>
    intro s p table va lvl
    have hread := read s p.n (table + 8 * ((va >>> (46 - 10 * lvl)) % 1024)) 8
    unfold State.walk
    split
    · exact refl s
    split
    · exact refl s
    split
    next u heq => rwa [heq] at hread
    next u bs heq =>
      rw [heq] at hread
      dsimp only
      split
      · exact hread
      split
      · exact hread
      split
      · exact trans hread (ih ..)
      · exact hread

theorem State.translate_keeps (read : ∀ s pad pa n, R s (State.agentRead s pad pa n).1) (tlb : ∀ (s : State) x, R s { s with tlb := x })
    (s : State) (core : Option Nat) (pad : Nat) (secure super : Bool) (kind : AccessKind) (va : Nat) :
    R s (s.translate core pad secure super kind va).1 := by
  unfold State.translate
  split
  · exact refl s
  split
  · exact refl s
  next p _ =>
    have hwalk := State.walk_keeps refl trans read 4 s p (p.root secure) va 0
    dsimp only
    split
    · exact refl s
    split
    next u e lvl heq =>
      rw [heq] at hwalk
      cases core with
      | some c => exact trans hwalk (tlb u _)
      | none => exact hwalk
    all_goals
      next heq =>
        rw [heq] at hwalk
        exact hwalk

end

/-! ### DRAM (R441 to R443) -/

/-- The states with the strings, troops, buffers, accesses, caches and partial lines of `s`: they differ from it at most at its homes and
in its records of errors. -/
structure SameButHome (s u : State) : Prop where
  strs : u.strs = s.strs
  troops : u.troops = s.troops
  lines : u.lines = s.lines
  accs : u.accs = s.accs
  l1 : u.l1 = s.l1
  l2 : u.l2 = s.l2
  partials : u.partials = s.partials

theorem SameButHome.refl (s : State) : SameButHome s s := ⟨rfl, rfl, rfl, rfl, rfl, rfl, rfl⟩

theorem SameButHome.trans {s u v : State} (h : SameButHome s u) (k : SameButHome u v) : SameButHome s v :=
  ⟨k.strs.trans h.strs, k.troops.trans h.troops, k.lines.trans h.lines, k.accs.trans h.accs, k.l1.trans h.l1, k.l2.trans h.l2,
    k.partials.trans h.partials⟩

/-- A change of DRAM with its errors, and of the LLC. -/
theorem SameButHome.atHome (s : State) (m : List Host.Cell) (llc : List LlcLine) (po : List Nat) (us : Cells Nat) :
    SameButHome s { s with mem := m, llc := llc, poison := po, upsets := us } := ⟨rfl, rfl, rfl, rfl, rfl, rfl, rfl⟩

theorem SameButHome.countErr (s : State) (pad : Nat) (f : ErrCounters → ErrCounters) : SameButHome s (s.countErr pad f) :=
  ⟨rfl, rfl, rfl, rfl, rfl, rfl, rfl⟩

theorem SameButHome.listRow (s : State) (line : Nat) : SameButHome s (s.listRow line) := by
  unfold State.listRow
  dsimp only
  repeat' split
  all_goals exact ⟨rfl, rfl, rfl, rfl, rfl, rfl, rfl⟩

theorem SameButHome.noteCorrected (s : State) (line : Nat) : SameButHome s (s.noteCorrected line) := by
  have hseen (seen : List (Nat × Nat)) : SameButHome s { s with ceSeen := seen } := ⟨rfl, rfl, rfl, rfl, rfl, rfl, rfl⟩
  unfold State.noteCorrected
  dsimp only
  split
  · exact (hseen _).trans (.listRow _ line)
  · exact hseen _

theorem SameButHome.readDram (s : State) (pad line : Nat) : SameButHome s (s.readDram pad line).1 := by
  unfold State.readDram
  split
  · dsimp only
    exact .countErr ..
  split
  · exact .refl s
  · dsimp only
    exact ((SameButHome.atHome s _ _ _ _).trans (.noteCorrected _ line)).trans (.countErr ..)
  · dsimp only
    exact ((SameButHome.atHome s _ _ _ _).trans (.listRow _ line)).trans (.countErr ..)

@[simp] theorem State.listRow_llc (s : State) (line : Nat) : (s.listRow line).llc = s.llc := by
  unfold State.listRow
  dsimp only
  split
  · rfl
  · split <;> rfl

@[simp] theorem State.noteCorrected_llc (s : State) (line : Nat) : (s.noteCorrected line).llc = s.llc := by
  unfold State.noteCorrected
  dsimp only
  split
  · exact State.listRow_llc _ _
  · rfl

@[simp] theorem State.countErr_llc (s : State) (pad : Nat) (f : ErrCounters → ErrCounters) : (s.countErr pad f).llc = s.llc := rfl

theorem State.readDram_llc (s : State) (pad line : Nat) : (s.readDram pad line).1.llc = s.llc := by
  unfold State.readDram
  split
  · rfl
  · split <;> simp

theorem State.readDram_data {s : State} {pad line : Nat} {d : BitVec 512} (h : (s.readDram pad line).2 = some d) :
    d = memLine s.mem line := by
  unfold State.readDram at h
  split at h
  · cases h
  split at h
  · exact (Option.some.inj h).symm
  · exact (Option.some.inj h).symm
  · cases h

theorem natOfBytes_div (bs : List Byte) : ∀ i, natOfBytes bs / 256 ^ i % 256 = (bs.getD i 0).toNat := by
  induction bs with
  | nil => exact fun i => by simp [natOfBytes]
  | cons b bs ih =>
    intro i
    have hb := b.isLt
    cases i with
    | zero => simp only [natOfBytes, pow_zero, Nat.div_one, List.getD_cons_zero]; omega
    | succ i =>
      rw [List.getD_cons_succ, ← ih i, pow_succ', ← Nat.div_div_eq_div_mul]
      congr 2
      simp only [natOfBytes]
      omega

/-- A byte of a vector of `k` bytes is that of its number. -/
theorem extractLsb'_ofNat_toNat (n : Nat) {i k : Nat} (hi : i < k) :
    ((BitVec.ofNat (8 * k) n).extractLsb' (8 * i) 8).toNat = n / 256 ^ i % 256 := by
  have hsplit : (2 : Nat) ^ (8 * k) = 256 ^ i * 256 ^ (k - i) := by
    rw [Nat.pow_mul, ← pow_add, Nat.add_sub_cancel' hi.le]
  rw [BitVec.extractLsb'_toNat, BitVec.toNat_ofNat, Nat.shiftRight_eq_div_pow, Nat.pow_mul 2 8 i, hsplit,
    Nat.mod_mul_right_div_self, Nat.mod_mod_of_dvd _ (dvd_pow_self 256 (by omega))]

/-- A byte of a line of memory. -/
theorem lineByte_memLine (m : List Host.Cell) (line : Nat) {i : Nat} (hi : i < 64) :
    lineByte (memLine m line) i = Cells.get 0 m (64 * line + i) := by
  apply BitVec.eq_of_toNat_eq
  refine (extractLsb'_ofNat_toNat (k := 64) _ hi).trans ?_
  rw [natOfBytes_div]
  simp [hi]

theorem lineByte_memLine_div (m : List Host.Cell) (a : Nat) : lineByte (memLine m (a / 64)) (a % 64) = Cells.get 0 m a := by
  rw [lineByte_memLine m _ (Nat.mod_lt a (by decide)), Nat.div_add_mod]

/-- A line that goes to DRAM whole. -/
theorem setMemLine_all (m : List Host.Cell) (line : Nat) (d : BitVec 512) (a : Nat) :
    Cells.get 0 (setMemLine m line allBytes d) a = if a / 64 = line then lineByte d (a % 64) else Cells.get 0 m a := by
  split
  next ha =>
    have hi : a % 64 < 64 := Nat.mod_lt a (by decide)
    have hall : allBytes.getLsbD (a % 64) = true := by rw [allBytes, BitVec.getLsbD_allOnes, decide_eq_true hi]
    have hbyte := setMemLine_masked m line allBytes d (a % 64) hi hall
    rwa [← ha, Nat.div_add_mod, ha] at hbyte
  next ha => exact setMemLine_other m line _ d a ha

/-! ### The LLC (R196 to R198) -/

/-- A byte at home is one of the LLC's line, or of DRAM. -/
theorem homeByte_of_llcLine {s : State} {a : Nat} {l : LlcLine} (h : s.llcLine (a / 64) = some l) :
    homeByte s a = lineByte l.data (a % 64) := by
  rw [homeByte, h]

theorem homeByte_of_none {s : State} {a : Nat} (h : s.llcLine (a / 64) = none) : homeByte s a = Cells.get 0 s.mem a := by
  rw [homeByte, h]

theorem homeByte_congr {s u : State} (hm : u.mem = s.mem) (hl : u.llc = s.llc) (a : Nat) : homeByte u a = homeByte s a := by
  simp only [homeByte, State.llcLine, hm, hl]

theorem llcLine_line {s : State} {line : Nat} {l : LlcLine} (h : s.llcLine line = some l) : l.line = line := by
  simpa using List.find?_some h

/-- Where a line's entries leave the LLC, no other line's do. -/
theorem find?_filter_line (ls : List LlcLine) (line k : Nat) :
    (ls.filter (·.line != line)).find? (·.line == k) = if k = line then none else ls.find? (·.line == k) := by
  rw [List.find?_filter]
  split
  next h => simp [h]
  next h =>
    congr 1
    funext l
    by_cases hl : l.line = k <;> simp [hl, h]

theorem SameButHome.dropLlc (s : State) (line : Nat) : SameButHome s (s.dropLlc line) := by
  unfold State.dropLlc
  split
  · dsimp only
    split
    · exact .atHome ..
    · exact .atHome ..
  · exact .refl s

theorem State.llcLine_dropLlc (s : State) (line k : Nat) :
    (s.dropLlc line).llcLine k = if k = line then none else s.llcLine k := by
  cases hl : s.llcLine line with
  | none =>
    simp only [State.dropLlc, hl]
    split
    next h => rw [h, hl]
    next => rfl
  | some l =>
    simp only [State.dropLlc, hl]
    split <;> exact find?_filter_line ..

/-- The LLC lets a line go: what was read in it is in memory. -/
theorem State.homeByte_dropLlc (s : State) (line a : Nat) : homeByte (s.dropLlc line) a = homeByte s a := by
  cases hl : s.llcLine line with
  | none => simp only [State.dropLlc, hl]
  | some l =>
    have hfind := s.llcLine_dropLlc line (a / 64)
    have hmem : Cells.get 0 (s.dropLlc line).mem a = if a / 64 = line then lineByte l.data (a % 64) else Cells.get 0 s.mem a := by
      simp only [State.dropLlc, hl]
      split
      · exact setMemLine_all ..
      next hsame =>
        have hdata : memLine s.mem line = l.data := by
          by_contra hne
          exact hsame (by simp [hne])
        split
        next ha => rw [← hdata, ← ha, lineByte_memLine_div]
        next => rfl
    by_cases ha : a / 64 = line
    · rw [homeByte_of_none (by rw [hfind, if_pos ha]), hmem, if_pos ha, homeByte_of_llcLine (by rw [ha]; exact hl)]
    · simp only [homeByte, hfind, if_neg ha, hmem]

/-- A line makes room in the LLC by letting one of its lines go. -/
theorem State.llcWay_eq (s : State) (line : Nat) (m : Half) :
    (s.llcWay line m).1 = s ∨ ∃ l ∈ s.llc, (s.llcWay line m).1 = s.dropLlc l.line := by
  unfold State.llcWay
  dsimp only
  split
  · exact .inl rfl
  split
  · exact .inl rfl
  next l _ hv =>
    have hset := List.mem_of_getLast? hv
    exact .inr ⟨l, (List.mem_filter.1 (List.mem_filter.1 hset).1).1, rfl⟩
  · exact .inl rfl

theorem SameButHome.llcWay (s : State) (line : Nat) (m : Half) : SameButHome s (s.llcWay line m).1 := by
  rcases s.llcWay_eq line m with h | ⟨l, -, h⟩
  · rw [h]; exact .refl s
  · rw [h]; exact .dropLlc s l.line

theorem SameButHome.allocLlc (s : State) (pad line pol part : Nat) (d : BitVec 512) :
    SameButHome s (s.allocLlc pad line pol part d) := by
  have hway := SameButHome.llcWay s line (s.partMask (homeDie line) part)
  unfold State.allocLlc
  split
  · exact .refl s
  split
  · split
    next u w heq =>
      rw [heq] at hway
      exact hway.trans (.atHome ..)
    next u heq =>
      rw [heq] at hway
      exact hway
  · exact .countErr ..

theorem SameButHome.readHome (s : State) (pad line pol part : Nat) : SameButHome s (s.readHome pad line pol part).1 := by
  have hread := SameButHome.readDram s pad line
  unfold State.readHome
  split
  · exact .refl s
  split
  · exact .atHome ..
  split
  next u d heq =>
    rw [heq] at hread
    exact hread.trans (.allocLlc ..)
  next u heq =>
    rw [heq] at hread
    exact hread

theorem SameButHome.writeHome (s : State) (pad line pol part : Nat) (mask : Dword) (d : BitVec 512) :
    SameButHome s (s.writeHome pad line pol part mask d).1 := by
  have hread := SameButHome.readDram s pad line
  unfold State.writeHome
  split
  · exact .refl s
  split
  · exact .atHome ..
  split
  · exact (SameButHome.atHome s _ _ _ _).trans (.allocLlc ..)
  split
  next u old heq =>
    rw [heq] at hread
    exact (hread.trans (.atHome u _ _ _ _)).trans (.allocLlc ..)
  next u heq =>
    rw [heq] at hread
    exact hread

/-! ### A read at home changes no byte there -/

/-- A line that is not in the LLC enters it, in front or behind, with the bytes that its home has. -/
theorem State.homeByte_enter {s : State} {l : LlcLine} {ls : List LlcLine} (hnew : s.llcLine l.line = none)
    (hls : ls = s.llc ++ [l] ∨ ls = l :: s.llc) (hd : ∀ a, a / 64 = l.line → lineByte l.data (a % 64) = homeByte s a) (a : Nat) :
    homeByte { s with llc := ls } a = homeByte s a := by
  have hfind (k : Nat) : ls.find? (·.line == k) = if k = l.line then some l else s.llcLine k := by
    by_cases hk : k = l.line
    · have hold : s.llc.find? (·.line == k) = none := hk ▸ hnew
      rcases hls with rfl | rfl
      · rw [List.find?_append, hold]; simp [hk]
      · simp [hk]
    · rw [if_neg hk]
      rcases hls with rfl | rfl
      · rw [List.find?_append]; simp [State.llcLine, Ne.symm hk]
      · simp [State.llcLine, Ne.symm hk]
  have hline : State.llcLine { s with llc := ls } (a / 64) = if a / 64 = l.line then some l else s.llcLine (a / 64) := hfind _
  by_cases ha : a / 64 = l.line
  · rw [homeByte_of_llcLine (by rw [hline, if_pos ha]), hd a ha]
  · simp only [homeByte, hline, if_neg ha]

/-- A line that is not in the LLC makes room there. -/
theorem State.llcWay_absent {s : State} {line : Nat} (h : s.llcLine line = none) (m : Half) :
    (s.llcWay line m).1.llcLine line = none ∧ ∀ a, homeByte (s.llcWay line m).1 a = homeByte s a := by
  rcases s.llcWay_eq line m with hu | ⟨l, hl, hu⟩
  · rw [hu]; exact ⟨h, fun _ => rfl⟩
  · rw [hu, s.llcLine_dropLlc, h, ite_self]
    exact ⟨rfl, s.homeByte_dropLlc l.line⟩

/-- A line that is not in the LLC enters it with the bytes of memory. -/
theorem State.homeByte_allocLlc {s : State} {line : Nat} (h : s.llcLine line = none) (pad pol part a : Nat) :
    homeByte (s.allocLlc pad line pol part (memLine s.mem line)) a = homeByte s a := by
  obtain ⟨habsent, hsame⟩ := s.llcWay_absent h (s.partMask (homeDie line) part)
  have hmem (b : Nat) (hb : b / 64 = line) : lineByte (memLine s.mem line) (b % 64) = homeByte s b := by
    rw [homeByte_of_none (by rw [hb, h]), ← hb, lineByte_memLine_div]
  unfold State.allocLlc
  split
  · rfl
  split
  · split
    next u w heq =>
      rw [heq] at habsent hsame
      refine (State.homeByte_enter (l := { line := line, data := memLine s.mem line, way := w, retain := pol == 1, part := part, dirty := false })
        habsent ?_ (fun b hb => (hmem b hb).trans (hsame b).symm) a).trans (hsame a)
      split
      · exact .inl rfl
      · exact .inr rfl
    next u heq =>
      rw [heq] at hsame
      exact hsame a
  · rfl

theorem find?_erase_of_not {α : Type} [BEq α] [LawfulBEq α] {p : α → Bool} {x : α} (hx : p x = false) (xs : List α) :
    (xs.erase x).find? p = xs.find? p := by
  induction xs with
  | nil => rfl
  | cons y ys ih =>
    rw [List.erase_cons]
    split
    next h => rw [eq_of_beq h, List.find?_cons_of_neg (by simp [hx])]
    next => simp only [List.find?_cons, ih]

/-- The line that was used is now the most recently used one. -/
theorem State.llcLine_mru {s : State} {line : Nat} {l : LlcLine} (h : s.llcLine line = some l) (k : Nat) :
    State.llcLine { s with llc := l :: s.llc.erase l } k = s.llcLine k := by
  have hl := llcLine_line h
  by_cases hk : k = line
  · rw [hk, h]
    simp [State.llcLine, hl]
  · have hne : (l.line == k) = false := by simp [hl, Ne.symm hk]
    simp only [State.llcLine, List.find?_cons, hne, find?_erase_of_not (p := (LlcLine.line · == k)) hne]

theorem State.homeByte_readHome (s : State) (pad line pol part a : Nat) :
    homeByte (s.readHome pad line pol part).1 a = homeByte s a := by
  unfold State.readHome
  split
  · rfl
  split
  next l hl => simp only [homeByte, State.llcLine_mru hl]
  next hnone =>
    have hmem := s.readDram_mem pad line
    have hllc := s.readDram_llc pad line
    have hread := homeByte_congr hmem hllc a
    split
    next u d heq =>
      have hd : d = memLine s.mem line := State.readDram_data (pad := pad) (by rw [heq])
      rw [heq] at hmem hllc hread
      have hu : u.llcLine line = none := by rw [State.llcLine, hllc]; exact hnone
      rw [hd, ← hmem, State.homeByte_allocLlc hu, hread]
    next u heq =>
      rw [heq] at hread
      exact hread

end Sys2Proof.Machine
end

section
/-! PROOFS. BRMK, BRQ, CQRY and PRFM (O31): the first three write one register, and PRFM only reads, which nothing shows where no cache
holds authority and no range has partials. -/

namespace Sys2Proof.Machine

open Sys2Proof.Claims

/-! ### What a read leaves as it was -/

/-- The caches hold read copies alone, and no range has partials. -/
structure ReadOnly (s : State) : Prop where
  l1 : ∀ c ∈ s.l1, c.auth = false
  l2 : ∀ c ∈ s.l2, c.auth = false
  partials : s.partials = []

/-- Registers, buffers, accesses and the bytes at home are the same. -/
structure SameSeen (s u : State) : Prop where
  strs : u.strs = s.strs
  troops : u.troops = s.troops
  lines : u.lines = s.lines
  accs : u.accs = s.accs
  home : ∀ a, homeByte u a = homeByte s a

/-- Where the caches hold read copies alone, `u` shows what `s` shows, and its caches do so too. -/
def Unseen (s u : State) : Prop := ReadOnly s → SameSeen s u ∧ ReadOnly u

theorem Unseen.refl (s : State) : Unseen s s := fun h => ⟨⟨rfl, rfl, rfl, rfl, fun _ => rfl⟩, h⟩

theorem Unseen.trans {s u v : State} (h : Unseen s u) (k : Unseen u v) : Unseen s v := by
  intro hs
  obtain ⟨hsu, hu⟩ := h hs
  obtain ⟨huv, hv⟩ := k hu
  exact ⟨⟨huv.strs.trans hsu.strs, huv.troops.trans hsu.troops, huv.lines.trans hsu.lines, huv.accs.trans hsu.accs,
    fun a => (huv.home a).trans (hsu.home a)⟩, hv⟩

theorem Unseen.foldl {α : Type} {g : State → α → State} (hg : ∀ s a, Unseen s (g s a)) (xs : List α) (s : State) :
    Unseen s (xs.foldl g s) := by
  induction xs generalizing s with
  | nil => exact .refl s
  | cons x xs ih => exact (hg s x).trans (ih (g s x))

theorem Unseen.of_home {s u : State} (h : SameButHome s u) (hb : ∀ a, homeByte u a = homeByte s a) : Unseen s u :=
  fun hs => ⟨⟨h.strs, h.troops, h.lines, h.accs, hb⟩, h.l1 ▸ hs.l1, h.l2 ▸ hs.l2, h.partials.trans hs.partials⟩

/-- The caches take read copies, or let them go. -/
theorem Unseen.caches {s : State} {l1 l2 : List CacheLine} (h1 : (∀ c ∈ s.l1, c.auth = false) → ∀ c ∈ l1, c.auth = false)
    (h2 : (∀ c ∈ s.l2, c.auth = false) → ∀ c ∈ l2, c.auth = false) : Unseen s { s with l1 := l1, l2 := l2 } :=
  fun hs => ⟨⟨rfl, rfl, rfl, rfl, fun _ => rfl⟩, h1 hs.l1, h2 hs.l2, hs.partials⟩

theorem Unseen.readHome (s : State) (pad line pol part : Nat) : Unseen s (s.readHome pad line pol part).1 :=
  .of_home (.readHome ..) (s.homeByte_readHome pad line pol part)

theorem Unseen.dieFetch (s : State) (pad die line pol part : Nat) : Unseen s (s.dieFetch pad die line pol part).1 := by
  have hread := Unseen.readHome s pad line pol part
  unfold State.dieFetch
  split
  all_goals
    next heq =>
      rw [heq] at hread
      exact hread

theorem auth_putLine {cs : List CacheLine} {x : CacheLine} (hx : x.auth = false) (h : ∀ c ∈ cs, c.auth = false) :
    ∀ c ∈ putLine cs x, c.auth = false := by
  intro c hc
  rcases List.mem_cons.1 hc with rfl | hc
  · exact hx
  · exact h c (List.mem_filter.1 hc).1

theorem auth_filter {cs : List CacheLine} {p : CacheLine → Bool} (h : ∀ c ∈ cs, c.auth = false) :
    ∀ c ∈ cs.filter p, c.auth = false := fun c hc => h c (List.mem_filter.1 hc).1

theorem Unseen.evictL2 (s : State) (die line : Nat) : Unseen s (s.evictL2 die line) := by
  intro h
  unfold State.evictL2
  split
  next c hc =>
    have hauth : c.auth = false := auth_filter h.l2 c (List.mem_of_getLast? hc)
    simp only [hauth, Bool.false_eq_true, if_false]
    exact Unseen.caches id auth_filter h
  · exact Unseen.refl s h

theorem Unseen.putL2 (s : State) {c : CacheLine} (hc : c.auth = false) : Unseen s (s.putL2 c) := by
  have hput : Unseen s { s with l2 := putLine s.l2 c } := .caches id (auth_putLine hc)
  unfold State.putL2
  dsimp only
  split
  · exact hput
  · exact hput.trans (.foldl (fun s _ => .evictL2 s _ _) _ _)

theorem Unseen.evictL1 (s : State) (core : Nat) : Unseen s (s.evictL1 core) := by
  intro h
  have hold : s.oldPartial core = none := by rw [State.oldPartial, h.partials]; rfl
  unfold State.evictL1
  rw [hold]
  split
  next hp => cases hp
  next c hc _ =>
    have hauth : c.auth = false := auth_filter h.l1 c (List.mem_of_getLast? hc)
    simp only [State.evictCopy, hauth, Bool.false_eq_true, if_false]
    exact Unseen.caches auth_filter id h
  next hp => cases hp
  · exact Unseen.refl s h

theorem Unseen.touchL1 (s : State) {c : CacheLine} (hc : c.auth = false) : Unseen s (s.touchL1 c) := .caches (auth_putLine hc) id

theorem Unseen.putL1 (s : State) {c : CacheLine} (hc : c.auth = false) : Unseen s (s.putL1 c) :=
  (Unseen.touchL1 s hc).trans (.foldl (fun s _ => .evictL1 s _) _ _)

theorem findLine_mem {cs : List CacheLine} {place line : Nat} {c : CacheLine} (h : findLine cs place line = some c) : c ∈ cs :=
  List.mem_of_find?_eq_some h

theorem Unseen.dieLine (s : State) (pad die line pol part : Nat) : Unseen s (s.dieLine pad die line pol part).1 := by
  unfold State.dieLine
  split
  next c hc => exact fun h => Unseen.caches id (auth_putLine (h.l2 c (findLine_mem hc))) h
  · exact Unseen.dieFetch s pad die line pol part

theorem Unseen.pathRead_go (s : State) (pad core line pol part die : Nat) (useL2 : Bool) :
    Unseen s (State.pathRead.go pad core line pol part s die useL2).1 := by
  have hfetch := Unseen.dieFetch s pad die line pol part
  have hmiss : Unseen s (match s.dieFetch pad die line pol part with
      | (s, some d) => ((s.putL2 { place := die, line := line, data := d, auth := false, dirty := 0 }).putL1
          { place := core, line := line, data := d, auth := false, dirty := 0 }, some d)
      | (s, none) => (s, none)).1 := by
    split
    next u d heq =>
      rw [heq] at hfetch
      exact (hfetch.trans (.putL2 u rfl)).trans (.putL1 _ rfl)
    next heq =>
      rw [heq] at hfetch
      exact hfetch
  unfold State.pathRead.go
  cases hl : findLine s.l2 die line with
  | none => exact hmiss
  | some c =>
    by_cases huse : (c.auth || useL2) = true
    · simp only [huse, if_true]
      exact fun h => Unseen.trans (.caches id (auth_putLine (h.l2 c (findLine_mem hl)))) (.putL1 _ rfl) h
    · simp only [huse]
      exact hmiss

theorem holder_none {cs : List CacheLine} (h : ∀ c ∈ cs, c.auth = false) (line : Nat) : holder cs line = none := by
  rw [holder, List.find?_eq_none]
  intro c hc
  simp [h c hc]

theorem Unseen.pathRead (s : State) (pad core line pol part fresh : Nat) : Unseen s (s.pathRead pad core line pol part fresh).1 := by
  intro h
  have hnear : s.authNear core line = false := by
    simp only [State.authNear, State.authAt, holder_none h.l1, holder_none h.l2]
  unfold State.pathRead
  simp only [hnear, Bool.false_eq_true, if_false]
  split
  · exact Unseen.readHome _ _ _ _ _ h
  split
  · exact Unseen.dieFetch _ _ _ _ _ _ h
  split
  next c hc =>
    split
    · exact Unseen.touchL1 s (h.l1 c (findLine_mem hc)) h
    · exact Unseen.pathRead_go _ _ _ _ _ _ _ _ h
  · exact Unseen.pathRead_go _ _ _ _ _ _ _ _ h

/-! ### PRFM (R264) -/

theorem Unseen.agentRead (s : State) (pad pa n : Nat) : Unseen s (s.agentRead pad pa n).1 := by
  intro h
  have hread := Unseen.readHome s pad (pa / 64) 3 0
  have hrange : s.rangeOfLine (pa / 64) = none := by rw [State.rangeOfLine, h.partials]; rfl
  simp only [State.agentRead, State.agentReadAs, State.readGathered, hrange]
  split
  all_goals
    next heq =>
      rw [heq] at hread
      exact hread h

theorem Unseen.translate (s : State) (core : Option Nat) (pad : Nat) (secure super : Bool) (kind : AccessKind) (va : Nat) :
    Unseen s (s.translate core pad secure super kind va).1 :=
  State.translate_keeps .refl .trans .agentRead (fun _ _ => .of_home ⟨rfl, rfl, rfl, rfl, rfl, rfl, rfl⟩ fun _ => rfl) ..

theorem Unseen.prefetchLine (s : State) (t : Troop) (super : Bool) (lvl : Level) (va : Nat) :
    Unseen s (s.prefetchLine t super lvl va) := by
  have htrans := Unseen.translate s (some t.core) t.pad t.secure super .prefetch va
  unfold State.prefetchLine
  split
  next u pa pol part heq =>
    rw [heq] at htrans
    refine htrans.trans ?_
    split
    · exact .refl u
    cases lvl
    case trp => exact Unseen.pathRead u t.pad t.core (pa / 64) pol part 0
    case die =>
      have hdie := Unseen.dieLine u t.pad (dieOf t.core) (pa / 64) pol part
      dsimp only
      split
      next v d heq' =>
        rw [heq'] at hdie
        split
        · exact hdie
        · exact hdie.trans (.putL2 v rfl)
      next heq' =>
        rw [heq'] at hdie
        exact hdie
    all_goals exact Unseen.readHome u t.pad (pa / 64) pol part
  next u _ _ heq =>
    rw [heq] at htrans
    exact htrans.trans (.of_home ⟨rfl, rfl, rfl, rfl, rfl, rfl, rfl⟩ fun _ => rfl)

/-- The lines that a PRFM brings near. -/
def prfmLines (c : Cur) (z : Str) (o : Operands) : List Nat :=
  (c.lanes.filterMap fun l => match recAddr (z.breg o.b.toNat) (recSize (z.breg o.b.toNat)) (recIndex z o l) with
    | .at va => some (va / 64 * 64)
    | _ => none).dedup

theorem exec_prfm {o : Operands} {s : State} {c : Cur} {z : Str} {t : Troop} (h : Issues s (.prfm o) c z t) : exec (.prfm o) s =
    .next (((prfmLines c z o).foldl (fun s va => s.prefetchLine t c.super o.level va) s).settleOverflow t.tid) :=
  State.issue_next h noCheck _ rfl

/-! ### BRMK, BRQ and CQRY (R183, R265, R269) -/

/-- The record that BRMK makes of four scalar registers. -/
def madeRecord (o : Operands) (z : Str) : Record :=
  z.sreg (o.a.toNat + 3) ++ z.sreg (o.a.toNat + 2) ++ z.sreg (o.a.toNat + 1) ++ z.sreg (o.a.toNat + 0)

theorem exec_brmk (o : Operands) (s : State) : exec (.brmk o) s = s.issue (.brmk o) noCheck fun c z t =>
    if c.parts = 0 then s
    else if recordOk (madeRecord o z) then s.writeB c.sid t.depth o.d.toNat (madeRecord o z)
    else s.raise c .bounds := rfl

theorem exec_brmk_writes {o : Operands} {s : State} {c : Cur} {z : Str} {t : Troop} (h : Issues s (.brmk o) c z t) (hr : Room z t 1)
    (hp : c.parts ≠ 0) (hok : recordOk (madeRecord o z) = true) :
    ∃ z', exec (.brmk o) s = .next (s.updStr c.sid fun _ => z') ∧ z' = { z with b := z'.b, bag := z'.bag } ∧
      (t.depth = 0 → z'.bag = z.bag) ∧ ∀ n, z'.breg n = if n = o.d.toNat then madeRecord o z else z.breg n := by
  obtain ⟨z', hwrite, kept, bag, regs⟩ := State.writeB_room (d := t.depth) (n := o.d.toNat) (x := madeRecord o z) h.str h.troop hr
  exact ⟨z', exec_of_body (exec_brmk o) h hr.1 (((if_neg hp).trans (if_pos hok)).trans hwrite), kept, bag, regs⟩

/-- Settles O31: BRMK, BRQ and CQRY by the write of each, PRFM by what its lines leave unseen. -/
theorem recordsAndQueries : Obligations.RecordsAndQueries := by
  refine ⟨fun o s c z t h ho hp => ?_, fun o s c z t h hr hp hok => exec_brmk_writes h hr hp hok, fun o => ?_,
    fun o => SResult.of (fun _ => rfl) fun _ _ _ _ _ _ => rfl, fun o => SResult.of (fun _ => rfl) fun _ _ _ _ _ _ => rfl,
    fun o s c z t h ho => ⟨_, exec_prfm h, fun hauth hparts => ?_⟩⟩
  · exact exec_of_effect (exec_brmk o s) h ho rfl (if_pos hp) rfl
  · exact Traps.of (exec_brmk o) fun s c z t _ ⟨hp, hbad⟩ => (if_neg hp).trans
      (if_neg (by rw [show recordOk (madeRecord o z) = false from hbad]; exact Bool.false_ne_true))
  · obtain ⟨same, -⟩ := Unseen.foldl (fun s va => Unseen.prefetchLine s t c.super o.level va) (prfmLines c z o) s
      ⟨fun c hc => hauth c (List.mem_append_left _ hc), fun c hc => hauth c (List.mem_append_right _ hc), hparts⟩
    rw [State.settleOverflow_self (State.troop?_of_troops same.troops (issues_tid h)) ho]
    exact ⟨same.strs, same.troops, same.lines, same.accs, same.home⟩

end Sys2Proof.Machine
end

section
/-! PROOFS. A translated line of a store or of a RADD is accepted (O24): once nothing is forced for it, it enters its buffer, leaves for its
home, or joins the core's partial line. -/

namespace Sys2Proof.Machine

open Sys2Proof.Claims

section
variable {s : State} {z : Str} {t : Troop} {b : Access} {line pa pol part : Nat} {l : LineReq}

/-- The states in which a translated line of a store or of a RADD is accepted. -/
structure LineGoes (s : State) (b : Access) (line : Nat) (z : Str) (t : Troop) (l : LineReq) (pa pol part : Nat) : Prop where
  acc : s.acc? b.id = some b
  kind : b.kind = .st ∨ b.kind = .radd
  str : s.str? b.sid = some z
  troop : s.troop? z.tid = some t
  at_ : b.lines[line]? = some l
  ready : l.st = .ready pa pol part
  runs : s.haltedCore t.core = false
  mayGo : s.storeMayGo b pa (b.on l) = true
  free : ∀ x ∈ s.nodes, x.tid ≠ t.tid

theorem State.acceptLine_free (hgo : s.storeMayGo b pa (b.on l) = true) (hfree : ∀ x ∈ s.nodes, x.tid ≠ t.tid) :
    s.acceptLine z t b line l pa pol part =
      if b.kind == .radd then s.raddLine t b line (b.on l) pa else s.storeLine z t b line l pa pol part := by
  simp only [State.acceptLine, hgo, State.guardWrite, State.guard_free hfree, Bool.not_true, Bool.false_eq_true, if_false]

theorem LineGoes.exec_storeAccept (h : LineGoes s b line z t l pa pol part) :
    exec (.storeAccept b.id line) s = .next ((if b.kind == .radd then s.raddLine t b line (b.on l) pa
      else s.storeLine z t b line l pa pol part).settleStore b.id) := by
  have hk : (b.kind == .st || b.kind == .radd) = true := by simpa using h.kind
  change execStoreAccept b.id line s = _
  simp only [execStoreAccept, h.acc, h.str, h.at_, h.troop, h.ready, h.runs, hk, Bool.false_and, Bool.false_eq_true, if_false, if_true,
    State.acceptLine_free h.mayGo h.free]

theorem LineGoes.exec_radd (h : LineGoes s b line z t l pa pol part) (hk : b.kind = .radd) :
    exec (.storeAccept b.id line) s = .next ((s.raddLine t b line (b.on l) pa).settleStore b.id) := by
  rw [h.exec_storeAccept, hk]; rfl

theorem LineGoes.exec_st (h : LineGoes s b line z t l pa pol part) (hk : b.kind = .st) :
    exec (.storeAccept b.id line) s = .next ((s.storeLine z t b line l pa pol part).settleStore b.id) := by
  rw [h.exec_storeAccept, hk]; rfl

theorem State.storeLine_covered (h : b.topBytes l pa = []) : s.storeLine z t b line l pa pol part = s.wroteLine b line l pa := by
  simp only [State.storeLine, h, List.isEmpty_nil, if_true]

theorem State.storeLine_home (h : b.topBytes l pa ≠ []) (hb : (t.demote b.lvl).buffered = false) :
    s.storeLine z t b line l pa pol part = (s.storeHome t b (b.on l) (b.topBytes l pa) pa pol part).wroteLine b line l pa := by
  simp only [State.storeLine, List.isEmpty_iff, h, hb, Bool.false_eq_true, if_false]

theorem State.storeLine_buffer (h : b.topBytes l pa ≠ []) (hb : (t.demote b.lvl).buffered = true) :
    s.storeLine z t b line l pa pol part = s.bufferLine z t b line l pa pol part (b.topBytes l pa) := by
  simp only [State.storeLine, List.isEmpty_iff, h, hb, if_false, if_true]

end

/-! ### A line enters a buffer (R217 to R219) -/

section
variable {s : State} {z : Str} {t : Troop} {b : Access} {line pa pol part : Nat} {l : LineReq} {bs : List (Nat × Byte)}

/-- The bytes of the line conflict as they enter the buffer of its level. -/
def State.lineHits (s : State) (t : Troop) (b : Access) (pa : Nat) (bs : List (Nat × Byte)) : Bool :=
  s.entersOver t (bufSpace b.sid t (t.demote b.lvl)) pa (bs.map (·.1)) (committerFor b.sid t (bufSpace b.sid t (t.demote b.lvl)))

/-- The bytes of the line have entered the buffer of its level. -/
def State.linePut (s : State) (t : Troop) (b : Access) (l : LineReq) (pa pol part : Nat) (bs : List (Nat × Byte)) : State :=
  s.bufPut b.sid t b.lvl pa l.va pol part bs

/-- The conflict of the line has been counted for its store. -/
def State.lineCounted (s : State) (t : Troop) (b : Access) : State :=
  (s.countConflict t.tid).updAcc b.id fun b => { b with clash := true }

theorem State.bufferLine_sure (hz : z.sid = b.sid) (hs : l.sure = true) :
    s.bufferLine z t b line l pa pol part bs =
      (if (!b.strict && s.lineHits t b pa bs) && !b.clash then (s.linePut t b l pa pol part bs).lineCounted t b
        else s.linePut t b l pa pol part bs).wroteLine b line l pa := by
  simp only [State.bufferLine, hs, hz, if_true, Bool.not_true, Bool.and_false, Bool.false_and, Bool.false_eq_true, if_false]
  rfl

theorem State.bufferLine_full (hz : z.sid = b.sid) (hs : l.sure = false)
    (hf : s.projected.bufFits b.sid t b.lvl pa (bs.map (·.1)) = false) :
    s.bufferLine z t b line l pa pol part bs = s.updAcc b.id (·.refuse line .commitOverflow) := by
  simp only [State.bufferLine, State.bufStoreLate, hs, hz, hf, Bool.false_eq_true, if_false]

theorem State.bufferLine_fits (hz : z.sid = b.sid) (hs : l.sure = false)
    (hf : s.projected.bufFits b.sid t b.lvl pa (bs.map (·.1)) = true) :
    s.bufferLine z t b line l pa pol part bs =
      if s.lineHits t b pa bs && z.conflictFaults then s.updAcc b.id (·.refuse line .siblingConflict)
      else (if s.lineHits t b pa bs && !b.clash then (s.linePut t b l pa pol part bs).lineCounted t b
        else s.linePut t b l pa pol part bs).wroteLine b line l pa := by
  simp only [State.bufferLine, State.bufStoreLate, hs, hz, hf, Bool.false_eq_true, if_false, if_true, Bool.not_false, Bool.and_true]
  rfl

end

/-- Each line of a store, and each of a RADD, is accepted. -/
theorem accepts_of_kind {a : Access} (hk : a.kind = .st ∨ a.kind = .radd) : Accepts a := by
  intro s b line z t l pa pol part hacc ho hz ht hl hst hrun hgo hfree
  have hsid : z.sid = b.sid := (State.str_sid hz).trans (onward_sid ho).symm
  rw [← onward_id ho] at hacc ⊢
  rw [← onward_sid ho] at hz ⊢
  rw [← onward_kind ho] at hk ⊢
  rw [← onward_lvl ho, ← onward_ty ho]
  have h : LineGoes s b line z t l pa pol part := ⟨hacc, hk, hz, ht, hl, hst, hrun, hgo, hfree⟩
  refine ⟨fun hk htake => ?_, fun hk htake => ?_, fun hk hnone => ?_, fun hk hsome hbuf => ?_, fun hk hsome hbuf hsure => ?_,
    fun hk hsome hbuf hsure => ⟨fun hfit => ?_, fun hfit => ⟨fun hhit hpol => ?_, fun hquiet => ?_, fun hhit hpol hclash => ?_⟩⟩⟩
  · rw [h.exec_radd hk, State.raddLine, if_pos htake]
  · rw [h.exec_radd hk, State.raddLine, if_neg (by rw [htake]; exact Bool.false_ne_true)]
  · rw [h.exec_st hk, State.storeLine_covered hnone]
  · rw [h.exec_st hk, State.storeLine_home hsome hbuf]
  · rw [h.exec_st hk, State.storeLine_buffer hsome hbuf, State.bufferLine_sure hsid hsure]
    refine ⟨fun hquiet => ?_, fun hstrict hhit hclash => ?_⟩
    · change b.strict = true ∨ s.lineHits t b pa (b.topBytes l pa) = false ∨ b.clash = true at hquiet
      rw [if_neg (by rcases hquiet with h | h | h <;> simp [h])]
      rfl
    · change s.lineHits t b pa (b.topBytes l pa) = true at hhit
      rw [if_pos (by rw [hstrict, hhit, hclash]; rfl)]
      rfl
  · rw [h.exec_st hk, State.storeLine_buffer hsome hbuf, State.bufferLine_full hsid hsure hfit]
  · change s.lineHits t b pa (b.topBytes l pa) = true at hhit
    rw [h.exec_st hk, State.storeLine_buffer hsome hbuf, State.bufferLine_fits hsid hsure hfit, if_pos (by rw [hhit, hpol]; rfl)]
  · change s.lineHits t b pa (b.topBytes l pa) = false ∨ z.conflictFaults = false ∧ b.clash = true at hquiet
    rw [h.exec_st hk, State.storeLine_buffer hsome hbuf, State.bufferLine_fits hsid hsure hfit,
      if_neg (by rcases hquiet with h | ⟨h, -⟩ <;> simp [h]), if_neg (by rcases hquiet with h | ⟨-, h⟩ <;> simp [h])]
    rfl
  · change s.lineHits t b pa (b.topBytes l pa) = true at hhit
    rw [h.exec_st hk, State.storeLine_buffer hsome hbuf, State.bufferLine_fits hsid hsure hfit, if_neg (by rw [hpol, Bool.and_false]; decide),
      if_pos (by rw [hhit, hclash]; rfl)]
    rfl

end Sys2Proof.Machine
end

section
/-! PROOFS. A read for a walk leaves of the accesses in flight only some, each with its string and its lines (O24): first what the quarters
and the end of a troop leave of them, then late faults, writes at their homes, and the authority of a line on its way back. -/

namespace Sys2Proof.Machine

open Sys2Proof.Claims

theorem mem_updFirst {α : Type} {p : α → Bool} {f : α → α} {x : α} : ∀ {xs : List α}, x ∈ updFirst p f xs → x ∈ xs ∨ ∃ a ∈ xs, x = f a
  | y :: ys, h => by
    rw [updFirst] at h
    split at h
    · rcases List.mem_cons.1 h with rfl | h
      · exact .inr ⟨y, List.mem_cons_self, rfl⟩
      · exact .inl (List.mem_cons_of_mem y h)
    · rcases List.mem_cons.1 h with rfl | h
      · exact .inl List.mem_cons_self
      · rcases mem_updFirst h with h | ⟨a, ha, h⟩
        · exact .inl (List.mem_cons_of_mem y h)
        · exact .inr ⟨a, List.mem_cons_of_mem y ha, h⟩

/-- Every access that is in flight in `u` is one of `s`, with its string and its lines. -/
structure AccsKept (s u : State) : Prop where
  each : ∀ b ∈ u.accs, ∃ a ∈ s.accs, a.sid = b.sid ∧ a.lines = b.lines

namespace AccsKept

theorem of_sub {s u : State} (h : ∀ b ∈ u.accs, b ∈ s.accs) : AccsKept s u := ⟨fun b hb => ⟨b, h b hb, rfl, rfl⟩⟩

theorem of_eq {s u : State} (h : u.accs = s.accs) : AccsKept s u := of_sub fun _ hb => h ▸ hb

theorem refl (s : State) : AccsKept s s := of_eq rfl

theorem trans {s u v : State} (h : AccsKept s u) (k : AccsKept u v) : AccsKept s v := by
  refine ⟨fun b hb => ?_⟩
  obtain ⟨a, ha, hsid, hlines⟩ := k.each b hb
  obtain ⟨x, hx, hsid', hlines'⟩ := h.each a ha
  exact ⟨x, hx, hsid'.trans hsid, hlines'.trans hlines⟩

/-- What came before leaves the accesses as they were. -/
theorem after {s u v : State} (k : AccsKept u v) (h : u.accs = s.accs) : AccsKept s v := (of_eq h).trans k

/-- What comes next leaves the accesses as they are. -/
theorem next {s u v : State} (k : AccsKept s u) (h : v.accs = u.accs) : AccsKept s v := k.trans (of_eq h)

theorem foldl {α : Type} {g : State → α → State} (hg : ∀ s a, AccsKept s (g s a)) (xs : List α) (s : State) :
    AccsKept s (xs.foldl g s) := by
  induction xs generalizing s with
  | nil => exact refl s
  | cons x xs ih => exact (hg s x).trans (ih (g s x))

theorem of_home {s u : State} (h : SameButHome s u) : AccsKept s u := of_eq h.accs

theorem updAcc (s : State) (id : Nat) (f : Access → Access) (hf : ∀ a, (f a).sid = a.sid ∧ (f a).lines = a.lines) :
    AccsKept s (s.updAcc id f) := by
  refine ⟨fun b hb => ?_⟩
  obtain h | ⟨a, ha, h⟩ := mem_updFirst hb
  · exact ⟨b, h, rfl, rfl⟩
  · rw [h]; exact ⟨a, ha, (hf a).1.symm, (hf a).2.symm⟩

/-! ### The quarters (R142 to R148) -/

theorem settleOne (core q n : Nat) : ∀ s : State, AccsKept s (s.settleOne core q n) := by
  induction n with
  | zero => exact refl
  | succ n ih => exact fun s => (ih _).after rfl

theorem advanceJoint (s : State) (core q : Nat) : AccsKept s (s.advanceJoint core q) := by
  unfold State.advanceJoint
  dsimp only
  split <;> exact of_eq rfl

theorem startJoint (s : State) (core : Nat) : AccsKept s (s.startJoint core) := by
  unfold State.startJoint
  split
  · split
    · exact foldl (fun s q => of_eq (u := s.putQuarter (s.quarter core q).start) rfl) _ s
    · exact refl s
  · exact refl s

theorem quarterRound (s : State) (core : Nat) : AccsKept s (s.quarterRound core) := by
  unfold State.quarterRound
  extract_lets u v
  have hu : AccsKept s u := by
    refine foldl (fun s q => ?_) _ s
    exact (settleOne core q _ _).after rfl
  exact (hu.trans (foldl (fun s q => advanceJoint s core q) _ u)).trans (startJoint v core)

theorem settleQuarters (s : State) (core : Nat) : AccsKept s (s.settleQuarters core) := foldl (fun s _ => quarterRound s core) _ s

theorem dropMat (s : State) (core tid : Nat) : AccsKept s (s.dropMat core tid) := by
  unfold State.dropMat
  extract_lets u v
  have hv : AccsKept u v := by
    refine foldl (fun s q => ?_) _ u
    exact of_eq rfl
  exact (hv.after (s := s) rfl).trans (settleQuarters v core)

/-! ### Barriers (R323 to R328) -/

theorem record (s : State) (sid d : Nat) (key : BagKey) (prior : Str → List Nat) : AccsKept s (s.record sid d key prior) := by
  unfold State.record
  dsimp only
  repeat' split
  all_goals exact of_eq rfl

theorem writeS (s : State) (sid d n : Nat) (x : Dword) : AccsKept s (s.writeS sid d n x) := (record s sid d _ _).next rfl

theorem completePhase (s : State) (b : Barrier) : AccsKept s (s.completePhase b) := by
  unfold State.completePhase
  extract_lets lost status sum summed done released
  have hsummed : AccsKept s summed := by
    refine foldl (fun s z => foldl (fun s l => ?_) _ s) _ s
    split
    · split
      · exact writeS ..
      · exact refl s
    · exact refl s
  exact hsummed.next rfl

theorem checkBar (s : State) (k : BarKey) : AccsKept s (s.checkBar k) := by
  unfold State.checkBar
  extract_lets b go
  split
  · exact completePhase ..
  · exact refl s

/-! ### The end of a troop (R397, R419) -/

theorem cancelSpills (s : State) (tid j : Nat) : AccsKept s (s.cancelSpills tid j) := by
  unfold State.cancelSpills
  split <;> exact of_eq rfl

theorem cancelWork (s : State) (tid j : Nat) : AccsKept s (s.cancelWork tid j) := by
  unfold State.cancelWork
  extract_lets dead stale u
  have hu : AccsKept s u := (cancelSpills (s.cancelMat tid j) tid j).after rfl
  exact hu.trans (of_sub fun _ hb => (List.mem_filter.1 hb).1)

theorem dropTie (s : State) (t : Troop) : AccsKept s (s.dropTie t) := by
  unfold State.dropTie
  split
  next x _ =>
    extract_lets cancelled lines dropped
    have hdropped : AccsKept cancelled dropped := by
      unfold dropped
      split
      · exact dropMat ..
      · exact refl cancelled
    exact ((cancelWork s x 0).trans hdropped).next rfl
  · exact refl s

theorem partTroop (s : State) (t : Troop) : AccsKept s ((s.keepArrivals t).partHeld t) := of_eq rfl

theorem stopTroop (s : State) (tid : Nat) (cause : Option Cause) : AccsKept s (s.stopTroop tid cause) := by
  unfold State.stopTroop
  split
  · exact refl s
  next t _ =>
    split
    · exact refl s
    extract_lets untied cancelled parted lines cut ended tie counted
    have hparted : AccsKept s parted :=
      (((dropTie s t).trans (cancelWork untied tid 0)).trans (dropMat cancelled t.core tid)).trans (partTroop _ t)
    clear_value parted
    have hcounted : counted.accs = ended.accs := by
      unfold counted
      split <;> rfl
    exact (hparted.next (v := counted) hcounted).trans (foldl (fun s k => checkBar s k) _ counted)

theorem endTroop (s : State) (tid : Nat) (cause : Cause) : AccsKept s (s.endTroop tid cause) := by
  unfold State.endTroop
  split
  · exact refl s
  dsimp only
  split
  · split
    · exact stopTroop ..
    · exact (stopTroop ..).trans (stopTroop ..)
  · exact stopTroop ..

/-! ### Late faults (R389, R397) -/

theorem secondError (s : State) (z : Str) : AccsKept s (s.secondError z) := by
  unfold State.secondError
  split
  · exact refl s
  split
  · exact endTroop ..
  · exact of_eq rfl

theorem lateFault (s : State) (sid : Nat) (cause : Cause) (pc nodePc : Addr) (d : Nat) (trap : Bool) :
    AccsKept s (s.lateFault sid cause pc nodePc d trap) := by
  unfold State.lateFault
  split
  · exact refl s
  split
  · exact secondError ..
  dsimp only
  split
  · exact (secondError ..).after rfl
  · exact of_eq rfl

theorem tileLate (s : State) (core : Nat) (e : EngOp) (first : Bool) (c : Cause) (x : Option Node) (code : Nat) :
    AccsKept s (s.tileLate core e first c x code) := by
  have hfail : AccsKept s (match x with | some x => s.failSeq core x.seq code | none => s) := by
    split <;> exact of_eq rfl
  unfold State.tileLate
  dsimp only
  split
  · exact hfail.trans (lateFault ..)
  · exact hfail

/-! ### Writes at their homes (R232, R262, R381, R442) -/

theorem blameEng (s : State) (core : Nat) (e : EngOp) (c : Cause) : AccsKept s (s.blameEng core e c) := by
  unfold State.blameEng
  dsimp only
  split
  · exact (tileLate ..).after rfl
  · exact of_eq rfl

theorem blameWrite (s : State) (w : HomeWrite) : AccsKept s (s.blameWrite w) := by
  unfold State.blameWrite
  dsimp only
  split
  · exact refl s
  split
  · exact updAcc _ _ _ fun _ => ⟨rfl, rfl⟩
  split
  · exact blameEng ..
  split
  · exact of_eq rfl
  · exact (lateFault ..).next rfl

theorem loseWrite (s : State) (w : HomeWrite) : AccsKept s (s.loseWrite w) := (blameWrite _ w).after rfl

theorem freshenHome (s : State) (line : Nat) (mask : Dword) (d : BitVec 512) : AccsKept s (s.freshenHome line mask d) := by
  unfold State.freshenHome
  split <;> exact of_eq rfl

theorem writeHome (s : State) (pad line pol part : Nat) (mask : Dword) (d : BitVec 512) :
    AccsKept s (s.writeHome pad line pol part mask d).1 := of_home (.writeHome s pad line pol part mask d)

theorem landHome (s : State) (w : HomeWrite) : AccsKept s (s.landHome w) := by
  unfold State.landHome
  extract_lets u down
  have hwrite := writeHome u w.pad w.line w.pol w.part w.mask w.data
  split
  next v ok heq =>
    rw [heq] at hwrite
    extract_lets x
    have hx : AccsKept v x := by
      unfold x
      split
      · exact loseWrite ..
      split
      · exact blameWrite ..
      split
      · exact refl _
      · exact freshenHome ..
    exact ((hwrite.after (s := s) rfl).trans hx).next rfl

theorem drainDie (s : State) (die line : Nat) : AccsKept s (s.drainDie die line) := foldl landHome _ s

/-! ### The authority of a line on its way back (R244) -/

theorem spillL2 (s : State) (line : Nat) : AccsKept s (s.spillL2 line) := by
  unfold State.spillL2
  split
  next c _ =>
    dsimp only
    generalize hx : ({ s.drainDie c.place line with l2 := _ } : State) = x
    have hdrain : AccsKept s x := (drainDie s c.place line).trans (of_eq (by rw [← hx]))
    have hwrite := hdrain.trans (writeHome x c.pad line 3 0 c.dirty c.data)
    split
    · exact hdrain
    split
    next u heq =>
      rw [heq] at hwrite
      exact hwrite.trans (freshenHome ..)
    next u heq =>
      rw [heq] at hwrite
      split
      · exact hwrite.trans (lateFault ..)
      · exact hwrite
  · exact refl s

theorem evictL2 (s : State) (die line : Nat) : AccsKept s (s.evictL2 die line) := by
  unfold State.evictL2
  split
  next c _ =>
    extract_lets u
    have hu : AccsKept s u := by
      unfold u
      split
      · exact spillL2 ..
      · exact refl s
    exact hu.next rfl
  · exact refl s

theorem putL2 (s : State) (c : CacheLine) : AccsKept s (s.putL2 c) := by
  unfold State.putL2
  dsimp only
  split
  · exact of_eq rfl
  · exact (foldl (fun s _ => evictL2 s c.place c.line) _ _).after rfl

theorem spillL1 (s : State) (line : Nat) : AccsKept s (s.spillL1 line) := by
  unfold State.spillL1
  split
  · exact (putL2 ..).after rfl
  · exact refl s

theorem returnAuth (s : State) (line : Nat) : AccsKept s (s.returnAuth line) := (spillL1 s line).trans (spillL2 _ line)

/-! ### A read at home, and a translation (R226, R356) -/

theorem evictPartial (s : State) (r : Range) (core line : Nat) : AccsKept s (s.evictPartial r core line) := by
  unfold State.evictPartial
  split
  · dsimp only
    split <;> exact of_eq rfl
  · exact refl s

theorem readHome (s : State) (pad line pol part : Nat) : AccsKept s (s.readHome pad line pol part).1 :=
  of_home (.readHome s pad line pol part)

theorem gather (s : State) (r : Range) (line pol part : Nat) : AccsKept s (s.gather r line pol part).1 := by
  have hread := ((returnAuth s line).next (v := (s.returnAuth line).dropCopies (· == line)) rfl).trans
    (readHome _ r.pad line pol part)
  unfold State.gather
  extract_lets s'
  split
  next u home heq =>
    rw [heq] at hread
    extract_lets cores u' v x
    have hx : AccsKept s x := (hread.trans (foldl (fun s c => evictPartial s r c line) cores u)).next rfl
    split
    · exact hx
    · exact (hx.trans (writeHome ..)).trans (freshenHome ..)
  next u heq =>
    rw [heq] at hread
    exact hread

theorem agentRead (s : State) (pad pa n : Nat) : AccsKept s (s.agentRead pad pa n).1 := by
  have hgather : AccsKept s (s.readGathered pad (pa / 64) 3 0).1 := by
    unfold State.readGathered
    split
    · exact gather ..
    · exact readHome ..
  unfold State.agentRead State.agentReadAs
  split
  all_goals
    next heq =>
      rw [heq] at hgather
      exact hgather

theorem translate (s : State) (core : Option Nat) (pad : Nat) (secure super : Bool) (kind : AccessKind) (va : Nat) :
    AccsKept s (s.translate core pad secure super kind va).1 :=
  State.translate_keeps refl trans agentRead (fun _ _ => of_eq rfl) s core pad secure super kind va

theorem storeLines (t : Troop) (super : Bool) (ls : List LineReq) : ∀ s : State, AccsKept s (s.storeLines t super ls).1 := by
  induction ls with
  | nil => exact refl
  | cons l ls ih => exact fun s => (translate s (some t.core) t.pad t.secure super .write l.va).trans (ih _)

end AccsKept

end Sys2Proof.Machine
end

section
/-! PROOFS. ST (O24): without a lane in range it drops them, at die level or wider it puts an access in flight, and below it places the lines
that pass their check. -/

namespace Sys2Proof.Machine

open Sys2Proof.Claims

/-- The bytes that ST writes, a lane after the other. -/
def stElems (o : Operands) (z : Str) (rs : List (Nat × AddrRes)) : List Elem :=
  elemsOf (o.ty.width / 8) (fun l => z.vval o.ty o.d.toNat l % 2 ^ (8 * (o.ty.width / 8))) (fun _ => 0) rs

/-- The level of ST. -/
def stLevel (o : Operands) (z : Str) : Level := if o.spec then o.level else recLevel (z.breg o.b.toNat)

/-- The parts of ST in range. -/
def stLive (o : Operands) (z : Str) (rs : List (Nat × AddrRes)) : List Elem := (stElems o z rs).filter (·.w != 0)

/-- The access of ST: its lanes in range. -/
def stAccess (c : Cur) (z : Str) (t : Troop) (o : Operands) (rs : List (Nat × AddrRes)) : Access :=
  accessOf c t .st 0 o.ty (stLevel o z) 0 (stLive o z rs)

/-- How many lanes of ST are out of range. -/
def stDropped (o : Operands) (z : Str) (rs : List (Nat × AddrRes)) : Nat :=
  (stElems o z rs).length - (stLive o z rs).length

theorem exec_st (o : Operands) (s : State) : exec (.st o) s = s.issue (.st o) noCheck fun c z t =>
    match recAddrs z o (o.ty.width / 8) c.lanes with
    | .error f => s.raise c f
    | .ok rs =>
      if c.parts = 0 then s
      else if (stLive o z rs).any fun e => (s.inOpenRange t e.va e.w).isSome then s.raise c .rangeStore
      else if (stLive o z rs).isEmpty then s.countOob t.pad (stDropped o z rs)
      else if (t.demote (stLevel o z)).buffered then s.bufferedStore c z t (stAccess c z t o rs) (stDropped o z rs)
      else (s.start (stAccess c z t o rs)).countOob t.pad (stDropped o z rs) := rfl

section
variable {s : State} {c : Cur} {z : Str} {t : Troop} {o : Operands} {rs : List (Nat × AddrRes)}

theorem not_any_inOpenRange (h : OutsideRanges s t (stLive o z rs)) :
    ((stLive o z rs).any fun e => (s.inOpenRange t e.va e.w).isSome) = false := by
  rw [List.any_eq_false]
  intro e he
  have hw : e.w ≠ 0 := by simpa using (List.mem_filter.1 he).2
  rw [h e he hw]
  exact Bool.false_ne_true

variable (h : Issues s (.st o) c z t) (hp : c.parts ≠ 0) (hrs : recAddrs z o (o.ty.width / 8) c.lanes = .ok rs)
  (hout : OutsideRanges s t (stLive o z rs))
include h hp hrs hout

/-- ST with lanes that pass R184, outside open ranges. -/
theorem exec_st_ok : exec (.st o) s = .next (State.settleOverflow (
    if (stLive o z rs).isEmpty then s.countOob t.pad (stDropped o z rs)
    else if (t.demote (stLevel o z)).buffered then s.bufferedStore c z t (stAccess c z t o rs) (stDropped o z rs)
    else (s.start (stAccess c z t o rs)).countOob t.pad (stDropped o z rs)) t.tid) := by
  rw [exec_st]
  refine (State.issue_next h noCheck _ rfl).trans (congrArg _ (congrArg (State.settleOverflow · t.tid) ?_))
  simp only [hrs, hp, not_any_inOpenRange hout, Bool.false_eq_true, if_false]

theorem exec_st_drops (ho : t.overflow = false) (hnone : stLive o z rs = []) :
    exec (.st o) s = .next (s.countOob t.pad (stDropped o z rs)) := by
  rw [exec_st_ok h hp hrs hout, if_pos (List.isEmpty_iff.2 hnone)]
  exact congrArg _ (State.settleOverflow_self (State.troop?_of_troops (s := s) rfl (issues_tid h)) ho)

theorem exec_st_starts (ho : t.overflow = false) (hsome : stLive o z rs ≠ []) (hbuf : (t.demote (stLevel o z)).buffered = false) :
    exec (.st o) s = .next ((joined s (stAccess c z t o rs)).countOob t.pad (stDropped o z rs)) := by
  rw [exec_st_ok h hp hrs hout, if_neg (by rwa [List.isEmpty_iff]), if_neg (by rw [hbuf]; exact Bool.false_ne_true)]
  exact congrArg _ (State.settleOverflow_self (State.troop?_of_troops (s := s) rfl (issues_tid h)) ho)

theorem exec_st_buffers (hsome : stLive o z rs ≠ []) (hbuf : (t.demote (stLevel o z)).buffered = true) :
    exec (.st o) s = .next ((s.bufferedStore c z t (stAccess c z t o rs) (stDropped o z rs)).settleOverflow t.tid) := by
  rw [exec_st_ok h hp hrs hout, if_neg (by rwa [List.isEmpty_iff]), if_pos hbuf]

end

/-- The lines of a store are checked and placed as they stand, where none of its string waits at the rail. -/
theorem State.bufferedStore_eq {s s' : State} {c : Cur} {z : Str} {t : Troop} {a : Access} {dropped : Nat} {xs : List (LineReq × Xl)}
    (hxs : s.storeLines t a.super a.lines = (s', xs))
    (hfree : ∀ b ∈ s.accs, b.sid = a.sid → ∀ l ∈ b.lines, l.st.hitched = false) :
    s.bufferedStore c z t a dropped = match s'.storeCheck z t a s'.projected xs with
      | some f => s'.raise c f
      | none => ((joined (s'.countOob t.pad dropped) { a with strict := z.conflictFaults }).placeLines t { a with id := s'.nextId } 0
          xs).settleStore s'.nextId := by
  have hkept : AccsKept s s' := by
    have := AccsKept.storeLines t a.super a.lines s
    rwa [hxs] at this
  have hbehind (l : LineReq) :
      (s'.accs.any fun b => b.sid == a.sid && b.lines.any fun x => x.va == l.va && x.st.hitched) = false := by
    rw [List.any_eq_false]
    intro b hb
    obtain ⟨y, hy, hsid, hlines⟩ := hkept.each b hb
    by_cases hown : b.sid = a.sid
    · have hnone : ∀ x ∈ b.lines, x.st.hitched = false := fun x hx => hfree y hy (hsid.trans hown) x (hlines ▸ hx)
      simp +contextual [hnone]
    · simp [hown]
  simp only [State.bufferedStore, hxs, hbehind, Bool.not_false, List.filter_true, Bool.false_eq_true, if_false, List.map_id']
  rfl

/-- Settles O24: ST by its three ways to go, and the acceptance of the lines of its access. -/
theorem storesStart : Obligations.StoresStart := by
  intro o s c z t rs h ho hp hrs es live lvl a dropped hout
  refine ⟨exec_st_drops h hp hrs hout ho, fun hsome hbuf => ⟨exec_st_starts h hp hrs hout ho hsome hbuf, accepts_of_kind (.inl rfl)⟩,
    fun hsome hbuf s' xs hxs hfree => ?_⟩
  have hx := exec_st_buffers h hp hrs hout hsome hbuf
  rw [State.bufferedStore_eq hxs hfree] at hx
  refine ⟨fun hpass => ⟨hx.trans ?_, accepts_of_kind (.inl rfl)⟩, fun f hfail => hx.trans ?_⟩
  · change s'.storeCheck z t (stAccess c z t o rs) s'.projected xs = none at hpass
    rw [hpass]
    rfl
  · change s'.storeCheck z t (stAccess c z t o rs) s'.projected xs = some f at hfail
    rw [hfail]

end Sys2Proof.Machine
end

section
/-! PROOFS. What a load assembles over its line (O26), how a translated line of a store is accepted (O28), and what a write changes as it
reaches its L2 slice and then its home (O29). First the bytes of a line that is changed byte by byte. -/

namespace Sys2Proof.Machine

open Sys2Proof.Claims

/-! ### Bytes of a line -/

theorem mem_maskBytes {m : Dword} {i : Nat} : i ∈ maskBytes m ↔ i < 64 ∧ m.getLsbD i = true := by
  simp [maskBytes]

/-- The bits of a byte of ones. -/
theorem getElem_byteOnes {k : Nat} (hk : k < 512) : (255#512)[k] = decide (k < 8) := by
  rw [← BitVec.getLsbD_eq_getElem, BitVec.getLsbD_ofNat, decide_eq_true hk, Bool.true_and]
  exact Nat.testBit_two_pow_sub_one 8 k

/-- A byte that is put into a line reads back, and every other byte stays. -/
theorem lineByte_lineSet (x : BitVec 512) (b : Byte) {i j : Nat} (hi : i < 64) :
    lineByte (lineSet x j b) i = if i = j then b else lineByte x i := by
  apply BitVec.eq_of_getLsbD_eq
  intro k hk
  have hn : 8 * i + k < 512 := by omega
  by_cases hij : i = j
  · subst hij
    have hsub : 8 * i + k - 8 * i = k := by omega
    simp [lineByte, lineSet, getElem_byteOnes, hk, hn, hsub]
  · by_cases hlt : i < j
    · have hb : 8 * i + k < 8 * j := by omega
      simp [lineByte, lineSet, hk, hn, hij, hb]
    · have h8 : 8 ≤ 8 * i + k - 8 * j := by omega
      simp [lineByte, lineSet, getElem_byteOnes, hk, hn, hij, h8]

/-- Two lines with the same bytes are one. -/
theorem line_eq_of_bytes {x y : BitVec 512} (h : ∀ i < 64, lineByte x i = lineByte y i) : x = y := by
  apply BitVec.eq_of_getLsbD_eq
  intro k hk
  have hbit := congrArg (·.getLsbD (k % 8)) (h (k / 8) (by omega))
  simpa [lineByte, Nat.mod_lt, Nat.div_add_mod] using hbit

/-- A line with the bytes of a list put into it, where `f` gives one. -/
def putBytes (f : Nat → Option Byte) (is : List Nat) (x : BitVec 512) : BitVec 512 :=
  is.foldl (fun x j => (f j).elim x (lineSet x j)) x

theorem lineByte_putBytes (f : Nat → Option Byte) (is : List Nat) {i : Nat} (hi : i < 64) : ∀ x : BitVec 512,
    lineByte (putBytes f is x) i = if i ∈ is then (f i).getD (lineByte x i) else lineByte x i := by
  induction is with
  | nil => exact fun _ => rfl
  | cons j js ih =>
    intro x
    have hstep : lineByte ((f j).elim x (lineSet x j)) i = if i = j then (f i).getD (lineByte x i) else lineByte x i := by
      cases hf : f j with
      | none => by_cases hij : i = j <;> simp [hij, hf]
      | some b =>
      rw [Option.elim_some, lineByte_lineSet x b hi]
      by_cases hij : i = j <;> simp [hij, hf]
    change lineByte (putBytes f js _) i = _
    rw [ih, hstep]
    by_cases hij : i = j
    · subst hij
      cases f i <;> simp
    · simp [hij]

theorem lineMerge_eq (x : BitVec 512) (m : Dword) (d : BitVec 512) :
    lineMerge x m d = putBytes (fun j => some (lineByte d j)) (maskBytes m) x := rfl

theorem lineByte_lineMerge (x : BitVec 512) (m : Dword) (d : BitVec 512) {i : Nat} (hi : i < 64) :
    lineByte (lineMerge x m d) i = if m.getLsbD i = true then lineByte d i else lineByte x i := by
  rw [lineMerge_eq, lineByte_putBytes _ _ hi]
  simp only [mem_maskBytes, hi, true_and, Option.getD_some]

/-! ### A load (R206, R233) -/

section
variable (s : State) (sid : Nat) (t : Troop)

/-- The byte that a lane's load takes from the buffers, or from its own writes on their way. -/
def State.nearByte (lane : Option Nat) (line fresh i : Nat) : Option Byte :=
  (s.bufferedByte sid t (64 * line + i)).or (s.forwarded sid lane line i fresh)

theorem State.assemble_eq (lane : Option Nat) (line : Nat) (mask : Dword) (d : BitVec 512) (fresh : Nat) :
    s.assemble sid t lane line mask d fresh = putBytes (s.nearByte sid t lane line fresh) (maskBytes mask) d := by
  unfold State.assemble putBytes
  congr 1
  funext x i
  unfold State.nearByte
  cases s.bufferedByte sid t (64 * line + i) with
  | some b => rfl
  | none => cases s.forwarded sid lane line i fresh <;> rfl

theorem State.bufferedByte_eq (pa : Nat) : s.bufferedByte sid t pa =
    (s.bufByte t (.str sid) pa).or ((s.bufByte t (.trp t.tid) pa).or (s.bufByte t (.clu (clusterOf t.core)) pa)) := by
  unfold State.bufferedByte
  cases s.bufByte t (.str sid) pa with
  | some b => rfl
  | none => cases s.bufByte t (.trp t.tid) pa <;> rfl

end

/-- Settles O26: a load puts into its line what is near, byte by byte, and a buffer's byte goes before one on its way. -/
theorem loadsReadBuffersFirst : Obligations.LoadsReadBuffersFirst := by
  refine ⟨fun s sid t lane line mask d fresh i hi => ?_, State.bufferedByte_eq⟩
  rw [State.assemble_eq, lineByte_putBytes _ _ hi]
  simp only [mem_maskBytes, hi, true_and, State.nearByte]
  cases s.bufferedByte sid t (64 * line + i) <;> rfl

/-! ### A store (R204, R205, R217 to R219) -/

/-- Settles O28 by the lemma of the ST and RADD instructions. -/
theorem storesAreAccepted : Obligations.StoresAreAccepted := fun _ hk => accepts_of_kind hk

/-! ### A write performed at its home (R196, R204, R442) -/

section
variable {s : State} {line : Nat}

/-- A write of some bytes of a line of memory. -/
theorem get_setMemLine (m : List Host.Cell) (line : Nat) (mask : Dword) (d : BitVec 512) (a : Nat) :
    Cells.get 0 (setMemLine m line mask d) a =
      if a / 64 = line ∧ mask.getLsbD (a % 64) = true then lineByte d (a % 64) else Cells.get 0 m a := by
  have hi : a % 64 < 64 := Nat.mod_lt a (by decide)
  by_cases ha : a / 64 = line
  · have hsum : 64 * line + a % 64 = a := by omega
    cases hm : mask.getLsbD (a % 64) with
    | true => simpa [ha, hsum] using setMemLine_masked m line mask d (a % 64) hi hm
    | false => simpa [ha, hsum] using setMemLine_unmasked m line mask d (a % 64) hm
  · rw [setMemLine_other m line mask d a ha, if_neg fun h => ha h.1]

/-- The line of memory after a write of some of its bytes. -/
theorem memLine_setMemLine (m : List Host.Cell) (line : Nat) (mask : Dword) (d : BitVec 512) :
    memLine (setMemLine m line mask d) line = lineMerge (memLine m line) mask d := by
  refine line_eq_of_bytes fun i hi => ?_
  have hdiv : (64 * line + i) / 64 = line := by omega
  have hmod : (64 * line + i) % 64 = i := by omega
  rw [lineByte_memLine _ _ hi, get_setMemLine, lineByte_lineMerge _ _ _ hi, lineByte_memLine _ _ hi, hdiv, hmod]
  simp only [true_and]

theorem lineMerge_all (x d : BitVec 512) : lineMerge x allBytes d = d := by
  refine line_eq_of_bytes fun i hi => ?_
  rw [lineByte_lineMerge _ _ _ hi, allBytes, BitVec.getLsbD_allOnes, decide_eq_true hi, if_pos rfl]

/-- The LLC's line with bytes written is the most recently used one, and every other byte at home stays. -/
theorem State.homeByte_mergeLlc {l : LlcLine} (h : s.llcLine line = some l) (mask : Dword) (d : BitVec 512) (a : Nat) :
    homeByte { s with llc := { l with data := lineMerge l.data mask d, dirty := true } :: s.llc.erase l } a =
      if a / 64 = line ∧ mask.getLsbD (a % 64) = true then lineByte d (a % 64) else homeByte s a := by
  have hi : a % 64 < 64 := Nat.mod_lt a (by decide)
  have hl := llcLine_line h
  by_cases ha : a / 64 = line
  · rw [homeByte_of_llcLine (l := { l with data := lineMerge l.data mask d, dirty := true }) (by simp [State.llcLine, hl, ha]),
      lineByte_lineMerge _ _ _ hi, homeByte_of_llcLine (by rw [ha]; exact h)]
    simp only [ha, true_and]
  · have hne : (l.line == a / 64) = false := by simp [hl, Ne.symm ha]
    simp only [homeByte, State.llcLine, List.find?_cons, hne, find?_erase_of_not (p := (LlcLine.line · == a / 64)) hne, ha, false_and,
      if_false]

/-- Bytes of a line written into DRAM, whose errors are then `po` and `us`. -/
def State.wroteMem (s : State) (line : Nat) (mask : Dword) (d : BitVec 512) (po : List Nat) (us : Cells Nat) : State :=
  { s with mem := setMemLine s.mem line mask d, poison := po, upsets := us }

/-- A line that is not in the LLC is written into DRAM and may then enter the LLC. -/
theorem State.homeByte_wroteMem (h : s.llcLine line = none) (mask : Dword) (d : BitVec 512) (po : List Nat) (us : Cells Nat)
    (pad pol part a : Nat) :
    homeByte ((s.wroteMem line mask d po us).allocLlc pad line pol part (lineMerge (memLine s.mem line) mask d)) a =
      if a / 64 = line ∧ mask.getLsbD (a % 64) = true then lineByte d (a % 64) else homeByte s a := by
  have halloc := State.homeByte_allocLlc (s := s.wroteMem line mask d po us) h pad pol part a
  rw [show memLine (s.wroteMem line mask d po us).mem line = _ from memLine_setMemLine ..] at halloc
  have hmem : Cells.get 0 (s.wroteMem line mask d po us).mem a = _ := get_setMemLine s.mem line mask d a
  rw [halloc]
  cases hl : s.llcLine (a / 64) with
  | none => rw [homeByte_of_none hl, homeByte_of_none (s := s.wroteMem line mask d po us) hl, hmem]
  | some l =>
    have ha : a / 64 ≠ line := fun ha => absurd (hl.symm.trans (ha ▸ h)) (by simp)
    rw [homeByte_of_llcLine hl, homeByte_of_llcLine (s := s.wroteMem line mask d po us) hl, if_neg fun h => ha h.1]

/-- DRAM answers a line that has no error there. -/
theorem State.readDram_clean (hp : s.poison.contains line = false) (hu : Cells.get 0 s.upsets line = 0) (pad : Nat) :
    s.readDram pad line = (s, some (memLine s.mem line)) := by
  simp only [State.readDram, hp, hu, Bool.false_eq_true, if_false]

/-- A home without an error performs a write: its bytes take their values, and no other byte at any home changes. -/
theorem State.writeHome_clean (hd : s.peerDown (64 * line) = false) (hp : s.poison.contains line = false)
    (hu : Cells.get 0 s.upsets line = 0) (pad pol part : Nat) (mask : Dword) (d : BitVec 512) :
    (s.writeHome pad line pol part mask d).2 = true ∧ ∀ a, homeByte (s.writeHome pad line pol part mask d).1 a =
      if a / 64 = line ∧ mask.getLsbD (a % 64) = true then lineByte d (a % 64) else homeByte s a := by
  simp only [State.writeHome, hd, Bool.false_eq_true, if_false]
  cases hl : s.llcLine line with
  | some l => exact ⟨rfl, State.homeByte_mergeLlc hl mask d⟩
  | none =>
    dsimp only
    by_cases hall : mask = allBytes
    · subst hall
      have hwrote := State.homeByte_wroteMem hl allBytes d (s.poison.erase line) (Cells.erase line s.upsets) pad pol part
      rw [lineMerge_all] at hwrote
      exact ⟨rfl, hwrote⟩
    · rw [if_neg hall, State.readDram_clean hp hu]
      exact ⟨rfl, State.homeByte_wroteMem hl mask d s.poison s.upsets pad pol part⟩

theorem State.dropLlc_writes (s : State) (line : Nat) : (s.dropLlc line).writes = s.writes := by
  unfold State.dropLlc
  split
  · dsimp only
    split <;> rfl
  · rfl

theorem State.llcWay_writes (s : State) (line : Nat) (m : Half) : (s.llcWay line m).1.writes = s.writes := by
  rcases s.llcWay_eq line m with h | ⟨l, -, h⟩
  · rw [h]
  · rw [h, State.dropLlc_writes]

theorem State.allocLlc_writes (s : State) (pad line pol part : Nat) (d : BitVec 512) :
    (s.allocLlc pad line pol part d).writes = s.writes := by
  have hway := s.llcWay_writes line (s.partMask (homeDie line) part)
  unfold State.allocLlc
  split
  · rfl
  split
  · split
    all_goals
      next heq =>
        rw [heq] at hway
        exact hway
  · rfl

theorem State.readDram_writes (s : State) (pad line : Nat) : (s.readDram pad line).1.writes = s.writes := by
  have hrow (u : State) : (u.listRow line).writes = u.writes := by
    unfold State.listRow
    dsimp only
    repeat' split
    all_goals rfl
  unfold State.readDram
  split
  · rfl
  split
  · rfl
  · dsimp only [State.noteCorrected]
    split
    · exact hrow _
    · rfl
  · exact hrow _

/-- A home takes no write from its way and puts none there. -/
theorem State.writeHome_writes (s : State) (pad line pol part : Nat) (mask : Dword) (d : BitVec 512) :
    (s.writeHome pad line pol part mask d).1.writes = s.writes := by
  have hread := s.readDram_writes pad line
  unfold State.writeHome
  split
  · rfl
  split
  · rfl
  split
  · exact State.allocLlc_writes ..
  split
  next heq =>
    rw [heq] at hread
    exact (State.allocLlc_writes ..).trans hread
  next heq =>
    rw [heq] at hread
    exact hread

end

/-! ### The way of a write (R204, R232, R239) -/

section
variable {s : State} {w : HomeWrite} {wid : Nat}

/-- Where no cache holds the authority of a line there is none to return. -/
theorem State.returnAuth_self {line : Nat} (h1 : holder s.l1 line = none) (h2 : holder s.l2 line = none) : s.returnAuth line = s := by
  simp only [State.returnAuth, State.spillL1, State.spillL2, h1, h2]

/-- Of the home die's copies, an L2's alone is brought up to date. -/
theorem State.freshenHome_eq (s : State) (line : Nat) (mask : Dword) (d : BitVec 512) :
    s.freshenHome line mask d = { s with l2 := (s.freshenHome line mask d).l2 } := by
  unfold State.freshenHome
  split <;> rfl

/-- The write is the one of its number, and no older write holds it back on its way to its L2 slice or from there to its home. -/
structure WriteGoes (s : State) (wid : Nat) (w : HomeWrite) : Prop where
  found : s.writes.find? (·.wid == wid) = some w
  first : ∀ x ∈ s.writes.takeWhile (·.wid != wid), x.line ≠ w.line
  host : hostLine w.line = true → ∀ x ∈ s.writes, x.core = w.core → hostLine x.line = true →
    wid ≤ x.wid ∧ x ∉ s.writes.takeWhile (·.wid != wid)

theorem WriteGoes.arrivesL2 (h : WriteGoes s wid w) (hw : w.atL2 = false) : s.arriveWrite wid = s.arriveL2 w := by
  have hfree : ((s.writes.takeWhile (·.wid != wid)).any fun x => !x.atL2 && x.core == w.core &&
      (x.line == w.line || (hostLine w.line && hostLine x.line))) = false := by
    rw [List.any_eq_false]
    intro x hx hb
    simp only [Bool.and_eq_true, Bool.or_eq_true, beq_iff_eq] at hb
    obtain ⟨⟨-, hcore⟩, hline | ⟨hhost, hxhost⟩⟩ := hb
    · exact h.first x hx hline
    · exact (h.host hhost x ((List.takeWhile_sublist _).subset hx) hcore hxhost).2 hx
  simp only [State.arriveWrite, h.found, hw, hfree, Bool.false_eq_true, if_false]

theorem WriteGoes.arrivesHome (h : WriteGoes s wid w) (hw : w.atL2 = true) : s.arriveWrite wid = s.arriveHome w := by
  have hfree : ((s.writes.takeWhile (·.wid != wid)).any fun x => x.atL2 && x.line == w.line && dieOf x.core == dieOf w.core) = false := by
    rw [List.any_eq_false]
    intro x hx hb
    simp only [Bool.and_eq_true, beq_iff_eq] at hb
    exact h.first x hx hb.1.2
  have hhost : (hostLine w.line && s.writes.any fun x => decide (x.wid < wid) && x.core == w.core && hostLine x.line) = false := by
    rw [Bool.and_eq_false_imp]
    intro hline
    rw [List.any_eq_false]
    intro x hx hb
    simp only [Bool.and_eq_true, beq_iff_eq, decide_eq_true_eq] at hb
    exact absurd hb.1.1 (Nat.not_lt.2 (h.host hline x hx hb.1.2 hb.2).1)
  simp only [State.arriveWrite, h.found, hw, hfree, hhost, if_true, Bool.false_eq_true, if_false]

/-- A write that reaches its L2 slice changes the caches and its round. -/
theorem State.arriveL2_eq (h1 : holder s.l1 w.line = none) (h2 : holder s.l2 w.line = none) :
    let u := s.arriveL2 w
    u = { s with writes := s.writes.erase w ++ [{ w with atL2 := true }], l1 := u.l1, l2 := u.l2, rounds := u.rounds } := by
  simp only [State.arriveL2, h1, h2, Bool.or_self, Bool.false_eq_true, if_false]
  rfl

/-- A write that its home performs leaves the strings, the troops and the buffers alone. -/
theorem State.landHome_clean (hd : s.peerDown (64 * w.line) = false) (hp : s.poison.contains w.line = false)
    (hu : Cells.get 0 s.upsets w.line = 0) :
    let u := s.landHome w
    u.strs = s.strs ∧ u.troops = s.troops ∧ u.lines = s.lines ∧ u.writes = s.writes.erase w ∧ ∀ a, homeByte u a =
      if a / 64 = w.line ∧ w.mask.getLsbD (a % 64) = true then lineByte w.data (a % 64) else homeByte s a := by
  let v : State := { s with writes := s.writes.erase w }
  let wrote := v.writeHome w.pad w.line w.pol w.part w.mask w.data
  obtain ⟨hok, hbytes⟩ := State.writeHome_clean (s := v) hd hp hu w.pad w.pol w.part w.mask w.data
  have hsame : SameButHome v wrote.1 := .writeHome ..
  have hwrites : wrote.1.writes = s.writes.erase w := State.writeHome_writes v ..
  have hv : v.peerDown (64 * w.line) = false := hd
  have hland : ∃ l1 l2 rounds, s.landHome w = { wrote.1 with l1 := l1, l2 := l2, rounds := rounds } := by
    have heq : s.landHome w = ((if homeDie w.line = dieOf w.core then wrote.1 else wrote.1.freshenHome w.line w.mask w.data).dropStale
        w).countArrival w fun r => { r with arrHome := w.line :: r.arrHome } := by
      simp only [State.landHome]
      rw [show ({ s with writes := s.writes.erase w } : State) = v from rfl, hv, hok]
      rfl
    rw [heq]
    split
    · exact ⟨_, _, _, rfl⟩
    · rw [State.freshenHome_eq]
      exact ⟨_, _, _, rfl⟩
  obtain ⟨l1, l2, rounds, hland⟩ := hland
  refine hland ▸ ⟨hsame.strs, hsame.troops, hsame.lines, hwrites, fun a => ?_⟩
  exact (homeByte_congr rfl rfl a).trans ((hbytes a).trans rfl)

end

/-- Settles O29: nothing holds the write back, so it takes its next step, at its L2 slice or at its home. -/
theorem homeWritesArrive : Obligations.HomeWritesArrive := by
  intro s wid w hfound h1 h2 hp hu hd hfirst hhost
  have hgoes : WriteGoes s wid w := ⟨hfound, hfirst, hhost⟩
  refine ⟨s.arriveWrite wid, rfl, ?_⟩
  cases hw : w.atL2 with
  | false =>
    have heq := State.arriveL2_eq h1 h2
    rw [hgoes.arrivesL2 hw, heq]
    exact ⟨rfl, rfl, rfl, fun _ => ⟨rfl, rfl, rfl⟩, fun h => absurd h (by decide)⟩
  | true =>
    have heq : s.arriveHome w = s.landHome w := by
      simp only [State.arriveHome, State.returnAuth_self h1 h2, ite_self]
    obtain ⟨hstrs, htroops, hlines, hwrites, hbytes⟩ := State.landHome_clean (w := w) hd hp hu
    rw [hgoes.arrivesHome hw, heq]
    exact ⟨hstrs, htroops, hlines, fun h => absurd h (by decide), fun _ => ⟨hwrites, hbytes⟩⟩

end Sys2Proof.Machine
end

section
/-! PROOFS. The events of the operations on which ACQ, COMMIT, ABORT, CROPEN and CRCLOSE park their bundle, and with them how a commutative
range opens and closes (O34). -/

namespace Sys2Proof.Machine

open Sys2Proof.Claims

/-! ### The events of an operation -/

section
variable {s : State} {o : SysOp} {z : Str} {t : Troop}

/-- The operation stands, with its string and its troop. -/
structure Stands (s : State) (o : SysOp) (z : Str) (t : Troop) : Prop where
  op : s.op? o.id = some o
  str : s.str? o.sid = some z
  troop : s.troop? z.tid = some t

theorem Stands.owner (h : Stands s o z t) : s.ownerOf o = some (z, t) := by
  simp only [State.ownerOf, h.str, Option.bind_some, h.troop, Option.map_some]

/-- An event does what the state in which its operation stands makes it do. -/
theorem OpEvent.of {i : Instr} {pre : State → Str → Troop → Prop} {eff : State → Str → Troop → State}
    (h : ∀ s z t, Stands s o z t → pre s z t → exec i s = .next (eff s z t)) : OpEvent i o pre eff :=
  fun s z t hop hz ht => h s z t ⟨hop, hz, ht⟩

theorem Stands.exec_acqComplete (h : Stands s o z t) (hk : o.kind = .acq) : exec (.acqComplete o.id) s =
    .next (if s.loadsDone o.sid o.id (BitVec.ofNat 32 o.arg2) then (s.acquire z.core o.lvl fun _ => true).endOp o else s) := by
  change execAcqComplete o.id s = _
  simp only [execAcqComplete, h.op, h.owner, hk]
  split <;> rfl

theorem Stands.exec_commitComplete (h : Stands s o z t) (hk : o.kind = .commit) :
    exec (.commitComplete o.id) s = .next (s.stepCommit o z t) := by
  change execCommitComplete o.id s = _
  simp only [execCommitComplete, h.op, h.owner, hk]

theorem Stands.exec_systemOpComplete (h : Stands s o z t) (hk : o.kind ≠ .launch) :
    exec (.systemOpComplete o.id) s = .next (s.stepSystemOp o z t) := by
  change execSystemOpComplete o.id s = _
  simp only [execSystemOpComplete, h.op, h.owner, hk, if_false]

end

/-! ### ACQ and COMMIT (R210 to R213, R238, R240) -/

section
variable {o : SysOp}

theorem acqEnds (hk : o.kind = .acq) : AcqEnds o :=
  OpEvent.of fun _ _ _ h hdone => (h.exec_acqComplete hk).trans (congrArg _ (if_pos hdone))

theorem acq_waits (hk : o.kind = .acq) :
    OpEvent (.acqComplete o.id) o (fun s _ _ => s.loadsDone o.sid o.id (BitVec.ofNat 32 o.arg2) = false) fun s _ _ => s :=
  OpEvent.of fun _ _ _ h hnot => (h.exec_acqComplete hk).trans (congrArg _ (if_neg (by simp [hnot])))

section
variable {s : State} {z : Str} {t : Troop}

/-- A COMMIT at cluster level or below takes its lines into the next buffer, or traps (R211, R219). -/
def State.commitBelow (s : State) (o : SysOp) (z : Str) (t : Troop) : State :=
  match s.commitInto z t o.lvl false with
  | .ok s => s.endOp o
  | .error c => s.failOp o c

/-- A COMMIT that nothing holds back takes its lines. -/
theorem State.stepCommit_go (hph : o.phase = .waiting) (hrun : s.haltedCore t.core = false) (hst : s.storesPending z.sid o.id = false)
    (hat : s.atomsPending z.sid o.id o.lvl = false) : s.stepCommit o z t =
      if (t.demote o.lvl).buffered then s.commitBelow o z t
      else if !s.mayClose t.core then s
      else if (s.commitBytes z.sid t (t.demote o.lvl)).any fun c => (s.inOpenRange t c.va 64).isSome then s.failOp o .rangeStore
      else (s.commitEmptied z.sid t (t.demote o.lvl)).publish t o (t.demote o.lvl) (s.commitBytes z.sid t (t.demote o.lvl)) := by
  simp only [State.stepCommit, hph, hrun, hst, hat, Bool.or_self, Bool.false_eq_true, if_false]
  rfl

theorem State.stepCommit_waits (hph : o.phase = .waiting)
    (h : s.storesPending z.sid o.id = true ∨ s.atomsPending z.sid o.id o.lvl = true) : s.stepCommit o z t = s := by
  simp only [State.stepCommit, hph]
  exact if_pos (by rcases h with h | h <;> simp [h])

theorem State.stepCommit_sent (hph : o.phase = .sent) (h : s.roundsDone t.core o.arg (t.demote o.lvl) = true) :
    s.stepCommit o z t = s.endCommit o := by
  simp only [State.stepCommit, hph, h, if_true]

end

theorem commitEnds (hk : o.kind = .commit) (hph : o.phase = .waiting) : CommitEnds o := by
  refine ⟨OpEvent.of fun s z t h hp => ?_, OpEvent.of fun s z t h hp => ?_, OpEvent.of fun s z t h hp => ?_,
    fun n f => OpEvent.of fun s z t h hp => ?_⟩
  · obtain ⟨⟨hrun, hst, hat⟩, hbuf⟩ := hp
    rw [h.exec_commitComplete hk, State.stepCommit_go hph hrun hst hat, if_pos hbuf]
    rfl
  · obtain ⟨⟨hrun, hst, hat⟩, hbuf, hrounds, hfree⟩ := hp
    rw [h.exec_commitComplete hk, State.stepCommit_go hph hrun hst hat, if_neg (by simp [hbuf]),
      if_neg (by simp [State.mayClose, hrounds]), if_neg (by simpa using hfree)]
  · obtain ⟨⟨hrun, hst, hat⟩, hbuf, hrounds, x, hx, hrange⟩ := hp
    rw [h.exec_commitComplete hk, State.stepCommit_go hph hrun hst hat, if_neg (by simp [hbuf]),
      if_neg (by simp [State.mayClose, hrounds]), if_pos (List.any_eq_true.2 ⟨x, hx, Option.isSome_iff_ne_none.2 hrange⟩)]
  · exact (h.exec_commitComplete (o := { o with phase := .sent, arg := n, fault := f }) hk).trans
      (congrArg _ (State.stepCommit_sent rfl hp))

theorem commit_waits (hk : o.kind = .commit) (hph : o.phase = .waiting) : OpEvent (.commitComplete o.id) o
    (fun s z _ => s.storesPending z.sid o.id = true ∨ s.atomsPending z.sid o.id o.lvl = true) fun s _ _ => s :=
  OpEvent.of fun _ _ _ h hp => (h.exec_commitComplete hk).trans (congrArg _ (State.stepCommit_waits hph hp))

/-! ### ABORT (R214 to R216) -/

section
variable {s : State} {t : Troop}

theorem State.grant_self (hheld : s.heldReqs = []) (hwait : s.railWait = []) : s.grant = s := by
  have hnone : s.railWait.filter (fun c => s.heldReqs.any (·.core == c)) = s.railWait := by rw [hwait]; rfl
  have hlen : s.heldReqs.length = 0 := by rw [hheld]; rfl
  rw [State.grant, hnone, hlen, State.grantHeld]

theorem updAll_self {α : Type} {p : α → Bool} {f : α → α} {xs : List α} (h : ∀ x ∈ xs, p x = true → f x = x) : updAll p f xs = xs := by
  refine (List.map_congr_left fun x hx => ?_).trans (List.map_id xs)
  split
  next hp => exact h x hx hp
  next => rfl

/-- A store that an ABORT discards (R215). -/
def State.discards (s : State) (sid : Nat) (t : Troop) (lvl : Level) (a : Access) : Bool :=
  a.kind == .st && decide ((t.demote a.lvl).code ≤ lvl.code) &&
    (a.sid == sid || (decide (1 ≤ lvl.code) && (s.strsOf t.tid).any (·.sid == a.sid)))

/-- The store with its hitched lines ended. -/
def Access.unhitched (a : Access) : Access :=
  { a with lines := updAll (fun l : LineReq => l.st.hitched) (fun l => { l with st := .done }) a.lines }

theorem Access.unhitched_self {a : Access} (h : ∀ l ∈ a.lines, l.st.hitched = false) : a.unhitched = a := by
  rw [Access.unhitched, updAll_self fun l hl hh => absurd ((h l hl).symm.trans hh) (by decide)]

/-- An ABORT ends the hitched lines of the stores that it discards, takes their requests back and settles them. -/
theorem State.cancelHitched_eq (s : State) (sid : Nat) (t : Troop) (lvl : Level) : ∃ p q, s.cancelHitched sid t lvl =
    ((s.accs.filter fun a => s.discards sid t lvl a && a.lines.any fun l => l.st.hitched).map (·.id)).foldl State.settleStore
      (State.grant { s with accs := updAll (s.discards sid t lvl) Access.unhitched s.accs, rail := s.rail.filter p
                            heldReqs := s.heldReqs.filter q }) :=
  ⟨_, _, rfl⟩

/-- With no store hitched, an ABORT cancels none. -/
theorem State.cancelHitched_self (hst : ∀ a ∈ s.accs, a.kind = .st → ∀ l ∈ a.lines, l.st.hitched = false) (hheld : s.heldReqs = [])
    (hrail : s.rail = []) (hwait : s.railWait = []) (sid : Nat) (t : Troop) (lvl : Level) : s.cancelHitched sid t lvl = s := by
  have hfree (a : Access) (ha : a ∈ s.accs) (hd : s.discards sid t lvl a = true) : ∀ l ∈ a.lines, l.st.hitched = false := by
    simp only [State.discards, Bool.and_eq_true, beq_iff_eq] at hd
    exact hst a ha hd.1.1
  have hids : (s.accs.filter fun a => s.discards sid t lvl a && a.lines.any fun l => l.st.hitched) = [] := by
    rw [List.filter_eq_nil_iff]
    intro a ha hb
    obtain ⟨hd, hl⟩ := Bool.and_eq_true_iff.1 hb
    obtain ⟨l, hl, hh⟩ := List.any_eq_true.1 hl
    exact absurd ((hfree a ha hd l hl).symm.trans hh) (by decide)
  have haccs : updAll (s.discards sid t lvl) Access.unhitched s.accs = s.accs :=
    updAll_self fun a ha hd => Access.unhitched_self (hfree a ha hd)
  obtain ⟨p, q, heq⟩ := s.cancelHitched_eq sid t lvl
  have hrailp : s.rail.filter p = s.rail := by rw [hrail]; rfl
  have hheldq : s.heldReqs.filter q = s.heldReqs := by rw [hheld]; rfl
  rw [heq, hids, haccs, hrailp, hheldq]
  exact State.grant_self hheld hwait

@[simp] theorem State.abortBuffers_pendFlags (s : State) (sid : Nat) (t : Troop) (l : Level) :
    (s.abortBuffers sid t l).pendFlags = s.pendFlags := by
  unfold State.abortBuffers
  generalize s.abortSpaces sid t l = sps
  induction sps generalizing s with
  | nil => rfl
  | cons sp sps ih => exact (ih _).trans rfl

end

theorem abortEnds (hk : o.kind = .abort) : AbortEnds o := by
  refine OpEvent.of fun s z t h hp => ?_
  obtain ⟨hnodes, hst, hhitched, hheld, hrail, hwait, hflags⟩ := hp
  have hpend : ((s.abortBuffers z.sid t o.lvl).prune.takeFlags o.id) = (s.abortBuffers z.sid t o.lvl).prune :=
    State.takeFlags_self (by rw [show (s.abortBuffers z.sid t o.lvl).prune.pendFlags = _ from State.abortBuffers_pendFlags ..]; exact hflags)
  change execAbortComplete o.id s = _
  simp only [execAbortComplete, h.op, h.owner, hk, State.cancelHitched_self hhitched hheld hrail hwait, State.guardWrite,
    State.guard_free hnodes, hst, hpend, Bool.false_eq_true, if_false, beq_iff_eq]

/-! ### CROPEN and CRCLOSE (R224, R227, R272, R273, R275) -/

section
variable {s : State} {z : Str} {t : Troop}

theorem Stands.exec_rangeDeclaration_halted (h : Stands s o z t) (hk : o.kind = .cropen) (hph : o.phase = .waiting)
    (hhalt : s.haltedCore t.core = true) : exec (.rangeDeclarationComplete o.id) s = .next s := by
  change execRangeDeclarationComplete o.id s = _
  simp only [execRangeDeclarationComplete, h.op, h.owner, hk, hph, hhalt, if_true]
  split <;> rfl

theorem Stands.exec_rangeDeclaration_full (h : Stands s o z t) (hk : o.kind = .cropen) (hph : o.phase = .waiting)
    (hrun : s.haltedCore t.core = false) (hfull : s.freeSlot t = none) :
    exec (.rangeDeclarationComplete o.id) s = .next (s.failOp o .bounds) := by
  change execRangeDeclarationComplete o.id s = _
  simp only [execRangeDeclarationComplete, h.op, h.owner, hk, hph, hrun, hfull, Bool.false_eq_true, if_false]

theorem Stands.exec_rangeDeclaration_slot (h : Stands s o z t) (hk : o.kind = .cropen) (hph : o.phase = .waiting)
    (hrun : s.haltedCore t.core = false) {slot : Nat} (hslot : s.freeSlot t = some slot) :
    exec (.rangeDeclarationComplete o.id) s = .next (if s.rangeClash t o.arg (o.arg2 / 256) then s.failOp o .bounds
      else { s with ranges := s.ranges ++ [declared o t slot] }.updOp o.id fun o => { o with phase := .sent }) := by
  change execRangeDeclarationComplete o.id s = _
  simp only [execRangeDeclarationComplete, h.op, h.owner, hk, hph, hrun, hslot, Bool.false_eq_true, if_false]
  split <;> rfl

/-- The declaration of a base opens, in the tables of a context, with no copy of the lines of `p` left. -/
def State.opened (s : State) (t : Troop) (base : Nat) (p : Nat → Bool) : State :=
  { s.dropCopies p with
    ranges := updAll (fun r => r.pad == t.pad && r.secure == t.secure && r.base == base) (fun r => { r with st := .isOpen }) s.ranges }

theorem Stands.exec_rangeDeclaration_sent (h : Stands s o z t) (hk : o.kind = .cropen) (hph : o.phase = .sent) {s1 : State}
    {ps : List (Nat × Nat)} (hspans : s.spansOf t (State.isSuper t o.trap) o.arg (o.arg2 / 256) = (s1, ps)) :
    exec (.rangeDeclarationComplete o.id) s = .next ((s1.opened t o.arg (inSpans ps)).endOp o) := by
  change execRangeDeclarationComplete o.id s = _
  simp only [execRangeDeclarationComplete, h.op, h.owner, hk, hph, hspans]
  rfl

theorem mem_opened_copies (s1 : State) (t : Troop) (base : Nat) (p : Nat → Bool) (c : CacheLine) :
    (c ∈ (s1.opened t base p).l1 ↔ c ∈ s1.l1 ∧ (c.auth = true ∨ p c.line = false)) ∧
    (c ∈ (s1.opened t base p).l2 ↔ c ∈ s1.l2 ∧ (c.auth = true ∨ p c.line = false)) := by
  simp [State.opened, State.dropCopies, List.mem_filter]

theorem opened_ranges (s1 : State) (t : Troop) (base : Nat) (p : Nat → Bool) {i : Nat} {r : Range} (hr : s1.ranges[i]? = some r) :
    (s1.opened t base p).ranges[i]? =
      some (if r.pad = t.pad ∧ r.secure = t.secure ∧ r.base = base then { r with st := .isOpen } else r) := by
  simp [State.opened, updAll, hr, and_assoc]

end

theorem cropenEnds (hk : o.kind = .cropen) (hph : o.phase = .waiting) : CropenEnds o := by
  refine ⟨fun slot => OpEvent.of fun s z t h hp => ?_, OpEvent.of fun s z t h hp => ?_, OpEvent.of fun s z t h hhalt => ?_, ?_⟩
  · obtain ⟨hrun, hslot, hclash⟩ := hp
    rw [h.exec_rangeDeclaration_slot hk hph hrun hslot, if_neg (by simp [hclash])]
  · obtain ⟨hrun, hbad⟩ := hp
    cases hslot : s.freeSlot t with
    | none => exact h.exec_rangeDeclaration_full hk hph hrun hslot
    | some slot =>
      have hclash := hbad.resolve_left (by simp [hslot])
      rw [h.exec_rangeDeclaration_slot hk hph hrun hslot, if_pos hclash]
  · exact h.exec_rangeDeclaration_halted hk hph hhalt
  · intro s z t s1 ps hop hz ht hspans
    have h : Stands s { o with phase := .sent } z t := ⟨hop, hz, ht⟩
    exact ⟨s1.opened t o.arg (inSpans ps), h.exec_rangeDeclaration_sent hk rfl hspans, rfl,
      fun c => (mem_opened_copies s1 t o.arg (inSpans ps) c).1, fun c => (mem_opened_copies s1 t o.arg (inSpans ps) c).2,
      List.length_map _, fun i r hr => opened_ranges s1 t o.arg (inSpans ps) hr⟩

section
variable {s : State} {z : Str} {t : Troop}

/-- The range of a close: of its context, at its base, and past its declaration. -/
def closes (o : SysOp) (t : Troop) (r : Range) : Bool := r.pad == t.pad && r.secure == t.secure && r.base == o.arg && r.st != .opening

theorem closes_iff {r : Range} : closes o t r = true ↔ (r.pad = t.pad ∧ r.secure = t.secure ∧ r.base = o.arg) ∧ r.st ≠ .opening := by
  simp [closes, and_assoc]

theorem find_closes {r : Range} (hr : r ∈ s.ranges) (hc : closes o t r = true)
    (hone : ∀ x ∈ s.ranges, x.pad = t.pad ∧ x.secure = t.secure ∧ x.base = o.arg → x = r) : s.ranges.find? (closes o t) = some r := by
  cases hf : s.ranges.find? (closes o t) with
  | none => exact absurd hc (List.find?_eq_none.1 hf r hr)
  | some x => rw [hone x (List.mem_of_find?_eq_some hf) (closes_iff.1 (List.find?_some hf)).1]

theorem Stands.exec_rangeClose_halted (h : Stands s o z t) (hk : o.kind = .crclose) (hph : o.phase = .waiting)
    (hhalt : s.haltedCore t.core = true) : exec (.rangeCloseComplete o.id) s = .next s := by
  change execRangeCloseComplete o.id s = _
  cases hfind : s.ranges.find? (closes o t) with
  | none =>
    unfold closes at hfind
    simp only [execRangeCloseComplete, h.op, h.owner, hk, hph, hhalt, hfind, if_true]
  | some r =>
    unfold closes at hfind
    simp only [execRangeCloseComplete, h.op, h.owner, hk, hph, hhalt, hfind, if_true]

theorem Stands.exec_rangeClose_absent (h : Stands s o z t) (hk : o.kind = .crclose) (hph : o.phase = .waiting)
    (hrun : s.haltedCore t.core = false) (hnone : s.ranges.find? (closes o t) = none) :
    exec (.rangeCloseComplete o.id) s = .next (s.failOp o .bounds) := by
  unfold closes at hnone
  change execRangeCloseComplete o.id s = _
  simp only [execRangeCloseComplete, h.op, h.owner, hk, hph, hrun, hnone, Bool.false_eq_true, if_false]

theorem Stands.exec_rangeClose_open (h : Stands s o z t) (hk : o.kind = .crclose) (hph : o.phase = .waiting)
    (hrun : s.haltedCore t.core = false) {r : Range} (hfind : s.ranges.find? (closes o t) = some r) (hopen : r.st = .isOpen) :
    exec (.rangeCloseComplete o.id) s = .next ({ s with ranges := updAll (closes o t) (fun r => { r with st := .closing }) s.ranges }.updOp
      o.id fun o => { o with phase := .sent }) := by
  have hfind' := hfind
  unfold closes at hfind'
  change execRangeCloseComplete o.id s = _
  simp only [execRangeCloseComplete, h.op, h.owner, hk, hph, hrun, hfind', hopen, Bool.false_eq_true, if_false, beq_self_eq_true, if_true]
  rfl

/-- A line of the range is gathered; one whose home is uncorrectable loses its partials, which is remembered. -/
def gathered (r : Range) (x : State × Bool) (line : Nat) : State × Bool :=
  match x.1.gather r line 3 0 with
  | (u, some _) => (u, x.2)
  | (u, none) =>
    ({ u with partials := u.partials.filter fun p => !(p.pad == r.pad && p.range == r.slot && p.line == line) }, true)

/-- The close is over: its lines are gathered and its slot is free. -/
def State.closed (s : State) (o : SysOp) (r : Range) : State :=
  let res := (s.partialLines r).foldl (gathered r) (s, false)
  let u := { res.1 with ranges := res.1.ranges.erase r }.endOp o
  if res.2 then u.lateFault o.sid .uncorrectableMemory o.pc 0 o.depth o.trap else u

theorem Stands.exec_rangeClose_sent (h : Stands s o z t) (hk : o.kind = .crclose) (hph : o.phase = .sent) {r : Range}
    (hfind : s.ranges.find? (closes o t) = some r) (hdone : s.raddsDone t r = true) :
    exec (.rangeCloseComplete o.id) s = .next (s.closed o r) := by
  unfold closes at hfind
  change execRangeCloseComplete o.id s = _
  simp only [execRangeCloseComplete, h.op, h.owner, hk, hph, hfind, hdone, Bool.not_true, Bool.false_eq_true, if_false]
  rfl

/-- The range that a close marks is the only one of its context at its base. -/
theorem updAll_closes {r : Range} (hc : closes o t r = true)
    (hone : ∀ x ∈ s.ranges, x.pad = t.pad ∧ x.secure = t.secure ∧ x.base = o.arg → x = r) (f : Range → Range) :
    updAll (closes o t) f s.ranges = s.ranges.map fun x => if x = r then f r else x := by
  refine List.map_congr_left fun x hx => ?_
  by_cases hxr : x = r
  · rw [hxr, if_pos hc, if_pos rfl]
  · rw [if_neg hxr, if_neg fun hcx => hxr (hone x hx (closes_iff.1 hcx).1)]

end

theorem crcloseEnds (hk : o.kind = .crclose) (hph : o.phase = .waiting) : CrcloseEnds o := by
  refine ⟨fun r => OpEvent.of fun s z t h hp => ?_, OpEvent.of fun s z t h hp => ?_, OpEvent.of fun s z t h hhalt => ?_,
    fun r => OpEvent.of fun s z t h hp => ?_⟩
  · obtain ⟨hrun, hr, hmine, hopen, hone⟩ := hp
    have hc : closes o t r = true := closes_iff.2 ⟨hmine, by simp [hopen]⟩
    rw [h.exec_rangeClose_open hk hph hrun (find_closes hr hc hone) hopen, updAll_closes hc hone]
  · obtain ⟨hrun, hopening⟩ := hp
    refine h.exec_rangeClose_absent hk hph hrun (List.find?_eq_none.2 fun x hx hc => ?_)
    exact (closes_iff.1 hc).2 (hopening x hx (closes_iff.1 hc).1)
  · exact h.exec_rangeClose_halted hk hph hhalt
  · obtain ⟨hr, hmine, hclosing, hone, hdone⟩ := hp
    have hc : closes { o with phase := .sent } t r = true := closes_iff.2 ⟨hmine, by simp [hclosing]⟩
    exact h.exec_rangeClose_sent hk rfl (find_closes hr hc hone) hdone

end

/-- Settles O34: each event by the state of its range in the tables. -/
theorem rangesOpenAndClose : Obligations.RangesOpenAndClose := ⟨fun _ => cropenEnds, fun _ => crcloseEnds⟩

end Sys2Proof.Machine
end

section
/-! PROOFS. What the events of ACQ, COMMIT and ABORT leave, and the answer to a core's query (O33); the events of the system instructions, and
how each instruction that parks its bundle on an operation starts it, or traps (O32). -/

namespace Sys2Proof.Machine

open Sys2Proof.Claims

/-! ### What they leave (R211, R212, R240) -/

/-- The end of an operation changes the lanes that are parked on it. -/
theorem State.endOp_lanes {s : State} {o : SysOp} {z : Str} (hz : s.str? o.sid = some z) :
    ∃ z', (s.endOp o).str? o.sid = some z' ∧ z' = { z with lanes := z'.lanes } ∧
      (s.endOp o) = { s with ops := s.ops.filter (·.id != o.id) }.updStr o.sid (fun _ => z') ∧
      Lanes z z' fun _ x => if x.park = .op o.id then { x with park := .none } else x := by
  refine ⟨z.unpark (· == Park.op o.id), ?_, rfl, State.endOp_eq hz, z.lanes_unpark _⟩
  rw [State.endOp_eq hz]
  exact State.str?_updStr (s := { s with ops := s.ops.filter (·.id != o.id) }) hz (fun _ => z.unpark (· == Park.op o.id)) rfl

theorem State.mem_acquire_l1 (s : State) (core : Nat) (l : Level) (p : Nat → Bool) (c : CacheLine) :
    c ∈ (s.acquire core l p).l1 ↔ c ∈ s.l1 ∧ (c.auth = true ∨ ¬(2 ≤ l.code ∧ c.place = core ∧ p c.line = true)) := by
  simp only [State.acquire, List.mem_filter, Bool.or_eq_true, Bool.not_eq_true', ← Bool.not_eq_true, Bool.and_eq_true, decide_eq_true_eq,
    beq_iff_eq, and_assoc]

/-- A closed round of the core after the answer to its query. -/
def Round.answered (r : Round) : Round := { r with dieOk := r.dieOk || r.atL2, devOk := r.devOk || r.atLlc }

theorem State.mem_confirmRounds (s : State) (core : Nat) (r' : Round) : r' ∈ (s.confirmRounds core).rounds ↔
    ∃ r ∈ s.rounds, ¬(r.core = core ∧ r.closed = true ∧ r.atHomes = true) ∧
      r' = if r.core = core ∧ r.closed = true then r.answered else r := by
  simp only [State.confirmRounds, List.mem_map, List.mem_filter, Bool.not_eq_true', ← Bool.not_eq_true, Bool.and_eq_true, beq_iff_eq,
    and_assoc, eq_comm (a := r')]
  rfl

theorem Round.atHomes_iff (r : Round) : r.atHomes = true ↔ r.arrHome.length = r.sentHome.length := by
  rw [Round.atHomes, beq_iff_eq, eq_comm]

/-- Settles O33: the events by the lemmas of the operations, and a round by whether its writes have all arrived. -/
theorem commitsAndAborts : Obligations.CommitsAndAborts := by
  refine ⟨fun o hk => ⟨acqEnds hk, acq_waits hk⟩, fun o hk hph => ⟨commitEnds hk hph, commit_waits hk hph⟩, fun o => abortEnds,
    fun s o z => State.endOp_lanes, fun s core l p => ⟨rfl, rfl, fun c hc => ?_, fun c hc ha => ?_, fun hl c hc hcore hline => ?_⟩,
    fun s core => ⟨s.confirmRounds core, rfl, rfl, fun r hr hcore hclosed => ?_, fun r hr hcore hclosed hleft => ⟨?_, ?_, ?_⟩,
      fun r hr hcore => ?_⟩⟩
  · exact ((s.mem_acquire_l1 core l p c).1 hc).1
  · exact (s.mem_acquire_l1 core l p c).2 ⟨hc, .inl ha⟩
  · exact ((s.mem_acquire_l1 core l p c).1 hc).2.resolve_right fun h => h ⟨hl, hcore, hline⟩
  · obtain ⟨x, -, hx, rfl⟩ := (s.mem_confirmRounds core r).1 hr
    by_cases hmine : x.core = core ∧ x.closed = true
    · rw [if_pos hmine]
      exact fun h => hx ⟨hmine.1, hmine.2, x.atHomes_iff.2 h⟩
    · rw [if_neg hmine] at hcore hclosed
      exact absurd ⟨hcore, hclosed⟩ hmine
  · refine (s.mem_confirmRounds core _).2 ⟨r, hr, fun h => hleft (r.atHomes_iff.1 h.2.2), ?_⟩
    rw [if_pos ⟨hcore, hclosed⟩]
    rfl
  · rw [Round.atL2, beq_iff_eq]
  · rw [Round.atLlc, beq_iff_eq]
  · exact (s.mem_confirmRounds core r).2 ⟨r, hr, fun h => hcore h.1, (if_neg fun h => hcore h.1).symm⟩

/-! ### The system instructions (R368, R401) -/

section
variable {o : SysOp}

theorem tlbiEnds (hk : o.kind = .tlbi) (hph : o.phase = .waiting) : TlbiEnds o := by
  have hkind : o.kind ≠ .launch := by simp [hk]
  refine ⟨OpEvent.of fun s z t h hp => ?_, OpEvent.of fun s z t h hp => ?_, fun v hv => ⟨OpEvent.of fun s z t h hp => ?_,
    OpEvent.of fun s z t h hp => ?_⟩⟩
  · obtain ⟨hrun, hnone⟩ := hp
    rw [h.exec_systemOpComplete hkind]
    simp only [State.stepSystemOp, hk, hph, hrun, hnone, Option.isSome_none, Bool.or_self, Bool.false_eq_true, if_false]
  · rw [h.exec_systemOpComplete hkind]
    simp only [State.stepSystemOp, hk, hph]
    rw [if_pos (by rcases hp with hp | hp <;> simp [hp, Option.isSome_iff_ne_none])]
  · obtain ⟨hv', hdone⟩ := hp
    refine (h.exec_systemOpComplete (o := { o with phase := .sent }) hkind).trans ?_
    simp only [State.stepSystemOp, hk, hv', hv, hdone, if_true]
  · obtain ⟨hv', hdone⟩ := hp
    refine (h.exec_systemOpComplete (o := { o with phase := .sent }) hkind).trans ?_
    simp only [State.stepSystemOp, hk, hv', hv, hdone, if_true, Bool.false_eq_true, if_false]

theorem cflushEnds (hk : o.kind = .cflush) : CflushEnds o := by
  have hkind : o.kind ≠ .launch := by simp [hk]
  refine ⟨OpEvent.of fun s z t h hhalt => ?_, OpEvent.of fun s z t h hrun => ?_⟩
  · rw [h.exec_systemOpComplete hkind]
    simp only [State.stepSystemOp, hk, hhalt, if_true]
  · rw [h.exec_systemOpComplete hkind]
    simp only [State.stepSystemOp, hk, hrun, Bool.false_eq_true, if_false]

theorem cinvEnds (hk : o.kind = .cinv) : CinvEnds o := by
  have hkind : o.kind ≠ .launch := by simp [hk]
  refine ⟨OpEvent.of fun s z t h hp => ?_, OpEvent.of fun s z t h hp => ?_⟩
  · obtain ⟨hrun, hdone⟩ := hp
    rw [h.exec_systemOpComplete hkind]
    simp only [State.stepSystemOp, hk, hrun, hdone, Bool.false_eq_true, if_false, if_true]
  · rw [h.exec_systemOpComplete hkind]
    simp only [State.stepSystemOp, hk]
    rcases hp with hp | hp
    · rw [if_pos hp]
    · change s.loadsDone o.sid o.id (BitVec.ofNat 32 o.arg2) = false at hp
      simp only [hp, Bool.false_eq_true, if_false, ite_self]

end

/-! ### An instruction starts its operation, or traps -/

section
variable {i : Instr} {kind : SysKind} {lvl : Level} {arg arg2 : Cur → Str → Nat} {fault : State → Cur → Str → Troop → Option Cause}
  {body : State → Cur → Str → Troop → State}

/-- The instruction starts its operation, unless an operand is at fault or no lane takes part. -/
def Parks (i : Instr) (fault : State → Cur → Str → Troop → Option Cause) (kind : SysKind) (lvl : Level) (arg arg2 : Cur → Str → Nat) :
    Prop :=
  ∀ s, exec i s = s.issue i noCheck fun c z t => if c.parts = 0 then s
    else (fault s c z t).elim (s.startOp c t kind lvl (arg c z) (arg2 c z)) (s.raise c)

theorem Parks.starts {pre : State → Cur → Str → Troop → Prop} {rest : SysOp → Prop} (hx : Parks i fault kind lvl arg arg2)
    (hfree : ∀ s c z t, pre s c z t → fault s c z t = none) (hrest : ∀ op : SysOp, op.kind = kind → op.phase = .waiting → rest op) :
    StartsOp i pre kind lvl arg arg2 rest := by
  refine ⟨fun s c z t h ho hc => ?_, fun s c z t h ho hc hp => ⟨hrest _ rfl rfl, _, ?_, rfl, z.lanes_mapLanes c.bundle _⟩⟩
  · exact exec_of_effect (hx s) h ho rfl (if_pos hc) rfl
  · refine exec_of_effect (hx s) h ho rfl ((if_neg hc).trans ?_) rfl
    rw [hfree s c z t hp, Option.elim_none]
    exact State.startOp_eq t h.str kind lvl (arg c z) (arg2 c z)

theorem Parks.traps {pre : State → Cur → Str → Troop → Prop} {cause : Cause} (hx : Parks i fault kind lvl arg arg2)
    (hp : ∀ s c z t, pre s c z t → c.parts ≠ 0 ∧ fault s c z t = some cause) : Traps i pre cause :=
  Traps.of hx fun s c z t _ hpre => by
    obtain ⟨hc, hf⟩ := hp s c z t hpre
    rw [if_neg hc, hf, Option.elim_some]

end

section
variable (o : Operands)

theorem acq_parks : Parks (.acq o) (fun _ _ _ _ => none) .acq o.level (fun _ _ => 0) fun c _ => c.parts.toNat := fun _ => rfl

theorem abort_parks : Parks (.abort o) (fun _ _ _ _ => none) .abort o.level (fun _ _ => 0) fun _ _ => 0 := fun _ => rfl

theorem exec_commit (s : State) : exec (.commit o) s = s.issue (.commit o) noCheck fun c _ t =>
    if c.parts = 0 || o.level == .str then s else s.startOp c t .commit o.level 0 0 := rfl

theorem commit_parks (hl : o.level ≠ .str) : Parks (.commit o) (fun _ _ _ _ => none) .commit o.level (fun _ _ => 0) fun _ _ => 0 := by
  intro s
  have hne : (o.level == Level.str) = false := by simpa using hl
  simp only [exec_commit, hne, Bool.or_false, decide_eq_true_eq, Option.elim_none]

/-- COMMIT at string level does nothing (R210). -/
theorem commit_str (hl : o.level = .str) : Completes (.commit o) (fun _ _ _ _ => True) fun s _ _ _ => s :=
  fun s _ _ _ h ho _ => exec_of_effect (exec_commit o s) h ho rfl (if_pos (by simp [hl])) rfl

/-- The first operand fault of CROPEN (R272). -/
def cropenFault (z : Str) (t : Troop) : Option Cause :=
  let base := (addr56 (z.sreg o.a.toNat)).toNat
  let len := (z.sreg o.b.toNat).toNat
  if t.held then some .recoveryEscape
  else if base % 64 != 0 || len % 64 != 0 then some .misaligned
  else if !canonical (z.sreg o.a.toNat) || !spanOk base len then some .noncanonical
  else if len < 64 || 2 ^ 32 < len then some .bounds
  else none

theorem cropen_parks : Parks (.cropen o) (fun _ _ z t => cropenFault o z t) .cropen .str
    (fun _ z => (addr56 (z.sreg o.a.toNat)).toNat) fun _ z => (z.sreg o.b.toNat).toNat * 256 + o.ty.code * 4 + o.fn.toNat := by
  intro s
  change execCropen o s = _
  unfold execCropen cropenFault
  congr 1
  funext c z t
  dsimp only
  repeat' split
  all_goals rfl

/-- The first operand fault of CRCLOSE (R273). -/
def crcloseFault (s : State) (z : Str) (t : Troop) : Option Cause :=
  if t.held then some .recoveryEscape
  else if !canonical (z.sreg o.a.toNat) || !s.ranges.any (fun r => r.pad == t.pad && r.secure == t.secure && r.st == .isOpen &&
      r.base == (addr56 (z.sreg o.a.toNat)).toNat) then some .bounds
  else none

theorem crclose_parks : Parks (.crclose o) (fun s _ z t => crcloseFault o s z t) .crclose .str
    (fun _ z => (addr56 (z.sreg o.a.toNat)).toNat) fun _ _ => 0 := by
  intro s
  change execCrclose o s = _
  unfold execCrclose crcloseFault
  congr 1
  funext c z t
  dsimp only
  repeat' split
  all_goals rfl

/-- The first operand fault of TLBI (R401). -/
def tlbiFault (c : Cur) (z : Str) : Option Cause :=
  if !c.super then some .privileged
  else if (z.sreg o.a.toNat).toNat % 2 ^ 16 != 0 then some .misaligned
  else if 2 ^ 56 ≤ (z.sreg o.a.toNat).toNat || 2 ^ 31 ≤ (z.sreg o.b.toNat).toNat then some .bounds
  else none

theorem tlbi_parks : Parks (.tlbi o) (fun _ c z _ => tlbiFault o c z) .tlbi .str
    (fun _ z => (z.sreg o.a.toNat).toNat / 2 ^ 16) fun _ z => (z.sreg o.b.toNat).toNat := by
  intro s
  change execTlbi o s = _
  unfold execTlbi tlbiFault
  congr 1
  funext c z t
  dsimp only
  repeat' split
  all_goals rfl

/-- The first operand fault of CFLUSH (R401). -/
def cflushFault (c : Cur) (z : Str) : Option Cause :=
  if !c.super then some .privileged else rangeFault (z.sreg o.a.toNat) (z.sreg o.b.toNat)

theorem cflush_parks : Parks (.cflush o) (fun _ c z _ => cflushFault o c z) .cflush .str
    (fun _ z => (addr56 (z.sreg o.a.toNat)).toNat) fun _ z => (z.sreg o.b.toNat).toNat := by
  intro s
  change execCflush o s = _
  unfold execCflush cflushFault
  congr 1
  funext c z t
  dsimp only
  split
  · rfl
  split
  · rfl
  · cases rangeFault (z.sreg o.a.toNat) (z.sreg o.b.toNat) <;> rfl

theorem cinv_parks : Parks (.cinv o) (fun _ _ z _ => rangeFault (z.sreg o.a.toNat) (z.sreg o.b.toNat)) .cinv o.level
    (fun _ z => (addr56 (z.sreg o.a.toNat)).toNat) fun c z => (z.sreg o.b.toNat).toNat * 2 ^ 32 + c.parts.toNat := by
  intro s
  change execCinv o s = _
  unfold execCinv
  congr 1
  funext c z t
  dsimp only
  split
  · rfl
  · cases rangeFault (z.sreg o.a.toNat) (z.sreg o.b.toNat) <;> rfl

section
variable {t : Troop} (z : Str)

theorem Troop.held_of_protect (h : t.protect ≠ none) : t.held = true := Option.isSome_iff_ne_none.2 h

theorem Troop.not_held (h : t.protect = none) : t.held = false := by rw [Troop.held, h]; rfl

theorem cropenFault_held (h : t.protect ≠ none) : cropenFault o z t = some .recoveryEscape := if_pos (Troop.held_of_protect h)

theorem cropenFault_free (h : t.protect = none) : cropenFault o z t =
    if ¬((addr56 (z.sreg o.a.toNat)).toNat % 64 = 0 ∧ (z.sreg o.b.toNat).toNat % 64 = 0) then some .misaligned
    else if ¬(canonical (z.sreg o.a.toNat) = true ∧ spanOk (addr56 (z.sreg o.a.toNat)).toNat (z.sreg o.b.toNat).toNat = true) then
      some .noncanonical
    else if (z.sreg o.b.toNat).toNat < 64 ∨ 2 ^ 32 < (z.sreg o.b.toNat).toNat then some .bounds
    else none := by
  simp only [cropenFault, Troop.not_held h, Bool.false_eq_true, if_false, Bool.or_eq_true, bne_iff_ne, Bool.not_eq_true', decide_eq_true_eq,
    not_and_or, Bool.not_eq_true, ne_eq]

theorem crcloseFault_held (s : State) (h : t.protect ≠ none) : crcloseFault o s z t = some .recoveryEscape := if_pos (Troop.held_of_protect h)

theorem crcloseFault_free (s : State) (h : t.protect = none) : crcloseFault o s z t =
    if canonical (z.sreg o.a.toNat) = true ∧ ∃ r ∈ s.ranges, r.pad = t.pad ∧ r.secure = t.secure ∧ r.st = .isOpen ∧
      r.base = (addr56 (z.sreg o.a.toNat)).toNat then none else some .bounds := by
  rw [crcloseFault, Troop.not_held h, if_neg Bool.false_ne_true, ← ite_not]
  refine if_congr ?_ rfl rfl
  simp [and_assoc]

theorem tlbiFault_super {c : Cur} (h : c.super = true) : tlbiFault o c z =
    if (z.sreg o.a.toNat).toNat % 2 ^ 16 ≠ 0 then some .misaligned
    else if 2 ^ 56 ≤ (z.sreg o.a.toNat).toNat ∨ 2 ^ 31 ≤ (z.sreg o.b.toNat).toNat then some .bounds
    else none := by
  simp only [tlbiFault, h, Bool.not_true, Bool.false_eq_true, if_false, bne_iff_ne, Bool.or_eq_true, decide_eq_true_eq]

theorem tlbiFault_user {c : Cur} (h : c.super = false) : tlbiFault o c z = some .privileged := if_pos (by rw [h]; rfl)

theorem cflushFault_super {c : Cur} (h : c.super = true) : cflushFault o c z = rangeFault (z.sreg o.a.toNat) (z.sreg o.b.toNat) :=
  if_neg (by simp [h])

theorem cflushFault_user {c : Cur} (h : c.super = false) : cflushFault o c z = some .privileged := if_pos (by rw [h]; rfl)

end

end

/-- Settles O32: each instruction parks on its operation while its operands have no fault, and traps with the first that they have; the
events of the operation are those of its kind. -/
theorem operationsStart : Obligations.OperationsStart := by
  refine ⟨fun o => (acq_parks o).starts (fun _ _ _ _ _ => rfl) fun op hk _ => acqEnds hk,
    fun o hl => (commit_parks o hl).starts (fun _ _ _ _ _ => rfl) fun op => commitEnds,
    fun o => commit_str o,
    fun o => (abort_parks o).starts (fun _ _ _ _ _ => rfl) fun op hk _ => abortEnds hk,
    fun o => (cropen_parks o).starts (fun s c z t ⟨hfree, hcan, hbase, hspan, hlen, hmin, hmax⟩ => ?_) fun op => cropenEnds,
    fun o => (cropen_parks o).traps fun s c z t hp => ⟨hp.1, cropenFault_held o z hp.2⟩,
    fun o => ⟨(cropen_parks o).traps fun s c z t ⟨hc, hfree, hodd⟩ => ⟨hc, ?_⟩,
      (cropen_parks o).traps fun s c z t ⟨hc, hfree, heven, hout⟩ => ⟨hc, ?_⟩,
      (cropen_parks o).traps fun s c z t ⟨hc, hfree, heven, hin, hlen⟩ => ⟨hc, ?_⟩⟩,
    fun o => (crclose_parks o).starts (fun s c z t ⟨hfree, hopen⟩ => ?_) fun op => crcloseEnds,
    fun o => (crclose_parks o).traps fun s c z t hp => ⟨hp.1, crcloseFault_held o z s hp.2⟩,
    fun o => (crclose_parks o).traps fun s c z t ⟨hc, hfree, hnone⟩ => ⟨hc, ?_⟩,
    fun o => (crclose_parks o).traps fun s c z t ⟨hc, hfree, hcan⟩ => ⟨hc, ?_⟩,
    fun o => (tlbi_parks o).starts (fun s c z t ⟨hsup, heven, ha, hn⟩ => ?_) fun op => tlbiEnds,
    fun o => (tlbi_parks o).traps fun s c z t hp => ⟨hp.1, tlbiFault_user o z hp.2⟩,
    fun o => (tlbi_parks o).traps fun s c z t ⟨hc, hsup, hodd⟩ => ⟨hc, ?_⟩,
    fun o => (tlbi_parks o).traps fun s c z t ⟨hc, hsup, heven, hout⟩ => ⟨hc, ?_⟩,
    fun o => (cflush_parks o).starts (fun s c z t hp => (cflushFault_super o z hp.1).trans hp.2) fun op hk _ => cflushEnds hk,
    fun o => (cflush_parks o).traps fun s c z t hp => ⟨hp.1, cflushFault_user o z hp.2⟩,
    fun o f => (cflush_parks o).traps fun s c z t ⟨hc, hsup, hf⟩ => ⟨hc, (cflushFault_super o z hsup).trans hf⟩,
    fun o => (cinv_parks o).starts (fun s c z t hp => hp) fun op hk _ => cinvEnds hk,
    fun o f => (cinv_parks o).traps fun s c z t hp => hp⟩
  · rw [cropenFault_free o z hfree, if_neg (not_not.2 ⟨hbase, hlen⟩), if_neg (not_not.2 ⟨hcan, hspan⟩),
      if_neg (not_or.2 ⟨Nat.not_lt.2 hmin, Nat.not_lt.2 hmax⟩)]
  · rw [cropenFault_free o z hfree, if_pos hodd]
  · rw [cropenFault_free o z hfree, if_neg (not_not.2 heven), if_pos hout]
  · rw [cropenFault_free o z hfree, if_neg (not_not.2 heven), if_neg (not_not.2 hin), if_pos hlen]
  · rw [crcloseFault_free o z s hfree, if_pos hopen]
  · rw [crcloseFault_free o z s hfree, if_neg]
    rintro ⟨-, r, hr, hpad, hsec, hst, hbase⟩
    exact hnone r hr hpad hsec hst hbase
  · rw [crcloseFault_free o z s hfree, if_neg fun h => absurd (hcan.symm.trans h.1) (by decide)]
  · rw [tlbiFault_super o z hsup, if_neg (not_not.2 heven), if_neg (not_or.2 ⟨Nat.not_le.2 ha, Nat.not_le.2 hn⟩)]
  · rw [tlbiFault_super o z hsup, if_pos hodd]
  · rw [tlbiFault_super o z hsup, if_neg (not_not.2 heven), if_pos hout]

end Sys2Proof.Machine
end

section
/-! PROOFS. A copy that retires (O39): its flags and its faults reach its string, and the CWAITs that waited for its counter go on; a CWAIT
whose condition does not hold parks. -/

namespace Sys2Proof.Machine

open Sys2Proof.Claims

/-! ### What a copy leaves in its string (R247, R280, R284, R285) -/

/-- The machine without an engine operation. -/
def State.dropEng (s : State) (id : Nat) : State := { s with engs := s.engs.filter (·.id != id) }

/-- The late fault that a copy records for a cause. -/
def EngOp.late (e : EngOp) (c : Cause) : Late := { cause := c, pc := e.pc, nodePc := 0, depth := e.depth }

/-- The late fault of the enabled flags of a copy (R280). -/
def EngOp.flagLates (e : EngOp) : List Late :=
  if e.kind.cls = 0 ∧ e.flags &&& e.fpc.extractLsb' 1 5 ≠ 0 then [e.late .fpException] else []

/-- The late fault of the elements of a copy (R284). -/
def EngOp.faultLates (e : EngOp) : List Late :=
  match e.fault with
  | some f => [e.late f]
  | none => []

/-- A lane is parked in a CWAIT whose condition holds (R285). -/
def State.cwaitOver (s : State) (sid : Nat) : Park → Bool
  | .cwait cls n => decide (s.engCount sid cls ≤ n)
  | _ => false

/-- The string of a copy with the flags of the copy. -/
def Str.withFlags (z : Str) (e : EngOp) : Str := { z with fpflags := z.fpflags ||| e.flags.setWidth 32 }

/-- Late faults join the queue of the string. -/
def Str.queue (z : Str) (ls : List Late) : Str := { z with lateq := z.lateq ++ ls }

/-- The string of a copy with the flags and the faults of the copy. -/
def Str.withCopy (z : Str) (e : EngOp) : Str := ((z.withFlags e).queue e.flagLates).queue e.faultLates

theorem Str.queue_nil (z : Str) : z.queue [] = z := by rw [Str.queue, List.append_nil]

theorem leavesCwait_eq (s : State) (sid : Nat) (x : Lane) :
    leavesCwait s sid x = if s.cwaitOver sid x.park then { x with park := .none } else x := by
  cases hp : x.park with
  | cwait cls n => simp only [leavesCwait, State.cwaitOver, hp, decide_eq_true_eq]
  | _ => simp only [leavesCwait, State.cwaitOver, hp, Bool.false_eq_true, if_false]

theorem Str.lanes_cwaitOver (z : Str) (s : State) (sid : Nat) :
    Lanes z (z.unpark (s.cwaitOver sid)) fun _ x => leavesCwait s sid x := by
  simp only [leavesCwait_eq]
  exact z.lanes_map fun x => if s.cwaitOver sid x.park then { x with park := .none } else x

/-! ### The stages of a retirement -/

/-- The enabled flags of a copy are recorded late. -/
def State.recordFlags (s : State) (e : EngOp) : State :=
  if e.kind.cls == 0 && e.flags &&& e.fpc.extractLsb' 1 5 != 0 then s.lateFault e.sid .fpException e.pc 0 e.depth e.trap else s

/-- The first fault of an engine operation is recorded late, but for one that was when the operation met it. -/
def State.recordFault (s : State) (e : EngOp) : State :=
  match e.fault, e.kind.cls with
  | some _, 1 => s.tellWrites e.id
  | some c, _ => (s.lateFault e.sid c e.pc 0 e.depth e.trap).tellWrites e.id
  | none, _ => s

/-- The writes of an operation that has a fault record no other. -/
def State.toldBy (s : State) (e : EngOp) : State :=
  { s with writes := if e.fault.isSome then (s.tellWrites e.id).writes else s.writes }

theorem State.retireEng_eq (s : State) (e : EngOp) : s.retireEng e =
    (((((s.dropEng e.id).takeFlags e.id).orFlags e.sid e.flags).recordFlags e).recordFault e).endCwait e.sid := rfl

section
variable {s : State} {z y : Str} {e : EngOp}

/-- A late fault after a change of the string. -/
theorem State.lateFault_updStr {sid : Nat} (hz : s.str? sid = some z) (hy : y.sid = z.sid) (hl : ∃ l ∈ y.lanes, l.exited = false)
    (cause : Cause) (pc nodePc : Addr) (d : Nat) : (s.updStr sid fun _ => y).lateFault sid cause pc nodePc d false =
      s.updStr sid fun _ => y.queue [{ cause := cause, pc := pc, nodePc := nodePc, depth := d }] := by
  rw [State.lateFault_queued (State.str?_updStr hz (fun _ => y) hy) hl, State.updStr_updStr hz (fun _ => y) _ hy]
  rfl

variable (hz : s.str? e.sid = some z) (hy : y.sid = z.sid) (hl : ∃ l ∈ y.lanes, l.exited = false) (htrap : e.trap = false)
include hz hy hl htrap

theorem State.recordFlags_updStr : (s.updStr e.sid fun _ => y).recordFlags e =
    s.updStr e.sid fun _ => y.queue e.flagLates := by
  unfold State.recordFlags EngOp.flagLates
  by_cases hflag : e.kind.cls = 0 ∧ e.flags &&& e.fpc.extractLsb' 1 5 ≠ 0
  · rw [if_pos (by simpa using hflag), if_pos hflag, htrap, State.lateFault_updStr hz hy hl]
    rfl
  · rw [if_neg (by simpa using hflag), if_neg hflag, Str.queue_nil]

theorem State.recordFault_updStr (hk : e.kind.cls ≠ 1) : (s.updStr e.sid fun _ => y).recordFault e =
    (s.toldBy e).updStr e.sid fun _ => y.queue e.faultLates := by
  cases hf : e.fault with
  | none =>
    simp only [State.recordFault, State.toldBy, EngOp.faultLates, hf, Str.queue_nil]
    rfl
  | some f =>
    simp only [State.recordFault, State.toldBy, EngOp.faultLates, hf]
    rw [htrap, State.lateFault_updStr hz hy hl]
    rfl

end

/-- A copy retires: its string has its flags and its faults, and its CWAITs whose condition holds go on. -/
theorem State.retireEng_copy {s : State} {e : EngOp} {z : Str} (hz : s.str? e.sid = some z) (hk : e.kind.cls ≠ 1)
    (hflags : ∀ f ∈ s.pendFlags, f.1 ≠ e.id) (htrap : e.trap = false) (hl : ∃ l ∈ z.lanes, l.exited = false) :
    s.retireEng e = ((s.dropEng e.id).toldBy e).updStr e.sid fun _ =>
      (z.withCopy e).unpark ((s.dropEng e.id).cwaitOver e.sid) := by
  have hz0 : (s.dropEng e.id).str? e.sid = some z := hz
  have hz1 : ((s.dropEng e.id).toldBy e).str? e.sid = some z := hz
  have hor : (s.dropEng e.id).orFlags e.sid e.flags = (s.dropEng e.id).updStr e.sid fun _ => z.withFlags e := State.orFlags_eq hz0
  rw [State.retireEng_eq, State.takeFlags_self (s := s.dropEng e.id) hflags, hor,
    State.recordFlags_updStr (y := z.withFlags e) hz0 rfl hl htrap,
    State.recordFault_updStr (y := (z.withFlags e).queue e.flagLates) hz0 rfl hl htrap hk]
  exact State.updStr_updStr hz1 (fun _ => z.withCopy e) (·.unpark ((s.dropEng e.id).cwaitOver e.sid)) rfl

/-! ### The event, and CWAIT -/

/-- Nothing keeps a copy from retiring: no older operation of its class is outstanding, and its writes and its items are done. -/
def State.retires (s : State) (e : EngOp) : Prop :=
  s.olderEng e = false ∧ s.engWritesDone e = true ∧ ∀ k < e.count, k ∈ e.done

theorem exec_copyEngineRetire {s : State} {op : Nat} {e : EngOp} (he : s.eng? op = some e) (hk : e.kind.cls ≠ 1) (hcred : e.cred = none)
    (h : s.retires e) : exec (.copyEngineRetire op) s = .next (s.retireEng e) := by
  obtain ⟨hold, hwrites, hdone⟩ := h
  have hall : (List.range e.count).all e.done.contains = true := by simpa using hdone
  change execCopyEngineRetire op s = _
  simp [execCopyEngineRetire, he, hk, hold, hwrites, hall, hcred]

theorem exec_copyEngineRetire_waits {s : State} {op : Nat} {e : EngOp} (he : s.eng? op = some e) (h : ¬ s.retires e) :
    exec (.copyEngineRetire op) s = .next s := by
  have hwait : (e.kind.cls == 1 || s.olderEng e || !s.engWritesDone e || !(List.range e.count).all e.done.contains) = true := by
    by_contra hgo
    obtain ⟨-, hgo⟩ : e.kind.cls ≠ 1 ∧ s.olderEng e = false ∧ s.engWritesDone e = true ∧ ∀ k < e.count, k ∈ e.done := by
      simpa [and_assoc] using hgo
    exact h hgo
  change execCopyEngineRetire op s = _
  simp only [execCopyEngineRetire, he, hwait, if_true]

theorem exec_cwait (o : Operands) (s : State) : exec (.cwait o) s = s.issue (.cwait o) noCheck fun c z _ =>
    if c.parts = 0 || decide (s.engCount z.sid (bitsNat o.imm 1 0) ≤ bitsNat o.imm 13 8) then s
    else s.park z.sid c.bundle (.cwait (bitsNat o.imm 1 0) (bitsNat o.imm 13 8)) := rfl

/-- Settles O39: a retirement by its stages, and CWAIT by whether its condition holds. -/
theorem copiesRetire : Obligations.CopiesRetire := by
  refine ⟨fun s op e z t he hz _ hk hold hwrites hdone hcred hflags htrap hl => ?_, fun s op e he hnot => ?_,
    fun o s c z t h ho hp => ?_, fun o => ?_⟩
  · have hid : e.id = op := by simpa using List.find?_some he
    subst hid
    refine ⟨(z.withCopy e).unpark ((s.dropEng e.id).cwaitOver e.sid), ?_, rfl, (z.withCopy e).lanes_cwaitOver _ _, rfl⟩
    rw [exec_copyEngineRetire he hk hcred ⟨hold, hwrites, hdone⟩, State.retireEng_copy hz hk hflags htrap hl]
    rfl
  · refine exec_copyEngineRetire_waits he ?_
    rintro ⟨hold, hwrites, hdone⟩
    rcases hnot with h | h | ⟨k, hk, hno⟩
    · exact absurd (hold.symm.trans h) (by decide)
    · exact absurd (h.symm.trans hwrites) (by decide)
    · exact hno (hdone k hk)
  · exact exec_of_effect (exec_cwait o s) h ho rfl (if_pos (by simpa using hp)) rfl
  · refine MovesLanes.of (exec_cwait o) fun s c z t hz ⟨hp, hmore⟩ => ?_
    rw [if_neg (by simpa using ⟨hp, hmore⟩), State.str_sid hz]
    rfl

end Sys2Proof.Machine
end

section
/-! PROOFS. A late fault leaves the caches, and the writes on their way, as they were: it changes strings, and may end a troop with its
work (R389, R397). -/

namespace Sys2Proof.Machine

/-- The lines of the caches, and the writes on their way. -/
def State.caches (s : State) : List CacheLine × List CacheLine × List LlcLine × List HomeWrite := (s.l1, s.l2, s.llc, s.writes)

theorem State.foldl_caches {α : Type} {g : State → α → State} (hg : ∀ s a, (g s a).caches = s.caches) (xs : List α) (s : State) :
    (xs.foldl g s).caches = s.caches := by
  induction xs generalizing s with
  | nil => rfl
  | cons x xs ih => exact (ih (g s x)).trans (hg s x)

/-! ### The quarters -/

theorem State.settleOne_caches (core q n : Nat) (s : State) : (s.settleOne core q n).caches = s.caches := by
  induction n generalizing s with
  | zero => rfl
  | succ n ih => exact ih _

theorem State.advanceJoint_caches (s : State) (core q : Nat) : (s.advanceJoint core q).caches = s.caches := by
  unfold State.advanceJoint
  dsimp only
  split <;> rfl

theorem State.startJoint_caches (s : State) (core : Nat) : (s.startJoint core).caches = s.caches := by
  unfold State.startJoint
  split
  · split
    · exact State.foldl_caches (by exact fun _ _ => rfl) _ s
    · rfl
  · rfl

theorem State.quarterRound_caches (s : State) (core : Nat) : (s.quarterRound core).caches = s.caches := by
  unfold State.quarterRound
  extract_lets settled advanced
  have hsettled : settled.caches = s.caches := State.foldl_caches (fun s q => by exact State.settleOne_caches core q _ _) _ s
  have hadvanced : advanced.caches = settled.caches := State.foldl_caches (fun s q => s.advanceJoint_caches core q) _ settled
  exact (advanced.startJoint_caches core).trans (hadvanced.trans hsettled)

theorem State.dropMat_caches (s : State) (core tid : Nat) : (s.dropMat core tid).caches = s.caches := by
  unfold State.dropMat
  extract_lets cut left
  have hleft : left.caches = cut.caches := State.foldl_caches (by exact fun _ _ => rfl) _ cut
  exact (State.foldl_caches (fun s _ => s.quarterRound_caches core) _ left).trans hleft

/-! ### Barriers -/

theorem State.writeS_caches (s : State) (sid d n : Nat) (x : Dword) : (s.writeS sid d n x).caches = s.caches := by
  unfold State.writeS State.record
  dsimp only
  repeat' split
  all_goals rfl

theorem State.completePhase_caches (s : State) (b : Barrier) : (s.completePhase b).caches = s.caches := by
  unfold State.completePhase
  extract_lets lost status sum summed done released
  have hsummed : summed.caches = s.caches := by
    refine State.foldl_caches (fun s z => State.foldl_caches (fun s l => ?_) _ s) _ s
    split
    · split
      · exact State.writeS_caches ..
      · rfl
    · rfl
  exact hsummed

theorem State.checkBar_caches (s : State) (k : BarKey) : (s.checkBar k).caches = s.caches := by
  unfold State.checkBar
  extract_lets b go
  split
  · exact State.completePhase_caches ..
  · rfl

/-! ### The end of a troop -/

theorem State.cancelSpills_caches (s : State) (tid j : Nat) : (s.cancelSpills tid j).caches = s.caches := by
  unfold State.cancelSpills
  split <;> rfl

theorem State.cancelWork_caches (s : State) (tid j : Nat) : (s.cancelWork tid j).caches = s.caches :=
  State.cancelSpills_caches (s.cancelMat tid j) tid j

theorem State.dropTie_caches (s : State) (t : Troop) : (s.dropTie t).caches = s.caches := by
  unfold State.dropTie
  split
  next x _ =>
    extract_lets cancelled lines dropped
    have hdropped : dropped.caches = cancelled.caches := by
      unfold dropped
      split
      · exact State.dropMat_caches ..
      · rfl
    exact hdropped.trans (s.cancelWork_caches x 0)
  · rfl

theorem State.partTroop_caches (s : State) (t : Troop) : ((s.keepArrivals t).partHeld t).caches = s.caches := rfl

theorem State.stopTroop_caches (s : State) (tid : Nat) (cause : Option Cause) : (s.stopTroop tid cause).caches = s.caches := by
  unfold State.stopTroop
  split
  · rfl
  next t _ =>
    split
    · rfl
    extract_lets untied cancelled parted lines cut ended tie counted
    have hparted : parted.caches = s.caches :=
      calc parted.caches = (cancelled.dropMat t.core tid).caches := State.partTroop_caches _ t
        _ = cancelled.caches := cancelled.dropMat_caches t.core tid
        _ = untied.caches := untied.cancelWork_caches tid 0
        _ = s.caches := s.dropTie_caches t
    clear_value parted
    have hcounted : counted.caches = parted.caches := by
      unfold counted
      split <;> rfl
    exact (State.foldl_caches (fun s k => s.checkBar_caches k) _ counted).trans (hcounted.trans hparted)

theorem State.endTroop_caches (s : State) (tid : Nat) (cause : Cause) : (s.endTroop tid cause).caches = s.caches := by
  unfold State.endTroop
  split
  · rfl
  have hstop := s.stopTroop_caches tid (some cause)
  dsimp only
  split
  · split
    · exact hstop
    · exact (State.stopTroop_caches ..).trans hstop
  · exact hstop

/-! ### A late fault -/

theorem State.secondError_caches (s : State) (z : Str) : (s.secondError z).caches = s.caches := by
  unfold State.secondError
  split
  · rfl
  split
  · exact State.endTroop_caches ..
  · rfl

theorem State.lateFault_caches (s : State) (sid : Nat) (cause : Cause) (pc nodePc : Addr) (d : Nat) (trap : Bool) :
    (s.lateFault sid cause pc nodePc d trap).caches = s.caches := by
  unfold State.lateFault
  split
  · rfl
  split
  · exact State.secondError_caches ..
  dsimp only
  split
  · exact State.secondError_caches ..
  · rfl

end Sys2Proof.Machine
end

section
/-! PROOFS. What returning the authority of a line leaves in the caches (O35): a line that stands in one afterwards stood in one before,
where no write is on its way. -/

namespace Sys2Proof.Machine

/-- A line stands in an L1, in an L2 or in the LLC. -/
def State.cached (s : State) (line : Nat) : Prop :=
  (∃ c ∈ s.l1, c.line = line) ∨ (∃ c ∈ s.l2, c.line = line) ∨ ∃ l ∈ s.llc, l.line = line

/-- Where no write is on its way in `s`, none is in `u`, and a line that stands in a cache of `u` stands in one of `s`. -/
def Shrinks (s u : State) : Prop := s.writes = [] → u.writes = [] ∧ ∀ line, u.cached line → s.cached line

namespace Shrinks

theorem refl (s : State) : Shrinks s s := fun h => ⟨h, fun _ => id⟩

theorem trans {s u v : State} (h : Shrinks s u) (k : Shrinks u v) : Shrinks s v := by
  intro hs
  obtain ⟨hu, hlines⟩ := h hs
  obtain ⟨hv, hlines'⟩ := k hu
  exact ⟨hv, fun line hl => hlines line (hlines' line hl)⟩

theorem foldl {α : Type} {g : State → α → State} (hg : ∀ s a, Shrinks s (g s a)) (xs : List α) (s : State) :
    Shrinks s (xs.foldl g s) := by
  induction xs generalizing s with
  | nil => exact refl s
  | cons x xs ih => exact (hg s x).trans (ih (g s x))

/-- No cache takes a line that stood in none. -/
theorem of_lines {s u : State} (hw : u.writes = s.writes) (h1 : ∀ c ∈ u.l1, s.cached c.line) (h2 : ∀ c ∈ u.l2, s.cached c.line)
    (hllc : ∀ l ∈ u.llc, s.cached l.line) : Shrinks s u := by
  refine fun hs => ⟨hw.trans hs, fun line hl => ?_⟩
  rcases hl with ⟨c, hc, rfl⟩ | ⟨c, hc, rfl⟩ | ⟨l, hl, rfl⟩
  · exact h1 c hc
  · exact h2 c hc
  · exact hllc l hl

end Shrinks

section
variable {s : State}

theorem cached_of_l1 {c : CacheLine} (h : c ∈ s.l1) : s.cached c.line := .inl ⟨c, h, rfl⟩

theorem cached_of_l2 {c : CacheLine} (h : c ∈ s.l2) : s.cached c.line := .inr (.inl ⟨c, h, rfl⟩)

theorem cached_of_llc {l : LlcLine} (h : l ∈ s.llc) : s.cached l.line := .inr (.inr ⟨l, h, rfl⟩)

theorem holder_mem {cs : List CacheLine} {line : Nat} {c : CacheLine} (h : holder cs line = some c) : c ∈ cs ∧ c.line = line := by
  have hp := List.find?_some h
  simp only [Bool.and_eq_true, beq_iff_eq] at hp
  exact ⟨List.mem_of_find?_eq_some h, hp.2⟩

/-! ### An L2 gives up the authority of a line -/

/-- No L2 has the authority of a line any more. -/
def State.freed (s : State) (line : Nat) : State :=
  { s with l2 := updAll (fun x => x.auth && x.line == line) (fun x => { x with auth := false, dirty := 0 }) s.l2 }

/-- What atomics wrote in a cache line goes home, or its loss is the fault of the last of them. -/
def State.wroteBack (s : State) (c : CacheLine) (line : Nat) : State :=
  match s.writeHome c.pad line 3 0 c.dirty c.data with
  | (s, true) => s.freshenHome line c.dirty c.data
  | (s, false) => match c.last with
    | some (sid, pc, d, trap) => s.lateFault sid .uncorrectableMemory pc 0 d trap
    | none => s

theorem State.spillL2_idle {line : Nat} {c : CacheLine} (hs : s.writes = []) (hc : holder s.l2 line = some c) :
    s.spillL2 line = if c.dirty = 0 then s.freed line else (s.freed line).wroteBack c line := by
  have hnone : s.drainDie c.place line = s := by simp only [State.drainDie, hs, List.filter_nil, List.foldl_nil]
  simp only [State.spillL2, hc, hnone]
  rfl

theorem State.cached_freed {line : Nat} {c : CacheLine} (hc : holder s.l2 line = some c) : (s.freed line).cached line := by
  obtain ⟨hmem, hline⟩ := holder_mem hc
  refine .inr (.inl ⟨_, List.mem_map_of_mem hmem, ?_⟩)
  split <;> exact hline

/-! ### The LLC -/

theorem State.dropLlc_llc (line : Nat) : (s.dropLlc line).llc = s.llc.filter (·.line != line) := by
  unfold State.dropLlc
  split
  · dsimp only
    split <;> rfl
  next hnone =>
    refine (List.filter_eq_self.2 fun l hl => ?_).symm
    simpa using List.find?_eq_none.1 hnone l hl

theorem State.mem_llcWay {line : Nat} {m : Half} {l : LlcLine} (h : l ∈ (s.llcWay line m).1.llc) : l ∈ s.llc := by
  rcases s.llcWay_eq line m with heq | ⟨k, -, heq⟩
  · rwa [heq] at h
  · rw [heq, State.dropLlc_llc] at h
    exact (List.mem_filter.1 h).1

/-- The LLC takes the line that is allocated, and no other. -/
theorem State.mem_allocLlc {pad line pol part : Nat} {d : BitVec 512} {l : LlcLine} (h : l ∈ (s.allocLlc pad line pol part d).llc) :
    l.line = line ∨ l ∈ s.llc := by
  have hway (l : LlcLine) : l ∈ (s.llcWay line (s.partMask (homeDie line) part)).1.llc → l ∈ s.llc := State.mem_llcWay
  unfold State.allocLlc at h
  split at h
  · exact .inr h
  split at h
  · split at h
    next u w heq =>
      rw [heq] at hway
      dsimp only at h
      split at h
      · rcases List.mem_append.1 h with h | h
        · exact .inr (hway l h)
        · exact .inl (List.mem_singleton.1 h ▸ rfl)
      · rcases List.mem_cons.1 h with h | h
        · exact .inl (h ▸ rfl)
        · exact .inr (hway l h)
    next u heq =>
      rw [heq] at hway
      exact .inr (hway l h)
  · exact .inr h

/-- A write at a home puts no line into the LLC but its own. -/
theorem State.mem_writeHome {pad line pol part : Nat} {mask : Dword} {d : BitVec 512} {l : LlcLine}
    (h : l ∈ (s.writeHome pad line pol part mask d).1.llc) : l.line = line ∨ l ∈ s.llc := by
  have hread := s.readDram_llc pad line
  unfold State.writeHome at h
  split at h
  · exact .inr h
  split at h
  next k hk =>
    rcases List.mem_cons.1 h with h | h
    · exact .inl (by rw [h, ← llcLine_line hk])
    · exact .inr (List.mem_of_mem_erase h)
  split at h
  · exact State.mem_allocLlc (s := s.wroteMem line mask d (s.poison.erase line) (Cells.erase line s.upsets)) h
  split at h
  next heq =>
    rw [heq] at hread
    exact (State.mem_allocLlc h).imp_right fun h => hread ▸ h
  next heq =>
    rw [heq] at hread
    exact .inr (hread ▸ h)

end

namespace Shrinks

theorem of_caches {s u : State} (h : u.caches = s.caches) : Shrinks s u := by
  simp only [State.caches, Prod.mk.injEq] at h
  obtain ⟨h1, h2, hllc, hw⟩ := h
  exact of_lines hw (fun c hc => cached_of_l1 (h1 ▸ hc)) (fun c hc => cached_of_l2 (h2 ▸ hc)) fun l hl => cached_of_llc (hllc ▸ hl)

/-- The L1s and the L2s let lines go. -/
theorem filter (s : State) (p q : CacheLine → Bool) : Shrinks s { s with l1 := s.l1.filter p, l2 := s.l2.filter q } :=
  of_lines rfl (fun _ hc => cached_of_l1 (List.mem_filter.1 hc).1) (fun _ hc => cached_of_l2 (List.mem_filter.1 hc).1)
    fun _ hl => cached_of_llc hl

/-- The L2s keep their lines, with other contents. -/
theorem updL2 (s : State) (p : CacheLine → Bool) {f : CacheLine → CacheLine} (hf : ∀ c, (f c).line = c.line) :
    Shrinks s { s with l2 := updAll p f s.l2 } := by
  refine of_lines rfl (fun c hc => cached_of_l1 hc) (fun c hc => ?_) fun l hl => cached_of_llc hl
  obtain ⟨x, hx, rfl⟩ := List.mem_map.1 hc
  split
  · exact hf x ▸ cached_of_l2 hx
  · exact cached_of_l2 hx

theorem dropLlc (s : State) (line : Nat) : Shrinks s (s.dropLlc line) := by
  have hsame : SameButHome s (s.dropLlc line) := .dropLlc s line
  refine of_lines (s.dropLlc_writes line) (fun c hc => cached_of_l1 (hsame.l1 ▸ hc)) (fun c hc => cached_of_l2 (hsame.l2 ▸ hc))
    fun l hl => cached_of_llc ?_
  rw [State.dropLlc_llc] at hl
  exact (List.mem_filter.1 hl).1

theorem writeHome {s : State} {line : Nat} (h : s.cached line) (pad pol part : Nat) (mask : Dword) (d : BitVec 512) :
    Shrinks s (s.writeHome pad line pol part mask d).1 := by
  have hsame : SameButHome s (s.writeHome pad line pol part mask d).1 := .writeHome ..
  refine of_lines (s.writeHome_writes ..) (fun c hc => cached_of_l1 (hsame.l1 ▸ hc)) (fun c hc => cached_of_l2 (hsame.l2 ▸ hc))
    fun l hl => ?_
  rcases State.mem_writeHome hl with h' | h'
  · exact h' ▸ h
  · exact cached_of_llc h'

theorem freshenHome (s : State) (line : Nat) (mask : Dword) (d : BitVec 512) : Shrinks s (s.freshenHome line mask d) := by
  unfold State.freshenHome
  split
  · exact updL2 s _ fun _ => rfl
  · exact refl s

/-! ### The authority of a line on its way back -/

/-- An L2 with the authority of a line that stands in a cache has it no more, and its home has what atomics wrote. -/
theorem wroteBack {s : State} {line : Nat} (h : s.cached line) (c : CacheLine) : Shrinks s (s.wroteBack c line) := by
  have hwrite := writeHome h c.pad 3 0 c.dirty c.data
  unfold State.wroteBack
  split
  next u heq =>
    rw [heq] at hwrite
    exact hwrite.trans (freshenHome u line c.dirty c.data)
  next u heq =>
    rw [heq] at hwrite
    split
    next sid pc d trap _ => exact hwrite.trans (of_caches (State.lateFault_caches ..))
    · exact hwrite

theorem spillL2 (s : State) (line : Nat) : Shrinks s (s.spillL2 line) := by
  intro hs
  cases hc : holder s.l2 line with
  | none =>
    simp only [State.spillL2, hc]
    exact refl s hs
  | some c =>
    have hfreed : Shrinks s (s.freed line) := updL2 s _ fun _ => rfl
    rw [State.spillL2_idle hs hc]
    split
    · exact hfreed hs
    · exact hfreed.trans (wroteBack (State.cached_freed hc) c) hs

theorem evictL2 (s : State) (die line : Nat) : Shrinks s (s.evictL2 die line) := by
  unfold State.evictL2
  split
  next c _ =>
    extract_lets u
    have hu : Shrinks s u := by
      unfold u
      split
      · exact spillL2 s c.line
      · exact refl s
    exact hu.trans (of_lines rfl (fun _ hc => cached_of_l1 hc) (fun _ hc => cached_of_l2 (List.mem_filter.1 hc).1)
      fun _ hl => cached_of_llc hl)
  · exact refl s

/-- An L2 takes a line and lets others go: what matters is that no cache takes a new line as it enters. -/
theorem putL2 {s u : State} {c : CacheLine} (h : Shrinks s { u with l2 := putLine u.l2 c }) : Shrinks s (u.putL2 c) := by
  unfold State.putL2
  dsimp only
  split
  · exact h
  · exact h.trans (foldl (fun s _ => evictL2 s c.place c.line) _ _)

theorem spillL1 (s : State) (line : Nat) : Shrinks s (s.spillL1 line) := by
  unfold State.spillL1
  split
  next c hc =>
    refine putL2 (of_lines rfl (fun x hx => cached_of_l1 (List.mem_filter.1 hx).1) (fun x hx => ?_) fun l hl => cached_of_llc hl)
    rcases List.mem_cons.1 hx with rfl | hx
    · exact cached_of_l1 (c := c) (holder_mem hc).1
    · exact cached_of_l2 (List.mem_filter.1 hx).1
  · exact refl s

theorem returnAuth (s : State) (line : Nat) : Shrinks s (s.returnAuth line) := (spillL1 s line).trans (spillL2 _ line)

end Shrinks

end Sys2Proof.Machine
end

section
/-! PROOFS. TLBI, CFLUSH and CINV (O35): the event of each, and what a flush leaves in the caches, at the homes and in memory. -/

namespace Sys2Proof.Machine

open Sys2Proof.Claims

/-! ### One line is flushed (R244, R401) -/

/-- CFLUSH's effect on one line. -/
def State.flushLine (s : State) (line : Nat) : State :=
  State.dropLlc { s.returnAuth line with
    l1 := (s.returnAuth line).l1.filter (·.line != line), l2 := (s.returnAuth line).l2.filter (·.line != line) } line

/-- The lines that a flush takes, of those that stand in a cache. -/
def State.toFlush (s : State) (p : Nat → Bool) : List Nat :=
  ((s.l1.map (·.line) ++ s.l2.map (·.line) ++ s.llc.map (·.line)).filter p).dedup

theorem State.flushLines_eq (s : State) (p : Nat → Bool) : s.flushLines p = (s.toFlush p).foldl State.flushLine s := rfl

theorem State.mem_toFlush {s : State} {p : Nat → Bool} {line : Nat} : line ∈ s.toFlush p ↔ s.cached line ∧ p line = true := by
  simp only [State.toFlush, List.mem_dedup, List.mem_filter, List.mem_append, List.mem_map, State.cached, or_assoc]

theorem Shrinks.flushLine (s : State) (line : Nat) : Shrinks s (s.flushLine line) :=
  ((Shrinks.returnAuth s line).trans (.filter _ _ _)).trans (.dropLlc _ line)

theorem State.not_cached_flushLine (s : State) (line : Nat) : ¬ (s.flushLine line).cached line := by
  have hsame := fun u : State => SameButHome.dropLlc u line
  rintro (⟨c, hc, rfl⟩ | ⟨c, hc, rfl⟩ | ⟨l, hl, rfl⟩)
  · rw [State.flushLine, (hsame _).l1] at hc
    simpa using (List.mem_filter.1 hc).2
  · rw [State.flushLine, (hsame _).l2] at hc
    simpa using (List.mem_filter.1 hc).2
  · rw [State.flushLine, State.dropLlc_llc] at hl
    simpa using (List.mem_filter.1 hl).2

/-- A line that one of several flushes takes stands in no cache after them, where no write is on its way. -/
theorem State.not_cached_foldl_flushLine {line : Nat} (ls : List Nat) (s : State) (hw : s.writes = []) (hl : line ∈ ls) :
    ¬ (ls.foldl State.flushLine s).cached line := by
  induction ls generalizing s with
  | nil => cases hl
  | cons x xs ih =>
    obtain ⟨hw', -⟩ := Shrinks.flushLine s x hw
    rcases List.mem_cons.1 hl with rfl | hl
    · exact fun h => s.not_cached_flushLine line ((Shrinks.foldl Shrinks.flushLine xs (s.flushLine line) hw').2 line h)
    · exact ih (s.flushLine x) hw' hl

/-- No cache holds a line that a flush takes, where no write is on its way. -/
theorem State.not_cached_flushLines {s : State} {p : Nat → Bool} {line : Nat} (hw : s.writes = []) (hp : p line = true) :
    ¬ (s.flushLines p).cached line := by
  rw [State.flushLines_eq]
  by_cases hc : s.cached line
  · exact State.not_cached_foldl_flushLine _ s hw (State.mem_toFlush.2 ⟨hc, hp⟩)
  · exact fun h => hc ((Shrinks.foldl Shrinks.flushLine (s.toFlush p) s hw).2 line h)

/-! ### A flush of lines without authority -/

/-- The state with other contents of DRAM and other errors there, and without the lines of `q` in the caches. -/
def State.relieved (s : State) (q : Nat → Bool) (m : List Host.Cell) (po : List Nat) (us : Cells Nat) : State :=
  { s with l1 := s.l1.filter (!q ·.line), l2 := s.l2.filter (!q ·.line), llc := s.llc.filter (!q ·.line)
           mem := m, poison := po, upsets := us }

/-- The lines of `q` have left the caches, the homes have what they had, and memory has changed on those lines only. -/
structure Flushed (s u : State) (q : Nat → Bool) : Prop where
  eq : ∃ m po us, u = s.relieved q m po us
  home : ∀ a, homeByte u a = homeByte s a
  mem : ∀ a, q (a / 64) = false → Cells.get 0 u.mem a = Cells.get 0 s.mem a

theorem Flushed.refl (s : State) : Flushed s s fun _ => false :=
  ⟨⟨s.mem, s.poison, s.upsets, by simp [State.relieved]⟩, fun _ => rfl, fun _ _ => rfl⟩

theorem Flushed.trans {s u v : State} {q r : Nat → Bool} (h : Flushed s u q) (k : Flushed u v r) :
    Flushed s v fun line => q line || r line := by
  refine ⟨?_, fun a => (k.home a).trans (h.home a), fun a ha => ?_⟩
  · obtain ⟨m, po, us, rfl⟩ := h.eq
    obtain ⟨m', po', us', rfl⟩ := k.eq
    refine ⟨m', po', us', ?_⟩
    simp only [State.relieved, List.filter_filter, Bool.not_or, Bool.and_comm]
  · obtain ⟨hq, hr⟩ := Bool.or_eq_false_iff.1 ha
    exact (k.mem a hr).trans (h.mem a hq)

theorem holder_eq_none {cs : List CacheLine} {line : Nat} (h : ∀ c ∈ cs, c.auth = true → c.line ≠ line) :
    holder cs line = none := by
  rw [holder, List.find?_eq_none]
  intro c hc hb
  simp only [Bool.and_eq_true, beq_iff_eq] at hb
  exact h c hc hb.1 hb.2

theorem State.dropLlc_mem_other (s : State) {line a : Nat} (h : a / 64 ≠ line) :
    Cells.get 0 (s.dropLlc line).mem a = Cells.get 0 s.mem a := by
  unfold State.dropLlc
  split
  · dsimp only
    split
    · exact setMemLine_other _ _ _ _ a h
    · rfl
  · rfl

theorem State.dropLlc_eq (s : State) (line : Nat) : ∃ m po us, s.dropLlc line =
    { s with llc := s.llc.filter (·.line != line), mem := m, poison := po, upsets := us } := by
  have hllc := State.dropLlc_llc (s := s) line
  refine ⟨(s.dropLlc line).mem, (s.dropLlc line).poison, (s.dropLlc line).upsets, ?_⟩
  rw [← hllc]
  unfold State.dropLlc
  split
  · dsimp only
    split <;> rfl
  · rfl

/-- No cache has the authority of a line. -/
def State.unowned (s : State) (line : Nat) : Prop := ∀ c ∈ s.l1 ++ s.l2, c.auth = true → c.line ≠ line

theorem Flushed.flushLine {s : State} {line : Nat} (h : s.unowned line) : Flushed s (s.flushLine line) (· == line) := by
  have hself : s.returnAuth line = s := State.returnAuth_self
    (holder_eq_none fun c hc => h c (List.mem_append_left _ hc)) (holder_eq_none fun c hc => h c (List.mem_append_right _ hc))
  simp only [State.flushLine, hself]
  generalize hu : ({ s with l1 := s.l1.filter (·.line != line), l2 := s.l2.filter (·.line != line) } : State) = u
  have hmem : u.mem = s.mem := by rw [← hu]
  have hllc : u.llc = s.llc := by rw [← hu]
  refine ⟨?_, fun a => (u.homeByte_dropLlc line a).trans (homeByte_congr hmem hllc a), fun a ha => ?_⟩
  · obtain ⟨m, po, us, heq⟩ := u.dropLlc_eq line
    exact ⟨m, po, us, by rw [heq, ← hu]; rfl⟩
  · rw [u.dropLlc_mem_other (by simpa using ha), hmem]

theorem Flushed.unowned {s u : State} {q : Nat → Bool} (h : Flushed s u q) {line : Nat} (hs : s.unowned line) : u.unowned line := by
  obtain ⟨m, po, us, rfl⟩ := h.eq
  intro c hc
  refine hs c ?_
  rw [State.relieved, ← List.filter_append] at hc
  exact (List.mem_filter.1 hc).1

theorem Flushed.foldl (ls : List Nat) (s : State) (h : ∀ line ∈ ls, s.unowned line) :
    Flushed s (ls.foldl State.flushLine s) (ls.contains ·) := by
  induction ls generalizing s with
  | nil => exact .refl s
  | cons x xs ih =>
    have hx : Flushed s (s.flushLine x) (· == x) := .flushLine (h x List.mem_cons_self)
    have hxs := hx.trans (ih (s.flushLine x) fun line hl => hx.unowned (h line (List.mem_cons_of_mem x hl)))
    simpa only [List.foldl_cons, List.contains_cons] using hxs

theorem State.relieved_congr {s : State} {q p : Nat → Bool} (h : ∀ line, s.cached line → q line = p line) (m : List Host.Cell)
    (po : List Nat) (us : Cells Nat) : s.relieved q m po us = s.relieved p m po us := by
  have h1 : s.l1.filter (!q ·.line) = s.l1.filter (!p ·.line) := List.filter_congr fun c hc => by rw [h c.line (cached_of_l1 hc)]
  have h2 : s.l2.filter (!q ·.line) = s.l2.filter (!p ·.line) := List.filter_congr fun c hc => by rw [h c.line (cached_of_l2 hc)]
  have hllc : s.llc.filter (!q ·.line) = s.llc.filter (!p ·.line) :=
    List.filter_congr fun l hl => by rw [h l.line (cached_of_llc hl)]
  rw [State.relieved, State.relieved, h1, h2, hllc]

/-- A flush of lines without authority. -/
theorem Flushed.flushLines {s : State} {p : Nat → Bool} (h : ∀ c ∈ s.l1 ++ s.l2, c.auth = true → p c.line = false) :
    Flushed s (s.flushLines p) p := by
  have hls : Flushed s (s.flushLines p) ((s.toFlush p).contains ·) := by
    refine .foldl (s.toFlush p) s fun line hl c hc ha heq => ?_
    obtain ⟨-, hp⟩ := State.mem_toFlush.1 hl
    exact absurd (h c hc ha) (by simp [heq, hp])
  have hcontains (line : Nat) (hc : s.cached line) : (s.toFlush p).contains line = p line := by
    rw [Bool.eq_iff_iff, List.contains_iff_mem, State.mem_toFlush, and_iff_right hc]
  refine ⟨?_, hls.home, fun a ha => hls.mem a ?_⟩
  · obtain ⟨m, po, us, heq⟩ := hls.eq
    exact ⟨m, po, us, heq.trans (State.relieved_congr hcontains m po us)⟩
  · rw [← Bool.not_eq_true, List.contains_iff_mem, State.mem_toFlush, ha]
    exact fun h => absurd h.2 (by decide)

/-- The memory of a flushed line has what its home had. -/
theorem Flushed.mem_home {s u : State} {q : Nat → Bool} (h : Flushed s u q) {a : Nat} (ha : q (a / 64) = true) :
    Cells.get 0 u.mem a = homeByte s a := by
  have hnone : u.llcLine (a / 64) = none := by
    obtain ⟨m, po, us, rfl⟩ := h.eq
    rw [State.llcLine, List.find?_eq_none]
    intro l hl hline
    have hq := (List.mem_filter.1 hl).2
    rw [beq_iff_eq.1 hline, ha] at hq
    exact absurd hq (by decide)
  rw [← homeByte_of_none hnone, h.home]

/-! ### The authority of a line that an L2 holds (R244) -/

section
variable {s : State} {line : Nat} {c : CacheLine}

/-- The home of a line takes a write: it has the line in its LLC slice, or its DRAM has no error there. -/
theorem State.writeHome_taken (hd : s.peerDown (64 * line) = false)
    (hok : s.llcLine line ≠ none ∨ (s.poison.contains line = false ∧ Cells.get 0 s.upsets line = 0)) (pad pol part : Nat)
    (mask : Dword) (d : BitVec 512) :
    (s.writeHome pad line pol part mask d).2 = true ∧ ∀ a, homeByte (s.writeHome pad line pol part mask d).1 a =
      if a / 64 = line ∧ mask.getLsbD (a % 64) = true then lineByte d (a % 64) else homeByte s a := by
  cases hl : s.llcLine line with
  | some l =>
    simp only [State.writeHome, hd, Bool.false_eq_true, if_false, hl]
    exact ⟨trivial, State.homeByte_mergeLlc hl mask d⟩
  | none =>
    obtain ⟨hp, hu⟩ := hok.resolve_left fun h => h hl
    exact State.writeHome_clean hd hp hu ..

/-- Where no L2 has the authority of a line, none has it after a change that gives none. -/
theorem holder_updAll {cs : List CacheLine} {p : CacheLine → Bool} {f : CacheLine → CacheLine}
    (hf : ∀ c, ((f c).auth && (f c).line == line) = true → (c.auth && c.line == line) = true) (h : holder cs line = none) :
    holder (updAll p f cs) line = none := by
  rw [holder, List.find?_eq_none] at h ⊢
  rw [updAll, List.forall_mem_map]
  intro c hc
  split
  · exact mt (hf c) (h c hc)
  · exact h c hc

theorem holder_freed (s : State) (line : Nat) : holder (s.freed line).l2 line = none := by
  rw [holder, State.freed, updAll, List.find?_eq_none, List.forall_mem_map]
  intro c _
  split
  · exact Bool.false_ne_true
  next h => exact h

theorem holder_freshenHome (mask : Dword) (d : BitVec 512) (h : holder s.l2 line = none) :
    holder (s.freshenHome line mask d).l2 line = none := by
  unfold State.freshenHome
  split
  · exact holder_updAll (fun _ => id) h
  · exact h

/-- The written bytes of the line go home, and no L2 has its authority any more. -/
theorem State.spillL2_returns (hc : holder s.l2 line = some c) (hs : s.writes = []) (hd : s.peerDown (64 * line) = false)
    (hok : s.llcLine line ≠ none ∨ (s.poison.contains line = false ∧ Cells.get 0 s.upsets line = 0)) :
    (∀ a, homeByte (s.spillL2 line) a = if a / 64 = line ∧ c.dirty.getLsbD (a % 64) = true then lineByte c.data (a % 64)
      else homeByte s a) ∧ holder (s.spillL2 line).l2 line = none := by
  have hfreed := holder_freed s line
  have hhome (a : Nat) : homeByte (s.freed line) a = homeByte s a := homeByte_congr rfl rfl a
  rw [State.spillL2_idle hs hc]
  by_cases hdirty : c.dirty = 0
  · rw [if_pos hdirty]
    exact ⟨fun a => by simp [hdirty, hhome], hfreed⟩
  · rw [if_neg hdirty]
    obtain ⟨htaken, hbytes⟩ := State.writeHome_taken (s := s.freed line) hd hok c.pad 3 0 c.dirty c.data
    have hsame : SameButHome (s.freed line) ((s.freed line).writeHome c.pad line 3 0 c.dirty c.data).1 := .writeHome ..
    have hback : (s.freed line).wroteBack c line =
        ((s.freed line).writeHome c.pad line 3 0 c.dirty c.data).1.freshenHome line c.dirty c.data := by
      unfold State.wroteBack
      split
      next heq => rw [heq]
      next heq =>
        rw [heq] at htaken
        cases htaken
    rw [hback]
    refine ⟨fun a => ?_, holder_freshenHome _ _ (hsame.l2 ▸ hfreed)⟩
    rw [State.freshenHome_eq]
    exact ((homeByte_congr rfl rfl a).trans (hbytes a)).trans (by rw [hhome])

theorem State.returnAuth_l2 (h : holder s.l1 line = none) : s.returnAuth line = s.spillL2 line := by
  simp only [State.returnAuth, State.spillL1, h]

end

/-- What a flush leaves. -/
theorem flushes (s : State) (p : Nat → Bool) : Flushes s p := by
  refine ⟨fun h => ?_, fun hw => ⟨fun c hc => ?_, fun c hc => ?_, fun l hl => ?_⟩, fun line c h1 hc hw hd hok => ?_⟩
  · have hf : Flushed s (s.flushLines p) p := .flushLines h
    refine ⟨?_, hf.home, fun a => hf.mem_home, hf.mem⟩
    obtain ⟨m, po, us, heq⟩ := hf.eq
    rw [heq]
    rfl
  · exact Bool.eq_false_iff.2 fun hp => State.not_cached_flushLines hw hp (cached_of_l1 hc)
  · exact Bool.eq_false_iff.2 fun hp => State.not_cached_flushLines hw hp (cached_of_l2 hc)
  · exact Bool.eq_false_iff.2 fun hp => State.not_cached_flushLines hw hp (cached_of_llc hl)
  · rw [State.returnAuth_l2 h1]
    exact State.spillL2_returns hc hw hd hok

/-! ### TLBI (R368) -/

/-- The start of an invalidation removes the translations of its range and adds none. -/
theorem State.mem_startInval_tlb {s : State} {pad first cnt : Nat} {op : Option Nat} {e : TlbEnt}
    (h : e ∈ (s.startInval pad first cnt op).tlb) :
    e ∈ s.tlb ∧ ¬(e.pad = pad ∧ (cnt = 0 ∨ (e.va < (first + cnt) * 65536 ∧ first * 65536 < e.va + e.size))) := by
  obtain ⟨hmem, hkeep⟩ := List.mem_filter.1 h
  simp only [Bool.not_eq_true', ← Bool.not_eq_true, Bool.and_eq_true, Bool.or_eq_true, beq_iff_eq, decide_eq_true_eq] at hkeep
  exact ⟨hmem, hkeep⟩

/-- Settles O35: the events by the lemmas of the operations, and what a flush leaves by its lines, one after the other. -/
theorem systemOperations : Obligations.SystemOperations :=
  ⟨fun _ => tlbiEnds, fun _ => cflushEnds, fun _ => cinvEnds, flushes, fun _ _ _ _ _ _ => State.mem_startInval_tlb⟩

end Sys2Proof.Machine
end

section
/-! PROOFS. BRLD and WAITV (O23): the access that each makes of its operands, or the fault that they have, and the lanes that park on it. -/

namespace Sys2Proof.Machine

open Sys2Proof.Claims

section
variable {i : Instr} {access : Cur → Str → Troop → Except Cause Access} {mask : Cur → Mask} {park : Nat → Park}

/-- An access joins those in flight and lanes park on it, or its fault is raised. -/
def State.parkOn (s : State) (c : Cur) (m : Mask) (p : Nat → Park) : Except Cause Access → State
  | .error f => s.raise c f
  | .ok a => (s.start a).park c.sid m (p s.nextId)

/-- The instruction starts an access and parks lanes on it, unless an operand is at fault or no lane takes part. -/
def ParksOnAccess (i : Instr) (access : Cur → Str → Troop → Except Cause Access) (mask : Cur → Mask) (park : Nat → Park) : Prop :=
  ∀ s, exec i s = s.issue i noCheck fun c z t => if c.parts = 0 then s
    else s.parkOn c (mask c) park (access c z t)

theorem State.start_park {s : State} {sid : Nat} {z : Str} (hz : s.str? sid = some z) (a : Access) (m : Mask) (p : Park) :
    (s.start a).park sid m p = (joined s a).updStr sid fun _ => z.mapLanes m fun x => { x with park := p } :=
  State.updStr_const (s := joined s a) (z := z) hz _

theorem ParksOnAccess.idle (hx : ParksOnAccess i access mask park) : Completes i (fun _ c _ _ => c.parts = 0) fun s _ _ _ => s :=
  fun s _ _ _ h ho hc => exec_of_effect (hx s) h ho rfl (if_pos hc) rfl

theorem ParksOnAccess.starts (hx : ParksOnAccess i access mask park) {s : State} {c : Cur} {z : Str} {t : Troop} {a : Access}
    (h : Issues s i c z t) (ho : t.overflow = false) (hc : c.parts ≠ 0) (ha : access c z t = .ok a) :
    ∃ z', exec i s = .next ((joined s a).updStr c.sid fun _ => z') ∧ z' = { z with lanes := z'.lanes } ∧
      Lanes z z' fun l x => if (mask c).getLsbD l then { x with park := park s.nextId } else x := by
  refine ⟨_, exec_of_effect (hx s) h ho rfl ((if_neg hc).trans ?_) rfl, rfl, z.lanes_mapLanes (mask c) _⟩
  rw [ha]
  exact State.start_park h.str a (mask c) (park s.nextId)

theorem ParksOnAccess.traps (hx : ParksOnAccess i access mask park) {pre : State → Cur → Str → Troop → Prop} {f : Cause}
    (hp : ∀ s c z t, pre s c z t → c.parts ≠ 0 ∧ access c z t = .error f) : Traps i pre f :=
  Traps.of hx fun s c z t _ hpre => by
    obtain ⟨hc, ha⟩ := hp s c z t hpre
    rw [if_neg hc, ha, State.parkOn]

end

section
variable (o : Operands)

/-- The address of BRLD (R265). -/
def brldAddr (z : Str) : Int := (addr56 (z.sreg o.a.toNat)).toNat + o.imm.toInt

/-- The 32 bytes of BRLD lie in the address space (R181, R265). -/
def BrldInside (z : Str) : Prop := canonical (z.sreg o.a.toNat) = true ∧ spanOk (brldAddr o z) 32 = true

/-- The access of BRLD: one part of 32 bytes. -/
def brldAccess (c : Cur) (z : Str) (t : Troop) : Access :=
  { accessOf c t .brld 0 .b32 .str o.d.toNat
      [{ lane := 0, va := (brldAddr o z).toNat, w := 32, data := 0, data2 := 0, val := none }] with wasPref := z.pref == some c.pc }

/-- The access of BRLD, or the first fault of its address (log entry 142). -/
def brldTry (c : Cur) (z : Str) (t : Troop) : Except Cause Access :=
  if !canonical (z.sreg o.a.toNat) || !spanOk (brldAddr o z) 32 then .error .noncanonical
  else if (brldAddr o z).toNat % 32 != 0 then .error .misaligned
  else .ok (brldAccess o c z t)

section
variable {o : Operands} {c : Cur} {z : Str} {t : Troop}

theorem brldTry_outside (h : ¬ BrldInside o z) : brldTry o c z t = .error .noncanonical := by
  refine if_pos ?_
  simpa only [BrldInside, not_and_or, Bool.not_eq_true, Bool.or_eq_true, Bool.not_eq_true'] using h

theorem brldTry_inside (h : BrldInside o z) : brldTry o c z t =
    if (brldAddr o z).toNat % 32 != 0 then .error .misaligned else .ok (brldAccess o c z t) := by
  obtain ⟨hcan, hspan⟩ := h
  exact if_neg (by simp [hcan, hspan])

theorem brldTry_odd (h : BrldInside o z) (hodd : (brldAddr o z).toNat % 32 ≠ 0) : brldTry o c z t = .error .misaligned :=
  (brldTry_inside h).trans (if_pos (bne_iff_ne.2 hodd))

theorem brldTry_aligned (h : BrldInside o z) (hal : (brldAddr o z).toNat % 32 = 0) : brldTry o c z t = .ok (brldAccess o c z t) :=
  (brldTry_inside h).trans (if_neg (by simp [hal]))

end

theorem brld_parks : ParksOnAccess (.brld o) (brldTry o) (·.bundle) .brld := by
  intro s
  simp only [brldTry, apply_ite (s.parkOn _ _ _)]
  rfl

/-- The access of WAITV, none of whose lanes has its value yet, or the fault of its addresses (R184, R322). -/
def waitvTry (c : Cur) (z : Str) (t : Troop) : Except Cause Access :=
  (recAddrs z o (o.ty.width / 8) c.lanes).map fun rs => accessOf c t .waitv o.fn.toNat o.ty o.level 0
    ((elemsOf (o.ty.width / 8) (fun l => z.vval o.ty o.c.toNat l) (fun _ => 0) rs).map fun e => { e with val := none })

/-- Without a participant no address is at fault. -/
theorem parts_ne_zero_of_recAddrs_error {z : Str} {c : Cur} {w : Nat} {f : Cause} (h : recAddrs z o w c.lanes = .error f) :
    c.parts ≠ 0 := by
  intro hc
  have hnil : c.lanes = [] := by rw [Cur.lanes, hc]; rfl
  rw [hnil] at h
  cases h

theorem waitv_parks : ParksOnAccess (.waitv o) (waitvTry o) (·.parts) .waitv := by
  intro s
  change execWaitv o s = _
  unfold execWaitv waitvTry
  congr 1
  funext c z t
  dsimp only
  cases hrs : recAddrs z o (o.ty.width / 8) c.lanes with
  | error f => exact (if_neg (parts_ne_zero_of_recAddrs_error o hrs)).symm
  | ok rs => rfl

end

/-- Settles O23: each instruction parks lanes on the access of its operands, and traps with the fault that they have. -/
theorem parkedAccesses : Obligations.ParkedAccesses := by
  refine ⟨fun o s c z t h ho hc hcan hspan hal => (brld_parks o).starts h ho hc (brldTry_aligned ⟨hcan, hspan⟩ hal),
    fun o => (brld_parks o).idle,
    fun o => ⟨(brld_parks o).traps fun s c z t ⟨hc, hout⟩ => ⟨hc, brldTry_outside hout⟩,
      (brld_parks o).traps fun s c z t ⟨hc, hin, hodd⟩ => ⟨hc, brldTry_odd hin hodd⟩⟩,
    fun o s c z t rs h ho hc hrs => (waitv_parks o).starts h ho hc ?_,
    fun o => (waitv_parks o).idle,
    fun o f => (waitv_parks o).traps fun s c z t hf => ⟨parts_ne_zero_of_recAddrs_error o hf, ?_⟩⟩
  · rw [waitvTry, hrs]
    rfl
  · rw [waitvTry, hf]
    rfl

end Sys2Proof.Machine
end

section
/-! PROOFS. The copy instructions (O38): a copy waits, traps, or joins its counter; one of no elements that is the oldest of its class
retires at once. -/

namespace Sys2Proof.Machine

open Sys2Proof.Claims

/-! ### A copy joins its counter, or retires at once (R247, R278) -/

/-- An engine operation has joined those in flight. -/
def State.joinEng (s : State) (e : EngOp) : State := { s with engs := s.engs ++ [e], nextId := s.nextId + 1 }

/-- A copy that nothing holds back and nothing refuses: one without elements retires unless an older one is outstanding. -/
def State.beginCopy (s : State) (tid : Nat) (e : EngOp) : State :=
  if e.count = 0 && !(s.joinEng e).olderEng e then
    match e.cred with
    | some n => ((s.joinEng e).retireEng e).credit tid n 0 0
    | none => (s.joinEng e).retireEng e
  else s.joinEng e

/-- A copy whose operands are in order traps with the first fault of its elements, or begins (R278). -/
def State.tryCopy (s : State) (c : Cur) (t : Troop) (e : EngOp) : State :=
  match e.startFault t with
  | some f => s.raise c f
  | none => s.beginCopy t.tid e

section
variable {s : State} {e : EngOp}

theorem State.tryCopy_fault {t : Troop} {f : Cause} (c : Cur) (h : e.startFault t = some f) : s.tryCopy c t e = s.raise c f := by
  rw [State.tryCopy, h]

theorem State.tryCopy_begins {t : Troop} (c : Cur) (h : e.startFault t = none) : s.tryCopy c t e = s.beginCopy t.tid e := by
  rw [State.tryCopy, h]

/-- An operation is not older than itself. -/
theorem State.olderEng_joinEng : (s.joinEng e).olderEng e = s.olderEng e := by
  simp [State.joinEng, State.olderEng, List.any_append]

theorem State.beginCopy_joins (tid : Nat) (h : e.count ≠ 0 ∨ s.olderEng e = true) : s.beginCopy tid e = s.joinEng e := by
  refine if_neg ?_
  rw [State.olderEng_joinEng]
  rcases h with h | h <;> simp [h]

theorem State.beginCopy_retires (tid : Nat) (hcount : e.count = 0) (hold : s.olderEng e = false) (hcred : e.cred = none) :
    s.beginCopy tid e = (s.joinEng e).retireEng e := by
  rw [State.beginCopy, State.olderEng_joinEng, if_pos (by simp [hcount, hold]), hcred]

/-- An operation with neither flags nor a fault leaves its counter, and nothing else but its CWAITs changes (R247, R285). -/
theorem State.retireEng_clean {z : Str} (hz : s.str? e.sid = some z) (hpend : ∀ f ∈ s.pendFlags, f.1 ≠ e.id) (hflags : e.flags = 0)
    (hfault : e.fault = none) : s.retireEng e =
      (s.dropEng e.id).updStr e.sid fun _ => z.unpark ((s.dropEng e.id).cwaitOver e.sid) := by
  have hz0 : (s.dropEng e.id).str? e.sid = some z := hz
  have hor : (s.dropEng e.id).orFlags e.sid e.flags = s.dropEng e.id := by
    rw [State.orFlags_eq hz0, hflags, or_noFlags]
    exact State.updStr_self hz0
  have hrec (u : State) : u.recordFlags e = u := if_neg (by simp [hflags])
  have hlate (u : State) : u.recordFault e = u := by simp only [State.recordFault, hfault]
  rw [State.retireEng_eq, State.takeFlags_self (s := s.dropEng e.id) hpend, hor, hrec, hlate]
  exact State.updStr_const hz0 _

/-- An operation that joins under a new id and leaves again was never there. -/
theorem State.dropEng_joinEng (h : ∀ f ∈ s.engs, f.id ≠ e.id) : (s.joinEng e).dropEng e.id = { s with nextId := s.nextId + 1 } := by
  have hkeep : (s.engs ++ [e]).filter (·.id != e.id) = s.engs := by simpa [List.filter_eq_self] using h
  simp only [State.joinEng, State.dropEng, hkeep]

/-- What is left of an operation that joins and retires at once: its id, and the CWAITs that go on. -/
theorem State.retireEng_joinEng {z : Str} (hz : s.str? e.sid = some z) (hids : ∀ f ∈ s.engs, f.id ≠ e.id)
    (hpend : ∀ f ∈ s.pendFlags, f.1 ≠ e.id) (hflags : e.flags = 0) (hfault : e.fault = none) :
    (s.joinEng e).retireEng e = { s with nextId := s.nextId + 1 }.updStr e.sid fun _ => z.unpark (s.cwaitOver e.sid) := by
  rw [State.retireEng_clean (s := s.joinEng e) hz hpend hflags hfault, State.dropEng_joinEng hids]
  rfl

end

/-! ### The checks of R278 -/

/-- A copy waits: its string has stores that are not accepted, or its counter is full. -/
def State.copyHeld (s : State) (sid : Nat) (kind : EngKind) : Bool := s.storesPending sid s.nextId || s.engCount sid kind.cls == 63

/-- The operands of a copy are in their ranges, its shape fits, and so do the formats of a conversion. -/
def CopyFits (z : Str) (o : Operands) (ok : Bool) (e : EngOp) : Prop :=
  (z.sreg o.d.toNat).toNat < 2 ^ 24 ∧ (z.sreg o.a.toNat).toNat < 2 ^ 32 ∧ ok = true ∧
    (e.cvt = true → copyCvtOk e.record o.ty e.dir = true)

section
variable {s : State} {c : Cur} {z : Str} {t : Troop} {o : Operands} {kind : EngKind} {rows cols : Nat} {rs : Int} {op : Nat} {ok : Bool}

theorem not_copyFits_iff {e : EngOp} : ¬ CopyFits z o ok e ↔ (decide (2 ^ 24 ≤ (z.sreg o.d.toNat).toNat) ||
    decide (2 ^ 32 ≤ (z.sreg o.a.toNat).toNat) || !ok || (e.cvt && !copyCvtOk e.record o.ty e.dir)) = true := by
  simp only [CopyFits, Bool.or_eq_true, decide_eq_true_eq, Bool.and_eq_true, Bool.not_eq_true', not_and_or, Nat.not_lt, or_assoc,
    Classical.not_imp, Bool.not_eq_true]

theorem State.startCopy_held (hw : s.copyHeld c.sid kind = true) : s.startCopy c z t o kind rows cols rs op ok = s.hold := if_pos hw

variable (hw : s.copyHeld c.sid kind = false)
include hw

theorem State.startCopy_fits (hfit : CopyFits z o ok (copyOp s c z t o kind rows cols rs op)) :
    s.startCopy c z t o kind rows cols rs op ok = s.tryCopy c t (copyOp s c z t o kind rows cols rs op) :=
  (if_neg (Bool.eq_false_iff.1 hw)).trans (if_neg (mt not_copyFits_iff.2 (not_not.2 hfit)))

theorem State.startCopy_unfit (hfit : ¬ CopyFits z o ok (copyOp s c z t o kind rows cols rs op)) :
    s.startCopy c z t o kind rows cols rs op ok = s.raise c .bounds :=
  (if_neg (Bool.eq_false_iff.1 hw)).trans (if_pos (not_copyFits_iff.1 hfit))

end

/-! ### The instructions (R279 to R283) -/

/-- An instruction that does nothing without a participant, and where it gets so far starts a copy of its shape. -/
theorem CopyStarts.of {i : Instr} {o : Operands} {kind : EngKind} {shape : Str → Nat × Nat × Int} {op : Str → Nat} {ok : Str → Bool}
    {own : Troop → Prop} {body : State → Cur → Str → Troop → State} (hx : ∀ s, exec i s = s.issue i noCheck (body s))
    (hidle : ∀ s c z t, c.parts = 0 → body s c z t = s)
    (hgo : ∀ s c z t, c.parts ≠ 0 → own t →
      body s c z t = s.startCopy c z t o kind (shape z).1 (shape z).2.1 (shape z).2.2 (op z) (ok z)) :
    CopyStarts i o kind shape op ok own := by
  refine ⟨fun s c z t h ho hc => ?_, fun s c z t h ho hc hown hw => ?_, fun s c z t h ho hc hown hw hfit hf hstays => ?_,
    fun s c z t h ho hc hown hw hfit hf hcount hold hcred hids hpend => ?_, ?_, fun f => ?_⟩
  · exact exec_of_effect (hx s) h ho rfl (hidle s c z t hc) rfl
  · exact held_of_effect (hx s) h ho rfl ((hgo s c z t hc hown).trans (State.startCopy_held hw))
  · refine exec_of_effect (hx s) h ho rfl ?_ rfl
    rw [hgo s c z t hc hown, State.startCopy_fits hw hfit, State.tryCopy_begins c hf, State.beginCopy_joins t.tid hstays]
    rfl
  · refine ⟨z.unpark (s.cwaitOver c.sid), exec_of_effect (hx s) h ho rfl ?_ rfl, rfl, z.lanes_cwaitOver s c.sid⟩
    rw [hgo s c z t hc hown, State.startCopy_fits hw hfit, State.tryCopy_begins c hf, State.beginCopy_retires t.tid hcount hold hcred]
    exact State.retireEng_joinEng h.str hids hpend rfl rfl
  · exact Traps.of hx fun s c z t _ ⟨hc, hown, hw, hfit⟩ => (hgo s c z t hc hown).trans (State.startCopy_unfit hw hfit)
  · refine Traps.of hx fun s c z t _ ⟨hc, hown, hw, hfit, hf⟩ => ?_
    rw [hgo s c z t hc hown, State.startCopy_fits hw hfit, State.tryCopy_fault c hf]

/-- An instruction that starts a copy of its shape wherever it has a participant. -/
theorem CopyStarts.of_parts {i : Instr} {o : Operands} {kind : EngKind} {shape : Str → Nat × Nat × Int} {op : Str → Nat} {ok : Str → Bool}
    (hx : ∀ s, exec i s = s.issue i noCheck fun c z t =>
      if c.parts = 0 then s else s.startCopy c z t o kind (shape z).1 (shape z).2.1 (shape z).2.2 (op z) (ok z)) :
    CopyStarts i o kind shape op ok fun _ => True :=
  CopyStarts.of hx (fun _ _ _ _ hc => if_pos hc) fun _ _ _ _ hc _ => if_neg hc

theorem exec_acoll (o : Operands) (s : State) : exec (.acoll o) s = s.issue (.acoll o) noCheck fun c z t =>
    if c.parts = 0 then s
    else if t.held then s.raise c .recoveryEscape
    else s.startCopy c z t o .acoll 1 ((z.sreg o.c.toNat).toNat % 2 ^ 32) 0 ((z.sreg o.c.toNat).toNat / 2 ^ 32)
      (decide ((z.sreg o.c.toNat).toNat / 2 ^ 32 ≤ 3) && o.ty.width == 8 * recSize (z.breg o.b.toNat)) := rfl

/-- Settles O38: each instruction is a copy of its own shape; ACOLL traps before it where its combines could not be undone. -/
theorem copiesStart : Obligations.CopiesStart := by
  refine ⟨fun o => CopyStarts.of_parts fun _ => rfl, fun o => CopyStarts.of_parts fun _ => rfl,
    fun o => CopyStarts.of_parts fun _ => rfl, fun o => CopyStarts.of_parts fun _ => rfl,
    fun o => CopyStarts.of (exec_acoll o) (fun _ _ _ _ hc => if_pos hc) fun s c z t hc hown => ?_,
    fun o => Traps.of (exec_acoll o) fun s c z t _ ⟨hc, hprot⟩ => ?_⟩
  · rw [if_neg hc, Troop.not_held hown, if_neg Bool.false_ne_true]
  · rw [if_neg hc, if_pos (Troop.held_of_protect hprot)]

end Sys2Proof.Machine
end

section
/-! PROOFS. The machine after reset (O60); JMPI, RET and CALL (O13); NOP, PBLK and YLD (O14); the return from a trap (O17) and the delivery
of a late fault (O18). -/

namespace Sys2Proof.Machine

open Sys2Proof.Claims

/-! ### The machine after reset (R382) -/

/-- A byte of which no home holds the line, in a memory that nothing has written, reads 0. -/
theorem homeByte_empty {s : State} (hl : s.llc = []) (hm : s.mem = []) (a : Nat) : homeByte s a = 0 := by
  have hnone : s.llcLine (a / 64) = none := by simp [State.llcLine, hl]
  rw [homeByte_of_none hnone, hm]
  rfl

/-- Settles O60: each part of the reset state by its definition, and its bytes by the empty home and memory. -/
theorem resetState : Obligations.ResetState := by
  refine ⟨rfl, rfl, rfl, rfl, rfl, rfl, rfl, rfl, rfl, rfl, rfl, rfl, rfl, rfl, rfl, rfl, rfl, homeByte_empty rfl rfl, reset_wf, ?_⟩
  intro z hz
  cases hz

/-! ### A change of some lanes, one after the other -/

theorem getLsbD_maskOf_single {k : Nat} (hk : k < 32) (l : Nat) : (maskOf [k]).getLsbD l = decide (l = k) := by
  by_cases hl : l < 32
  · rw [getLsbD_maskOf _ hl]; simp
  · rw [BitVec.getLsbD_of_ge _ _ (by omega)]
    exact (decide_eq_false (by omega)).symm

theorem Cur.mem_lanes (c : Cur) (l : Nat) : l ∈ c.lanes ↔ c.parts.getLsbD l = true :=
  mem_lanesOf.trans ⟨And.right, fun h => ⟨BitVec.lt_of_getLsbD h, h⟩⟩

/-- Each lane of a list takes a change of its own. -/
def Str.mapEach (z : Str) (ls : List Nat) (f : Nat → Lane → Lane) : Str := ls.foldl (fun z l => z.mapLanes (maskOf [l]) (f l)) z

theorem Str.mapEach_eq (ls : List Nat) (f : Nat → Lane → Lane) : ∀ z : Str, z.mapEach ls f = { z with lanes := (z.mapEach ls f).lanes } := by
  induction ls with
  | nil => exact fun _ => rfl
  | cons l ls ih => exact fun z => ih (z.mapLanes (maskOf [l]) (f l))

theorem Str.lanes_mapEach {f : Nat → Lane → Lane} : ∀ {ls : List Nat} (z : Str), ls.Nodup → (∀ l ∈ ls, l < 32) →
    Lanes z (z.mapEach ls f) fun l x => if l ∈ ls then f l x else x := by
  intro ls
  induction ls with
  | nil => exact fun z _ _ => ⟨rfl, fun l _ => (if_neg List.not_mem_nil).symm⟩
  | cons k ls ih =>
    intro z hn h32
    obtain ⟨hk, hn⟩ := List.nodup_cons.1 hn
    obtain ⟨hlen1, hlane1⟩ := z.lanes_mapLanes (maskOf [k]) (f k)
    obtain ⟨hlen2, hlane2⟩ := ih (z.mapLanes (maskOf [k]) (f k)) hn fun l hl => h32 l (List.mem_cons_of_mem _ hl)
    refine ⟨hlen2.trans hlen1, fun l hl => (hlane2 l (by omega)).trans ?_⟩
    simp only [hlane1 l hl, getLsbD_maskOf_single (h32 k List.mem_cons_self)]
    by_cases hlk : l = k
    · subst hlk; simp [hk]
    · simp [hlk]

theorem State.foldl_mapLanes {s : State} {sid : Nat} {z : Str} (hz : s.str? sid = some z) (ls : List Nat) (f : Nat → Lane → Lane) :
    ls.foldl (fun s l => s.updStr sid fun y => y.mapLanes (maskOf [l]) (f l)) s = s.updStr sid fun _ => z.mapEach ls f := by
  induction ls generalizing s z with
  | nil => exact (State.updStr_self hz).symm
  | cons l ls ih =>
    rw [List.foldl_cons, ih (State.str?_updStr hz (fun y => y.mapLanes (maskOf [l]) (f l)) rfl),
      State.updStr_updStr hz (fun y => y.mapLanes (maskOf [l]) (f l)) _ rfl]
    rfl

/-- An instruction that changes each of its participants in a way of its own, and nothing else. -/
theorem MovesLanes.of_each {i : Instr} {pre : State → Cur → Str → Troop → Prop} {f : Cur → Str → Nat → Lane → Lane}
    {body : State → Cur → Str → Troop → State} (hx : ∀ s, exec i s = s.issue i noCheck (body s))
    (hb : ∀ s c z t, pre s c z t →
      body s c z t = c.lanes.foldl (fun s l => s.updStr c.sid fun y => y.mapLanes (maskOf [l]) (f c z l)) s) :
    MovesLanes i pre fun c z l x => if c.parts.getLsbD l then f c z l x else x := by
  intro s c z t h ho hp
  have hl := z.lanes_mapEach (f := f c z) (nodup_lanesOf c.parts) fun l hl => (mem_lanesOf.1 hl).1
  refine ⟨z.mapEach c.lanes (f c z), exec_of_body hx h ho ((hb s c z t hp).trans (State.foldl_mapLanes h.str c.lanes (f c z))),
    z.mapEach_eq (ls := c.lanes) (f := f c z), hl.1, fun l hlt => (hl.2 l hlt).trans ?_⟩
  simp only [← c.mem_lanes, Cur.lanes]

/-! ### JMPI, RET and CALL (R312, R313) -/

section
variable {s : State} {c : Cur} {z : Str} {o : Operands}

theorem State.jump_noncanonical (h : ∃ l ∈ c.lanes, canonical (z.vpair o.a.toNat l) = false) :
    s.jump c z o = s.raise c .noncanonical := by
  obtain ⟨l, hl, hc⟩ := h
  exact if_pos (List.any_eq_true.2 ⟨_, List.mem_map_of_mem hl, by rw [hc]; rfl⟩)

theorem State.jump_canonical (h : ∀ l ∈ c.lanes, canonical (z.vpair o.a.toNat l) = true) : s.jump c z o =
    if (c.lanes.map fun l => (l, z.vpair o.a.toNat l)).any fun t => t.2.toNat % 4 != 0 then s.raise c .misaligned
    else (c.lanes.map fun l => (l, z.vpair o.a.toNat l)).foldl (fun s t => s.moveLanes c.sid (maskOf [t.1]) (addr56 t.2)) s := by
  refine if_neg ?_
  rw [List.any_map, List.any_eq_true]
  rintro ⟨l, hl, hc⟩
  simp [h l hl] at hc

theorem State.jump_misaligned (h : ∀ l ∈ c.lanes, canonical (z.vpair o.a.toNat l) = true)
    (ho : ∃ l ∈ c.lanes, (z.vpair o.a.toNat l).toNat % 4 ≠ 0) : s.jump c z o = s.raise c .misaligned := by
  obtain ⟨l, hl, hm⟩ := ho
  rw [State.jump_canonical h]
  exact if_pos (List.any_eq_true.2 ⟨_, List.mem_map_of_mem hl, by simpa using hm⟩)

theorem State.jump_goes (h : ∀ l ∈ c.lanes, canonical (z.vpair o.a.toNat l) = true ∧ (z.vpair o.a.toNat l).toNat % 4 = 0) :
    s.jump c z o = c.lanes.foldl (fun s l => s.updStr c.sid fun y => y.mapLanes (maskOf [l]) (goTo (addr56 (z.vpair o.a.toNat l)))) s := by
  rw [State.jump_canonical fun l hl => (h l hl).1, if_neg, List.foldl_map]
  · rfl
  · rw [List.any_map, List.any_eq_true]
    rintro ⟨l, hl, hm⟩
    exact bne_iff_ne.1 hm (h l hl).2

end

/-- JMPI and RET do what `State.jump` does. -/
theorem jumpResult {i : Instr} {o : Operands} (hx : ∀ s, exec i s = s.issue i noCheck fun c z _ => s.jump c z o) :
    JumpResult i o.a :=
  ⟨MovesLanes.of_each hx fun _ _ _ _ h => State.jump_goes h, Traps.of hx fun _ _ _ _ _ h => State.jump_noncanonical h,
    Traps.of hx fun _ _ _ _ _ h => State.jump_misaligned h.1 h.2⟩

/-- The distance of a CALL's target in words: a literal, or the immediate of its word. -/
def callOffset (o : Operands) : Int := if o.len.hasLit then o.lit.toInt else o.imm.toInt

theorem exec_call (o : Operands) (s : State) : exec (.call o) s = s.issue (.call o) noCheck fun c _ t =>
    if c.parts = 0 then s
    else match branchTarget c.pc (callOffset o) with
      | none => s.raise c .noncanonical
      | some p => (s.writeVal c.sid t.depth .b64 o.d.toNat (c.lanes.map fun l => (l, (dwordOf c.next).toNat))).moveLanes c.sid
          c.parts p := rfl

/-- CALL writes its link pair, and then its participants move. -/
theorem exec_call_goes {o : Operands} {s : State} {c : Cur} {z : Str} {t : Troop} {p : Addr} (h : Issues s (.call o) c z t)
    (hr : Room z t 2) (hc : c.parts ≠ 0) (hp : branchTarget c.pc (callOffset o) = some p) :
    ∃ z', exec (.call o) s = .next (s.updStr c.sid fun _ => z') ∧ z' = { z with v := z'.v, bag := z'.bag, lanes := z'.lanes } ∧
      (t.depth = 0 → z'.bag = z.bag) ∧
      (∀ n l, l < 32 → z'.vreg n l = if c.parts.getLsbD l then
        (oneDest .b64 o.d.toNat (dwordOf c.next).toNat n).getD (z.vreg n l) else z.vreg n l) ∧
      Lanes z z' fun l x => if c.parts.getLsbD l then goTo p x else x := by
  obtain ⟨z1, hw, hz1, hbag, hval⟩ := State.writeVal_room (d := t.depth) (n := o.d.toNat) (m := c.parts) (td := .b64)
    (f := fun _ => (dwordOf c.next).toNat) h.str h.troop hr
  have hlanes : z1.lanes = z.lanes := by rw [hz1]
  refine ⟨z1.mapLanes c.parts (goTo p), ?_, ?_, hbag, hval, lanes_congr hlanes (z1.lanes_mapLanes c.parts (goTo p))⟩
  · refine exec_of_body (exec_call o) h hr.1 ?_
    simp only [if_neg hc, hp, Cur.lanes]
    rw [hw]
    exact State.updStr_updStr h.str (fun _ => z1) (fun y => y.mapLanes c.parts (goTo p)) (by rw [hz1])
  · rw [Str.mapLanes, hz1]

/-- Settles O13: JMPI and RET by the targets of their lanes, CALL by its link pair and its target. -/
theorem jumpsAndCalls : Obligations.JumpsAndCalls := by
  refine ⟨fun o => jumpResult fun _ => rfl, fun o => jumpResult fun _ => rfl, fun o => ⟨?_, ?_, ?_⟩⟩
  · exact fun s c z t h ho hc => exec_of_effect (exec_call o s) h ho rfl (if_pos hc) rfl
  · exact fun s c z t h hr hc hin => exec_call_goes h hr hc (branchTarget_inside hin)
  · refine Traps.of (exec_call o) fun s c z t _ ⟨hc, hout⟩ => ?_
    rw [if_neg hc, show branchTarget c.pc (callOffset o) = none from branchTarget_outside hout]

/-! ### NOP, PBLK and YLD (R315 to R318) -/

/-- The block that a PBLK gives a participant. -/
def pblkOf (o : BlockOps) (z : Str) (l : Nat) (x : Lane) : Lane :=
  { x with block := some { bit := z.preg o.psel.toNat l, pattern := o.pattern, cnt := o.cnt.toNat + 1, pos := 0 } }

theorem exec_pblk (o : BlockOps) (s : State) : exec (.pblk o) s = s.issue (.pblk o) noCheck fun c z _ =>
    if c.trap then s
    else c.lanes.foldl (fun s l => s.updStr c.sid fun y => y.mapLanes (maskOf [l]) (pblkOf o z l)) s := rfl

/-- In trap mode PBLK changes nothing (R316). -/
theorem pblk_in_trap (o : BlockOps) : Completes (.pblk o) (fun _ c _ _ => c.trap = true) fun s _ _ _ => s :=
  fun s _ _ _ h ho hc => exec_of_effect (exec_pblk o s) h ho rfl (if_pos hc) rfl

theorem pblk_moves (o : BlockOps) : MovesLanes (.pblk o) (fun _ c _ _ => c.trap = false)
    fun c z l x => if c.parts.getLsbD l then pblkOf o z l x else x :=
  MovesLanes.of_each (exec_pblk o) fun _ _ _ _ hc => if_neg (Bool.eq_false_iff.1 hc)

/-- YLD marks the lanes of its bundle, and the preferred PC is cleared. -/
theorem exec_yld (o : Operands) (s : State) : exec (.yld o) s = s.issue (.yld o) noCheck fun c _ _ =>
    (s.updStr c.sid fun z => z.mapLanes c.bundle fun l => { l with yielded := true }).setSplit none := rfl

/-- Settles O14: NOP and PBLK by their cases, YLD by the lanes it marks. -/
theorem blocksAndYields : Obligations.BlocksAndYields := by
  refine ⟨fun o s c z t h ho _ => exec_of_effect (i := .nop o) (body := fun _ _ _ => s) rfl h ho rfl rfl rfl, fun o s c z t h ho _ => ?_,
    fun o s c z t h ho => ⟨z.mapLanes c.bundle fun l => { l with yielded := true }, ?_, rfl, z.lanes_mapLanes ..⟩⟩
  · cases hc : c.trap with
    | true =>
      refine ⟨z, (pblk_in_trap o s c z t h ho hc).trans (congrArg _ (State.updStr_self h.str).symm), rfl, rfl, fun l _ => ?_⟩
      simp [hc]
    | false =>
      obtain ⟨z', hexec, hz', hlanes⟩ := pblk_moves o s c z t h ho hc
      refine ⟨z', hexec, hz', hlanes.1, fun l hl => (hlanes.2 l hl).trans ?_⟩
      simp only [hc, Bool.not_false, Bool.and_true]
      rfl
  · refine exec_of_effect (exec_yld o s) h ho rfl ?_ rfl
    rw [State.updStr_const h.str, State.setSplit, State.updStr, h.cur]
    rfl

/-! ### TRET (R393, R395) -/

theorem exec_tret (o : Operands) (s : State) : exec (.tret o) s = s.issue (.tret o) (fun c _ _ => c.trap) fun c _ _ =>
    s.trapReturn c.sid c.bundle := rfl

/-- Settles O17: TRET ends trap mode by the return from a trap, and outside trap mode its own check fails. -/
theorem trapReturns : Obligations.TrapReturns := by
  refine ⟨fun o s c z t h ho hc => ?_, fun o s c z t h _ hd hc => ?_⟩
  · refine ⟨_, exec_of_effect (exec_tret o s) h ho hc (State.trapReturn_eq h.str c.bundle) rfl, Str.endTrapMode_eq _, ?_⟩
    exact z.lanes_endTrapMode c.bundle (f := fun l => { l with trap := false, pc := z.retPc }) fun _ => rfl
  · exact raise_illegal (exec_tret o s) h.cur h.str h.troop hd (by rw [hc, Bool.and_false])

/-! ### A late fault is delivered (R390, R391, R397, R398, R417) -/

/-- The cause is one that no recovery block takes (R417). -/
theorem routes_eq_false_iff (c : Cause) : c.routes = false ↔ c = .trapInstr ∨ c = .recoveryEscape ∨ c = .recoveryDepth := by
  cases c <;> decide

/-- The string as it enters its handler for a late fault, the rest of its queue being `fs` (R391). -/
def Str.takesLate (z : Str) (f : Late) (fs : List Late) (ret : Addr) (g : Mask) : Str :=
  { z.mapLanes g (fun l => { l with trap := true, pc := addr56 z.trapBase, park := .none, settle := none }) with
    lateq := fs, trapCause := BitVec.ofNat 32 f.cause.code, trapPc := dwordOf f.pc, trapNodePc := dwordOf f.nodePc, retPc := ret }

/-- A fault leaves its string's queue. -/
def State.takeLate (s : State) (sid : Nat) (fs : List Late) : State := s.updStr sid fun z => { z with lateq := fs }

section
variable {s : State} {c : Cur} {z : Str} {t : Troop}

theorem exec_lateFaultDeliver_waits (hc : s.cur = some c) (hz : s.str? c.sid = some z)
    (h : z.lateq = [] ∨ z.lanes.any (·.trap) = true) : exec .lateFaultDeliver s = .next s := by
  change execLateFaultDeliver s = _
  simp only [execLateFaultDeliver, hc, hz]
  split
  · rfl
  · next hq => rw [if_pos (h.resolve_left (by simp [hq]))]

variable {f : Late} {fs : List Late} (hz : s.str? c.sid = some z) (ht : s.troop? z.tid = some t)
include hz

theorem exec_lateFaultDeliver_routes (hc : s.cur = some c) (hq : z.lateq = f :: fs) (hn : z.lanes.any (·.trap) = false) :
    exec .lateFaultDeliver s = .next ((s.takeLate c.sid fs).route z f.cause f.depth f.pc f.nodePc c.pc c.bundle) := by
  change execLateFaultDeliver s = _
  simp only [execLateFaultDeliver, hc, hz, hq, hn, Bool.false_eq_true, if_false]
  rfl

include ht

/-- A fault of no open block, or one that recovery does not take, goes to the handler. -/
theorem State.route_delivers (h : t.depth = 0 ∨ f.depth = 0 ∨ f.cause.routes = false) (pc nodePc ret : Addr) (g : Mask) :
    (s.takeLate c.sid fs).route z f.cause f.depth pc nodePc ret g = (s.takeLate c.sid fs).deliver c.sid f.cause pc nodePc ret g := by
  have hk : (s.takeLate c.sid fs).depthOf z = t.depth := State.depthOf_eq ht
  rw [State.route, hk, if_neg, State.str_sid hz]
  rcases h with h | h | h <;> simp [h]

omit hz in
/-- One that recovery takes fails the alternate of the shallower of the two depths. -/
theorem State.route_fails (hd : t.depth ≠ 0) (hf : f.depth ≠ 0) (hr : f.cause.routes = true) (pc nodePc ret : Addr) (g : Mask) :
    (s.takeLate c.sid fs).route z f.cause f.depth pc nodePc ret g =
      (s.takeLate c.sid fs).fail t.tid (min f.depth t.depth) 3 f.cause.code := by
  have hk : (s.takeLate c.sid fs).depthOf z = t.depth := State.depthOf_eq ht
  rw [State.route, hk, if_pos (by simp [hr]; omega), State.troop_tid ht]

omit ht in
theorem State.deliver_handler (hb : z.trapBase ≠ 0) (ret : Addr) (g : Mask) :
    (s.takeLate c.sid fs).deliver c.sid f.cause f.pc f.nodePc ret g = s.updStr c.sid fun _ => z.takesLate f fs ret g := by
  have hz' : (s.takeLate c.sid fs).str? c.sid = some { z with lateq := fs } := State.str?_updStr hz _ rfl
  simp only [State.deliver, hz', hb, if_false]
  exact State.updStr_updStr hz (fun z => { z with lateq := fs }) _ rfl

theorem State.deliver_unhandled (hb : z.trapBase = 0) (cause : Cause) (pc nodePc ret : Addr) (g : Mask) :
    (s.takeLate c.sid fs).deliver c.sid cause pc nodePc ret g =
      (s.takeLate c.sid fs).endTroop t.tid (if cause = .recoveryExhausted then .recoveryExhausted else .doubleFault) := by
  have hz' : (s.takeLate c.sid fs).str? c.sid = some { z with lateq := fs } := State.str?_updStr hz _ rfl
  simp only [State.deliver, hz', hb, if_true, State.troop_tid ht]

end

/-- A failure that is not noted yet is noted, while no rollback of the troop waits (R418). -/
theorem State.fail_noted {s : State} {tid j kind cause : Nat} {t : Troop} (ht : s.troop? tid = some t) (hf : t.failing = none)
    (hn : (⟨j, kind, cause, false, false⟩ : Failure) ∉ t.fails) :
    s.fail tid j kind cause = s.updTroop tid fun _ => { t with fails := t.fails ++ [{ depth := j, kind := kind, cause := cause }] } := by
  rw [State.fail, State.noteFail, State.updTroop_const ht]
  congr 1
  funext _
  exact if_neg (by simp [hf, hn])

/-- Settles O18: the fault leaves its queue, and then it goes to the handler, ends the troop, or fails the alternate. -/
theorem lateFaultsDeliver : Obligations.LateFaultsDeliver := by
  refine ⟨fun s c z t f fs hc hz ht hq hn hb hr => ?_, fun s c z t f fs hc hz ht hq hn => ?_, routes_eq_false_iff,
    fun s c z hc hz h => exec_lateFaultDeliver_waits hc hz h⟩
  · refine ⟨z.takesLate f fs c.pc c.bundle, ?_, rfl, z.lanes_mapLanes c.bundle _⟩
    rw [exec_lateFaultDeliver_routes hz hc hq hn, State.route_delivers hz ht hr, State.deliver_handler hz hb]
  · have htake : s.takeLate c.sid fs = s.updStr c.sid fun _ => { z with lateq := fs } := State.updStr_const hz _
    rw [exec_lateFaultDeliver_routes hz hc hq hn, ← htake]
    refine ⟨fun hb hr => ?_, fun hd hf hr hfail hnew => ?_⟩
    · rw [State.route_delivers hz ht hr, State.deliver_unhandled hz ht hb]
    · rw [State.route_fails ht hd hf hr, State.fail_noted (s := s.takeLate c.sid fs) (State.troop?_own ht) hfail hnew]

end Sys2Proof.Machine
end


section
/-! PROOFS. The barrier instructions (O36), and when a phase completes (O37, refuted). -/

namespace Sys2Proof.Machine

open Sys2Proof.Claims

/-! ### What a write of registers leaves alone -/

/-- A search that sees no change finds what has the same image. -/
theorem find?_map_updFirst {α β : Type} (p : α → Bool) (f : α → α) (g : α → β) (hg : ∀ a, g (f a) = g a) (q : α → Bool)
    (hq : ∀ a, q (f a) = q a) (xs : List α) : ((updFirst p f xs).find? q).map g = (xs.find? q).map g := by
  induction xs with
  | nil => rfl
  | cons x xs ih =>
    rw [updFirst]
    cases hx : p x
    · simp only [Bool.false_eq_true, if_false, List.find?_cons]
      cases q x
      · exact ih
      · rfl
    · simp only [if_true, List.find?_cons, hq]
      cases q x
      · rfl
      · exact congrArg some (hg x)

/-- A change of a troop that keeps its id and its blocks keeps every depth. -/
theorem State.depthOf_updTroop (s : State) (tid : Nat) {f : Troop → Troop} (hid : ∀ t, (f t).tid = t.tid)
    (hblocks : ∀ t, (f t).blocks = t.blocks) (z : Str) : (s.updTroop tid f).depthOf z = s.depthOf z := by
  have h := find?_map_updFirst (·.tid == tid) f Troop.depth (fun t => by rw [Troop.depth, hblocks]; rfl)
    (·.tid == z.tid) (fun t => by rw [hid]) s.troops
  have e (u : State) : u.depthOf z = ((u.troops.find? (·.tid == z.tid)).map Troop.depth).getD 0 := by
    unfold State.depthOf State.troopOf State.troop?
    cases u.troops.find? (·.tid == z.tid) <;> rfl
  rw [e, e, State.updTroop_troops, h]


/-- What an arrival takes from the state: the barriers, the next id and the depths. -/
def SameArrivals (s u : State) : Prop := u.bars = s.bars ∧ u.nextId = s.nextId ∧ ∀ z, u.depthOf z = s.depthOf z

theorem State.sameArrivals_record (s : State) (sid d : Nat) (key : BagKey) (prior : Str → List Nat) :
    SameArrivals s (s.record sid d key prior) := by
  simp only [State.record]
  repeat' split
  case h_2.isFalse.isFalse.isTrue | h_2.isFalse.isFalse.isFalse =>
    exact ⟨rfl, rfl, State.depthOf_updTroop _ _ (fun _ => rfl) fun _ => rfl⟩
  all_goals exact ⟨rfl, rfl, fun _ => rfl⟩

theorem State.sameArrivals_putScalar (s : State) (c : Cur) (z : Str) (d : Byte) (x : Dword) : SameArrivals s (s.putScalar c z d x) := by
  unfold State.putScalar
  split
  · exact ⟨rfl, rfl, fun _ => rfl⟩
  · exact s.sameArrivals_record ..

theorem SameArrivals.bar {s u : State} (h : SameArrivals s u) (k : BarKey) : u.bar k = s.bar k := by
  rw [State.bar, h.1]
  rfl

/-! ### An arrival (R324) -/

/-- The arrival of a bundle, as it joins the current phase. -/
def State.arrivalOf (s : State) (c : Cur) (z : Str) (t : Troop) (val : Option Dword) : BarArr :=
  { sid := z.sid, tid := z.tid, lanes := c.bundle, depth := t.depth, val := val, before := s.nextId }

/-- A string arrives once in a phase of a barrier other than its own, whose arrivals are of lanes. -/
def State.joinPhase (s : State) (z : Str) (k : BarKey) (a : BarArr) : State :=
  if k ≠ .str z.sid ∧ ∃ a ∈ (s.bar k).arrs, a.sid = z.sid then s else s.putBar { s.bar k with arrs := (s.bar k).arrs ++ [a] }

theorem and_not_foldl_or {α : Type} {m : Mask} {xs : List α} {g : α → Mask} (h : ∀ a ∈ xs, g a &&& m = 0) :
    m &&& ~~~(xs.foldl (fun m a => m ||| g a) 0) = m := by
  refine BitVec.eq_of_getLsbD_eq fun l hl => ?_
  rw [BitVec.getLsbD_and, BitVec.getLsbD_not]
  cases hm : m.getLsbD l with
  | false => rfl
  | true =>
    have hnone := getLsbD_foldl_or xs g 0 (l := l) (by simp) fun a ha => by
      have hbit := congrArg (fun x : Mask => x.getLsbD l) (h a ha)
      simpa [BitVec.getLsbD_and, hm] using hbit
    rw [hnone]
    simp [hl]

/-- The barrier that an instruction names for its string is the string's own, or of another kind. -/
theorem State.barKey_str {s : State} {z : Str} {t : Troop} {l : Level} {n sid : Nat} (h : s.barKey z t l n = some (.str sid)) :
    sid = z.sid := by
  unfold State.barKey at h
  split at h
  · simpa using h.symm
  · simp at h
  · simp at h
  · split at h
    · split at h <;> simp at h
    · simp at h

theorem State.arrive_eq {s : State} {c : Cur} {z : Str} {t : Troop} {k : BarKey} {val : Option Dword} (hd : s.depthOf z = t.depth)
    (hk : ∀ sid, k = .str sid → sid = z.sid) (hne : c.bundle ≠ 0) (hfree : k = .str z.sid → ∀ a ∈ (s.bar k).arrs, a.lanes &&& c.bundle = 0) :
    s.arrive z k c.bundle val = (s.joinPhase z k (s.arrivalOf c z t val)).checkBar k := by
  have hshared (h : k ≠ .str z.sid) (fresh : Mask) (hf : fresh = if (s.bar k).arrs.any (·.sid == z.sid) then 0 else c.bundle) :
      (if fresh = 0 then s else s.putBar { s.bar k with arrs := (s.bar k).arrs ++ [{ s.arrivalOf c z t val with lanes := fresh }] }) =
        s.joinPhase z k (s.arrivalOf c z t val) := by
    by_cases hany : ∃ a ∈ (s.bar k).arrs, a.sid = z.sid
    · rw [if_pos (by simpa using hany)] at hf
      rw [if_pos hf, State.joinPhase, if_pos ⟨h, hany⟩]
    · rw [if_neg (by simpa using hany)] at hf
      rw [hf, if_neg hne, State.joinPhase, if_neg fun h => hany h.2]
      rfl
  simp only [State.arrive, hd]
  refine congrArg (State.checkBar · k) ?_
  cases k with
  | str sid =>
    obtain rfl := hk sid rfl
    have hall := and_not_foldl_or (g := BarArr.lanes) (hfree rfl)
    simp only [hall, hne, if_false, State.joinPhase, ne_eq, not_true_eq_false, false_and]
    rfl
  | trp tid n => exact hshared (by simp) _ rfl
  | clu l g n => exact hshared (by simp) _ rfl
  | grid l n => exact hshared (by simp) _ rfl

/-! ### The barrier instructions (R325 to R329) -/

section
variable {s : State} {c : Cur} {z : Str} {t : Troop} {o : Operands} {k : BarKey}

/-- Lanes of the bundle park. -/
theorem State.park_eq (hz : s.str? c.sid = some z) (m : Mask) (p : Park) :
    s.park z.sid m p = s.updStr c.sid fun _ => z.mapLanes m fun x => { x with park := p } := by
  rw [State.park, State.str_sid hz, State.updStr_const hz]

theorem State.mayArrive_of_key (hm : s.mayArrive o z t = true) : ∃ k, s.barKey z t o.level o.imm.toNat = some k := by
  simp only [State.mayArrive, State.hasBar, Bool.and_eq_true] at hm
  exact Option.isSome_iff_exists.1 hm.1

theorem State.hasBar_of_key (hk : s.barKey z t o.level o.imm.toNat = some k) : s.hasBar o z t = true := by
  rw [State.hasBar, hk]; rfl

theorem State.hasBar_of_none (hk : s.barKey z t o.level o.imm.toNat = none) : s.hasBar o z t = false := by
  rw [State.hasBar, hk]; rfl

/-- The bundle parks on the current phase and arrives. -/
theorem State.arriveParked_eq (hz : s.str? c.sid = some z) (ht : s.troop? z.tid = some t)
    (hk : s.barKey z t o.level o.imm.toNat = some k) (hne : c.bundle ≠ 0)
    (hfree : k = .str z.sid → ∀ a ∈ (s.bar k).arrs, a.lanes &&& c.bundle = 0) (dst : Option Nat) (val : Option Dword) :
    let u := s.updStr c.sid fun _ => z.mapLanes c.bundle fun x => { x with park := .barrier k (s.bar k).done dst }
    s.arriveParked c z k dst val = (u.joinPhase z k (s.arrivalOf c z t val)).checkBar k := by
  intro u
  rw [State.arriveParked, State.park_eq hz]
  exact State.arrive_eq (s := u) (t := t) (State.depthOf_eq (s := s) ht) (fun sid h => State.barKey_str (h ▸ hk)) hne hfree

variable {i : Instr} {chk : Cur → Str → Troop → Bool} {body : Cur → Str → Troop → State}

theorem exec_arrives {dst : Option Nat} {val : Option Dword} (hx : exec i s = s.issue i chk body) (h : Issues s i c z t) (hc : chk c z t = true)
    (hb : body c z t = s.arriveParked c z k dst val) (hk : s.barKey z t o.level o.imm.toNat = some k) (hne : c.bundle ≠ 0)
    (hfree : k = .str z.sid → ∀ a ∈ (s.bar k).arrs, a.lanes &&& c.bundle = 0) :
    ∃ z', exec i s = .next (((((s.updStr c.sid fun _ => z').joinPhase z k (s.arrivalOf c z t val)).checkBar k)).settleOverflow t.tid) ∧
      z' = { z with lanes := z'.lanes } ∧
      Lanes z z' fun l x => if c.bundle.getLsbD l then { x with park := .barrier k (s.bar k).done dst } else x := by
  refine ⟨_, ?_, rfl, z.lanes_mapLanes c.bundle _⟩
  rw [hx, State.issue_next h chk body hc, hb, State.arriveParked_eq h.str h.troop hk hne hfree]

end

section
variable (o : Operands) (s : State)

/-- The effect of BAR on the barrier that it names. -/
def State.barOn (s : State) (o : Operands) (c : Cur) (z : Str) (k : BarKey) : State :=
  if c.parts = 0 then s
  else if o.fn = 1 then (s.putScalar c z o.d ((s.bar k).done.setWidth 64)).arrive z k c.bundle none
  else s.arriveParked c z k none none

def State.barvOn (s : State) (o : Operands) (c : Cur) (z : Str) (k : BarKey) : State :=
  if c.parts = 0 then s else s.arriveParked c z k (some o.d.toNat) (some (z.sreg o.a.toNat))

def State.bwaitOn (s : State) (o : Operands) (c : Cur) (z : Str) (k : BarKey) : State :=
  if c.parts = 0 || tokenDone (s.bar k).done ((z.sreg o.a.toNat).setWidth 32) then s
  else s.park z.sid c.bundle (.bwait k ((z.sreg o.a.toNat).setWidth 32))

def State.bexpOn (s : State) (o : Operands) (c : Cur) (z : Str) (t : Troop) (k : BarKey) : State :=
  let x := (z.sreg o.a.toNat).toNat
  if c.parts = 0 then s
  else if 2 ^ 32 ≤ x || 2 ^ 32 ≤ (s.bar k).exp + x then s.raise c .bounds
  else (s.putBar { s.bar k with exps := (s.bar k).exps ++ [(t.tid, t.depth, x)] }).checkBar k

/-- An instruction acts on the barrier that its string has. -/
def State.onBar (s : State) (o : Operands) (z : Str) (t : Troop) (f : BarKey → State) : State :=
  match s.barKey z t o.level o.imm.toNat with
  | none => s
  | some k => f k

theorem exec_bar : exec (.bar o) s = s.issue (.bar o) (fun _ z t => s.mayArrive o z t) fun c z t =>
    s.onBar o z t (s.barOn o c z) := rfl

theorem exec_barv : exec (.barv o) s = s.issue (.barv o) (fun _ z t => s.mayArrive o z t) fun c z t =>
    s.onBar o z t (s.barvOn o c z) := rfl

theorem exec_bwait : exec (.bwait o) s = s.issue (.bwait o) (fun _ z t => s.hasBar o z t) fun c z t =>
    s.onBar o z t (s.bwaitOn o c z) := rfl

theorem exec_bexp : exec (.bexp o) s = s.issue (.bexp o) (fun _ z t => s.hasBar o z t) fun c z t =>
    s.onBar o z t (s.bexpOn o c z t) := rfl

theorem exec_bstat : exec (.bstat o) s = s.issue (.bstat o) (fun _ z t => s.hasBar o z t) fun c z t =>
    s.onBar o z t fun k => s.putScalar c z o.d (s.barStat (s.bar k)) := rfl

end

theorem State.onBar_of_key {s : State} {o : Operands} {z : Str} {t : Troop} {k : BarKey} (hk : s.barKey z t o.level o.imm.toNat = some k)
    (f : BarKey → State) : s.onBar o z t f = f k := by
  rw [State.onBar, hk]

/-- A trap of an instruction's own check, or of its effect once that has passed. -/
theorem Traps.of_check {i : Instr} {pre : State → Cur → Str → Troop → Prop} {chk : State → Cur → Str → Troop → Bool}
    {body : State → Cur → Str → Troop → State} (hx : ∀ s, exec i s = s.issue i (chk s) (body s))
    (hb : ∀ s c z t, pre s c z t → chk s c z t = false) : Traps i pre .illegalInstruction :=
  fun s c z t h _ hd hp => raise_illegal (hx s) h.cur h.str h.troop hd (by rw [hb s c z t hp, Bool.and_false])

theorem Traps.of_effect {i : Instr} {pre : State → Cur → Str → Troop → Prop} {cause : Cause} {chk : State → Cur → Str → Troop → Bool}
    {body : State → Cur → Str → Troop → State} (hx : ∀ s, exec i s = s.issue i (chk s) (body s))
    (hb : ∀ s c z t, pre s c z t → chk s c z t = true ∧ body s c z t = s.raise c cause) : Traps i pre cause := by
  intro s c z t h ho hd hp
  obtain ⟨hc, e⟩ := hb s c z t hp
  obtain ⟨z', e', k⟩ := State.raise_delivers h.str h.troop hd
  exact ⟨z', exec_of_effect (hx s) h ho hc (e.trans e') rfl, k⟩

/-- A scalar result of an instruction with a check of its own. -/
theorem SResult.of_effect {i : Instr} {d : Byte} {pre : State → Cur → Str → Troop → Prop} {val : State → Cur → Str → Troop → Dword}
    {chk : State → Cur → Str → Troop → Bool} {body : State → Cur → Str → Troop → State} (hx : ∀ s, exec i s = s.issue i (chk s) (body s))
    (hb : ∀ s c z t, pre s c z t → chk s c z t = true ∧ body s c z t = s.putScalar c z d (val s c z t)) :
    SResult i d pre val := by
  intro s c z t h hr hp
  obtain ⟨hc, e⟩ := hb s c z t hp
  have hput : ∃ z', s.putScalar c z d (val s c z t) = (s.updStr c.sid fun _ => z') ∧ onlyS z z' t ∧
      ∀ n, z'.sreg n = if n = d.toNat ∧ c.parts ≠ 0 then val s c z t else z.sreg n := by
    by_cases hp0 : c.parts = 0
    · exact ⟨z, by rw [State.putScalar, if_pos hp0, State.updStr_self h.str], ⟨rfl, fun _ => rfl⟩, by simp [hp0]⟩
    · obtain ⟨z', e1, k1, b1, -, v1⟩ := State.writeS_room (k := 0) (n := d.toNat) (x := val s c z t) (d := s.depthOf z) h.str h.troop hr
      refine ⟨z', by rw [State.putScalar, if_neg hp0, e1], ⟨k1, b1⟩, fun n => ?_⟩
      rw [v1]
      simp only [ne_eq, hp0, not_false_eq_true, and_true]
  obtain ⟨z', e1, only, v⟩ := hput
  exact ⟨z', exec_of_effect (hx s) h hr.1 hc (e.trans e1) rfl, only, v⟩

/-- An instruction with a check of its own that leaves the machine as it is. -/
theorem Completes.of_idle {i : Instr} {pre : State → Cur → Str → Troop → Prop} {chk : State → Cur → Str → Troop → Bool}
    {body : State → Cur → Str → Troop → State} (hx : ∀ s, exec i s = s.issue i (chk s) (body s))
    (hb : ∀ s c z t, pre s c z t → chk s c z t = true ∧ body s c z t = s) : Completes i pre fun s _ _ _ => s := by
  intro s c z t h ho hp
  obtain ⟨hc, e⟩ := hb s c z t hp
  exact exec_of_effect (hx s) h ho hc e rfl

/-- Settles O36: each instruction by its effect on the barrier that it names, and an arrival by `State.arrive_eq`. -/
theorem barrierInstructions : Obligations.BarrierInstructions := by
  unfold Obligations.BarrierInstructions
  refine ⟨fun o s c z t k h hp hne hm hk hfree => ⟨fun hfn => ?_, fun hfn => ?_⟩, fun o s c z t k h hp hne hm hk hfree => ?_,
    fun o => Completes.of_idle (exec_bar o) ?_, fun o => Completes.of_idle (exec_barv o) ?_,
    fun o => Traps.of_check (exec_bar o) fun _ _ _ _ h => h, fun o => Traps.of_check (exec_barv o) fun _ _ _ _ h => h,
    fun o s c z t k h ho hk hp => ⟨fun htok => ?_, fun htok => ?_⟩, fun o s c z t k h hk hp hlt => ?_, fun o => Traps.of_effect (exec_bexp o) ?_,
    fun o => Traps.of_check (exec_bexp o) fun _ _ _ _ => State.hasBar_of_none,
    fun o => Traps.of_check (exec_bwait o) fun _ _ _ _ => State.hasBar_of_none,
    fun o => Traps.of_check (exec_bstat o) fun _ _ _ _ => State.hasBar_of_none, fun o k => SResult.of_effect (exec_bstat o) ?_⟩
  · refine exec_arrives (exec_bar o s) h hm ?_ hk hne hfree
    rw [State.onBar_of_key hk, State.barOn, if_neg hp, if_neg hfn]
  · have hsame := s.sameArrivals_putScalar c z o.d ((s.bar k).done.setWidth 64)
    rw [exec_bar, State.issue_next h _ _ hm, State.onBar_of_key hk, State.barOn, if_neg hp, if_pos hfn,
      State.arrive_eq (t := t) ((hsame.2.2 z).trans (State.depthOf_eq h.troop)) (fun sid e => State.barKey_str (e ▸ hk)) hne
        fun e => by rw [hsame.bar]; exact hfree e]
    rfl
  · refine exec_arrives (exec_barv o s) h hm ?_ hk hne hfree
    rw [State.onBar_of_key hk, State.barvOn, if_neg hp]
  · rintro s c z t ⟨hp, hm⟩
    obtain ⟨k, hk⟩ := State.mayArrive_of_key hm
    exact ⟨hm, by rw [State.onBar_of_key hk, State.barOn, if_pos hp]⟩
  · rintro s c z t ⟨hp, hm⟩
    obtain ⟨k, hk⟩ := State.mayArrive_of_key hm
    exact ⟨hm, by rw [State.onBar_of_key hk, State.barvOn, if_pos hp]⟩
  · refine exec_of_effect (exec_bwait o s) h ho (State.hasBar_of_key hk) ?_ rfl
    rw [State.onBar_of_key hk, State.bwaitOn, htok, Bool.or_true, if_pos rfl]
  · refine ⟨_, exec_of_effect (exec_bwait o s) h ho (State.hasBar_of_key hk) ?_ rfl, rfl, z.lanes_mapLanes c.bundle _⟩
    rw [State.onBar_of_key hk, State.bwaitOn, htok, if_neg (by simpa using hp), State.park_eq h.str]
  · rw [exec_bexp, State.issue_next h _ _ (State.hasBar_of_key hk), State.onBar_of_key hk, State.bexpOn, if_neg hp, if_neg]
    simp only [Bool.or_eq_true, decide_eq_true_eq]
    omega
  · rintro s c z t ⟨k, hk, hp, hge⟩
    refine ⟨State.hasBar_of_key hk, ?_⟩
    rw [State.onBar_of_key hk, State.bexpOn, if_neg hp, if_pos]
    simp only [Bool.or_eq_true, decide_eq_true_eq]
    exact .inr hge
  · exact fun s c z t hk => ⟨State.hasBar_of_key hk, State.onBar_of_key hk _⟩

/-! ### A phase that completes, where two strings have one id -/

/-- A grid barrier of a launch that has no troop left, at which a BARV has arrived with the value 1. -/
def arrivedBarrier : Barrier :=
  { key := .grid 0 0, arrs := [{ sid := 1, tid := 0, lanes := 1, depth := 0, val := some 1, before := 0 }] }

/-- A string whose one lane is parked as said. -/
def parkedStr (p : Park) : Str :=
  { sid := 1, tid := 0, idx := 0, core := 0, slice := 0, slot := 0, budget := 0, lanes := [{ park := p }] }

/-- Two strings with one id: a lane of the second waits in BARV for its result in S5, and no lane of the first waits. -/
def twinStrs : State :=
  { strs := [parkedStr .none, parkedStr (.barrier (.grid 0 0) 0 (some 5))], bars := [arrivedBarrier] }

/-- The result of the second string's BARV goes to the first string of its id. -/
theorem twinStrs_checkBar : ((twinStrs.checkBar (.grid 0 0)).str? 1).map (·.sreg 5) = some 1 := by decide

/-- Refutes O37: no hypothesis keeps the ids of the strings apart, and in `twinStrs` the phase's sum is written to a string of which
no lane waits in BARV. -/
theorem not_phasesComplete : ¬ Obligations.PhasesComplete := by
  intro h
  obtain ⟨-, -, strings⟩ := h twinStrs (.grid 0 0)
  obtain ⟨z', hz', -, hsreg, -⟩ := strings ⟨by decide, by decide⟩ (by decide) 1 (parkedStr .none) (by decide)
  have hwritten : z'.sreg 5 = 1 := by simpa [hz'] using twinStrs_checkBar
  have hkept : z'.sreg 5 = (parkedStr .none).sreg 5 := (hsreg 5).trans (if_neg (by decide))
  exact absurd (hwritten.symm.trans hkept) (by decide)

end Sys2Proof.Machine
end


section
/-! PROOFS. The fault queue, resolutions, invalidations, roots, the ownership snapshot, and the reads of WAITV (O49). -/

namespace Sys2Proof.Machine

/-! ### The fault queue (R364) -/

section
variable {s : State} {pad : Nat} {p : Paddock}

/-- The oldest kept notice is written, and the queue moves on. -/
theorem State.postRecord_posts {s' : State} {n : Notice} {ns : List Notice} {bs : List Byte} (hp : s.pad? pad = some p)
    (hn : s.keptNotices pad = n :: ns) (hbase : p.fqBase ≠ 0) (hroom : p.fqFull = false)
    (hstore : s.agentStore pad false true (p.fqBase.toNat + 32 * (p.fqWr.toNat % 2 ^ (p.fqLog + 6))) (n.words.flatMap (bytesOf 8)) =
      (s', .ok bs)) : s.postRecord pad =
      { s' with notices := updFirst (· == n) (fun n => { n with posted := true }) s'.notices }.updPad pad fun p =>
        { p with fqWr := p.fqWr + 1, intStat := p.intStat ||| 1#5 } := by
  simp only [State.postRecord, hp, hn, List.head?_cons, hbase, hroom, decide_false, Bool.or_self, Bool.false_eq_true, if_false, hstore]

/-- Nothing is kept, or the queue can take nothing. -/
theorem State.postRecord_idle (hp : s.pad? pad = some p) (h : s.keptNotices pad = [] ∨ p.fqBase = 0 ∨ p.fqFull = true) :
    s.postRecord pad = s := by
  cases hn : s.keptNotices pad with
  | nil => simp only [State.postRecord, hp, hn, List.head?_nil]
  | cons n ns =>
    have hfull : (decide (p.fqBase = 0) || p.fqFull) = true := by
      rcases h with h | h | h
      · simp [hn] at h
      · simp [h]
      · simp [h]
    simp only [State.postRecord, hp, hn, List.head?_cons, hfull, if_true]

end

/-! ### Resolutions (R361, R364, R365) -/

/-- The open notice of a device, die and id that came to a paddock of this device. -/
def Notice.isFor (pad dev die fid : Nat) (n : Notice) : Bool :=
  n.isOpen && n.src == dev && (n.die == die && n.fid == fid && n.homePad == pad && n.home == 0)

/-- The entries of a notice. -/
def RailEnt.isOf (die fid : Nat) (e : RailEnt) : Bool := e.die == die && e.fid == fid

/-- A notice and its entries are gone. -/
def State.closeNotice (s : State) (n : Notice) (die fid : Nat) : State :=
  { s with notices := s.notices.erase n, rail := s.rail.filter fun e => !e.isOf die fid }

/-- What a resolution does with an entry: it asks again, or is refused. -/
def State.resolveEntry (out : Option Cause) (s : State) (e : RailEnt) : State :=
  match out with
  | none => s.present e
  | some c => s.answer e.who e.va (.refused c)

section
variable {s : State} {pad dev die fid : Nat} {n : Notice}

theorem State.resolve_own (hfid : fid ≠ 0) (hn : s.notices.find? (Notice.isFor pad 0 die fid) = some n) (out : Option Cause) :
    s.resolve pad 0 die fid out =
      ((s.rail.filter (RailEnt.isOf die fid)).foldl (State.resolveEntry out) (s.closeNotice n die fid)).grant := by
  have hfor := List.find?_some hn
  simp only [Notice.isFor, Bool.and_eq_true, beq_iff_eq] at hfor
  obtain ⟨-, ⟨⟨hdie, hid⟩, -⟩, -⟩ := hfor
  have hfind : s.notices.find? (fun n => n.isOpen && n.src == 0 && (n.die == die && n.fid == fid && n.homePad == pad && n.home == 0)) =
      some n := hn
  simp only [State.resolve, State.resolveOwn, hfid, if_false, if_true, hfind, hdie, hid]
  rfl

theorem State.resolve_peer (hfid : fid ≠ 0) (hdev : dev ≠ 0) (hn : s.notices.find? (Notice.isFor pad dev die fid) = some n)
    (out : Option Cause) : s.resolve pad dev die fid out =
      { s with notices := s.notices.erase n, answers := s.answers ++ [.resolution dev die fid out] } := by
  have hfind : s.notices.find? (fun n => n.isOpen && n.src == dev && (n.die == die && n.fid == fid && n.homePad == pad && n.home == 0)) =
      some n := hn
  simp only [State.resolve, hfid, hdev, if_false, hfind]

theorem State.resolve_ignored (h : fid = 0 ∨ s.notices.find? (Notice.isFor pad dev die fid) = none) (out : Option Cause) :
    s.resolve pad dev die fid out = s := by
  by_cases hfid : fid = 0
  · exact if_pos hfid
  have hnone : s.notices.find? (fun n => n.isOpen && n.src == dev && (n.die == die && n.fid == fid && n.homePad == pad && n.home == 0)) =
      none := h.resolve_left hfid
  by_cases hdev : dev = 0
  · subst hdev
    simp only [State.resolve, State.resolveOwn, hfid, if_false, if_true, hnone]
  · simp only [State.resolve, hfid, hdev, if_false, hnone]

end

/-! ### Invalidations and the ownership snapshot (R361, R363, R368) -/

section
variable {s s' : State} {pad : Nat} {p : Paddock}

theorem State.writeInvCnt_starts (hp : s.pad? pad = some p) (hv : p.inval = none) (cnt : Nat) :
    s.writeInvCnt pad cnt = (s.startInval pad (p.invVa.toNat / 65536) cnt none).postKept pad := by
  simp [State.writeInvCnt, hp, hv]

theorem State.writeInvCnt_busy (hp : s.pad? pad = some p) (hv : p.inval ≠ none) (cnt : Nat) : s.writeInvCnt pad cnt = s := by
  simp [State.writeInvCnt, hp, Option.isSome_iff_ne_none.2 hv]

theorem exec_invalidationComplete {v : Inval} (hp : s.pad? pad = some p) (hv : p.inval = some v) (hop : v.op = none) :
    exec (.invalidationComplete pad) s = .next (if s.invalDone pad v then s.endInval pad v else s) := by
  change execInvalidationComplete pad s = _
  simp [execInvalidationComplete, hp, hv, hop]

theorem State.writeOwnCnt_large (hp : s.pad? pad = some p) {cnt : Nat} (hc : 256 < cnt) : s.writeOwnCnt pad cnt = s := by
  simp [State.writeOwnCnt, hp, hc]

section
variable {cnt : Nat} {bs : List Byte} (hp : s.pad? pad = some p) (hc : cnt ≤ 256)
  (hload : s.agentLoad pad false true p.ownBase.toNat (16 * cnt) = (s', .ok bs))
include hp hc hload

theorem State.writeOwnCnt_taken {os : List Owner} (hparse : parseOwners (chunks 16 cnt bs) = some os) :
    s.writeOwnCnt pad cnt = s'.updPad pad fun p => { p with ownCnt := cnt, owners := os } := by
  simp [State.writeOwnCnt, hp, Nat.not_lt.2 hc, hload, hparse]

theorem State.writeOwnCnt_malformed (hparse : parseOwners (chunks 16 cnt bs) = none) : s.writeOwnCnt pad cnt = s' := by
  simp [State.writeOwnCnt, hp, Nat.not_lt.2 hc, hload, hparse]

end
end

/-! ### WAITV (R322) -/

section
variable {s : State} {acc lane : Nat} {a : Access} {z : Str} {t : Troop} {e : Elem} (ha : s.acc? acc = some a) (hk : a.kind = .waitv)
  (hz : s.str? a.sid = some z) (ht : s.troop? z.tid = some t)
  (he : a.elems.find? (fun e => e.lane == lane && e.val.isNone) = some e) (hhalt : s.haltedCore t.core = false)
include ha hk hz ht he hhalt

/-- A lane out of range reads 0. -/
theorem exec_waitvReread_out (hw : e.w = 0) :
    exec (.waitvReread acc lane) s = .next (if waitvEnds a.fn 0 e.data then s.waitvLeave a [lane] else s) := by
  change execWaitvReread acc lane s = _
  simp [execWaitvReread, ha, hk, hz, ht, he, hhalt, hw]

/-- A lane whose line is translated reads it. -/
theorem exec_waitvReread_ready (hw : e.w ≠ 0) {l : LineReq} {line pol part : Nat}
    (hl : a.lines[a.lines.findIdx fun l => l.holds e]? = some l) (hst : l.st = .ready line pol part) :
    exec (.waitvReread acc lane) s = .next (s.waitvRead t a e (a.lines.findIdx fun l => l.holds e) l line pol part) := by
  have hfresh : (LineSt.ready line pol part == .fresh) = false := rfl
  change execWaitvReread acc lane s = _
  simp only [execWaitvReread, ha, hk, hz, Option.bind_some, ht, he, hhalt, bne_self_eq_false, Bool.or_self, Bool.false_eq_true, if_false,
    hw, hl, hst, hfresh]

end

theorem State.waitvRead_ok {s s' : State} {t : Troop} {a : Access} {e : Elem} {i : Nat} {l : LineReq} {line pol part : Nat} {d : BitVec 512}
    (hmay : s.loadMayGo a line [e] = true) (hwait : s.readWaits a.sid (some e.lane) t.core line e.mask = false)
    (hread : s.neededLine a.sid t [(some e.lane, e.mask)] l.va line pol part a.fresh = (s', some d)) :
    s.waitvRead t a e i l line pol part =
      if waitvEnds a.fn (lineVal (s'.assemble a.sid t (some e.lane) line e.mask d) (e.va % 64) e.w) e.data then s'.waitvLeave a [e.lane]
      else s'.setLine a.id i .fresh := by
  simp only [State.waitvRead, hmay, hwait, Bool.not_true, Bool.or_self, Bool.false_eq_true, if_false, hread]

/-! ### The obligation -/

/-- Settles O49: each event and register by its cases. -/
theorem faultsAreAnswered : Obligations.FaultsAreAnswered := by
  unfold Obligations.FaultsAreAnswered
  refine ⟨fun s s' pad p n ns bs hp hn hbase hroom hstore => congrArg Host.Outcome.next (State.postRecord_posts hp hn hbase hroom hstore),
    fun s pad p hp h => congrArg Host.Outcome.next (State.postRecord_idle hp h), fun s pad src fid => ?resolutions,
    fun s pad p cnt hp => ⟨fun hv => congrArg Host.Outcome.next (State.writeInvCnt_starts hp hv _),
      fun hv => congrArg Host.Outcome.next (State.writeInvCnt_busy hp hv _)⟩,
    fun s pad p v hp hv hop => ⟨fun hd => ?_, fun hd => ?_⟩,
    fun s pad p cnt hp => ⟨fun hc => congrArg Host.Outcome.next (State.writeOwnCnt_large hp hc), fun hc s' bs hload =>
      ⟨fun os hparse => congrArg Host.Outcome.next (State.writeOwnCnt_taken hp hc hload hparse),
        fun hparse => congrArg Host.Outcome.next (State.writeOwnCnt_malformed hp hc hload hparse)⟩⟩,
    fun s pad secure asRoot val => ?roots, fun s pad val => ⟨rfl, rfl, rfl⟩,
    fun s acc lane a z t e ha hk hz ht he hhalt => ⟨exec_waitvReread_out ha hk hz ht he hhalt,
      fun hw l line pol part s' d hl hst hmay hwait hread => ?waitv⟩⟩
  case resolutions =>
    refine ⟨fun hfid n hn => ⟨fun hdev => ?_, fun hdev => ?_⟩, fun h => ?_⟩
    · rw [hdev] at hn
      have hone (out : Option Cause) := State.resolve_own (fun h => hfid (BitVec.eq_of_toNat_eq h)) hn out
      rw [← hdev] at hone
      exact ⟨congrArg Host.Outcome.next (hone none), congrArg Host.Outcome.next (hone (some .pageFault)),
        congrArg Host.Outcome.next (hone (some .permission))⟩
    · have hone (out : Option Cause) := State.resolve_peer (fun h => hfid (BitVec.eq_of_toNat_eq h)) hdev hn out
      exact ⟨congrArg Host.Outcome.next (hone none), congrArg Host.Outcome.next (hone (some .pageFault)),
        congrArg Host.Outcome.next (hone (some .permission))⟩
    · have hone (out : Option Cause) := State.resolve_ignored (h.imp_left fun h => by rw [h]; rfl) out
      exact ⟨congrArg Host.Outcome.next (hone none), congrArg Host.Outcome.next (hone (some .pageFault)),
        congrArg Host.Outcome.next (hone (some .permission))⟩
  · rw [exec_invalidationComplete hp hv hop, if_pos hd]
  · rw [exec_invalidationComplete hp hv hop, hd, if_neg Bool.false_ne_true]
  case roots => exact ⟨by rintro rfl rfl; rfl, by rintro rfl rfl; rfl, by rintro rfl; rfl⟩
  case waitv =>
    obtain rfl : a.id = acc := by simpa using List.find?_some ha
    rw [exec_waitvReread_ready ha hk hz ht he hhalt hw hl hst, State.waitvRead_ok hmay hwait hread]

end Sys2Proof.Machine
end


section
/-! PROOFS. The events of range tasks (O46): refills, steals, cancel bits and the activation of a job. -/

namespace Sys2Proof.Machine

/-! ### Mangers -/

@[simp] theorem State.manger_core (s : State) (core : Nat) : (s.manger core).core = core := by
  rw [State.manger]
  cases h : s.mangers.find? (·.core == core) with
  | none => rfl
  | some m => simpa using List.find?_some h

theorem State.manger_putManger (s : State) (m : Manger) : (s.putManger m).manger m.core = m := by
  simp [State.manger, State.putManger]

/-- A manger put twice is put once. -/
theorem State.putManger_putManger (s : State) {m m' : Manger} (h : m'.core = m.core) : (s.putManger m).putManger m' = s.putManger m' := by
  simp [State.putManger, h]

section
variable {s : State} {core pad : Nat} {r : TaskRec}

/-- A record of a job that is not cancelled there joins the manger. -/
theorem State.land_joins {j : Job} (hj : s.job? pad r.job = some j) (hc : core ∉ j.cancelCores) :
    s.land core pad r = s.putManger { s.manger core with recs := (s.manger core).recs ++ [r] } := by
  simp [State.land, hj, hc]

/-- A record of a job that is gone or cancelled there is discarded. -/
theorem State.land_discards (h : ∀ j, s.job? pad r.job = some j → core ∈ j.cancelCores) : s.land core pad r = s := by
  cases hj : s.job? pad r.job with
  | none => simp [State.land, hj]
  | some j => simp [State.land, hj, h j hj]

theorem State.foldl_land_putManger {m : Manger} (hm : m.core = core) {rs : List TaskRec}
    (h : ∀ r ∈ rs, ∃ j, s.job? pad r.job = some j ∧ core ∉ j.cancelCores) :
    rs.foldl (fun s r => s.land core pad r) (s.putManger m) = s.putManger { m with recs := m.recs ++ rs } := by
  induction rs generalizing m with
  | nil => simp
  | cons r rs ih =>
    obtain ⟨j, hj, hc⟩ := h r (by simp)
    have hland : (s.putManger m).land core pad r = s.putManger { m with recs := m.recs ++ [r] } := by
      subst hm
      have hj' : (s.putManger m).job? pad r.job = some j := hj
      rw [State.land_joins hj' hc, State.manger_putManger]
      exact State.putManger_putManger s rfl
    rw [List.foldl_cons, hland, ih (m := { m with recs := m.recs ++ [r] }) hm fun r hr => h r (by simp [hr])]
    simp

/-- The records of a batch join the manger in their order. -/
theorem State.foldl_land {rs : List TaskRec} (hne : rs ≠ []) (h : ∀ r ∈ rs, ∃ j, s.job? pad r.job = some j ∧ core ∉ j.cancelCores) :
    rs.foldl (fun s r => s.land core pad r) s = s.putManger { s.manger core with recs := (s.manger core).recs ++ rs } := by
  obtain ⟨r, rs, rfl⟩ := List.exists_cons_of_ne_nil hne
  obtain ⟨j, hj, hc⟩ := h r (by simp)
  rw [List.foldl_cons, State.land_joins hj hc]
  have hrest := State.foldl_land_putManger (m := { s.manger core with recs := (s.manger core).recs ++ [r] }) (s.manger_core core)
    fun r hr => h r (List.mem_cons_of_mem _ hr)
  exact hrest.trans (by simp)

end

/-! ### Refills and steals (R338, R340, R341) -/

section
variable {s : State}

theorem exec_refillBatchLand_lands {core : Nat} {p : Paddock} {b : Batch} (hp : s.padOf core = some p)
    (hb : s.batches.find? (·.core == core) = some b) (hne : b.recs ≠ []) (hleft : b.left = []) (hhalt : s.haltedCore core = false)
    (hjobs : ∀ r ∈ b.recs, ∃ j, s.job? p.n r.job = some j ∧ core ∉ j.cancelCores) :
    exec (.refillBatchLand core) s = .next (({ s with batches := s.batches.erase b }.putManger
      { s.manger core with recs := (s.manger core).recs ++ b.recs }).serveCore core) := by
  have hland := State.foldl_land (s := { s with batches := s.batches.erase b }) (core := core) (pad := p.n) hne hjobs
  have hno : (b.left != []) = false := by simp [hleft]
  change execRefillBatchLand core s = _
  simp only [execRefillBatchLand, hp, hb, hhalt, hno, Bool.or_self, Bool.false_eq_true, if_false, hland]
  rfl

/-- What a victim answers to a thief: half of its oldest record of the job, or the whole of it when another is left. -/
def State.stealFrom (s : State) (thief victim job : Nat) (r : TaskRec) (rest : List TaskRec) : State :=
  let m := s.manger victim
  let sent := fun (u : State) (x : TaskRec) =>
    { u with nextId := s.nextId + 1, steals := s.steals ++ [{ id := s.nextId, thief := thief, job := job, task := x }] }
  let mid := r.lo + (r.hi - r.lo + 1) / 2
  if !r.noSplit && decide (r.grain ≤ (r.hi - r.lo) / 2) then
    sent (s.putManger { m with recs := updFirst (· == r) (fun r => { r with hi := mid }) m.recs }) { r with lo := mid }
  else if rest = [] then { s with nextId := s.nextId + 1 }
  else sent (s.putManger { m with recs := m.recs.erase r }) r

theorem exec_stealRequest_answers {thief victim job : Nat} {p : Paddock} {j : Job} {r : TaskRec} {rest : List TaskRec}
    (hp : s.padOf thief = some p) (hj : s.job? p.n job = some j) (hm : (s.manger victim).recs.filter (·.job == job) = r :: rest)
    (ht : s.haltedCore thief = false) (hv : s.haltedCore victim = false) (hidle : s.idleFor thief j = true)
    (hcore : s.coreOf j victim = true) :
    exec (.stealRequest thief victim job) s = .next (s.stealFrom thief victim job r rest) := by
  change execStealRequest thief victim job s = _
  simp only [execStealRequest, hp, hj, hm, ht, hv, hidle, hcore, Bool.not_true, Bool.or_self, Bool.false_eq_true, if_false,
    State.stealFrom]
  split
  · rfl
  · split <;> rfl

section
variable {sid : Nat} {x : Steal} {p : Paddock} (hx : s.steals.find? (·.id == sid) = some x) (hp : s.padOf x.thief = some p)
  (hhalt : s.haltedCore x.thief = false)
include hx hp hhalt

theorem exec_stealAnswer_room (hfree : s.freeEntries x.thief ≠ 0) : exec (.stealAnswer sid) s =
    .next ((({ s with steals := s.steals.erase x }).land x.thief p.n x.task).serveCore x.thief) := by
  have hno : (s.freeEntries x.thief == 0) = false := by simpa using hfree
  change execStealAnswer sid s = _
  simp only [execStealAnswer, hx, hp, hhalt, hno, Bool.false_and, Bool.or_self, Bool.false_eq_true, if_false]

/-- A record of a job that is gone or cancelled at the thief needs no room. -/
theorem exec_stealAnswer_gone (hgone : ∀ j, s.job? p.n x.job = some j → x.thief ∈ j.cancelCores) : exec (.stealAnswer sid) s =
    .next ((({ s with steals := s.steals.erase x }).land x.thief p.n x.task).serveCore x.thief) := by
  change execStealAnswer sid s = _
  cases hj : s.job? p.n x.job with
  | none => simp only [execStealAnswer, hx, hp, hhalt, hj, Bool.not_true, Bool.and_false, Bool.or_self, Bool.false_eq_true, if_false]
  | some j =>
    have hc : j.cancelCores.contains x.thief = true := by simpa using hgone j hj
    simp only [execStealAnswer, hx, hp, hhalt, hj, hc, Bool.not_true, Bool.and_false, Bool.or_self, Bool.false_eq_true, if_false]

end

/-! ### Cancel bits and activation (R334, R341) -/

theorem exec_cancelBitSet {op core : Nat} {x : SysOp} {t : Troop} {j : Job} (hx : s.op? op = some x) (hk : x.kind = .cancel)
    (hcore : core ∈ x.cores) (ht : s.troop? x.tid = some t) (hj : s.job? t.pad x.arg = some j) (hl : j.launch = x.arg2) :
    let left := x.cores.filter (· != core)
    let s' := (s.cancelAt j core).updOp op fun x => { x with cores := left }
    exec (.cancelBitSet op core) s = .next (if left = [] then (s'.endOp x).settleJobs else s'.settleJobs) := by
  have hin : x.cores.contains core = true := by simpa using hcore
  intro left s'
  change execCancelBitSet op core s = _
  simp only [execCancelBitSet, hx, hk, hin, bne_self_eq_false, Bool.not_true, Bool.or_self, Bool.false_eq_true, if_false, ht,
    Option.bind_some, hj, hl, if_true]
  rfl

/-- The job of an active launch in the slot that it takes. -/
def State.newJob (s : State) (p : Paddock) (l : Launch) (launch : Nat) : Job :=
  { pad := p.n, slot := freeOf ((s.jobs.filter fun j => j.pad == p.n).map (·.slot)) 8, id := l.extWord 0x28 / 65536, launch := launch
    code := (l.dword 6).toNat, ring := l.extWord 0x20, rlog := l.extWord 0x28 % 16, secure := l.world, super := l.kind == 1
    cancelled := false, cancelCores := [], faulted := false, terminated := false }

theorem exec_jobActivate {launch core : Nat} {l : Launch} {p : Paddock} {s' : State} {bs : List Byte} {r : TaskRec}
    (hl : s.launch? launch = some l) (hp : s.pad? l.pad = some p) (htype : l.type = 4) (hstage : l.stage = 5) (hjob : l.job = none)
    (hrun : p.st = .running) (hserved : (s.served p).map (·.id) = some l.id) (hcore : core ∈ s.padCores p)
    (hfree : s.freeEntries core ≠ 0) (hfits : ∃ b < 12, s.fits l core b ≠ none)
    (hnew : ∀ j ∈ s.jobs.filter fun j => j.pad == p.n, j.id ≠ l.extWord 0x28 / 65536)
    (hroom : (s.jobs.filter fun j => j.pad == p.n).length < 8) (hread : s.agentGet l (l.extWord 0x30) 64 = (s', some (.ok bs)))
    (hparse : taskOfBytes bs = some r) (hres : s'.resident core ≠ []) :
    exec (.jobActivate launch core) s = .next ((({ s' with jobs := s'.jobs ++ [s.newJob p l launch] }.updLaunch launch fun l' =>
      { l' with job := some (l.extWord 0x28 / 65536), cores := [core] }).land core p.n
        { r with job := l.extWord 0x28 / 65536 }).serveCore core) := by
  have hin : (s.padCores p).contains core = true := by simpa using hcore
  have hsome : (List.range 12).all (fun b => (s.fits l core b).isNone) = false := by
    obtain ⟨b, hb, hf⟩ := hfits
    exact List.all_eq_false.2 ⟨b, List.mem_range.2 hb, by simpa using hf⟩
  have hnone : (s.jobs.filter fun j => j.pad == p.n).any (·.id == l.extWord 0x28 / 65536) = false :=
    List.any_eq_false.2 fun j hj => by simpa using hnew j hj
  have hstarted : (s'.resident core).isEmpty = false := by simpa using hres
  change execJobActivate launch core s = _
  simp only [execJobActivate, hl, hp, htype, hstage, hjob, hrun, hserved, hin, hfree, hsome, bne_self_eq_false, Option.isSome_none,
    Bool.not_true, Bool.or_self, decide_false, Bool.false_eq_true, if_false, hnone, Nat.not_le.2 hroom, hread, hparse, hstarted]
  rfl

end

/-- Settles O46: each event by the cases of what it meets. -/
theorem taskEvents : Obligations.TaskEvents := by
  unfold Obligations.TaskEvents
  refine ⟨fun s core p b hp hb hne hleft hhalt hjobs => exec_refillBatchLand_lands hp hb hne hleft hhalt hjobs,
    fun s thief victim job p j r rs hp hj hm ht hv hidle hcore => ?steals,
    fun s sid x p j hx hp hhalt hfree hj hc => ?_, fun s sid x p hx hp hhalt hsame hgone => ?_,
    fun s op core x t j hx hk hcore ht hj hl => exec_cancelBitSet hx hk hcore ht hj hl,
    fun s launch core l p s' bs r hl hp htype hstage hjob hrun hserved hcore hfree hfits hnew hroom hread hparse hres =>
      exec_jobActivate hl hp htype hstage hjob hrun hserved hcore hfree hfits hnew hroom hread hparse hres⟩
  case steals =>
    have hexec := exec_stealRequest_answers hp hj hm ht hv hidle hcore
    have hwhole : r.noSplit = true ∨ (r.hi - r.lo) / 2 < r.grain → ¬((!r.noSplit && decide (r.grain ≤ (r.hi - r.lo) / 2)) = true) := by
      rintro (h | h)
      · simp [h]
      · simp [Nat.not_le.2 h]
    refine ⟨fun hsplit hgrain => ?_, fun h hrs => ?_, fun h hrs => ⟨_, hexec, ?_⟩⟩
    · rw [hexec, State.stealFrom, if_pos (by simp [hsplit, hgrain])]
      rfl
    · rw [hexec, State.stealFrom, if_neg (hwhole h), if_neg hrs]
      rfl
    · rw [State.stealFrom, if_neg (hwhole h), if_pos hrs]
      exact ⟨rfl, rfl⟩
  · have hj' : State.job? { s with steals := s.steals.erase x } p.n x.task.job = some j := hj
    rw [exec_stealAnswer_room hx hp hhalt hfree, State.land_joins hj' hc]
    rfl
  · rw [exec_stealAnswer_gone hx hp hhalt hgone, State.land_discards]
    rw [hsame]
    exact hgone

end Sys2Proof.Machine
end


section
/-! PROOFS. The task instructions (O45): what SPAWN, TAKE, DONE, CANCEL and LAUNCH share, the result of each, and how the operations of
CANCEL, JWAIT and LAUNCH end. -/

namespace Sys2Proof.Machine

open Sys2Proof.Claims

/-! ### A run of scalar registers -/

/-- The words of a list go to consecutive scalar registers. -/
def State.writeRun (s : State) (sid d n : Nat) (ws : List (Dword × Nat)) : State :=
  ws.foldl (fun s w => s.writeS sid d (n + w.2) w.1) s

theorem State.writeRun_room {sid d n : Nat} {t : Troop} : ∀ {ws : List Dword} {k : Nat} {s : State} {z : Str}, s.str? sid = some z →
    s.troop? z.tid = some t → Room z t ws.length →
    ∃ z', s.writeRun sid d n (ws.zipIdx k) = (s.updStr sid fun _ => z') ∧ onlyS z z' t ∧
      ∀ r, z'.sreg r = if n + k ≤ r ∧ r < n + k + ws.length then ws.getD (r - (n + k)) 0 else z.sreg r := by
  intro ws
  induction ws with
  | nil =>
    intro k s z hz _ _
    exact ⟨z, (State.updStr_self hz).symm, ⟨rfl, fun _ => rfl⟩, fun r => (if_neg (by simp only [List.length_nil]; omega)).symm⟩
  | cons x ws ih =>
    intro k s z hz ht hr
    obtain ⟨y, e1, k1, b1, r1, v1⟩ := State.writeS_room (d := d) (n := n + k) (x := x) (k := ws.length) hz ht hr
    have hy : y.sid = z.sid := by rw [k1]
    have hy' : y.tid = z.tid := by rw [k1]
    obtain ⟨z', e2, ⟨k2, b2⟩, v2⟩ := ih (k := k + 1) (State.str?_updStr hz (fun _ => y) hy)
      (by rw [State.troop?_updStr, hy']; exact ht) r1
    refine ⟨z', ?_, ⟨by rw [k2, k1], fun h => (b2 h).trans (b1 h)⟩, fun r => ?_⟩
    · rw [List.zipIdx_cons, State.writeRun, List.foldl_cons, e1]
      exact e2.trans (State.updStr_updStr hz (fun _ => y) _ hy)
    · rw [v2, v1]
      by_cases hfirst : r = n + k
      · subst hfirst
        simp
      · by_cases hlow : n + k < r
        · obtain ⟨m, rfl⟩ : ∃ m, r = n + (k + 1) + m := ⟨r - (n + (k + 1)), by omega⟩
          have hm : n + (k + 1) + m - (n + k) = m + 1 := by omega
          have hiff : n + (k + 1) + m < n + k + (ws.length + 1) ↔ n + (k + 1) + m < n + (k + 1) + ws.length := by omega
          have hge : n + k ≤ n + (k + 1) + m := by omega
          simp [hm, hiff, hge, hfirst]
        · rw [if_neg (by omega), if_neg hfirst, if_neg (by omega)]

/-! ### What the task instructions share (R342, R415) -/

/-- Without a participant the instruction does nothing, and a troop whose effects are held traps. -/
def TaskInstr (i : Instr) (body : State → Cur → Str → Troop → State) : Prop :=
  ∀ s, exec i s = s.issue i noCheck fun c z t =>
    if c.parts = 0 then s else if t.held then s.raise c .recoveryEscape else body s c z t

section
variable {i : Instr} {body : State → Cur → Str → Troop → State} (hx : TaskInstr i body)
include hx

theorem TaskInstr.idle : Completes i (fun _ c _ _ => c.parts = 0) fun s _ _ _ => s :=
  Completes.of_idle hx fun _ _ _ _ h => ⟨rfl, if_pos h⟩

theorem TaskInstr.escapes : Traps i (fun _ c _ t => c.parts ≠ 0 ∧ t.protect ≠ none) .recoveryEscape :=
  Traps.of hx fun _ _ _ _ _ h => (if_neg h.1).trans (if_pos (Troop.held_of_protect h.2))

theorem TaskInstr.traps {pre : State → Cur → Str → Troop → Prop} {cause : Cause}
    (h : ∀ s c z t, pre s c z t → c.parts ≠ 0 ∧ t.protect = none ∧ body s c z t = s.raise c cause) : Traps i pre cause := by
  refine Traps.of hx fun s c z t _ hp => ?_
  obtain ⟨hc, hown, hb⟩ := h s c z t hp
  rw [if_neg hc, Troop.not_held hown, if_neg Bool.false_ne_true, hb]

theorem TaskInstr.result {d : Byte} {pre : State → Cur → Str → Troop → Prop} {val : State → Cur → Str → Troop → Dword}
    (h : ∀ s c z t, pre s c z t → c.parts ≠ 0 ∧ t.protect = none ∧ body s c z t = s.putScalar c z d (val s c z t)) :
    SResult i d pre val := by
  refine SResult.of hx fun s c z t _ hp => ?_
  obtain ⟨hc, hown, hb⟩ := h s c z t hp
  rw [if_neg hc, Troop.not_held hown, if_neg Bool.false_ne_true, hb]

theorem TaskInstr.exec_eq {s : State} {c : Cur} {z : Str} {t : Troop} (h : Issues s i c z t) (hc : c.parts ≠ 0) (hown : t.protect = none) :
    exec i s = .next ((body s c z t).settleOverflow t.tid) := by
  rw [hx, State.issue_next h _ _ rfl, if_neg hc, Troop.not_held hown, if_neg Bool.false_ne_true]

/-- As `exec_eq`, where the effect changes no troop. -/
theorem TaskInstr.exec_done {s u : State} {c : Cur} {z : Str} {t : Troop} (h : Issues s i c z t) (ho : t.overflow = false) (hc : c.parts ≠ 0)
    (hown : t.protect = none) (hb : body s c z t = u) (hu : u.troops = s.troops) : exec i s = .next u := by
  refine exec_of_effect (hx s) h ho rfl ?_ hu
  rw [if_neg hc, Troop.not_held hown, if_neg Bool.false_ne_true, hb]

end

/-- An instruction acts on the job that its operand names. -/
def State.onJob (s : State) (c : Cur) (z : Str) (o : Operands) (f : Nat → State) : State :=
  match jobId (z.sreg o.a.toNat) with
  | none => s.raise c .bounds
  | some id => f id

theorem State.onJob_none {s : State} {c : Cur} {z : Str} {o : Operands} (h : jobId (z.sreg o.a.toNat) = none) (f : Nat → State) :
    s.onJob c z o f = s.raise c .bounds := by
  rw [State.onJob, h]

theorem State.onJob_some {s : State} {c : Cur} {z : Str} {o : Operands} {i : Nat} (h : jobId (z.sreg o.a.toNat) = some i) (f : Nat → State) :
    s.onJob c z o f = f i := by
  rw [State.onJob, h]

theorem jobId_eq_some {x : Dword} {i : Nat} (h : jobId x = some i) : i = x.toNat := by
  simp only [jobId, Option.ite_none_right_eq_some, Option.some.injEq] at h
  exact h.2.symm

/-! ### SPAWN (R337, R342) -/

/-- The record that a SPAWN reads. -/
def spawned (z : Str) (o : Operands) : Option TaskRec := taskOf fun i => z.sreg (o.a.toNat + i)

/-- What a SPAWN answers once its record is pushed. -/
def State.spawnAnswer (c : Cur) (z : Str) (o : Operands) (x : State × Option (Except Cause Nat)) : State :=
  match x with
  | (s, none) => s.hold
  | (s, some (.error f)) => s.raise c f
  | (s, some (.ok n)) => s.putScalar c z o.d (BitVec.ofNat 64 n)

/-- A SPAWN pushes a record for a job of which its string holds one and whose cancel bit is not set. -/
def State.spawn (s : State) (c : Cur) (z : Str) (t : Troop) (o : Operands) : State :=
  match spawned z o with
  | none => s.raise c .bounds
  | some r =>
    match s.job? t.pad r.job with
    | none => s.putScalar c z o.d 3
    | some j =>
      if z.heldOf j.id = 0 then s.putScalar c z o.d 3
      else if j.cancelCores.contains z.core then s.putScalar c z o.d 4
      else State.spawnAnswer c z o (s.push j z.core r)

theorem spawn_task (o : Operands) : TaskInstr (.spawn o) fun s c z t => s.spawn c z t o := fun _ => rfl

/-- The record goes to the manger: that has room, and no record of the job is in the ring or on its way from it. -/
def State.Direct (s : State) (core : Nat) (j : Job) : Prop :=
  0 < s.freeEntries core ∧ (s.ring core j.pad j.id).head = (s.ring core j.pad j.id).tail ∧
    ∀ b ∈ s.batches, ¬(b.core = core ∧ b.job = j.id)

section
variable {s : State} {c : Cur} {z : Str} {t : Troop} {o : Operands} {r : TaskRec} {j : Job}

theorem State.direct_iff {core : Nat} : ((0 < s.freeEntries core && (s.ring core j.pad j.id).head == (s.ring core j.pad j.id).tail &&
    !s.batches.any fun b => b.core == core && b.job == j.id) = true) ↔ s.Direct core j := by
  simp only [State.Direct, Bool.and_eq_true, decide_eq_true_eq, beq_iff_eq, Bool.not_eq_true', List.any_eq_false, and_assoc]

theorem State.push_direct {core : Nat} (h : s.Direct core j) : s.push j core r =
    ((s.putManger { s.manger core with recs := (s.manger core).recs ++ [r] }).serveCore core, some (.ok 0)) :=
  if_pos (State.direct_iff.2 h)

theorem State.push_full {core : Nat} (h : ¬s.Direct core j)
    (hfull : j.slots ≤ (s.ring core j.pad j.id).tail - (s.ring core j.pad j.id).head + s.unread core j.id) :
    s.push j core r = (s, some (.error .taskQueue)) :=
  (if_neg (mt State.direct_iff.1 h)).trans (if_pos hfull)

theorem State.push_ring {core : Nat} {s' : State} {bs : List Byte} (h : ¬s.Direct core j)
    (hroom : (s.ring core j.pad j.id).tail - (s.ring core j.pad j.id).head + s.unread core j.id < j.slots)
    (hrail : s.cellRailed (.task core j.slot true) = false)
    (hstore : s.agentStore j.pad j.secure j.super (j.slotVa core (s.ring core j.pad j.id).tail) r.bytes = (s', .ok bs)) :
    s.push j core r = ((s'.putRing { s.ring core j.pad j.id with tail := (s.ring core j.pad j.id).tail + 1 }).serveCore core,
      some (.ok 0)) := by
  refine (if_neg (mt State.direct_iff.1 h)).trans ((if_neg (Nat.not_le.2 hroom)).trans ?_)
  simp only [hrail, Bool.false_eq_true, if_false, hstore]

theorem State.spawn_malformed (h : spawned z o = none) : s.spawn c z t o = s.raise c .bounds := by
  simp only [State.spawn, h]

theorem State.spawn_notHeld (hr : spawned z o = some r) (h : ∀ j, s.job? t.pad r.job = some j → z.heldOf j.id = 0) :
    s.spawn c z t o = s.putScalar c z o.d 3 := by
  cases hj : s.job? t.pad r.job with
  | none => simp only [State.spawn, hr, hj]
  | some j => simp only [State.spawn, hr, hj, h j hj, if_true]

theorem State.spawn_cancelled (hr : spawned z o = some r) (hj : s.job? t.pad r.job = some j) (hheld : 0 < z.heldOf j.id)
    (hc : z.core ∈ j.cancelCores) : s.spawn c z t o = s.putScalar c z o.d 4 := by
  have hin : j.cancelCores.contains z.core = true := by simpa using hc
  simp only [State.spawn, hr, hj, hheld.ne', if_false, hin, if_true]

theorem State.spawn_pushes (hr : spawned z o = some r) (hj : s.job? t.pad r.job = some j) (hheld : 0 < z.heldOf j.id)
    (hc : z.core ∉ j.cancelCores) : s.spawn c z t o = State.spawnAnswer c z o (s.push j z.core r) := by
  have hout : j.cancelCores.contains z.core = false := by simpa using hc
  simp only [State.spawn, hr, hj, hheld.ne', if_false, hout, Bool.false_eq_true]

end

/-! ### TAKE, DONE and CANCEL (R339, R341, R342) -/

/-- A TAKE ends at once where its job has ended, and else waits for a record. -/
def State.take (s : State) (c : Cur) (z : Str) (t : Troop) (o : Operands) (i : Nat) : State :=
  match s.job? t.pad i with
  | none => s.writeRun z.sid t.depth o.d.toNat (takeEnd 3).zipIdx
  | some j =>
    if j.terminated || j.cancelCores.contains z.core then s.writeRun z.sid t.depth o.d.toNat (takeEnd j.status).zipIdx
    else if z.heldOf i + 1 > 255 then s.raise c .taskQueue
    else (s.fresh.2.park z.sid c.bundle (.take i o.d.toNat s.nextId)).serveCore z.core

theorem take_task (o : Operands) : TaskInstr (.take o) fun s c z t => s.onJob c z o (s.take c z t o) := fun _ => rfl

def State.done (s : State) (c : Cur) (z : Str) (t : Troop) (i : Nat) : State :=
  if (s.job? t.pad i).isNone || z.heldOf i = 0 then s.raise c .taskQueue
  else (s.updStr z.sid fun z => z.setHeld i (z.heldOf i - 1)).settleJobs

theorem done_task (o : Operands) : TaskInstr (.done o) fun s c z t => s.onJob c z o (s.done c z t) := fun _ => rfl

def State.cancel (s : State) (c : Cur) (t : Troop) (i : Nat) : State :=
  match s.job? t.pad i with
  | none => s
  | some j => (s.startOp c t .cancel .str i j.launch).updOp s.nextId fun x => { x with cores := s.jobCores t.pad }

theorem cancel_task (o : Operands) : TaskInstr (.cancel o) fun s c z t => s.onJob c z o (s.cancel c t) := fun _ => rfl

section
variable {s : State} {c : Cur} {z : Str} {t : Troop} {o : Operands} {i : Nat} {j : Job}

/-- The status with which a TAKE of a job ends at once. -/
def TakeEnds (s : State) (z : Str) (t : Troop) (i st : Nat) : Prop :=
  match s.job? t.pad i with
  | none => st = 3
  | some j => st = j.status ∧ (j.terminated = true ∨ z.core ∈ j.cancelCores)

theorem State.take_ends {st : Nat} (h : TakeEnds s z t i st) :
    s.take c z t o i = s.writeRun z.sid t.depth o.d.toNat (takeEnd st).zipIdx := by
  unfold TakeEnds at h
  cases hj : s.job? t.pad i with
  | none =>
    rw [hj] at h
    obtain rfl : st = 3 := h
    simp only [State.take, hj]
  | some j =>
    rw [hj] at h
    obtain ⟨rfl, hover⟩ := h
    have hend : (j.terminated || j.cancelCores.contains z.core) = true := by simpa using hover
    simp only [State.take, hj, hend, if_true]

theorem State.take_live (hj : s.job? t.pad i = some j) (ht : j.terminated = false) (hc : z.core ∉ j.cancelCores) :
    s.take c z t o i = if z.heldOf i + 1 > 255 then s.raise c .taskQueue
      else (s.fresh.2.park z.sid c.bundle (.take i o.d.toNat s.nextId)).serveCore z.core := by
  have hlive : (j.terminated || j.cancelCores.contains z.core) = false := by simpa [ht] using hc
  simp only [State.take, hj, hlive, Bool.false_eq_true, if_false]

theorem exec_take_ends {st : Nat} (h : Issues s (.take o) c z t) (hr : Room z t 8) (hp : c.parts ≠ 0) (hown : t.protect = none)
    (hi : jobId (z.sreg o.a.toNat) = some i) (hend : TakeEnds s z t i st) :
    ∃ z', exec (.take o) s = .next (s.updStr c.sid fun _ => z') ∧ onlyS z z' t ∧
      ∀ n, z'.sreg n = if o.d.toNat ≤ n ∧ n < o.d.toNat + 8 then (takeEnd st).getD (n - o.d.toNat) 0 else z.sreg n := by
  obtain ⟨z', e, only, v⟩ := State.writeRun_room (d := t.depth) (n := o.d.toNat) (k := 0) (ws := takeEnd st) h.str h.troop hr
  refine ⟨z', (take_task o).exec_done h hr.1 hp hown ?_ rfl, only, v⟩
  rw [State.onJob_some hi, State.take_ends hend, State.str_sid h.str, e]

/-- A change of the first element that satisfies a predicate, when that is the last. -/
theorem updFirst_append_last {α : Type} {p : α → Bool} {f : α → α} {xs : List α} {x : α} (hxs : ∀ y ∈ xs, p y = false) (hx : p x = true) :
    updFirst p f (xs ++ [x]) = xs ++ [f x] := by
  induction xs with
  | nil => simp [updFirst, hx]
  | cons y ys ih => simp [updFirst, hxs y (by simp), ih fun w hw => hxs w (by simp [hw])]

/-- An operation that has just started takes its cores. -/
theorem State.startOp_updOp {kind : SysKind} {arg arg2 : Nat} {cores : List Nat} (hz : s.str? c.sid = some z)
    (hnew : ∀ x ∈ s.ops, x.id ≠ s.nextId) :
    let op : SysOp :=
      { id := s.nextId, sid := c.sid, tid := t.tid, kind := kind, lvl := .str, pc := c.pc, next := c.next, mask := c.bundle
        depth := t.depth, trap := c.trap, phase := .waiting, arg := arg, arg2 := arg2, cores := cores, fault := none
        blocks := c.blocks, wasPref := z.pref == some c.pc }
    (s.startOp c t kind .str arg arg2).updOp s.nextId (fun x => { x with cores := cores }) =
      { s with ops := s.ops ++ [op], nextId := s.nextId + 1 }.updStr c.sid fun _ =>
        z.mapLanes c.bundle fun x => { x with park := .op s.nextId } := by
  intro op
  rw [State.startOp_eq t hz]
  simp only [State.updOp, State.updStr_ops]
  rw [updFirst_append_last (fun y hy => by simpa using hnew y hy) (by simp)]
  rfl

end

/-! ### TCHK and JWAIT (R343) -/

/-- The cancel bit of a job at a core. -/
def State.cancelBit (s : State) (z : Str) (t : Troop) (i : Nat) : Dword :=
  match s.job? t.pad i with
  | some j => if j.cancelCores.contains z.core then 1 else 0
  | none => 0

theorem exec_tchk (o : Operands) (s : State) : exec (.tchk o) s = s.issue (.tchk o) noCheck fun c z t =>
    if c.parts = 0 then s else s.onJob c z o fun i => s.putScalar c z o.d (s.cancelBit z t i) := rfl

def State.jwait (s : State) (c : Cur) (z : Str) (t : Troop) (o : Operands) (i : Nat) : State :=
  match s.job? t.pad i with
  | none => s.putScalar c z o.d 3
  | some j =>
    if z.heldOf i != 0 then s.raise c .taskQueue
    else if j.terminated then s.putScalar c z o.d (BitVec.ofNat 64 j.status)
    else s.startOp c t .jwait .str i o.d.toNat

theorem exec_jwait (o : Operands) (s : State) : exec (.jwait o) s = s.issue (.jwait o) noCheck fun c z t =>
    if c.parts = 0 then s else s.onJob c z o (s.jwait c z t o) := rfl

section
variable {s : State} {c : Cur} {z : Str} {t : Troop} {o : Operands} {i : Nat} {j : Job}

theorem State.jwait_none (hj : s.job? t.pad i = none) : s.jwait c z t o i = s.putScalar c z o.d 3 := by
  simp only [State.jwait, hj]

theorem State.jwait_held (hj : s.job? t.pad i = some j) (hh : 0 < z.heldOf i) : s.jwait c z t o i = s.raise c .taskQueue := by
  have hne : (z.heldOf i != 0) = true := by simpa using hh.ne'
  simp only [State.jwait, hj, hne, if_true]

theorem State.jwait_over (hj : s.job? t.pad i = some j) (hh : z.heldOf i = 0) (ht : j.terminated = true) :
    s.jwait c z t o i = s.putScalar c z o.d (BitVec.ofNat 64 j.status) := by
  simp only [State.jwait, hj, hh, bne_self_eq_false, Bool.false_eq_true, if_false, ht, if_true]

theorem State.jwait_starts (hj : s.job? t.pad i = some j) (hh : z.heldOf i = 0) (ht : j.terminated = false) :
    s.jwait c z t o i = s.startOp c t .jwait .str i o.d.toNat := by
  simp only [State.jwait, hj, hh, bne_self_eq_false, Bool.false_eq_true, if_false, ht]

end

/-- An instruction that starts its operation, whatever else it may do. -/
theorem StartsOp.of {i : Instr} {pre : State → Cur → Str → Troop → Prop} {kind : SysKind} {lvl : Level} {arg arg2 : Cur → Str → Nat}
    {rest : SysOp → Prop} {body : State → Cur → Str → Troop → State} (hx : ∀ s, exec i s = s.issue i noCheck (body s))
    (hidle : ∀ s c z t, c.parts = 0 → body s c z t = s)
    (hb : ∀ s c z t, c.parts ≠ 0 → pre s c z t → body s c z t = s.startOp c t kind lvl (arg c z) (arg2 c z))
    (hrest : ∀ op : SysOp, op.kind = kind → rest op) :
    StartsOp i pre kind lvl arg arg2 rest := by
  refine ⟨Completes.of_idle hx fun s c z t h => ⟨rfl, hidle s c z t h⟩, fun s c z t h ho hc hp => ⟨hrest _ rfl, _, ?_, rfl,
    z.lanes_mapLanes c.bundle _⟩⟩
  refine exec_of_effect (hx s) h ho rfl ((hb s c z t hc hp).trans ?_) rfl
  exact State.startOp_eq t h.str kind lvl (arg c z) (arg2 c z)

/-! ### How the operations end (R336, R341, R346) -/

theorem cancelEnds {o : SysOp} (hk : o.kind = .cancel) : CancelEnds o := by
  intro s z t core j left hop _ ht hj hl hcore
  have hin : left.contains core = true := by simpa using hcore
  change execCancelBitSet o.id core s = _
  simp only [execCancelBitSet, hop, hk, hin, bne_self_eq_false, Bool.not_true, Bool.or_self, Bool.false_eq_true, if_false, ht,
    Option.bind_some, hj, hl, if_true]

/-- Where no lane waits in TAKE, a job that ends wakes none. -/
theorem State.wakeTakes_none {s : State} (h : ∀ y ∈ s.strs, ∀ l ∈ y.lanes, ∀ k d n, l.park ≠ .take k d n) (j : Job) (st : Nat)
    (p : Nat → Bool) : s.wakeTakes j st p = s := by
  have hnone (zs : List Str) (hz : ∀ y ∈ zs, y ∈ s.strs) : takesOf zs = [] := by
    rw [takesOf, List.flatMap_eq_nil_iff.2, List.dedup_nil]
    refine fun y hy => List.filterMap_eq_nil_iff.2 fun l hl => ?_
    have hno := h y (hz y hy) l hl
    split
    next k d n hpark => exact absurd hpark (hno k d n)
    · rfl
  rw [State.wakeTakes, hnone _ fun y hy => (List.mem_filter.1 hy).1, List.foldl_nil]

theorem jwaitEnds {o : SysOp} (hk : o.kind = .jwait) : JwaitEnds o := by
  intro s t j hops ht hpad hid hnone
  have hwake := State.wakeTakes_none (s := s.updJob j fun j => { j with terminated := true }) hnone j j.status fun _ => true
  have hops' : (s.updJob j fun j => { j with terminated := true }).ops = [o] := hops
  have ht' : (s.updJob j fun j => { j with terminated := true }).troop? o.tid = some t := ht
  simp only [State.terminate, hwake, hops', List.filter_cons, hk, hid, ht', hpad, beq_self_eq_true, Bool.and_self, if_true,
    List.filter_nil, List.foldl_cons, List.foldl_nil]

/-! #### LAUNCH -/

theorem lines_of_aligned {va : Nat} (h : va % 64 = 0) : ((List.range 64).map fun i => (va + i) / 64 * 64).dedup = [va] := by
  have hall : ((List.range 64).map fun i => (va + i) / 64 * 64) = List.replicate 64 va := by
    rw [List.eq_replicate_iff]
    refine ⟨by simp, fun b hb => ?_⟩
    obtain ⟨i, hi, rfl⟩ := List.mem_map.1 hb
    have := List.mem_range.1 hi
    omega
  rw [hall]
  exact List.replicate_dedup (by decide)

section
variable {s v : State} {op : SysOp} {t : Troop}

/-- A LAUNCH reads the bytes of lines that are there. -/
theorem State.launchRead_lines {va n : Nat} {bs : List Byte} (hread : s.readLinesOf op.sid t (State.isSuper t op.trap)
    ((List.range n).map fun i => (va + i) / 64 * 64).dedup = (v, .ok (some bs))) (stop : State → State) (go : State → List Byte → State) :
    s.launchRead op t va n stop go = go v (bs.take n) := by
  simp only [State.launchRead, hread]

/-- One line is read. -/
theorem State.launchRead_line {va : Nat} {d : BitVec 512} (h : va % 64 = 0)
    (hread : s.readVirt op.sid t (State.isSuper t op.trap) va 6 allBytes = (v, .ok d)) (stop : State → State)
    (go : State → List Byte → State) : s.launchRead op t va 64 stop go = go v (lineSlice d 0 64) := by
  have hlines : s.readLinesOf op.sid t (State.isSuper t op.trap) ((List.range 64).map fun i => (va + i) / 64 * 64).dedup =
      (v, .ok (some (lineSlice d 0 64))) := by
    simp only [lines_of_aligned h, State.readLinesOf, hread, List.append_nil]
  rw [State.launchRead_lines hlines, List.take_of_length_le (by simp [lineSlice])]

end

/-- What an accepted packet of a LAUNCH leaves, by whether the device-side queue has room. -/
def Accepted (op : SysOp) (t : Troop) (res : State) (u : State) (l : Launch) : Prop :=
  (64 ≤ u.deviceQueued t.pad → res = u.endLaunchOp op 0x10 l.pktid) ∧
    (u.deviceQueued t.pad < 64 → res = ({ u with nextId := u.nextId + 1, launches := u.launches ++ [{ l with id := u.nextId }] } :
      State).endLaunchOp op 0 l.pktid)

section
variable {u : State} {op : SysOp} {t : Troop} {l : Launch}

theorem State.acceptLaunch_accepted : Accepted op t (u.acceptLaunch op t l) u l :=
  ⟨fun h => if_pos h, fun h => if_neg (Nat.not_le.2 h)⟩

theorem State.checkLaunch_malformed (h : l.extOk = false) : u.checkLaunch op t l = u.endLaunchOp op 0x0E l.pktid := by
  simp [State.checkLaunch, h]

theorem State.checkLaunch_refused (hok : l.extOk = true) (h : (l.world = true ∧ t.secure = false) ∨ t.prio < l.prio) :
    u.checkLaunch op t l = u.endLaunchOp op 0x02 l.pktid := by
  simp [State.checkLaunch, hok, h]

section
variable (hok : l.extOk = true) (hw : l.world = true → t.secure = true) (hp : l.prio ≤ t.prio)
include hok hw hp

/-- A packet that its troop may launch goes on to the checks on its job. -/
theorem State.checkLaunch_allowed : u.checkLaunch op t l =
    if l.type != 4 then u.acceptLaunch op t l
    else if (u.jobs.filter (·.pad == t.pad)).any (·.id == l.extWord 0x28 / 65536) || decide (8 ≤ (u.jobs.filter (·.pad == t.pad)).length) then
      u.endLaunchOp op 0x0E l.pktid
    else u.launchRead op t (l.extWord 0x30) 64 (fun s => s.endLaunchOp op 0x0E l.pktid) fun s bs =>
      if (taskOfBytes bs).isNone then s.endLaunchOp op 0x0E l.pktid else s.acceptLaunch op t l := by
  have hworld : (l.world && !t.secure) = false := by
    cases h : l.world with
    | false => rfl
    | true => simp [hw h]
  simp only [State.checkLaunch, hok, hworld, Nat.not_lt.2 hp, Bool.not_true, decide_false, Bool.or_self, Bool.false_eq_true, if_false]

theorem State.checkLaunch_accepts (ht : l.type ≠ 4) : u.checkLaunch op t l = u.acceptLaunch op t l := by
  rw [State.checkLaunch_allowed hok hw hp, if_pos (by simpa using ht)]

theorem State.checkLaunch_taken (ht : l.type = 4) (h : (∃ j ∈ u.jobs.filter (·.pad == t.pad), j.id = l.extWord 0x28 / 65536) ∨
    8 ≤ (u.jobs.filter (·.pad == t.pad)).length) : u.checkLaunch op t l = u.endLaunchOp op 0x0E l.pktid := by
  rw [State.checkLaunch_allowed hok hw hp, if_neg (by simp [ht]), if_pos]
  rw [Bool.or_eq_true, List.any_eq_true, decide_eq_true_eq]
  simpa only [beq_iff_eq] using h

theorem State.checkLaunch_reads {v : State} {d : BitVec 512} (ht : l.type = 4)
    (hnew : ∀ j ∈ u.jobs.filter (·.pad == t.pad), j.id ≠ l.extWord 0x28 / 65536) (hroom : (u.jobs.filter (·.pad == t.pad)).length < 8)
    (hal : l.extWord 0x30 % 64 = 0) (hread : u.readVirt op.sid t (State.isSuper t op.trap) (l.extWord 0x30) 6 allBytes = (v, .ok d)) :
    u.checkLaunch op t l =
      if (taskOfBytes (lineSlice d 0 64)).isNone then v.endLaunchOp op 0x0E l.pktid else v.acceptLaunch op t l := by
  rw [State.checkLaunch_allowed hok hw hp, if_neg (by simp [ht]), if_neg, State.launchRead_line hal hread]
  rw [Bool.or_eq_true, List.any_eq_true, decide_eq_true_eq, not_or]
  exact ⟨by simpa only [beq_iff_eq, not_exists, not_and] using hnew, Nat.not_le.2 hroom⟩

end
end

/-- A LAUNCH whose packet is one line that is read goes on to its checks. -/
theorem exec_launch_reads {o : SysOp} {s s' : State} {z : Str} {t : Troop} {p : Paddock} {d : BitVec 512} (hk : o.kind = .launch)
    (h : Stands s o z t) (hp : s.pad? t.pad = some p) (hhalt : s.haltedCore t.core = false) (hrail : s.cellRailed (.op o.id) = false)
    (href : ∀ x ∈ s.refusals, x.1 ≠ .op o.id) (hw : o.words = []) (hal : o.arg % 64 = 0)
    (hread : s.readVirt o.sid t (State.isSuper t o.trap) o.arg 6 allBytes = (s', .ok d)) :
    let words := wordsOfBytes 16 (lineSlice d 0 64)
    exec (.systemOpComplete o.id) s =
      .next ((s'.updOp o.id fun o => { o with words := words }).launchChecks { o with words := words } p t words) := by
  have hnone : s.refusals.find? (·.1 == .op o.id) = none := List.find?_eq_none.2 fun x hx => by simpa using href x hx
  intro words
  change execSystemOpComplete o.id s = _
  simp only [execSystemOpComplete, h.op, h.owner, hk, if_true, State.stepLaunch, hp, hhalt, hrail, Bool.or_self, Bool.false_eq_true, if_false,
    hnone, hw, bne_self_eq_false, State.launchRead_line hal hread]
  rfl

section
variable {u : State} {op : SysOp} {p : Paddock} {t : Troop} {words : List Word}

theorem State.launchChecks_refused (h : u.admitReason p (u.packetOf t words) 3 ≠ 0) : u.launchChecks op p t words =
    u.endLaunchOp op (u.admitReason p (u.packetOf t words) 3) (u.packetOf t words).pktid :=
  if_pos (by simpa using h)

variable (h : u.admitReason p (u.packetOf t words) 3 = 0)
include h

theorem State.launchChecks_malformed (he : (u.packetOf t words).extBytes = none) :
    u.launchChecks op p t words = u.endLaunchOp op 0x0E (u.packetOf t words).pktid := by
  simp only [State.launchChecks, h, he, bne_self_eq_false, Bool.false_eq_true, if_false]

theorem State.launchChecks_short (he : (u.packetOf t words).extBytes = some 0) :
    u.launchChecks op p t words = u.checkLaunch op t (u.packetOf t words) := by
  simp only [State.launchChecks, h, he, bne_self_eq_false, Bool.false_eq_true, if_false]

theorem State.launchChecks_extended {n : Nat} {v : State} {bs : List Byte} (he : (u.packetOf t words).extBytes = some n) (hn : n ≠ 0)
    (hread : u.readLinesOf op.sid t (State.isSuper t op.trap)
      ((List.range n).map fun i => ((addr56 (u.packetOf t words).extVa).toNat + i) / 64 * 64).dedup = (v, .ok (some bs))) :
    u.launchChecks op p t words = v.checkLaunch op t { u.packetOf t words with ext := bs.take n } := by
  obtain ⟨n, rfl⟩ := Nat.exists_eq_succ_of_ne_zero hn
  simp only [State.launchChecks, h, he, bne_self_eq_false, Bool.false_eq_true, if_false, State.launchRead_lines hread]

end

theorem launchEnds {o : SysOp} (hk : o.kind = .launch) : LaunchEnds o := by
  intro s z t p s' d hop hz ht hp hhalt hrail href hw hal hread words u l x ends refused accepted checked
  have hexec : ends (u.launchChecks x p t words) := exec_launch_reads hk ⟨hop, hz, ht⟩ hp hhalt hrail href hw hal hread
  have hends {v w : State} (hv : ends v) (h : v = w) : ends w := h ▸ hv
  have hchecked (v : State) (m : Launch) (hm : m.pktid = l.pktid) (hv : ends (v.checkLaunch x t m)) : checked v m := by
    have haccepted (v : State) (hv : ends (v.acceptLaunch x t m)) : accepted v m := by
      obtain ⟨hfull, hroom⟩ := State.acceptLaunch_accepted (u := v) (op := x) (t := t) (l := m)
      rw [hm] at hfull
      exact ⟨fun h => hends hv (hfull h), fun h => hends hv (hroom h)⟩
    refine ⟨fun h => hends hv (hm ▸ State.checkLaunch_malformed h), fun hok h => hends hv (hm ▸ State.checkLaunch_refused hok h),
      fun hok hworld hprio => ⟨fun h4 => haccepted v (hends hv (State.checkLaunch_accepts hok hworld hprio h4)), fun h4 =>
        ⟨fun h => hends hv (hm ▸ State.checkLaunch_taken hok hworld hprio h4 h), fun hnew hroom hal w d hread => ?_⟩⟩⟩
    have hreads := hends hv (State.checkLaunch_reads hok hworld hprio h4 hnew hroom hal hread)
    refine ⟨fun h => hends hreads ?_, fun h => haccepted w (hends hreads ?_)⟩
    · rw [h, ← hm]; rfl
    · rw [if_neg (by simpa using h)]
  refine ⟨fun h => hends hexec ?_, fun h he => hends hexec ?_, fun h he => hchecked u l rfl (hends hexec ?_),
    fun h n v bs he hn hread => hchecked v { l with ext := bs.take n } rfl (hends hexec ?_)⟩
  · exact State.launchChecks_refused h
  · exact State.launchChecks_malformed h he
  · exact State.launchChecks_short h he
  · exact State.launchChecks_extended h he hn hread

/-! ### LAUNCH, and the obligation -/

/-- The fault of a LAUNCH's operands. -/
def launchFault (o : Operands) (z : Str) (t : Troop) : Option Cause :=
  if t.held then some .recoveryEscape
  else if canonical (z.sreg o.a.toNat) = false then some .noncanonical
  else if (z.sreg o.a.toNat).toNat % 64 ≠ 0 then some .misaligned
  else none

theorem launch_parks (o : Operands) : Parks (.launch o) (fun _ _ z t => launchFault o z t) .launch .dev
    (fun _ z => (addr56 (z.sreg o.a.toNat)).toNat) fun _ _ => o.d.toNat := by
  intro s
  change execLaunch o s = _
  unfold execLaunch
  congr 1
  funext c z t
  by_cases hc : c.parts = 0
  · rw [if_pos hc, if_pos hc]
  rw [if_neg hc, if_neg hc]
  simp only [launchFault]
  cases t.held
  · cases canonical (z.sreg o.a.toNat)
    · rfl
    · by_cases hal : (z.sreg o.a.toNat).toNat % 64 = 0
      · simp [hal]
      · simp [hal]
  · rfl

section
variable {o : Operands} {z : Str} {t : Troop}

theorem launchFault_free (h : t.protect = none) : launchFault o z t =
    if canonical (z.sreg o.a.toNat) = false then some .noncanonical
    else if (z.sreg o.a.toNat).toNat % 64 ≠ 0 then some .misaligned
    else none := by
  rw [launchFault, Troop.not_held h, if_neg Bool.false_ne_true]

end

/-- Settles O45: each instruction by its effect on the job that it names, and each operation by how it ends. -/
theorem taskInstructions : Obligations.TaskInstructions := by
  unfold Obligations.TaskInstructions
  intro id escapes bounded idle taken mine direct
  have hbounded {i : Instr} {o : Operands} {f : State → Cur → Str → Troop → Nat → State}
      (hx : TaskInstr i fun s c z t => s.onJob c z o (f s c z t)) : bounded i o :=
    hx.traps fun s c z t ⟨hc, hown, hid⟩ => ⟨hc, hown, State.onJob_none hid _⟩
  refine ⟨fun o => Completes.of_idle (exec_tchk o) fun _ _ _ _ h => ⟨rfl, if_pos h⟩, fun o => (spawn_task o).idle, fun o => (spawn_task o).escapes,
    fun o => (spawn_task o).traps fun s c z t ⟨hc, hown, hr⟩ => ⟨hc, hown, State.spawn_malformed hr⟩,
    fun o => (spawn_task o).result fun s c z t ⟨hc, hown, r, hr, h⟩ => ⟨hc, hown, State.spawn_notHeld hr h⟩,
    fun o => (spawn_task o).result fun s c z t ⟨hc, hown, r, j, hr, hj, hh, hin⟩ => ⟨hc, hown, State.spawn_cancelled hr hj hh hin⟩,
    fun o s c z t r j h hc hown hr ⟨hj, hh, hout⟩ hdir => ?_, fun o s c z t r j s' bs h hc hown hr ⟨hj, hh, hout⟩ hdir hroom hrail _ hstore => ?_,
    fun o => (spawn_task o).traps fun s c z t ⟨hc, hown, r, j, hr, ⟨hj, hh, hout⟩, hdir, hfull⟩ => ⟨hc, hown, ?_⟩,
    fun o => (take_task o).idle, fun o => (take_task o).escapes, fun o => hbounded (take_task o),
    fun o s c z t i st h hr hc hown hid hend => exec_take_ends h hr hc hown hid hend,
    fun o s c z t i j h hc hown hid hj hlive hout hfew => ?_,
    fun o => (take_task o).traps fun s c z t ⟨hc, hown, i, j, hid, hj, hlive, hout, hmany⟩ => ⟨hc, hown, ?_⟩,
    fun o => (done_task o).idle, fun o => (done_task o).escapes, fun o => hbounded (done_task o),
    fun o s c z t i j h hc hown hid hj hh => ?_,
    fun o => (done_task o).traps fun s c z t ⟨hc, hown, i, hid, hno⟩ => ⟨hc, hown, ?_⟩,
    fun o => (cancel_task o).idle, fun o => (cancel_task o).escapes, fun o => hbounded (cancel_task o),
    fun o s c z t h ho ⟨hc, hown, i, hid, hj⟩ => (cancel_task o).exec_done h ho hc hown (by simp only [State.onJob_some hid, State.cancel, hj]) rfl,
    fun o s c z t i j h ho hc hown hid hj hnew => ⟨cancelEnds rfl, _, (cancel_task o).exec_done h ho hc hown ?_ rfl, rfl, z.lanes_mapLanes c.bundle _⟩,
    ?_⟩
  · rw [(spawn_task o).exec_eq h hc hown, State.spawn_pushes hr hj hh hout, State.push_direct hdir]
    rfl
  · rw [(spawn_task o).exec_eq h hc hown, State.spawn_pushes hr hj hh hout, State.push_ring hdir hroom hrail hstore]
    rfl
  · rw [State.spawn_pushes hr hj hh hout, State.push_full hdir hfull]
    rfl
  · rw [(take_task o).exec_eq h hc hown, State.onJob_some hid, State.take_live hj hlive hout, if_neg (by omega)]
    rfl
  · rw [State.onJob_some hid, State.take_live hj hlive hout, if_pos (by omega)]
  · rw [(done_task o).exec_eq h hc hown, State.onJob_some hid, State.done, if_neg (by simp [hj, hh.ne'])]
  · rw [State.onJob_some hid, State.done, if_pos (by simpa using hno)]
  · simp only [State.onJob_some hid, State.cancel, hj]
    exact State.startOp_updOp h.str hnew
  refine ⟨fun o => SResult.of (exec_tchk o) fun s c z t _ hid => ?_,
    fun o => Traps.of (exec_tchk o) fun s c z t _ ⟨hc, hid⟩ => (if_neg hc).trans (State.onJob_none hid _),
    fun o => Traps.of (exec_jwait o) fun s c z t _ ⟨hc, hid⟩ => (if_neg hc).trans (State.onJob_none hid _),
    fun o => SResult.of (exec_jwait o) fun s c z t _ ⟨hc, i, hid, hj⟩ => (if_neg hc).trans ((State.onJob_some hid _).trans (State.jwait_none hj)),
    fun o j => SResult.of (exec_jwait o) fun s c z t _ ⟨hc, i, hid, hj, hh, hover⟩ =>
      (if_neg hc).trans ((State.onJob_some hid _).trans (State.jwait_over hj hh hover)),
    fun o => StartsOp.of (exec_jwait o) (fun _ _ _ _ h => if_pos h) (fun s c z t hc ⟨i, j, hid, hj, hh, hlive⟩ => ?_) fun _ => jwaitEnds,
    fun o => Traps.of (exec_jwait o) fun s c z t _ ⟨hc, i, j, hid, hj, hh⟩ => (if_neg hc).trans ((State.onJob_some hid _).trans (State.jwait_held hj hh)),
    fun o => (launch_parks o).traps fun s c z t ⟨hc, hprot⟩ => ⟨hc, if_pos (Troop.held_of_protect hprot)⟩,
    fun o => (launch_parks o).starts (fun s c z t ⟨hown, hcan, hal⟩ => by simp [launchFault_free hown, hcan, hal]) fun _ hk _ => launchEnds hk,
    fun o => (launch_parks o).traps fun s c z t ⟨hc, hown, hcan⟩ => ⟨hc, by simp [launchFault_free hown, hcan]⟩,
    fun o => (launch_parks o).traps fun s c z t ⟨hc, hown, hcan, hal⟩ => ⟨hc, by simp [launchFault_free hown, hcan, hal]⟩⟩
  · obtain ⟨i, hi⟩ := Option.ne_none_iff_exists'.1 hid
    obtain rfl := jobId_eq_some hi
    by_cases hc : c.parts = 0
    · rw [if_pos hc, State.putScalar, if_pos hc]
    · rw [if_neg hc, State.onJob_some hi, State.cancelBit]
      cases s.job? t.pad (z.sreg o.a.toNat).toNat <;> simp
  · obtain rfl := jobId_eq_some hid
    rw [if_neg hc, State.onJob_some hid, State.jwait_starts hj hh hlive]

end Sys2Proof.Machine
end


section
/-! PROOFS. Inbound PCIe accesses and the requests of peers (O54), and the management of the device (O55). -/

namespace Sys2Proof.Machine

/-! ### Landing zones (R378 to R380) -/

section
variable {s s' : State} {pad zone off va : Nat} {p : Paddock} (hp : s.pad? pad = some p)
include hp

section
variable {req : Requester} {poisoned : Bool} {data : List Byte}

theorem exec_inboundPcieWrite_dropped (h : p.zoneVa zone off data.length = none ∨ poisoned = true) :
    exec (.inboundPcieWrite pad zone off req poisoned data) s = .next (s.dropInbound pad) := by
  change execInboundPcieWrite pad zone off req poisoned data s = _
  cases hz : p.zoneVa zone off data.length with
  | none => simp only [execInboundPcieWrite, hp, hz]
  | some va => simp only [execInboundPcieWrite, hp, hz, h.resolve_left (by simp [hz]), if_true]

theorem exec_inboundPcieWrite_refused (hz : p.zoneVa zone off data.length = some va) (hok : poisoned = false)
    (hlines : s.inboundLines pad req (linePieces va data) = (s', none)) :
    exec (.inboundPcieWrite pad zone off req poisoned data) s = .next (s'.dropInbound pad) := by
  change execInboundPcieWrite pad zone off req poisoned data s = _
  simp only [execInboundPcieWrite, hp, hz, hok, Bool.false_eq_true, if_false, hlines]

theorem exec_inboundPcieWrite_taken {xs : List Inbound} (hz : p.zoneVa zone off data.length = some va) (hok : poisoned = false)
    (hlines : s.inboundLines pad req (linePieces va data) = (s', some xs)) :
    exec (.inboundPcieWrite pad zone off req poisoned data) s =
      .next (if (p.zone zone).ordered then xs.foldl (fun (s : State) x => s.landInbound x) (s'.landEarlier pad req)
        else { s' with inbound := s'.inbound ++ xs }) := by
  change execInboundPcieWrite pad zone off req poisoned data s = _
  simp only [execInboundPcieWrite, hp, hz, hok, Bool.false_eq_true, if_false, hlines]

end

theorem exec_inboundPcieRead_outside {len : Nat} (hz : p.zoneVa zone off len = none) :
    exec (.inboundPcieRead pad zone off len) s = .next ((s.dropInbound pad).reply .unsupported) := by
  change execInboundPcieRead pad zone off len s = _
  simp only [execInboundPcieRead, hp, hz]

/-- What a read of a landing zone is answered with. -/
def State.answerRead (s : State) (pad : Nat) (r : AgentRes) : State :=
  match r with
  | .ok bs => s.reply (.bytes bs)
  | _ => (s.dropInbound pad).reply .unsupported

theorem exec_inboundPcieRead_read {len : Nat} {r : AgentRes} (hz : p.zoneVa zone off len = some va)
    (hload : (s.landAll pad).agentLoad pad false false va len = (s', r)) :
    exec (.inboundPcieRead pad zone off len) s = .next (s'.answerRead pad r) := by
  change execInboundPcieRead pad zone off len s = _
  simp only [execInboundPcieRead, hp, hz, hload]
  cases r <;> rfl

end

theorem exec_inboundPcieRead_absent {s : State} {pad : Nat} (hp : s.pad? pad = none) (zone off len : Nat) :
    exec (.inboundPcieRead pad zone off len) s = .next (s.reply .unsupported) := by
  change execInboundPcieRead pad zone off len s = _
  simp only [execInboundPcieRead, hp]

/-! ### Peers (R381) -/

/-- The state in which a peer's request finds the homes: the authority of the lines of an atomic has returned. -/
def State.ownedFor (s : State) (data : List Byte) (pa : Addr) (op : PeerOp) : State :=
  if (peerCombine data op).isSome then
    (linePieces pa.toNat (List.replicate (peerSize data op) 0)).foldl (fun s x => s.returnAuth (x.1 / 64)) s
  else s

/-- An atomic writes its new value. -/
def State.combineAt (s : State) (pad : Nat) (pa : Addr) (data : List Byte) (op : PeerOp) (bs : List Byte) : State :=
  match peerCombine data op with
  | some (w, f) => match f (natOfBytes bs) with
    | some x => s.writePhys pad pa.toNat (bytesOf w x)
    | none => s
  | none => s

section
variable {s : State} {peer pad : Nat} {pa : Addr} {op : PeerOp} {data : List Byte} {p : Paddock} (hp : s.pad? pad = some p)
  (hlo : 1 ≤ peer) (hhi : peer ≤ 31) (hup : peer ∉ s.linkDown)
include hlo hhi hup

theorem peer_served : (decide (peer < 1) || decide (31 < peer) || s.linkDown.contains peer) = false := by
  simp [Nat.not_lt.2 hlo, Nat.not_lt.2 hhi, hup]

include hp

theorem exec_peerRequest_refused {c : Cause} (h : peerRefusal p pa.toNat (peerSize data op) = some c) :
    exec (.peerRequest peer pad pa op data) s = .next (s.reply (.refused c)) := by
  change execPeerRequest peer pad pa op data s = _
  simp only [execPeerRequest, peer_served hlo hhi hup, Bool.false_eq_true, if_false, hp, h]

variable (hok : peerRefusal p pa.toNat (peerSize data op) = none)
include hok

theorem exec_peerRequest_write (hop : op = .write) :
    exec (.peerRequest peer pad pa op data) s = .next ((s.writePhys pad pa.toNat data).reply .done) := by
  subst hop
  change execPeerRequest peer pad pa .write data s = _
  simp only [execPeerRequest, peer_served hlo hhi hup, Bool.false_eq_true, if_false, hp, hok, if_true]

section
variable {s' : State} (hop : op ≠ .write)
include hop

theorem exec_peerRequest_bad (hread : (s.ownedFor data pa op).readPhys pad pa.toNat (peerSize data op) = (s', none)) :
    exec (.peerRequest peer pad pa op data) s = .next (s'.reply (.refused .uncorrectableMemory)) := by
  unfold State.ownedFor at hread
  change execPeerRequest peer pad pa op data s = _
  simp only [execPeerRequest, peer_served hlo hhi hup, Bool.false_eq_true, if_false, hp, hok, hop, hread]

theorem exec_peerRequest_read {bs : List Byte} (hread : (s.ownedFor data pa op).readPhys pad pa.toNat (peerSize data op) = (s', some bs)) :
    exec (.peerRequest peer pad pa op data) s = .next ((s'.combineAt pad pa data op bs).reply (.bytes bs)) := by
  unfold State.ownedFor at hread
  change execPeerRequest peer pad pa op data s = _
  simp only [execPeerRequest, peer_served hlo hhi hup, Bool.false_eq_true, if_false, hp, hok, hop, hread]
  rfl

end

end

/-- The addresses of a peer lie above the device's own. -/
theorem le_of_peerOf {pa peer : Nat} (h : peerOf pa = some peer) : 2 ^ 38 ≤ pa := by
  simp only [peerOf, Option.ite_none_right_eq_some, Bool.and_eq_true, decide_eq_true_eq] at h
  have := h.1.1.1
  omega

/-- Settles O54: each access by whether its zone, its pages or the paddock's regions take it. -/
theorem hostAndPeers : Obligations.HostAndPeers := by
  unfold Obligations.HostAndPeers
  refine ⟨fun s pad zone off req poisoned data p hp => ⟨exec_inboundPcieWrite_dropped hp, fun va s' hz hok =>
      ⟨exec_inboundPcieWrite_refused hp hz hok, fun xs => exec_inboundPcieWrite_taken hp hz hok⟩⟩,
    fun s pad zone off len p hp => ⟨exec_inboundPcieRead_outside hp, fun va s' r hz hload => ?_⟩,
    fun s pad zone off len hp => exec_inboundPcieRead_absent hp zone off len,
    fun s peer pad pa op data p hp hlo hhi hup => ⟨fun c h => exec_peerRequest_refused hp hlo hhi hup h,
      fun hok hop => exec_peerRequest_write hp hlo hhi hup hok hop, fun hok hop s' r hread => ?reads, fun hok f hf => ?atomics⟩,
    fun s peer hlo hhi hup => ?_, fun s peer hdown pa hpa => ?_⟩
  · rw [exec_inboundPcieRead_read hp hz hload]
    cases r <;> rfl
  case reads =>
    subst hop
    cases r with
    | none => exact exec_peerRequest_bad hp hlo hhi hup hok (by simp) hread
    | some bs => exact exec_peerRequest_read hp hlo hhi hup hok (by simp) hread
  case atomics =>
    have hop : op ≠ .write := by rintro rfl; simp [peerCombine] at hf
    have hown : s.ownedFor data pa op =
        (linePieces pa.toNat (List.replicate (peerSize data op) 0)).foldl (fun s x => s.returnAuth (x.1 / 64)) s := by
      rw [State.ownedFor, hf]; rfl
    intro own s' r hread
    have hread' : (s.ownedFor data pa op).readPhys pad pa.toNat (peerSize data op) = (s', r) := by rw [hown]; exact hread
    refine ⟨fun hr => exec_peerRequest_bad hp hlo hhi hup hok hop (hr ▸ hread'), fun bs hr => ?_⟩
    have hexec := exec_peerRequest_read hp hlo hhi hup hok hop (hr ▸ hread')
    refine ⟨fun hnone => ?_, fun x hx => ?_⟩
    · rw [hexec, State.combineAt]
      simp only [hf, hnone]
    · rw [hexec, State.combineAt]
      simp only [hf, hx]
  · change execPeerLinkLoss peer s = _
    simp [execPeerLinkLoss, hlo, hhi, hup]
  · rw [State.peerDown, decide_eq_true (le_of_peerOf hpa)]
    simp [hpa, hdown]

/-! ### Starts (R382, R383) -/

theorem State.escalate_eq (s : State) : .next s.escalate =
    exec (.coldStart (Config.coldWorks s.nextId) ((List.range 256).filter (Config.bistFails s.nextId))) { s with nextId := s.nextId + 1 } := by
  have hbad : ((List.range 256).filter (Config.bistFails s.nextId)).dedup = (List.range 256).filter (Config.bistFails s.nextId) :=
    (List.nodup_range.filter _).dedup
  change _ = execColdStart _ _ _
  rw [execColdStart, hbad]
  rfl

theorem exec_pf0Flr (s : State) : exec .pf0Flr s = .next (s.warmOr !s.firmwareFail) := rfl

/-! ### The mailbox (R374) -/

section
variable {s u : State} {code r : Nat} {go : List Dword → State × Nat}

theorem State.mailboxCmd_runs (h : s.mailbox.busy = true ∧ bitsNat (s.mailbox.block.headD 0) 7 0 = code)
    (hgo : go s.mailbox.block = (u, r)) : s.mailboxCmd code go = u.endMailbox r := by
  obtain ⟨hbusy, hcode⟩ := h
  simp only [State.mailboxCmd, hbusy, hcode, hgo, beq_self_eq_true, Bool.and_self, if_true]

theorem State.mailboxCmd_idle (h : s.mailbox.busy = false) : s.mailboxCmd code go = s := by
  simp [State.mailboxCmd, h]

end

section
variable {s s' : State} {q : List Dword} {p : Paddock}

theorem State.createPad_malformed (h : parseCreate q = none) : s.createPad q = (s, 1) := by
  unfold State.createPad
  rw [h]

theorem State.createPad_refused (h : parseCreate q = some p) (hr : s.createResult p ≠ 0) : s.createPad q = (s, s.createResult p) := by
  obtain ⟨k, hk⟩ := Nat.exists_eq_succ_of_ne_zero hr
  unfold State.createPad
  rw [h]
  simp only [hk]

theorem State.createPad_created (h : parseCreate q = some p) (hr : s.createResult p = 0) :
    s.createPad q = ({ s with pads := s.pads ++ [{ p with outRows := s.excluded }] }, 0) := by
  unfold State.createPad
  rw [h]
  simp only [hr]

section
variable (hq : onlyBits q [0x1FFF#64] = true)
include hq

theorem State.destroyPad_absent (hp : s.pad? (bitsNat (q.headD 0) 12 8) = none) : s.destroyPad q = (s, 2) := by
  simp only [State.destroyPad, hq, hp, Bool.not_true, Bool.false_eq_true, if_false]

theorem State.destroyPad_some (hp : s.pad? (bitsNat (q.headD 0) 12 8) = some p) : s.destroyPad q =
    if p.st = .saved ∨ p.st = .reset ∨ s.idlePad p.n = true then ((s.removePad p).zeroRegions p.regions, 0) else (s, 6) := by
  simp only [State.destroyPad, hq, hp, Bool.not_true, Bool.false_eq_true, if_false, Bool.or_eq_true, beq_iff_eq, or_assoc]

end

section
variable (hq : onlyBits q [0x3F1FFF#64, 0x00FFFFFFFFFFFFC0#64] = true) (hp : s.pad? (bitsNat (q.headD 0) 12 8) = some p)
include hq hp

theorem State.secureQueue_insecure (hs : p.secure = false) : s.secureQueue q = (s, 7) := by
  simp only [State.secureQueue, hq, hp, hs, Bool.not_true, Bool.not_false, Bool.false_eq_true, if_false, if_true]

theorem State.secureQueue_registers {r : Nat} (hs : p.secure = true)
    (hreg : s.register p.n (bitsNat (q.headD 0) 21 16) (q.getD 1 0).toNat true = (s', r)) :
    s.secureQueue q = (s', if r = 0 then 0 else 1) := by
  cases r with
  | zero => simp only [State.secureQueue, hq, hp, hs, hreg, Bool.not_true, Bool.false_eq_true, if_false, if_true]
  | succ k => simp only [State.secureQueue, hq, hp, hs, hreg, Bool.not_true, Bool.false_eq_true, if_false, Nat.succ_ne_zero]

end
end

/-! ### Zeroed regions, the patrol scrubber and the scan test (R374, R441, R444, R445) -/

/-- A place that a filter drops reads the default. -/
theorem Cells.get_filter_of_false {β : Type} (d : β) (p : Nat × β → Bool) (m : Cells β) {k : Nat} (h : ∀ v, p (k, v) = false) :
    Cells.get d (m.filter p) k = d := by
  induction m with
  | nil => rfl
  | cons c m ih =>
    obtain ⟨k', v⟩ := c
    rw [List.filter_cons]
    split
    next hp =>
      have hne : k' ≠ k := by rintro rfl; simp [h v] at hp
      rw [Cells.get, if_neg hne, ih]
    · exact ih

/-- The count of a die's corrected or uncorrectable lines rises. -/
def State.countPatrol (s : State) (line i : Nat) : State :=
  { s with patrol := Cells.set 0 s.patrol (2 * homeDie line + i) (Cells.get 0 s.patrol (2 * homeDie line + i) + 1) }

section
variable {s : State} {line : Nat} (hdev : onDevice line = true) (hrow : line % 2 ^ 30 < 60 * 2 ^ 24)
include hdev hrow

theorem patrolled : (!onDevice line || Decidable.decide (60 * 2 ^ 24 ≤ line % 2 ^ 30)) = false := by
  rw [hdev, decide_eq_false (Nat.not_le.2 hrow)]
  rfl

theorem exec_patrolScrub_poisoned (hp : line ∈ s.poison) : exec (.patrolScrub line) s = .next (s.countPatrol line 1) := by
  have hin : s.poison.contains line = true := by simpa using hp
  change execPatrolScrub line s = _
  simp only [execPatrolScrub, patrolled hdev hrow, Bool.false_eq_true, if_false, hin, if_true]
  rfl

section
variable (hp : line ∉ s.poison)
include hp

theorem exec_patrolScrub_clean (hu : Cells.get 0 s.upsets line = 0) : exec (.patrolScrub line) s = .next s := by
  have hout : s.poison.contains line = false := by simpa using hp
  change execPatrolScrub line s = _
  simp only [execPatrolScrub, patrolled hdev hrow, Bool.false_eq_true, if_false, hout, hu]

theorem exec_patrolScrub_corrects (hu : Cells.get 0 s.upsets line = 1) : exec (.patrolScrub line) s =
    .next (({ s with upsets := Cells.erase line s.upsets }.noteCorrected line).countPatrol line 0) := by
  have hout : s.poison.contains line = false := by simpa using hp
  change execPatrolScrub line s = _
  simp only [execPatrolScrub, patrolled hdev hrow, Bool.false_eq_true, if_false, hout, hu]
  rfl

theorem exec_patrolScrub_fails (hu : 2 ≤ Cells.get 0 s.upsets line) : exec (.patrolScrub line) s =
    .next (({ s with upsets := Cells.erase line s.upsets, poison := line :: s.poison }.listRow line).countPatrol line 1) := by
  have hout : s.poison.contains line = false := by simpa using hp
  obtain ⟨n, hn⟩ := Nat.exists_eq_add_of_le' hu
  change execPatrolScrub line s = _
  simp only [execPatrolScrub, patrolled hdev hrow, Bool.false_eq_true, if_false, hout, hn]
  rfl

end
end

section
variable {s : State} {core : Nat}

theorem exec_scanTestStart_starts (hcore : core < 256) (hin : core ∉ s.removed) (hidle : core ∉ s.scanning) (h : s.idleCore core = true) :
    exec (.scanTestStart core) s = .next { s with scanning := core :: s.scanning } := by
  change execScanTestStart core s = _
  simp [execScanTestStart, hcore, hin, hidle, h]

theorem exec_scanTestStart_ignored (h : 256 ≤ core ∨ core ∈ s.removed ∨ core ∈ s.scanning ∨ s.idleCore core = false) :
    exec (.scanTestStart core) s = .next s := by
  change execScanTestStart core s = _
  rcases h with h | h | h | h
  · simp [execScanTestStart, Nat.not_lt.2 h]
  · simp [execScanTestStart, h]
  · simp [execScanTestStart, h]
  · simp [execScanTestStart, h]

section
variable (hl1 : ∀ c ∈ s.l1, ¬(c.auth = true ∧ c.place = core)) (hpart : ∀ x ∈ s.partials, ¬(x.core = core ∧ x.slot = false))
include hl1 hpart

/-- A core whose L1 holds nothing alone is scrubbed: its copies and its manger go. -/
theorem State.scrubCore_clean : s.scrubCore core =
    { s with l1 := s.l1.filter (·.place != core), mangers := s.mangers.filter (·.core != core) } := by
  have hspill : s.l1.filter (fun c => c.auth && c.place == core) = [] := List.filter_eq_nil_iff.2 fun c hc => by simpa using hl1 c hc
  have hevict : s.partials.filter (fun x => x.core == core && !x.slot) = [] :=
    List.filter_eq_nil_iff.2 fun x hx => by simpa using hpart x hx
  simp only [State.scrubCore, hspill, hevict, List.foldl_nil]

theorem State.endScan_clean : s.endScan core = { s with l1 := s.l1.filter (·.place != core)
                                                        scanning := s.scanning.filter (· != core)
                                                        mangers := s.mangers.filter (·.core != core) } := by
  simp only [State.endScan, State.scrubCore_clean hl1 hpart]

end

theorem exec_scanTestComplete_idle (h : core ∉ s.scanning) (b : Bool) : exec (.scanTestComplete core b) s = .next s := by
  change execScanTestComplete core b s = _
  simp [execScanTestComplete, h]

theorem exec_scanTestComplete_passes (h : core ∈ s.scanning) : exec (.scanTestComplete core true) s = .next (s.endScan core) := by
  change execScanTestComplete core true s = _
  simp [execScanTestComplete, h]

theorem exec_scanTestComplete_fails {u : State} {p : Paddock} (h : core ∈ s.scanning) (hu : s.endScan core = u) (hp : u.padOf core = some p) :
    exec (.scanTestComplete core false) s = .next ({ u with removed := u.removed ++ [core] }.countErr p.n fun e =>
      { e with coresRemoved := min 0xFFFF (e.coresRemoved + 1) }) := by
  have hp' : State.padOf { u with removed := u.removed ++ [core] } core = some p := hp
  have hin : s.scanning.contains core = true := by simpa using h
  change execScanTestComplete core false s = _
  simp only [execScanTestComplete, hin, Bool.not_true, Bool.false_eq_true, if_false, hu, hp']

end

/-- Settles O55: the starts and the mailbox commands by what each answers, the scrubber and the scan test by their cases. -/
theorem deviceManagement : Obligations.DeviceManagement := by
  unfold Obligations.DeviceManagement
  refine ⟨fun _ _ => rfl, fun s bad => ⟨_, rfl, rfl, rfl, rfl, rfl, rfl⟩, fun _ _ => rfl, fun _ => rfl, fun s => ⟨fun h => ?_, fun h => ?_⟩,
    State.escalate_eq, fun s hr hq => ⟨?_, ?_⟩, fun s => ⟨rfl, rfl, rfl, rfl, rfl, rfl, rfl⟩,
    fun s line hdev hrow => ⟨exec_patrolScrub_poisoned hdev hrow, exec_patrolScrub_clean hdev hrow, exec_patrolScrub_corrects hdev hrow,
      exec_patrolScrub_fails hdev hrow⟩,
    fun s core => ⟨exec_scanTestStart_starts, exec_scanTestStart_ignored, fun hin hl1 hpart => ⟨?_, fun p hp => ?_⟩, exec_scanTestComplete_idle⟩,
    fun s hr => ⟨fun h => ?_, fun p h => ⟨fun hres => ?_, fun hres => ?_⟩⟩,
    fun s hr hq => ⟨fun hp => ?_, fun p hp => ⟨fun h => ?_, fun hsaved hreset hidle => ?_⟩⟩,
    fun s rs a ha => Cells.get_filter_of_false 0 _ _ fun v => by simp [ha],
    fun s hr hq p hp => ⟨fun hs => ?_, fun hs s' r hreg => ?_⟩, fun s hr hq => ?_, fun s hr hq => ⟨fun hf => ?_, fun hf => ?_⟩,
    fun s h i hi => ?_⟩
  · rw [exec_pf0Flr, h]; rfl
  · rw [exec_pf0Flr, h]; rfl
  · exact congrArg Host.Outcome.next (State.mailboxCmd_runs hr (by rw [if_pos hq]; rfl))
  · exact congrArg Host.Outcome.next (State.mailboxCmd_runs hr (by rw [if_pos hq]; rfl))
  · rw [exec_scanTestComplete_passes hin, State.endScan_clean hl1 hpart]
  · exact exec_scanTestComplete_fails hin (State.endScan_clean hl1 hpart) hp
  · exact congrArg Host.Outcome.next (State.mailboxCmd_runs hr (State.createPad_malformed h))
  · exact congrArg Host.Outcome.next (State.mailboxCmd_runs hr (State.createPad_refused h hres))
  · exact congrArg Host.Outcome.next (State.mailboxCmd_runs hr (State.createPad_created h hres))
  · exact congrArg Host.Outcome.next (State.mailboxCmd_runs hr (State.destroyPad_absent hq hp))
  · exact congrArg Host.Outcome.next (State.mailboxCmd_runs hr ((State.destroyPad_some hq hp).trans (if_pos h)))
  · exact congrArg Host.Outcome.next (State.mailboxCmd_runs hr ((State.destroyPad_some hq hp).trans (if_neg (by simp [hsaved, hreset, hidle]))))
  · exact congrArg Host.Outcome.next (State.mailboxCmd_runs hr (State.secureQueue_insecure hq hp hs))
  · exact congrArg Host.Outcome.next (State.mailboxCmd_runs hr (State.secureQueue_registers hq hp hs hreg))
  · exact congrArg Host.Outcome.next (State.mailboxCmd_runs hr (by rw [State.attest, hq]; rfl))
  · exact congrArg Host.Outcome.next (State.mailboxCmd_runs hr (by rw [State.readInfo, hq, hf]; rfl))
  · exact congrArg Host.Outcome.next (State.mailboxCmd_runs hr (by rw [State.readInfo, hq, hf]; rfl))
  · simp only [List.mem_cons, List.not_mem_nil, or_false] at hi
    rcases hi with rfl | rfl | rfl | rfl | rfl | rfl | rfl
    all_goals exact congrArg Host.Outcome.next (State.mailboxCmd_idle h)

end Sys2Proof.Machine
end


section
/-! PROOFS. Troop collectives gather their lanes, mismatch, or trap; RSTAT (O47). -/

namespace Sys2Proof.Machine

open Sys2Proof.Claims

/-! ### Trap mode (R393, R409) -/

/-- The check of a collective and of RSTAT: they are illegal in trap mode. -/
def outsideTraps (c : Cur) (_ : Str) (_ : Troop) : Bool := !c.trap

section
variable {i : Instr} {body : State → Cur → Str → Troop → State} (hx : ∀ s, exec i s = s.issue i outsideTraps (body s))
include hx

theorem raises_in_trap {s : State} {c : Cur} {z : Str} {t : Troop} (h : Issues s i c z t) (ht : c.trap = true) :
    exec i s = .next (s.raise c .illegalInstruction) := by
  rw [hx, State.issue_illegal h.cur h.str h.troop outsideTraps (body s) (by simp [outsideTraps, ht])]

theorem issues_outsideTraps {s : State} {c : Cur} {z : Str} {t : Troop} (h : Issues s i c z t) (ht : c.trap = false) :
    exec i s = .next ((body s c z t).settleOverflow t.tid) := by
  rw [hx, State.issue_next h outsideTraps (body s) (by simp [outsideTraps, ht])]

end

/-! ### An arrival (R409) -/

/-- The arrivals of a bundle. -/
def newArrivals (c : Cur) (k : Coll) (arg target : Dword) (limit : Nat) : List Arrival := (lanesOf c.bundle).map fun l =>
  { sid := c.sid, lane := l, coll := k, pc := c.pc, next := c.next, arg := arg, target := target, limit := limit }

/-- Every arrival so far belongs to the collective that the bundle names. -/
def Joins (k : Coll) (c : Cur) (t : Troop) : Prop := ∀ a ∈ t.arrivals, t.matchesColl a k c.pc = true

def Mismatches (k : Coll) (c : Cur) (t : Troop) : Prop := ∃ a ∈ t.arrivals, t.matchesColl a k c.pc = false

section
variable {s : State} {c : Cur} {z : Str} {t : Troop} {k : Coll}

theorem Joins.any_eq (h : Joins k c t) : (t.arrivals.any fun a => !t.matchesColl a k c.pc) = false := by
  simpa [List.any_eq_false, Joins] using h

theorem Mismatches.any_eq (h : Mismatches k c t) : (t.arrivals.any fun a => !t.matchesColl a k c.pc) = true := by
  obtain ⟨a, ha, hm⟩ := h
  exact List.any_eq_true.2 ⟨a, ha, by rw [hm]; rfl⟩

theorem State.atColl_joins (h : Joins k c t) (go : State) : s.atColl c t k go = go := by
  rw [State.atColl, h.any_eq, Bool.and_false, if_neg Bool.false_ne_true]

theorem State.atColl_mismatches (hd : t.depth = 0) (h : Mismatches k c t) (go : State) :
    s.atColl c t k go = s.trapAll c t .illegalInstruction := by
  rw [State.atColl, h.any_eq, hd]; rfl

theorem State.atColl_inside (hd : t.depth ≠ 0) (go : State) : s.atColl c t k go = go := by
  rw [State.atColl, decide_eq_false hd, Bool.false_and, if_neg Bool.false_ne_true]

theorem State.arriveColl_mismatches_inside (hd : t.depth ≠ 0) (h : Mismatches k c t) (arg target : Dword) (limit : Nat) :
    s.arriveColl c t k arg target limit = s.fail t.tid t.depth 6 0 := by
  rw [State.arriveColl, State.atColl_inside hd, h.any_eq, if_pos rfl]

theorem State.arriveColl_mismatches_outside (hd : t.depth = 0) (h : Mismatches k c t) (arg target : Dword) (limit : Nat) :
    s.arriveColl c t k arg target limit = s.trapAll c t .illegalInstruction := State.atColl_mismatches hd h _

/-- The bundle parks and its arrivals join, and the collective takes its step. -/
theorem State.arriveColl_joins (hz : s.str? c.sid = some z) (h : Joins k c t) (arg target : Dword) (limit : Nat) :
    s.arriveColl c t k arg target limit =
      (((s.updStr c.sid fun _ => z.mapLanes c.bundle fun x => { x with park := .collective }).updTroop t.tid fun t =>
        { t with arrivals := t.arrivals ++ newArrivals c k arg target limit }).advance t.tid) := by
  rw [State.arriveColl, State.atColl_joins h, h.any_eq, if_neg Bool.false_ne_true, State.park, State.updStr_const hz]
  rfl

/-- A collective with lanes missing waits. -/
theorem State.advance_waits {tid : Nat} (ht : s.troop? tid = some t) (h : s.collDone t = false) : s.advance tid = s := by
  cases ha : t.arrivals with
  | nil => exact State.advance_idle ht ha
  | cons a as => simp only [State.advance, ht, ha, h, Bool.not_false, if_true]

end

/-! ### What a bundle that arrives does, whichever collective it names -/

/-- The arrival of a bundle at a collective, under the instruction's own condition. -/
def Arrives (i : Instr) (k : Coll) (own : State → Cur → Str → Troop → Prop) (arg target : Cur → Str → Dword) (limit : Nat) : Prop :=
  (∀ s c z t, Issues s i c z t → t.overflow = false → c.trap = false → own s c z t → Joins k c t →
    let new := newArrivals c k (arg c z) (target c z) limit
    ∃ z', z' = { z with lanes := z'.lanes } ∧ (Lanes z z' fun l x => if c.bundle.getLsbD l then { x with park := .collective } else x) ∧
      let u := (s.updStr c.sid fun _ => z').updTroop t.tid fun t => { t with arrivals := t.arrivals ++ new }
      exec i s = .next ((u.advance t.tid).settleOverflow t.tid) ∧
      (u.collDone { t with arrivals := t.arrivals ++ new } = false → exec i s = .next u)) ∧
  (∀ s c z t, Issues s i c z t → c.trap = false → own s c z t → t.depth ≠ 0 → Mismatches k c t →
    exec i s = .next ((s.fail t.tid t.depth 6 0).settleOverflow t.tid)) ∧
  ∀ s c z t, Issues s i c z t → c.trap = true → exec i s = .next (s.raise c .illegalInstruction)

section
variable {i : Instr} {k : Coll} {own : State → Cur → Str → Troop → Prop} {arg target : Cur → Str → Dword} {limit : Nat}
  {body : State → Cur → Str → Troop → State} (hx : ∀ s, exec i s = s.issue i outsideTraps (body s))
include hx

/-- A collective whose effect, where it may stand, is an arrival. -/
theorem Arrives.of (hb : ∀ s c z t, own s c z t → t.depth ≠ 0 ∨ Joins k c t →
    body s c z t = s.arriveColl c t k (arg c z) (target c z) limit) : Arrives i k own arg target limit := by
  refine ⟨fun s c z t h ho htr hown hj => ?_, fun s c z t h htr hown hd hm => ?_, fun s c z t h htr => raises_in_trap hx h htr⟩
  · have he : exec i s = _ := issues_outsideTraps hx h htr
    rw [hb s c z t hown (.inr hj), State.arriveColl_joins h.str hj] at he
    refine ⟨_, rfl, z.lanes_mapLanes c.bundle _, he, fun hmiss => ?_⟩
    have ht := State.troop?_updTroop (s := s.updStr c.sid fun _ => z.mapLanes c.bundle fun x => { x with park := .collective })
      (t := t) (tid := t.tid) (show s.troop? t.tid = some t from issues_tid h) (fun t =>
        { t with arrivals := t.arrivals ++ newArrivals c k (arg c z) (target c z) limit }) rfl
    rw [he, State.advance_waits ht hmiss, State.settleOverflow_self ht ho]
  · rw [issues_outsideTraps hx h htr, hb s c z t hown (.inl hd), State.arriveColl_mismatches_inside hd hm]

theorem mismatch_traps {s : State} {c : Cur} {z : Str} {t : Troop} (h : Issues s i c z t) (htr : c.trap = false)
    (hb : body s c z t = s.trapAll c t .illegalInstruction) :
    exec i s = .next ((s.trapAll c t .illegalInstruction).settleOverflow t.tid) := by
  rw [issues_outsideTraps hx h htr, hb]

end

/-! ### Traps with no lane arrived -/

section
variable {s : State} {c : Cur} {z : Str} {t : Troop}

theorem State.dropArrivals_none {tid : Nat} (h : s.troop? tid = some t) (ha : t.arrivals = []) (hj : t.joining = none) :
    s.dropArrivals tid = s := by
  have ht : ({ t with arrivals := [], joining := none } : Troop) = t := by rw [← ha, ← hj]
  rw [State.dropArrivals, State.updTroop_const h]
  exact (congrArg (fun x => s.updTroop tid fun _ => x) ht).trans (State.updTroop_self h)

/-- With no lane arrived nobody traps. -/
theorem State.trapArrived_none (h : s.troop? t.tid = some t) (ha : t.arrivals = []) (hj : t.joining = none) (cause : Cause) :
    s.trapArrived t cause = s := by
  rw [State.trapArrived, State.dropArrivals_none h ha hj, ha]
  exact List.foldl_fixed' (fun _ => rfl) _

/-- With no lane arrived only the bundle that issues traps. -/
theorem State.trapAll_none {cause : Cause} {z' : Str} (h : s.troop? t.tid = some t)
    (he : s.raise c cause = s.updStr c.sid fun _ => z') (ha : t.arrivals = []) (hj : t.joining = none) :
    s.trapAll c t cause = s.updStr c.sid fun _ => z' := by
  rw [State.trapAll, he]
  exact State.trapArrived_none (s := s.updStr c.sid fun _ => z') h ha hj cause

/-- With no troop at a TJOIN nobody else is refused. -/
theorem State.trapWaiting_none (h : ∀ u ∈ s.troops, u.joining = none) (mask : Nat) : s.trapWaiting t mask = s := by
  rw [State.trapWaiting, List.filter_eq_nil_iff.2]
  · rfl
  · intro u hu
    simp [h u hu]

end

section
variable {i : Instr} {body : State → Cur → Str → Troop → State} {pre : State → Cur → Str → Troop → Prop} {cause : Cause}
  (hx : ∀ s, exec i s = s.issue i outsideTraps (body s))
include hx

/-- A collective that traps before any lane has arrived at one. -/
theorem Traps.of_trapAll (hb : ∀ s c z t, pre s c z t → c.trap = false ∧ t.arrivals = [] ∧ t.joining = none ∧
      ∀ z', s.trapAll c t cause = (s.updStr c.sid fun _ => z') → body s c z t = s.updStr c.sid fun _ => z') :
    Traps i pre cause := by
  intro s c z t h ho hd hp
  obtain ⟨htr, ha, hj, he⟩ := hb s c z t hp
  obtain ⟨z', e, k⟩ := State.raise_delivers h.str h.troop hd
  exact ⟨z', exec_of_effect (hx s) h ho (by simp [outsideTraps, htr]) (he z' (State.trapAll_none (issues_tid h) e ha hj)) rfl, k⟩

/-- A collective that its own check refuses. -/
theorem Traps.of_refused (hb : ∀ s c z t, pre s c z t → c.trap = false ∧ body s c z t = s.raise c cause) : Traps i pre cause :=
  Traps.of_effect hx fun s c z t hp => ⟨by simp [outsideTraps, (hb s c z t hp).1], (hb s c z t hp).2⟩

end

/-! ### The collectives (R408 to R415, R429, R431) -/

section
variable (o : Operands) (s : State)

theorem exec_ensure : exec (.ensure o) s = s.issue (.ensure o) outsideTraps fun c _ t =>
    s.arriveColl c t .ensure 0 (testTarget c.pc o.lit) o.imm.toNat := rfl

theorem exec_elseby : exec (.elseby o) s = s.issue (.elseby o) outsideTraps fun c _ t => s.arriveInBlock c t .elseby := rfl

theorem exec_elseerr : exec (.elseerr o) s = s.issue (.elseerr o) outsideTraps fun c _ t => s.arriveInBlock c t .elseerr := rfl

theorem exec_accept : exec (.accept o) s = s.issue (.accept o) outsideTraps fun c _ t => s.arriveInBlock c t .accept := rfl

theorem exec_reject : exec (.reject o) s = s.issue (.reject o) outsideTraps fun c _ t => s.arriveInBlock c t .reject := rfl

/-- What a TJOIN does outside trap mode. -/
def State.tjoinBody (o : Operands) (s : State) (c : Cur) (z : Str) (t : Troop) : State :=
  let x := z.sreg o.a.toNat
  if t.depth != 0 then s.raise c .recoveryEscape
  else if t.arrivals.all (fun a => t.matchesColl a .tjoin c.pc) && (!s.maskOk t x || t.arrivals.any fun a => a.arg != x) then
    (s.trapAll c t .bounds).trapWaiting t x.toNat
  else s.arriveColl c t .tjoin x 0 0

theorem exec_tjoin : exec (.tjoin o) s = s.issue (.tjoin o) outsideTraps (s.tjoinBody o) := rfl

/-- What a TLEAVE does outside trap mode. -/
def State.tleaveBody (s : State) (c : Cur) (_ : Str) (t : Troop) : State :=
  if t.depth != 0 then s.raise c .recoveryEscape
  else s.atColl c t .tleave <| if t.tandem.isNone then s.raise c .bounds else s.arriveColl c t .tleave 0 0 0

theorem exec_tleave : exec (.tleave o) s = s.issue (.tleave o) outsideTraps s.tleaveBody := rfl

/-- What RSTAT does outside trap mode. -/
def State.rstatBody (o : Operands) (s : State) (c : Cur) (z : Str) (t : Troop) : State :=
  if c.parts = 0 then s
  else
    ((s.putScalar c z o.d (BitVec.ofNat 64 (t.depth * 2 ^ 40 + s.tmask t * 2 ^ 32 + rcvStat z t))).updTroop t.tid fun t =>
      { t with conflicts := 0 }).updStr c.sid fun z => { z with aborted := false, fkind := 0, fcause := 0 }

theorem exec_rstat : exec (.rstat o) s = s.issue (.rstat o) outsideTraps (s.rstatBody o) := rfl

end

section
variable {o : Operands} {s : State} {c : Cur} {z : Str} {t : Troop} {k : Coll}

theorem State.arriveInBlock_inside (hd : t.depth ≠ 0) : s.arriveInBlock c t k = s.arriveColl c t k 0 0 0 := if_neg hd

theorem State.arriveInBlock_outside (hd : t.depth = 0) : s.arriveInBlock c t k = s.trapAll c t .illegalInstruction := if_pos hd

theorem State.tjoinBody_inside (hd : t.depth ≠ 0) : s.tjoinBody o c z t = s.raise c .recoveryEscape := by
  simp only [State.tjoinBody, bne_iff_ne, ne_eq, hd, not_false_eq_true, if_true]

theorem State.tjoinBody_arrives (hd : t.depth = 0) (hm : s.maskOk t (z.sreg o.a.toNat) = true)
    (ha : ∀ a ∈ t.arrivals, a.arg = z.sreg o.a.toNat) :
    s.tjoinBody o c z t = s.arriveColl c t .tjoin (z.sreg o.a.toNat) 0 0 := by
  have hany : (t.arrivals.any fun a => a.arg != z.sreg o.a.toNat) = false := by simpa [List.any_eq_false] using ha
  simp only [State.tjoinBody, hd, bne_self_eq_false, Bool.false_eq_true, if_false, hm, hany, Bool.not_true, Bool.or_self,
    Bool.and_false]

theorem State.tjoinBody_mismatches (hd : t.depth = 0) (hm : Mismatches .tjoin c t) :
    s.tjoinBody o c z t = s.trapAll c t .illegalInstruction := by
  have hall : (t.arrivals.all fun a => t.matchesColl a .tjoin c.pc) = false := by
    obtain ⟨a, ha, h⟩ := hm
    exact List.all_eq_false.2 ⟨a, ha, by simp [h]⟩
  simp only [State.tjoinBody, hd, bne_self_eq_false, Bool.false_eq_true, if_false, hall, Bool.false_and,
    State.arriveColl_mismatches_outside hd hm]

theorem State.tjoinBody_refused (hd : t.depth = 0) (hj : Joins .tjoin c t)
    (hm : s.maskOk t (z.sreg o.a.toNat) = false ∨ ∃ a ∈ t.arrivals, a.arg ≠ z.sreg o.a.toNat) :
    s.tjoinBody o c z t = (s.trapAll c t .bounds).trapWaiting t (z.sreg o.a.toNat).toNat := by
  have hall : (t.arrivals.all fun a => t.matchesColl a .tjoin c.pc) = true := List.all_eq_true.2 hj
  have hbad : (!s.maskOk t (z.sreg o.a.toNat) || t.arrivals.any fun a => a.arg != z.sreg o.a.toNat) = true := by
    simpa [List.any_eq_true] using hm
  simp only [State.tjoinBody, hd, bne_self_eq_false, Bool.false_eq_true, if_false, hall, hbad, Bool.and_self, if_true]

theorem State.tleaveBody_inside (hd : t.depth ≠ 0) : s.tleaveBody c z t = s.raise c .recoveryEscape := by
  simp only [State.tleaveBody, bne_iff_ne, ne_eq, hd, not_false_eq_true, if_true]

theorem State.tleaveBody_outside (hd : t.depth = 0) : s.tleaveBody c z t = s.atColl c t .tleave
    (if t.tandem.isNone then s.raise c .bounds else s.arriveColl c t .tleave 0 0 0) := by
  simp only [State.tleaveBody, hd, bne_self_eq_false, Bool.false_eq_true, if_false]

theorem State.tleaveBody_alone (hd : t.depth = 0) (hj : Joins .tleave c t) (hn : t.tandem = none) :
    s.tleaveBody c z t = s.raise c .bounds := by
  rw [State.tleaveBody_outside hd, State.atColl_joins hj, hn]; rfl

theorem State.tleaveBody_arrives (hd : t.depth = 0) (hj : Joins .tleave c t) (hn : t.tandem ≠ none) :
    s.tleaveBody c z t = s.arriveColl c t .tleave 0 0 0 := by
  rw [State.tleaveBody_outside hd, State.atColl_joins hj, if_neg (by simpa using hn)]

end

/-! ### Markers and decisions outside blocks -/

section
variable {i : Instr} {k : Coll} (hx : ∀ s, exec i s = s.issue i outsideTraps fun c _ t => s.arriveInBlock c t k)
include hx

/-- A marker or a decision arrives inside a block. -/
theorem Arrives.of_inBlock : Arrives i k (fun _ _ _ t => t.depth ≠ 0) (fun _ _ => 0) (fun _ _ => 0) 0 :=
  Arrives.of hx fun _ _ _ _ hd _ => State.arriveInBlock_inside hd

/-- Outside blocks every lane that has arrived traps with it. -/
theorem shut_traps {s : State} {c : Cur} {z : Str} {t : Troop} (h : Issues s i c z t) (htr : c.trap = false) (hd : t.depth = 0) :
    exec i s = .next ((s.trapAll c t .illegalInstruction).settleOverflow t.tid) :=
  mismatch_traps hx h htr (State.arriveInBlock_outside hd)

theorem Traps.of_shut : Traps i (fun _ c _ t => c.trap = false ∧ t.depth = 0 ∧ t.arrivals = [] ∧ t.joining = none)
    .illegalInstruction :=
  Traps.of_trapAll hx fun _ _ _ _ ⟨htr, hd, ha, hj⟩ => ⟨htr, ha, hj, fun _ e => (State.arriveInBlock_outside hd).trans e⟩

end

/-! ### The test address of ENSURE (R46, R408) -/

theorem canonical_dwordOf (p : Addr) : canonical (dwordOf p) = true := by
  have hp := p.isLt
  rcases Nat.lt_or_ge p.toNat (2 ^ 55) with h | h
  · have he : (dwordOf p).toNat = p.toNat := by
      have hm : p.msb = false := by rw [BitVec.msb_eq_decide]; simpa using h
      simp [dwordOf, BitVec.toNat_signExtend, BitVec.toNat_setWidth, hm]
      omega
    simp only [canonical, bitsNat, he, Nat.shiftRight_eq_div_pow, Bool.or_eq_true, beq_iff_eq]
    omega
  · have he : (dwordOf p).toNat = p.toNat + (2 ^ 64 - 2 ^ 56) := by
      have hm : p.msb = true := by rw [BitVec.msb_eq_decide]; simpa using h
      simp [dwordOf, BitVec.toNat_signExtend, BitVec.toNat_setWidth, hm]
      omega
    simp only [canonical, bitsNat, he, Nat.shiftRight_eq_div_pow, Bool.or_eq_true, beq_iff_eq]
    omega

section
variable {pc : Addr} {off : Dword}

theorem testTarget_inside (h : 0 ≤ (pc.toNat : Int) + 4 * off.toInt ∧ (pc.toNat : Int) + 4 * off.toInt ≤ 2 ^ 56 - 4) :
    testTarget pc off = dwordOf (BitVec.ofInt 56 (pc.toNat + 4 * off.toInt)) := by
  rw [testTarget, branchTarget_inside h]

theorem testTarget_outside (h : ¬(0 ≤ (pc.toNat : Int) + 4 * off.toInt ∧ (pc.toNat : Int) + 4 * off.toInt ≤ 2 ^ 56 - 4)) :
    canonical (testTarget pc off) = false := by
  rw [testTarget, branchTarget_outside h]
  decide

theorem canonical_testTarget : canonical (testTarget pc off) = true ↔
    0 ≤ (pc.toNat : Int) + 4 * off.toInt ∧ (pc.toNat : Int) + 4 * off.toInt ≤ 2 ^ 56 - 4 := by
  refine ⟨fun h => ?_, fun h => by rw [testTarget_inside h, canonical_dwordOf]⟩
  by_contra hout
  rw [testTarget_outside hout] at h
  exact Bool.false_ne_true h

end

/-! ### RSTAT (R426) -/

/-- With room in the saddlebag RSTAT writes its destination and clears what it has read. -/
theorem State.rstatBody_room {o : Operands} {s : State} {c : Cur} {z : Str} {t : Troop} (hz : s.str? c.sid = some z)
    (ht : s.troop? z.tid = some t) (hr : Room z t 1) (hp : c.parts ≠ 0) :
    ∃ z', s.rstatBody o c z t = ((s.updTroop t.tid fun t => { t with conflicts := 0 }).updStr c.sid fun _ => z') ∧
      z' = { z with s := z'.s, bag := z'.bag, aborted := false, fkind := 0, fcause := 0 } ∧ (t.depth = 0 → z'.bag = z.bag) ∧
      ∀ n, z'.sreg n = if n = o.d.toNat then BitVec.ofNat 64 (t.depth * 2 ^ 40 + s.tmask t * 2 ^ 32 + rcvStat z t) else z.sreg n := by
  obtain ⟨z₁, e, only, hbag, -, v⟩ := State.writeS_room (k := 0) (n := o.d.toNat) (d := s.depthOf z)
    (x := BitVec.ofNat 64 (t.depth * 2 ^ 40 + s.tmask t * 2 ^ 32 + rcvStat z t)) hz ht hr
  refine ⟨{ z₁ with aborted := false, fkind := 0, fcause := 0 }, ?_, ?_, hbag, v⟩
  · rw [State.rstatBody, if_neg hp, State.putScalar, if_neg hp, e]
    exact State.updStr_updStr (s := s.updTroop t.tid fun t => { t with conflicts := 0 }) hz (fun _ => z₁) _ (by rw [only])
  · rw [only]

/-- Settles O47: an arrival by `Arrives.of`, a refusal by what a trap leaves when no other lane has arrived. -/
theorem collectivesGather : Obligations.CollectivesGather := by
  unfold Obligations.CollectivesGather
  refine ⟨fun o => Arrives.of (exec_ensure o) fun _ _ _ _ _ _ => rfl, fun c o => ⟨testTarget_inside, canonical_testTarget⟩,
    fun o s c z t h htr hd hm => mismatch_traps (exec_ensure o) h htr (State.arriveColl_mismatches_outside hd hm _ _ _),
    fun o s c z t h htr hd hm => mismatch_traps (exec_tjoin o) h htr (State.tjoinBody_mismatches hd hm),
    fun o s c z t h htr hd hm => mismatch_traps (exec_tleave o) h htr
      ((State.tleaveBody_outside hd).trans (State.atColl_mismatches hd hm _)),
    fun o => Arrives.of_inBlock (exec_elseby o), fun o => ⟨fun s c z t => shut_traps (exec_elseby o), Traps.of_shut (exec_elseby o)⟩,
    fun o => Arrives.of_inBlock (exec_elseerr o), fun o => ⟨fun s c z t => shut_traps (exec_elseerr o), Traps.of_shut (exec_elseerr o)⟩,
    fun o => Arrives.of_inBlock (exec_accept o), fun o => ⟨fun s c z t => shut_traps (exec_accept o), Traps.of_shut (exec_accept o)⟩,
    fun o => Arrives.of_inBlock (exec_reject o), fun o => ⟨fun s c z t => shut_traps (exec_reject o), Traps.of_shut (exec_reject o)⟩,
    fun o => Arrives.of (exec_tjoin o) fun s c z t ⟨hd, hm, ha⟩ _ => State.tjoinBody_arrives hd hm ha,
    fun o => Traps.of_refused (exec_tjoin o) fun s c z t ⟨htr, hd⟩ => ⟨htr, State.tjoinBody_inside hd⟩, ?_,
    fun o s c z t h htr hd hj hm => by
      rw [issues_outsideTraps (exec_tjoin o) h htr, State.tjoinBody_refused hd hj hm],
    fun o => Arrives.of (exec_tleave o) fun s c z t ⟨hd, hn⟩ hj => State.tleaveBody_arrives hd (hj.resolve_left (absurd hd)) hn,
    fun o => Traps.of_refused (exec_tleave o) fun s c z t ⟨htr, hd⟩ => ⟨htr, State.tleaveBody_inside hd⟩,
    fun o => Traps.of_refused (exec_tleave o) fun s c z t ⟨htr, hd, hj, hn⟩ => ⟨htr, State.tleaveBody_alone hd hj hn⟩,
    fun o s c z t h htr => raises_in_trap (exec_rstat o) h htr,
    fun o => Completes.of_idle (exec_rstat o) fun s c z t ⟨htr, hp⟩ => ⟨by simp [outsideTraps, htr], if_pos hp⟩, ?_⟩
  · refine fun o => Traps.of_trapAll (exec_tjoin o) fun s c z t ⟨htr, hd, ha, hj, hm, hnone⟩ => ⟨htr, ha, hj, fun z' e => ?_⟩
    rw [State.tjoinBody_refused hd (by simp [Joins, ha]) (.inl hm), e]
    exact State.trapWaiting_none (s := s.updStr c.sid fun _ => z') hnone _
  · intro o s c z t h hr htr hp
    obtain ⟨z', e, only, hbag, v⟩ := State.rstatBody_room (o := o) h.str h.troop hr hp
    refine ⟨z', ?_, only, hbag, v⟩
    have ht := State.troop?_updTroop (issues_tid h) (fun t => { t with conflicts := 0 }) rfl
    rw [issues_outsideTraps (exec_rstat o) h htr, e,
      State.settleOverflow_self (s := (s.updTroop t.tid fun t => { t with conflicts := 0 }).updStr c.sid fun _ => z') ht hr.1]

end Sys2Proof.Machine
end


section
/-! PROOFS. What a complete collective does, cycle limits, and the comparison of redundant copies (O48). -/

namespace Sys2Proof.Machine

/-! ### TEST_DRAIN_COMPLETE (R412) -/

section
variable {s : State} {tid : Nat} {t : Troop} {a : Arrival} {as : List Arrival}

/-- What a complete collective does, by the arrival that it names. -/
def State.collStep (s : State) (t : Troop) (a : Arrival) : State :=
  match a.coll with
  | .ensure => s.stepEnsure t a
  | .elseby | .elseerr => s.stepMarker t a
  | .accept | .reject => s.stepDecide t a
  | .tjoin => s.stepJoin t a
  | .tleave => (s.leaveTandem t).leaveColl t.tid

theorem exec_testDrainComplete_waits (ht : s.troop? tid = some t) (hf : t.failing = none)
    (h : t.arrivals = [] ∨ s.collDone t = false ∨ s.haltedCore t.core = true) : exec (.testDrainComplete tid) s = .next s := by
  change execTestDrainComplete tid s = _
  simp only [execTestDrainComplete, ht, hf]
  rcases h with h | h | h
  · rw [State.advance_idle ht h, ite_self]
  · cases ha : t.arrivals with
    | nil => rw [State.advance_idle ht ha, ite_self]
    | cons a as => simp only [State.advance, ht, ha, h, Bool.not_false, if_true, ite_self]
  · rw [if_pos h]

theorem exec_testDrainComplete_steps (ht : s.troop? tid = some t) (hf : t.failing = none) (ha : t.arrivals = a :: as)
    (hd : s.collDone t = true) (hh : s.haltedCore t.core = false) :
    exec (.testDrainComplete tid) s = .next (s.collStep t a) := by
  change execTestDrainComplete tid s = _
  obtain rfl := State.troop_tid ht
  simp only [execTestDrainComplete, ht, hf, hh, Bool.false_eq_true, if_false, State.advance, ha, hd, Bool.not_true]
  rfl

end

/-! ### ENSURE (R410, R430) -/

section
variable {s s' : State} {t : Troop} {a : Arrival} {alts : List Addr} {e : Addr}

theorem State.stepEnsure_deep (hd : t.depth = 4) : s.stepEnsure t a = s.trapArrived t .recoveryDepth := if_pos hd

theorem State.stepEnsure_illegal (hd : t.depth ≠ 4) (h : s.scanEnsure t a = (s', .illegal)) :
    s.stepEnsure t a = s'.ensureFault t .illegalInstruction := by
  simp only [State.stepEnsure, if_neg hd, h]

theorem State.stepEnsure_refused {c : Cause} (hd : t.depth ≠ 4) (h : s.scanEnsure t a = (s', .refused c)) :
    s.stepEnsure t a = s'.ensureFault t c := by
  simp only [State.stepEnsure, if_neg hd, h]

theorem State.stepEnsure_noncanonical (hd : t.depth ≠ 4) (h : s.scanEnsure t a = (s', .ok alts e))
    (hc : canonical a.target = false) : s.stepEnsure t a = s'.ensureFault t .noncanonical := by
  simp only [State.stepEnsure, if_neg hd, h, hc, Bool.not_false, if_true]

theorem State.stepEnsure_opens (hd : t.depth ≠ 4) (h : s.scanEnsure t a = (s', .ok alts e)) (hc : canonical a.target = true)
    (hn : t.tandem = none) : s.stepEnsure t a = s'.openBlock t.tid a alts e := by
  simp only [State.stepEnsure, if_neg hd, h, hc, Bool.not_true, Bool.false_eq_true, if_false, hn, Option.isNone_none, if_true]

/-- A scan that fails, or finds its test address outside the address space. -/
theorem State.stepEnsure_fault {f : Cause} (hd : t.depth ≠ 4)
    (h : (s.scanEnsure t a = (s', .illegal) ∧ f = .illegalInstruction) ∨ s.scanEnsure t a = (s', .refused f) ∨
      ((∃ alts e, s.scanEnsure t a = (s', .ok alts e)) ∧ canonical a.target = false ∧ f = .noncanonical)) :
    s.stepEnsure t a = s'.ensureFault t f := by
  rcases h with ⟨h, rfl⟩ | h | ⟨⟨alts, e, h⟩, hc, rfl⟩
  · exact State.stepEnsure_illegal hd h
  · exact State.stepEnsure_refused hd h
  · exact State.stepEnsure_noncanonical hd h hc

/-- In a tandem the scan of a member has yet to succeed. -/
theorem State.stepEnsure_waits {s'' : State} (hd : t.depth ≠ 4) (h : s.scanEnsure t a = (s', .ok alts e))
    (hc : canonical a.target = true) (hn : t.tandem ≠ none) (hr : s'.scanAll (s'.members t) = (s'', none)) :
    s.stepEnsure t a = s'' := by
  have hn' : t.tandem.isNone = false := Option.isNone_eq_false_iff.2 (Option.isSome_iff_ne_none.2 hn)
  simp only [State.stepEnsure, if_neg hd, h, hc, Bool.not_true, Bool.false_eq_true, if_false, hn', hr]

/-- In a tandem the numbers of alternates that the members have found decide. -/
theorem State.stepEnsure_scanned {s'' : State} {rs : List (Nat × Arrival × List Addr × Addr)} (hd : t.depth ≠ 4)
    (h : s.scanEnsure t a = (s', .ok alts e)) (hc : canonical a.target = true) (hn : t.tandem ≠ none)
    (hr : s'.scanAll (s'.members t) = (s'', some rs)) :
    s.stepEnsure t a =
      if ∀ r ∈ rs, r.2.2.1.length = alts.length then rs.foldl (fun s r => s.openBlock r.1 r.2.1 r.2.2.1 r.2.2.2) s''
      else if t.depth = 0 then (s'.members t).foldl (fun s m => s.trapArrived m .illegalInstruction) s''
      else s''.noteFail t.tid { depth := t.depth, kind := 6, cause := 0, each := true } := by
  have hn' : t.tandem.isNone = false := Option.isNone_eq_false_iff.2 (Option.isSome_iff_ne_none.2 hn)
  simp only [State.stepEnsure, if_neg hd, h, hc, Bool.not_true, Bool.false_eq_true, if_false, hn', hr, List.all_eq_true, beq_iff_eq]

end

/-! ### The drain leaves the troops (R412) -/

theorem State.takeFlags_troops (s : State) (wait : Nat) : (s.takeFlags wait).troops = s.troops :=
  List.foldlRecOn (motive := fun u : State => u.troops = s.troops) _ _ rfl fun _ ih _ _ => ih

theorem State.takeTroopFlags_troops (s : State) (tid : Nat) : (s.takeTroopFlags tid).troops = s.troops :=
  List.foldlRecOn (motive := fun u : State => u.troops = s.troops) _ _ rfl fun _ ih _ _ => (State.takeFlags_troops _ _).trans ih

theorem State.troop?_takeTroopFlags (s : State) (tid i : Nat) : (s.takeTroopFlags tid).troop? i = s.troop? i := by
  rw [State.troop?, State.takeTroopFlags_troops]; rfl

/-! ### Markers (R411, R412) -/

/-- The blocks of a troop whose innermost one enters its test. -/
def Troop.blocksTested (t : Troop) : List RBlock :=
  updAt (fun (b : RBlock) => { b with draining := none, inTest := true }) t.blocks (t.depth - 1)

section
variable {s : State} {t : Troop} {a : Arrival} {b : RBlock} (hb : t.blocks.getLast? = some b)
include hb

theorem State.stepMarker_starts (hn : b.draining = none) (hp : a.pc = b.marker) (ht : b.inTest = false) :
    s.stepMarker t a = s.startDrain t false a.pc := by
  simp only [State.stepMarker, hb, hn, Option.isNone_none, if_true, hp, ht, Bool.not_false, decide_true, Bool.and_self]

theorem State.stepMarker_misplaced (hn : b.draining = none) (h : a.pc ≠ b.marker ∨ b.inTest = true) :
    s.stepMarker t a = s.fail t.tid t.depth 6 0 := by
  have hbad : (decide (a.pc = b.marker) && !b.inTest) = false := by
    rcases h with h | h <;> simp [h]
  simp only [State.stepMarker, hb, hn, Option.isNone_none, if_true, hbad, Bool.false_eq_true, if_false]

theorem State.stepMarker_waits (hn : b.draining ≠ none) (hd : s.drained t = false) : s.stepMarker t a = s := by
  have hn' : b.draining.isNone = false := Option.isNone_eq_false_iff.2 (Option.isSome_iff_ne_none.2 hn)
  simp only [State.stepMarker, hb, hn', Bool.false_eq_true, if_false, hd, Bool.not_false, if_true]

theorem State.stepMarker_late {f : Late} (hn : b.draining ≠ none) (hd : s.drained t = true) (hf : s.lateIn t = some f) :
    s.stepMarker t a = s.fail t.tid t.depth 3 f.cause.code := by
  have hn' : b.draining.isNone = false := Option.isNone_eq_false_iff.2 (Option.isSome_iff_ne_none.2 hn)
  simp only [State.stepMarker, hb, hn', Bool.false_eq_true, if_false, hd, Bool.not_true, hf]

theorem State.stepMarker_enters (ht : s.troop? t.tid = some t) (hn : b.draining ≠ none) (hd : s.drained t = true)
    (hf : s.lateIn t = none) :
    s.stepMarker t a = ((s.takeTroopFlags t.tid).updTroop t.tid fun u => { u with blocks := t.blocksTested }).leaveTo t.tid b.test := by
  have hn' : b.draining.isNone = false := Option.isNone_eq_false_iff.2 (Option.isSome_iff_ne_none.2 hn)
  have hu := (s.troop?_takeTroopFlags t.tid t.tid).trans ht
  simp only [State.stepMarker, hb, hn', Bool.false_eq_true, if_false, hd, Bool.not_true, hf]
  rw [State.updTroop_const hu, State.updTroop_const hu fun u => { u with blocks := t.blocksTested }]
  rfl

end

/-! ### Decisions (R413, R414, R430) -/

theorem Coll.decides_iff {k : Coll} : k.decides = true ↔ k = .accept ∨ k = .reject := by
  cases k <;> simp [Coll.decides]

theorem Troop.inTest_eq {t : Troop} {b : RBlock} (hb : t.blocks.getLast? = some b) : t.inTest = b.inTest := by
  rw [Troop.inTest, hb]

theorem State.members_alone {s : State} {t : Troop} (hn : t.tandem = none) : s.members t = [t] := by
  rw [State.members, hn]

theorem State.forall_members_alone {s : State} {t : Troop} (hn : t.tandem = none) {P : Troop → Prop} (h : P t) :
    ∀ m ∈ s.members t, P m := by
  rw [State.members_alone hn]
  exact List.forall_mem_singleton.2 h

/-- Every member of the tandem has arrived at a decision of its test. -/
def State.allDecide (s : State) (ms : List Troop) : Bool :=
  ms.all fun m => s.collDone m && m.inTest && m.arrivals.all (·.coll.decides)

theorem State.allDecide_iff {s : State} {ms : List Troop} : s.allDecide ms = true ↔
    ∀ m ∈ ms, s.collDone m = true ∧ m.inTest = true ∧ ∀ x ∈ m.arrivals, x.coll = .accept ∨ x.coll = .reject := by
  simp only [State.allDecide, List.all_eq_true, Bool.and_eq_true, Coll.decides_iff, and_assoc]

section
variable {s : State} {t : Troop} {a : Arrival} {b : RBlock} (hb : t.blocks.getLast? = some b)
include hb

theorem State.stepDecide_early (hi : b.inTest = false) :
    s.stepDecide t a = s.fail t.tid t.depth (if a.coll = .reject then 1 else 6) 0 := by
  simp only [State.stepDecide, hb, hi, Bool.not_false, if_true]

theorem State.stepDecide_gathers (hi : b.inTest = true) (hn : b.draining = none) (h : s.allDecide (s.members t) = false) :
    s.stepDecide t a = s := by
  simp only [State.allDecide] at h
  simp only [State.stepDecide, hb, hi, Bool.not_true, Bool.false_eq_true, if_false, hn, Option.isNone_none, if_true, h]

theorem State.stepDecide_starts (hi : b.inTest = true) (hn : b.draining = none) (h : s.allDecide (s.members t) = true) :
    s.stepDecide t a = (s.members t).foldl (fun s m => s.startDrain m true ((m.arrivals.head?.map (·.pc)).getD a.pc)) s := by
  simp only [State.allDecide] at h
  simp only [State.stepDecide, hb, hi, Bool.not_true, Bool.false_eq_true, if_false, hn, Option.isNone_none, if_true, h]
  refine List.foldl_ext _ _ _ fun u m _ => ?_
  cases m.arrivals <;> rfl

theorem State.stepDecide_waits (hi : b.inTest = true) (hn : b.draining ≠ none) (h : ∃ m ∈ s.members t, s.drained m = false) :
    s.stepDecide t a = s := by
  have hn' : b.draining.isNone = false := Option.isNone_eq_false_iff.2 (Option.isSome_iff_ne_none.2 hn)
  have hw : (s.members t).all s.drained = false := by simpa [List.all_eq_false] using h
  simp only [State.stepDecide, hb, hi, Bool.not_true, Bool.false_eq_true, if_false, hn', hw]

theorem State.stepDecide_judges (hi : b.inTest = true) (hn : b.draining ≠ none) (h : ∀ m ∈ s.members t, s.drained m = true) :
    s.stepDecide t a = s.judge (s.members t) t.depth a.pc := by
  have hn' : b.draining.isNone = false := Option.isNone_eq_false_iff.2 (Option.isSome_iff_ne_none.2 hn)
  have hw : (s.members t).all s.drained = true := List.all_eq_true.2 h
  simp only [State.stepDecide, hb, hi, Bool.not_true, Bool.false_eq_true, if_false, hn', hw, if_true]

theorem State.stepDecide_starts_alone {as : List Arrival} (hn : t.tandem = none) (hd : s.collDone t = true) (ha : t.arrivals = a :: as)
    (hi : b.inTest = true) (hn0 : b.draining = none) (h : ∀ x ∈ t.arrivals, x.coll = .accept ∨ x.coll = .reject) :
    s.stepDecide t a = s.startDrain t true a.pc := by
  have hall : s.allDecide (s.members t) = true := by
    rw [State.members_alone hn, State.allDecide_iff, List.forall_mem_singleton]
    exact ⟨hd, (Troop.inTest_eq hb).trans hi, h⟩
  rw [State.stepDecide_starts hb hi hn0 hall, State.members_alone hn]
  simp only [List.foldl_cons, List.foldl_nil, ha, List.head?_cons, Option.map_some, Option.getD_some]

end

/-- A member has arrived at a REJECT. -/
def Troop.rejects (m : Troop) : Bool := m.arrivals.any (·.coll == .reject)

theorem Troop.rejects_iff {m : Troop} : m.rejects = true ↔ ∃ x ∈ m.arrivals, x.coll = .reject := by
  simp [Troop.rejects, List.any_eq_true]

theorem Troop.not_rejects_iff {m : Troop} : m.rejects = false ↔ ∀ x ∈ m.arrivals, x.coll ≠ .reject := by
  simp [Troop.rejects, List.any_eq_false]

/-- The first element that a test takes, after those that it does not. -/
theorem find?_split {α : Type} {p : α → Bool} {x : α} {ns ls : List α} (hns : ∀ n ∈ ns, p n = false) (hx : p x = true) :
    (ns ++ x :: ls).find? p = some x := by
  rw [List.find?_append, List.find?_eq_none.2 fun n hn => by simp [hns n hn], List.find?_cons_of_pos hx]
  rfl

section
variable {s : State} {ms ns ls : List Troop} {m : Troop} {k : Nat} {pc : Addr}

theorem State.judge_rejects (he : ms = ns ++ m :: ls) (hns : ∀ n ∈ ns, n.rejects = false) (hm : m.rejects = true) :
    s.judge ms k pc = s.fail m.tid k 1 0 := by
  have h : (ms.find? fun m => m.arrivals.any (·.coll == .reject)) = some m := he ▸ find?_split hns hm
  simp only [State.judge, h]

theorem find?_rejects_none (h : ∀ m ∈ ms, m.rejects = false) : (ms.find? fun m => m.arrivals.any (·.coll == .reject)) = none :=
  List.find?_eq_none.2 fun m hm => by
    have := h m hm
    simp only [Troop.rejects] at this
    rw [this]
    exact Bool.false_ne_true

theorem State.judge_late {f : Late} (h : ∀ m ∈ ms, m.rejects = false) (he : ms = ns ++ m :: ls)
    (hns : ∀ n ∈ ns, s.lateIn n = none) (hf : s.lateIn m = some f) : s.judge ms k pc = s.fail m.tid k 3 f.cause.code := by
  have hl : ms.find? (fun m => (s.lateIn m).isSome) = some m := by
    rw [he]
    exact find?_split (fun n hn => by rw [hns n hn]; rfl) (by rw [hf]; rfl)
  simp only [State.judge, find?_rejects_none h, hl, hf]

/-- Nothing refuses the acceptance. -/
theorem State.judge_accepts (h : ∀ m ∈ ms, m.rejects = false) (hl : ∀ m ∈ ms, s.lateIn m = none) (hf : ∀ m ∈ ms, m.fails = [])
    (hc : k = 1 → ∀ m ∈ ms, m.outr = none) :
    let u := ms.foldl (fun s m => s.takeTroopFlags m.tid) s
    s.judge ms k pc = if k = 1 then u.finishAccept ms pc else ms.foldl (fun s m => (s.acceptOne m).leaveColl m.tid) u := by
  intro u
  have hlate : ms.find? (fun m => (s.lateIn m).isSome) = none := List.find?_eq_none.2 fun m hm => by simp [hl m hm]
  have hfails : (ms.any fun m => !m.fails.isEmpty) = false := List.any_eq_false.2 fun m hm => by simp [hf m hm]
  by_cases hk : k = 1
  · have hcmp : ms.any u.mustCompare = false := List.any_eq_false.2 fun m hm => by simp [State.mustCompare, hc hk m hm]
    rw [if_pos hk]
    subst hk
    simp only [u] at hcmp
    simp only [State.judge, find?_rejects_none h, hlate, hfails, hcmp, Bool.false_eq_true, if_false, ne_eq, not_true_eq_false]
    rfl
  · simp only [State.judge, find?_rejects_none h, hlate, hfails, Bool.false_eq_true, if_false, ne_eq, hk, not_false_eq_true, if_true]
    rfl

end

/-- No member of a list of troops has arrived at a REJECT. -/
theorem Troop.all_not_rejects {ms : List Troop} (h : ∀ m ∈ ms, ∀ x ∈ m.arrivals, x.coll ≠ .reject) : ∀ m ∈ ms, m.rejects = false :=
  fun m hm => Troop.not_rejects_iff.2 (h m hm)

section
variable {s : State} {t : Troop} {a : Arrival} {b : RBlock} (hb : t.blocks.getLast? = some b) (hi : b.inTest = true)
  (hn : b.draining ≠ none) (hw : ∀ m ∈ s.members t, s.drained m = true)
include hb hi hn hw

/-- The first member that has arrived at a REJECT fails the alternate. -/
theorem State.stepDecide_rejects {m : Troop} {ns ls : List Troop} (he : s.members t = ns ++ m :: ls)
    (hns : ∀ n ∈ ns, ∀ x ∈ n.arrivals, x.coll ≠ .reject) (hm : ∃ x ∈ m.arrivals, x.coll = .reject) :
    s.stepDecide t a = s.fail m.tid t.depth 1 0 :=
  (State.stepDecide_judges hb hi hn hw).trans (State.judge_rejects he (Troop.all_not_rejects hns) (Troop.rejects_iff.2 hm))

variable (hrej : ∀ m ∈ s.members t, ∀ x ∈ m.arrivals, x.coll ≠ .reject)
include hrej

/-- The first member with a late fault fails the alternate. -/
theorem State.stepDecide_late {m : Troop} {ns ls : List Troop} {f : Late} (he : s.members t = ns ++ m :: ls)
    (hns : ∀ n ∈ ns, s.lateIn n = none) (hf : s.lateIn m = some f) : s.stepDecide t a = s.fail m.tid t.depth 3 f.cause.code :=
  (State.stepDecide_judges hb hi hn hw).trans (State.judge_late (Troop.all_not_rejects hrej) he hns hf)

variable (hl : ∀ m ∈ s.members t, s.lateIn m = none) (hfl : ∀ m ∈ s.members t, m.fails = [])
include hl hfl

/-- An inner block is accepted: its depth becomes the one outside. -/
theorem State.stepDecide_merges (hd : t.depth ≠ 1) : s.stepDecide t a =
    (s.members t).foldl (fun s m => (s.acceptOne m).leaveColl m.tid) ((s.members t).foldl (fun s m => s.takeTroopFlags m.tid) s) :=
  (State.stepDecide_judges hb hi hn hw).trans
    ((State.judge_accepts (Troop.all_not_rejects hrej) hl hfl fun h => absurd h hd).trans (if_neg hd))

/-- The outermost block is accepted. -/
theorem State.stepDecide_finishes (hd : t.depth = 1) (ho : ∀ m ∈ s.members t, m.outr = none) : s.stepDecide t a =
    ((s.members t).foldl (fun s m => s.takeTroopFlags m.tid) s).finishAccept (s.members t) a.pc :=
  (State.stepDecide_judges hb hi hn hw).trans
    ((State.judge_accepts (Troop.all_not_rejects hrej) hl hfl fun _ => ho).trans (if_pos hd))

end

/-! ### Tandems (R429) -/

section
variable {s : State} {t : Troop} {a : Arrival} {s' : State} {ms : List Troop}
  (hs : (s.updTroop t.tid fun t => { t with joining := some a.arg.toNat }) = s') (hms : s'.named t a.arg.toNat = ms)
  (h : ∀ m ∈ ms, m.ended = false ∧ m.tandem = none ∧ (m.joining = none ∨ m.joining = some a.arg.toNat))
include hs hms h

theorem State.stepJoin_gathers : s.stepJoin t a = if ms.all (·.joining.isSome) then s'.formTandem ms a.arg.toNat else s' := by
  simp only [State.stepJoin, hs, hms]
  rw [if_neg]
  intro hany
  obtain ⟨m, hm, hbad⟩ := List.any_eq_true.1 hany
  obtain ⟨he, hn, hj | hj⟩ := h m hm <;> simp [he, hn, hj] at hbad

theorem State.stepJoin_waits (hj : ∃ m ∈ ms, m.joining = none) : s.stepJoin t a = s' := by
  have hall : ms.all (·.joining.isSome) = false := by
    obtain ⟨m, hm, hj⟩ := hj
    exact List.all_eq_false.2 ⟨m, hm, by simp [hj]⟩
  rw [State.stepJoin_gathers hs hms h, hall, if_neg Bool.false_ne_true]

theorem State.stepJoin_forms (hj : ∀ m ∈ ms, m.joining ≠ none) : s.stepJoin t a = s'.formTandem ms a.arg.toNat := by
  rw [State.stepJoin_gathers hs hms h, if_pos (List.all_eq_true.2 fun m hm => Option.isSome_iff_ne_none.2 (hj m hm))]

end

/-! ### Cycle limits (R416) -/

theorem exec_cycleLimitExpiry {s : State} {tid depth : Nat} {t : Troop} {b : RBlock} (ht : s.troop? tid = some t) (hd : 0 < depth)
    (hb : t.blocks[depth - 1]? = some b) :
    exec (.cycleLimitExpiry tid depth) s = .next (if b.limit ≠ 0 ∧ b.limit ≤ b.count then s.fail tid depth 2 0 else s) := by
  change execCycleLimitExpiry tid depth s = _
  simp only [execCycleLimitExpiry, ht, Option.bind_some, hb, hd, decide_true, Bool.and_true, Bool.and_eq_true, bne_iff_ne,
    decide_eq_true_eq]

/-! ### Redundant copies (R435, R436) -/

section
variable {s : State} {tid : Nat} {p q : Troop} {po qo : Outr} (h : s.pair tid = some (p, q, po, qo))
include h

theorem exec_outriderCompare_waits (hw : po.waiting = none ∨ qo.waiting = none ∨ p.unwinding = true ∨ q.unwinding = true) :
    exec (.outriderCompare tid) s = .next s := by
  change execOutriderCompare tid s = _
  simp only [execOutriderCompare, h]
  cases hp : po.waiting with
  | none => rfl
  | some x =>
    cases hq : qo.waiting with
    | none => rfl
    | some y =>
      have hu : p.unwinding = true ∨ q.unwinding = true := by simpa [hp, hq] using hw
      exact if_pos (by rcases hu with hu | hu <;> simp [hu])

section
variable {kp kq x y : Nat} (hp : po.waiting = some (kp, x)) (hq : qo.waiting = some (kq, y)) (hd : po.decided = none)
  (ht : po.tie = none) (hup : p.unwinding = false) (huq : q.unwinding = false)
include hp hq hd ht hup huq

theorem exec_outriderCompare_equal (hk : kp = kq) (hx : x = y) : exec (.outriderCompare tid) s = .next (s.compared p q kp kq) := by
  subst hk hx
  change execOutriderCompare tid s = _
  simp only [execOutriderCompare, h, hp, hq, hd, ht, hup, huq, Option.isSome_none, Bool.or_self, Bool.false_eq_true, if_false,
    beq_self_eq_true, decide_true, Bool.and_self, if_true]

theorem exec_outriderCompare_unequal {l : Launch} {pad : Paddock} (hne : kp ≠ kq ∨ x ≠ y) (hl : s.launchOf p = some l)
    (hpad : s.pad? p.pad = some pad) :
    exec (.outriderCompare tid) s = .next (if pad.st = .cutting then s else s.startTie l pad p q) := by
  have heq : (decide (kp = kq) && x == y) = false := by rcases hne with hne | hne <;> simp [hne]
  change execOutriderCompare tid s = _
  simp only [execOutriderCompare, h, hp, hq, hd, ht, hup, huq, Option.isSome_none, Bool.or_self, Bool.false_eq_true, if_false,
    heq, hl, hpad, beq_iff_eq]

end

theorem exec_tieBreakDecide_unwinding (hu : p.unwinding = true ∨ q.unwinding = true) : exec (.tieBreakDecide tid) s = .next s := by
  have hu' : (p.unwinding || q.unwinding) = true := by rcases hu with hu | hu <;> simp [hu]
  change execTieBreakDecide tid s = _
  simp only [execTieBreakDecide, h, hu', if_true]
  split <;> rfl

section
variable {kp kq a b x : Nat} {y : Troop} (hp : po.waiting = some (kp, a)) (hq : qo.waiting = some (kq, b)) (ht : po.tie = some x)
  (hy : s.troop? x = some y) (hup : p.unwinding = false) (huq : q.unwinding = false)
include hp hq ht hy hup huq

theorem exec_tieBreakDecide_ended (he : y.ended = true) :
    exec (.tieBreakDecide tid) s = .next ((s.dropTie p).unresolved p q kp kq) := by
  change execTieBreakDecide tid s = _
  simp only [execTieBreakDecide, h, hp, hq, ht, Option.bind_some, hy, hup, huq, Bool.or_self, Bool.false_eq_true, if_false, he]

theorem exec_tieBreakDecide_running (he : y.ended = false) (hw : y.outr.bind (·.waiting) = none) :
    exec (.tieBreakDecide tid) s = .next s := by
  change execTieBreakDecide tid s = _
  simp only [execTieBreakDecide, h, hp, hq, ht, Option.bind_some, hy, hup, huq, Bool.or_self, Bool.false_eq_true, if_false, he, hw]

/-- The tie-breaking run has reached the commit: the copy that it agrees with prevails. -/
theorem exec_tieBreakDecide_reached {k e : Nat} (he : y.ended = false) (hw : y.outr.bind (·.waiting) = some (k, e)) :
    exec (.tieBreakDecide tid) s = .next (if k = kp ∧ e = a then (s.dropTie p).compared p q kp kq
      else if k = kq ∧ e = b then (s.dropTie p).compared q p kq kp else (s.dropTie p).unresolved p q kp kq) := by
  change execTieBreakDecide tid s = _
  simp only [execTieBreakDecide, h, hp, hq, ht, Option.bind_some, hy, hup, huq, Bool.or_self, Bool.false_eq_true, if_false, he, hw,
    Bool.and_eq_true, decide_eq_true_eq, beq_iff_eq]
  split_ifs <;> rfl

end

end

/-! ### The statement -/

/-- Settles O48: each collective by the lemma on its step, each event of a redundant pair by its own. -/
theorem collectivesComplete : Obligations.CollectivesComplete := by
  unfold Obligations.CollectivesComplete
  refine ⟨fun s tid t a as ht hf ha hdone hh => ?_, fun s tid t ht hf h => exec_testDrainComplete_waits ht hf h,
    fun s tid depth t b ht hd hb => ⟨fun h0 hc => ?_, fun h => ?_⟩, fun s tid p q po qo h => ⟨?_, ?_, ?_, ?_, ?_⟩⟩
  · obtain rfl := State.troop_tid ht
    have run : ∀ {u}, s.collStep t a = u → exec (.testDrainComplete t.tid) s = .next u := fun e =>
      e ▸ exec_testDrainComplete_steps ht hf ha hdone hh
    have ensure : ∀ {u}, a.coll = .ensure → s.stepEnsure t a = u → exec (.testDrainComplete t.tid) s = .next u := fun hk e =>
      run (by rw [State.collStep, hk]; exact e)
    have marker : ∀ {u}, a.coll = .elseby ∨ a.coll = .elseerr → s.stepMarker t a = u → exec (.testDrainComplete t.tid) s = .next u :=
      fun hk e => run (by rcases hk with hk | hk <;> (rw [State.collStep, hk]; exact e))
    have decision : ∀ {u}, a.coll = .accept ∨ a.coll = .reject → s.stepDecide t a = u → exec (.testDrainComplete t.tid) s = .next u :=
      fun hk e => run (by rcases hk with hk | hk <;> (rw [State.collStep, hk]; exact e))
    refine ⟨fun hk hd => ensure hk (State.stepEnsure_deep hd),
      fun hk hd hn s' alts e he hc => ensure hk (State.stepEnsure_opens hd he hc hn),
      fun hk hd s' f hf => ⟨fun h0 => ensure hk ?_, fun h0 => ensure hk ?_⟩,
      fun hk b hb => ⟨fun hn hp hi => marker hk (State.stepMarker_starts hb hn hp hi),
        fun hn hp => marker hk (State.stepMarker_misplaced hb hn hp), fun hn hd => marker hk (State.stepMarker_waits hb hn hd),
        fun hn hd f hf => marker hk (State.stepMarker_late hb hn hd hf),
        fun hn hd hf => marker hk (State.stepMarker_enters hb ht hn hd hf)⟩,
      fun hk hd hn s' alts e he hc s'' r hr => ?_, fun hk hn b hb hi => ?_, fun hk hn hfl b hb => ?_, ?_,
      fun hk => run (by rw [State.collStep, hk])⟩
    · rw [State.stepEnsure_fault hd hf, State.ensureFault, if_pos h0]
    · rw [State.stepEnsure_fault hd hf, State.ensureFault, if_neg h0]
    · refine ⟨fun hrn => ensure hk (State.stepEnsure_waits hd he hc hn (hrn ▸ hr)), fun rs hrs => ?_⟩
      have hstep := State.stepEnsure_scanned hd he hc hn (hrs ▸ hr)
      refine ⟨fun hall => ensure hk (hstep.trans (if_pos hall)), fun hex => ?_⟩
      rw [if_neg (by simpa using hex)] at hstep
      exact ⟨fun h0 => ensure hk (hstep.trans (if_pos h0)), fun h0 => ensure hk (hstep.trans (if_neg h0))⟩
    · exact ⟨fun hn0 hno => decision hk (State.stepDecide_gathers hb hi hn0 (Bool.eq_false_iff.2 (mt State.allDecide_iff.1 hno))),
        fun hn0 hall => decision hk (State.stepDecide_starts hb hi hn0 (State.allDecide_iff.2 hall)),
        fun hn0 hw => decision hk (State.stepDecide_waits hb hi hn0 hw),
        fun hn0 hw => ⟨fun m ns ls he hns hm => decision hk (State.stepDecide_rejects hb hi hn0 hw he hns hm),
          fun hrej => ⟨fun m ns ls f he hns hf => decision hk (State.stepDecide_late hb hi hn0 hw hrej he hns hf),
            fun hl hfl => ⟨fun hd => decision hk (State.stepDecide_merges hb hi hn0 hw hrej hl hfl hd),
              fun hd ho => decision hk (State.stepDecide_finishes hb hi hn0 hw hrej hl hfl hd ho)⟩⟩⟩⟩
    · have hms := State.members_alone (s := s) hn
      have alone : ∀ {P : Troop → Prop}, P t → ∀ m ∈ s.members t, P m := State.forall_members_alone hn
      refine ⟨fun hi => decision hk (State.stepDecide_early hb hi),
        fun hi hn0 hall => decision hk (State.stepDecide_starts_alone hb hn hdone ha hi hn0 hall),
        fun hi hn0 hw => decision hk (State.stepDecide_waits hb hi hn0 ⟨t, hms ▸ List.mem_singleton_self t, hw⟩),
        fun hi hn0 hw hrej f hf => decision hk (State.stepDecide_late hb hi hn0 (alone hw) (alone hrej) (ns := []) hms (by simp) hf),
        fun hi hn0 hw hrej => decision hk (State.stepDecide_rejects hb hi hn0 (alone hw) (ns := []) hms (by simp) hrej),
        fun hi hn0 hw hl hrej hd => decision hk ?_, fun hi hn0 hw hl hrej hd ho => decision hk ?_⟩
      · rw [State.stepDecide_merges hb hi hn0 (alone hw) (alone hrej) (alone hl) (alone hfl) hd, hms]; rfl
      · rw [State.stepDecide_finishes hb hi hn0 (alone hw) (alone hrej) (alone hl) (alone hfl) hd (alone ho), hms]; rfl
    · have join : ∀ {u}, a.coll = .tjoin → s.stepJoin t a = u → exec (.testDrainComplete t.tid) s = .next u := fun hk e =>
        run (by rw [State.collStep, hk]; exact e)
      exact fun hk h => ⟨fun hj => join hk (State.stepJoin_waits rfl rfl h hj), fun hj => join hk (State.stepJoin_forms rfl rfl h hj)⟩
  · rw [exec_cycleLimitExpiry ht hd hb, if_pos ⟨h0, hc⟩]
  · rw [exec_cycleLimitExpiry ht hd hb, if_neg (by omega)]
  · exact fun kp kq x y hp hq hd ht hup huq => ⟨exec_outriderCompare_equal h hp hq hd ht hup huq,
      fun l pad hne hl hpad => exec_outriderCompare_unequal h hp hq hd ht hup huq hne hl hpad⟩
  · exact exec_outriderCompare_waits h
  · exact exec_tieBreakDecide_unwinding h
  · intro kp kq a b x y k e hp hq ht hy he hw hup huq
    have hx := exec_tieBreakDecide_reached h hp hq ht hy hup huq he hw
    refine ⟨fun hk hv => ?_, fun hne hk hv => ?_, fun hne hne' => ?_⟩
    · rw [hx, if_pos ⟨hk, hv⟩]
    · rw [hx, if_neg hne, if_pos ⟨hk, hv⟩]
    · rw [hx, if_neg hne, if_neg hne']
  · exact fun kp kq a b x y hp hq ht hy hup huq => ⟨exec_tieBreakDecide_ended h hp hq ht hy hup huq,
      exec_tieBreakDecide_running h hp hq ht hy hup huq⟩

end Sys2Proof.Machine
end


section
/-! PROOFS. What writes a line back leaves the cores of the machine: no core leaves the map (R371, R444). -/

namespace Sys2Proof.Machine

theorem State.foldl_removed {α : Type} {g : State → α → State} (hg : ∀ s a, (g s a).removed = s.removed) (xs : List α) (s : State) :
    (xs.foldl g s).removed = s.removed := by
  induction xs generalizing s with
  | nil => rfl
  | cons x xs ih => exact (ih (g s x)).trans (hg s x)

/-! ### The quarters (R142 to R148) -/

theorem State.settleOne_removed (core q n : Nat) : ∀ s : State, (s.settleOne core q n).removed = s.removed := by
  induction n with
  | zero => exact fun _ => rfl
  | succ n ih => exact fun s => ih _

theorem State.advanceJoint_removed (s : State) (core q : Nat) : (s.advanceJoint core q).removed = s.removed := by
  unfold State.advanceJoint
  dsimp only
  split <;> rfl

theorem State.startJoint_removed (s : State) (core : Nat) : (s.startJoint core).removed = s.removed := by
  unfold State.startJoint
  split
  · split
    · exact State.foldl_removed (g := fun s q => s.putQuarter (s.quarter core q).start) (fun _ _ => rfl) _ s
    · rfl
  · rfl

theorem State.quarterRound_removed (s : State) (core : Nat) : (s.quarterRound core).removed = s.removed := by
  unfold State.quarterRound
  extract_lets u v
  have hu : u.removed = s.removed := by
    refine State.foldl_removed (fun s q => ?_) _ s
    exact (State.settleOne_removed core q _ _).trans rfl
  have hv : v.removed = u.removed := State.foldl_removed (fun s q => s.advanceJoint_removed core q) _ u
  exact ((v.startJoint_removed core).trans hv).trans hu

theorem State.settleQuarters_removed (s : State) (core : Nat) : (s.settleQuarters core).removed = s.removed :=
  State.foldl_removed (fun s _ => s.quarterRound_removed core) _ s

theorem State.dropMat_removed (s : State) (core tid : Nat) : (s.dropMat core tid).removed = s.removed := by
  unfold State.dropMat
  extract_lets u v
  have hv : v.removed = u.removed := by
    refine State.foldl_removed (fun s q => ?_) _ u
    rfl
  exact (v.settleQuarters_removed core).trans hv

/-! ### The end of a troop (R397) -/

theorem State.record_removed (s : State) (sid d : Nat) (key : BagKey) (prior : Str → List Nat) :
    (s.record sid d key prior).removed = s.removed := by
  unfold State.record
  dsimp only
  repeat' split
  all_goals rfl

theorem State.checkBar_removed (s : State) (k : BarKey) : (s.checkBar k).removed = s.removed := by
  unfold State.checkBar State.completePhase
  extract_lets b go lost status sum summed done released
  have hsummed : summed.removed = s.removed := State.foldl_removed (fun s z => State.foldl_removed (fun s l => by
    split
    · split
      · exact s.record_removed ..
      · rfl
    · rfl) _ s) _ s
  split
  · exact hsummed
  · rfl

theorem State.cancelWork_removed (s : State) (tid j : Nat) : (s.cancelWork tid j).removed = s.removed := by
  unfold State.cancelWork State.cancelSpills
  dsimp only
  split <;> rfl

theorem State.dropTie_removed (s : State) (t : Troop) : (s.dropTie t).removed = s.removed := by
  unfold State.dropTie
  split
  next x _ =>
    extract_lets cancelled lines dropped
    have hdropped : dropped.removed = cancelled.removed := by
      unfold dropped
      split
      · exact State.dropMat_removed ..
      · rfl
    exact hdropped.trans (s.cancelWork_removed x 0)
  · rfl

theorem State.stopTroop_removed (s : State) (tid : Nat) (cause : Option Cause) : (s.stopTroop tid cause).removed = s.removed := by
  unfold State.stopTroop
  split
  · rfl
  next t _ =>
    split
    · rfl
    extract_lets untied cancelled parted lines cut ended tie counted
    have hparted : parted.removed = s.removed :=
      ((cancelled.dropMat_removed t.core tid).trans (untied.cancelWork_removed tid 0)).trans (s.dropTie_removed t)
    clear_value parted
    have hcounted : counted.removed = parted.removed := by
      unfold counted
      split <;> rfl
    exact (State.foldl_removed (fun s k => s.checkBar_removed k) _ counted).trans (hcounted.trans hparted)

theorem State.endTroop_removed (s : State) (tid : Nat) (cause : Cause) : (s.endTroop tid cause).removed = s.removed := by
  unfold State.endTroop
  split
  · rfl
  have hstop := s.stopTroop_removed tid (some cause)
  dsimp only
  split
  · split
    · exact hstop
    · exact (State.stopTroop_removed ..).trans hstop
  · exact hstop

/-! ### Late faults (R389, R397) -/

theorem State.secondError_removed (s : State) (z : Str) : (s.secondError z).removed = s.removed := by
  unfold State.secondError
  split
  · rfl
  split
  · exact State.endTroop_removed ..
  · rfl

theorem State.lateFault_removed (s : State) (sid : Nat) (cause : Cause) (pc nodePc : Addr) (d : Nat) (trap : Bool) :
    (s.lateFault sid cause pc nodePc d trap).removed = s.removed := by
  unfold State.lateFault
  split
  · rfl
  split
  · exact State.secondError_removed ..
  dsimp only
  split
  · exact State.secondError_removed ..
  · rfl

theorem State.tileLate_removed (s : State) (core : Nat) (e : EngOp) (first : Bool) (c : Cause) (x : Option Node) (code : Nat) :
    (s.tileLate core e first c x code).removed = s.removed := by
  have hfail : (match x with | some x => s.failSeq core x.seq code | none => s).removed = s.removed := by
    split <;> rfl
  unfold State.tileLate
  dsimp only
  split
  · exact (State.lateFault_removed ..).trans hfail
  · exact hfail

theorem State.blameWrite_removed (s : State) (w : HomeWrite) : (s.blameWrite w).removed = s.removed := by
  unfold State.blameWrite State.blameEng
  dsimp only
  repeat' split
  any_goals rfl
  · exact State.tileLate_removed ..
  · exact State.lateFault_removed ..

/-! ### Writes at their homes (R232, R381) -/

theorem State.readDram_removed (s : State) (pad line : Nat) : (s.readDram pad line).1.removed = s.removed := by
  unfold State.readDram State.noteCorrected State.listRow
  dsimp only
  repeat' split
  all_goals rfl

theorem State.dropLlc_removed (s : State) (line : Nat) : (s.dropLlc line).removed = s.removed := by
  unfold State.dropLlc
  dsimp only
  repeat' split
  all_goals rfl

theorem State.allocLlc_removed (s : State) (pad line pol part : Nat) (d : BitVec 512) :
    (s.allocLlc pad line pol part d).removed = s.removed := by
  have hway : (s.llcWay line (s.partMask (homeDie line) part)).1.removed = s.removed := by
    obtain h | ⟨l, -, h⟩ := s.llcWay_eq line (s.partMask (homeDie line) part)
    · rw [h]
    · rw [h, State.dropLlc_removed]
  unfold State.allocLlc
  split
  · rfl
  split
  · split
    next u w heq =>
      rw [heq] at hway
      exact hway
    next u heq =>
      rw [heq] at hway
      exact hway
  · rfl

theorem State.writeHome_removed (s : State) (pad line pol part : Nat) (mask : Dword) (d : BitVec 512) :
    (s.writeHome pad line pol part mask d).1.removed = s.removed := by
  have hread := s.readDram_removed pad line
  unfold State.writeHome
  split
  · rfl
  split
  · rfl
  split
  · exact State.allocLlc_removed ..
  split
  next u old heq =>
    rw [heq] at hread
    exact (State.allocLlc_removed ..).trans hread
  next u heq =>
    rw [heq] at hread
    exact hread

theorem State.freshenHome_removed (s : State) (line : Nat) (mask : Dword) (d : BitVec 512) :
    (s.freshenHome line mask d).removed = s.removed := by
  unfold State.freshenHome
  split <;> rfl

theorem State.landHome_removed (s : State) (w : HomeWrite) : (s.landHome w).removed = s.removed := by
  unfold State.landHome
  extract_lets u down
  have hwrite := u.writeHome_removed w.pad w.line w.pol w.part w.mask w.data
  split
  next v ok heq =>
    rw [heq] at hwrite
    extract_lets x
    have hx : x.removed = v.removed := by
      unfold x
      split
      · exact State.blameWrite_removed ..
      split
      · exact State.blameWrite_removed ..
      split
      · rfl
      · exact State.freshenHome_removed ..
    exact hx.trans hwrite

theorem State.spillL2_removed (s : State) (line : Nat) : (s.spillL2 line).removed = s.removed := by
  unfold State.spillL2
  split
  next c _ =>
    dsimp only
    generalize hx : ({ s.drainDie c.place line with l2 := _ } : State) = x
    have hdrain : x.removed = s.removed := by
      rw [← hx]
      exact State.foldl_removed State.landHome_removed _ s
    have hwrite := (x.writeHome_removed c.pad line 3 0 c.dirty c.data).trans hdrain
    split
    · exact hdrain
    split
    next u heq =>
      rw [heq] at hwrite
      exact (State.freshenHome_removed ..).trans hwrite
    next u heq =>
      rw [heq] at hwrite
      split
      · exact (State.lateFault_removed ..).trans hwrite
      · exact hwrite
  · rfl

theorem State.evictL2_removed (s : State) (die line : Nat) : (s.evictL2 die line).removed = s.removed := by
  unfold State.evictL2
  split
  · dsimp only
    split
    · exact State.spillL2_removed ..
    · rfl
  · rfl

theorem State.spillL1_removed (s : State) (line : Nat) : (s.spillL1 line).removed = s.removed := by
  unfold State.spillL1 State.putL2
  split
  next c _ =>
    dsimp only
    split
    · rfl
    · exact State.foldl_removed (fun s _ => s.evictL2_removed ..) _ _
  · rfl

theorem State.evictPartial_removed (s : State) (r : Range) (core line : Nat) : (s.evictPartial r core line).removed = s.removed := by
  unfold State.evictPartial
  split
  · dsimp only
    split <;> rfl
  · rfl

/-! ### The end of a scan test (R444) -/

theorem State.scrubCore_removed (s : State) (core : Nat) : (s.scrubCore core).removed = s.removed := by
  unfold State.scrubCore
  extract_lets spilled evicted
  have hevicted : evicted.removed = spilled.removed := State.foldl_removed (fun s x => by
    split
    · exact s.evictPartial_removed ..
    · rfl) _ spilled
  exact hevicted.trans (State.foldl_removed (fun s (c : CacheLine) => s.spillL1_removed c.line) _ s)

theorem State.abortScans_removed (s : State) (cores : List Nat) : (s.abortScans cores).removed = s.removed :=
  State.foldl_removed (g := fun s c => s.endScan c) (fun s c => s.scrubCore_removed c) _ s

/-- The cores of a paddock are those of the map. -/
theorem State.padCores_of_removed {s u : State} (h : u.removed = s.removed) (p : Paddock) : u.padCores p = s.padCores p := by
  have hc : u.clusterCores = s.clusterCores := funext fun c => by rw [State.clusterCores, h]; rfl
  rw [State.padCores, hc]; rfl

end Sys2Proof.Machine
end


section
/-! PROOFS. The stages of a packet, a barrier packet, the dispatch of troops, release and completion (O51). -/

namespace Sys2Proof.Machine

/-! ### The start of a packet (R289, R293) -/

theorem PadSt.works {st : PadSt} (h : st = .running ∨ st = .draining) : (st != .running && st != .draining) = false := by
  rcases h with rfl | rfl <;> rfl

section
variable {s : State} {pad q : Nat} {p : Paddock} (hp : s.pad? pad = some p) (hst : p.st = .running ∨ p.st = .draining)
include hp hst

theorem exec_packetAdmit_steps {l : Launch} (hl : (s.queued pad q).find? (fun l => decide (l.stage ≤ 4)) = some l) :
    exec (.packetAdmit pad q) s = .next (s.stepPacket p (s.queue? pad q) l) := by
  change execPacketAdmit pad q s = _
  simp only [execPacketAdmit, hp, PadSt.works hst, Bool.false_eq_true, if_false, hl]

theorem exec_packetAdmit_starts {x : Queue} (hl : ∀ l ∈ s.queued pad q, 4 < l.stage) (hx : s.queue? pad q = some x) :
    exec (.packetAdmit pad q) s = .next (s.startPacket p x) := by
  have hnone : (s.queued pad q).find? (fun l => decide (l.stage ≤ 4)) = none :=
    List.find?_eq_none.2 fun l h => by simpa using hl l h
  change execPacketAdmit pad q s = _
  simp only [execPacketAdmit, hp, PadSt.works hst, Bool.false_eq_true, if_false, hnone, hx]

end

section
variable {s : State} {p : Paddock} {x : Queue}

/-- A packet as it starts. -/
def newPacket (s : State) (p : Paddock) (x : Queue) : Launch :=
  { id := s.nextId, pad := p.n, qid := x.qid, kind := x.kind, words := [], ext := [], stage := 1, reason := 0
    cause := none, cancelled := false, started := 0, live := 0, job := none, retagged := false, cores := [], rounds := [] }

theorem State.startPacket_starts (hr : x.rd < x.door) (hd : ∀ y ∈ s.queued p.n x.qid, y.dispatched = true) :
    s.startPacket p x = { s with launches := s.launches ++ [newPacket s p x], nextId := s.nextId + 1 } := by
  have hgo : (decide (x.door ≤ x.rd) || !(s.queued p.n x.qid).all (·.dispatched)) = false := by
    rw [decide_eq_false (by omega), List.all_eq_true.2 hd]; rfl
  rw [State.startPacket, hgo, if_neg Bool.false_ne_true]
  rfl

theorem State.startPacket_waits (h : x.door ≤ x.rd ∨ ∃ y ∈ s.queued p.n x.qid, y.dispatched = false) : s.startPacket p x = s := by
  refine if_pos ?_
  rcases h with h | ⟨y, hy, h⟩
  · rw [decide_eq_true h, Bool.true_or]
  · rw [List.all_eq_false.2 ⟨y, hy, by simp [h]⟩, Bool.not_false, Bool.or_true]

end

/-! ### Stages 1 to 4 (R293, R296) -/

section
variable {s s' : State} {p : Paddock} {q : Option Queue} {x : Queue} {l : Launch} {bs : List Byte}

theorem State.stepPacket_reads (hs : l.stage = 1) (hw : l.words = [])
    (hg : s.agentGet l (x.base + 64 * (x.rd % 2 ^ x.logn)) 64 = (s', some (.ok bs))) :
    s.stepPacket p (some x) l = s'.updLaunch l.id fun l => { l with words := wordsOfBytes 16 bs } := by
  simp only [State.stepPacket, hs, hw, if_true, hg]

theorem State.stepPacket_barred (hs : l.stage = 1) (hw : l.words ≠ []) (hb : l.barrier = true) (hne : s.before l ≠ []) :
    s.stepPacket p q l = s := by
  have hbar : (l.barrier && !(s.before l).isEmpty) = true := by simp [hb, hne]
  simp only [State.stepPacket, hs, hw, if_false, hbar, if_true]

theorem State.stepPacket_passes (hs : l.stage = 1) (hw : l.words ≠ []) (h : l.barrier = false ∨ s.before l = []) :
    s.stepPacket p q l = s.updLaunch l.id fun l => { l with stage := 2 } := by
  have hbar : (l.barrier && !(s.before l).isEmpty) = false := by rcases h with h | h <;> simp [h]
  simp only [State.stepPacket, hs, hw, if_false, hbar, Bool.false_eq_true]

/-- The highest PRIO that a queue's packets may have. -/
def prioBound (q : Option Queue) : Nat := match q with | some x => x.prioMax | none => 3

section
variable (hs : l.stage = 2)
include hs

theorem State.stepPacket_rejects {r : Nat} (hr : s.admitReason p l (prioBound q) = r) (h0 : r ≠ 0) :
    s.stepPacket p q l = s.updLaunch l.id fun l => { l with stage := 4, reason := r } := by
  unfold State.stepPacket
  simp only [hs]
  change (if s.admitReason p l (prioBound q) != 0 then s.rejectPacket l (s.admitReason p l (prioBound q)) else _) = _
  rw [hr, if_pos (by simpa using h0)]
  rfl

variable (hr : s.admitReason p l (prioBound q) = 0)
include hr

theorem State.stepPacket_badExtension (he : l.extBytes = none) :
    s.stepPacket p q l = s.updLaunch l.id fun l => { l with stage := 4, reason := 0x0E } := by
  unfold State.stepPacket
  simp only [hs]
  change (if s.admitReason p l (prioBound q) != 0 then _ else _) = _
  rw [hr, if_neg (by simp)]
  simp only [he]
  rfl

theorem State.stepPacket_noExtension (he : l.extBytes = some 0) (ho : l.extOk = true) :
    s.stepPacket p q l = s.updLaunch l.id fun x => { x with ext := l.ext, stage := 3 } := by
  unfold State.stepPacket
  simp only [hs]
  change (if s.admitReason p l (prioBound q) != 0 then _ else _) = _
  rw [hr, if_neg (by simp)]
  simp only [he, decide_true, Bool.true_or, if_true, ho]

theorem State.stepPacket_extension {n : Nat} (hq : q ≠ none) (he : l.extBytes = some n) (h0 : n ≠ 0)
    (hg : s.agentGet l (addr56 l.extVa).toNat n = (s', some (.ok bs))) :
    s.stepPacket p q l = s'.updLaunch l.id fun x => if { l with ext := bs : Launch }.extOk then { x with ext := bs, stage := 3 }
      else { x with stage := 4, reason := 0x0E } := by
  have hq' : q.isNone = false := Option.isNone_eq_false_iff.2 (Option.isSome_iff_ne_none.2 hq)
  unfold State.stepPacket
  simp only [hs]
  change (if s.admitReason p l (prioBound q) != 0 then _ else _) = _
  rw [hr, if_neg (by simp)]
  simp only [he, decide_eq_false h0, hq', Bool.or_self, Bool.false_eq_true, if_false, hg, State.rejectPacket]
  split <;> rfl

end

theorem State.stepPacket_acquires (hs : l.stage = 3) :
    s.stepPacket p q l = (s.packetAcquire p l).updLaunch l.id fun l => { l with stage := 4 } := by
  simp only [State.stepPacket, hs]

theorem State.stepPacket_writesIndex (hs : l.stage = 4) (hg : s.agentPut l x.rdPtr (x.rd + 1) = (s', some (.ok bs))) :
    let qs := updFirst (fun (y : Queue) => y.pad == x.pad && y.qid == x.qid) (fun y => { y with rd := y.rd + 1 }) s'.queues
    s.stepPacket p (some x) l = { s' with queues := qs }.updLaunch l.id fun y => { y with stage := if y.reason = 0 then 5 else 7 } := by
  simp only [State.stepPacket, hs, State.writeIndex, hg]

end

/-! ### Barrier packets (R294) -/

/-- The read of one signal, after those before it. -/
def State.readSignal (l : Launch) (x : State × Option (Except Cause Bool)) (a : Nat) : State × Option (Except Cause Bool) :=
  match x with
  | (s, r) => match r with
    | some (Except.ok true) => match s.agentGet l a 8 with
      | (s, some (.ok bs)) => (s, some (.ok ((natOfBytes bs).testBit 63)))
      | (s, some (.refused c)) => (s, some (.error c))
      | (s, _) => (s, none)
    | r => (s, r)

/-- The address of signal `i` of a barrier packet. -/
def Launch.signalAt (l : Launch) (i : Nat) : Nat := (addr56 (l.dword (2 + 2 * i))).toNat / 8 * 8

/-- The first `n` signals of a barrier packet, read in order as long as they are set. -/
def State.readSignals (s : State) (l : Launch) (n : Nat) : State × Option (Except Cause Bool) :=
  ((List.range n).map l.signalAt).foldl (State.readSignal l) (s, some (.ok true))

theorem State.readSignals_succ (s : State) (l : Launch) (n : Nat) :
    s.readSignals l (n + 1) = State.readSignal l (s.readSignals l n) (l.signalAt n) := by
  simp [State.readSignals, List.range_succ]

section
variable {s : State} {l : Launch} {st : Nat → State} {bs : Nat → List Byte} (h0 : st 0 = s)
include h0

/-- Every signal read is set: the reads go on. -/
theorem State.readSignals_set {n : Nat} (h : ∀ i < n, (st i).agentGet l (l.signalAt i) 8 = (st (i + 1), some (.ok (bs i))) ∧
      (natOfBytes (bs i)).testBit 63 = true) : s.readSignals l n = (st n, some (.ok true)) := by
  induction n with
  | zero => rw [h0]; rfl
  | succ n ih =>
    obtain ⟨hread, hset⟩ := h n (Nat.lt_succ_self n)
    rw [State.readSignals_succ, ih fun i hi => h i (Nat.lt_succ_of_lt hi)]
    simp only [State.readSignal, hread, hset]

/-- A signal read is clear: the reads end. -/
theorem State.readSignals_clear {k n : Nat} (hk : k < n) (hread : ∀ i ≤ k, (st i).agentGet l (l.signalAt i) 8 = (st (i + 1), some (.ok (bs i))))
    (hset : ∀ i < k, (natOfBytes (bs i)).testBit 63 = true) (hclear : (natOfBytes (bs k)).testBit 63 = false) :
    s.readSignals l n = (st (k + 1), some (.ok false)) := by
  induction n, hk using Nat.le_induction with
  | base =>
    rw [State.readSignals_succ, State.readSignals_set h0 fun i hi => ⟨hread i hi.le, hset i hi⟩]
    simp only [State.readSignal, hread k le_rfl, hclear]
  | succ n hn ih => rw [State.readSignals_succ, ih]; rfl

end

/-- What a barrier packet that still waits does with its signals. -/
theorem exec_barrierAndSatisfied {s : State} {launch : Nat} {l : Launch} (hl : s.launch? launch = some l) (ht : l.type = 2) (hs : l.stage = 5)
    (h0 : l.started = 0) (hp : s.processes l [.running, .draining] = true) {u : State} {b : Bool}
    (hr : s.readSignals l (l.bits 1 2 0) = (u, some (.ok b))) :
    exec (.barrierAndSatisfied launch) s = .next (if b then u.updLaunch launch fun l => { l with started := 1 } else u) := by
  change execBarrierAndSatisfied launch s = _
  unfold execBarrierAndSatisfied
  simp only [hl, ht, hs, h0, hp, bne_self_eq_false, Bool.not_true, Bool.or_self, Bool.false_eq_true, if_false]
  generalize hfold : List.foldl _ _ _ = r
  obtain rfl : r = (u, some (.ok b)) := hfold.symm.trans hr
  cases b <;> rfl

/-! ### The dispatch of troops (R297) -/

section
variable {s s0 s1 s2 : State} {launch : Nat} {places : List (Nat × Nat)} {l : Launch} {p : Paddock} {as bs : List Nat}

/-- A primary and its outrider know each other. -/
def State.mate (s : State) (x : Nat × Nat) : State :=
  (s.updTroop x.1 fun t => { t with outr := t.outr.map fun o => { o with mate := x.2 } }).updTroop x.2 fun t =>
    { t with outr := t.outr.map fun o => { o with mate := x.1 } }

/-- The state in which a dispatch places troops: one of PRIO 3 aborts the scan tests of its paddock (R444). -/
theorem padCores_abortScans (s : State) (l : Launch) (p : Paddock) :
    (if l.prio = 3 then s.abortScans (s.padCores p) else s).padCores p = s.padCores p := by
  split
  · exact State.padCores_of_removed (s.abortScans_removed _) p
  · rfl

theorem exec_troopDispatch {prim outr : List (Nat × Nat)} (hl : s.launch? launch = some l) (hp : s.pad? l.pad = some p) (hs : l.stage = 5)
    (hh : l.hasTroops = true) (hrun : p.st = .running) (h0 : (if l.prio = 3 then s.abortScans (s.padCores p) else s) = s0)
    (hpr : places.take l.batch = prim) (hou : places.drop l.batch = outr)
    (hserved : (s0.served p).map (·.id) = some l.id) (hprim : prim.length = l.batch)
    (houtr : outr.length = if l.outrider then l.batch else 0) (hcores : ∀ x ∈ places, x.1 ∈ s.padCores p)
    (hok : placesOk l.unit (prim.map (·.1)) (outr.map (·.1)) = true)
    (hjob : l.type = 4 → l.started = 0 → l.job ≠ none ∧ prim.head?.map (·.1) = l.cores.head?)
    (ha : s0.startAll p l 0 l.started prim = some (as, s1)) (hb : s1.startAll p l 1 l.started outr = some (bs, s2)) :
    let s3 := ((as.zip bs).foldl State.mate s2).updLaunch l.id fun l =>
      { l with started := l.started + prim.length, live := l.live + places.length, cores := (l.cores ++ places.map (·.1)).dedup }
    exec (.troopDispatch launch places) s =
      .next (if l.started + prim.length = l.total then s3.updPad p.n fun p => { p with turn := l.qid } else s3) := by
  have hpads := padCores_abortScans s l p
  rw [h0] at hpads
  have hcond : (if l.prio = 3 && l.stage == 5 && l.hasTroops then s.abortScans (s.padCores p) else s) = s0 := by
    rw [← h0, hs, hh, beq_self_eq_true, Bool.and_true, Bool.and_true]
    simp only [decide_eq_true_eq]
  have hfirst : (if l.type = 4 && l.started = 0 then prim.head?.map (·.1) == l.cores.head? && l.job.isSome else true) = true := by
    split
    next h =>
      rw [Bool.and_eq_true, decide_eq_true_eq, decide_eq_true_eq] at h
      obtain ⟨hj, hc⟩ := hjob h.1 h.2
      rw [hc, beq_self_eq_true, Option.isSome_iff_ne_none.2 hj, Bool.and_self]
    · rfl
  have hin : (places.all fun x => (s0.padCores p).contains x.1) = true := by
    rw [hpads]
    exact List.all_eq_true.2 fun x hx => List.contains_iff_mem.2 (hcores x hx)
  change execTroopDispatch launch places s = _
  unfold execTroopDispatch
  simp only [hl, hp, hcond, hrun, hpr, hou, hserved, houtr, hin, hok, hfirst, ha, hb, beq_self_eq_true, Bool.and_self]
  rw [if_pos (by rw [hprim, beq_self_eq_true]; rfl)]
  rfl

end

/-! ### Release and completion (R293, R295) -/

section
variable {s s' : State} {launch : Nat} {l : Launch} (hl : s.launch? launch = some l)
include hl

theorem exec_packetRelease_starts (hs : l.stage = 5) (hw : s.processes l [.running] = true) (hd : s.stage5Done l = true)
    (hb : ∀ m ∈ s.before l, 6 ≤ m.stage) : exec (.packetRelease launch) s =
      .next ((s.updLaunch launch fun l => { l with stage := 6 }).releaseLines { l with stage := 6 }) := by
  have hb' : (s.before l).all (fun m => decide (6 ≤ m.stage)) = true := List.all_eq_true.2 fun m hm => decide_eq_true (hb m hm)
  change execPacketRelease launch s = _
  simp only [execPacketRelease, hl, hs, hw, hd, hb', Bool.and_self, if_true]

theorem exec_packetRelease_waits (hs : l.stage = 5)
    (h : ¬s.processes l [.running] = true ∨ s.stage5Done l = false ∨ ∃ m ∈ s.before l, m.stage < 6) :
    exec (.packetRelease launch) s = .next s := by
  have hgo : (s.processes l [.running] && s.stage5Done l && (s.before l).all (fun m => decide (6 ≤ m.stage))) = false := by
    rcases h with h | h | ⟨m, hm, h⟩
    · simp [h]
    · simp [h]
    · rw [List.all_eq_false.2 ⟨m, hm, by simpa using h⟩, Bool.and_false]
  change execPacketRelease launch s = _
  simp only [execPacketRelease, hl, hs, hgo, Bool.false_eq_true, if_false]

section
variable (hs : l.stage = 6)
include hs

theorem exec_packetRelease_stopped (hw : ¬s.processes l [.running, .draining] = true) : exec (.packetRelease launch) s = .next s := by
  change execPacketRelease launch s = _
  simp only [execPacketRelease, hl, hs, eq_false_of_ne_true hw, Bool.not_false, if_true]

theorem exec_packetRelease_releases (hw : s.processes l [.running, .draining] = true) (hr : l.retagged = false) :
    exec (.packetRelease launch) s = .next (s.releaseLines l) := by
  change execPacketRelease launch s = _
  simp only [execPacketRelease, hl, hs, hw, hr, Bool.not_true, Bool.not_false, Bool.false_eq_true, if_false, if_true]

theorem exec_packetRelease_rounds (hr : l.retagged = true) (h : ∃ r ∈ l.rounds, s.roundsDone r.1 r.2 (l.relLvl.max .die) = false) :
    exec (.packetRelease launch) s = .next s := by
  have hall : (l.rounds.all fun r => s.roundsDone r.1 r.2 (l.relLvl.max .die)) = false := by simpa [List.all_eq_false] using h
  change execPacketRelease launch s = _
  simp only [execPacketRelease, hl, hs, hr, hall, Bool.not_true, Bool.not_false, Bool.false_eq_true, if_false, if_true, ite_self]

theorem exec_packetRelease_flushed (hw : s.processes l [.running, .draining] = true) (hr : l.retagged = true)
    (h : ∀ r ∈ l.rounds, s.roundsDone r.1 r.2 (l.relLvl.max .die) = true) (hf : s.flushed l = (s', true)) :
    exec (.packetRelease launch) s = .next (s'.updLaunch launch fun l => { l with stage := 7 }) := by
  have hall : (l.rounds.all fun r => s.roundsDone r.1 r.2 (l.relLvl.max .die)) = true := List.all_eq_true.2 h
  change execPacketRelease launch s = _
  simp only [execPacketRelease, hl, hs, hw, hr, hall, hf, Bool.not_true, Bool.false_eq_true, if_false]

end

/-- A packet that may complete. -/
def State.mayComplete (s : State) (l : Launch) : Prop :=
  l.stage = 7 ∧ s.processes l [.running, .draining, .reset] = true ∧ ∀ m ∈ s.before l, 7 ≤ m.stage

omit hl in
theorem State.mayComplete_iff : (l.stage != 7 || !s.processes l [.running, .draining, .reset] ||
    !(s.before l).all (fun m => decide (7 ≤ m.stage))) = false ↔ s.mayComplete l := by
  simp [State.mayComplete, and_assoc]

theorem exec_completionSignalWrite_waits (h : ¬s.mayComplete l) : exec (.completionSignalWrite launch) s = .next s := by
  have hno := eq_true_of_ne_false (mt State.mayComplete_iff.1 h)
  change execCompletionSignalWrite launch s = _
  simp only [execCompletionSignalWrite, hl, hno, if_true]

theorem exec_completionSignalWrite_silent (h : s.mayComplete l) (h0 : l.dword 10 = 0) :
    exec (.completionSignalWrite launch) s = .next (s.endLaunch l) := by
  change execCompletionSignalWrite launch s = _
  simp only [execCompletionSignalWrite, hl, State.mayComplete_iff.2 h, Bool.false_eq_true, if_false, h0, if_true]

/-- A packet completes once its signal is answered; a refused write is dropped (R456). -/
def State.signalled (s : State) (l : Launch) (r : AgentRes) : State :=
  match r with
  | .refused _ => (s.agentDrop l.pad).endLaunch l
  | _ => s.endLaunch l

theorem exec_completionSignalWrite_signals {r : AgentRes} (h : s.mayComplete l) (h0 : l.dword 10 ≠ 0)
    (hg : s.agentPut l l.signal (s.signalValue l) = (s', some r)) : exec (.completionSignalWrite launch) s =
      .next (s'.signalled l r) := by
  change execCompletionSignalWrite launch s = _
  simp only [execCompletionSignalWrite, hl, State.mayComplete_iff.2 h, Bool.false_eq_true, if_false, h0, hg]
  cases r <;> rfl

end

/-- Settles O51: each stage by the lemma on its step, a barrier packet by the reads of its signals in order. -/
theorem packetsProceed : Obligations.PacketsProceed := by
  unfold Obligations.PacketsProceed
  refine ⟨fun s pad q p hp hst hl x hx => ?_, fun s pad q p l hp hst hl => ?_, fun s launch l st bs hl ht hs h0 hp hst => ?_,
    fun s launch places l p as bs s1 s2 hl hp hs hh hrun hserved hprim houtr hcores hok hjob ha hb => ?_,
    fun s launch l hl => ⟨exec_packetRelease_starts hl, exec_packetRelease_waits hl, exec_packetRelease_stopped hl,
      exec_packetRelease_releases hl, exec_packetRelease_rounds hl, fun hs hw hr h s' => exec_packetRelease_flushed hl hs hw hr h,
      exec_completionSignalWrite_silent hl, fun h h0 s' r hg => (exec_completionSignalWrite_signals hl h h0 hg).trans (by cases r <;> rfl),
      exec_completionSignalWrite_waits hl⟩⟩
  · have hx' := exec_packetAdmit_starts hp hst hl hx
    exact ⟨fun hr hd => hx'.trans (congrArg _ (State.startPacket_starts hr hd)),
      fun h => hx'.trans (congrArg _ (State.startPacket_waits h))⟩
  · have hx := exec_packetAdmit_steps hp hst hl
    have goes : ∀ {u}, s.stepPacket p (s.queue? pad q) l = u → exec (.packetAdmit pad q) s = .next u := fun e => e ▸ hx
    refine ⟨fun hs hw x s' bs hq hg => goes ?_, fun hs hw hb hne => goes (State.stepPacket_barred hs hw hb hne),
      fun hs hw h => goes (State.stepPacket_passes hs hw h), fun hs => ⟨fun hr => goes (State.stepPacket_rejects hs rfl hr),
        fun hr he => goes (State.stepPacket_badExtension hs hr he),
        fun hr he ho => goes (State.stepPacket_noExtension hs hr he ho),
        fun hr hq n s' bs he h0 hg => goes (State.stepPacket_extension hs hr hq he h0 hg)⟩,
      fun hs => goes (State.stepPacket_acquires hs), fun hs x s' bs hq hg => goes ?_⟩
    · rw [hq]; exact State.stepPacket_reads hs hw hg
    · rw [hq]; exact State.stepPacket_writesIndex hs hg
  · refine ⟨fun h => ?_, fun k hk hread hset hclear => ?_⟩
    · exact exec_barrierAndSatisfied hl ht hs h0 hp (State.readSignals_set hst h)
    · exact exec_barrierAndSatisfied hl ht hs h0 hp (State.readSignals_clear hst hk hread hset (eq_false_of_ne_true hclear))
  · exact exec_troopDispatch hl hp hs hh hrun rfl rfl rfl hserved hprim houtr hcores hok hjob ha hb

end Sys2Proof.Machine
end


section
/-! PROOFS. Draining, cutting, resuming and resetting a paddock (O53). -/

namespace Sys2Proof.Machine

open Sys2Proof.Claims

/-! ### The state of a paddock -/

section
variable {s : State} {n : Nat} {p : Paddock}

theorem State.pad_n (h : s.pad? n = some p) : p.n = n := by
  simpa using List.find?_some h

theorem State.pad?_updPad (h : s.pad? n = some p) (f : Paddock → Paddock) (hf : (f p).n = p.n) : (s.updPad n f).pad? n = some (f p) :=
  find_updFirst_self _ f s.pads p h (by simp [hf, State.pad_n h])

/-- A paddock with no status block changes its state in its registers alone. -/
theorem State.setSt_noBlock (h : s.pad? n = some p) (hc : p.csb = 0) (st : PadSt) :
    s.setSt n st = s.updPad n fun p => { p with st := st } := by
  rw [State.setSt, State.pad?_updPad h _ rfl]
  exact if_pos hc

theorem PadSt.halted_iff {st : PadSt} : (st == .saved || st == .reset) = true ↔ st = .saved ∨ st = .reset := by
  rw [Bool.or_eq_true, beq_iff_eq, beq_iff_eq]

end

/-! ### The checks of DRAIN and CUT (R302) -/

section
variable {p : Paddock} {slot : Nat}

theorem cutCheck_halted (h : p.st = .saved ∨ p.st = .reset) : cutCheck p slot = some 4 := if_pos (PadSt.halted_iff.2 h)

theorem cutCheck_noSlot (h : ¬(p.st = .saved ∨ p.st = .reset)) (hs : p.slots ≤ slot) : cutCheck p slot = some 2 := by
  rw [cutCheck, if_neg (mt PadSt.halted_iff.1 h), if_pos hs]

theorem cutCheck_passes (h : ¬(p.st = .saved ∨ p.st = .reset)) (hs : slot < p.slots) : cutCheck p slot = none := by
  rw [cutCheck, if_neg (mt PadSt.halted_iff.1 h), if_neg (Nat.not_le.2 hs)]

end

section
variable {s : State} {pad : Nat} {p : Paddock} {slot : Byte} (hp : s.pad? pad = some p)
include hp

theorem exec_drain : exec (.drain pad slot) s = .next (s.cmdDrain p slot.toNat) := by
  change execDrain pad slot s = _
  simp only [execDrain, hp]

theorem exec_cut : exec (.cut pad slot) s = .next (s.cmdCut p slot.toNat) := by
  change execCut pad slot s = _
  simp only [execCut, hp]

theorem exec_resume : exec (.resume pad slot) s = .next (s.cmdResume p slot.toNat) := by
  change execResume pad slot s = _
  simp only [execResume, hp]

end

section
variable {s : State} {p : Paddock} {slot : Nat}

theorem State.cmdDrain_busy (h : p.busy = true) : s.cmdDrain p slot = s.refuseCmd p.n 1 := if_pos h

theorem State.cmdDrain_refused {r : Nat} (h : p.busy = false) (hr : cutCheck p slot = some r) : s.cmdDrain p slot = s.refuseCmd p.n r := by
  rw [State.cmdDrain, h, if_neg Bool.false_ne_true, hr]

theorem State.cmdDrain_begins (h : p.busy = false) (hr : cutCheck p slot = none) : s.cmdDrain p slot =
    ((s.updPad p.n fun p => { p with busy := true, slot := slot }).setSt p.n .draining).haltDrained := by
  rw [State.cmdDrain, h, if_neg Bool.false_ne_true, hr]

theorem State.cmdCut_busy (h : p.busy = true) (hd : p.st ≠ .draining) : s.cmdCut p slot = s.refuseCmd p.n 1 := by
  rw [State.cmdCut, h, if_pos (by simpa using hd)]

/-- A CUT goes on when no command is under way, or a drain. -/
theorem Paddock.cutFree (h : p.busy = false ∨ p.st = .draining) : (p.busy && p.st != .draining) = false := by
  rcases h with h | h <;> simp [h]

theorem State.cmdCut_refused {r : Nat} (h : p.busy = false ∨ p.st = .draining) (hr : cutCheck p slot = some r) :
    s.cmdCut p slot = s.refuseCmd p.n r := by
  rw [State.cmdCut, Paddock.cutFree h, if_neg Bool.false_ne_true, hr]

theorem State.cmdCut_begins (h : p.busy = false ∨ p.st = .draining) (hr : cutCheck p slot = none) :
    s.cmdCut p slot = s.startCut p.n slot := by
  rw [State.cmdCut, Paddock.cutFree h, if_neg Bool.false_ne_true, hr]

end

/-! ### RESUME (R302, R307) -/

section
variable {s : State} {p : Paddock} {slot : Nat}

/-- The clusters that a paddock's mask grants. -/
def Paddock.granted (p : Paddock) : List Nat := (List.range 32).filter fun c => p.clMask.getLsbD c

theorem Paddock.not_ungiven (hg : ∀ c ∈ p.granted, c ∈ p.clusters) : ¬(!p.granted.all p.clusters.contains) = true := by
  simpa [List.all_eq_true] using hg

theorem State.cmdResume_busy (h : p.busy = true) : s.cmdResume p slot = s.refuseCmd p.n 1 := if_pos h

section
variable (h : p.busy = false)
include h

theorem State.cmdResume_running (hr : p.st = .running) : s.cmdResume p slot = s.refuseCmd p.n 4 := by
  rw [State.cmdResume, h, hr]; rfl

variable (hr : p.st ≠ .running)
include hr

theorem State.cmdResume_noSlot (hs : p.slots ≤ slot) : s.cmdResume p slot = s.refuseCmd p.n 2 := by
  rw [State.cmdResume, h, if_neg Bool.false_ne_true, if_neg (by simpa using hr), if_pos hs]

variable (hs : slot < p.slots)
include hs

theorem State.cmdResume_notGiven (hg : ¬∀ c ∈ p.granted, c ∈ p.clusters) : s.cmdResume p slot = s.refuseCmd p.n 6 := by
  have hg' : (!p.granted.all p.clusters.contains) = true := by simpa [List.all_eq_true] using hg
  rw [State.cmdResume, h, if_neg Bool.false_ne_true, if_neg (by simpa using hr), if_neg (Nat.not_le.2 hs)]
  exact if_pos hg'

variable (hg : ∀ c ∈ p.granted, c ∈ p.clusters)
include hg

theorem State.cmdResume_noContext (hx : (s.contexts.find? fun x => x.pad == p.n && x.slot == slot) = none) :
    s.cmdResume p slot = s.refuseCmd p.n 5 := by
  rw [State.cmdResume, h, if_neg Bool.false_ne_true, if_neg (by simpa using hr), if_neg (Nat.not_le.2 hs)]
  refine (if_neg (Paddock.not_ungiven hg)).trans ?_
  simp only [hx]

variable {x : Context} (hx : (s.contexts.find? fun x => x.pad == p.n && x.slot == slot) = some x)
include hx

theorem State.cmdResume_noCores (hm : s.mapCores x p.granted = none) : s.cmdResume p slot = s.refuseCmd p.n 3 := by
  rw [Paddock.granted] at hm
  rw [State.cmdResume, h, if_neg Bool.false_ne_true, if_neg (by simpa using hr), if_neg (Nat.not_le.2 hs)]
  refine (if_neg (Paddock.not_ungiven hg)).trans ?_
  simp only [hx, hm]

theorem State.cmdResume_restores {cm km : List (Nat × Nat)} (hm : s.mapCores x p.granted = some (cm, km)) :
    s.cmdResume p slot = (((s.abortScans (km.map (·.2))).restore p x (mapped cm) (mapped (completeMap km (s.jobCores p.n)))
      (s.jobCores p.n)).setSt p.n .running).endCmd p.n 0 := by
  rw [Paddock.granted] at hm
  rw [State.cmdResume, h, if_neg Bool.false_ne_true, if_neg (by simpa using hr), if_neg (Nat.not_le.2 hs)]
  refine (if_neg (Paddock.not_ungiven hg)).trans ?_
  simp only [hx, hm]

end

end

/-! ### Deadlines, markers, and the end of a cut (R303, R304, R305) -/

section
variable {s : State} {pad us : Nat} {p : Paddock} (hp : s.pad? pad = some p)
include hp

theorem exec_cutComplete_waits (h : p.st ≠ .cutting ∨ s.cutReady p = false) : exec (.cutComplete pad us) s = .next s := by
  have hno : (p.st != .cutting || !s.cutReady p) = true := by rcases h with h | h <;> simp [h]
  change execCutComplete pad us s = _
  simp only [execCutComplete, hp, hno, if_true]

/-- The counts of a paddock as a cut of `us` microseconds completes. -/
def State.countCut (s : State) (pad us : Nat) : State :=
  s.updPad pad fun p => { p with csbData := { p.csbData with cuts := p.csbData.cuts + 1, lastUs := us } }

theorem exec_cutComplete_noBlock (hst : p.st = .cutting) (hr : s.cutReady p = true) (hc : p.csb = 0) :
    exec (.cutComplete pad us) s = .next ((s.countCut pad us).saveContext p) := by
  change execCutComplete pad us s = _
  simp only [execCutComplete, hp, hst, hr, hc, bne_self_eq_false, Bool.not_true, Bool.or_self, Bool.false_eq_true, if_false, if_true]
  rfl

theorem exec_cutComplete_block {s' : State} (hst : p.st = .cutting) (hr : s.cutReady p = true) (hc : p.csb ≠ 0)
    (hb : (s.countCut pad us).putBlock p 0x0C (bytesOf 4 us) = (s', true)) :
    exec (.cutComplete pad us) s = .next (s'.saveContext p) := by
  change execCutComplete pad us s = _
  rw [State.countCut] at hb
  simp only [execCutComplete, hp, hst, hr, hc, bne_self_eq_false, Bool.not_true, Bool.or_self, Bool.false_eq_true, if_false, hb]

theorem exec_reset : exec (.reset pad) s = .next ((s.resetPad p).endCmd pad 0) := by
  change execReset pad s = _
  simp only [execReset, hp, State.cmdReset, State.pad_n hp]

theorem exec_vfFlr : exec (.vfFlr pad) s = .next (s.resetPad p) := by
  change execVfFlr pad s = _
  simp only [execVfFlr, hp]

theorem exec_cutboundExpiry : exec (.cutboundExpiry pad) s = .next (if p.st = .cutting then s.resetPad p else s) := by
  change execCutboundExpiry pad s = _
  simp only [execCutboundExpiry, hp, beq_iff_eq]

theorem exec_drainDeadlineExpiry : exec (.drainDeadlineExpiry pad) s = .next (if p.st = .draining then s.startCut pad p.slot else s) := by
  change execDrainDeadlineExpiry pad s = _
  simp only [execDrainDeadlineExpiry, hp, beq_iff_eq]

end

theorem exec_reinMarkerArrival {s : State} {core : Nat} {p : Paddock} (hp : s.padOf core = some p) :
    exec (.reinMarkerArrival core) s = .next (if p.st = .cutting ∧ core ∉ p.marked then
      (s.updPad p.n fun p => { p with marked := core :: p.marked }).settleQuarters core else s) := by
  change execReinMarkerArrival core s = _
  simp only [execReinMarkerArrival, hp, Bool.and_eq_true, beq_iff_eq, Bool.not_eq_true', List.contains_eq_mem, decide_eq_false_iff_not]

/-! ### What leaves the machine (R305, R306) -/

section
variable {s : State} {p : Paddock}

/-- The troops of a paddock, and their strings, by their numbers. -/
def State.padTids (s : State) (pad : Nat) : List Nat := (s.padTroops pad).map (·.tid)

def State.padSids (s : State) (pad : Nat) : List Nat := (s.strs.filter fun z => (s.padTids pad).contains z.tid).map (·.sid)

/-- A list splits by a test. -/
theorem mem_filter_or {α : Type} (q : α → Bool) {x : α} {xs : List α} (h : x ∈ xs) :
    x ∈ xs.filter q ∨ x ∈ xs.filter fun x => !q x := by
  cases hq : q x with
  | true => exact .inl (List.mem_filter.2 ⟨h, hq⟩)
  | false => exact .inr (List.mem_filter.2 ⟨h, by rw [hq]; rfl⟩)

theorem not_mem_filter_not {α : Type} {q : α → Bool} {x : α} {xs : List α} (h : x ∈ xs.filter q) : x ∉ xs.filter fun x => !q x :=
  fun h' => by simpa [(List.mem_filter.1 h).2] using (List.mem_filter.1 h').2

/-- Strings with different numbers are those of a paddock by their numbers or by their troops. -/
theorem State.padSids_contains (hd : (s.strs.map (·.sid)).Nodup) {z : Str} (hz : z ∈ s.strs) (pad : Nat) :
    (s.padSids pad).contains z.sid = (s.padTids pad).contains z.tid := by
  rw [Bool.eq_iff_iff, List.contains_iff_mem, State.padSids, List.mem_map]
  refine ⟨fun ⟨y, hy, he⟩ => ?_, fun h => ⟨z, List.mem_filter.2 ⟨hz, h⟩, rfl⟩⟩
  obtain ⟨hy, ht⟩ := List.mem_filter.1 hy
  rwa [← List.inj_on_of_nodup_map hd hy hz he]

end

/-! ### Reset (R305) -/

/-- With nothing held, no core waits for the rail. -/
theorem State.grant_nothing {s : State} (h : s.heldReqs = []) : s.grant = { s with railWait := [] } := by
  have hlen : s.heldReqs.length = 0 := by rw [h]; rfl
  have hwait : s.railWait.filter (fun c => s.heldReqs.any (·.core == c)) = [] := by simp [h]
  rw [State.grant, hwait, hlen, State.grantHeld]

theorem Cells.get_setMany_const {β : Type} [DecidableEq β] (d v : β) (j : Nat) : ∀ (es : List (Nat × β)) (m : Cells β),
    (∀ e ∈ es, e.2 = v) → (Cells.get d m j = v ∨ j ∈ es.map (·.1)) → Cells.get d (Cells.setMany d m es) j = v
  | [], _, _, h => h.resolve_right (List.not_mem_nil)
  | (k, x) :: es, m, hv, h => by
    rw [Cells.setMany]
    refine Cells.get_setMany_const d v j es _ (fun e he => hv e (List.mem_cons_of_mem _ he)) ?_
    by_cases hk : j = k
    · exact .inl (by rw [Cells.get_set, if_pos hk]; exact hv (k, x) List.mem_cons_self)
    · rw [Cells.get_set, if_neg hk]
      exact h.imp_right fun h => (List.mem_cons.1 h).resolve_left hk

section
variable {s : State} {p : Paddock}

theorem State.landAll_nothing (h : ∀ x ∈ s.inbound, x.pad ≠ p.n) : s.landAll p.n = s := by
  rw [State.landAll, List.filter_eq_nil_iff.2 fun x hx => by simpa using h x hx]
  rfl

/-- The registers of a paddock after a reset. -/
def Paddock.afterReset (p : Paddock) : Paddock :=
  { p with
    busy := false, result := 0, marked := [], trapBase := 0, fqBase := 0, inval := none
    zones := p.zones.map fun z => (z.1, { z.2 with enable := false })
    csbData := { p.csbData with resets := min 255 (p.csbData.resets + 1) }
    intStat := p.intStat ||| 4#5 }

/-- What a reset leaves of the machine, but for the paddock's registers. -/
def State.afterReset (s : State) (p : Paddock) : State :=
  { (s.takePad p 0).2 with
    launches := s.launches.filter (·.pad != p.n) ++ (s.launches.filter (·.pad == p.n)).map Launch.cancel
    coreBase := Cells.setMany 0 s.coreBase ((s.jobCores p.n).map fun c => (c, s.clock))
    l1 := s.l1.filter fun c => !(s.jobCores p.n).contains c.place
    queues := s.queues.filter (·.pad != p.n)
    notices := (s.takePad p 0).2.notices.filter fun n => n.src != 0 || n.pad != p.n
    railWait := [] }

theorem State.resetPad_eq (hp : s.pad? p.n = some p) (hl1 : ∀ c ∈ s.l1, c.auth = false) (hheld : s.heldReqs = [])
    (hin : ∀ x ∈ s.inbound, x.pad ≠ p.n) (hc : p.csb = 0) :
    s.resetPad p = ((s.afterReset p).updPad p.n Paddock.afterReset).updPad p.n fun q => { q with st := .reset } := by
  have hauth : s.l1.filter (fun c => c.auth && (s.jobCores p.n).contains c.place) = [] :=
    List.filter_eq_nil_iff.2 fun c hc => by simp [hl1 c hc]
  have hpad : ((s.afterReset p).updPad p.n Paddock.afterReset).pad? p.n = some p.afterReset :=
    State.pad?_updPad (s := s.afterReset p) hp Paddock.afterReset rfl
  unfold State.resetPad
  rw [State.landAll_nothing hin]
  dsimp only
  rw [hauth, List.foldl_nil, State.grant_nothing (by simp [State.takePad, hheld])]
  exact State.setSt_noBlock hpad hc .reset

end

/-! ### What a reset keeps and clears (R305) -/

section
variable {α β : Type} {x : α} {xs : List α}

theorem not_mem_of_filter [BEq β] [LawfulBEq β] {f : α → β} {ys : List β} (h : x ∈ xs.filter fun x => !ys.contains (f x)) : f x ∉ ys := by
  have hno : (!ys.contains (f x)) = true := (List.mem_filter.1 h).2
  rwa [Bool.not_eq_true', ← Bool.not_eq_true, List.contains_iff_mem] at hno

theorem ne_of_filter [BEq β] [LawfulBEq β] {f : α → β} {b : β} (h : x ∈ xs.filter fun x => f x != b) : f x ≠ b :=
  bne_iff_ne.1 (List.mem_filter.1 h).2

end

/-- A line outside some strings, troops and clusters is in the place of none of them. -/
theorem BufLine.outside {l : BufLine} {sids tids clusters : List Nat} (h : l.within sids tids clusters = false) :
    (∀ i ∈ sids, l.space ≠ .str i) ∧ (∀ i ∈ tids, l.space ≠ .trp i) ∧ ∀ k ∈ clusters, l.space ≠ .clu k := by
  refine ⟨fun i hi he => ?_, fun i hi he => ?_, fun i hi he => ?_⟩
  all_goals
    rw [BufLine.within, he] at h
    exact Bool.false_ne_true (h.symm.trans (List.contains_iff_mem.2 hi))

theorem State.mem_jobCores {s : State} {p : Paddock} (hp : s.pad? p.n = some p) {c k : Nat} (hk : k ∈ p.clusters) (hc : c / 8 = k) :
    c ∈ s.jobCores p.n := by
  rw [State.jobCores, hp]
  exact List.mem_flatMap.2 ⟨k, hk, List.mem_map.2 ⟨c % 8, List.mem_range.2 (Nat.mod_lt c (by decide)), by omega⟩⟩

section
variable {s : State} {p : Paddock}

/-- A reset counts the cycles of the paddock's cores from its own clock on. -/
theorem State.coreBase_afterReset (hp : s.pad? p.n = some p) {k i : Nat} (hk : k ∈ p.clusters) (hi : i < 8) :
    Cells.get 0 (s.afterReset p).coreBase (8 * k + i) = s.clock := by
  refine Cells.get_setMany_const 0 s.clock (8 * k + i) _ _ (fun e he => ?_) (.inr ?_)
  · obtain ⟨c, -, rfl⟩ := List.mem_map.1 he
    rfl
  · rw [List.map_map]
    exact List.mem_map.2 ⟨8 * k + i, State.mem_jobCores hp hk (by omega), rfl⟩

theorem State.resets (hp : s.pad? p.n = some p) (hauth : NoAuthority s) (hheld : s.heldReqs = []) (hin : ∀ x ∈ s.inbound, x.pad ≠ p.n)
    (hc : p.csb = 0) (hd : (s.strs.map (·.sid)).Nodup) : Resets s (s.resetPad p) p := by
  rw [State.resetPad_eq hp hauth.1 hheld hin hc]
  have hstrs : s.strs.filter (fun z => !(s.padSids p.n).contains z.sid) = s.strs.filter fun z => !(s.padTids p.n).contains z.tid :=
    List.filter_congr fun z hz => by rw [State.padSids_contains hd hz]
  have hpad : ((s.afterReset p).updPad p.n Paddock.afterReset).pad? p.n = some p.afterReset :=
    State.pad?_updPad (s := s.afterReset p) hp Paddock.afterReset rfl
  refine ⟨rfl, hstrs, fun l hl => BufLine.outside ?_, fun a ha => not_mem_of_filter ha, fun o ho => not_mem_of_filter ho,
    fun e he => not_mem_of_filter he, fun x hx => not_mem_of_filter hx, fun e he => ne_of_filter he, fun q hq => ne_of_filter hq,
    fun r hr => ne_of_filter hr, fun j hj => ne_of_filter hj, fun m hm k hk he => ?_, fun c hcm k hk he => ?_, fun n hn hs => ?_, rfl,
    ⟨_, State.pad?_updPad hpad (fun q => { q with st := .reset }) rfl, rfl, rfl, rfl, rfl, rfl, rfl, rfl, fun z hz => ?_, rfl, rfl⟩,
    fun k hk i hi => State.coreBase_afterReset hp hk hi, rfl⟩
  · exact Bool.not_eq_true' _ ▸ (List.mem_filter.1 hl).2
  · exact not_mem_of_filter hm (State.mem_jobCores hp hk he)
  · exact not_mem_of_filter (f := CacheLine.place) hcm (State.mem_jobCores hp hk he)
  · have hn' : (n.src != 0 || n.pad != p.n) = true := (List.mem_filter.1 hn).2
    simpa [hs] using hn'
  · obtain ⟨y, -, rfl⟩ := List.mem_map.1 hz
    rfl

end

/-! ### A resumption (R203, R242, R307) -/

/-- No cache holds an authority, and every partial line is in its home slot. -/
def Clean (s : State) : Prop := NoAuthority s ∧ ∀ y ∈ s.partials, y.slot = true

section
variable {s : State}

/-- The machine after scrubs: some copies and mangers have gone. -/
def Scrubbed (s u : State) : Prop :=
  ∃ l1 ms held, (∀ c ∈ l1, c ∈ s.l1) ∧ u = { s with l1 := l1, mangers := ms, lastHeld := held }

theorem Scrubbed.clean {u : State} (k : Scrubbed s u) (h : Clean s) : Clean u := by
  obtain ⟨l1, ms, held, hl1, rfl⟩ := k
  exact ⟨⟨fun c hc => h.1.1 c (hl1 c hc), h.1.2⟩, h.2⟩

theorem Scrubbed.trans {u v : State} (h : Scrubbed s u) (k : Scrubbed u v) : Scrubbed s v := by
  obtain ⟨l1, ms, held, hl1, rfl⟩ := h
  obtain ⟨l1', ms', held', hl1', rfl⟩ := k
  exact ⟨l1', ms', held', fun c hc => hl1 c (hl1' c hc), rfl⟩

theorem State.scrub_clean (h : Clean s) (pad : Nat) (secure : Bool) (core : Nat) : Scrubbed s (s.scrub pad secure core) := by
  unfold State.scrub
  extract_lets last dirty u
  have hu : Scrubbed s u := ⟨s.l1, s.mangers, _, fun _ h => h, rfl⟩
  split
  · refine hu.trans ?_
    obtain ⟨⟨hl1, -⟩, hpart⟩ := hu.clean h
    rw [State.scrubCore_clean (fun c hc => by simp [hl1 c hc]) fun x hx => by simp [hpart x hx]]
    exact ⟨_, _, _, fun c hc => (List.mem_filter.1 hc).1, rfl⟩
  · exact hu

/-- The cores that a context returns to are scrubbed as for a dispatch (R371). -/
def State.scrubFor (s : State) (pad : Nat) (f : Nat → Nat) (ts : List Troop) : State :=
  ts.foldl (fun s t => if t.ended then s else s.scrub pad t.secure (f t.core)) s

theorem State.scrubFor_clean (pad : Nat) (f : Nat → Nat) (ts : List Troop) : ∀ {s : State}, Clean s → Scrubbed s (s.scrubFor pad f ts) := by
  induction ts with
  | nil => exact fun {s} _ => ⟨s.l1, s.mangers, s.lastHeld, fun _ h => h, rfl⟩
  | cons t ts ih =>
    intro s h
    by_cases he : t.ended = true
    · rw [State.scrubFor, List.foldl_cons, if_pos he]
      exact ih h
    · have hs := State.scrub_clean h pad t.secure (f t.core)
      rw [State.scrubFor, List.foldl_cons, if_neg he]
      exact hs.trans (ih (hs.clean h))

/-- A core that a context returns to drops its read copies. -/
def State.landCore (s : State) (core : Nat) : State := (s.acquire core .sys fun _ => true).trimL1 core

/-- With no copy left and no partial line, the L1 has room. -/
theorem State.landCore_clean (h : Clean s) (core : Nat) : s.landCore core = s.acquire core .sys fun _ => true := by
  have hl1 : (s.acquire core .sys fun _ => true).l1.filter (·.place == core) = [] := List.filter_eq_nil_iff.2 fun c hc => by
    obtain ⟨hc, hkeep⟩ := (State.mem_acquire_l1 ..).1 hc
    simpa [h.1.1 c hc, Level.code] using hkeep
  have hpart : s.partials.filter (fun p => p.core == core && !p.slot) = [] := List.filter_eq_nil_iff.2 fun x hx => by simp [h.2 x hx]
  have hload : (s.acquire core .sys fun _ => true).l1Load core = 0 := by
    rw [State.l1Load, hl1, show (s.acquire core .sys fun _ => true).partials = s.partials from rfl, hpart]
    rfl
  rw [State.landCore, State.trimL1, hload, Nat.zero_sub]
  rfl

/-- The L2 copies that stay in the die of a core that a context returns to are those of its own lines. -/
theorem State.acquire_l2_home (h : Clean s) {core : Nat} {c : CacheLine} (hc : c ∈ (s.acquire core .sys fun _ => true).l2)
    (hp : c.place = dieOf core) : onDevice c.line = true ∧ homeDie c.line = dieOf core := by
  obtain ⟨hc, hkeep⟩ := List.mem_filter.1 hc
  by_cases hon : onDevice c.line = true
  · simp [h.1.2 c hc, hp, Level.code, hon] at hkeep
    exact ⟨hon, hkeep⟩
  · simp [h.1.2 c hc, hp, Level.code, hon] at hkeep

/-- Nothing but copies that a context's new cores must not read have gone. -/
def Landed (cores : List Nat) (s u : State) : Prop :=
  ∃ l1 l2, u = { s with l1 := l1, l2 := l2 } ∧ (∀ c ∈ l1, c ∈ s.l1) ∧ (∀ c ∈ l2, c ∈ s.l2) ∧
    ∀ k ∈ cores, (∀ c ∈ l1, c.place ≠ k) ∧ ∀ c ∈ l2, c.place = dieOf k → onDevice c.line = true ∧ homeDie c.line = dieOf k

theorem State.landCores_clean (cores : List Nat) : ∀ {s : State}, Clean s → Landed cores s (cores.foldl State.landCore s) := by
  induction cores with
  | nil => exact fun {s} _ => ⟨s.l1, s.l2, rfl, fun _ h => h, fun _ h => h, by simp⟩
  | cons k ks ih =>
    intro s h
    rw [List.foldl_cons, State.landCore_clean h]
    have hsub : ∀ c ∈ (s.acquire k .sys fun _ => true).l1, c ∈ s.l1 := fun c hc => ((State.mem_acquire_l1 ..).1 hc).1
    have hsub2 : ∀ c ∈ (s.acquire k .sys fun _ => true).l2, c ∈ s.l2 := fun c hc => (List.mem_filter.1 hc).1
    have hclean : Clean (s.acquire k .sys fun _ => true) :=
      ⟨⟨fun c hc => h.1.1 c (hsub c hc), fun c hc => h.1.2 c (hsub2 c hc)⟩, h.2⟩
    obtain ⟨l1, l2, hu, hl1, hl2, hks⟩ := ih hclean
    refine ⟨l1, l2, hu, fun c hc => hsub c (hl1 c hc), fun c hc => hsub2 c (hl2 c hc), fun j hj => ?_⟩
    rcases List.mem_cons.1 hj with rfl | hj
    · refine ⟨fun c hc hp => ?_, fun c hc => State.acquire_l2_home h (hl2 c hc)⟩
      obtain ⟨hc, hkeep⟩ := (State.mem_acquire_l1 ..).1 (hl1 c hc)
      simp [h.1.1 c hc, Level.code, hp] at hkeep
    · exact hks j hj

end

section
variable (s : State) (p : Paddock) (x : Context) (g f : Nat → Nat) (cores : List Nat)

/-- What a context holds joins the machine on its new places. -/
def State.rejoin : State :=
  { s with
    strs := s.strs ++ x.strs.map fun z => { z with core := f z.core, age := 0, issued := false }
    troops := s.troops ++ x.troops.map fun t => { t with core := f t.core }
    tandems := s.tandems ++ x.tandems
    bars := s.bars ++ x.bars
    lines := s.lines ++ x.lines.map fun l => l.move g
    accs := s.accs ++ x.accs.map fun a => { a with lines := a.lines.map LineReq.again }
    ops := s.ops ++ x.ops.map fun o => { o with cores := o.cores.map f }
    engs := s.engs ++ x.engs.map fun e => e.move f
    pendJ := s.pendJ ++ x.pendJ
    nodes := s.nodes ++ x.nodes.map fun y => { y with core := f y.core }
    ranges := s.ranges ++ x.ranges
    partials := s.partials ++ x.partials
    mangers := s.mangers ++ x.mangers.map fun m => { m with core := f m.core }
    rings := s.rings ++ x.rings.map fun r => { r with core := f r.core }
    batches := s.batches ++ x.batches.map fun b => { b with core := f b.core }
    steals := s.steals ++ x.steals.map fun y => { y with thief := f y.thief }
    jobs := s.jobs ++ x.jobs.map fun j => j.move f cores
    launches := s.launches ++ x.launches.map fun l => l.move f
    queues := mergeQueues x.queues s.queues
    refusals := s.refusals ++ x.refusals.map fun r => (r.1.move f, r.2)
    contexts := s.contexts.erase x }

theorem State.restore_eq : s.restore p x g f cores = x.railed.foldl (fun s e => s.present (e.move f))
    (((x.cores.map f).dedup).foldl State.landCore ((s.scrubFor p.n f x.troops).rejoin x g f cores)) := rfl

end

/-- A machine whose caches hold nothing alone has its context again, before its hitched requests are presented. -/
theorem State.restores {s : State} {x : Context} (p : Paddock) (g f : Nat → Nat) (cores : List Nat) (hauth : NoAuthority s)
    (hpart : ∀ y ∈ s.partials ++ x.partials, y.slot = true) :
    Restores s (((x.cores.map f).dedup).foldl State.landCore ((s.scrubFor p.n f x.troops).rejoin x g f cores)) x g f := by
  have hclean : Clean s := ⟨hauth, fun y hy => hpart y (List.mem_append_left _ hy)⟩
  have hscrub := State.scrubFor_clean p.n f x.troops hclean
  have hscrubbed := hscrub.clean hclean
  obtain ⟨l1, ms, held, -, hu⟩ := hscrub
  have hrejoin : Clean ((s.scrubFor p.n f x.troops).rejoin x g f cores) := by
    refine ⟨hscrubbed.1, ?_⟩
    rw [hu]
    exact hpart
  obtain ⟨l1', l2', hv, -, -, hcores⟩ := State.landCores_clean (x.cores.map f).dedup hrejoin
  rw [hv, hu]
  refine ⟨rfl, rfl, rfl, rfl, rfl, rfl, rfl, rfl, rfl, rfl, rfl, rfl, ⟨ms, rfl⟩, rfl, ⟨_, rfl, ?_⟩, rfl, rfl, fun k hk => ?_, rfl, rfl⟩
  · rw [List.map_map]
    rfl
  · exact hcores (f k) (List.mem_dedup.2 (List.mem_map_of_mem hk))

/-- Settles O53: each command by its checks, a reset and a resumption by what they leave where the caches hold nothing alone. -/
theorem preemption : Obligations.Preemption := by
  unfold Obligations.Preemption
  refine ⟨fun s pad slot p hp => ?_, fun s pad slot p hp => ?_, fun s pad slot p hp => ?_, fun s pad p hp => ?_,
    fun s core p hp => ⟨fun hst hm => ?_, fun h => ?_⟩, fun s p slot => ?_,
    fun s p hp hauth hheld hin hc hd => State.resets hp hauth hheld hin hc hd,
    fun s p x g f cores hauth hpart => ⟨_, State.restores p g f cores hauth hpart, State.restore_eq ..⟩⟩
  · obtain rfl := State.pad_n hp
    exact ⟨_, exec_drain hp, State.cmdDrain_busy, fun h hh => State.cmdDrain_refused h (cutCheck_halted hh),
      fun h hh hs => State.cmdDrain_refused h (cutCheck_noSlot hh hs), fun h hh hs => State.cmdDrain_begins h (cutCheck_passes hh hs)⟩
  · obtain rfl := State.pad_n hp
    have goes : (p.busy = false ∧ ¬(p.st = .saved ∨ p.st = .reset)) ∨ p.st = .draining →
        (p.busy = false ∨ p.st = .draining) ∧ ¬(p.st = .saved ∨ p.st = .reset) := fun h => by
      rcases h with ⟨hb, hh⟩ | hd
      · exact ⟨.inl hb, hh⟩
      · exact ⟨.inr hd, by simp [hd]⟩
    exact ⟨_, exec_cut hp, State.cmdCut_busy, fun h hh => State.cmdCut_refused (.inl h) (cutCheck_halted hh),
      fun h hs => State.cmdCut_refused (goes h).1 (cutCheck_noSlot (goes h).2 hs),
      fun h hs => State.cmdCut_begins (goes h).1 (cutCheck_passes (goes h).2 hs)⟩
  · obtain rfl := State.pad_n hp
    exact ⟨_, exec_resume hp, State.cmdResume_busy, State.cmdResume_running, State.cmdResume_noSlot, State.cmdResume_notGiven,
      State.cmdResume_noContext, fun h hr hs hg x hx => ⟨State.cmdResume_noCores h hr hs hg hx,
        fun cm km => State.cmdResume_restores h hr hs hg hx⟩⟩
  · refine ⟨exec_reset hp, exec_vfFlr hp, fun h => ?_, fun h => ?_, fun h => ?_, fun h => ?_,
      fun h us => exec_cutComplete_waits hp h, fun hst hr hc us => exec_cutComplete_noBlock hp hst hr hc,
      fun hst hr hc us s' hb => exec_cutComplete_block hp hst hr hc hb⟩
    · rw [exec_cutboundExpiry hp, if_pos h]
    · rw [exec_cutboundExpiry hp, if_neg h]
    · rw [exec_drainDeadlineExpiry hp, if_pos h]; rfl
    · rw [exec_drainDeadlineExpiry hp, if_neg h]
  · rw [exec_reinMarkerArrival hp, if_pos ⟨hst, hm⟩]
  · rw [exec_reinMarkerArrival hp, if_neg (by tauto)]
  · refine ⟨fun t ht => ne_of_filter ht, fun t => ?_, fun z => not_mem_filter_not, fun z => mem_filter_or _,
      fun l => not_mem_filter_not, fun l => mem_filter_or _, rfl, rfl⟩
    exact List.mem_filter.trans (and_congr_right' beq_iff_eq)

end Sys2Proof.Machine
end

section
/-! PROOFS. The tile registers (O42): a register that takes a value lets the node of its old one go; TDEF, TDROP and TSTAT; and the
instructions that append a node, which the register that names it keeps. -/

namespace Sys2Proof.Machine

open Sys2Proof.Claims

/-! ### Nodes that nothing names (R169) -/

/-- The states that differ from `s` at most in that nodes have gone. -/
def FewerNodes (s u : State) : Prop := u = { s with nodes := u.nodes } ∧ ∀ x ∈ u.nodes, x ∈ s.nodes

theorem FewerNodes.refl (s : State) : FewerNodes s s := ⟨rfl, fun _ h => h⟩

theorem FewerNodes.sweep {s u : State} (h : FewerNodes s u) : FewerNodes s { u with nodes := u.nodes.filter u.nodeKept } :=
  ⟨by rw [h.1], fun x hx => h.2 x (List.mem_filter.1 hx).1⟩

theorem FewerNodes.foldl_sweep {s : State} (xs : List Node) : ∀ {u : State}, FewerNodes s u →
    FewerNodes s (xs.foldl (fun u _ => { u with nodes := u.nodes.filter u.nodeKept }) u) := by
  induction xs with
  | nil => exact fun {u} h => h
  | cons x xs ih => exact fun {u} h => ih h.sweep

theorem State.freeNodes_fewer (s : State) : FewerNodes s s.freeNodes := .foldl_sweep s.nodes (.refl s)

/-- A tile register of the node's troop names it. -/
def State.regNames (s : State) (x : Node) : Prop := ∃ z ∈ s.strs, z.tid = x.tid ∧ ∃ e ∈ z.t, e.2 = .node x.n

theorem State.nodeKept_of_regNames {s : State} {x : Node} (h : s.regNames x) : s.nodeKept x = true := by
  obtain ⟨z, hz, htid, e, he, hnames⟩ := h
  have hstr : z ∈ s.strsOf x.tid := List.mem_filter.2 ⟨hz, by simpa using htid⟩
  have hreg : (s.strsOf x.tid).any (fun z => z.t.any (fun e => e.2.names x.n) || z.tiles.any (fun e => e.val.names x.n)) = true :=
    List.any_eq_true.2 ⟨z, hstr, Bool.or_eq_true_iff.2 (.inl (List.any_eq_true.2 ⟨e, he, by simp [hnames, TileVal.names]⟩))⟩
  simp only [State.nodeKept, hreg, Bool.or_true, Bool.true_or]

/-- A node that a register names stays. -/
theorem State.mem_freeNodes {s : State} {x : Node} (hx : x ∈ s.nodes) (h : s.regNames x) : x ∈ s.freeNodes.nodes := by
  have keeps (xs : List Node) : ∀ u : State, x ∈ u.nodes → u.strs = s.strs →
      x ∈ (xs.foldl (fun (u : State) (_ : Node) => { u with nodes := u.nodes.filter u.nodeKept }) u).nodes := by
    induction xs with
    | nil => exact fun _ hu _ => hu
    | cons y ys ih =>
      refine fun u hu hs => ih _ (List.mem_filter.2 ⟨hu, State.nodeKept_of_regNames ?_⟩) hs
      unfold State.regNames
      rw [hs]
      exact h
  exact keeps s.nodes s hx rfl

/-! ### A tile register takes a value (R169, R176) -/

/-- The string after a tile register has taken a value. -/
def Str.putTile (z : Str) (depth n : Nat) (v : TileVal) : Str := { z.recordTile depth n with t := Cells.set .empty z.t n v }

section
variable (z : Str) (depth n : Nat) (v : TileVal)

theorem Str.recordTile_eq : z.recordTile depth n = { z with tiles := (z.recordTile depth n).tiles } := by
  unfold Str.recordTile
  split <;> rfl

theorem Str.putTile_eq : z.putTile depth n v = { z with t := (z.putTile depth n v).t, tiles := (z.putTile depth n v).tiles } := by
  unfold Str.putTile
  rw [z.recordTile_eq]

theorem Str.putTile_tiles (h : depth = 0) : (z.putTile depth n v).tiles = z.tiles := by
  simp [Str.putTile, Str.recordTile, h]

theorem Str.treg_putTile (m : Nat) : (z.putTile depth n v).treg m = if m = n then v else z.treg m := Cells.get_set ..

end

theorem Cells.mem_of_get {β : Type} {d v : β} {m : Cells β} {k : Nat} (h : Cells.get d m k = v) (hv : v ≠ d) : (k, v) ∈ m := by
  induction m with
  | nil => exact absurd h.symm hv
  | cons e m ih =>
    rw [Cells.get] at h
    split at h
    next hk => exact hk ▸ h ▸ List.mem_cons_self
    · exact List.mem_cons_of_mem _ (ih h)

theorem mem_updFirst_of_find {α : Type} {p : α → Bool} {f : α → α} {xs : List α} {x : α} (h : xs.find? p = some x) :
    f x ∈ updFirst p f xs := by
  induction xs with
  | nil => simp at h
  | cons y ys ih =>
    rw [updFirst]
    cases hy : p y
    · rw [List.find?_cons_of_neg (by simp [hy])] at h
      simpa using .inr (ih h)
    · rw [List.find?_cons_of_pos hy] at h
      simp [Option.some.inj h]

section
variable {s : State} {sid : Nat} {z : Str} {t : Troop}

/-- A register takes a value: the string's tile registers change, perhaps with a record, and nodes that nothing names go. -/
theorem State.setTile_eq (hz : s.str? sid = some z) (ht : s.troop? z.tid = some t) (n : Nat) (v : TileVal) :
    ∃ ns, s.setTile sid n v = { s with nodes := ns }.updStr sid (fun _ => z.putTile t.depth n v) ∧ (∀ x ∈ ns, x ∈ s.nodes) ∧
      ∀ x ∈ s.nodes, x.tid = z.tid → v = .node x.n → x ∈ ns := by
  have hwrite : s.writeT sid n v = s.updStr sid fun _ => z.putTile t.depth n v := by
    unfold State.writeT
    rw [hz]
    dsimp only
    rw [State.updStr_const hz, State.depthOf_eq ht, z.recordTile_eq]
    rw [Str.putTile, z.recordTile_eq]
  have hfewer := (s.updStr sid fun _ => z.putTile t.depth n v).freeNodes_fewer
  refine ⟨(s.updStr sid fun _ => z.putTile t.depth n v).freeNodes.nodes, ?_, hfewer.2, fun x hx htid hv => ?_⟩
  · rw [State.setTile, hwrite]
    exact hfewer.1
  · subst hv
    refine State.mem_freeNodes hx ⟨z.putTile t.depth n (.node x.n), mem_updFirst_of_find hz, ?_, (n, .node x.n), ?_, rfl⟩
    · rw [z.putTile_eq]
      exact htid.symm
    · refine Cells.mem_of_get (d := .empty) ?_ (by simp)
      exact (z.treg_putTile t.depth n (.node x.n) n).trans (if_pos rfl)

end

/-- An instruction that without a participant does nothing, and else gives a tile register a value. -/
theorem SetsTile.of {i : Instr} {d : Byte} {pre : State → Cur → Str → Troop → Prop} {val : Cur → Str → TileVal}
    {go : State → Cur → Str → State} (hx : ∀ s, exec i s = s.issue i noCheck fun c z _ => if c.parts = 0 then s else go s c z)
    (hgo : ∀ s c z t, pre s c z t → go s c z = s.setTile c.sid d.toNat (val c z)) : SetsTile i d pre val := by
  refine ⟨fun s c z t h ho hc => exec_of_effect (hx s) h ho rfl (if_pos hc) rfl, fun s c z t h ho hc hp => ?_⟩
  obtain ⟨ns, e, hns, -⟩ := State.setTile_eq h.str h.troop d.toNat (val c z)
  refine ⟨z.putTile t.depth d.toNat (val c z), ns, exec_of_effect (hx s) h ho rfl ?_ rfl, hns, z.putTile_eq ..,
    z.putTile_tiles _ _ _, z.treg_putTile _ _ _⟩
  exact (if_neg hc).trans ((hgo s c z t hp).trans e)

/-! ### A node is appended (R158 to R163, R173) -/

/-- The lowest free entry of a core. -/
theorem State.lowest_entry {s : State} {core n : Nat} (hn : n < 256) (hfree : ∀ y ∈ s.nodes, y.core = core → y.n ≠ n)
    (hused : ∀ m < n, ∃ y ∈ s.nodes, y.core = core ∧ y.n = m) :
    ((List.range 256).find? fun n => !s.nodes.any fun y => y.core == core && y.n == n) = some n := by
  rw [List.find?_range_eq_some]
  refine ⟨?_, List.mem_range.2 hn, fun m hm => ?_⟩
  · simpa using hfree
  · simpa using hused m hm

section
variable {s : State} {c : Cur} {z : Str} {t : Troop} {x : Node} {n : Nat}

theorem State.placeNode_eq (hz : s.str? c.sid = some z) (ht : s.troop? z.tid = some t) (htid : x.tid = z.tid) (hn : n < 256)
    (hfree : ∀ y ∈ s.nodes, y.core = x.core → y.n ≠ n) (hused : ∀ m < n, ∃ y ∈ s.nodes, y.core = x.core ∧ y.n = m) (d : Byte) :
    ∃ ns, s.placeNode c d x =
        { s with nodes := ns, nextId := s.nextId + 1 }.updStr c.sid (fun _ => z.putTile t.depth d.toNat (.node n)) ∧
      { x with n := n, seq := s.nextId } ∈ ns ∧ ∀ y ∈ ns, y ∈ s.nodes ∨ y = { x with n := n, seq := s.nextId } := by
  let u : State := { s with nextId := s.nextId + 1, nodes := s.nodes ++ [{ x with n := n, seq := s.nextId }] }
  obtain ⟨ns, e, hns, hkept⟩ := State.setTile_eq (s := u) hz ht d.toNat (.node n)
  refine ⟨ns, ?_, hkept _ (by simp [u]) htid rfl, fun y hy => ?_⟩
  · rw [State.placeNode, State.lowest_entry hn hfree hused]
    exact e
  · simpa [u] using hns y hy

variable {again : Str → Option Node} (d : Byte)

theorem State.append_unfit (hz : s.str? c.sid = some z) (h : again z = none) : s.append c t d again = s.raise c .tileShape := by
  unfold State.append
  rw [hz, Option.bind_some, h]

theorem State.append_fit (hz : s.str? c.sid = some z) (h : again z = some x)
    (hquota : (s.nodes.filter (·.tid == t.tid)).length < t.stq) : s.append c t d again = s.placeNode c d x := by
  unfold State.append
  rw [hz, Option.bind_some, h]
  exact if_pos hquota

theorem State.append_full (hz : s.str? c.sid = some z) (h : again z ≠ none)
    (hquota : t.stq ≤ (s.nodes.filter (·.tid == t.tid)).length) (hnone : t.stq = 0 ∨ t.stSpill.size = 0) :
    s.append c t d again = s.raise c .stableOverflow := by
  obtain ⟨x, hx⟩ := Option.ne_none_iff_exists'.1 h
  unfold State.append
  rw [hz, Option.bind_some, hx]
  exact (if_neg (Nat.not_lt.2 hquota)).trans (if_pos (by simpa using hnone))

end

/-- An instruction that without a participant does nothing, and else appends the node that its string's registers give. -/
theorem Appends.of {i : Instr} {d : Byte} {node : State → Cur → Str → Troop → Option Node}
    {again : State → Cur → Troop → Str → Option Node}
    (hx : ∀ s, exec i s = s.issue i noCheck fun c _ t => if c.parts = 0 then s else s.append c t d (again s c t))
    (hagain : ∀ s c z t, again s c t z = node s c z t) (htid : ∀ s c z t x, node s c z t = some x → x.tid = t.tid) :
    Appends i d node := by
  refine ⟨fun s c z t h ho hc => exec_of_effect (hx s) h ho rfl (if_pos hc) rfl,
    fun s c z t x n h ho hc hnode hquota hn hfree hused => ?_, Traps.of hx fun s c z t h ⟨hc, hnode⟩ => ?_,
    Traps.of hx fun s c z t h ⟨hc, hnode, hquota, hnone⟩ => ?_⟩
  · have hown : x.tid = z.tid := (htid s c z t x hnode).trans (State.troop_tid h.troop)
    obtain ⟨ns, e, hmem, hns⟩ := State.placeNode_eq h.str h.troop hown hn hfree hused d
    refine ⟨z.putTile t.depth d.toNat (.node n), ns, exec_of_effect (hx s) h ho rfl ?_ rfl, hmem, hns, z.putTile_eq ..,
      z.putTile_tiles _ _ _, z.treg_putTile _ _ _⟩
    exact (if_neg hc).trans ((State.append_fit d h.str ((hagain s c z t).trans hnode) hquota).trans e)
  · exact (if_neg hc).trans (State.append_unfit d h.str ((hagain s c z t).trans hnode))
  · exact (if_neg hc).trans (State.append_full d h.str (by rwa [hagain]) hquota hnone)

/-- A node that is appended where its inputs fit has the id that it was given. -/
theorem tid_of_ite {p : Prop} [Decidable p] {x y : Node} {tid : Nat} (h : (if p then some y else none) = some x) (hy : y.tid = tid) :
    x.tid = tid := by
  split at h
  · exact Option.some.inj h ▸ hy
  · exact nomatch h

/-! ### The instructions -/

section
variable (o : Operands) (s : State)

theorem exec_tdrop : exec (.tdrop o) s = s.issue (.tdrop o) noCheck fun c _ _ =>
    if c.parts = 0 then s else s.setTile c.sid o.a.toNat .empty := rfl

/-- The view that TDEF makes (R157). -/
def tdefView (o : Operands) (z : Str) : TileVal :=
  let b := z.breg o.a.toNat
  let rows := bitsNat o.imm 7 0 + 1
  let cols := bitsNat o.imm 15 8 + 1
  let layout := bitsNat o.imm 17 16
  let tr := o.imm.getLsbD 18
  let st := if o.spec then naturalStrides layout (if tr then cols else rows) (if tr then rows else cols)
    else (toSigned 32 (bitsNat (z.sreg o.c.toNat) 31 0), toSigned 32 (bitsNat (z.sreg o.c.toNat) 63 32))
  .view { fmt := o.ty, rows := rows, cols := cols, scale := if o.ty.isTap then recScaleBase b / 8192 else 0, cstride := st.2
          rstride := st.1, extent := recExtent b, origin := (bitsNat (z.sreg o.b.toNat) 31 0 : Nat), tr := tr
          layout := layout, oob := recOob b == 1, base := recBase b }

theorem exec_tdef : exec (.tdef o) s = s.issue (.tdef o) noCheck fun c z _ => if c.parts = 0 then s
    else if tdefOk (z.breg o.a.toNat) o.ty (bitsNat o.imm 17 16) = true then s.setTile c.sid o.d.toNat (tdefView o z)
    else s.raise c .tileShape := by
  change execTdef o s = _
  unfold execTdef
  congr 1
  funext c z t
  dsimp only
  split
  · rfl
  · cases tdefOk (z.breg o.a.toNat) o.ty (bitsNat o.imm 17 16)
    · rfl
    · unfold tdefView
      cases o.imm.getLsbD 18 <;> rfl

/-- The status word of a node, as TSTAT reads it (R171). -/
theorem Node.word_eq (x : Node) : x.word = x.epoch * 2 ^ 40 + x.op.code * 2 ^ 32 + (if x.demanded = [] then 0 else 2 ^ 25) +
    (if x.unforced = [] then 2 ^ 24 else 0) + x.n * 2 ^ 16 + x.status := by
  simp only [Node.word, List.isEmpty_iff]

end

/-- Settles O42: a register that takes a value by `State.setTile_eq`, an append by `State.placeNode_eq`. -/
theorem tileRegisters : Obligations.TileRegisters := by
  unfold Obligations.TileRegisters
  refine ⟨fun o => SetsTile.of (exec_tdef o) fun s c z t hfit => if_pos hfit,
    fun o => Traps.of (exec_tdef o) fun s c z t _ ⟨hc, hfit⟩ => (if_neg hc).trans (if_neg hfit),
    fun o => SetsTile.of (exec_tdrop o) fun _ _ _ _ _ => rfl, fun o => SResult.of (fun _ => rfl) fun s c z t _ _ => ?_,
    fun o => Appends.of (fun _ => rfl) (fun s c z t => ?_) fun s c z t x hx => ?_,
    fun o hspec => Appends.of (fun _ => rfl) (fun s c z t => ?_) fun s c z t x hx => ?_,
    fun o hspec => Appends.of (fun _ => rfl) (fun s c z t => ?_) fun s c z t x hx => ?_,
    fun o => Appends.of (fun _ => rfl) (fun s c z t => ?_) fun s c z t x hx => ?_,
    fun o => Appends.of (fun _ => rfl) (fun s c z t => ?_) fun s c z t x hx => ?_,
    fun o => Appends.of (fun _ => rfl) (fun s c z t => ?_) fun s c z t x hx => ?_,
    fun o => Appends.of (fun _ => rfl) (fun s c z t => ?_) fun s c z t x hx => ?_⟩
  · rcases z.treg o.a.toNat with _ | v | n
    · rfl
    · rfl
    dsimp only
    rcases s.node? t.core n with _ | x
    · rfl
    exact congrArg (fun w => s.putScalar c z o.d (BitVec.ofNat 64 w)) x.word_eq
  · beta_reduce
    rcases s.tdesc t.core (z.treg o.a.toNat) with _ | a
    · rfl
    rcases s.tdesc t.core (z.treg o.b.toNat) with _ | b
    · rfl
    exact if_congr (by simp) rfl rfl
  · split at hx
    · exact tid_of_ite hx rfl
    · exact nomatch hx
  · beta_reduce
    rcases s.tdesc t.core (z.treg o.a.toNat) with _ | a
    · rfl
    rcases s.tdesc t.core (z.treg o.b.toNat) with _ | b
    · rfl
    rw [hspec]
    exact if_congr (by simp [and_assoc]) rfl rfl
  · split at hx
    · exact tid_of_ite hx rfl
    · exact nomatch hx
  · beta_reduce
    rcases s.tdesc t.core (z.treg o.a.toNat) with _ | a
    · rfl
    rcases s.tdesc t.core (z.treg o.b.toNat) with _ | b
    · rfl
    rw [hspec]
    rcases s.tdesc t.core (z.treg o.c.toNat) with _ | x
    · exact if_neg (by simp)
    exact if_congr (by simp [and_assoc]) rfl rfl
  · split at hx
    · exact tid_of_ite hx rfl
    · exact nomatch hx
  · beta_reduce
    rcases s.tdesc t.core (z.treg o.a.toNat) with _ | a
    · rfl
    rcases s.tdesc t.core (z.treg o.b.toNat) with _ | b
    · rfl
    exact if_congr (by simp [and_assoc]) rfl rfl
  · split at hx
    · exact tid_of_ite hx rfl
    · exact nomatch hx
  · beta_reduce
    rcases s.tdesc t.core (z.treg o.a.toNat) with _ | a
    · rfl
    cases o.imm.getLsbD 0 <;> rfl
  · split at hx
    · refine tid_of_ite hx ?_
      split <;> rfl
    · exact nomatch hx
  · beta_reduce
    rcases s.tdesc t.core (z.treg o.a.toNat) with _ | a
    · rfl
    exact if_congr (by simp) rfl rfl
  · split at hx
    · exact tid_of_ite hx rfl
    · exact nomatch hx
  · beta_reduce
    rcases s.tdesc t.core (z.treg o.a.toNat) with _ | a
    · rfl
    exact if_congr (by simp [or_assoc]) rfl rfl
  · split at hx
    · exact tid_of_ite hx rfl
    · exact nomatch hx

end Sys2Proof.Machine
end

section
/-! PROOFS. The tile operations (O43): TFORCE, TST and TWALK wait, trap or join the tile counter with a demand of their cells; a TFORCE of a
view retires as it issues; and an operation leaves its counter when it is finished. -/

namespace Sys2Proof.Machine

open Sys2Proof.Claims

/-! ### A tile operation joins its counter (R165, R247) -/

theorem State.startTile_troops (s : State) (t : Troop) (e : EngOp) (demand : Bool) : (s.startTile t e demand).troops = s.troops := by
  unfold State.startTile
  dsimp only
  split
  · split
    · rw [(SameButNodes.demand ..).1]
      rfl
    · rfl
  · rfl

/-- An instruction of the tile counter does nothing without a participant, and waits while it may not start (R247, R248). -/
def State.whenTileFree (s : State) (c : Cur) (go : State) : State :=
  if c.parts = 0 then s else if s.tileHeld c then s.hold else go

theorem State.whenTileFree_idle {s go : State} {c : Cur} (hc : c.parts = 0) : s.whenTileFree c go = s := if_pos hc

theorem State.whenTileFree_held {s go : State} {c : Cur} (hc : c.parts ≠ 0) (hw : s.tileHeld c = true) : s.whenTileFree c go = s.hold := by
  rw [State.whenTileFree, if_neg hc, if_pos hw]

theorem State.whenTileFree_goes {s go : State} {c : Cur} (hc : c.parts ≠ 0) (hw : s.tileHeld c = false) : s.whenTileFree c go = go := by
  rw [State.whenTileFree, if_neg hc, hw, if_neg Bool.false_ne_true]

/-- The idle case and the wait of an instruction of the tile counter. -/
theorem tile_starts {i : Instr} {go : State → Cur → Str → Troop → State}
    (hx : ∀ s, exec i s = s.issue i noCheck fun c z t => s.whenTileFree c (go s c z t)) :
    Completes i (fun _ c _ _ => c.parts = 0) (fun s _ _ _ => s) ∧
      ∀ s c z t, Issues s i c z t → t.overflow = false → c.parts ≠ 0 → s.tileHeld c = true → Held s c i :=
  ⟨fun s _ _ _ h ho hc => exec_of_effect (hx s) h ho rfl (State.whenTileFree_idle hc) rfl,
    fun s _ _ _ h ho hc hw => held_of_effect (hx s) h ho rfl (State.whenTileFree_held hc hw)⟩

/-- An instruction of the tile counter that waits for nothing has its effect. -/
theorem exec_tile {i : Instr} {go : State → Cur → Str → Troop → State} {s u : State} {c : Cur} {z : Str} {t : Troop}
    (hx : ∀ s, exec i s = s.issue i noCheck fun c z t => s.whenTileFree c (go s c z t)) (h : Issues s i c z t) (ho : t.overflow = false)
    (hc : c.parts ≠ 0) (hw : s.tileHeld c = false) (hgo : go s c z t = u) (hu : u.troops = s.troops) : exec i s = .next u :=
  exec_of_effect (hx s) h ho rfl ((State.whenTileFree_goes hc hw).trans hgo) hu

/-- An instruction of the tile counter that waits for nothing and raises a cause traps. -/
theorem tile_traps {i : Instr} {go : State → Cur → Str → Troop → State} {pre : State → Cur → Str → Troop → Prop} {cause : Cause}
    (hx : ∀ s, exec i s = s.issue i noCheck fun c z t => s.whenTileFree c (go s c z t))
    (hgo : ∀ s c z t, pre s c z t → c.parts ≠ 0 ∧ s.tileHeld c = false ∧ go s c z t = s.raise c cause) : Traps i pre cause := by
  refine Traps.of hx fun s c z t _ hp => ?_
  obtain ⟨hc, hw, e⟩ := hgo s c z t hp
  exact (State.whenTileFree_goes hc hw).trans e

/-! ### The boxes of TFORCE and TST (R164, R167) -/

/-- What starts with the box that a scalar register names; a box that does not fit traps (R164). -/
def State.onBox (s : State) (c : Cur) (x : Dword) (a : TDesc) (go : Nat × Nat × Nat × Nat → State) : State :=
  match boxOf x a.rows a.cols with
  | none => s.raise c .tileShape
  | some box => go box

section
variable {s : State} {c : Cur} {x : Dword} {a : TDesc} {go : Nat × Nat × Nat × Nat → State}

theorem State.onBox_none (h : boxOf x a.rows a.cols = none) : s.onBox c x a go = s.raise c .tileShape := by rw [State.onBox, h]

theorem State.onBox_some {box : Nat × Nat × Nat × Nat} (h : boxOf x a.rows a.cols = some box) : s.onBox c x a go = go box := by
  rw [State.onBox, h]

end

/-- A TFORCE of a box begins: of a view it retires at once where it is the oldest of its class. -/
def State.beginForce (s : State) (c : Cur) (z : Str) (t : Troop) (src : TileVal) (box : Nat × Nat × Nat × Nat) : State :=
  let e := tileOpOf s c z t .tforce .str src .empty box
  match src with
  | .view _ => if (s.startTile t e true).olderEng e then s.startTile t e true else (s.startTile t e true).retireEng e
  | _ => s.startTile t e true

def State.tforceGo (s : State) (o : Operands) (c : Cur) (z : Str) (t : Troop) : State :=
  match s.tdesc t.core (z.treg o.a.toNat) with
  | none => s.raise c .tileShape
  | some a => s.onBox c (z.sreg o.b.toNat) a (s.beginForce c z t (z.treg o.a.toNat))

def State.tstGo (s : State) (o : Operands) (c : Cur) (z : Str) (t : Troop) : State :=
  match s.tdesc t.core (z.treg o.a.toNat), z.treg o.d.toNat with
  | some a, .view v =>
    if a.rows != v.rows || a.cols != v.cols || !tstPair v.fmt a.fmt then s.raise c .tileShape
    else s.onBox c (z.sreg o.b.toNat) a fun box =>
      s.startTile t (tileOpOf s c z t .tst o.level (z.treg o.a.toNat) (.view v) box) true
  | _, _ => s.raise c .tileShape

theorem exec_tforce (o : Operands) (s : State) :
    exec (.tforce o) s = s.issue (.tforce o) noCheck fun c z t => s.whenTileFree c (s.tforceGo o c z t) := rfl

theorem exec_tst (o : Operands) (s : State) :
    exec (.tst o) s = s.issue (.tst o) noCheck fun c z t => s.whenTileFree c (s.tstGo o c z t) := rfl

section
variable {s : State} {o : Operands} {c : Cur} {z : Str} {t : Troop} {a : TDesc} {v : View} {box : Nat × Nat × Nat × Nat}

theorem State.tforceGo_box (ha : s.tdesc t.core (z.treg o.a.toNat) = some a) (hbox : boxOf (z.sreg o.b.toNat) a.rows a.cols = some box) :
    s.tforceGo o c z t = s.beginForce c z t (z.treg o.a.toNat) box := by
  rw [State.tforceGo, ha]
  exact State.onBox_some hbox

theorem State.tforceGo_unfit (h : ∀ a, s.tdesc t.core (z.treg o.a.toNat) = some a → boxOf (z.sreg o.b.toNat) a.rows a.cols = none) :
    s.tforceGo o c z t = s.raise c .tileShape := by
  unfold State.tforceGo
  split
  · rfl
  next a ha => exact State.onBox_none (h a ha)

/-- A TFORCE of a view is no older than the operations of its class, which there are none of, and retires as it joins. -/
theorem State.beginForce_view (hz : s.str? c.sid = some z) (hids : ∀ e ∈ s.engs, e.id ≠ s.nextId)
    (hnone : ∀ e ∈ s.engs, e.sid = c.sid → e.kind.cls ≠ 1) (hpend : ∀ f ∈ s.pendFlags, f.1 ≠ s.nextId) :
    s.beginForce c z t (.view v) box =
      { s with nextId := s.nextId + 1 }.updStr c.sid fun _ => z.unpark (s.cwaitOver c.sid) := by
  have hold : s.olderEng (tileOpOf s c z t .tforce .str (.view v) .empty box) = false := by
    simp only [State.olderEng, List.any_eq_false, Bool.and_eq_true, beq_iff_eq]
    rintro e he ⟨⟨hsid, hcls⟩, -⟩
    exact hnone e he hsid hcls
  have hjoined : (s.joinEng (tileOpOf s c z t .tforce .str (.view v) .empty box)).olderEng
      (tileOpOf s c z t .tforce .str (.view v) .empty box) = false := State.olderEng_joinEng.trans hold
  refine (if_neg (Bool.eq_false_iff.1 hjoined)).trans ?_
  exact State.retireEng_joinEng (e := tileOpOf s c z t .tforce .str (.view v) .empty box) hz hids hpend rfl rfl

theorem State.tstGo_box (ha : s.tdesc t.core (z.treg o.a.toNat) = some a) (hv : z.treg o.d.toNat = .view v) (hrows : a.rows = v.rows)
    (hcols : a.cols = v.cols) (hpair : tstPair v.fmt a.fmt = true) (hbox : boxOf (z.sreg o.b.toNat) a.rows a.cols = some box) :
    s.tstGo o c z t = s.startTile t (tileOpOf s c z t .tst o.level (z.treg o.a.toNat) (.view v) box) true := by
  rw [State.tstGo, ha, hv]
  dsimp only
  rw [if_neg (by simp [hrows, hcols, hpair])]
  exact State.onBox_some hbox

theorem State.tstGo_unfit (h : ∀ a v, s.tdesc t.core (z.treg o.a.toNat) = some a → z.treg o.d.toNat = .view v → a.rows = v.rows →
    a.cols = v.cols → tstPair v.fmt a.fmt = true → boxOf (z.sreg o.b.toNat) a.rows a.cols = none) :
    s.tstGo o c z t = s.raise c .tileShape := by
  unfold State.tstGo
  split
  next a v ha hv =>
    split
    · rfl
    next hfit =>
      obtain ⟨⟨hrows, hcols⟩, hpair⟩ : (a.rows = v.rows ∧ a.cols = v.cols) ∧ tstPair v.fmt a.fmt = true := by simpa using hfit
      exact State.onBox_none (h a v ha hv hrows hcols hpair)
  · rfl

end

/-! ### TWALK (R170) -/

/-- The leaf views of a node, as a walk counts them. -/
def State.leavesOf (s : State) (t : Troop) (n : Nat) : Nat :=
  leafCount (s.nodes.filter fun (y : Node) => y.core == t.core) 257 (.node n) 0

/-- The shapes, the formats and the register of a TWALK are in order. -/
def WalkFits (x : Dword) (v : View) (a : TDesc) (leaves : Nat) : Prop :=
  a.rows = v.rows ∧ a.cols = v.cols ∧ tstPair v.fmt a.fmt = true ∧ bitsNat x 63 32 ≤ 7 ∧ bitsNat x 15 0 ≠ 0 ∧ bitsNat x 31 16 ≠ 0 ∧
    (bitsNat x 63 32 = 0 ∨ bitsNat x 63 32 = 7 ∨ v.fmt.isInt = true) ∧ leaves ≤ 31

/-- The operation of a TWALK (R170). -/
def walkOpOf (s : State) (o : Operands) (c : Cur) (z : Str) (t : Troop) (n : Nat) (v : View) (a : TDesc) (table : List (Int × Int)) :
    EngOp :=
  { tileOpOf s c z t .twalk o.level (.node n) (.view v) (0, 0, a.rows, a.cols) with
    rows := bitsNat (z.sreg o.c.toNat) 15 0, cols := bitsNat (z.sreg o.c.toNat) 31 16, op := bitsNat (z.sreg o.c.toNat) 63 32
    off := (z.sreg o.b.toNat).toNat, table := table, tree := walkTree (s.nodes.filter fun (y : Node) => y.core == t.core) (.node n) }

/-- A walk that fits reads its table and starts. -/
def State.beginWalk (s : State) (o : Operands) (c : Cur) (z : Str) (t : Troop) (n : Nat) (v : View) (a : TDesc) : State :=
  match t.walkTable (z.sreg o.b.toNat).toNat (s.leavesOf t n + 1) with
  | .error f => s.raise c f
  | .ok table => s.joinEng (walkOpOf s o c z t n v a table)

theorem not_walkFits_iff {x : Dword} {v : View} {a : TDesc} {leaves : Nat} : ¬ WalkFits x v a leaves ↔
    (a.rows != v.rows || a.cols != v.cols || !tstPair v.fmt a.fmt || decide (7 < bitsNat x 63 32) || bitsNat x 15 0 == 0 ||
      bitsNat x 31 16 == 0 || (decide (1 ≤ bitsNat x 63 32) && decide (bitsNat x 63 32 ≤ 6) && !v.fmt.isInt) || decide (31 < leaves)) =
        true := by
  have hacc (m : Nat) (b : Bool) (h : m ≤ 7) : ¬(m = 0 ∨ m = 7 ∨ b = true) ↔ (1 ≤ m ∧ m ≤ 6) ∧ b = false := by
    cases b <;> simp only [Bool.true_eq_false, Bool.false_eq_true, or_true, or_false, not_true_eq_false, and_true, and_false]
    omega
  by_cases h : bitsNat x 63 32 ≤ 7
  · simp only [WalkFits, not_and_or, hacc _ _ h, Bool.or_eq_true, Bool.and_eq_true, bne_iff_ne, beq_iff_eq, decide_eq_true_eq,
      Bool.not_eq_true', ne_eq, not_not, Nat.not_le, Bool.not_eq_true, or_assoc]
  · simp [WalkFits, h, Nat.lt_of_not_le h]

section
variable {s : State} {o : Operands} {c : Cur} {z : Str} {t : Troop} {n : Nat} {a : TDesc} {v : View}

/-- What a TWALK does that need not wait. -/
def State.twalkGo (s : State) (o : Operands) (c : Cur) (z : Str) (t : Troop) : State :=
  if bitsNat (z.sreg o.c.toNat) 63 32 = 7 && t.held then s.raise c .recoveryEscape
  else match z.treg o.a.toNat, z.treg o.d.toNat with
    | .node n, .view v =>
      match s.tdesc t.core (.node n) with
      | none => s.raise c .tileShape
      | some a =>
        if a.rows != v.rows || a.cols != v.cols || !tstPair v.fmt a.fmt || decide (7 < bitsNat (z.sreg o.c.toNat) 63 32) ||
            bitsNat (z.sreg o.c.toNat) 15 0 == 0 || bitsNat (z.sreg o.c.toNat) 31 16 == 0 ||
            (decide (1 ≤ bitsNat (z.sreg o.c.toNat) 63 32) && decide (bitsNat (z.sreg o.c.toNat) 63 32 ≤ 6) && !v.fmt.isInt) ||
            decide (31 < s.leavesOf t n) then s.raise c .tileShape
        else s.beginWalk o c z t n v a
    | _, _ => s.raise c .tileShape

theorem exec_twalk (o : Operands) (s : State) :
    exec (.twalk o) s = s.issue (.twalk o) noCheck fun c z t => s.whenTileFree c (s.twalkGo o c z t) := by
  change execTwalk o s = _
  unfold execTwalk
  congr 1
  funext c z t
  unfold State.whenTileFree State.twalkGo State.beginWalk State.leavesOf
  dsimp only
  cases z.treg o.a.toNat with
  | node n => cases z.treg o.d.toNat <;> rfl
  | empty => rfl
  | view w => rfl

theorem State.twalkGo_escapes (hacc : bitsNat (z.sreg o.c.toNat) 63 32 = 7) (hprot : t.protect ≠ none) :
    s.twalkGo o c z t = s.raise c .recoveryEscape := if_pos (by simp [hacc, Troop.held_of_protect hprot])

theorem walk_stays (hfree : bitsNat (z.sreg o.c.toNat) 63 32 = 7 → t.protect = none) :
    ¬ (decide (bitsNat (z.sreg o.c.toNat) 63 32 = 7) && t.held) = true := by
  simp only [Bool.and_eq_true, decide_eq_true_eq, not_and, Bool.not_eq_true]
  exact fun h => Troop.not_held (hfree h)

theorem State.twalkGo_begins (hfree : bitsNat (z.sreg o.c.toNat) 63 32 = 7 → t.protect = none) (hn : z.treg o.a.toNat = .node n)
    (hv : z.treg o.d.toNat = .view v) (ha : s.tdesc t.core (z.treg o.a.toNat) = some a)
    (hfit : WalkFits (z.sreg o.c.toNat) v a (s.leavesOf t n)) : s.twalkGo o c z t = s.beginWalk o c z t n v a := by
  rw [hn] at ha
  refine (if_neg (walk_stays hfree)).trans ?_
  rw [hn, hv]
  dsimp only
  rw [ha]
  exact if_neg (mt not_walkFits_iff.2 (not_not.2 hfit))

theorem State.twalkGo_unfit (hfree : bitsNat (z.sreg o.c.toNat) 63 32 = 7 → t.protect = none)
    (h : ∀ n v a, z.treg o.a.toNat = .node n → z.treg o.d.toNat = .view v → s.tdesc t.core (z.treg o.a.toNat) = some a →
      ¬ WalkFits (z.sreg o.c.toNat) v a (s.leavesOf t n)) : s.twalkGo o c z t = s.raise c .tileShape := by
  refine (if_neg (walk_stays hfree)).trans ?_
  split
  next n v hn hv =>
    split
    · rfl
    next a ha => exact if_pos (not_walkFits_iff.1 (h n v a hn hv (hn ▸ ha)))
  · rfl

end

/-! ### The end of an operation (R167, R247, R249) -/

theorem tileEnds (e : EngOp) : TileEnds e := by
  intro s b z t hb hsid hkind hcls hz ht
  have hstr : (s.str? b.sid).bind (fun z => s.troop? z.tid) = some t := by rw [hsid, hz]; exact ht
  change (_ → execTileOpRetire e.id s = _) ∧ (_ → execTileOpRetire e.id s = _)
  simp only [execTileOpRetire, hb, hstr, hkind, hcls]
  refine ⟨fun ⟨hold, hwrites, hdemands, hdone⟩ => if_neg ?_, fun hnot => if_pos ?_⟩
  · simpa [hold, hwrites, hdemands] using hdone
  · by_contra hgo
    refine hnot ?_
    simpa [and_assoc] using hgo

/-- Settles O43: each instruction by what it does that need not wait, and the end of an operation by `tileEnds`. -/
theorem tileOperations : Obligations.TileOperations := by
  unfold Obligations.TileOperations
  refine ⟨fun o => tile_starts (exec_tforce o), fun o => tile_starts (exec_tst o), fun o => tile_starts (exec_twalk o),
    fun o s c z t a box n h ho hc hw ha hbox hn => ⟨?_, tileEnds _⟩,
    fun o s c z t a box v h ho hc hw ha hbox hv hids hnone hpend => ⟨z.unpark (s.cwaitOver c.sid), ?_, rfl, z.lanes_cwaitOver s c.sid⟩,
    fun o => tile_traps (exec_tforce o) fun s c z t ⟨hc, hw, hunfit⟩ => ⟨hc, hw, State.tforceGo_unfit hunfit⟩,
    fun o s c z t a box v h ho hc hw ha hv hrows hcols hpair hbox => ⟨?_, tileEnds _⟩,
    fun o => tile_traps (exec_tst o) fun s c z t ⟨hc, hw, hunfit⟩ => ⟨hc, hw, State.tstGo_unfit hunfit⟩,
    fun o s c z t a n v h ho hc hw hn hv ha hrows hcols hpair => ?_,
    fun o => tile_traps (exec_twalk o) fun s c z t ⟨hc, hw, hacc, hprot⟩ => ⟨hc, hw, State.twalkGo_escapes hacc hprot⟩,
    fun o => tile_traps (exec_twalk o) fun s c z t ⟨hc, hw, hfree, hunfit⟩ => ⟨hc, hw, State.twalkGo_unfit hfree ?_⟩, tileEnds⟩
  · refine exec_tile (exec_tforce o) h ho hc hw ((State.tforceGo_box ha hbox).trans ?_)
      (s.startTile_troops t (tileOpOf s c z t .tforce .str (.node n) .empty box) true)
    rw [hn]
    rfl
  · refine exec_tile (exec_tforce o) h ho hc hw ((State.tforceGo_box ha hbox).trans ?_) rfl
    rw [hv]
    exact State.beginForce_view h.str hids hnone hpend
  · rw [exec_tile (exec_tst o) h ho hc hw (State.tstGo_box ha hv hrows hcols hpair hbox) (State.startTile_troops s t _ true)]
    cases z.treg o.a.toNat <;> rfl
  · intro x acc nodes leaves hacc hp hq hint hleaves hfree
    have hgo : s.twalkGo o c z t = s.beginWalk o c z t n v a :=
      State.twalkGo_begins hfree hn hv ha ⟨hrows, hcols, hpair, hacc, hp, hq, hint, hleaves⟩
    refine ⟨fun table htable => ⟨?_, tileEnds _⟩, fun f hf hd => ?_⟩
    · refine exec_tile (exec_twalk o) h ho hc hw (hgo.trans ?_) rfl
      unfold State.beginWalk
      rw [show t.walkTable (z.sreg o.b.toNat).toNat (s.leavesOf t n + 1) = .ok table from htable]
      rfl
    · obtain ⟨z', e, hz'⟩ := State.raise_delivers h.str h.troop hd
      refine ⟨z', exec_tile (exec_twalk o) h ho hc hw (hgo.trans ?_) rfl, hz'⟩
      unfold State.beginWalk
      rw [show t.walkTable (z.sreg o.b.toNat).toNat (s.leavesOf t n + 1) = .error f from hf]
      exact e
  · rintro n v a hn hv ha ⟨hrows, hcols, hpair, hacc, hp, hq, hint, hleaves⟩
    exact absurd (hunfit n v a hn hv ha hrows hcols hpair hacc hp hq hint) (Nat.not_lt.2 hleaves)

end Sys2Proof.Machine
end

section
/-! PROOFS. Traps that are not delivered, and the failure of an alternate as the clock ends (part of O19). -/

namespace Sys2Proof.Machine

open Sys2Proof.Claims

/-! ### A precise trap that no handler takes (R388, R391, R397, R417) -/

section
variable {s : State} {c : Cur} {z : Str} {t : Troop} {cause : Cause}

theorem State.raise_deferred (hz : s.str? c.sid = some z) (hc : c.trap = false) (hl : z.lanes.any (·.trap) = true) :
    s.raise c cause = { s with cur := some { c with verdict := .deferred } } := by
  simp only [State.raise, hz, hc, hl, Bool.false_eq_true, if_false, if_true]

theorem State.raise_second (hz : s.str? c.sid = some z) (ht : s.troop? z.tid = some t) (hc : c.trap = true) :
    s.raise c cause = if t.depth = 0 then s.endTroop t.tid .doubleFault else s.fail t.tid t.depth 3 0x40 := by
  have htroop : s.troopOf z = some t := ht
  simp only [State.raise, hz, hc, if_true, State.secondError, htroop]
  rfl

theorem State.raise_routed (hz : s.str? c.sid = some z) (ht : s.troop? z.tid = some t) (hc : c.trap = false)
    (hl : z.lanes.any (·.trap) = false) :
    s.raise c cause = if t.depth ≠ 0 ∧ cause.routes = true then s.fail t.tid t.depth 3 cause.code
      else s.deliver c.sid cause c.pc 0 c.next c.bundle := by
  simp only [State.raise, hz, hc, hl, Bool.false_eq_true, if_false, State.route, State.depthOf_eq ht, Nat.min_self,
    State.troop_tid ht, State.str_sid hz]
  exact if_congr (by simp [Nat.pos_iff_ne_zero]) rfl rfl

end

theorem exec_trap (o : ImmOps) (s : State) : exec (.trap o) s = s.issue (.trap o) noCheck fun c _ _ => s.raise c .trapInstr := rfl

theorem State.endTroop_pair {s : State} {t : Troop} {o : Outr} (ht : s.troop? t.tid = some t) (ho : t.outr = some o) (cause : Cause) :
    s.endTroop t.tid cause = if o.role = .tieBreak then s.stopTroop t.tid (some cause)
      else (s.stopTroop t.tid (some cause)).stopTroop o.mate (some cause) := by
  simp only [State.endTroop, ht, ho, beq_iff_eq]

theorem State.endTroop_alone {s : State} {t : Troop} (ht : s.troop? t.tid = some t) (ho : t.outr = none) (cause : Cause) :
    s.endTroop t.tid cause = s.stopTroop t.tid (some cause) := by
  simp only [State.endTroop, ht, ho]

/-! ### A failure is found (R418) -/

theorem State.noteFail_eq {s : State} {t : Troop} (ht : s.troop? t.tid = some t) (f : Failure) : s.noteFail t.tid f =
    s.updTroop t.tid fun _ => if f ∈ t.fails ∨ (∃ g, t.failing = some g ∧ g.depth ≤ f.depth) then t
      else { t with fails := t.fails ++ [f] } := by
  rw [State.noteFail, State.updTroop_const ht]
  congr 1
  funext _
  refine if_congr ?_ rfl rfl
  rw [Bool.or_eq_true, List.contains_iff_mem]
  refine or_congr_right ?_
  cases t.failing <;> simp

/-! ### The quarters change nothing else (R142 to R148) -/

/-- The states that differ from `s` at most in its matrix operations. -/
def SameButMat (s u : State) : Prop := ∃ qs js ps, u = { s with quarters := qs, jointWait := js, pendJ := ps }

namespace SameButMat

theorem refl (s : State) : SameButMat s s := ⟨_, _, _, rfl⟩

theorem trans {s u v : State} : SameButMat s u → SameButMat u v → SameButMat s v := by
  rintro ⟨qs, js, ps, rfl⟩ ⟨qs', js', ps', rfl⟩
  exact ⟨qs', js', ps', rfl⟩

theorem foldl {α : Type} {g : State → α → State} (hg : ∀ s a, SameButMat s (g s a)) (xs : List α) (s : State) :
    SameButMat s (xs.foldl g s) := by
  induction xs generalizing s with
  | nil => exact refl s
  | cons x xs ih => exact (hg s x).trans (ih (g s x))

theorem putQuarter (s : State) (x : Quarter) : SameButMat s (s.putQuarter x) := ⟨_, _, _, rfl⟩

theorem settleOne (core q n : Nat) : ∀ s : State, SameButMat s (s.settleOne core q n) := by
  induction n with
  | zero => exact refl
  | succ n ih => exact fun s => (putQuarter s _).trans (ih _)

theorem advanceJoint (s : State) (core q : Nat) : SameButMat s (s.advanceJoint core q) := by
  unfold State.advanceJoint
  dsimp only
  split
  · exact ⟨_, _, _, rfl⟩
  · exact refl s

theorem startJoint (s : State) (core : Nat) : SameButMat s (s.startJoint core) := by
  unfold State.startJoint
  split
  · split
    · exact foldl (fun s q => putQuarter s (s.quarter core q).start) _ s
    · exact refl s
  · exact refl s

theorem quarterRound (s : State) (core : Nat) : SameButMat s (s.quarterRound core) := by
  unfold State.quarterRound
  extract_lets u v
  have hu : SameButMat s u := foldl (fun s q => (putQuarter s _).trans (settleOne core q _ _)) _ s
  exact (hu.trans (foldl (fun s q => advanceJoint s core q) _ u)).trans (startJoint v core)

theorem settleQuarters (s : State) (core : Nat) : SameButMat s (s.settleQuarters core) := foldl (fun s _ => quarterRound s core) _ s

theorem dropMat (s : State) (core tid : Nat) : SameButMat s (s.dropMat core tid) := by
  unfold State.dropMat
  extract_lets u v
  have hu : SameButMat s u := ⟨_, _, _, rfl⟩
  exact (hu.trans (foldl (fun s q => putQuarter s _) _ u)).trans (settleQuarters v core)

theorem cancelMat (s : State) (tid j : Nat) : SameButMat s (s.cancelMat tid j) := ⟨_, _, _, rfl⟩

end SameButMat

/-! ### The end of a clock (R418, R416) -/

/-- The machine as a clock has passed, before its failures take effect. -/
def State.countClock (s : State) : State :=
  { s with
    clock := s.clock + 1
    strs := s.strs.map fun (z : Str) => { z with issued := false, age := if s.isReady z then min 0xFFFF (z.age + 1) else z.age }
    troops := s.troops.map fun (t : Troop) =>
      if s.haltedCore t.core || t.ended then t
      else { t with blocks := t.blocks.map fun (b : RBlock) => { b with count := b.count + 1 } } }

/-- The clock ends with the failures that it has found, which its counts leave alone. -/
theorem State.tick_eq (s : State) : ∃ v : State, s.tick = v.takeFails.expire ∧ v.clock = s.clock + 1 ∧
    v.troops.map (fun t => (t.tid, t.fails)) = s.troops.map fun t => (t.tid, t.fails) := by
  obtain ⟨qs, js, ps, hu⟩ := SameButMat.foldl (fun s c => SameButMat.settleQuarters s c)
    ((s.quarters.filter (·.seq != [])).map (·.core)).dedup s.countClock
  refine ⟨((s.quarters.filter (·.seq != [])).map (·.core)).dedup.foldl (fun s c => s.settleQuarters c) s.countClock, rfl, by rw [hu]; rfl, ?_⟩
  rw [hu]
  refine List.map_map.trans (List.map_congr_left fun t _ => ?_)
  simp only [Function.comp]
  split <;> rfl

theorem State.takeFails_one {s : State} {t : Troop} (h : s.troops.filter (fun t => !t.fails.isEmpty) = [t])
    (ht : s.troop? t.tid = some t) : s.takeFails = s.takeFail t := by
  simp only [State.takeFails, h, List.foldl_cons, List.foldl_nil, ht]

/-! ### The failure that leads (R418) -/

theorem leastBy_mem {α : Type} (key : α → Nat) (xs : List α) : ∀ y, leastBy key xs = some y → y ∈ xs := by
  induction xs with
  | nil => exact fun y h => nomatch h
  | cons x xs ih =>
    intro y h
    unfold leastBy at h
    split at h
    next w hw =>
      split at h
      · exact Option.some.inj h ▸ List.mem_cons_of_mem _ (ih w hw)
      · exact Option.some.inj h ▸ List.mem_cons_self
    · exact Option.some.inj h ▸ List.mem_cons_self

/-- The least element is the first one that no other is below. -/
theorem leastBy_append {α : Type} (key : α → Nat) {x : α} {after : List α} (ha : ∀ y ∈ after, key x ≤ key y) (before : List α)
    (hb : ∀ y ∈ before, key x < key y) : leastBy key (before ++ x :: after) = some x := by
  induction before with
  | nil =>
    rw [List.nil_append, leastBy]
    cases hy : leastBy key after with
    | none => rfl
    | some y => exact if_neg (Nat.not_lt.2 (ha y (leastBy_mem key after y hy)))
  | cons b before ih =>
    rw [List.cons_append, leastBy, ih fun y hy => hb y (List.mem_cons_of_mem _ hy)]
    exact if_pos (hb b List.mem_cons_self)

/-- A troop in no tandem takes the failure that leads its own (R418). -/
theorem State.takeFail_alone {s : State} {t : Troop} {f : Failure} (htandem : t.tandem = none) (hf : Leads t.fails f) :
    s.takeFail t = State.failBlock 5 s t f false := by
  obtain ⟨before, after, hfails, hb, ha⟩ := hf
  have hleast : leastBy (fun x : Troop × Failure => 8 * x.2.depth + x.2.kind)
      ((s.members t).flatMap fun m => m.fails.map fun f => (m, f)) = some (t, f) := by
    have hlist : ((s.members t).flatMap fun m => m.fails.map fun f => (m, f)) =
        before.map (t, ·) ++ (t, f) :: after.map (t, ·) := by
      simp [State.members, htandem, hfails]
    rw [hlist]
    refine leastBy_append _ ?_ _ ?_
    · simpa using ha
    · simpa using hb
  rw [State.takeFail, hleast]

/-! ### The failure of an alternate (R417 to R420, R425) -/

/-- What a troop's strings record of a failure as it takes effect. -/
def State.marked (s : State) (t : Troop) (f : Failure) : State :=
  { s with strs := updAll (·.tid == t.tid) (fun (z : Str) =>
      { z with fkind := f.kind, fcause := if f.kind = 7 then z.fcause else f.cause }) s.strs }.updTroop t.tid fun t => { t with fails := [] }

theorem State.recordFail_alone (s : State) (t : Troop) (f : Failure) : s.recordFail t f [t] = s.marked t f := by
  simp only [State.recordFail, List.foldl_cons, List.foldl_nil, decide_true, Bool.true_or, if_true]
  rfl

section
variable {s s' : State} {t : Troop} {f : Failure} {b : RBlock} (htandem : t.tandem = none) (hfailing : t.failing = none)
  (hb : t.blocks[f.depth - 1]? = some b) (hforce : (s.marked t f).rollbackForce t.tid f.depth s.nextId = (s', true))
include htandem hfailing hb hforce

/-- With nothing to force the alternate of a troop alone is rolled back, and then its block goes on or closes. -/
theorem State.failBlock_alone (fuel : Nat) : State.failBlock (fuel + 1) s t f false =
    let more := !f.final && decide (b.alt + 1 < b.alts.length)
    let v := (s'.rollback t.tid f.depth).afterRollback [t] f.depth more
    if more || f.depth = 1 then v
    else match v.troop? t.tid with
      | some t => State.failBlock fuel v t { depth := f.depth - 1, kind := 7, cause := f.cause, each := true } false
      | none => v := by
  have hmembers : s.members t = [t] := by rw [State.members, htandem]
  rw [State.failBlock, hmembers, hfailing]
  simp only [State.recordFail_alone, List.foldl_cons, List.foldl_nil, Bool.not_false, Bool.and_false, Bool.false_eq_true, if_false]
  have hforce' : (s.marked t f).rollbackForce t.tid f.depth (s.marked t f).nextId = (s', true) := hforce
  rw [hforce', hb]
  rfl

end

section
variable {t : Troop} {b : RBlock} {j : Nat} (s : State) (hb : t.blocks[j - 1]? = some b)
include hb

theorem State.afterRollback_more : s.afterRollback [t] j true = s.reopen t.tid j b := by
  simp only [State.afterRollback, if_true, List.foldl_cons, List.foldl_nil, hb]

theorem State.afterRollback_outermost (hj : j = 1) : s.afterRollback [t] j false = (s.closeBlock t.tid 1).exhaust t.tid (b.alts.getD 0 0 - 20) := by
  subst hj
  simp only [State.afterRollback, Bool.false_eq_true, if_false, if_true, List.foldl_cons, List.foldl_nil, hb]

omit hb in
theorem State.afterRollback_inner (hj : j ≠ 1) : s.afterRollback [t] j false = s.closeBlock t.tid j := by
  simp only [State.afterRollback, Bool.false_eq_true, if_false, hj, List.foldl_cons, List.foldl_nil]

end

theorem failureEnds (s : State) : FailureEnds s := by
  intro t f b s' _ htandem _ hfailing hleads _ hb _ _ hforce u
  have h := (State.takeFail_alone htandem hleads).trans (State.failBlock_alone htandem hfailing hb hforce 4)
  dsimp only at h
  refine ⟨fun hfinal hmore => ?_, fun hend => ?_⟩
  · have more : (!f.final && decide (b.alt + 1 < b.alts.length)) = true := by simp [hfinal, hmore]
    rw [more, Bool.true_or, if_pos rfl, State.afterRollback_more _ hb] at h
    exact h
  · have closes : (!f.final && decide (b.alt + 1 < b.alts.length)) = false := by
      rcases hend with h | h <;> simp [h]
    rw [closes] at h
    refine ⟨fun hone => ?_, fun hne v hv => ?_⟩
    · rw [State.afterRollback_outermost _ hb hone, if_pos (by simp [hone])] at h
      exact h
    · rw [State.afterRollback_inner _ hne, if_neg (by simp [hne]), hv] at h
      exact h

end Sys2Proof.Machine
end

section
/-! PROOFS. What the saddlebag records of a register or a scratchpad word, and the instructions that write one register (part of O19). -/

namespace Sys2Proof.Machine

open Sys2Proof.Claims

/-! ### The record of a register (R421, R422) -/

/-- The troop is `t` but for the marks that a record leaves. -/
def SameButMarks (t u : Troop) : Prop := ∃ a ps ov, u = { t with rcSpill := a, rcPending := ps, overflow := ov }

section
variable {z : Str} {t : Troop} {k : Nat} {key : BagKey}

/-- The register has been recorded in the epoch. -/
def Recorded (z : Str) (k : Nat) (key : BagKey) : Prop := ∃ e ∈ z.bag, e.key = key ∧ e.tag = k

/-- The rows of the saddlebag that its entries take. -/
def Str.rows (z : Str) : Nat := (z.bag.filter fun e => !e.spilled).length

/-- The recovery spill area has room for a register. -/
def Troop.spillRoom (t : Troop) : Prop := t.rcSpill.shut = false ∧ t.rcSpill.used + 192 ≤ t.rcSpill.size

theorem records_known (h : Recorded z k key) : Records z { z with bag := z.bag } t t k key :=
  ⟨fun _ => ⟨rfl, rfl⟩, fun hn => absurd h hn, fun hn => absurd h hn, fun hn => absurd h hn⟩

theorem records_row (h : ¬ Recorded z k key) (hrow : z.rows < t.bagRows) :
    Records z { z with bag := z.bag ++ [{ key := key, tag := k, vals := prior z key }] } t t k key :=
  ⟨fun hk => absurd hk h, fun _ _ => ⟨rfl, rfl⟩, fun _ hfull => absurd hrow (Nat.not_lt.2 hfull),
    fun _ hfull => absurd hrow (Nat.not_lt.2 hfull)⟩

/-- The entry of a register in the recovery spill area. -/
def spillEntry (z : Str) (k : Nat) (key : BagKey) : List Nat := z.sid :: k :: key.code :: prior z key

theorem records_spill (h : ¬ Recorded z k key) (hrow : ¬ z.rows < t.bagRows) (hroom : t.spillRoom) :
    Records z { z with bag := z.bag ++ [{ key := key, tag := k, vals := prior z key
                                          spill := some (t.rcSpill.base + t.rcSpill.used, spillEntry z k key) }] } t
      { t with rcSpill := { t.rcSpill with used := t.rcSpill.used + 192 }
               rcPending := t.rcPending ++ [(t.rcSpill.base + t.rcSpill.used, 192, spillEntry z k key)] } k key :=
  ⟨fun hk => absurd hk h, fun _ hlt => absurd hlt hrow, fun _ _ _ => ⟨rfl, rfl⟩, fun _ _ hno => absurd hroom hno⟩

theorem records_none (h : ¬ Recorded z k key) (hrow : ¬ z.rows < t.bagRows) (hroom : ¬ t.spillRoom) :
    Records z { z with bag := z.bag } t { t with overflow := true } k key :=
  ⟨fun hk => absurd hk h, fun _ hlt => absurd hlt hrow, fun _ _ hr => absurd hr hroom, fun _ _ _ => ⟨rfl, rfl⟩⟩

/-- A record says of the string only what its saddlebag holds. -/
theorem records_of_bag {y y' : Str} {t1 : Troop} (h : Records z y t t1 k key) (hbag : y'.bag = y.bag) : Records z y' t t1 k key := by
  unfold Records at h ⊢
  rwa [hbag]

end

section
variable {s : State} {sid d : Nat} {z : Str} {t : Troop} {key : BagKey}

theorem State.record_outside (hz : s.str? sid = some z) (ht : s.troop? z.tid = some t) (hk : min d t.depth = 0) (f : Str → List Nat) :
    s.record sid d key f = s := by
  simp only [State.record, hz, ht, hk]
  exact if_pos (by simp)

/-- Inside a block a record changes the saddlebag of the string and the marks of its troop, as `Records` says. -/
theorem State.record_inside (hz : s.str? sid = some z) (ht : s.troop? z.tid = some t) (hk : min d t.depth ≠ 0) :
    ∃ bag t1, Records z { z with bag := bag } t t1 (min d t.depth) key ∧ SameButMarks t t1 ∧
      s.record sid d key (prior · key) = (s.updStr sid fun _ => { z with bag := bag }).updTroop z.tid fun _ => t1 := by
  have hsid : z.sid = sid := State.str_sid hz
  have keeps (y : Str) : (s.updStr sid fun _ => y) = (s.updStr sid fun _ => y).updTroop z.tid fun _ => t :=
    (State.updTroop_self (s := s.updStr sid fun _ => y) (t := t) ht).symm
  have hself : s = (s.updStr sid fun _ => { z with bag := z.bag }) := (State.updStr_self hz).symm
  have hknown : (min d t.depth = 0 || z.bag.any fun e => e.key == key && e.tag == min d t.depth) = true ↔
      Recorded z (min d t.depth) key := by simp [hk, Recorded]
  have hroom : (!t.rcSpill.shut && decide (t.rcSpill.used + 192 ≤ t.rcSpill.size)) = true ↔ t.spillRoom := by
    simp [Troop.spillRoom]
  simp only [State.record, hz, ht]
  by_cases h1 : Recorded z (min d t.depth) key
  · refine ⟨z.bag, t, records_known h1, ⟨_, _, _, rfl⟩, ?_⟩
    rw [if_pos (hknown.2 h1), ← keeps, ← hself]
  rw [if_neg (mt hknown.1 h1)]
  by_cases h2 : (z.bag.filter fun e => !e.spilled).length < t.bagRows
  · refine ⟨_, t, records_row h1 h2, ⟨_, _, _, rfl⟩, ?_⟩
    rw [if_pos h2, ← keeps, State.updStr_const hz]
  rw [if_neg h2]
  by_cases h3 : t.spillRoom
  · refine ⟨_, _, records_spill h1 h2 h3, ⟨_, _, _, rfl⟩, ?_⟩
    rw [if_pos (hroom.2 h3), State.updStr_const hz, State.updTroop_const (t := t) (by exact ht), ← hsid]
    rfl
  · refine ⟨z.bag, _, records_none h1 h2 h3, ⟨_, _, _, rfl⟩, ?_⟩
    rw [if_neg (mt hroom.1 h3), State.updTroop_const ht, ← hself]

end

/-! ### The record of a scratchpad word (R421, R422) -/

/-- The entry of a word in the recovery spill area joins those that are to be written. -/
def Troop.spillsWord (t : Troop) (w at0 : Nat) (a : Area) : Troop :=
  { t with words := t.words ++ [{ word := w, tag := t.depth, val := t.scratchWord w, spill := some (at0, [w, t.depth, t.scratchWord w]) }]
           rcSpill := a, rcPending := t.rcPending ++ [(at0, 8, [w, t.depth, t.scratchWord w])] }

theorem Troop.recordWord_eq (t : Troop) (w : Nat) : t.recordWord w =
    if t.depth = 0 ∨ ∃ e ∈ t.words, e.word = w ∧ e.tag = t.depth then t
    else if (t.words.filter fun e => !e.spilled).length < 1024 then
      { t with words := t.words ++ [{ word := w, tag := t.depth, val := t.scratchWord w }] }
    else match t.rcSpill.slot with
      | some (at0, a) => t.spillsWord w at0 a
      | none => { t with overflow := true } := by
  unfold Troop.recordWord
  exact if_congr (by simp) rfl rfl

section
variable {a : Area}

theorem Area.slot_shut (h : a.shut = true) : a.slot = none := if_pos h

variable (h : a.shut = false)
include h

theorem Area.slot_fills (hlow : 0 < a.fill) (hhigh : a.fill < 8) :
    a.slot = some (a.base + a.unit + 8 * a.fill, { a with fill := a.fill + 1 }) := by
  simp [Area.slot, h, hlow, hhigh]

theorem Area.slot_full (hfull : a.fill = 0 ∨ 8 ≤ a.fill) : a.slot = if a.used + 64 ≤ a.size then
    some (a.base + a.used, { a with used := a.used + 64, unit := a.used, fill := 1 }) else none := by
  have hfill : ¬ (decide (0 < a.fill) && decide (a.fill < 8)) = true := by
    simp only [Bool.and_eq_true, decide_eq_true_eq]
    omega
  simp only [Area.slot, h, Bool.false_eq_true, if_false]
  exact if_neg hfill

end

theorem recordsWord (t : Troop) (w : Nat) : RecordsWord t (t.recordWord w) w := by
  have e := t.recordWord_eq w
  have spilled (hk : ¬ (t.depth = 0 ∨ ∃ e ∈ t.words, e.word = w ∧ e.tag = t.depth))
      (hfull : 1024 ≤ (t.words.filter fun e => !e.spilled).length) : t.recordWord w = match t.rcSpill.slot with
        | some (at0, a) => t.spillsWord w at0 a
        | none => { t with overflow := true } := by
    rw [e, if_neg hk, if_neg (Nat.not_lt.2 hfull)]
  refine ⟨fun hk => ?_, fun hk hlt => ?_, fun hk hfull hshut hlow hhigh => ?_, fun hk hfull hshut hfill hroom => ?_, fun hk hfull hno => ?_⟩
  · rw [e, if_pos hk]
  · rw [e, if_neg hk, if_pos hlt]
  · rw [spilled hk hfull, Area.slot_fills hshut hlow hhigh]
    rfl
  · rw [spilled hk hfull, Area.slot_full hshut hfill, if_pos hroom]
    rfl
  · have hslot : t.rcSpill.slot = none := by
      cases hshut : t.rcSpill.shut
      · obtain ⟨hfill, hsize⟩ := hno.resolve_left (by simp [hshut])
        rw [Area.slot_full hshut hfill, if_neg (Nat.not_le.2 hsize)]
      · exact Area.slot_shut hshut
    rw [spilled hk hfull, hslot]

/-! ### An instruction that writes one register in a block (R421, R422) -/

/-- The failure of a saddlebag without room is noted as the instruction ends. -/
theorem State.settleOverflow_inside {s : State} {t : Troop} (ht : s.troop? t.tid = some t) (hd : t.depth ≠ 0) (hfails : t.fails = [])
    (hfailing : t.failing = none) : s.settleOverflow t.tid =
      s.updTroop t.tid fun _ => if t.overflow = true then { t with fails := [overflowed t] } else t := by
  simp only [State.settleOverflow, ht]
  by_cases ho : t.overflow = true
  · rw [if_pos (by simpa [ho] using Nat.pos_of_ne_zero hd), State.noteFail_eq ht, if_neg (by simp [hfails, hfailing]), hfails, if_pos ho]
    rfl
  · rw [if_neg (by simp [ho]), if_neg ho]
    exact (State.updTroop_self ht).symm

/-- An instruction whose effect is one record and one write of its string. -/
theorem WritesInBlock.of {i : Instr} {key : BagKey} {pre : Cur → Str → Troop → Prop} {wrote : Cur → Str → Str → Prop}
    {body : State → Cur → Str → Troop → State} {f : Cur → Str → Str → Str} (hx : ∀ s, exec i s = s.issue i noCheck (body s))
    (hb : ∀ s c z t, s.troop? z.tid = some t → c.parts ≠ 0 → body s c z t = (s.record c.sid t.depth key (prior · key)).updStr c.sid (f c z))
    (hf : ∀ c z bag, (f c z { z with bag := bag }).sid = z.sid ∧ (f c z { z with bag := bag }).bag = bag)
    (hw : ∀ c z bag, c.parts ≠ 0 → wrote c z (f c z { z with bag := bag })) : WritesInBlock i key pre wrote := by
  intro s c z t h ho hfailing hfails hd hc _
  have hk : min t.depth t.depth ≠ 0 := by rwa [Nat.min_self]
  obtain ⟨bag, t1, hrec, ⟨a, ps, ov, ht1⟩, e⟩ := State.record_inside (key := key) h.str h.troop hk
  rw [Nat.min_self] at hrec
  have htid : t1.tid = t.tid := by rw [ht1]
  have hdepth : t1.depth = t.depth := by rw [ht1]; rfl
  have hstr : ((s.updStr c.sid fun _ => { z with bag := bag }).updTroop z.tid fun _ => t1).str? c.sid = some { z with bag := bag } :=
    State.str?_updStr h.str (fun _ => { z with bag := bag }) rfl
  have htroop : ((s.updStr c.sid fun _ => { z with bag := bag }).updTroop z.tid fun _ => t1).troop? t1.tid = some t1 := by
    rw [htid, State.troop_tid h.troop]
    exact State.troop?_updTroop (s := s.updStr c.sid fun _ => { z with bag := bag }) h.troop (fun _ => t1) htid
  obtain ⟨hsid, hbag⟩ := hf c z bag
  let u := ((s.updStr c.sid fun _ => { z with bag := bag }).updTroop z.tid fun _ => t1).updStr c.sid (f c z)
  have hexec : exec i s = .next (u.updTroop t1.tid fun _ => if t1.overflow = true then { t1 with fails := [overflowed t1] } else t1) := by
    rw [hx, State.issue_next h noCheck _ rfl, hb s c z t h.troop hc, e, ← htid,
      State.settleOverflow_inside (s := u) htroop (by rwa [hdepth]) (by rw [ht1]; exact hfails) (by rw [ht1]; exact hfailing)]
  refine ⟨_, f c z { z with bag := bag }, t1, if t1.overflow = true then { t1 with fails := [overflowed t1] } else t1, hexec,
    State.str?_updStr hstr (f c z) hsid, ?_, records_of_bag hrec hbag, ?_, hw c z bag hc, rfl⟩
  · rw [← htid]
    refine State.troop?_updTroop (s := u) htroop (fun _ => _) ?_
    split <;> rfl
  · simp only [overflowed, hdepth]

end Sys2Proof.Machine
end

section
/-! PROOFS. The instructions that write one register in a recovery block (part of O19). -/

namespace Sys2Proof.Machine

open Sys2Proof.Claims

theorem Cur.lanes_isEmpty {c : Cur} (h : c.parts ≠ 0) : c.lanes.isEmpty = false := by
  obtain ⟨ls, hl⟩ := lanes_eq_cons h
  rw [hl]
  rfl

/-! ### A predicate register (R103) -/

/-- A string with lanes of a predicate register written. -/
def Str.putP (z : Str) (n : Nat) (vals : List (Nat × Bool)) : Str :=
  { z with p := Cells.set 0 z.p n (vals.foldl (fun m (l, b) => if b then m ||| (1#32 <<< l) else m &&& ~~~(1#32 <<< l)) (Cells.get 0 z.p n)) }

theorem getLsbD_laneBit {x l : Nat} (hl : l < 32) : (1#32 <<< x).getLsbD l = decide (l = x) := by
  rw [BitVec.getLsbD_shiftLeft, BitVec.getLsbD_one]
  rw [Bool.eq_iff_iff]
  simp only [Bool.and_eq_true, decide_eq_true_eq, Bool.not_eq_true', decide_eq_false_iff_not]
  omega

theorem getLsbD_setLane (m : Mask) (x : Nat) (b : Bool) {l : Nat} (hl : l < 32) :
    (if b then m ||| (1#32 <<< x) else m &&& ~~~(1#32 <<< x)).getLsbD l = if l = x then b else m.getLsbD l := by
  cases b with
  | true =>
    rw [if_pos rfl, BitVec.getLsbD_or, getLsbD_laneBit hl]
    by_cases h : l = x <;> simp [h]
  | false =>
    rw [if_neg Bool.false_ne_true, BitVec.getLsbD_and, BitVec.getLsbD_not, getLsbD_laneBit hl]
    by_cases h : l = x <;> simp [h, hl]

theorem getLsbD_setLanes (f : Nat → Bool) {l : Nat} (hl : l < 32) (ls : List Nat) : ∀ m : Mask,
    ((ls.map fun l => (l, f l)).foldl (fun m (l, b) => if b then m ||| (1#32 <<< l) else m &&& ~~~(1#32 <<< l)) m).getLsbD l =
      if l ∈ ls then f l else m.getLsbD l := by
  induction ls with
  | nil => exact fun _ => rfl
  | cons x xs ih =>
    intro m
    rw [List.map_cons, List.foldl_cons, ih, getLsbD_setLane m x (f x) hl]
    by_cases hmem : l ∈ xs
    · simp [hmem]
    · by_cases hx : l = x <;> simp [hmem, hx]

theorem Str.preg_putP (z : Str) {d : Nat} (hd : d ≠ 7) (m : Mask) (f : Nat → Bool) (n : Nat) {l : Nat} (hl : l < 32) :
    (z.putP d ((lanesOf m).map fun l => (l, f l))).preg n l =
      if n = d ∧ n ≠ 7 ∧ m.getLsbD l = true then f l else z.preg n l := by
  by_cases hn : n = d
  · subst hn
    have h7 : (n == 7) = false := by simpa using hd
    simp only [Str.preg, Str.putP, Cells.get_set, if_true, h7, Bool.false_or, getLsbD_setLanes f hl, mem_lanesOf, hl, true_and, hd,
      ne_eq, not_false_eq_true]
  · simp [Str.preg, Str.putP, Cells.get_set, hn]

/-! ### The instructions -/

section
variable {s : State} {c : Cur} {z : Str} {t : Troop} (ht : s.troop? z.tid = some t) (hc : c.parts ≠ 0)
include ht hc

theorem State.putLanes_b32_eq (d : Byte) (x : Word) : s.putLanes c z .b32 d (fun _ => x.toNat) =
    (s.record c.sid t.depth (.v d.toNat) (prior · (.v d.toNat))).updStr c.sid
      (·.putV d.toNat ((lanesOf c.parts).map fun l => (l, x))) := by
  have hvals : (c.lanes.map fun l => (l, x.toNat)).map (fun (l, x) => (l, BitVec.ofNat 32 x)) = (lanesOf c.parts).map fun l => (l, x) := by
    simp [Cur.lanes]
  simp only [State.putLanes, State.writeVal, State.depthOf_eq ht, hvals]
  refine (if_neg (by decide)).trans ?_
  exact if_neg (by simpa [Cur.lanes] using Cur.lanes_isEmpty hc)

theorem State.putScalar_eq (d : Byte) (x : Dword) : s.putScalar c z d x =
    (s.record c.sid t.depth (.s d.toNat) (prior · (.s d.toNat))).updStr c.sid fun y => { y with s := Cells.set 0 y.s d.toNat x } := by
  rw [State.putScalar, if_neg hc, State.depthOf_eq ht]
  rfl

theorem State.putPreds_eq {d : Byte} (hd : d.toNat ≠ 7) (f : Nat → Bool) : s.putPreds c z d f =
    (s.record c.sid t.depth (.p d.toNat) (prior · (.p d.toNat))).updStr c.sid
      (·.putP d.toNat ((lanesOf c.parts).map fun l => (l, f l))) := by
  rw [State.putPreds, State.depthOf_eq ht]
  exact if_neg (by simpa [hd] using Cur.lanes_isEmpty hc)

end

theorem movi_writes (o : ImmOps) : WritesInBlock (.movi o) (.v o.d.toNat) (fun _ _ _ => True) fun c z z' =>
    z' = { z with v := z'.v, bag := z'.bag } ∧ ∀ n l, l < 32 → z'.vreg n l =
      if n = o.d.toNat ∧ c.parts.getLsbD l then o.imm.signExtend 32 else z.vreg n l :=
  WritesInBlock.of (f := fun c _ y => y.putV o.d.toNat ((lanesOf c.parts).map fun l => (l, o.imm.signExtend 32))) (fun _ => rfl)
    (fun _ _ _ _ ht hc => State.putLanes_b32_eq ht hc o.d (o.imm.signExtend 32)) (fun _ _ _ => ⟨rfl, rfl⟩)
    fun c z bag _ => ⟨rfl, fun n l hl => Str.vreg_putV { z with bag := bag } o.d.toNat c.parts (fun _ => o.imm.signExtend 32) n l hl⟩

theorem sand_writes (o : Operands) : WritesInBlock (.sand o) (.s o.d.toNat) (fun _ _ _ => True) fun _ z z' =>
    z' = { z with s := z'.s, bag := z'.bag } ∧
      ∀ n, z'.sreg n = if n = o.d.toNat then z.ssrc o false o.a &&& z.ssrc o true o.b else z.sreg n :=
  WritesInBlock.of (f := fun _ z y => { y with s := Cells.set 0 y.s o.d.toNat (z.ssrc o false o.a &&& z.ssrc o true o.b) })
    (fun _ => rfl) (fun _ _ _ _ ht hc => State.putScalar_eq ht hc o.d _) (fun _ _ _ => ⟨rfl, rfl⟩)
    fun _ _ _ _ => ⟨rfl, fun _ => Cells.get_set ..⟩

theorem elect_writes (o : Operands) (hd : o.d ≠ 7) : WritesInBlock (.elect o) (.p o.d.toNat) (fun _ _ _ => True) fun c z z' =>
    z' = { z with p := z'.p, bag := z'.bag } ∧ ∀ n l, l < 32 → z'.preg n l =
      if n = o.d.toNat ∧ n ≠ 7 ∧ c.parts.getLsbD l then decide (∀ k < l, c.parts.getLsbD k = false) else z.preg n l := by
  have hd7 : o.d.toNat ≠ 7 := fun h => hd (BitVec.eq_of_toNat_eq h)
  refine WritesInBlock.of (f := fun c _ y => y.putP o.d.toNat ((lanesOf c.parts).map fun l => (l, c.lanes.head? == some l)))
    (fun _ => rfl) (fun _ _ _ _ ht hc => State.putPreds_eq ht hc hd7 _) (fun _ _ _ => ⟨rfl, rfl⟩)
    fun c z bag _ => ⟨rfl, fun n l hl => ?_⟩
  refine (Str.preg_putP { z with bag := bag } hd7 c.parts (fun l => c.lanes.head? == some l) n hl).trans ?_
  split
  next h => exact c.lanes_head?_beq (mem_lanesOf.2 ⟨hl, h.2.2⟩)
  · rfl

theorem swrite_fpctl_writes (o : Operands) (hn : o.fn = 0x10) : WritesInBlock (.swrite o) .fpctl (fun _ _ _ => True) fun _ z z' =>
    z' = { z with fpctl := z'.fpctl, bag := z'.bag } := by
  have hfn : o.fn.toNat = 0x10 := by rw [hn]; rfl
  refine WritesInBlock.of (f := fun c z y => { y with fpctl := (swriteValue o c z).setWidth 32 &&& 0x3F#32 })
    (fun _ => rfl) (fun s c z t ht hc => ?_) (fun _ _ _ => ⟨rfl, rfl⟩) fun _ _ _ _ => rfl
  rw [State.swrite_status_eq hc (by simp [hn]), hfn, if_neg (by simp)]
  rfl

theorem swrite_strctl_writes (o : Operands) (hn : o.fn = 0x12) : WritesInBlock (.swrite o) .strctl (fun _ _ _ => True) fun _ z z' =>
    z' = { z with strctl := z'.strctl, lanes := z'.lanes, bag := z'.bag } := by
  have hfn : o.fn.toNat = 0x12 := by rw [hn]; rfl
  refine WritesInBlock.of (f := fun c z y => { y with
      strctl := strctlWrite y.strctl ((swriteValue o c z).setWidth 32)
      lanes := if ((swriteValue o c z).setWidth 32 : Word).getLsbD 4 then y.lanes else y.lanes.map fun l => { l with wait := 0 } })
    (fun _ => rfl) (fun s c z t ht hc => ?_) (fun _ _ _ => ⟨rfl, rfl⟩) fun _ _ _ _ => rfl
  rw [State.swrite_status_eq hc (by simp [hn]), hfn, if_neg (by simp)]
  rfl

end Sys2Proof.Machine
end

section
/-! PROOFS. What the work of a troop is cancelled to, and what a barrier's phase that completes leaves of a troop that does not wait there
(part of O19). -/

namespace Sys2Proof.Machine

open Sys2Proof.Claims

/-! ### A phase that a troop does not wait for (R324, R331) -/

/-- A string as the phase of a barrier leaves it: only its lanes, its scalar registers and its saddlebag may change, and nothing where it
is of troop `tid`. -/
structure KeptBut (tid : Nat) (z y : Str) : Prop where
  frame : y = { z with lanes := y.lanes, s := y.s, bag := y.bag }
  own : z.tid = tid → y = z

theorem KeptBut.refl (tid : Nat) (z : Str) : KeptBut tid z z := ⟨rfl, fun _ => rfl⟩

section
variable {tid : Nat} {z y x : Str}

theorem KeptBut.sid_eq (h : KeptBut tid z y) : y.sid = z.sid := by rw [h.frame]

theorem KeptBut.tid_eq (h : KeptBut tid z y) : y.tid = z.tid := by rw [h.frame]

theorem KeptBut.trans (h : KeptBut tid z y) (k : KeptBut tid y x) : KeptBut tid z x :=
  ⟨by rw [k.frame, h.frame], fun hz => (k.own (h.tid_eq.trans hz)).trans (h.own hz)⟩

end

/-- The machine as the phases of barriers leave it, for which troop `tid` does not wait. -/
structure Released (tid : Nat) (s u : State) : Prop where
  frame : u = { s with strs := u.strs, troops := u.troops, bars := u.bars }
  strs : List.Forall₂ (KeptBut tid) s.strs u.strs
  troop : u.troop? tid = s.troop? tid

/-- No lane of the troop is parked, and no string of another troop has the id of one of its strings. -/
def Apart (tid : Nat) (s : State) : Prop :=
  (∀ z ∈ s.strs, z.tid = tid → ∀ l ∈ z.lanes, l.park = .none) ∧ ∀ z ∈ s.strs, ∀ y ∈ s.strs, y.sid = z.sid → y.tid = tid → z.tid = tid

/-- The string that an id names is of another troop. -/
def Foreign (tid : Nat) (s : State) (sid : Nat) : Prop := ∀ y, s.str? sid = some y → y.tid ≠ tid

theorem forall₂_updFirst {α : Type} {R : α → α → Prop} {p : α → Bool} {f : α → α} (hrefl : ∀ x, R x x) :
    ∀ xs : List α, (∀ x, xs.find? p = some x → R x (f x)) → List.Forall₂ R xs (updFirst p f xs)
  | [], _ => .nil
  | x :: xs, h => by
    rw [updFirst]
    cases hx : p x
    · exact .cons (hrefl x) (forall₂_updFirst hrefl xs fun y hy => h y (by rw [List.find?_cons_of_neg (by simp [hx]), hy]))
    · exact .cons (h x (List.find?_cons_of_pos hx)) (List.forall₂_same.2 fun y _ => hrefl y)

theorem find?_of_forall₂ {α : Type} {R : α → α → Prop} {p : α → Bool} {xs ys : List α} (h : List.Forall₂ R xs ys)
    (hp : ∀ x y, R x y → p y = p x) {y : α} (hy : ys.find? p = some y) : ∃ x, xs.find? p = some x ∧ R x y := by
  induction h with
  | nil => exact nomatch hy
  | @cons a b as bs hab _ ih =>
    cases hb : p b
    · rw [List.find?_cons_of_neg (by simp [hb])] at hy
      obtain ⟨x, hx, hxy⟩ := ih hy
      exact ⟨x, by rw [List.find?_cons_of_neg (by simp [← hp a b hab, hb]), hx], hxy⟩
    · rw [List.find?_cons_of_pos hb] at hy
      exact ⟨a, List.find?_cons_of_pos ((hp a b hab).symm.trans hb), Option.some.inj hy ▸ hab⟩

theorem mem_of_forall₂ {α : Type} {R : α → α → Prop} {xs ys : List α} (h : List.Forall₂ R xs ys) {y : α} (hy : y ∈ ys) :
    ∃ x ∈ xs, R x y := by
  induction h with
  | nil => exact nomatch hy
  | cons hab _ ih =>
    rcases List.mem_cons.1 hy with rfl | hy
    · exact ⟨_, List.mem_cons_self, hab⟩
    · obtain ⟨x, hx, hxy⟩ := ih hy
      exact ⟨x, List.mem_cons_of_mem _ hx, hxy⟩

theorem image_of_forall₂ {α : Type} {R : α → α → Prop} {xs ys : List α} (h : List.Forall₂ R xs ys) {x : α} (hx : x ∈ xs) :
    ∃ y ∈ ys, R x y :=
  mem_of_forall₂ h.flip hx

theorem Released.refl (tid : Nat) (s : State) : Released tid s s := ⟨rfl, List.forall₂_same.2 fun z _ => .refl tid z, rfl⟩

section
variable {tid : Nat} {s u v : State}

theorem Released.trans (h : Released tid s u) (k : Released tid u v) : Released tid s v := by
  refine ⟨by rw [k.frame, h.frame], ?_, k.troop.trans h.troop⟩
  have hstrs := h.strs
  have kstrs := k.strs
  generalize s.strs = xs at hstrs
  generalize u.strs = ys at hstrs kstrs
  generalize v.strs = zs at kstrs
  induction hstrs generalizing zs with
  | nil => cases kstrs; exact .nil
  | cons hab _ ih =>
    cases kstrs with
    | cons hbc hrest => exact .cons (hab.trans hbc) (ih _ hrest)

theorem Released.foreign (h : Released tid s u) {sid : Nat} (hs : Foreign tid s sid) : Foreign tid u sid := by
  intro y hy
  obtain ⟨z, hz, hzy⟩ := find?_of_forall₂ h.strs (fun a b (hab : KeptBut tid a b) => by rw [hab.sid_eq]) hy
  rw [hzy.tid_eq]
  exact hs z hz

theorem Released.apart (h : Released tid s u) (hs : Apart tid s) : Apart tid u := by
  refine ⟨fun y hy ht => ?_, fun z' hz' y' hy' hsid ht => ?_⟩
  · obtain ⟨z, hz, hzy⟩ := mem_of_forall₂ h.strs hy
    have htid : z.tid = tid := hzy.tid_eq.symm.trans ht
    rw [hzy.own htid]
    exact hs.1 z hz htid
  · obtain ⟨z, hz, hzz⟩ := mem_of_forall₂ h.strs hz'
    obtain ⟨y, hy, hyy⟩ := mem_of_forall₂ h.strs hy'
    rw [hzz.tid_eq]
    refine hs.2 z hz y hy ?_ (hyy.tid_eq.symm.trans ht)
    rw [← hyy.sid_eq, ← hzz.sid_eq]
    exact hsid

theorem Released.updStr {sid : Nat} {f : Str → Str} (hs : Foreign tid s sid)
    (hf : ∀ y, f y = { y with lanes := (f y).lanes, s := (f y).s, bag := (f y).bag }) : Released tid s (s.updStr sid f) :=
  ⟨rfl, forall₂_updFirst (.refl tid) s.strs fun y hy => ⟨hf y, fun ht => absurd ht (hs y hy)⟩, rfl⟩

theorem Released.updTroop {i : Nat} {f : Troop → Troop} (hi : i ≠ tid) (hf : ∀ t, (f t).tid = t.tid) :
    Released tid s (s.updTroop i f) := by
  refine ⟨rfl, List.forall₂_same.2 fun z _ => .refl tid z, find_updFirst_ne _ _ f s.troops fun t ht => ?_⟩
  have hti : t.tid = i := by simpa using ht
  simp [hf, hti, hi]

/-- A fold of steps each of which keeps the relation. -/
theorem Released.foldl {α : Type} {g : State → α → State} {xs : List α}
    (hg : ∀ a ∈ xs, ∀ v, Released tid s v → Released tid v (g v a)) (h : Released tid s u) : Released tid s (xs.foldl g u) := by
  induction xs generalizing u with
  | nil => exact h
  | cons x xs ih =>
    exact ih (fun a ha => hg a (List.mem_cons_of_mem _ ha)) (h.trans (hg x List.mem_cons_self u h))

theorem Released.record {sid : Nat} (hs : Foreign tid s sid) (d : Nat) (key : BagKey) (f : Str → List Nat) :
    Released tid s (s.record sid d key f) := by
  unfold State.record
  split
  · exact .refl tid s
  next z hz =>
    have hz : z.tid ≠ tid := hs z hz
    split
    · exact .refl tid s
    dsimp only
    split
    · exact .refl tid s
    split
    · exact .updStr hs fun _ => rfl
    split
    · exact (Released.updStr hs fun _ => rfl).trans (.updTroop hz fun _ => rfl)
    · exact .updTroop hz fun _ => rfl

theorem Released.writeS {sid : Nat} (hs : Foreign tid s sid) (d n : Nat) (x : Dword) : Released tid s (s.writeS sid d n x) :=
  (Released.record hs d (.s n) _).trans (.updStr ((Released.record hs d (.s n) _).foreign hs) fun _ => rfl)

/-- A string with a parked lane has its id from no string of the troop. -/
theorem Apart.foreign (hs : Apart tid s) {z : Str} (hz : z ∈ s.strs) {l : Lane} (hl : l ∈ z.lanes) (hp : l.park ≠ .none) :
    Foreign tid s z.sid := by
  intro y hy ht
  have hsid : y.sid = z.sid := State.str_sid hy
  exact hp (hs.1 z hz (hs.2 z hz y (List.mem_of_find?_eq_some hy) hsid ht) l hl)

theorem keptBut_unpark {z : Str} (hz : z.tid = tid → ∀ l ∈ z.lanes, l.park = .none) {p : Park → Bool} (hp : p .none = false) :
    KeptBut tid z (z.unpark p) := by
  refine ⟨rfl, fun ht => ?_⟩
  have hlanes : (z.lanes.map fun l => if p l.park then { l with park := .none } else l) = z.lanes :=
    (List.map_congr_left fun l hl => by rw [hz ht l hl, hp]; rfl).trans (List.map_id z.lanes)
  rw [Str.unpark, hlanes]

theorem Released.unpark (hs : Apart tid s) {p : Park → Bool} (hp : p .none = false) :
    Released tid s { s with strs := s.strs.map fun (z : Str) => z.unpark p } :=
  ⟨rfl, List.forall₂_map_right_iff.2 (List.forall₂_same.2 fun z hz => keptBut_unpark (hs.1 z hz) hp), rfl⟩

theorem Released.completePhase (hs : Apart tid s) (b : Barrier) : Released tid s (s.completePhase b) := by
  unfold State.completePhase
  extract_lets lost status sum summed done released
  have hsummed : Released tid s summed := by
    refine .foldl (fun z hz v hv => ?_) (.refl tid s)
    refine .foldl (fun l hl w hw => ?_) (.refl tid v)
    split
    next k p d hpark =>
      split
      · exact .writeS (hw.foreign (hv.foreign (hs.foreign hz hl (by rw [hpark]; simp)))) _ _ _
      · exact .refl tid w
    · exact .refl tid w
  have hreleased : Released tid summed released := .unpark (hsummed.apart hs) rfl
  exact (hsummed.trans hreleased).trans ⟨rfl, List.forall₂_same.2 fun z _ => .refl tid z, rfl⟩

theorem Released.checkBar (hs : Apart tid s) (k : BarKey) : Released tid s (s.checkBar k) := by
  unfold State.checkBar
  extract_lets b go
  split
  · exact .completePhase hs b
  · exact .refl tid s

theorem Released.checkBars (hs : Apart tid s) (ks : List BarKey) : Released tid s (ks.foldl (fun s k => s.checkBar k) s) :=
  .foldl (fun k _ _ hv => .checkBar (hv.apart hs) k) (.refl tid s)

end

/-! ### The work of failed depths is cancelled (R419) -/

/-- A string with the places of its entries in the recovery spill area changed. -/
def Str.respill (h : Option (Nat × List Nat) → Option (Nat × List Nat)) (z : Str) : Str :=
  { z with bag := z.bag.map fun (e : BagEnt) => { e with spill := h e.spill } }

/-- A troop with the places of its words in the recovery spill area changed, and some of the writes to it dropped. -/
def Troop.respill (h : Option (Nat × List Nat) → Option (Nat × List Nat)) (p : Nat × Nat × List Nat → Bool) (t : Troop) : Troop :=
  { t with words := t.words.map fun (e : WordEnt) => { e with spill := h e.spill }, rcPending := t.rcPending.filter p }

/-- The machine without the work of the depths from `j` on of a troop: what is left of the accesses, the operations, the rail, and of what
a rollback needs no more. -/
def Cancelled (tid j : Nat) (s u : State) : Prop := ∃ h p qs js ps rf hr ns pads,
  u = { s with
    quarters := qs, jointWait := js, pendJ := ps, refusals := rf, heldReqs := hr, nodes := ns, pads := pads
    strs := updAll (·.tid == tid) (Str.respill h) s.strs
    accs := s.accs.filter fun a => !s.failedSid tid j a.sid a.depth
    ops := s.ops.filter fun o => !(o.tid == tid && decide (j ≤ o.depth))
    engs := s.engs.filter fun e => !s.failedSid tid j e.sid e.depth
    rail := s.rail.filter fun e => !(e.tid == tid && decide (j ≤ e.depth)) }.updTroop tid (Troop.respill h p)

theorem State.cancelSpills_eq {s : State} {tid : Nat} {t : Troop} (ht : s.troop? tid = some t) (j : Nat) : ∃ h p rf,
    s.cancelSpills tid j =
      { s with strs := updAll (·.tid == tid) (Str.respill h) s.strs, refusals := rf }.updTroop tid (Troop.respill h p) := by
  unfold State.cancelSpills
  rw [ht]
  exact ⟨_, _, _, rfl⟩

theorem State.cancelWork_cancelled {s : State} {tid : Nat} {t : Troop} (ht : s.troop? tid = some t) (j : Nat) :
    Cancelled tid j s (s.cancelWork tid j) := by
  obtain ⟨h, p, rf, e⟩ := State.cancelSpills_eq (s := s.cancelMat tid j) ht j
  unfold State.cancelWork
  dsimp only
  rw [e]
  exact ⟨h, p, _, _, _, _, _, _, _, rfl⟩

end Sys2Proof.Machine
end

section
/-! PROOFS. The end of a troop by an error (part of O19). -/

namespace Sys2Proof.Machine

open Sys2Proof.Claims

/-! ### The strings of a troop -/

/-- The strings of a troop have an id among theirs. -/
theorem State.any_strsOf {s : State} {tid sid : Nat} :
    (s.strsOf tid).any (·.sid == sid) = true ↔ ∃ z ∈ s.strs, z.tid = tid ∧ z.sid = sid := by
  simp [State.strsOf]

theorem State.failedSid_iff {s : State} {tid j sid d : Nat} :
    s.failedSid tid j sid d = true ↔ (∃ z ∈ s.strs, z.tid = tid ∧ z.sid = sid) ∧ j ≤ d := by
  rw [State.failedSid, Bool.and_eq_true, State.any_strsOf, decide_eq_true_iff, and_comm]

/-- A change of the strings that keeps their ids and their troops keeps the ids of each troop's strings. -/
theorem own_updAll {tid sid : Nat} {p : Str → Bool} {f : Str → Str} (hsid : ∀ z, (f z).sid = z.sid) (htid : ∀ z, (f z).tid = z.tid)
    (zs : List Str) : (∃ z ∈ updAll p f zs, z.tid = tid ∧ z.sid = sid) ↔ ∃ z ∈ zs, z.tid = tid ∧ z.sid = sid := by
  simp only [updAll, List.mem_map, exists_exists_and_eq_and]
  refine exists_congr fun z => and_congr_right fun _ => ?_
  split <;> simp [hsid, htid]

theorem mem_updAll_of_not {α : Type} {p : α → Bool} {f : α → α} {xs : List α} {x : α} (hx : x ∈ xs) (hp : p x = false) : x ∈ updAll p f xs :=
  List.mem_map.2 ⟨x, hx, by rw [hp]; rfl⟩

/-! ### The bytes of a troop leave a shared line (R397) -/

/-- The bytes that a line drops are no longer its own, and nothing of it changes but what it holds. -/
structure Dropped (l m : BufLine) (is : List Nat) : Prop where
  frame : m = { l with mask := m.mask, data := m.data, written := m.written, removed := m.removed, comm := m.comm }
  mask : ∀ i, m.mask.getLsbD i = true → l.mask.getLsbD i = true
  comm : ∀ e ∈ m.comm, e ∈ l.comm ∧ e.1 ∉ is

theorem BufLine.dropped (is : List Nat) : ∀ l : BufLine, Dropped l (l.drop is) is := by
  induction is with
  | nil => exact fun l => ⟨rfl, fun _ h => h, fun e he => ⟨he, List.not_mem_nil⟩⟩
  | cons i is ih =>
    intro l
    obtain ⟨hframe, hmask, hcomm⟩ := ih
      { l with mask := l.mask &&& ~~~byteBit i, data := lineSet l.data i 0, written := l.written ||| byteBit i
               removed := l.removed ||| byteBit i, comm := l.comm.filter (·.1 != i) }
    refine ⟨?_, fun k hk => ?_, fun e he => ?_⟩
    · rw [BufLine.drop, List.foldl_cons]
      exact hframe
    · have := hmask k hk
      rw [BitVec.getLsbD_and, Bool.and_eq_true] at this
      exact this.1
    · obtain ⟨hmem, hnot⟩ := hcomm e he
      obtain ⟨hin, hne⟩ := List.mem_filter.1 hmem
      exact ⟨hin, List.not_mem_cons_of_ne_of_not_mem (by simpa using hne) hnot⟩

/-- The bytes of a line that a committer owns. -/
def BufLine.ownedBy (l : BufLine) (who : Committer) : List Nat := (lineBytes l.mask l.data).filterMap fun (i, _) =>
  if l.comm.any fun (j, c) => j == i && c == who then some i else none

theorem BufLine.mem_ownedBy {l : BufLine} {who : Committer} {i : Nat} (hi : i < 64) (hm : l.mask.getLsbD i = true)
    (hc : (i, who) ∈ l.comm) : i ∈ l.ownedBy who := by
  refine List.mem_filterMap.2 ⟨(i, lineByte l.data i), List.mem_map.2 ⟨i, mem_maskBytes.2 ⟨hi, hm⟩, rfl⟩, if_pos ?_⟩
  exact List.any_eq_true.2 ⟨(i, who), hc, by simp⟩

/-- What is left of a line of the buffers when a troop ends. -/
def State.stopLine (s : State) (t : Troop) (tid : Nat) (l : BufLine) : Option BufLine :=
  match l.space with
  | .clu _ =>
    if l.epoch = 0 && !l.held then
      let m := l.drop (l.ownedBy (.trp tid))
      if m.mask = 0 then none else some { m with written := l.written, removed := l.removed }
    else if l.owner == .trp tid then none else some l
  | _ => if s.ofTroop t l then none else some l

/-- No byte of the troop is left in the line. -/
structure Without (own : Nat → Prop) (tid : Nat) (l : BufLine) : Prop where
  str : ∀ sid, own sid → l.space ≠ .str sid
  trp : l.space ≠ .trp tid
  shared : ∀ c, l.space = .clu c → l.epoch = 0 → l.held = false → ∀ i < 64, l.mask.getLsbD i = true → (i, .trp tid) ∉ l.comm
  owner : ∀ c, l.space = .clu c → l.epoch ≠ 0 ∨ l.held = true → l.owner ≠ .trp tid

theorem State.stopLine_without {s : State} {t : Troop} {l m : BufLine} (h : s.stopLine t t.tid m = some l) :
    Without (fun sid => ∃ z ∈ s.strs, z.tid = t.tid ∧ z.sid = sid) t.tid l := by
  unfold State.stopLine at h
  split at h
  next c hspace =>
    split at h
    next hfree =>
      dsimp only at h
      split at h
      · exact nomatch h
      obtain ⟨hframe, hmask, hcomm⟩ := m.dropped (m.ownedBy (.trp t.tid))
      have hl := Option.some.inj h
      have hsp : l.space = .clu c := by rw [← hl, hframe]; exact hspace
      obtain ⟨hepoch, hheld⟩ : m.epoch = 0 ∧ m.held = false := by simpa using hfree
      refine ⟨fun _ _ e => ?_, fun e => ?_, fun _ _ _ _ i hi hm hin => ?_, fun _ _ hor => ?_⟩
      · exact nomatch hsp.symm.trans e
      · exact nomatch hsp.symm.trans e
      · rw [← hl] at hm hin
        obtain ⟨hin', hnot⟩ := hcomm _ hin
        exact hnot (BufLine.mem_ownedBy hi (hmask i hm) hin')
      · have he : l.epoch = 0 := by rw [← hl, hframe]; exact hepoch
        have hh : l.held = false := by rw [← hl, hframe]; exact hheld
        simp [he, hh] at hor
    next hfree =>
      split at h
      · exact nomatch h
      next howner =>
        obtain rfl := Option.some.inj h
        refine ⟨fun _ _ e => (nomatch hspace.symm.trans e), fun e => (nomatch hspace.symm.trans e), fun _ _ he hh => ?_,
          fun _ _ _ => by simpa using howner⟩
        simp [he, hh] at hfree
  next hspace =>
    split at h
    · exact nomatch h
    next hof =>
      obtain rfl := Option.some.inj h
      refine ⟨fun sid hown e => hof ?_, fun e => hof ?_, fun c e => absurd e (hspace c), fun c e => absurd e (hspace c)⟩
      · rw [State.ofTroop, e]
        exact State.any_strsOf.2 hown
      · simp [State.ofTroop, e]

/-! ### The stages of the end (R328, R397) -/

/-- What is left of the troop. -/
def Troop.stopped (t : Troop) (cause : Option Cause) : Troop :=
  { t with st := .ended cause, blocks := [], arrivals := [], words := [], scratch := [], tandem := none, joining := none
           overflow := false, failing := none, fails := [], rcPending := [] }

/-- The launch of a troop that has ended counts one troop less, and keeps its first cause. -/
def Launch.loses (cause : Option Cause) (l : Launch) : Launch :=
  { l with live := l.live - 1, cause := if l.cause.isSome then l.cause else cause }

/-- A troop whose work has been cancelled leaves: its lines, its nodes, its barriers and its strings go. -/
def State.leaves (s : State) (t : Troop) (tid : Nat) (cause : Option Cause) : State :=
  ({ s with
    lines := s.lines.filterMap (s.stopLine t tid)
    nodes := s.nodes.filter (·.tid != tid)
    bars := s.bars.filter (s.notTroopBar tid)
    strs := s.strs.filter (·.tid != tid)
    tandems := s.tandems.map fun (d : Tandem) => { d with tids := d.tids.filter (· != tid) } }.updTroop tid
      (·.stopped cause)).updLaunch t.launch (·.loses cause)

/-- The machine as the work of a troop has been cancelled, before the troop leaves. -/
structure Halted (s u : State) (t : Troop) : Prop where
  strs : ∃ h, u.strs = updAll (·.tid == t.tid) (Str.respill h) s.strs
  troop : ∃ h p, u.troop? t.tid = some (t.respill h p)
  accs : u.accs = s.accs.filter fun a => !s.failedSid t.tid 0 a.sid a.depth
  ops : u.ops = s.ops.filter fun o => !(o.tid == t.tid && decide (0 ≤ o.depth))
  engs : u.engs = s.engs.filter fun e => !s.failedSid t.tid 0 e.sid e.depth
  rail : u.rail = s.rail.filter fun e => !(e.tid == t.tid && decide (0 ≤ e.depth))
  launches : u.launches = s.launches
  memory : u.mem = s.mem ∧ u.llc = s.llc ∧ u.l1 = s.l1 ∧ u.l2 = s.l2 ∧ u.writes = s.writes

section
variable {s : State} {t : Troop} (ht : s.troop? t.tid = some t)
include ht

theorem State.halted : Halted s ((((s.cancelWork t.tid 0).dropMat t.core t.tid).keepArrivals t).partHeld t) t := by
  obtain ⟨h, p, qs, js, ps, rf, hr, ns, pads, hc⟩ := State.cancelWork_cancelled ht 0
  obtain ⟨qs', js', ps', hd⟩ := SameButMat.dropMat (s.cancelWork t.tid 0) t.core t.tid
  rw [hd, hc]
  exact ⟨⟨h, rfl⟩, ⟨h, p, State.troop?_updTroop ht _ rfl⟩, rfl, rfl, rfl, rfl, rfl, rfl, rfl, rfl, rfl, rfl⟩

variable (he : t.ended = false) (ho : t.outr = none)
include he ho

theorem State.stopTroop_eq (cause : Option Cause) : s.stopTroop t.tid cause =
    let u := ((((s.cancelWork t.tid 0).dropMat t.core t.tid).keepArrivals t).partHeld t).leaves t t.tid cause
    (u.sharedKeys t).foldl (fun s k => s.checkBar k) u := by
  have htie : s.dropTie t = s := by rw [State.dropTie, ho]; rfl
  simp only [State.stopTroop, ht, he, htie, ho, Bool.false_eq_true, if_false]
  rfl

end

/-- No string of a troop that has left is in the machine. -/
theorem State.leaves_apart (u : State) (t : Troop) (tid : Nat) (cause : Option Cause) : Apart tid (u.leaves t tid cause) := by
  have hnone : ∀ z ∈ (u.leaves t tid cause).strs, z.tid ≠ tid := fun z hz => by simpa using (List.mem_filter.1 hz).2
  exact ⟨fun z hz h => absurd h (hnone z hz), fun _ _ y hy _ h => absurd h (hnone y hy)⟩

/-- A troop whose work has been cancelled leaves, and the barriers that it shared conclude what they can. -/
theorem Halted.stopped {s u v : State} {t : Troop} {cause : Cause} (h : Halted s u t)
    (hv : Released t.tid (u.leaves t t.tid (some cause)) v) : Stopped s v t cause := by
  obtain ⟨hspill, hstrs⟩ := h.strs
  obtain ⟨hspill', p, htroop⟩ := h.troop
  obtain ⟨hmem, hllc, hl1, hl2, hwrites⟩ := h.memory
  have own_iff (sid : Nat) : (∃ z ∈ u.strs, z.tid = t.tid ∧ z.sid = sid) ↔ ∃ z ∈ s.strs, z.tid = t.tid ∧ z.sid = sid := by
    rw [hstrs]
    exact own_updAll (p := (·.tid == t.tid)) (f := Str.respill hspill) (fun _ => rfl) (fun _ => rfl) s.strs
  have hframe := hv.frame
  refine ⟨?_, fun y hy => ?_, fun z hz hne => ?_, fun x hx => ?_, fun a => ?_, fun o => ?_, fun e => ?_, fun e => ?_, fun l hl => ?_, ?_,
    ?_, ?_, ?_, ?_, ?_⟩
  · rw [hv.troop]
    exact State.troop?_updTroop htroop _ rfl
  · obtain ⟨z, hz, hzy⟩ := mem_of_forall₂ hv.strs hy
    rw [hzy.tid_eq]
    simpa using (List.mem_filter.1 hz).2
  · have hmem : z ∈ (u.leaves t t.tid (some cause)).strs := by
      refine List.mem_filter.2 ⟨?_, by simpa using hne⟩
      rw [hstrs]
      exact mem_updAll_of_not hz (by simpa using hne)
    obtain ⟨y, hy, hzy⟩ := image_of_forall₂ hv.strs hmem
    exact ⟨y, hy, hzy.frame⟩
  · rw [hframe] at hx
    simpa using (List.mem_filter.1 hx).2
  · rw [hframe]
    change a ∈ u.accs ↔ _
    rw [h.accs, List.mem_filter, Bool.not_eq_true', ← Bool.not_eq_true, State.failedSid_iff]
    simp
  · rw [hframe]
    change o ∈ u.ops ↔ _
    rw [h.ops, List.mem_filter]
    simp
  · rw [hframe]
    change e ∈ u.engs ↔ _
    rw [h.engs, List.mem_filter, Bool.not_eq_true', ← Bool.not_eq_true, State.failedSid_iff]
    simp
  · rw [hframe]
    change e ∈ u.rail ↔ _
    rw [h.rail, List.mem_filter]
    simp
  · rw [hframe] at hl
    obtain ⟨m, -, hm⟩ := List.mem_filterMap.1 (show l ∈ u.lines.filterMap (u.stopLine t t.tid) from hl)
    obtain ⟨hstr, htrp, hshared, howner⟩ := State.stopLine_without hm
    exact ⟨fun sid hown => hstr sid ((own_iff sid).2 hown), htrp, hshared, howner⟩
  · rw [hframe]
    change updFirst _ _ u.launches = _
    rw [h.launches]
    rfl
  · rw [hframe]; exact hmem
  · rw [hframe]; exact hllc
  · rw [hframe]; exact hl1
  · rw [hframe]; exact hl2
  · rw [hframe]; exact hwrites

/-- A troop that ends leaves what `Stopped` says. -/
theorem State.endTroop_stopped {s : State} {t : Troop} (ht : s.troop? t.tid = some t) (he : t.ended = false) (ho : t.outr = none)
    (cause : Cause) : Stopped s (s.endTroop t.tid cause) t cause := by
  rw [State.endTroop_alone ht ho, State.stopTroop_eq ht he ho]
  exact (State.halted ht).stopped (.checkBars (State.leaves_apart ..) _)

end Sys2Proof.Machine
end

section
/-! PROOFS. What the rollback of one string, and of the words of its troop, gives back (part of O19). -/

namespace Sys2Proof.Machine

open Sys2Proof.Claims

/-! ### A fold that writes one cell for each entry -/

/-- What a fold of writes with different keys leaves at one key: what the entry of that key writes there, or what stood there. -/
theorem foldl_read {α β γ κ : Type} [DecidableEq κ] {step : α → β → α} {key : β → κ} {val : β → γ} {R : α → γ} {k : κ}
    (hstep : ∀ z e, R (step z e) = if key e = k then val e else R z) (es : List β) :
    (es.map key).Nodup → ∀ z, R (es.foldl step z) = (es.find? (key · == k)).elim (R z) val := by
  induction es with
  | nil => exact fun _ _ => rfl
  | cons e es ih =>
    intro hn z
    obtain ⟨hnot, hn⟩ := List.nodup_cons.1 hn
    rw [List.foldl_cons, ih hn, hstep]
    by_cases hk : key e = k
    · have hnone : es.find? (key · == k) = none :=
        List.find?_eq_none.2 fun x hx he => hnot (List.mem_map.2 ⟨x, hx, by simpa [hk] using he⟩)
      rw [hnone, List.find?_cons_of_pos (by simpa using hk), if_pos hk]
      rfl
    · rw [List.find?_cons_of_neg (by simpa using hk), if_neg hk]

/-! ### What a recorded register takes back (R421) -/

section
variable (z : Str) (e : BagEnt)

theorem Str.vreg_unbag {n l : Nat} (hl : l < 32) :
    (z.unbag e).vreg n l = if e.key = .v n then BitVec.ofNat 32 (e.vals.getD l 0) else z.vreg n l := by
  obtain ⟨key, tag, vals, spill⟩ := e
  cases key with
  | v m =>
    have hall : List.range 32 = lanesOf (BitVec.allOnes 32) := by decide
    simp only [Str.unbag]
    rw [hall, Str.vreg_putV _ _ _ _ _ _ hl, BitVec.getLsbD_allOnes]
    simp [hl, eq_comm]
  | _ => exact (if_neg (by simp)).symm

theorem Str.sreg_unbag (n : Nat) :
    (z.unbag e).sreg n = if e.key = .s n then BitVec.ofNat 64 (e.vals.headD 0) else z.sreg n := by
  obtain ⟨key, tag, vals, spill⟩ := e
  cases key with
  | s m => simp [Str.unbag, Str.sreg, Cells.get_set, eq_comm]
  | _ => exact (if_neg (by simp)).symm

theorem Str.p_unbag (n : Nat) : Cells.get 0 (z.unbag e).p n =
    if e.key = .p n then BitVec.ofNat 32 (e.vals.headD 0) else Cells.get 0 z.p n := by
  obtain ⟨key, tag, vals, spill⟩ := e
  cases key with
  | p m => simp [Str.unbag, Cells.get_set, eq_comm]
  | _ => exact (if_neg (by simp)).symm

theorem Str.breg_unbag (n : Nat) :
    (z.unbag e).breg n = if e.key = .b n then BitVec.ofNat 256 (e.vals.headD 0) else z.breg n := by
  obtain ⟨key, tag, vals, spill⟩ := e
  cases key with
  | b m => simp [Str.unbag, Str.breg, Cells.get_set, eq_comm]
  | _ => exact (if_neg (by simp)).symm

theorem Str.fpctl_unbag : (z.unbag e).fpctl = if e.key = .fpctl then BitVec.ofNat 32 (e.vals.headD 0) else z.fpctl := by
  obtain ⟨key, tag, vals, spill⟩ := e
  cases key with
  | fpctl => exact (if_pos rfl).symm
  | _ => exact (if_neg (by simp)).symm

theorem Str.strctl_unbag : (z.unbag e).strctl = if e.key = .strctl then BitVec.ofNat 32 (e.vals.headD 0) else z.strctl := by
  obtain ⟨key, tag, vals, spill⟩ := e
  cases key with
  | strctl => exact (if_pos rfl).symm
  | _ => exact (if_neg (by simp)).symm

theorem Str.trapBase_unbag :
    (z.unbag e).trapBase = if e.key = .trapBase then BitVec.ofNat 64 (e.vals.headD 0) else z.trapBase := by
  obtain ⟨key, tag, vals, spill⟩ := e
  cases key with
  | trapBase => exact (if_pos rfl).symm
  | _ => exact (if_neg (by simp)).symm

end

/-- A string that differs at most in the registers that the saddlebag records. -/
def SameButRegs (z y : Str) : Prop := ∃ v s p b f st tb,
  y = { z with v := v, s := s, p := p, b := b, fpctl := f, strctl := st, trapBase := tb }

theorem SameButRegs.unbag {z y : Str} (h : SameButRegs z y) (e : BagEnt) : SameButRegs z (y.unbag e) := by
  obtain ⟨key, tag, vals, spill⟩ := e
  obtain ⟨v, s, p, b, f, st, tb, rfl⟩ := h
  cases key <;> exact ⟨_, _, _, _, _, _, _, rfl⟩

theorem SameButRegs.foldl {z : Str} (es : List BagEnt) : ∀ {y : Str}, SameButRegs z y → SameButRegs z (es.foldl Str.unbag y) := by
  induction es with
  | nil => exact fun h => h
  | cons e es ih => exact fun h => ih (h.unbag e)

/-- What the recorded registers of a string give back to one of its registers. -/
theorem Str.read_foldl_unbag {γ : Type} {R : Str → γ} {f : List Nat → γ} {k : BagKey} {z : Str} {j : Nat}
    (hR : ∀ z e, R (z.unbag e) = if e.key = k then f e.vals else R z) (hn : ((oldest j z.bag).map (·.key)).Nodup) (y : Str) :
    R ((oldest j z.bag).foldl Str.unbag y) = (oldVals z j k).elim (R y) f := by
  rw [foldl_read hR _ hn, oldVals]
  cases (oldest j z.bag).find? (·.key == k) <;> rfl

/-- What an entry's place in the recovery spill area is does not matter to what is rolled back. -/
theorem Str.foldl_unbag_respill (h : Option (Nat × List Nat) → Option (Nat × List Nat)) (z : Str) (j : Nat) (y : Str) :
    (oldest j (z.respill h).bag).foldl Str.unbag y = (oldest j z.bag).foldl Str.unbag y := by
  simp only [oldest, Str.respill, List.filter_map, List.foldl_map, List.all_map]
  rfl

/-! ### What a recorded tile register takes back (R176) -/

/-- The records of tile registers that a rollback takes. -/
def Str.oldTiles (z : Str) (j : Nat) : List TileEnt :=
  z.tiles.filter fun e => decide (j ≤ e.tag) && z.tiles.all fun f => f.n != e.n || decide (f.tag < j) || decide (e.tag ≤ f.tag)

theorem Str.mem_oldTiles {z : Str} {j : Nat} {e : TileEnt} :
    e ∈ z.oldTiles j ↔ e ∈ z.tiles ∧ j ≤ e.tag ∧ ∀ f ∈ z.tiles, f.n = e.n → j ≤ f.tag → e.tag ≤ f.tag := by
  simp only [Str.oldTiles, List.mem_filter, Bool.and_eq_true, decide_eq_true_iff, List.all_eq_true, Bool.or_eq_true, bne_iff_ne]
  refine and_congr_right fun _ => and_congr_right fun _ => forall₂_congr fun f _ => ?_
  rw [← Nat.not_le, or_assoc, ← imp_iff_not_or, ← imp_iff_not_or]

theorem Str.nodup_oldTiles {z : Str} (hn : (z.tiles.map fun e => (e.n, e.tag)).Nodup) (j : Nat) : ((z.oldTiles j).map (·.n)).Nodup := by
  refine List.Nodup.map_on (fun e he f hf hef => ?_) (hn.of_map.filter _)
  obtain ⟨hez, hje, hemin⟩ := Str.mem_oldTiles.1 he
  obtain ⟨hfz, hjf, hfmin⟩ := Str.mem_oldTiles.1 hf
  have htag : e.tag = f.tag := Nat.le_antisymm (hemin f hfz hef.symm hjf) (hfmin e hez hef hje)
  exact List.inj_on_of_nodup_map hn hez hfz (by rw [hef, htag])

theorem Str.treg_untile {z : Str} (hn : (z.tiles.map fun e => (e.n, e.tag)).Nodup) (j n : Nat) :
    (z.untile j).treg n = (z.tiles.find? fun e => e.n == n && decide (j ≤ e.tag) &&
      z.tiles.all fun f => f.n != n || decide (f.tag < j) || decide (e.tag ≤ f.tag)).elim (z.treg n) (·.val) := by
  have hread := foldl_read (step := fun t (e : TileEnt) => Cells.set .empty t e.n e.val) (R := fun t => Cells.get .empty t n) 
    (val := (·.val)) (k := n) (fun t e => by rw [Cells.get_set]; simp only [eq_comm]) (z.oldTiles j) (Str.nodup_oldTiles hn j) z.t
  refine hread.trans ?_
  rw [Str.oldTiles, List.find?_filter]
  congr 2
  funext e
  by_cases hen : e.n = n
  · subst hen
    simp only [beq_self_eq_true, and_true, Bool.decide_eq_true, Bool.true_and]
  · simp [hen]

/-! ### The rollback of a string (R419, R423) -/

theorem Str.rollback_restored {z : Str} {j : Nat} (hbag : ((oldest j z.bag).map (·.key)).Nodup)
    (htiles : (z.tiles.map fun e => (e.n, e.tag)).Nodup) (h : Option (Nat × List Nat) → Option (Nat × List Nat)) :
    Restored z ((z.respill h).rollback j) j := by
  have hread {γ : Type} (R : Str → γ) {f : List Nat → γ} {k : BagKey} (hR : ∀ z e, R (z.unbag e) = if e.key = k then f e.vals else R z) :=
    Str.read_foldl_unbag hR hbag (z.respill h)
  have hv (n l : Nat) (hl : l < 32) := hread (·.vreg n l) (f := fun xs => BitVec.ofNat 32 (xs.getD l 0)) fun z e => Str.vreg_unbag z e (n := n) hl
  have hs (n : Nat) := hread (·.sreg n) (f := fun xs => BitVec.ofNat 64 (xs.headD 0)) fun z e => Str.sreg_unbag z e n
  have hp (n : Nat) := hread (Cells.get 0 ·.p n) (f := fun xs => BitVec.ofNat 32 (xs.headD 0)) fun z e => Str.p_unbag z e n
  have hb (n : Nat) := hread (·.breg n) (f := fun xs => BitVec.ofNat 256 (xs.headD 0)) fun z e => Str.breg_unbag z e n
  have hfpctl := hread (·.fpctl) (f := fun xs => BitVec.ofNat 32 (xs.headD 0)) Str.fpctl_unbag
  have hstrctl := hread (·.strctl) (f := fun xs => BitVec.ofNat 32 (xs.headD 0)) Str.strctl_unbag
  have htrapBase := hread (·.trapBase) (f := fun xs => BitVec.ofNat 64 (xs.headD 0)) Str.trapBase_unbag
  have hframe := SameButRegs.foldl (oldest j z.bag) (z := z.respill h) (y := z.respill h) ⟨_, _, _, _, _, _, _, rfl⟩
  unfold Restored Str.rollback
  rw [Str.foldl_unbag_respill]
  generalize (oldest j z.bag).foldl Str.unbag (z.respill h) = w at *
  obtain ⟨v, s, p, b, f, st, tb, rfl⟩ := hframe
  refine ⟨fun n l hl => (hv n l hl).trans ?_, fun n => (hs n).trans ?_, fun n => (hp n).trans ?_, fun n => (hb n).trans ?_,
    fun n => (Str.treg_untile (z := { z.respill h with v := v }) htiles j n).trans ?_, hfpctl.trans ?_, hstrctl.trans ?_,
    htrapBase.trans ?_, ?_, rfl, rfl, rfl, rfl, rfl, rfl, rfl⟩
  · cases oldVals z j (.v n) <;> rfl
  · cases oldVals z j (.s n) <;> rfl
  · cases oldVals z j (.p n) <;> rfl
  · cases oldVals z j (.b n) <;> rfl
  · simp only [Str.respill]
    cases z.tiles.find? _ <;> rfl
  · cases oldVals z j .fpctl <;> rfl
  · cases oldVals z j .strctl <;> rfl
  · cases oldVals z j .trapBase <;> rfl
  · simp only [Str.untile, Str.respill, List.filter_map, List.map_map]
    rfl

/-- A string keeps its id and its troop. -/
theorem Str.rollback_ids (z : Str) (j : Nat) : (z.rollback j).sid = z.sid ∧ (z.rollback j).tid = z.tid := by
  have hframe := SameButRegs.foldl (oldest j z.bag) (z := z) (y := z) ⟨_, _, _, _, _, _, _, rfl⟩
  unfold Str.rollback
  generalize (oldest j z.bag).foldl Str.unbag z = w at *
  obtain ⟨v, s, p, b, f, st, tb, rfl⟩ := hframe
  exact ⟨rfl, rfl⟩

theorem Str.rollback_park {z : Str} {j : Nat} {l : Lane} (hl : l ∈ (z.rollback j).lanes) : l.park = .none := by
  obtain ⟨x, -, rfl⟩ := List.mem_map.1 hl
  rfl

/-! ### The words of a troop (R423) -/

theorem Troop.foldl_put_respill (h : Option (Nat × List Nat) → Option (Nat × List Nat)) (p : Nat × Nat × List Nat → Bool) (t : Troop)
    (j : Nat) (c : Cells Byte) : (oldestWords j (t.respill h p).words).foldl WordEnt.put c = (oldestWords j t.words).foldl WordEnt.put c := by
  simp only [oldestWords, Troop.respill, List.filter_map, List.foldl_map, List.all_map]
  rfl

theorem WordEnt.get_put (c : Cells Byte) (e : WordEnt) (a : Nat) : Cells.get 0 (WordEnt.put c e) a =
    if e.word = a / 4 then BitVec.ofNat 8 (e.val >>> (8 * (a % 4))) else Cells.get 0 c a := by
  unfold WordEnt.put
  split
  next hw =>
    refine Cells.get_setMany_of_mem 0 _ c a _ (List.mem_map.2 ⟨a % 4, List.mem_range.2 (Nat.mod_lt a (by decide)), ?_⟩) ?_
    · rw [hw, Nat.div_add_mod]
    · rw [List.map_map]
      exact List.nodup_range.map fun _ _ hxy => Nat.add_left_cancel hxy
  next hw =>
    refine Cells.get_setMany_of_not_mem 0 _ c a (List.forall_mem_map.2 fun i hi hia => hw ?_)
    have := List.mem_range.1 hi
    dsimp only at hia
    omega

theorem Troop.scratchByte_unword {t : Troop} {j : Nat} (hn : ((oldestWords j t.words).map (·.word)).Nodup)
    (h : Option (Nat × List Nat) → Option (Nat × List Nat)) (p : Nat × Nat × List Nat → Bool) (a : Nat) :
    ((t.respill h p).unword j).scratchByte a = ((oldestWords j t.words).find? (·.word == a / 4)).elim (t.scratchByte a)
      fun e => BitVec.ofNat 8 (e.val >>> (8 * (a % 4))) := by
  simp only [Troop.scratchByte, Troop.unword, Troop.foldl_put_respill]
  exact foldl_read (R := fun c => Cells.get 0 c a) (fun c e => WordEnt.get_put c e a) _ hn _

theorem Troop.words_unword {t : Troop} {h : Option (Nat × List Nat) → Option (Nat × List Nat)} {p : Nat × Nat × List Nat → Bool} {j : Nat}
    {e : WordEnt} (he : e ∈ ((t.respill h p).unword j).words) : e.tag < j := by
  simpa using (List.mem_filter.1 he).2

end Sys2Proof.Machine
end

section
/-! PROOFS. The rollback of a troop (part of O19). -/

namespace Sys2Proof.Machine

open Sys2Proof.Claims

/-! ### The lines of a rollback (R222) -/

theorem updAll_updAll {α : Type} {p : α → Bool} {f g : α → α} (hg : ∀ x, p (g x) = p x) (xs : List α) :
    updAll p f (updAll p g xs) = updAll p (fun x => f (g x)) xs := by
  simp only [updAll, List.map_map]
  refine List.map_congr_left fun x _ => ?_
  cases hx : p x <;> simp [hx, hg]

/-- A line is of a troop by the ids of the troop's strings alone. -/
theorem State.ofTroop_congr {s u : State} {t : Troop}
    (h : ∀ sid, (∃ z ∈ u.strs, z.tid = t.tid ∧ z.sid = sid) ↔ ∃ z ∈ s.strs, z.tid = t.tid ∧ z.sid = sid) (l : BufLine) :
    u.ofTroop t l = s.ofTroop t l := by
  unfold State.ofTroop
  split
  next sid => rw [Bool.eq_iff_iff, State.any_strsOf, State.any_strsOf, h]
  · rfl
  · rfl

theorem State.mem_rollbackBuffers {s : State} {t : Troop} {j : Nat} (hj : 0 < j) {l : BufLine} :
    l ∈ (s.rollbackBuffers t j).lines ↔ ∃ m ∈ s.lines, ¬(s.ofTroop t m = true ∧ j ≤ m.epoch) ∧
      l = if s.ofTroop t m = true ∧ j ≤ m.covered then { m with covered := 0 } else m := by
  refine List.mem_filterMap.trans (exists_congr fun m => and_congr_right fun _ => ?_)
  cases hof : s.ofTroop t m
  · simp [eq_comm]
  · by_cases he : j ≤ m.epoch
    · have : m.epoch ≠ 0 := by omega
      simp [he, this]
    · by_cases hc : j ≤ m.covered <;> simp [he, hc, eq_comm]

/-! ### The stages of a rollback (R419) -/

/-- The strings of a troop as their recorded registers are restored. -/
def State.rollStrs (s : State) (tid j : Nat) : State := { s with strs := updAll (·.tid == tid) (·.rollback j) s.strs }

/-- The machine as a rollback leaves it before the barriers that it has withdrawn from conclude what they can. -/
def State.undo (s : State) (t : Troop) (j : Nat) : State :=
  ((((s.cancelWork t.tid j).rollStrs t.tid j).freeNodes).rollbackBuffers t j).withdraw t.tid j

/-- What a rollback leaves of a troop. -/
def Troop.rolledBack (j : Nat) (t : Troop) : Troop :=
  { t.unword j with
    arrivals := [], joining := none, overflow := false, failing := none, spillSkip := []
    outr := t.outr.map fun o => { o with waiting := none, decided := none }
    mmaj := match t.blocks[j - 1]? with | some b => b.mmaj | none => t.mmaj }

theorem State.rollback_eq {s : State} {t : Troop} (ht : s.troop? t.tid = some t) (ho : t.outr = none) (j : Nat) :
    ∃ ks : List BarKey, s.rollback t.tid j = (ks.foldl (fun s k => s.checkBar k) (s.undo t j)).updTroop t.tid (·.rolledBack j) := by
  have htie : s.dropTie t = s := by rw [State.dropTie, ho]; rfl
  simp only [State.rollback, ht, htie]
  exact ⟨_, rfl⟩

/-- What `State.undo` has done. -/
structure Undone (s u : State) (t : Troop) (j : Nat) : Prop where
  strs : ∃ h, u.strs = updAll (·.tid == t.tid) (fun z => (z.respill h).rollback j) s.strs
  troop : ∃ h p, u.troop? t.tid = some (t.respill h p)
  lines : ∀ l, l ∈ u.lines ↔ ∃ m ∈ s.lines, ¬(s.ofTroop t m = true ∧ j ≤ m.epoch) ∧
    l = if s.ofTroop t m = true ∧ j ≤ m.covered then { m with covered := 0 } else m
  accs : u.accs = s.accs.filter fun a => !s.failedSid t.tid j a.sid a.depth
  ops : u.ops = s.ops.filter fun o => !(o.tid == t.tid && decide (j ≤ o.depth))
  engs : u.engs = s.engs.filter fun e => !s.failedSid t.tid j e.sid e.depth
  memory : u.mem = s.mem ∧ u.llc = s.llc ∧ u.l1 = s.l1 ∧ u.l2 = s.l2

theorem State.undone {s : State} {t : Troop} (ht : s.troop? t.tid = some t) {j : Nat} (hj : 0 < j) : Undone s (s.undo t j) t j := by
  obtain ⟨h, p, qs, js, ps, rf, hr, ns, pads, hc⟩ := State.cancelWork_cancelled ht j
  have hfree := (State.freeNodes_fewer ((s.cancelWork t.tid j).rollStrs t.tid j)).1
  have hstrs : ((s.cancelWork t.tid j).rollStrs t.tid j).freeNodes.strs =
      updAll (·.tid == t.tid) (fun z => (z.respill h).rollback j) s.strs := by
    rw [hfree, hc]
    exact updAll_updAll (p := (·.tid == t.tid)) (f := (·.rollback j)) (g := Str.respill h) (fun _ => rfl) s.strs
  have hof := State.ofTroop_congr (s := s) (u := ((s.cancelWork t.tid j).rollStrs t.tid j).freeNodes) (t := t) fun sid => by
    rw [hstrs]
    exact own_updAll (p := (·.tid == t.tid)) (fun z => ((z.respill h).rollback_ids j).1) (fun z => ((z.respill h).rollback_ids j).2) s.strs
  have hlines : ((s.cancelWork t.tid j).rollStrs t.tid j).freeNodes.lines = s.lines := by rw [hfree, hc]; rfl
  refine ⟨⟨h, hstrs⟩, ⟨h, p, ?_⟩, fun l => ?_, ?_, ?_, ?_, ?_⟩
  · exact (congrArg (State.troop? · t.tid) hfree).trans (by rw [hc]; exact State.troop?_updTroop ht _ rfl)
  · refine (State.mem_rollbackBuffers hj).trans ?_
    simp only [hof, hlines]
  · exact (congrArg State.accs hfree).trans (by rw [hc]; rfl)
  · exact (congrArg State.ops hfree).trans (by rw [hc]; rfl)
  · exact (congrArg State.engs hfree).trans (by rw [hc]; rfl)
  · exact ⟨(congrArg State.mem hfree).trans (by rw [hc]; rfl), (congrArg State.llc hfree).trans (by rw [hc]; rfl),
      (congrArg State.l1 hfree).trans (by rw [hc]; rfl), (congrArg State.l2 hfree).trans (by rw [hc]; rfl)⟩

/-- Strings of different ids whose lanes are not parked are apart from those of other troops. -/
theorem apart_of_nodup {tid : Nat} {u : State} (hn : (u.strs.map (·.sid)).Nodup)
    (hp : ∀ z ∈ u.strs, z.tid = tid → ∀ l ∈ z.lanes, l.park = .none) : Apart tid u :=
  ⟨hp, fun z hz y hy hsid ht => by rw [← List.inj_on_of_nodup_map hn hy hz hsid, ht]⟩

section
variable {s u v : State} {t : Troop} {j : Nat} (h : Undone s u t j)
include h

theorem Undone.apart (hn : (s.strs.map (·.sid)).Nodup) : Apart t.tid u := by
  obtain ⟨hspill, hstrs⟩ := h.strs
  refine apart_of_nodup ?_ fun y hy ht => ?_
  · have hsids : u.strs.map (·.sid) = s.strs.map (·.sid) := by
      rw [hstrs, updAll, List.map_map]
      refine List.map_congr_left fun z _ => ?_
      dsimp only [Function.comp]
      split
      · exact ((z.respill hspill).rollback_ids j).1
      · rfl
    rwa [hsids]
  · rw [hstrs] at hy
    obtain ⟨z, -, hzy⟩ := List.mem_map.1 hy
    split at hzy
    · rw [← hzy]
      exact fun l hl => Str.rollback_park hl
    next hne => exact absurd (beq_iff_eq.2 (hzy ▸ ht)) hne

/-- A rollback whose barriers have concluded what they can is one. -/
theorem Undone.rolledBack (hv : Released t.tid u v) (hr : RecordedOnce s t j) :
    RolledBack s (v.updTroop t.tid (·.rolledBack j)) t j := by
  obtain ⟨-, hbags, hwords⟩ := hr
  obtain ⟨hspill, hstrs⟩ := h.strs
  obtain ⟨hspill', p, htroop⟩ := h.troop
  have hframe := hv.frame
  have hdead (sid d : Nat) : s.failedSid t.tid j sid d = false ↔ ¬((∃ z ∈ s.strs, z.tid = t.tid ∧ z.sid = sid) ∧ j ≤ d) := by
    rw [← Bool.not_eq_true, State.failedSid_iff]
  refine ⟨fun z hz => ?_, ⟨_, State.troop?_updTroop (hv.troop.trans htroop) _ rfl, rfl, rfl, rfl, rfl, rfl,
    fun e he => Troop.words_unword he, fun a => ?_⟩, ?_, fun a => ?_, fun e => ?_, fun o => ?_, ?_⟩
  · obtain ⟨hmem, htid⟩ := List.mem_filter.1 hz
    have hu : (z.respill hspill).rollback j ∈ u.strs := by
      rw [hstrs]
      exact List.mem_map.2 ⟨z, hmem, if_pos htid⟩
    obtain ⟨y, hy, hzy⟩ := image_of_forall₂ hv.strs hu
    obtain rfl := hzy.own (((z.respill hspill).rollback_ids j).2.trans (beq_iff_eq.1 htid))
    exact ⟨_, hy, Str.rollback_restored (hbags z hz).1 (hbags z hz).2 hspill⟩
  · refine (Troop.scratchByte_unword hwords hspill' p a).trans ?_
    cases (oldestWords j t.words).find? (·.word == a / 4) <;> rfl
  · rw [hframe]
    exact h.lines
  · rw [hframe]
    change a ∈ u.accs ↔ _
    rw [h.accs, List.mem_filter, Bool.not_eq_true', hdead]
  · rw [hframe]
    change e ∈ u.engs ↔ _
    rw [h.engs, List.mem_filter, Bool.not_eq_true', hdead]
  · rw [hframe]
    change o ∈ u.ops ↔ _
    rw [h.ops, List.mem_filter, Bool.not_eq_true', ← Bool.not_eq_true, Bool.and_eq_true, beq_iff_eq, decide_eq_true_iff]
  · rw [hframe]
    exact h.memory

end

theorem State.rollback_rolledBack {s : State} {t : Troop} {j : Nat} (ht : s.troop? t.tid = some t) (ho : t.outr = none) (hj : 0 < j)
    (hr : RecordedOnce s t j) : RolledBack s (s.rollback t.tid j) t j := by
  obtain ⟨ks, hks⟩ := State.rollback_eq ht ho j
  have hu := State.undone ht hj
  rw [hks]
  exact hu.rolledBack (.checkBars (hu.apart hr.1) ks) hr

end Sys2Proof.Machine
end

section
/-! PROOFS. A trap that finds no handler, and the whole of O19. -/

namespace Sys2Proof.Machine

open Sys2Proof.Claims

section
variable {s : State} {c : Cur} {z : Str} {t : Troop}

/-- A trap with no handler ends the troop (R391). -/
theorem State.deliver_noHandler {sid : Nat} (hz : s.str? sid = some z) (ht : s.troop? z.tid = some t) (hb : z.trapBase = 0) (cause : Cause)
    (pc nodePc ret : Addr) (g : Mask) : s.deliver sid cause pc nodePc ret g =
      s.endTroop t.tid (if cause = .recoveryExhausted then .recoveryExhausted else .doubleFault) := by
  simp only [State.deliver, hz, hb, if_true, State.troop_tid ht]

theorem State.raise_noHandler {cause : Cause} (hz : s.str? c.sid = some z) (ht : s.troop? z.tid = some t) (hc : c.trap = false)
    (hl : z.lanes.any (·.trap) = false) (hb : z.trapBase = 0) (hd : t.depth = 0 ∨ cause.routes = false) :
    s.raise c cause = s.endTroop t.tid (if cause = .recoveryExhausted then .recoveryExhausted else .doubleFault) := by
  have hno : ¬(t.depth ≠ 0 ∧ cause.routes = true) := fun ⟨hdepth, hroutes⟩ =>
    hd.elim hdepth fun h => Bool.false_ne_true (h.symm.trans hroutes)
  rw [State.raise_routed hz ht hc hl, if_neg hno, State.deliver_noHandler hz ht hb]

/-- TRAP is not routed to an alternate, so that a string without a handler ends its troop by it (R391, R417). -/
theorem exec_trap_noHandler {o : ImmOps} (h : Issues s (.trap o) c z t) (hc : c.trap = false) (hl : z.lanes.any (·.trap) = false)
    (hb : z.trapBase = 0) (he : t.ended = false) (ho : t.outr = none) :
    ∃ u, exec (.trap o) s = .next u ∧ Stopped s u t .doubleFault := by
  have hraise : s.raise c .trapInstr = s.endTroop t.tid .doubleFault := State.raise_noHandler h.str h.troop hc hl hb (.inr rfl)
  have hstop := State.endTroop_stopped (issues_tid h) he ho .doubleFault
  refine ⟨_, ?_, hstop⟩
  rw [exec_trap, State.issue_done h noCheck _ rfl (by rw [hraise]; exact hstop.1) rfl, hraise]

end

/-- Settles O19, by the cases of a raised trap, the stages of a troop's end and of a rollback, and the one record that each write of a
register makes first. -/
theorem trapsInTrapMode : Obligations.TrapsInTrapMode := by
  refine ⟨fun _ _ _ _ => State.raise_deferred, fun _ _ _ _ _ hz ht hc hd => ?_, fun _ _ _ _ _ hz ht hc hd => ?_,
    fun _ _ _ _ _ hz ht hc hl hd hr => ?_, fun _ _ _ _ _ => State.raise_noHandler,
    fun _ _ _ _ _ h _ hc hl hb he ho => exec_trap_noHandler h hc hl hb he ho,
    fun _ _ cause ht he ho => State.endTroop_stopped ht he ho cause, fun _ _ _ cause ht ho => State.endTroop_pair ht ho cause,
    fun _ _ _ _ _ ht => State.noteFail_eq ht _, State.tick_eq, fun _ _ => State.takeFails_one, failureEnds,
    fun _ _ _ => State.rollback_rolledBack, movi_writes, sand_writes, elect_writes, swrite_fpctl_writes, swrite_strctl_writes,
    fun s sid d z t key hz ht => ⟨fun hk => State.record_outside hz ht hk _, fun hk => ?_⟩,
    fun t a _ => ⟨t.recordWord (a / 4), recordsWord t _, rfl⟩, fun _ _ _ => rfl⟩
  · rw [State.raise_second hz ht hc, if_pos hd]
  · rw [State.raise_second hz ht hc, if_neg hd]
  · rw [State.raise_routed hz ht hc hl, if_pos ⟨hd, hr⟩]
  · obtain ⟨bag, t1, hrec, -, he⟩ := State.record_inside hz ht hk
    exact ⟨bag, t1, hrec, he⟩

end Sys2Proof.Machine
end
